-- ==== Sys2Proof/Word.lean ====
section
/-! DEFINITION. The word types of the Yunarex Q4: instruction words, registers, addresses, lane masks. -/

namespace Sys2Proof

/-- A byte of memory. -/
abbrev Byte := BitVec 8

/-- A 32-bit register or lane. -/
abbrev Word := BitVec 32

/-- A 64-bit register pair, an address or an instruction word (R5, R87). -/
abbrev DWord := BitVec 64

/-- One bit per lane of a group, lane 0 in bit 0 (R22, R33). -/
abbrev Mask := BitVec 96

/-- The 96 lanes of a vector register, lane 0 first; a missing lane is zero (R22, R25). -/
abbrev Lanes := List Word

end Sys2Proof
end

