-- ==== Sys2Proof/Syntax.lean ====
section
/-! DEFINITION. The instruction syntax: eight word formats with typed fields, and one constructor per row of the opcode table. -/

namespace Sys2Proof

/-- Mode of an indexed route: absolute, within the beat, signed offset (R96, R116). -/
inductive IxMode where
  | ix | ixb | ixo
  deriving DecidableEq, Repr

/-- A legal route modifier (R96). -/
inductive Route where
  | identity
  | rot32 (n : BitVec 5)
  | rot96 (n : BitVec 5)
  | beatShift (two : Bool)
  | bcast32 (n : BitVec 5)
  | bcast96 (s : BitVec 5)
  | butterfly (n : BitVec 5)
  | indexed (m : IxMode) (x : BitVec 3)
  deriving DecidableEq, Repr

/-- The H field: which source the hold latch captures (R30). -/
inductive Hold where
  | none | a | b | c
  deriving DecidableEq, Repr

/-- Access width of format M (R90, R184). -/
inductive Width where
  | b | h | w | d | q
  deriving DecidableEq, Repr

/-- Scope of a strong access (R95). -/
inductive Scope where
  | g | wg | col | twr | dev | sys
  deriving DecidableEq, Repr

/-- The ORD field: a plain access, or a strong one with its scope and ACQ bit (R95). -/
inductive MemOrd where
  | plain
  | strong (scope : Scope) (acq : Bool)
  deriving DecidableEq, Repr

/-- Format V3: three vector sources (R90). -/
structure V3 where
  mark : Bool
  hold : Hold
  d : BitVec 7
  a : BitVec 7
  b : BitVec 7
  c : BitVec 7
  ra : Route
  rb : Route
  rc : Route
  deriving DecidableEq, Repr

/-- Format V2I: two vector sources and a 15-bit immediate (R90). -/
structure V2I where
  mark : Bool
  hold : Hold
  d : BitVec 7
  a : BitVec 7
  b : BitVec 7
  ra : Route
  rb : Route
  imm : BitVec 15
  deriving DecidableEq, Repr

/-- Format VI: one vector source and a 32-bit immediate (R90). -/
structure VI where
  mark : Bool
  d : BitVec 7
  a : BitVec 7
  ra : Route
  imm : BitVec 32
  deriving DecidableEq, Repr

/-- Format S: scalar (R90). -/
structure SF where
  mark : Bool
  sd : BitVec 6
  sa : BitVec 6
  sb : BitVec 6
  pair : Bool
  fn : BitVec 3
  imm : BitVec 32
  deriving DecidableEq, Repr

/-- Format B: branch (R90). -/
structure BF where
  mark : Bool
  sa : BitVec 6
  cond : BitVec 4
  aux : BitVec 12
  offset : BitVec 32
  deriving DecidableEq, Repr

/-- Format M: memory (R90). -/
structure MF where
  mark : Bool
  hold : Hold
  data : BitVec 7
  addr : BitVec 7
  sbase : BitVec 6
  rt : Route
  width : Width
  ord : MemOrd
  offset : BitVec 16
  deriving DecidableEq, Repr

/-- Format E: engine (R90). -/
structure EF where
  mark : Bool
  sd : BitVec 6
  sa : BitVec 6
  sb : BitVec 6
  eop : BitVec 4
  flags : BitVec 32
  deriving DecidableEq, Repr

/-- Format X: `mma` (R90). Its bits 23 to 0 are zero. -/
structure XF where
  mark : Bool
  u : Bool
  na : Bool
  z : Bool
  fa : BitVec 4
  fb : BitVec 4
  acc : BitVec 3
  abase : BitVec 7
  sbr : BitVec 6
  nc : BitVec 3
  deriving DecidableEq, Repr

/-- A resident group: its workgroup's record number and its index within the workgroup. -/
structure GroupId where
  wg : Nat
  grp : Nat
  deriving DecidableEq, Repr

/-- A split slot of a resident group (R293). -/
structure SplitId where
  wg : Nat
  grp : Nat
  slot : Nat
  deriving DecidableEq, Repr

/-- An agent of the coherence protocols: a column store, a tower's remote ways, the host's cache, the home (R378, R390, R393). -/
inductive Agent where
  | col (c : Nat)
  | way (t : Nat)
  | host
  | home
  deriving DecidableEq, Repr

/-- A repair unit of R422: structure code, tower (or 255 for the hub), index within its structure. -/
structure RepairUnit where
  code : Nat
  tower : Nat
  index : Nat
  deriving DecidableEq, Repr

/-- What a read of an array met (R422, R423, R427). -/
inductive ArrayError where
  | none | corrected | uncorrectable
  deriving DecidableEq, Repr

/-- What a debugger attached through Sahong does (R39, R247). -/
inductive DebugRequest where
  | attach
  | detach
  | readShadowVector (core k lane : Nat)
  | writeShadowVector (core k lane : Nat) (value : Word)
  | readShadowScalar (core k : Nat)
  | writeShadowScalar (core k : Nat) (value : Word)
  | readScalar (x : SplitId) (n : Nat)
  | writeScalar (x : SplitId) (n : Nat) (value : Word)
  | readVector (x : SplitId) (n lane : Nat)
  | writeVector (x : SplitId) (n lane : Nat) (value : Word)
  | release (x : SplitId)
  deriving DecidableEq, Repr

/-- The instructions and events, one constructor per row of the opcode table.
A constructor with a format record is a word of a program; every other constructor but `illegalOpcodeWord` is an event of the device.
An event with no operand acts on the first thing that is due for it. -/
inductive Instr where
  | sadd (f : SF)  -- R126
  | ssub (f : SF)  -- R126
  | smul (f : SF)  -- R126
  | smulh (f : SF)  -- R126
  | sdiv (f : SF)  -- R126
  | srem (f : SF)  -- R126
  | sand (f : SF)  -- R126
  | sor (f : SF)  -- R126
  | sxor (f : SF)  -- R126
  | sandn (f : SF)  -- R126
  | sshl (f : SF)  -- R126
  | sshr (f : SF)  -- R126
  | ssar (f : SF)  -- R126
  | smin (f : SF)  -- R126
  | smax (f : SF)  -- R126
  | sminn (f : SF)  -- R126
  | smaxn (f : SF)  -- R126
  | sset (f : SF)  -- R126
  | ssel (f : SF)  -- R126
  | smov (f : SF)  -- R126
  | sli (f : SF)  -- R126
  | spopc (f : SF)  -- R126
  | sclz (f : SF)  -- R126
  | sctz (f : SF)  -- R126
  | sfns (f : SF)  -- R127
  | sbrev (f : SF)  -- R126
  | sext (f : SF)  -- R126
  | sbfx (f : SF)  -- R127
  | sbfi (f : SF)  -- R127
  | srdt (f : SF)  -- R128
  | br (f : BF)  -- R129
  | bc (f : BF)  -- R131
  | call (f : BF)  -- R132
  | ret (f : BF)  -- R132
  | jr (f : BF)  -- R132
  | loop (f : BF)  -- R135
  | split (f : BF)  -- R138
  | join (f : BF)  -- R141
  | bzm (f : BF)  -- R133
  | bnzm (f : BF)  -- R133
  | exit (f : BF)  -- R134
  | mset (f : SF)  -- R145
  | mand (f : SF)  -- R145
  | mor (f : SF)  -- R145
  | mandn (f : SF)  -- R145
  | mxor (f : SF)  -- R145
  | mnot (f : SF)  -- R145
  | mcnt (f : SF)  -- R145
  | mfirst (f : SF)  -- R145
  | mfromp (f : SF)  -- R145
  | mtop (f : SF)  -- R145
  | mode (f : SF)  -- R146
  | rmode (f : SF)  -- R145
  | vadd (f : V3)  -- R150
  | vsub (f : V3)  -- R150
  | vmul (f : V3)  -- R150
  | vmulh (f : V3)  -- R150
  | vmad (f : V3)  -- R150
  | vmin (f : V3)  -- R150
  | vmax (f : V3)  -- R150
  | vabs (f : V3)  -- R150
  | vneg (f : V3)  -- R150
  | vand (f : V3)  -- R153
  | vor (f : V3)  -- R153
  | vxor (f : V3)  -- R153
  | vandn (f : V3)  -- R153
  | vnot (f : V3)  -- R153
  | vshl (f : V3)  -- R153
  | vshr (f : V3)  -- R153
  | vsar (f : V3)  -- R153
  | vrot (f : V3)  -- R153
  | vpopc (f : V3)  -- R153
  | vclz (f : V3)  -- R153
  | vctz (f : V3)  -- R153
  | vfns (f : V3)  -- R153
  | vbrev (f : V3)  -- R153
  | vbfx (f : V2I)  -- R154
  | vbfi (f : V2I)  -- R154
  | vcmp (f : V2I)  -- R155
  | vsel (f : V2I)  -- R156
  | vmov (f : V3)  -- R157
  | vmovi (f : VI)  -- R151
  | vaddi (f : VI)  -- R150
  | vcvt (f : V2I)  -- R158
  | vpack (f : V2I)  -- R159
  | vunpk (f : V2I)  -- R160
  | vmulw (f : V3)  -- R152
  | vbcs (f : V2I)  -- R161
  | vrdl (f : V2I)  -- R162
  | fadd (f : V3)  -- R167
  | fsub (f : V3)  -- R167
  | fmul (f : V3)  -- R167
  | ffma (f : V3)  -- R167
  | ffms (f : V3)  -- R167
  | fnma (f : V3)  -- R167
  | fmin (f : V3)  -- R169
  | fmax (f : V3)  -- R169
  | fabs (f : V3)  -- R170
  | fneg (f : V3)  -- R170
  | fcmp (f : V2I)  -- R171
  | fclass (f : V2I)  -- R172
  | frnd (f : V2I)  -- R173
  | fcvt (f : V2I)  -- R174
  | fcvtt (f : V2I)  -- R177
  | fcvtf (f : V2I)  -- R178
  | fdot2 (f : V3)  -- R168
  | frcp (f : V2I)  -- R179
  | frsqrt (f : V2I)  -- R179
  | fsqrt (f : V2I)  -- R179
  | fexp2 (f : V2I)  -- R179
  | flog2 (f : V2I)  -- R179
  | fsinpi (f : V2I)  -- R179
  | fcospi (f : V2I)  -- R179
  | ftanh (f : V2I)  -- R179
  | vany (f : SF)  -- R212
  | vall (f : SF)  -- R212
  | vballot (f : SF)  -- R212
  | vcount (f : SF)  -- R212
  | pand (f : SF)  -- R213
  | por (f : SF)  -- R213
  | pxor (f : SF)  -- R213
  | pnot (f : SF)  -- R213
  | rdx (f : V2I)  -- R214
  | wrx (f : V2I)  -- R214
  | xset (f : V2I)  -- R214
  | xget (f : V2I)  -- R214
  | xbnd (f : SF)  -- R215
  | vld (f : MF)  -- R191
  | vst (f : MF)  -- R191
  | vlds (f : MF)  -- R191
  | vsts (f : MF)  -- R191
  | sld (f : MF)  -- R191
  | sst (f : MF)  -- R191
  | vstm (f : MF)  -- R193
  | ldfe (f : MF)  -- R195
  | ldff (f : MF)  -- R195
  | stfe (f : MF)  -- R195
  | feset (f : MF)  -- R195
  | fullEmptyLanePerform (x : SplitId) (lane : Nat)  -- R195
  | vpf (f : MF)  -- R197
  | cwb (f : MF)  -- R197
  | cinv (f : MF)  -- R197
  | atom (f : MF)  -- R199
  | satom (f : SF)  -- R201
  | atomv (f : MF)  -- R200
  | lres (f : MF)  -- R202
  | scond (f : MF)  -- R202
  | ctadd (f : SF)  -- R205
  | ctwait (f : SF)  -- R205
  | ctread (f : SF)  -- R205
  | bar (f : SF)  -- R206
  | fence (f : SF)  -- R207
  | xfence (f : SF)  -- R208
  | wait (f : SF)  -- R209
  | fwait (f : SF)  -- R211
  | ftest (f : SF)  -- R211
  | fcancel (f : SF)  -- R211
  | engineStopCancel (id : Nat)  -- R211
  | cp (f : EF)  -- R219
  | cpmc (f : EF)  -- R223
  | cpg (f : EF)  -- R222
  | cpretry (f : EF)  -- R225
  | copyCompletion (id : Nat) (units : List Nat)  -- R219
  | followOnMmaIssue (id : Nat)  -- R224
  | mma (f : XF)  -- R228
  | matrixCommandStart (id : Nat)  -- R230
  | matrixCommandComplete (id : Nat)  -- R231
  | accld (f : EF)  -- R233
  | accst (f : EF)  -- R233
  | acczero (f : EF)  -- R234
  | fmtset (f : EF)  -- R236
  | fmtsetCompletion (id : Nat)  -- R236
  | fmtget (f : EF)  -- R236
  | rhold (f : EF)  -- R238
  | rdemote (f : EF)  -- R239
  | rdrop (f : EF)  -- R239
  | trap (f : SF)  -- R247
  | rett (f : SF)  -- R248
  | asyncTrapDelivery (x : SplitId)  -- R189
  | homeTrapAnswer (id : Nat)  -- R189
  | rdsys (f : SF)  -- R249
  | wrsys (f : SF)  -- R249
  | thRegisterWrite (f : SF)  -- R303
  | timestatWrite (f : SF)  -- R415
  | rwayfWrite (f : SF)  -- R366
  | tsr (f : SF)  -- R250
  | launch (f : SF)  -- R251
  | brkp (f : SF)  -- R247
  | pbsetRng (f : SF)  -- R253
  | pbsetProt (f : SF)  -- R376
  | pbgetRng (f : SF)  -- R253
  | pbgetProt (f : SF)  -- R376
  | pswap (f : SF)  -- R255
  | pswapChunkExchange (id : Nat)  -- R371
  | tlbinvPage (f : SF)  -- R254
  | tlbinvSpace (f : SF)  -- R254
  | tlbinvAll (f : SF)  -- R254
  | tlbinvComplete (x : SplitId)  -- R254
  | nop (f : SF)  -- R102
  | hpost (f : SF)  -- R252
  | variableLatencyResult (id : Nat)  -- R50
  | accessCompletion (id : Nat) (parts : List Nat)  -- R194
  | vstmMemberAck (id : Nat) (column : Nat)  -- R397
  | switchMarkerWaitEnd (x : SplitId)  -- R51
  | parkConditionClears (x : SplitId)  -- R52
  | recallStart (x : GroupId)  -- R299
  | saveImageWriteStart (wg : Nat)  -- R348
  | workgroupCompletion (wg : Nat)  -- R335
  | preempt (region : Nat)  -- R343
  | resume (region : Nat)  -- R343
  | retire (region : Nat)  -- R343
  | kill (region : Nat)  -- R343
  | workgroupLost (wg : Nat) (structure_ : Nat)  -- R430
  | translationWalkComplete (column space : Nat) (va : DWord) (write : Bool)  -- R354
  | gets (id : Nat)  -- R385
  | getm (id : Nat)  -- R385
  | putm (id : Nat)  -- R385
  | inv (id : Nat)  -- R385
  | fwds (id : Nat)  -- R385
  | fwdm (id : Nat)  -- R385
  | data (id : Nat)  -- R385
  | ack (id : Nat)  -- R385
  | wbdata (id : Nat)  -- R385
  | putack (id : Nat)  -- R385
  | hostRead (tag : Nat) (hpa : Nat) (len : Nat) (cached : Bool)  -- R280
  | hostWrite (tag : Nat) (hpa : Nat) (bytes : List Byte)  -- R280
  | hostCounterAdd (tag : Nat) (hpa : Nat) (addend : DWord)  -- R280
  | linkoSlottedFlit (link : Nat) (flit : List Byte)  -- R399
  | linkoIdle (link : Nat) (flit : List Byte)  -- R437
  | nak (link : Nat) (flit : List Byte)  -- R436
  | slotlost (link : Nat) (flit : List Byte)  -- R438
  | lostEntryDetect (link : Nat) (seq : Nat)  -- R438
  | linkoReplacementSend (link : Nat) (seq : Nat)  -- R438
  | retrain (link : Nat) (flit : List Byte)  -- R440
  | retrainComplete (link : Nat) (ok : Bool)  -- R440
  | linkoOpWrite (link queue : Nat)  -- R402
  | linkoOpRead (link queue : Nat)  -- R402
  | linkoOpCounterAdd (link queue : Nat)  -- R402
  | linkoDescriptorComplete (link queue : Nat)  -- R402
  | patrolRead (unit : RepairUnit) (address : Nat) (error : ArrayError)  -- R423
  | droopAlarm (column : Nat) (microvolts : Nat)  -- R419
  | illegalOpcodeWord (word : DWord)  -- R100
  | debuggerAccess (request : DebugRequest)  -- R247
  | pushMerge (id : Nat)  -- R386
  | conversionComplete  -- R392
  | faultRecordPost  -- R433
  | issueCycle  -- R290
  | guardQueueAppend  -- R290
  | demotionEligible  -- R296
  | demotionEnd  -- R298
  | recallEnd  -- R299
  | coreBecomesHot  -- R301
  | captureBegin  -- R304
  | captureSuccess  -- R305
  | captureAbandon  -- R306
  | captureExclusionEnd  -- R306
  | moveBegin  -- R309
  | moveEnd  -- R309
  | launchRecordCheck  -- R333
  | placementStep  -- R336
  | pboundExpiry  -- R339
  | flushDiscard  -- R346
  | drainToSave  -- R345
  | saveRetry  -- R348
  | saveImageComplete  -- R348
  | resumeRestoreComplete  -- R350
  | lostWorkgroupDispose  -- R431
  | ringmasterStateRebuild  -- R432
  | accessCountHalving  -- R370
  | migrationHysteresisEnd  -- R370
  | last  -- R380
  | nakRepeat  -- R436
  | slotlostRepeat  -- R438
  | activate  -- R405
  | faultAnswer  -- R405
  | migqSet  -- R405
  | linkqBind  -- R405
  | linkqResume  -- R405
  | inwinSet  -- R405
  | hostkeySet  -- R405
  | attest  -- R455
  | kekSet  -- R444
  | keyLoad  -- R444
  | keyClear  -- R445
  | scrub  -- R448
  | logRange  -- R447
  | logArea  -- R447
  | threshSet  -- R447
  | evlogRead  -- R453
  | admissionsBatch  -- R452
  | logBatchFlush  -- R452
  | lastingUnit  -- R424
  | spareCopyComplete  -- R425
  | referenceLost  -- R414
  | referenceReturn  -- R414
  | stretchEnd  -- R419
  | halvedWindowEnd  -- R419
  | overheatHalving  -- R457
  | overtempTrip  -- R457
  | canopyRefresh  -- R458
  | deviceReset  -- R454
  | coreStopsBeingHot  -- R301
  | overheatHalvingEnd  -- R457
  deriving DecidableEq, Repr

end Sys2Proof
end

