-- ==== Sys2Proof/WellFormed.lean ====
section
/-! DEFINITION. The checks of R103, item 2, that the word alone decides: reserved fields, legal values, odd pairs, the hold field. -/

namespace Sys2Proof

/-- Bits `lo + len - 1` down to `lo` of a value, as a number. -/
def field {n : Nat} (v : BitVec n) (lo len : Nat) : Nat := v.toNat / 2 ^ lo % 2 ^ len

/-- The value fits its low `k` bits (R91: the rest of a field is reserved). -/
def fits {n : Nat} (v : BitVec n) (k : Nat) : Bool := v.toNat < 2 ^ k

/-- The register number is even (R25, R32). -/
def isEven {n : Nat} (v : BitVec n) : Bool := v.toNat % 2 == 0

/-- An even register from 2 to 62 (R129, R246). -/
def isPair (v : BitVec 6) : Bool := isEven v && v.toNat != 0

/-- A triple base, 1 to 61 (R144). -/
def isTriple (v : BitVec 6) : Bool := 1 ≤ v.toNat && v.toNat ≤ 61

/-- A token base, 1 to 57 (R129). -/
def isToken (v : BitVec 6) : Bool := 1 ≤ v.toNat && v.toNat ≤ 57

/-! ## Vector formats -/

/-- The hold field names one of the first `n` sources A, B, C (R30). -/
def Hold.within (h : Hold) (n : Nat) : Bool :=
  match h with
  | .none => true
  | .a => 1 ≤ n
  | .b => 2 ≤ n
  | .c => 3 ≤ n

/-- A V3 word that reads its first `n` sources and no other (R91, R96). -/
def V3.reads (f : V3) (n : Nat) : Bool :=
  f.hold.within n && (2 ≤ n || (f.b == 0 && f.rb == .identity)) && (3 ≤ n || (f.c == 0 && f.rc == .identity))

/-- A V2I word that reads its first `n` sources and no other. -/
def V2I.reads (f : V2I) (n : Nat) : Bool :=
  f.hold.within n && f.hold != .c && (1 ≤ n || (f.a == 0 && f.ra == .identity)) &&
  (2 ≤ n || (f.b == 0 && f.rb == .identity))

/-- Elements per lane of an element type (R147, R165). -/
def etCount (et : Nat) : Nat := if et = 4 ∨ et = 5 ∨ et = 10 ∨ et = 11 then 2 else if et = 6 ∨ et = 7 then 4 else 1

/-- Element types of 64 bits (R147). -/
def etWide (et : Nat) : Bool := et == 2 || et == 3 || et == 9

def wfBitField (f : V2I) (insert : Bool) : Bool :=
  if field f.imm 14 1 = 0 then f.reads 1 && (!insert || field f.imm 13 1 == 0)
  else f.reads 2 && field f.imm 0 13 == 0 && (!insert || field f.imm 13 1 == 0)

def wfVcmp (f : V2I) : Bool :=
  f.reads 2 && fits f.d 3 && field f.imm 8 7 == 0 && field f.imm 6 2 != 3 && field f.imm 0 4 ≤ 9

def wfVcvt (f : V2I) : Bool :=
  let src := field f.imm 0 4
  f.reads 1 && field f.imm 8 7 == 0 && src ≤ 7 && field f.imm 4 2 < etCount src && (!etWide src || isEven f.a)

def wfFcvt (f : V2I) : Bool :=
  let src := field f.imm 0 4
  f.reads 1 && field f.imm 11 4 == 0 && src ≤ 11 && field f.imm 4 2 < etCount src && (!etWide src || isEven f.a)

def wfVbcs (f : V2I) : Bool :=
  f.hold == .none && fits f.a 6 && f.b == 0 && f.ra == .identity && f.rb == .identity && f.imm == 0

def wfVrdl (f : V2I) : Bool :=
  f.reads 1 && f.ra == .identity && fits f.d 6 &&
  (if field f.imm 14 1 = 0 then field f.imm 7 7 == 0 else field f.imm 6 8 == 0)

def wfFcmp (f : V2I) : Bool :=
  f.reads 2 && fits f.d 3 && field f.imm 8 7 == 0 && field f.imm 6 2 != 3 &&
  (field f.imm 0 4 ≤ 6 || field f.imm 0 4 == 8)

def wfFclass (f : V2I) : Bool :=
  f.reads 1 && fits f.d 3 && field f.imm 13 2 != 3 && field f.imm 10 2 == 0

/-- `fcvtt` and `fcvtf`: B names a scalar in its low six bits (R176). -/
def wfString (f : V2I) : Bool :=
  f.hold.within 1 && fits f.b 6 && f.rb == .identity && field f.imm 9 6 == 0

/-! ## Format S -/

/-- SB or IMM32 supplies b: with SB the immediate is reserved (R93). -/
def SF.bOk (f : SF) : Bool := f.sb == 0 || f.imm == 0

/-- With PAIR every named register is even (R93). -/
def SF.pairOk (f : SF) : Bool := !f.pair || (isEven f.sd && isEven f.sa && isEven f.sb)

def SF.two (f : SF) (maxFn : Nat) : Bool := f.bOk && f.pairOk && f.fn.toNat ≤ maxFn

def SF.one (f : SF) (maxFn : Nat) : Bool := f.sb == 0 && f.imm == 0 && f.pairOk && f.fn.toNat ≤ maxFn

def wfSext (f : SF) : Bool := f.one 5 && (f.pair || (f.fn != 2 && f.fn != 5))

def wfSli (f : SF) : Bool := f.sa == 0 && f.sb == 0 && f.pairOk && f.fn == 0

def wfSrdt (f : SF) : Bool := f.sa == 0 && f.one 0

/-- PAIR, FN and the rest zero but for the named fields. -/
def SF.plain (f : SF) : Bool := !f.pair && f.fn == 0

def wfMset (f : SF) : Bool := f.plain && isTriple f.sd && f.sa == 0 && f.sb == 0 && f.imm == 0

def wfMask2 (f : SF) : Bool :=
  f.plain && isTriple f.sd && isTriple f.sa && f.bOk && (f.sb == 0 || isTriple f.sb)

def wfMnot (f : SF) : Bool := f.plain && isTriple f.sd && isTriple f.sa && f.sb == 0 && f.imm == 0

def wfMcnt (f : SF) : Bool := f.plain && isTriple f.sa && f.sb == 0 && f.imm == 0

def wfMfromp (f : SF) : Bool := f.plain && isTriple f.sd && fits f.sa 3 && f.sb == 0 && f.imm == 0

def wfMtop (f : SF) : Bool := f.plain && fits f.sd 3 && isTriple f.sa && f.sb == 0 && f.imm == 0

def wfMode (f : SF) : Bool :=
  !f.pair && f.sd == 0 && f.bOk && ((f.fn == 0 && f.sa == 0) || (f.fn == 1 && f.sa != 0))

def wfRmode (f : SF) : Bool := f.fn == 0 && (!f.pair || isEven f.sd) && f.sa == 0 && f.sb == 0 && f.imm == 0

def wfVote (f : SF) : Bool := f.plain && fits f.sa 3 && f.sb == 0 && f.imm == 0

def wfPred2 (f : SF) : Bool := f.plain && fits f.sd 3 && fits f.sa 3 && fits f.sb 3 && f.imm == 0

def wfXbnd (f : SF) : Bool := f.plain && f.sd == 0 && f.sa == 0 && f.bOk

def wfSatom (f : SF) : Bool :=
  let op := field f.imm 0 5
  let scope := field f.imm 5 3
  f.fn == 0 && isEven f.sa && (!f.pair || (isEven f.sd && isEven f.sb)) && op ≤ 12 && scope ≤ 6 &&
  (scope != 0 || field f.imm 8 1 == 0) && field f.imm 9 23 == 0 &&
  (op != 1 || (if f.pair then f.sb.toNat % 4 == 0 && f.sb.toNat ≤ 60 else f.sb.toNat ≤ 62))

def wfCounter (f : SF) (read : Bool) : Bool :=
  1 ≤ f.fn.toNat && f.fn.toNat ≤ 6 && (f.pair || f.fn.toNat ≤ 2) && (!f.pair || (isEven f.sa && isEven f.sb)) && isEven f.sd &&
  (if read then f.sb == 0 && f.imm == 0 else f.bOk)

/-- Every field zero (R102, R206, R246). -/
def SF.zero (f : SF) : Bool := f.plain && f.sd == 0 && f.sa == 0 && f.sb == 0 && f.imm == 0

def wfFence (f : SF) : Bool :=
  !f.pair && f.sd == 0 && f.sa == 0 && f.sb == 0 && 1 ≤ f.fn.toNat && f.fn.toNat ≤ 6 && fits f.imm 2

def wfXfence (f : SF) : Bool :=
  !f.pair && f.sd == 0 && f.sa == 0 && f.sb == 0 && 1 ≤ f.fn.toNat && f.fn.toNat ≤ 6 &&
  field f.imm 0 6 != 0 && field f.imm 8 6 != 0 && field f.imm 6 2 == 0 && field f.imm 14 18 == 0

def wfWait (f : SF) : Bool := !f.pair && f.sd == 0 && f.sa == 0 && f.bOk && f.fn.toNat ≤ 5

def wfFuture (f : SF) : Bool := f.plain && f.sb == 0 && f.imm == 0

def wfTrap (f : SF) : Bool := f.plain && f.sd == 0 && f.sa == 0 && f.sb == 0 && fits f.imm 16

/-- The system register numbers of R58 of 32 bits, and of 64. -/
def sysReg32 (n : Nat) : Bool :=
  n == 0x001 || n == 0x002 || n == 0x010 || (0x020 ≤ n && n ≤ 0x02F) || n == 0x031 || (0x038 ≤ n && n ≤ 0x045) ||
  n == 0x050 || n == 0x060 || n == 0x061
def sysReg64 (n : Nat) : Bool := n == 0x011 || n == 0x012 || n == 0x030

/-- The number stands in the table of R58 and PAIR matches its width (R59, R249). -/
def SF.sysOk (f : SF) : Bool :=
  fits f.imm 12 && (if f.pair then sysReg64 f.imm.toNat else sysReg32 f.imm.toNat)

def wfRdsys (f : SF) : Bool := f.sysOk && f.fn == 0 && (!f.pair || isPair f.sd) && f.sa == 0 && f.sb == 0

def wfWrsysAny (f : SF) : Bool := f.sysOk && f.fn == 0 && (!f.pair || isPair f.sa) && f.sd == 0 && f.sb == 0

def isThNumber (n : Nat) : Bool := n == 0x040 || n == 0x041 || n == 0x042

/-- `wrsys` to a register with no row of its own in the opcode table. -/
def wfWrsys (f : SF) : Bool :=
  wfWrsysAny f && !(isThNumber f.imm.toNat || f.imm.toNat == 0x031 || f.imm.toNat == 0x060)

def wfTsr (f : SF) : Bool := f.pair && isPair f.sd && f.fn == 0 && f.sa == 0 && f.sb == 0 && f.imm == 0

def wfTwoPairs (f : SF) : Bool := f.plain && isPair f.sa && isPair f.sb && f.imm == 0

def wfPbset (f : SF) (fn : Nat) : Bool := !f.pair && f.fn.toNat == fn && isPair f.sa && f.sb == 0 && fits f.imm 6

def wfPbget (f : SF) (fn : Nat) : Bool :=
  f.pair && isPair f.sd && f.fn.toNat == fn && f.sa == 0 && f.sb == 0 && (if fn = 0 then fits f.imm 8 else fits f.imm 6)

def wfTlbinv (f : SF) (fn : Nat) : Bool :=
  !f.pair && f.fn.toNat == fn && f.sd == 0 && f.sb == 0 && f.imm == 0 && (if fn = 0 then isPair f.sa else f.sa == 0)

def wfHpost (f : SF) : Bool := f.plain && isPair f.sa && f.sb == 0 && fits f.imm 16

/-! ## Format B -/

def wfBr (f : BF) : Bool := f.sa == 0 && f.cond == 0 && f.aux == 0

def wfBc (f : BF) : Bool := f.cond.toNat ≤ 9 && (field f.aux 11 1 == 0 || field f.aux 6 5 == 0)

def wfCall (f : BF) : Bool := isPair f.sa && f.cond == 0 && f.aux == 0

def wfLoop (f : BF) : Bool := f.cond == 0 && (f.sa == 0 || f.aux == 0) && f.offset.toNat < 2 ^ 31

def wfSplit (f : BF) : Bool := isToken f.sa && f.cond == 0 && fits f.aux 3

def wfJoin (f : BF) : Bool := isToken f.sa && f.cond == 0 && f.aux == 0 && f.offset == 0

def wfBzm (f : BF) : Bool := f.sa.toNat ≤ 61 && f.cond == 0 && f.aux == 0

/-! ## Format M -/

/-- H of format M: 01 names DATA where `dataSrc`, 10 names ADDR where ADDR is read (R183). -/
def MF.holdOk (f : MF) (dataSrc : Bool) : Bool :=
  match f.hold with
  | .none => true
  | .a => dataSrc && f.width != .q
  | .b => f.addr != 0
  | .c => false

/-- SBASE and ADDR of a global access (R182). -/
def MF.globalOk (f : MF) : Bool := isEven f.sbase && (f.sbase != 0 || isEven f.addr)

/-- DATA of a vector access of the word's width (R184). -/
def MF.dataOk (f : MF) : Bool :=
  match f.width with
  | .b => true | .h => true | .w => true
  | .d => isEven f.data
  | .q => f.data.toNat % 4 == 0

/-- RT on a word that routes ADDR (R183). -/
def MF.rtAddr (f : MF) : Bool := f.rt == .identity || f.addr != 0

/-- Scratchpad instructions accept scopes .g and .wg only (R185). -/
def MemOrd.local_ : MemOrd → Bool
  | .plain => true
  | .strong .g _ => true
  | .strong .wg _ => true
  | .strong _ _ => false

def wfVld (f : MF) : Bool := f.holdOk false && f.globalOk && f.dataOk && f.rtAddr
def wfVst (f : MF) : Bool := f.holdOk true && f.globalOk && f.dataOk
def wfVlds (f : MF) : Bool := f.holdOk false && f.dataOk && f.rtAddr && f.ord.local_
def wfVsts (f : MF) : Bool := f.holdOk true && f.dataOk && f.ord.local_
def wfVstm (f : MF) : Bool := f.holdOk true && f.dataOk && f.ord == .plain
def wfScalarMem (f : MF) : Bool :=
  f.hold == .none && f.addr == 0 && f.rt == .identity && isEven f.sbase && fits f.data 6 && f.width != .q &&
  (f.width != .d || isEven f.data)
def wfLdfe (f : MF) : Bool := f.holdOk false && f.rtAddr && f.width == .w && f.ord == .plain
def wfStfe (f : MF) : Bool := f.holdOk true && f.width == .w && f.ord == .plain
def wfFeset (f : MF) : Bool := f.holdOk false && f.rtAddr && f.width == .w && f.ord == .plain && fits f.data 1
def wfLine (f : MF) (maxData : Nat) : Bool :=
  f.holdOk false && f.globalOk && f.rtAddr && f.width == .b && f.ord == .plain && f.data.toNat ≤ maxData
def wfAtom (f : MF) : Bool :=
  let op := field f.offset 0 5
  f.holdOk true && f.globalOk && f.dataOk && (f.width == .w || f.width == .d) && fits f.offset 6 && op ≤ 12 &&
  (op != 1 || f.width != .d || f.data.toNat % 4 == 0)
def wfAtomv (f : MF) : Bool :=
  let op := field f.offset 0 5
  f.holdOk true && f.globalOk && f.data.toNat % 8 == 0 && (f.width == .h || f.width == .w || f.width == .d) &&
  fits f.offset 6 && 2 ≤ op && (op ≤ 12 || (op == 13 && f.width == .h))
def wfLres (f : MF) : Bool :=
  f.hold == .none && f.addr == 0 && f.rt == .identity && f.offset == 0 && isPair f.sbase && fits f.data 6 &&
  (f.width == .w || (f.width == .d && isEven f.data))

/-! ## Formats E and X -/

/-- The record operand: an even pair, or any scalar with RLOC or SPACE set (R216). -/
def EF.baseOk (f : EF) (local_ : Bool) : Bool := local_ || isPair f.sa

/-- The counter pair and its scope (R219, R222). -/
def EF.counterOk (f : EF) (scope : Nat) : Bool :=
  if f.sb = 0 then scope == 0 else isEven f.sb && 1 ≤ scope && scope ≤ 6

def wfCp (f : EF) : Bool :=
  f.sd != 0 && f.baseOk (field f.flags 0 1 == 1) && f.counterOk (field f.flags 2 3) && f.eop.toNat ≤ 1 &&
  field f.flags 5 27 == 0 && field f.flags 1 1 == 0

/-- The tile and N code of an X word (R97). -/
def tileCodeOk (acc nc : Nat) : Bool := nc ≤ 3 && (nc != 3 || acc % 2 == 0)

def wfCpmc (f : EF) : Bool :=
  f.sd != 0 && f.baseOk (field f.flags 30 1 == 1) && f.sb == 0 && f.eop == 0 && field f.flags 31 1 == 0 &&
  tileCodeOk (field f.flags 16 3) (field f.flags 0 3)

def wfCpg (f : EF) : Bool :=
  f.sd != 0 && f.counterOk (field f.flags 12 3) && f.eop.toNat ≤ 1 && field f.flags 15 17 == 0 &&
  field f.flags 8 3 ≤ 4 && field f.flags 7 1 == 0 && field f.flags 0 1 == 0

def wfCpretry (f : EF) : Bool := f.sb == 0 && f.eop == 0 && f.flags == 0

def wfAcc (f : EF) : Bool :=
  f.baseOk (field f.flags 3 1 == 1) && f.eop == 0 && fits f.flags 6 && field f.flags 4 2 != 3

def wfAcczero (f : EF) : Bool := f.sd == 0 && f.sa == 0 && f.sb == 0 && f.eop == 0 && fits f.flags 3

def wfFmtset (f : EF) : Bool :=
  f.sd == 0 && f.sb == 0 && f.eop == 0 && fits f.flags 5 && (field f.flags 4 1 == 0 || f.sa == 0)

def wfFmtget (f : EF) : Bool := f.sa == 0 && f.sb == 0 && f.eop == 0 && fits f.flags 4

def wfRhold (f : EF) : Bool := f.sd != 0 && isPair f.sa && isPair f.sb && f.eop == 0 && fits f.flags 3

def wfRdemote (f : EF) : Bool := f.sb == 0 && f.eop == 0 && fits f.flags 4

def wfMma (f : XF) : Bool := tileCodeOk f.acc.toNat f.nc.toNat

/-- Opcodes of R100. -/
def illegalOpcode (op : Nat) : Bool :=
  op == 0x000 || op == 0x1FF || (0x01F ≤ op && op ≤ 0x03F) || (0x04B ≤ op && op ≤ 0x05F) || (0x06C ≤ op && op ≤ 0x07F) ||
  (0x0A4 ≤ op && op ≤ 0x0DF) || (0x0F1 ≤ op && op ≤ 0x11F) || (0x128 ≤ op && op ≤ 0x12F) || (0x13D ≤ op && op ≤ 0x14F) ||
  (0x15E ≤ op && op ≤ 0x18F) || (0x199 ≤ op && op ≤ 0x1AF) || (0x1B6 ≤ op && op ≤ 0x1BF) || (0x1CD ≤ op && op ≤ 0x1DF) ||
  (0x1ED ≤ op && op ≤ 0x1FE)

/-- The word meets every check of R103, item 2, that the word alone decides. An event is no word and meets them. -/
def Instr.wellFormed : Instr → Bool
  | .sadd f => f.two 0
  | .ssub f => f.two 0
  | .smul f => f.two 0
  | .smulh f => f.two 1
  | .sdiv f => f.two 1
  | .srem f => f.two 1
  | .sand f => f.two 0
  | .sor f => f.two 0
  | .sxor f => f.two 0
  | .sandn f => f.two 0
  | .sshl f => f.two 0
  | .sshr f => f.two 0
  | .ssar f => f.two 0
  | .smin f => f.two 0
  | .smax f => f.two 0
  | .sminn f => f.two 0
  | .smaxn f => f.two 0
  | .sset f => f.two 7
  | .ssel f => f.two 0
  | .smov f => f.one 0
  | .sli f => wfSli f
  | .spopc f => f.one 0
  | .sclz f => f.one 0
  | .sctz f => f.one 0
  | .sfns f => f.two 0
  | .sbrev f => f.one 0
  | .sext f => wfSext f
  | .sbfx f => f.two 1
  | .sbfi f => f.two 0
  | .srdt f => wfSrdt f
  | .br f => wfBr f
  | .bc f => wfBc f
  | .call f => wfCall f
  | .ret f => wfCall f && f.offset == 0
  | .jr f => wfCall f
  | .loop f => wfLoop f
  | .split f => wfSplit f
  | .join f => wfJoin f
  | .bzm f => wfBzm f
  | .bnzm f => wfBzm f
  | .exit f => wfBr f && f.offset == 0
  | .mset f => wfMset f
  | .mand f => wfMask2 f
  | .mor f => wfMask2 f
  | .mandn f => wfMask2 f
  | .mxor f => wfMask2 f
  | .mnot f => wfMnot f
  | .mcnt f => wfMcnt f
  | .mfirst f => wfMcnt f
  | .mfromp f => wfMfromp f
  | .mtop f => wfMtop f
  | .mode f => wfMode f
  | .rmode f => wfRmode f
  | .vadd f => f.reads 2
  | .vsub f => f.reads 2
  | .vmul f => f.reads 2
  | .vmulh f => f.reads 2
  | .vmad f => f.reads 3
  | .vmin f => f.reads 2
  | .vmax f => f.reads 2
  | .vabs f => f.reads 1
  | .vneg f => f.reads 1
  | .vand f => f.reads 2
  | .vor f => f.reads 2
  | .vxor f => f.reads 2
  | .vandn f => f.reads 2
  | .vnot f => f.reads 1
  | .vshl f => f.reads 2
  | .vshr f => f.reads 2
  | .vsar f => f.reads 2
  | .vrot f => f.reads 2
  | .vpopc f => f.reads 1
  | .vclz f => f.reads 1
  | .vctz f => f.reads 1
  | .vfns f => f.reads 2
  | .vbrev f => f.reads 1
  | .vbfx f => wfBitField f false
  | .vbfi f => wfBitField f true
  | .vcmp f => wfVcmp f
  | .vsel f => f.reads 2 && field f.imm 3 12 == 0
  | .vmov f => f.reads 1
  | .vmovi f => f.a == 0 && f.ra == .identity
  | .vaddi _ => true
  | .vcvt f => wfVcvt f
  | .vpack f => f.reads 2 && field f.imm 1 14 == 0
  | .vunpk f => f.reads 1 && field f.imm 2 13 == 0
  | .vmulw f => f.reads 2 && isEven f.d
  | .vbcs f => wfVbcs f
  | .vrdl f => wfVrdl f
  | .fadd f => f.reads 2
  | .fsub f => f.reads 2
  | .fmul f => f.reads 2
  | .ffma f => f.reads 3
  | .ffms f => f.reads 3
  | .fnma f => f.reads 3
  | .fmin f => f.reads 2
  | .fmax f => f.reads 2
  | .fabs f => f.reads 1
  | .fneg f => f.reads 1
  | .fcmp f => wfFcmp f
  | .fclass f => wfFclass f
  | .frnd f => f.reads 1 && field f.imm 3 12 == 0
  | .fcvt f => wfFcvt f
  | .fcvtt f => wfString f
  | .fcvtf f => wfString f
  | .fdot2 f => f.reads 3
  | .frcp f => f.reads 1 && f.imm == 0
  | .frsqrt f => f.reads 1 && f.imm == 0
  | .fsqrt f => f.reads 1 && f.imm == 0
  | .fexp2 f => f.reads 1 && f.imm == 0
  | .flog2 f => f.reads 1 && f.imm == 0
  | .fsinpi f => f.reads 1 && f.imm == 0
  | .fcospi f => f.reads 1 && f.imm == 0
  | .ftanh f => f.reads 1 && f.imm == 0
  | .vany f => wfVote f
  | .vall f => wfVote f
  | .vballot f => wfVote f && isTriple f.sd
  | .vcount f => wfVote f
  | .pand f => wfPred2 f
  | .por f => wfPred2 f
  | .pxor f => wfPred2 f
  | .pnot f => wfPred2 f && f.sb == 0
  | .rdx f => f.reads 1 && f.hold == .none && fits f.a 3 && f.ra == .identity && field f.imm 7 8 == 0
  | .wrx f => f.reads 1 && fits f.d 3 && field f.imm 7 8 == 0
  | .xset f => f.reads 1 && fits f.d 3 && field f.imm 1 14 == 0
  | .xget f => f.reads 1 && f.hold == .none && fits f.a 3 && f.ra == .identity && field f.imm 1 14 == 0
  | .xbnd f => wfXbnd f
  | .vld f => wfVld f
  | .vst f => wfVst f
  | .vlds f => wfVlds f
  | .vsts f => wfVsts f
  | .sld f => wfScalarMem f
  | .sst f => wfScalarMem f
  | .vstm f => wfVstm f
  | .ldfe f => wfLdfe f
  | .ldff f => wfLdfe f
  | .stfe f => wfStfe f
  | .feset f => wfFeset f
  | .fullEmptyLanePerform _ _ => true
  | .vpf f => wfLine f 1
  | .cwb f => wfLine f 0
  | .cinv f => wfLine f 0
  | .atom f => wfAtom f
  | .satom f => wfSatom f
  | .atomv f => wfAtomv f
  | .lres f => wfLres f
  | .scond f => wfLres f
  | .ctadd f => wfCounter f false
  | .ctwait f => wfCounter f false
  | .ctread f => wfCounter f true
  | .bar f => f.zero
  | .fence f => wfFence f
  | .xfence f => wfXfence f
  | .wait f => wfWait f
  | .fwait f => wfFuture f
  | .ftest f => wfFuture f
  | .fcancel f => wfFuture f
  | .engineStopCancel _ => true
  | .cp f => wfCp f
  | .cpmc f => wfCpmc f
  | .cpg f => wfCpg f
  | .cpretry f => wfCpretry f
  | .copyCompletion _ _ => true
  | .followOnMmaIssue _ => true
  | .mma f => wfMma f
  | .matrixCommandStart _ => true
  | .matrixCommandComplete _ => true
  | .accld f => wfAcc f
  | .accst f => wfAcc f
  | .acczero f => wfAcczero f
  | .fmtset f => wfFmtset f
  | .fmtsetCompletion _ => true
  | .fmtget f => wfFmtget f
  | .rhold f => wfRhold f
  | .rdemote f => wfRdemote f
  | .rdrop f => wfCpretry f
  | .trap f => wfTrap f
  | .rett f => f.zero
  | .asyncTrapDelivery _ => true
  | .homeTrapAnswer _ => true
  | .rdsys f => wfRdsys f
  | .wrsys f => wfWrsys f
  | .thRegisterWrite f => wfWrsysAny f && isThNumber f.imm.toNat
  | .timestatWrite f => wfWrsysAny f && f.imm.toNat == 0x031
  | .rwayfWrite f => wfWrsysAny f && f.imm.toNat == 0x060
  | .tsr f => wfTsr f
  | .launch f => wfTwoPairs f
  | .brkp f => wfTrap f
  | .pbsetRng f => wfPbset f 0
  | .pbsetProt f => wfPbset f 1
  | .pbgetRng f => wfPbget f 0
  | .pbgetProt f => wfPbget f 1
  | .conversionComplete => true
  | .pswap f => wfTwoPairs f
  | .pswapChunkExchange _ => true
  | .tlbinvPage f => wfTlbinv f 0
  | .tlbinvSpace f => wfTlbinv f 1
  | .tlbinvAll f => wfTlbinv f 2
  | .tlbinvComplete _ => true
  | .nop f => f.zero
  | .hpost f => wfHpost f
  | .variableLatencyResult _ => true
  | .accessCompletion _ _ => true
  | .vstmMemberAck _ _ => true
  | .switchMarkerWaitEnd _ => true
  | .parkConditionClears _ => true
  | .faultRecordPost => true
  | .issueCycle => true
  | .guardQueueAppend => true
  | .demotionEligible => true
  | .demotionEnd => true
  | .recallStart _ => true
  | .recallEnd => true
  | .coreBecomesHot => true
  | .captureBegin => true
  | .captureSuccess => true
  | .captureAbandon => true
  | .captureExclusionEnd => true
  | .moveBegin => true
  | .moveEnd => true
  | .launchRecordCheck => true
  | .placementStep => true
  | .pboundExpiry => true
  | .flushDiscard => true
  | .drainToSave => true
  | .saveImageWriteStart _ => true
  | .saveRetry => true
  | .saveImageComplete => true
  | .resumeRestoreComplete => true
  | .workgroupCompletion _ => true
  | .preempt _ => true
  | .resume _ => true
  | .retire _ => true
  | .kill _ => true
  | .workgroupLost _ _ => true
  | .lostWorkgroupDispose => true
  | .ringmasterStateRebuild => true
  | .translationWalkComplete _ _ _ _ => true
  | .accessCountHalving => true
  | .migrationHysteresisEnd => true
  | .gets _ => true
  | .getm _ => true
  | .putm _ => true
  | .inv _ => true
  | .fwds _ => true
  | .fwdm _ => true
  | .data _ => true
  | .ack _ => true
  | .last => true
  | .wbdata _ => true
  | .putack _ => true
  | .hostRead _ _ _ _ => true
  | .hostWrite _ _ _ => true
  | .hostCounterAdd _ _ _ => true
  | .linkoSlottedFlit _ _ => true
  | .linkoIdle _ _ => true
  | .nak _ _ => true
  | .nakRepeat => true
  | .slotlost _ _ => true
  | .slotlostRepeat => true
  | .lostEntryDetect _ _ => true
  | .linkoReplacementSend _ _ => true
  | .retrain _ _ => true
  | .retrainComplete _ _ => true
  | .linkoOpWrite _ _ => true
  | .linkoOpRead _ _ => true
  | .linkoOpCounterAdd _ _ => true
  | .linkoDescriptorComplete _ _ => true
  | .activate => true
  | .faultAnswer => true
  | .migqSet => true
  | .linkqBind => true
  | .linkqResume => true
  | .inwinSet => true
  | .hostkeySet => true
  | .attest => true
  | .kekSet => true
  | .keyLoad => true
  | .keyClear => true
  | .scrub => true
  | .logRange => true
  | .logArea => true
  | .threshSet => true
  | .evlogRead => true
  | .admissionsBatch => true
  | .logBatchFlush => true
  | .patrolRead _ _ _ => true
  | .lastingUnit => true
  | .spareCopyComplete => true
  | .referenceLost => true
  | .referenceReturn => true
  | .droopAlarm _ _ => true
  | .stretchEnd => true
  | .halvedWindowEnd => true
  | .overheatHalving => true
  | .overtempTrip => true
  | .canopyRefresh => true
  | .deviceReset => true
  | .coreStopsBeingHot => true
  | .overheatHalvingEnd => true
  | .illegalOpcodeWord word => illegalOpcode (word.toNat / 2 ^ 55)
  | .debuggerAccess _ => true
  | .pushMerge _ => true

end Sys2Proof
end

