-- ==== Sys2Proof/Decode.lean ====
section
/-! DEFINITION. Decoding of instruction words (R87 to R105), total on any bytes, and the encoder written from the same tables. -/

namespace Sys2Proof

/-- Why a word is no instruction (R103, item 2). -/
inductive DecodeError where
  | fieldCode     -- a route, hold, width, order or sub-function code that is not legal (R91, R95, R96, R246)
  | reserved      -- a reserved field or value, an odd pair or an illegal operand
  | truncated     -- fewer than eight bytes
  deriving DecidableEq, Repr

/-! ## Field codes -/

/-- R96. -/
def Route.ofBits (v : BitVec 8) : Option Route :=
  let p := v.extractLsb' 0 5
  match (v.extractLsb' 5 3).toNat with
  | 0 => if p = 0 then some .identity else none
  | 1 => some (.rot32 p)
  | 2 => some (.rot96 p)
  | 3 => if p = 1 then some (.beatShift false) else if p = 2 then some (.beatShift true) else none
  | 4 => some (.bcast32 p)
  | 5 => some (.bcast96 p)
  | 6 => some (.butterfly p)
  | _ =>
    match (p.extractLsb' 3 2).toNat with
    | 0 => some (.indexed .ix (p.extractLsb' 0 3))
    | 1 => some (.indexed .ixb (p.extractLsb' 0 3))
    | 2 => some (.indexed .ixo (p.extractLsb' 0 3))
    | _ => none

def Route.toBits : Route → BitVec 8
  | .identity => 0#8
  | .rot32 n => 1#3 ++ n
  | .rot96 n => 2#3 ++ n
  | .beatShift two => 3#3 ++ (if two then 2#5 else 1#5)
  | .bcast32 n => 4#3 ++ n
  | .bcast96 s => 5#3 ++ s
  | .butterfly n => 6#3 ++ n
  | .indexed .ix x => 7#3 ++ 0#2 ++ x
  | .indexed .ixb x => 7#3 ++ 1#2 ++ x
  | .indexed .ixo x => 7#3 ++ 2#2 ++ x

/-- R30, R90. -/
def Hold.ofBits (v : BitVec 2) : Hold :=
  match v.toNat with
  | 0 => .none
  | 1 => .a
  | 2 => .b
  | _ => .c

def Hold.toBits : Hold → BitVec 2
  | .none => 0
  | .a => 1
  | .b => 2
  | .c => 3

/-- R184: codes 5 to 15 are reserved. -/
def Width.ofBits (v : BitVec 4) : Option Width :=
  match v.toNat with
  | 0 => some .b
  | 1 => some .h
  | 2 => some .w
  | 3 => some .d
  | 4 => some .q
  | _ => none

def Width.toBits : Width → BitVec 4
  | .b => 0
  | .h => 1
  | .w => 2
  | .d => 3
  | .q => 4

/-- Scope codes 1 to 6 (R95, R204). -/
def Scope.ofNat? : Nat → Option Scope
  | 1 => some .g
  | 2 => some .wg
  | 3 => some .col
  | 4 => some .twr
  | 5 => some .dev
  | 6 => some .sys
  | _ => none

def Scope.toBits : Scope → BitVec 3
  | .g => 1
  | .wg => 2
  | .col => 3
  | .twr => 4
  | .dev => 5
  | .sys => 6

/-- R95. -/
def MemOrd.ofBits (v : BitVec 4) : Option MemOrd :=
  if v = 0 then some .plain
  else (Scope.ofNat? (v.extractLsb' 1 3).toNat).map (fun sc => .strong sc v[0])

def MemOrd.toBits : MemOrd → BitVec 4
  | .plain => 0
  | .strong sc acq => sc.toBits ++ BitVec.ofBool acq

/-! ## Formats -/

def opcodeOf (w : DWord) : BitVec 9 := w.extractLsb' 55 9

def V3.ofWord (w : DWord) : Option V3 := do
  let ra ← Route.ofBits (w.extractLsb' 16 8)
  let rb ← Route.ofBits (w.extractLsb' 8 8)
  let rc ← Route.ofBits (w.extractLsb' 0 8)
  return { mark := w[54], hold := .ofBits (w.extractLsb' 52 2), d := w.extractLsb' 45 7, a := w.extractLsb' 38 7,
           b := w.extractLsb' 31 7, c := w.extractLsb' 24 7, ra, rb, rc }

def V3.toWord (op : BitVec 9) (f : V3) : DWord :=
  op ++ BitVec.ofBool f.mark ++ f.hold.toBits ++ f.d ++ f.a ++ f.b ++ f.c ++ f.ra.toBits ++ f.rb.toBits ++ f.rc.toBits

def V2I.ofWord (w : DWord) : Option V2I := do
  let ra ← Route.ofBits (w.extractLsb' 23 8)
  let rb ← Route.ofBits (w.extractLsb' 15 8)
  return { mark := w[54], hold := .ofBits (w.extractLsb' 52 2), d := w.extractLsb' 45 7, a := w.extractLsb' 38 7,
           b := w.extractLsb' 31 7, ra, rb, imm := w.extractLsb' 0 15 }

def V2I.toWord (op : BitVec 9) (f : V2I) : DWord :=
  op ++ BitVec.ofBool f.mark ++ f.hold.toBits ++ f.d ++ f.a ++ f.b ++ f.ra.toBits ++ f.rb.toBits ++ f.imm

def VI.ofWord (w : DWord) : Option VI := do
  let ra ← Route.ofBits (w.extractLsb' 32 8)
  return { mark := w[54], d := w.extractLsb' 47 7, a := w.extractLsb' 40 7, ra, imm := w.extractLsb' 0 32 }

def VI.toWord (op : BitVec 9) (f : VI) : DWord :=
  op ++ BitVec.ofBool f.mark ++ f.d ++ f.a ++ f.ra.toBits ++ f.imm

def SF.ofWord (w : DWord) : SF :=
  { mark := w[54], sd := w.extractLsb' 48 6, sa := w.extractLsb' 42 6, sb := w.extractLsb' 36 6, pair := w[35],
    fn := w.extractLsb' 32 3, imm := w.extractLsb' 0 32 }

def SF.toWord (op : BitVec 9) (f : SF) : DWord :=
  op ++ BitVec.ofBool f.mark ++ f.sd ++ f.sa ++ f.sb ++ BitVec.ofBool f.pair ++ f.fn ++ f.imm

def BF.ofWord (w : DWord) : BF :=
  { mark := w[54], sa := w.extractLsb' 48 6, cond := w.extractLsb' 44 4, aux := w.extractLsb' 32 12,
    offset := w.extractLsb' 0 32 }

def BF.toWord (op : BitVec 9) (f : BF) : DWord :=
  op ++ BitVec.ofBool f.mark ++ f.sa ++ f.cond ++ f.aux ++ f.offset

def MF.ofWord (w : DWord) : Option MF := do
  let rt ← Route.ofBits (w.extractLsb' 24 8)
  let width ← Width.ofBits (w.extractLsb' 20 4)
  let ord ← MemOrd.ofBits (w.extractLsb' 16 4)
  return { mark := w[54], hold := .ofBits (w.extractLsb' 52 2), data := w.extractLsb' 45 7, addr := w.extractLsb' 38 7,
           sbase := w.extractLsb' 32 6, rt, width, ord, offset := w.extractLsb' 0 16 }

def MF.toWord (op : BitVec 9) (f : MF) : DWord :=
  op ++ BitVec.ofBool f.mark ++ f.hold.toBits ++ f.data ++ f.addr ++ f.sbase ++ f.rt.toBits ++ f.width.toBits ++
  f.ord.toBits ++ f.offset

def EF.ofWord (w : DWord) : EF :=
  { mark := w[54], sd := w.extractLsb' 48 6, sa := w.extractLsb' 42 6, sb := w.extractLsb' 36 6,
    eop := w.extractLsb' 32 4, flags := w.extractLsb' 0 32 }

def EF.toWord (op : BitVec 9) (f : EF) : DWord :=
  op ++ BitVec.ofBool f.mark ++ f.sd ++ f.sa ++ f.sb ++ f.eop ++ f.flags

/-- The fields of an X word in bits 29 to 0 of a value, U first (R90, R223). -/
def XF.ofFields (mark : Bool) (v : BitVec 30) : XF :=
  { mark, u := v[29], na := v[28], z := v[27], fa := v.extractLsb' 23 4, fb := v.extractLsb' 19 4,
    acc := v.extractLsb' 16 3, abase := v.extractLsb' 9 7, sbr := v.extractLsb' 3 6, nc := v.extractLsb' 0 3 }

def XF.toFields (f : XF) : BitVec 30 :=
  BitVec.ofBool f.u ++ BitVec.ofBool f.na ++ BitVec.ofBool f.z ++ f.fa ++ f.fb ++ f.acc ++ f.abase ++ f.sbr ++ f.nc

def XF.ofWord (w : DWord) : Option XF :=
  if w.extractLsb' 0 24 = 0 then some (XF.ofFields w[54] (w.extractLsb' 24 30)) else none

def XF.toWord (op : BitVec 9) (f : XF) : DWord :=
  op ++ BitVec.ofBool f.mark ++ f.toFields ++ 0#24

/-! ## The opcode map -/

/-- `wrsys` words by the register they name. -/
def decodeWrsys (f : SF) : Instr :=
  if isThNumber f.imm.toNat then .thRegisterWrite f
  else if f.imm.toNat = 0x031 then .timestatWrite f
  else if f.imm.toNat = 0x060 then .rwayfWrite f
  else .wrsys f

def decodePbset (f : SF) : Option Instr :=
  match f.fn.toNat with
  | 0 => some (.pbsetRng f)
  | 1 => some (.pbsetProt f)
  | _ => none

def decodePbget (f : SF) : Option Instr :=
  match f.fn.toNat with
  | 0 => some (.pbgetRng f)
  | 1 => some (.pbgetProt f)
  | _ => none

def decodeTlbinv (f : SF) : Option Instr :=
  match f.fn.toNat with
  | 0 => some (.tlbinvPage f)
  | 1 => some (.tlbinvSpace f)
  | 2 => some (.tlbinvAll f)
  | _ => none

/-- The instruction that the opcode and the field codes name (R98 to R100), before the checks of `wellFormed`. -/
def decodeFields (w : DWord) : Option Instr :=
  match (opcodeOf w).toNat with
  | 0x001 => some (.sadd (.ofWord w))
  | 0x002 => some (.ssub (.ofWord w))
  | 0x003 => some (.smul (.ofWord w))
  | 0x004 => some (.smulh (.ofWord w))
  | 0x005 => some (.sdiv (.ofWord w))
  | 0x006 => some (.srem (.ofWord w))
  | 0x007 => some (.sand (.ofWord w))
  | 0x008 => some (.sor (.ofWord w))
  | 0x009 => some (.sxor (.ofWord w))
  | 0x00A => some (.sandn (.ofWord w))
  | 0x00B => some (.sshl (.ofWord w))
  | 0x00C => some (.sshr (.ofWord w))
  | 0x00D => some (.ssar (.ofWord w))
  | 0x00E => some (.smin (.ofWord w))
  | 0x00F => some (.smax (.ofWord w))
  | 0x010 => some (.sminn (.ofWord w))
  | 0x011 => some (.smaxn (.ofWord w))
  | 0x012 => some (.sset (.ofWord w))
  | 0x013 => some (.ssel (.ofWord w))
  | 0x014 => some (.smov (.ofWord w))
  | 0x015 => some (.sli (.ofWord w))
  | 0x016 => some (.spopc (.ofWord w))
  | 0x017 => some (.sclz (.ofWord w))
  | 0x018 => some (.sctz (.ofWord w))
  | 0x019 => some (.sfns (.ofWord w))
  | 0x01A => some (.sbrev (.ofWord w))
  | 0x01B => some (.sext (.ofWord w))
  | 0x01C => some (.sbfx (.ofWord w))
  | 0x01D => some (.sbfi (.ofWord w))
  | 0x01E => some (.srdt (.ofWord w))
  | 0x040 => some (.br (.ofWord w))
  | 0x041 => some (.bc (.ofWord w))
  | 0x042 => some (.call (.ofWord w))
  | 0x043 => some (.ret (.ofWord w))
  | 0x044 => some (.jr (.ofWord w))
  | 0x045 => some (.loop (.ofWord w))
  | 0x046 => some (.split (.ofWord w))
  | 0x047 => some (.join (.ofWord w))
  | 0x048 => some (.bzm (.ofWord w))
  | 0x049 => some (.bnzm (.ofWord w))
  | 0x04A => some (.exit (.ofWord w))
  | 0x060 => some (.mset (.ofWord w))
  | 0x061 => some (.mand (.ofWord w))
  | 0x062 => some (.mor (.ofWord w))
  | 0x063 => some (.mandn (.ofWord w))
  | 0x064 => some (.mxor (.ofWord w))
  | 0x065 => some (.mnot (.ofWord w))
  | 0x066 => some (.mcnt (.ofWord w))
  | 0x067 => some (.mfirst (.ofWord w))
  | 0x068 => some (.mfromp (.ofWord w))
  | 0x069 => some (.mtop (.ofWord w))
  | 0x06A => some (.mode (.ofWord w))
  | 0x06B => some (.rmode (.ofWord w))
  | 0x080 => (V3.ofWord w).map .vadd
  | 0x081 => (V3.ofWord w).map .vsub
  | 0x082 => (V3.ofWord w).map .vmul
  | 0x083 => (V3.ofWord w).map .vmulh
  | 0x084 => (V3.ofWord w).map .vmad
  | 0x085 => (V3.ofWord w).map .vmin
  | 0x086 => (V3.ofWord w).map .vmax
  | 0x087 => (V3.ofWord w).map .vabs
  | 0x088 => (V3.ofWord w).map .vneg
  | 0x089 => (V3.ofWord w).map .vand
  | 0x08A => (V3.ofWord w).map .vor
  | 0x08B => (V3.ofWord w).map .vxor
  | 0x08C => (V3.ofWord w).map .vandn
  | 0x08D => (V3.ofWord w).map .vnot
  | 0x08E => (V3.ofWord w).map .vshl
  | 0x08F => (V3.ofWord w).map .vshr
  | 0x090 => (V3.ofWord w).map .vsar
  | 0x091 => (V3.ofWord w).map .vrot
  | 0x092 => (V3.ofWord w).map .vpopc
  | 0x093 => (V3.ofWord w).map .vclz
  | 0x094 => (V3.ofWord w).map .vctz
  | 0x095 => (V3.ofWord w).map .vfns
  | 0x096 => (V3.ofWord w).map .vbrev
  | 0x097 => (V2I.ofWord w).map .vbfx
  | 0x098 => (V2I.ofWord w).map .vbfi
  | 0x099 => (V2I.ofWord w).map .vcmp
  | 0x09A => (V2I.ofWord w).map .vsel
  | 0x09B => (V3.ofWord w).map .vmov
  | 0x09C => (VI.ofWord w).map .vmovi
  | 0x09D => (VI.ofWord w).map .vaddi
  | 0x09E => (V2I.ofWord w).map .vcvt
  | 0x09F => (V2I.ofWord w).map .vpack
  | 0x0A0 => (V2I.ofWord w).map .vunpk
  | 0x0A1 => (V3.ofWord w).map .vmulw
  | 0x0A2 => (V2I.ofWord w).map .vbcs
  | 0x0A3 => (V2I.ofWord w).map .vrdl
  | 0x0E0 => (V3.ofWord w).map .fadd
  | 0x0E1 => (V3.ofWord w).map .fsub
  | 0x0E2 => (V3.ofWord w).map .fmul
  | 0x0E3 => (V3.ofWord w).map .ffma
  | 0x0E4 => (V3.ofWord w).map .ffms
  | 0x0E5 => (V3.ofWord w).map .fnma
  | 0x0E6 => (V3.ofWord w).map .fmin
  | 0x0E7 => (V3.ofWord w).map .fmax
  | 0x0E8 => (V3.ofWord w).map .fabs
  | 0x0E9 => (V3.ofWord w).map .fneg
  | 0x0EA => (V2I.ofWord w).map .fcmp
  | 0x0EB => (V2I.ofWord w).map .fclass
  | 0x0EC => (V2I.ofWord w).map .frnd
  | 0x0ED => (V2I.ofWord w).map .fcvt
  | 0x0EE => (V2I.ofWord w).map .fcvtt
  | 0x0EF => (V2I.ofWord w).map .fcvtf
  | 0x0F0 => (V3.ofWord w).map .fdot2
  | 0x120 => (V2I.ofWord w).map .frcp
  | 0x121 => (V2I.ofWord w).map .frsqrt
  | 0x122 => (V2I.ofWord w).map .fsqrt
  | 0x123 => (V2I.ofWord w).map .fexp2
  | 0x124 => (V2I.ofWord w).map .flog2
  | 0x125 => (V2I.ofWord w).map .fsinpi
  | 0x126 => (V2I.ofWord w).map .fcospi
  | 0x127 => (V2I.ofWord w).map .ftanh
  | 0x130 => some (.vany (.ofWord w))
  | 0x131 => some (.vall (.ofWord w))
  | 0x132 => some (.vballot (.ofWord w))
  | 0x133 => some (.vcount (.ofWord w))
  | 0x134 => some (.pand (.ofWord w))
  | 0x135 => some (.por (.ofWord w))
  | 0x136 => some (.pxor (.ofWord w))
  | 0x137 => some (.pnot (.ofWord w))
  | 0x138 => (V2I.ofWord w).map .rdx
  | 0x139 => (V2I.ofWord w).map .wrx
  | 0x13A => (V2I.ofWord w).map .xset
  | 0x13B => (V2I.ofWord w).map .xget
  | 0x13C => some (.xbnd (.ofWord w))
  | 0x150 => (MF.ofWord w).map .vld
  | 0x151 => (MF.ofWord w).map .vst
  | 0x152 => (MF.ofWord w).map .vlds
  | 0x153 => (MF.ofWord w).map .vsts
  | 0x154 => (MF.ofWord w).map .sld
  | 0x155 => (MF.ofWord w).map .sst
  | 0x156 => (MF.ofWord w).map .vstm
  | 0x157 => (MF.ofWord w).map .ldfe
  | 0x158 => (MF.ofWord w).map .ldff
  | 0x159 => (MF.ofWord w).map .stfe
  | 0x15A => (MF.ofWord w).map .feset
  | 0x15B => (MF.ofWord w).map .vpf
  | 0x15C => (MF.ofWord w).map .cwb
  | 0x15D => (MF.ofWord w).map .cinv
  | 0x190 => (MF.ofWord w).map .atom
  | 0x191 => some (.satom (.ofWord w))
  | 0x192 => (MF.ofWord w).map .atomv
  | 0x193 => (MF.ofWord w).map .lres
  | 0x194 => (MF.ofWord w).map .scond
  | 0x195 => some (.ctadd (.ofWord w))
  | 0x196 => some (.ctwait (.ofWord w))
  | 0x197 => some (.ctread (.ofWord w))
  | 0x198 => some (.bar (.ofWord w))
  | 0x1B0 => some (.fence (.ofWord w))
  | 0x1B1 => some (.xfence (.ofWord w))
  | 0x1B2 => some (.wait (.ofWord w))
  | 0x1B3 => some (.fwait (.ofWord w))
  | 0x1B4 => some (.ftest (.ofWord w))
  | 0x1B5 => some (.fcancel (.ofWord w))
  | 0x1C0 => some (.cp (.ofWord w))
  | 0x1C1 => some (.cpmc (.ofWord w))
  | 0x1C2 => some (.cpg (.ofWord w))
  | 0x1C3 => some (.cpretry (.ofWord w))
  | 0x1C4 => (XF.ofWord w).map .mma
  | 0x1C5 => some (.accld (.ofWord w))
  | 0x1C6 => some (.accst (.ofWord w))
  | 0x1C7 => some (.acczero (.ofWord w))
  | 0x1C8 => some (.fmtset (.ofWord w))
  | 0x1C9 => some (.fmtget (.ofWord w))
  | 0x1CA => some (.rhold (.ofWord w))
  | 0x1CB => some (.rdemote (.ofWord w))
  | 0x1CC => some (.rdrop (.ofWord w))
  | 0x1E0 => some (.trap (.ofWord w))
  | 0x1E1 => some (.rett (.ofWord w))
  | 0x1E2 => some (.rdsys (.ofWord w))
  | 0x1E3 => some (decodeWrsys (.ofWord w))
  | 0x1E4 => some (.tsr (.ofWord w))
  | 0x1E5 => some (.launch (.ofWord w))
  | 0x1E6 => some (.brkp (.ofWord w))
  | 0x1E7 => decodePbset (.ofWord w)
  | 0x1E8 => decodePbget (.ofWord w)
  | 0x1E9 => some (.pswap (.ofWord w))
  | 0x1EA => decodeTlbinv (.ofWord w)
  | 0x1EB => some (.nop (.ofWord w))
  | 0x1EC => some (.hpost (.ofWord w))
  | _ => some (.illegalOpcodeWord w)

/-- Decoding of one 64-bit word. -/
def decode (w : DWord) : Except DecodeError Instr :=
  match decodeFields w with
  | none => .error .fieldCode
  | some i => if i.wellFormed then .ok i else .error .reserved

/-- The 64-bit word of eight bytes, lowest address first (R5, R87). -/
def wordOfBytes : List Byte → DWord
  | [] => 0
  | b :: bs => BitVec.ofNat 64 (b.toNat + 256 * (wordOfBytes bs).toNat)

/-- The instruction at the head of a byte string and the bytes after it. -/
def decodeBytes (bs : List Byte) : Except DecodeError (Instr × List Byte) :=
  if bs.length < 8 then .error .truncated
  else (decode (wordOfBytes (bs.take 8))).map (fun i => (i, bs.drop 8))

/-- The instruction that an instruction word numbered as the opcode table numbers it decodes to. -/
def decodeTableWord (nbits w : Nat) : Option Instr :=
  match decode (BitVec.ofNat 64 (w % 2 ^ nbits)) with
  | .ok i => some i
  | .error _ => none

/-- The word of an instruction; an event has none (R98, R99). -/
def encode : Instr → Option DWord
  | .sadd f => some (f.toWord 0x001)
  | .ssub f => some (f.toWord 0x002)
  | .smul f => some (f.toWord 0x003)
  | .smulh f => some (f.toWord 0x004)
  | .sdiv f => some (f.toWord 0x005)
  | .srem f => some (f.toWord 0x006)
  | .sand f => some (f.toWord 0x007)
  | .sor f => some (f.toWord 0x008)
  | .sxor f => some (f.toWord 0x009)
  | .sandn f => some (f.toWord 0x00A)
  | .sshl f => some (f.toWord 0x00B)
  | .sshr f => some (f.toWord 0x00C)
  | .ssar f => some (f.toWord 0x00D)
  | .smin f => some (f.toWord 0x00E)
  | .smax f => some (f.toWord 0x00F)
  | .sminn f => some (f.toWord 0x010)
  | .smaxn f => some (f.toWord 0x011)
  | .sset f => some (f.toWord 0x012)
  | .ssel f => some (f.toWord 0x013)
  | .smov f => some (f.toWord 0x014)
  | .sli f => some (f.toWord 0x015)
  | .spopc f => some (f.toWord 0x016)
  | .sclz f => some (f.toWord 0x017)
  | .sctz f => some (f.toWord 0x018)
  | .sfns f => some (f.toWord 0x019)
  | .sbrev f => some (f.toWord 0x01A)
  | .sext f => some (f.toWord 0x01B)
  | .sbfx f => some (f.toWord 0x01C)
  | .sbfi f => some (f.toWord 0x01D)
  | .srdt f => some (f.toWord 0x01E)
  | .br f => some (f.toWord 0x040)
  | .bc f => some (f.toWord 0x041)
  | .call f => some (f.toWord 0x042)
  | .ret f => some (f.toWord 0x043)
  | .jr f => some (f.toWord 0x044)
  | .loop f => some (f.toWord 0x045)
  | .split f => some (f.toWord 0x046)
  | .join f => some (f.toWord 0x047)
  | .bzm f => some (f.toWord 0x048)
  | .bnzm f => some (f.toWord 0x049)
  | .exit f => some (f.toWord 0x04A)
  | .mset f => some (f.toWord 0x060)
  | .mand f => some (f.toWord 0x061)
  | .mor f => some (f.toWord 0x062)
  | .mandn f => some (f.toWord 0x063)
  | .mxor f => some (f.toWord 0x064)
  | .mnot f => some (f.toWord 0x065)
  | .mcnt f => some (f.toWord 0x066)
  | .mfirst f => some (f.toWord 0x067)
  | .mfromp f => some (f.toWord 0x068)
  | .mtop f => some (f.toWord 0x069)
  | .mode f => some (f.toWord 0x06A)
  | .rmode f => some (f.toWord 0x06B)
  | .vadd f => some (f.toWord 0x080)
  | .vsub f => some (f.toWord 0x081)
  | .vmul f => some (f.toWord 0x082)
  | .vmulh f => some (f.toWord 0x083)
  | .vmad f => some (f.toWord 0x084)
  | .vmin f => some (f.toWord 0x085)
  | .vmax f => some (f.toWord 0x086)
  | .vabs f => some (f.toWord 0x087)
  | .vneg f => some (f.toWord 0x088)
  | .vand f => some (f.toWord 0x089)
  | .vor f => some (f.toWord 0x08A)
  | .vxor f => some (f.toWord 0x08B)
  | .vandn f => some (f.toWord 0x08C)
  | .vnot f => some (f.toWord 0x08D)
  | .vshl f => some (f.toWord 0x08E)
  | .vshr f => some (f.toWord 0x08F)
  | .vsar f => some (f.toWord 0x090)
  | .vrot f => some (f.toWord 0x091)
  | .vpopc f => some (f.toWord 0x092)
  | .vclz f => some (f.toWord 0x093)
  | .vctz f => some (f.toWord 0x094)
  | .vfns f => some (f.toWord 0x095)
  | .vbrev f => some (f.toWord 0x096)
  | .vbfx f => some (f.toWord 0x097)
  | .vbfi f => some (f.toWord 0x098)
  | .vcmp f => some (f.toWord 0x099)
  | .vsel f => some (f.toWord 0x09A)
  | .vmov f => some (f.toWord 0x09B)
  | .vmovi f => some (f.toWord 0x09C)
  | .vaddi f => some (f.toWord 0x09D)
  | .vcvt f => some (f.toWord 0x09E)
  | .vpack f => some (f.toWord 0x09F)
  | .vunpk f => some (f.toWord 0x0A0)
  | .vmulw f => some (f.toWord 0x0A1)
  | .vbcs f => some (f.toWord 0x0A2)
  | .vrdl f => some (f.toWord 0x0A3)
  | .fadd f => some (f.toWord 0x0E0)
  | .fsub f => some (f.toWord 0x0E1)
  | .fmul f => some (f.toWord 0x0E2)
  | .ffma f => some (f.toWord 0x0E3)
  | .ffms f => some (f.toWord 0x0E4)
  | .fnma f => some (f.toWord 0x0E5)
  | .fmin f => some (f.toWord 0x0E6)
  | .fmax f => some (f.toWord 0x0E7)
  | .fabs f => some (f.toWord 0x0E8)
  | .fneg f => some (f.toWord 0x0E9)
  | .fcmp f => some (f.toWord 0x0EA)
  | .fclass f => some (f.toWord 0x0EB)
  | .frnd f => some (f.toWord 0x0EC)
  | .fcvt f => some (f.toWord 0x0ED)
  | .fcvtt f => some (f.toWord 0x0EE)
  | .fcvtf f => some (f.toWord 0x0EF)
  | .fdot2 f => some (f.toWord 0x0F0)
  | .frcp f => some (f.toWord 0x120)
  | .frsqrt f => some (f.toWord 0x121)
  | .fsqrt f => some (f.toWord 0x122)
  | .fexp2 f => some (f.toWord 0x123)
  | .flog2 f => some (f.toWord 0x124)
  | .fsinpi f => some (f.toWord 0x125)
  | .fcospi f => some (f.toWord 0x126)
  | .ftanh f => some (f.toWord 0x127)
  | .vany f => some (f.toWord 0x130)
  | .vall f => some (f.toWord 0x131)
  | .vballot f => some (f.toWord 0x132)
  | .vcount f => some (f.toWord 0x133)
  | .pand f => some (f.toWord 0x134)
  | .por f => some (f.toWord 0x135)
  | .pxor f => some (f.toWord 0x136)
  | .pnot f => some (f.toWord 0x137)
  | .rdx f => some (f.toWord 0x138)
  | .wrx f => some (f.toWord 0x139)
  | .xset f => some (f.toWord 0x13A)
  | .xget f => some (f.toWord 0x13B)
  | .xbnd f => some (f.toWord 0x13C)
  | .vld f => some (f.toWord 0x150)
  | .vst f => some (f.toWord 0x151)
  | .vlds f => some (f.toWord 0x152)
  | .vsts f => some (f.toWord 0x153)
  | .sld f => some (f.toWord 0x154)
  | .sst f => some (f.toWord 0x155)
  | .vstm f => some (f.toWord 0x156)
  | .ldfe f => some (f.toWord 0x157)
  | .ldff f => some (f.toWord 0x158)
  | .stfe f => some (f.toWord 0x159)
  | .feset f => some (f.toWord 0x15A)
  | .fullEmptyLanePerform _ _ => none
  | .vpf f => some (f.toWord 0x15B)
  | .cwb f => some (f.toWord 0x15C)
  | .cinv f => some (f.toWord 0x15D)
  | .atom f => some (f.toWord 0x190)
  | .satom f => some (f.toWord 0x191)
  | .atomv f => some (f.toWord 0x192)
  | .lres f => some (f.toWord 0x193)
  | .scond f => some (f.toWord 0x194)
  | .ctadd f => some (f.toWord 0x195)
  | .ctwait f => some (f.toWord 0x196)
  | .ctread f => some (f.toWord 0x197)
  | .bar f => some (f.toWord 0x198)
  | .fence f => some (f.toWord 0x1B0)
  | .xfence f => some (f.toWord 0x1B1)
  | .wait f => some (f.toWord 0x1B2)
  | .fwait f => some (f.toWord 0x1B3)
  | .ftest f => some (f.toWord 0x1B4)
  | .fcancel f => some (f.toWord 0x1B5)
  | .engineStopCancel _ => none
  | .cp f => some (f.toWord 0x1C0)
  | .cpmc f => some (f.toWord 0x1C1)
  | .cpg f => some (f.toWord 0x1C2)
  | .cpretry f => some (f.toWord 0x1C3)
  | .copyCompletion _ _ => none
  | .followOnMmaIssue _ => none
  | .mma f => some (f.toWord 0x1C4)
  | .matrixCommandStart _ => none
  | .matrixCommandComplete _ => none
  | .accld f => some (f.toWord 0x1C5)
  | .accst f => some (f.toWord 0x1C6)
  | .acczero f => some (f.toWord 0x1C7)
  | .fmtset f => some (f.toWord 0x1C8)
  | .fmtsetCompletion _ => none
  | .fmtget f => some (f.toWord 0x1C9)
  | .rhold f => some (f.toWord 0x1CA)
  | .rdemote f => some (f.toWord 0x1CB)
  | .rdrop f => some (f.toWord 0x1CC)
  | .trap f => some (f.toWord 0x1E0)
  | .rett f => some (f.toWord 0x1E1)
  | .asyncTrapDelivery _ => none
  | .homeTrapAnswer _ => none
  | .rdsys f => some (f.toWord 0x1E2)
  | .wrsys f => some (f.toWord 0x1E3)
  | .thRegisterWrite f => some (f.toWord 0x1E3)
  | .timestatWrite f => some (f.toWord 0x1E3)
  | .rwayfWrite f => some (f.toWord 0x1E3)
  | .tsr f => some (f.toWord 0x1E4)
  | .launch f => some (f.toWord 0x1E5)
  | .brkp f => some (f.toWord 0x1E6)
  | .pbsetRng f => some (f.toWord 0x1E7)
  | .pbsetProt f => some (f.toWord 0x1E7)
  | .pbgetRng f => some (f.toWord 0x1E8)
  | .pbgetProt f => some (f.toWord 0x1E8)
  | .conversionComplete => none
  | .pswap f => some (f.toWord 0x1E9)
  | .pswapChunkExchange _ => none
  | .tlbinvPage f => some (f.toWord 0x1EA)
  | .tlbinvSpace f => some (f.toWord 0x1EA)
  | .tlbinvAll f => some (f.toWord 0x1EA)
  | .tlbinvComplete _ => none
  | .nop f => some (f.toWord 0x1EB)
  | .hpost f => some (f.toWord 0x1EC)
  | .variableLatencyResult _ => none
  | .accessCompletion _ _ => none
  | .vstmMemberAck _ _ => none
  | .switchMarkerWaitEnd _ => none
  | .parkConditionClears _ => none
  | .faultRecordPost => none
  | .issueCycle => none
  | .guardQueueAppend => none
  | .demotionEligible => none
  | .demotionEnd => none
  | .recallStart _ => none
  | .recallEnd => none
  | .coreBecomesHot => none
  | .captureBegin => none
  | .captureSuccess => none
  | .captureAbandon => none
  | .captureExclusionEnd => none
  | .moveBegin => none
  | .moveEnd => none
  | .launchRecordCheck => none
  | .placementStep => none
  | .pboundExpiry => none
  | .flushDiscard => none
  | .drainToSave => none
  | .saveImageWriteStart _ => none
  | .saveRetry => none
  | .saveImageComplete => none
  | .resumeRestoreComplete => none
  | .workgroupCompletion _ => none
  | .preempt _ => none
  | .resume _ => none
  | .retire _ => none
  | .kill _ => none
  | .workgroupLost _ _ => none
  | .lostWorkgroupDispose => none
  | .ringmasterStateRebuild => none
  | .translationWalkComplete _ _ _ _ => none
  | .accessCountHalving => none
  | .migrationHysteresisEnd => none
  | .gets _ => none
  | .getm _ => none
  | .putm _ => none
  | .inv _ => none
  | .fwds _ => none
  | .fwdm _ => none
  | .data _ => none
  | .ack _ => none
  | .last => none
  | .wbdata _ => none
  | .putack _ => none
  | .hostRead _ _ _ _ => none
  | .hostWrite _ _ _ => none
  | .hostCounterAdd _ _ _ => none
  | .linkoSlottedFlit _ _ => none
  | .linkoIdle _ _ => none
  | .nak _ _ => none
  | .nakRepeat => none
  | .slotlost _ _ => none
  | .slotlostRepeat => none
  | .lostEntryDetect _ _ => none
  | .linkoReplacementSend _ _ => none
  | .retrain _ _ => none
  | .retrainComplete _ _ => none
  | .linkoOpWrite _ _ => none
  | .linkoOpRead _ _ => none
  | .linkoOpCounterAdd _ _ => none
  | .linkoDescriptorComplete _ _ => none
  | .activate => none
  | .faultAnswer => none
  | .migqSet => none
  | .linkqBind => none
  | .linkqResume => none
  | .inwinSet => none
  | .hostkeySet => none
  | .attest => none
  | .kekSet => none
  | .keyLoad => none
  | .keyClear => none
  | .scrub => none
  | .logRange => none
  | .logArea => none
  | .threshSet => none
  | .evlogRead => none
  | .admissionsBatch => none
  | .logBatchFlush => none
  | .patrolRead _ _ _ => none
  | .lastingUnit => none
  | .spareCopyComplete => none
  | .referenceLost => none
  | .referenceReturn => none
  | .droopAlarm _ _ => none
  | .stretchEnd => none
  | .halvedWindowEnd => none
  | .overheatHalving => none
  | .overtempTrip => none
  | .canopyRefresh => none
  | .deviceReset => none
  | .coreStopsBeingHot => none
  | .overheatHalvingEnd => none
  | .illegalOpcodeWord word => some word
  | .debuggerAccess _ => none
  | .pushMerge _ => none

end Sys2Proof
end

