-- ==== Sys2Proof/Config.lean ====
section
/-! DEFINITION. What an implementation fixes and the manual leaves open: the free values, each a constant with no body. -/

namespace Sys2Proof.Config

/-- Free value: one bit for the draw and the index that ask for it (R49, R50, R193, R211, R392). -/
opaque freeBit : Nat → Nat → Bool

/-- Free value: which of several enabled events of unstated timing happens next (R290 leaves latencies open). -/
opaque choice : Nat → Nat → Nat

/-- Free value: a byte that the manual leaves unpredictable (R365). -/
opaque freeByte : Nat → Nat → Byte

/-- Free value: the first contents of byte `offset` of the scratchpad of a placement (R45). -/
opaque scratchByte : Nat → Nat → Byte

/-- The fixed choice of R86 among the values a special function may return: function number, input value code,
rounding mode, flush flag, element type, number of candidates. -/
opaque sfPick : Nat → Nat → Nat → Bool → Nat → Nat → Nat

/-- The number that picks the set of a line in a column store's cache and in a slice, modulo the sets there are (R364 and R367 give sets and no index). -/
opaque columnSet : Nat → Nat
opaque sliceSet : Nat → Nat

/-- Which neighbour a tie takes in a format with no fraction bit, for an entry and the lower neighbour's code (R65 names
the fraction bit that such a format lacks). -/
opaque tieUp : Nat → Nat → Bool

/-- The measured latency of a clock-domain crossing, in picoseconds (R416). -/
opaque xlatLat : Nat → BitVec 16

/-- Whether the firmware that is present passes the verification of the boot sequence (R454). -/
opaque firmwareVerifies : Bool

/-- The 64-bit device identity fused at manufacture (R455). -/
opaque devId : BitVec 64

/-- The SHA-512 digest of a byte string, 64 bytes (R381, R450, R452 to R455). -/
opaque sha512 : List Byte → List Byte

/-- The signature block of R451, 3376 bytes, by the device's attestation keys over a digest. -/
opaque signBlock : List Byte → List Byte

/-- Whether a signature block verifies a digest under Ceorn's protocol-signing pair (R451). -/
opaque protocolSigOk : List Byte → List Byte → Bool

/-- ML-KEM-1024 decapsulation followed by HKDF-SHA-512 with a domain as info string (R444): ciphertext, domain. -/
opaque kemKek : List Byte → Nat → BitVec 256

/-- AES-256 key unwrap (R444): key-encryption key, wrapped key; none for a failed unwrap. -/
opaque keyUnwrap : BitVec 256 → List Byte → Option (BitVec 512)

/-- The per-domain canopy key that Icfort derives at KEK_SET (R442). -/
opaque canopyKey : BitVec 256 → Nat → BitVec 256

/-- Attestation material of R455: five 64-byte measurements, five security versions, the encapsulation key. -/
opaque measurement : Nat → List Byte
opaque securityVersion : Nat → BitVec 32
opaque encapKey : List Byte

/-- The bank or array in which a repair unit of a structure lies (R422 gives the spares of each and no numbering). -/
opaque repairBank : Nat → Nat → Nat

/-- The register-file rows, accumulator rows and canopy rows that a byte count occupies (R450 counts rows of
structures whose row sizes the manual does not give, but for 1 KB canopy rows). -/
opaque registerRowBytes : Nat
opaque accumulatorRowBytes : Nat

end Sys2Proof.Config
end

