-- ==== Sys2Proof/Machine/Table.lean ====
section
/-! DEFINITION. Sparse tables in one canonical form, lanes, and byte strings. -/

namespace Sys2Proof.Machine

/-- A table of values by number, its keys strictly rising; a missing key has the reader's default. -/
abbrev Table (α : Type) := List (Nat × α)

/-- The value at a key. -/
def Table.find {α : Type} (t : List (Nat × α)) (k : Nat) : Option α :=
  match t with
  | [] => none
  | (j, v) :: r => if j = k then some v else Table.find r k

/-- The value at a key, or the default. -/
def Table.get {α : Type} (t : List (Nat × α)) (k : Nat) (dflt : α) : α := (Table.find t k).getD dflt

/-- Put a value at a key, keeping the keys rising. -/
def Table.put {α : Type} (t : List (Nat × α)) (k : Nat) (v : α) : List (Nat × α) :=
  match t with
  | [] => [(k, v)]
  | (j, w) :: r => if k < j then (k, v) :: (j, w) :: r else if j = k then (k, v) :: r else (j, w) :: Table.put r k v

/-- Remove a key. -/
def Table.drop {α : Type} (t : List (Nat × α)) (k : Nat) : List (Nat × α) := t.filter (fun e => e.1 != k)

/-- Change the `k`-th element of a list. -/
def modAt {α : Type} (l : List α) (k : Nat) (f : α → α) : List α :=
  match l, k with
  | [], _ => []
  | a :: r, 0 => f a :: r
  | a :: r, k + 1 => a :: modAt r k f

/-- Change the value at a key. -/
def Table.modify {α : Type} (t : List (Nat × α)) (k : Nat) (dflt : α) (f : α → α) : List (Nat × α) :=
  Table.put t k (f (Table.get t k dflt))

/-- The keys rise strictly. -/
def Table.rising {α : Type} : List (Nat × α) → Bool
  | [] => true
  | [_] => true
  | a :: b :: r => a.1 < b.1 && Table.rising (b :: r)

/-! ## Sorting -/

/-- Put an element before the first that it may stand before. -/
def sortIn {α : Type} (le : α → α → Bool) (a : α) : List α → List α
  | [] => [a]
  | b :: r => if le a b then a :: b :: r else b :: sortIn le a r

/-- The list in order; equal elements keep theirs. -/
def sortBy {α : Type} (le : α → α → Bool) (l : List α) : List α := l.foldr (sortIn le) []

/-! ## Lanes and masks -/

/-- The value of a lane; a missing lane is zero. -/
def lane (v : Lanes) (l : Nat) : Word := v.getD l 0

/-- The lane numbers (R22). -/
def allLanes : List Nat := List.range 96

/-- The register whose lane `l` is `f l`. -/
def ofLanes (f : Nat → Word) : Lanes := allLanes.map f

/-- The mask whose bit `l` is `f l`. -/
def ofMask (f : Nat → Bool) : Mask :=
  BitVec.ofNat 96 (allLanes.foldr (fun l acc => (if f l then 1 else 0) + 2 * acc) 0)

/-- Bit `l` of a mask. -/
def has (m : Mask) (l : Nat) : Bool := m.getLsbD l

/-- The lanes of a mask, lowest first. -/
def lanesOf (m : Mask) : List Nat := allLanes.filter (has m)

/-- The number of set bits. -/
def maskCount (m : Mask) : Nat := (lanesOf m).length

/-! ## Byte strings, little-endian (R5) -/

/-- The `n` low bytes of a number. -/
def bytesOf (n v : Nat) : List Byte :=
  match n with
  | 0 => []
  | k + 1 => BitVec.ofNat 8 v :: bytesOf k (v / 256)

/-- The number a byte string holds. -/
def numOf (bs : List Byte) : Nat := bs.foldr (fun b acc => b.toNat + 256 * acc) 0

/-- `n` bytes of a string from byte `k`, zero past its end. -/
def slice (bs : List Byte) (k n : Nat) : List Byte := (List.range n).map (fun i => bs.getD (k + i) 0)

/-- The number in `n` bytes of a string from byte `k`. -/
def numAt (bs : List Byte) (k n : Nat) : Nat := numOf (slice bs k n)

/-- Put bytes into a string from byte `k`. -/
def splice (bs : List Byte) (k : Nat) (new : List Byte) : List Byte :=
  bs.take k ++ new ++ bs.drop (k + new.length)

/-- Sign extension of a `w`-bit number to an integer. -/
def signed (w v : Nat) : Int := if v % 2 ^ w < 2 ^ (w - 1) then (v % 2 ^ w : Nat) else ((v % 2 ^ w : Nat) : Int) - (2 ^ w : Nat)

/-- An integer modulo `2 ^ w`. -/
def wrap (w : Nat) (v : Int) : Nat := (v % ((2 ^ w : Nat) : Int)).toNat

/-- The first element of a list that satisfies a test, with its place. -/
def firstWith {α : Type} (p : α → Bool) : List α → Option α
  | [] => none
  | a :: r => if p a then some a else firstWith p r

end Sys2Proof.Machine
end

