-- ==== Sys2Proof/Machine/Float.lean ====
section
/-! DEFINITION. Exact values, the formats of R62 and R72, the one rounding of R65, and block scales (R78). -/

namespace Sys2Proof.Machine

/-- An exact value: NaN, a signed infinity, or a signed fraction (R62, R74). -/
inductive Val where
  | nan
  | inf (neg : Bool)
  | fin (neg : Bool) (num den : Nat)
  deriving DecidableEq, Repr

namespace Val

def zero (neg : Bool) : Val := .fin neg 0 1

/-- `(-1)^neg × m × 2^e`. -/
def scaled (neg : Bool) (m : Nat) (e : Int) : Val :=
  if 0 ≤ e then .fin neg (m * 2 ^ e.toNat) 1 else .fin neg m (2 ^ (-e).toNat)

def isNaN : Val → Bool
  | .nan => true
  | _ => false

def isInf : Val → Bool
  | .inf _ => true
  | _ => false

def isZero : Val → Bool
  | .fin _ n _ => n == 0
  | _ => false

def isNeg : Val → Bool
  | .nan => false
  | .inf s => s
  | .fin s _ _ => s

def negate : Val → Val
  | .nan => .nan
  | .inf s => .inf (!s)
  | .fin s n d => .fin (!s) n d

def ofInt (i : Int) : Val := .fin (i < 0) i.natAbs 1

/-- The exact product; infinity times zero is NaN. -/
def mul : Val → Val → Val
  | .nan, _ => .nan
  | _, .nan => .nan
  | .inf s, b => if b.isZero then .nan else .inf (s != b.isNeg)
  | a, .inf s => if a.isZero then .nan else .inf (s != a.isNeg)
  | .fin s n d, .fin t m e => .fin (s != t) (n * m) (d * e)

/-- The exact quotient of R177: a non-zero value by zero is infinite, zero by zero is NaN. -/
def div : Val → Val → Val
  | .nan, _ => .nan
  | _, .nan => .nan
  | .inf _, .inf _ => .nan
  | .inf s, b => .inf (s != b.isNeg)
  | a, .inf s => .zero (s != a.isNeg)
  | .fin s n d, .fin t m e =>
    if m = 0 then (if n = 0 then .nan else .inf (s != t)) else .fin (s != t) (n * e) (d * m)

/-- Numerator of a finite value, signed. -/
def signedNum : Val → Int
  | .fin s n _ => if s then -(n : Int) else n
  | _ => 0

def denom : Val → Nat
  | .fin _ _ d => d
  | _ => 1

/-- The exact sum of finite terms as a signed numerator and a denominator. -/
def sumFinite (ts : List Val) : Int × Nat :=
  ts.foldl (fun acc t => (acc.1 * t.denom + t.signedNum * acc.2, acc.2 * t.denom)) (0, 1)

/-- The exact sum of terms (R64, R68, R82, R84): an exact zero keeps a sign all terms share, else it is +0, or -0 under
rounding mode 3. -/
def sum (ts : List Val) (mode : Nat) : Val :=
  if ts.any isNaN then .nan
  else if ts.any isInf then
    (if ts.any (fun t => t == .inf false) && ts.any (fun t => t == .inf true) then .nan
     else .inf (ts.any (fun t => t == .inf true)))
  else
    let r := sumFinite ts
    if r.1 = 0 then
      .zero (if ts.all (fun t => t.isZero && t.isNeg) then true
             else if ts.all (fun t => t.isZero && !t.isNeg) then false else mode == 3)
    else .fin (r.1 < 0) r.1.natAbs r.2

def add (a b : Val) (mode : Nat) : Val := sum [a, b] mode

/-- Ordering of two values that are not NaN, −0 equal to +0. -/
def compare : Val → Val → Ordering
  | .inf s, .inf t => if s = t then .eq else if s then .lt else .gt
  | .inf s, _ => if s then .lt else .gt
  | _, .inf t => if t then .gt else .lt
  | a, b => Ord.compare (a.signedNum * b.denom) (b.signedNum * a.denom)

end Val

/-- The largest `k` with `2 ^ k ≤ n / d`, for `n` and `d` positive. -/
def floorLog2 (n d : Nat) : Int :=
  let k : Int := (n.log2 : Int) - d.log2
  if (if 0 ≤ k then d * 2 ^ k.toNat ≤ n else d ≤ n * 2 ^ (-k).toNat) then k else k - 1

/-- A binary format: fraction bits, bias, the largest finite exponent and fraction fields, and whether it has a sign. -/
structure Fp where
  p : Nat
  bias : Int
  topExp : Nat
  topFrac : Nat
  deriving DecidableEq, Repr

/-- The formats of R62. -/
def fp64 : Fp := { p := 52, bias := 1023, topExp := 2046, topFrac := 2 ^ 52 - 1 }
def fp32 : Fp := { p := 23, bias := 127, topExp := 254, topFrac := 2 ^ 23 - 1 }
def fp16 : Fp := { p := 10, bias := 15, topExp := 30, topFrac := 2 ^ 10 - 1 }
def bf16 : Fp := { p := 7, bias := 127, topExp := 254, topFrac := 2 ^ 7 - 1 }

/-- Exponent bits of a format of R62. -/
def Fp.expBits (f : Fp) : Nat := (f.topExp + 1).log2 + 1

def Fp.width (f : Fp) : Nat := 1 + f.expBits + f.p

/-- The floating-point format of an element type (R41, R63). -/
def fpOf (et : Nat) : Fp := if et = 9 then fp64 else if et = 10 then fp16 else if et = 11 then bf16 else fp32

/-- A rounded magnitude: its exponent and fraction fields, zero included, or an overflow (R65, R66). -/
inductive Rounded where
  | code (ex fr : Nat)
  | over
  deriving DecidableEq, Repr

/-- Whether rounding takes the upper neighbour: `low` its lower neighbour's integer, `half` how the rest compares
with one half, under mode and sign (R65). -/
def roundUp (mode : Nat) (neg : Bool) (low : Nat) (exact : Bool) (half : Ordering) : Bool :=
  if exact then false
  else match mode with
    | 0 => half == .gt || (half == .eq && low % 2 == 1)
    | 1 => false
    | 2 => !neg
    | _ => neg

/-- The fields of the multiple `m` of `2 ^ e`, where `e` is the spacing there (R65). -/
def Fp.fields (f : Fp) (m : Nat) (e : Int) : Rounded :=
  if m < 2 ^ f.p then .code 0 m
  else
    let ex : Int := e + f.bias + f.p
    let r := if m = 2 ^ (f.p + 1) then (ex.toNat + 1, 0) else (ex.toNat, m - 2 ^ f.p)
    if f.topExp < r.1 ∨ (r.1 = f.topExp ∧ f.topFrac < r.2) then .over else .code r.1 r.2

/-- The exponent of the spacing at a positive magnitude (R65: the subnormal range has fixed spacing). -/
def Fp.spacing (f : Fp) (n d : Nat) : Int := max (floorLog2 n d) (1 - f.bias) - f.p

/-- `n / d` in units of `2 ^ e`, as numerator and denominator. -/
def inUnits (n d : Nat) (e : Int) : Nat × Nat := if 0 ≤ e then (n, d * 2 ^ e.toNat) else (n * 2 ^ (-e).toNat, d)

/-- Round of a non-zero magnitude (R65). `tie` decides a tie in a format with no fraction bit. -/
def Fp.round (f : Fp) (mode : Nat) (neg : Bool) (n d : Nat) (tie : Nat → Bool) : Rounded :=
  let e := f.spacing n d
  let u := inUnits n d e
  let low := u.1 / u.2
  let rest := u.1 % u.2
  let half := Ord.compare (2 * rest) u.2
  let up := if f.p = 0 ∧ mode = 0 ∧ half = .eq then tie low else roundUp mode neg low (rest == 0) half
  f.fields (if up then low + 1 else low) e

/-- Whether an overflow gives infinity under a mode and sign (R66). -/
def overInf (mode : Nat) (neg : Bool) : Bool := mode == 0 || (mode == 2 && !neg) || (mode == 3 && neg)

/-! ## The formats of R62 -/

/-- The bits of sign, exponent and fraction fields. -/
def Fp.pack (f : Fp) (neg : Bool) (ex fr : Nat) : Nat :=
  (if neg then 2 ^ (f.width - 1) else 0) + ex * 2 ^ f.p + fr

/-- The canonical NaN (R62). -/
def Fp.nan (f : Fp) : Nat := f.pack false (f.topExp + 1) (2 ^ (f.p - 1))

def Fp.inf (f : Fp) (neg : Bool) : Nat := f.pack neg (f.topExp + 1) 0

def Fp.largest (f : Fp) (neg : Bool) : Nat := f.pack neg f.topExp f.topFrac

/-- The value of the bits of a format (R62). -/
def Fp.value (f : Fp) (bits : Nat) : Val :=
  let fr := bits % 2 ^ f.p
  let ex := bits / 2 ^ f.p % 2 ^ f.expBits
  let neg := bits / 2 ^ (f.width - 1) % 2 == 1
  if ex = f.topExp + 1 then (if fr = 0 then .inf neg else .nan)
  else if ex = 0 then .scaled neg fr (1 - f.bias - f.p)
  else .scaled neg (2 ^ f.p + fr) ((ex : Int) - f.bias - f.p)

/-- Round of R65 into a format of R62. -/
def Fp.encode (f : Fp) (mode : Nat) (v : Val) : Nat :=
  match v with
  | .nan => f.nan
  | .inf s => f.inf s
  | .fin s n d =>
    if n = 0 then f.pack s 0 0
    else match f.round mode s n d (fun _ => false) with
      | .code ex fr => f.pack s ex fr
      | .over => if overInf mode s then f.inf s else f.largest s

/-- Fl of R165: a subnormal becomes a zero of its sign when the flush flag is set (R67). -/
def Fp.flush (f : Fp) (ftz : Bool) (bits : Nat) : Nat :=
  if ftz && bits / 2 ^ f.p % 2 ^ f.expBits == 0 then bits / 2 ^ (f.width - 1) % 2 * 2 ^ (f.width - 1) else bits

/-- The flushed value of the bits. -/
def Fp.read (f : Fp) (ftz : Bool) (bits : Nat) : Val := f.value (f.flush ftz bits)

/-- Round then flush (R67, R165). -/
def Fp.write (f : Fp) (ftz : Bool) (mode : Nat) (v : Val) : Nat := f.flush ftz (f.encode mode v)

/-- An integer rounded from a value under a mode (R70, R77, R173): sign and magnitude. -/
def roundInt (mode : Nat) (neg : Bool) (n d : Nat) : Nat :=
  let low := n / d
  if roundUp mode neg low (n % d == 0) (Ord.compare (2 * (n % d)) d) then low + 1 else low

/-- Clamp to a range. -/
def clampInt (lo hi v : Int) : Int := if v < lo then lo else if hi < v then hi else v

/-- Conversion to an integer range: NaN gives 0, the rest saturates (R70). -/
def Val.toInt (mode : Nat) (lo hi : Int) : Val → Int
  | .nan => 0
  | .inf s => if s then lo else hi
  | .fin s n d => let m : Int := roundInt mode s n d; clampInt lo hi (if s then -m else m)

/-! ## Format-table entries (R71 to R77) -/

structure Entry where
  kind : Nat
  ew : Nat
  mw : Nat
  uns : Bool
  spec : Nat
  scale : Nat
  badj : Int
  raw : Nat
  deriving DecidableEq, Repr

/-- The fields of an entry (R72). -/
def Entry.ofBits (b : BitVec 16) : Entry :=
  let v := b.toNat
  { kind := v / 2 ^ 14, ew := v / 2 ^ 11 % 8, mw := v / 2 ^ 7 % 16, uns := v / 64 % 2 == 1, spec := v / 16 % 4,
    scale := v / 4 % 4, badj := signed 2 v, raw := v }

/-- The element width of an entry (R73). -/
def Entry.width (e : Entry) : Nat :=
  match e.kind with
  | 0 => (if e.uns then 0 else 1) + e.ew + e.mw
  | 1 => e.mw + (if e.uns then 0 else 1)
  | _ => 16

/-- R73. -/
def Entry.valid (e : Entry) : Bool :=
  e.spec != 3 && e.scale != 3 &&
  match e.kind with
  | 0 => e.mw ≤ 10 && 1 ≤ e.ew && (e.width == 4 || e.width == 6 || e.width == 8) && (e.spec == 2 || 2 ≤ e.ew)
  | 1 => e.mw ≤ 10 && e.ew == 0 && e.spec == 0 && e.badj == 0 && (e.width == 4 || e.width == 6 || e.width == 8)
  | _ => e.ew == 0 && e.mw == 0 && !e.uns && e.spec == 0 && e.badj == 0

/-- The default table (R75). -/
def defaultEntry (n : Nat) : BitVec 16 :=
  match n with
  | 1 => 0x2900
  | 2 => 0x1920
  | 3 => 0x11A0
  | 4 => 0x10A0
  | 5 => 0x4380
  | 6 => 0x4180
  | 7 => 0x8000
  | 8 => 0xC000
  | _ => 0x2190

def defaultFormats : List (BitVec 16) := (List.range 16).map defaultEntry

/-- The minifloat format of a KIND 00 entry (R74, R77). -/
def Entry.fp (e : Entry) : Fp :=
  let top := 2 ^ e.ew - 1
  let fr := 2 ^ e.mw - 1
  let r := match e.spec with
    | 0 => (top - 1, fr)
    | 1 => if e.mw = 0 then (top - 1, fr) else (top, fr - 1)
    | _ => (top, fr)
  { p := e.mw, bias := (2 : Int) ^ (e.ew - 1) - 1 + e.badj, topExp := r.1, topFrac := r.2 }

/-- Dec of R74. -/
def Entry.dec (e : Entry) (bits : Nat) : Val :=
  match e.kind with
  | 2 => bf16.value bits
  | 3 => fp16.value bits
  | 1 => Val.ofInt (if e.uns then (bits : Int) else signed e.width bits)
  | _ =>
    let m := bits % 2 ^ e.mw
    let x := bits / 2 ^ e.mw % 2 ^ e.ew
    let neg := !e.uns && bits / 2 ^ (e.ew + e.mw) % 2 == 1
    if e.spec = 0 ∧ x = 2 ^ e.ew - 1 then (if m = 0 then .inf neg else .nan)
    else if e.spec = 1 ∧ x = 2 ^ e.ew - 1 ∧ m = 2 ^ e.mw - 1 then .nan
    else if x = 0 then .scaled neg m (1 - e.fp.bias - e.mw)
    else .scaled neg (2 ^ e.mw + m) ((x : Int) - e.fp.bias - e.mw)

/-- The smallest normal of an entry: exponent of two, or none for an integer (R77, R178). -/
def Entry.minNormal (e : Entry) : Option Int :=
  match e.kind with
  | 1 => none
  | 2 => some (1 - bf16.bias)
  | 3 => some (1 - fp16.bias)
  | _ => some (1 - e.fp.bias)

/-- FlF of R178. -/
def Entry.flushVal (e : Entry) (ftz : Bool) (v : Val) : Val :=
  match v, e.minNormal with
  | .fin s n d, some k => if ftz && n != 0 && decide (floorLog2 n d < k) then .zero s else v
  | _, _ => v

/-- The code of an entry's minifloat fields. -/
def Entry.pack (e : Entry) (neg : Bool) (ex fr : Nat) : Nat :=
  (if neg && !e.uns then 2 ^ (e.ew + e.mw) else 0) + ex * 2 ^ e.mw + fr

/-- The range of an integer entry (R77). -/
def Entry.range (e : Entry) : Int × Int :=
  if e.uns then (0, 2 ^ e.mw - 1) else (-(2 ^ e.mw), 2 ^ e.mw - 1)

/-- Round of R77 into an entry, with its flush. A NaN takes the SPEC 00 column's code for KIND 10 and 11 too (log 136). -/
def Entry.encode (e : Entry) (mode : Nat) (ftz : Bool) (v : Val) : Nat :=
  match e.kind with
  | 2 => if v = .nan then 0x7FFF else bf16.write ftz mode v
  | 3 => if v = .nan then 0x7FFF else fp16.write ftz mode v
  | 1 => wrap e.width (v.toInt mode e.range.1 e.range.2)
  | _ =>
    let f := e.fp
    match v with
    | .nan => if e.spec = 2 then 0 else e.pack false (2 ^ e.ew - 1) (2 ^ e.mw - 1)
    | .inf s =>
      if e.uns && s then 0
      else if e.spec = 0 then e.pack s (2 ^ e.ew - 1) 0 else e.pack s f.topExp f.topFrac
    | .fin s n d =>
      if e.uns && s then 0
      else if n = 0 then e.pack s 0 0
      else match f.round mode s n d (fun low => Config.tieUp e.raw low) with
        | .code ex fr => if ftz && ex == 0 then e.pack s 0 0 else e.pack s ex fr
        | .over =>
          if e.spec = 0 ∧ overInf mode s then e.pack s (2 ^ e.ew - 1) 0 else e.pack s f.topExp f.topFrac

/-- A scale byte (R78). -/
def scaleOf (code byte : Nat) : Val :=
  match code with
  | 0 => .fin false 1 1
  | 1 => if byte = 255 then .nan else .scaled false 1 ((byte : Int) - 127)
  | _ =>
    if byte / 128 = 1 ∨ byte % 128 = 127 then .nan
    else (Entry.ofBits 0x2190).dec (byte % 128)

end Sys2Proof.Machine
end

