-- ==== Sys2Proof/Machine/Flags.lean ====
section
/-! DEFINITION. Conditions, saturation and the bit operations of the scalar and vector integer instructions. The device keeps no
flags (R61, R64): a condition is computed where an instruction tests it. -/

namespace Sys2Proof.Machine

/-- Condition codes 0 to 9 over `w`-bit values (R94). -/
def condHolds (w code a b : Nat) : Bool :=
  let a := a % 2 ^ w
  let b := b % 2 ^ w
  match code with
  | 0 => a == b
  | 1 => a != b
  | 2 => signed w a < signed w b
  | 3 => signed w a ≤ signed w b
  | 4 => signed w b ≤ signed w a
  | 5 => a < b
  | 6 => a ≤ b
  | 7 => b ≤ a
  | 8 => signed w b < signed w a
  | 9 => b < a
  | _ => false

/-- The floating-point conditions of R171. -/
def fcondHolds (code : Nat) (a b : Val) : Bool :=
  let un := a.isNaN || b.isNaN
  match code with
  | 0 => !un && a.compare b == .eq
  | 1 => un || a.compare b != .eq
  | 2 => !un && a.compare b == .lt
  | 3 => !un && a.compare b != .gt
  | 4 => !un && a.compare b != .lt
  | 5 => un
  | 6 => !un
  | 8 => !un && a.compare b == .gt
  | _ => false

/-- The classes of R172, bit number of the CLASS mask. -/
def classOf (f : Fp) (bits : Nat) : Nat :=
  let fr := bits % 2 ^ f.p
  let ex := bits / 2 ^ f.p % 2 ^ f.expBits
  let neg := bits / 2 ^ (f.width - 1) % 2 == 1
  if ex = f.topExp + 1 then
    (if fr = 0 then (if neg then 0 else 7) else if fr / 2 ^ (f.p - 1) % 2 = 1 then 9 else 8)
  else if ex = 0 then
    (if fr = 0 then (if neg then 3 else 4) else if neg then 2 else 5)
  else if neg then 1 else 6

/-- The range of a `w`-bit element (R60). -/
def rangeLo (w : Nat) (sgn : Bool) : Int := if sgn then -(2 ^ (w - 1)) else 0
def rangeHi (w : Nat) (sgn : Bool) : Int := if sgn then 2 ^ (w - 1) - 1 else 2 ^ w - 1

/-- R61: saturate or wrap an exact result. -/
def narrow (w : Nat) (sgn sat : Bool) (v : Int) : Nat :=
  if sat then wrap w (clampInt (rangeLo w sgn) (rangeHi w sgn) v) else wrap w v

/-- An element read as a signed or unsigned integer. -/
def elemInt (w : Nat) (sgn : Bool) (v : Nat) : Int := if sgn then signed w v else ((v % 2 ^ w : Nat) : Int)

/-- Bit `i` of a number. -/
def bitAt (v i : Nat) : Bool := v / 2 ^ i % 2 == 1

/-- The positions of the set bits of a `w`-bit value, lowest first. -/
def setBits (w v : Nat) : List Nat := (List.range w).filter (bitAt v)

def popCount (w v : Nat) : Nat := (setBits w v).length

/-- FindNth of R127. -/
def findNth (w a n : Nat) : Nat := (setBits w a).getD n w

/-- Leading and trailing zeros; `w` for zero (R126, R153). -/
def clz (w v : Nat) : Nat := match (setBits w v).getLast? with
  | some i => w - 1 - i
  | none => w
def ctz (w v : Nat) : Nat := (setBits w v).headD w

/-- Bit reversal (R126, R153). -/
def bitRev (w v : Nat) : Nat := (List.range w).foldl (fun acc i => 2 * acc + (if bitAt v i then 1 else 0)) 0

/-- Extract of R127, zero- or sign-extended. -/
def bitExtract (w a pos wid : Nat) (sx : Bool) : Nat :=
  let f := a % 2 ^ w / 2 ^ pos % 2 ^ wid
  if sx ∧ 0 < wid then wrap w (signed wid f) else f

/-- Insert of R127: a position of `w` or more is never written. -/
def bitInsert (w d a pos wid : Nat) : Nat :=
  let lo := d % 2 ^ min pos w
  let n := min wid (w - pos)
  if w ≤ pos then d % 2 ^ w else lo + a % 2 ^ n * 2 ^ pos + d % 2 ^ w / 2 ^ (pos + n) * 2 ^ (pos + n)

/-- Shifts over `w` bits (R126, R153). -/
def shl (w a k : Nat) : Nat := if w ≤ k then 0 else a * 2 ^ k % 2 ^ w
def shr (w a k : Nat) : Nat := if w ≤ k then 0 else a % 2 ^ w / 2 ^ k
def sar (w a k : Nat) : Nat := wrap w (signed w a / (2 : Int) ^ min k w)
def rot (w a k : Nat) : Nat := let r := k % w; a * 2 ^ r % 2 ^ w + a % 2 ^ w / 2 ^ (w - r)

end Sys2Proof.Machine
end

