-- ==== Sys2Proof/Machine/State.lean ====
section
/-! DEFINITION. The state of the machine as plain data: everything the manual gives the device, and the state after reset. -/

namespace Sys2Proof.Machine

/-! ## Stops -/

/-- Why the machine stops. Each is safe: it stands where no behaviour of the device is described. -/
inductive Fault where
  /-- A program's instruction was executed while no split was chosen to issue it: raised by every meaning of a word. Safe. -/
  | noIssuingSplit
  deriving DecidableEq, Repr

/-- Why a step has no meaning. Each is safe. -/
inductive Refusal where
  /-- An instruction that the model gives no meaning: raised by a dispatch arm alone. Safe. -/
  | notModelled (mnemonic : String)
  /-- An event that cannot happen in this state: raised by the meaning of an event whose condition does not hold. Safe. -/
  | notEnabled (event : String)
  deriving DecidableEq, Repr

/-! ## Splits -/

/-- A hardware loop level (R135). -/
structure LoopLevel where
  count : Nat
  start : DWord
  last : DWord
  deriving DecidableEq, Repr

/-- A register that an instruction can write: vector, scalar, predicate, index, or a shadow-bank register (R39, R49). -/
inductive RegRef where
  | v (n : Nat)
  | s (n : Nat)
  | p (n : Nat)
  | x (n : Nat)
  | k (n : Nat)
  | ks (n : Nat)
  deriving DecidableEq, Repr

/-- The value of a register: one word per lane, a mask, or one word. -/
inductive Image where
  | lanes (v : Lanes)
  | mask (m : Mask)
  | word (w : Word)
  deriving DecidableEq, Repr

/-- An open shadow: the register, its value before the write, the lanes written, and how many more instructions of the split lie
inside it; none for a variable-latency result, which stays open until the next marked word (R48 to R50). -/
structure Shadow where
  reg : RegRef
  old : Image
  mask : Mask
  left : Option Nat
  deriving DecidableEq, Repr

/-- What a trap writes and where it stands, and whether it was raised in handler mode (R241 to R245, R460). -/
structure TrapInfo where
  code : Nat
  detail : Nat
  lane : Nat
  value : DWord
  pc : DWord
  async : Bool
  seq : Nat
  inHandler : Bool := false
  deriving DecidableEq, Repr

/-- The action of a full/empty instruction that waits (R195). -/
inductive FullOp where
  | ldfe | ldff | stfe
  deriving DecidableEq, Repr

/-- A lane of a full/empty instruction as its split issued it: the offset of its word and the value that `stfe` stores (R117, R195). -/
structure FullLane where
  lane : Nat
  off : Nat
  data : Word
  deriving DecidableEq, Repr

/-- Why a split is parked (R52, R292); a `join` keeps its record and its token's register (R141). -/
inductive ParkReason where
  | fullEmpty (op : FullOp) (lanes : List FullLane)
  | counter
  | future
  | path
  | pageFault (fetch : Bool) (va : DWord) (lane : Nat) (access : Nat) (record : Option Nat)
  | join (record token : Nat)
  | bar
  | bank (trap : TrapInfo)
  deriving DecidableEq, Repr

/-- The life of a split (R292). A split whose sibling is in handler mode is stopped: `Group.handler` says so. -/
inductive RunState where
  | running
  | parked (why : ParkReason) (since : Nat)
  | halted
  | debug
  | ended
  deriving DecidableEq, Repr

/-- A wait that is neither a park nor a boundary: of an `xfence` for completions and write-backs, of a `tlbinv`,
of a `tsr`, or of an `exit` or a `join` for the home's answers (R190, R208, R250, R254). -/
inductive Wait where
  | none
  | xfence (counts : List (Nat × Nat)) (lines : List Nat)
  | tlbinv (done : Bool)
  | results
  | answers
  deriving DecidableEq, Repr

/-- An access in a split's program order, with the fences that stand after it, each a kind and a scope (R207, R259). -/
structure HistItem where
  flight : Nat
  fences : List (Nat × Nat)
  deriving DecidableEq, Repr

/-- One split slot of a group (R23). `floors` holds, for each scope from .g to .sys, the time from which its later reads see every write
performed at that scope (R258, R269), `sfloors` the same for its strong reads (R265), `relFence` the widest scope of a fence that makes
later strong stores releases (R269), `written` the time of the last write of each scalar (R268), and `late` the registers whose new values a
vector word reads without lengthening its window from a cycle on only (R124); `resting` is the wait that an asynchronous trap interrupts, to which
`rett` returns (R248, R292). -/
structure Split where
  live : Bool
  pc : DWord
  scalars : Table Word
  mode : DWord
  xbnd : Word
  loops : List LoopLevel
  own : Mask
  trapCause : Word
  trapPc : DWord
  trapVal : DWord
  state : RunState
  shadows : List Shadow
  markWait : Bool
  boundary : Bool
  wait : Wait
  await : List Nat
  hist : List HistItem
  pending : List TrapInfo
  refused : Option (DWord × Nat)
  resumeAt : Nat
  pass : Nat
  readySince : Option Nat
  floors : List Nat
  sfloors : List Nat
  relFence : Nat
  written : Table Nat
  late : List (RegRef × Nat)
  resting : Option ParkReason
  deriving DecidableEq, Repr

/-! ## Groups -/

/-- A join record (R140), and what the accesses of the splits that have arrived or ended leave to the survivor (R259). -/
structure JoinRec where
  record : Nat
  gen : Nat
  age : Nat
  newSlot : Nat
  oldSlot : Nat
  newDone : Bool
  oldDone : Bool
  newEnded : Bool
  oldEnded : Bool
  hist : List HistItem
  floors : List Nat
  sfloors : List Nat
  deriving DecidableEq, Repr

/-- The A latch of `mma` (R229). -/
structure ALatch where
  slot : Nat
  abase : Nat
  fa : Nat
  rows : List Lanes
  deriving DecidableEq, Repr

/-- A hold-latch entry (R30): the register, or the two of a pair. -/
structure HoldEntry where
  regs : List RegRef
  slot : Nat
  left : Nat
  deriving DecidableEq, Repr

/-- The state of a future (R210). -/
inductive FutState where
  | pending | done | partial_ | faulted | cancelled
  deriving DecidableEq, Repr

/-- A future (R56, R210). -/
structure Future where
  handle : Word
  state : FutState
  outstanding : Bool
  deriving DecidableEq, Repr

/-- Where a group's registers are; a group that is placed starts once the demotions made for it are over (R298, R299, R337). -/
inductive Residence where
  | core
  | demoting (till : Nat)
  | canopy (due : Option Nat)
  | recalling (till : Nat) (data : Bool)
  | starting (till : Nat)
  deriving DecidableEq, Repr

/-- A group (R23). `taken` holds for each split slot the words that lanes of its full/empty instruction have taken (R195, R196), `written` the time of
the last write of each vector, predicate and index register (R268); `canopyBad` marks state in the canopy that an uncorrectable error has struck (R427, R430). -/
structure Group where
  vregs : Table Lanes
  preds : Table Mask
  xregs : Table Lanes
  acc : Table Word
  accPoison : List Nat
  aLatch : Option ALatch
  hold : List HoldEntry
  exited : Mask
  joins : List JoinRec
  joinGen : Nat
  joinAge : Nat
  paths : List Nat
  futures : List Future
  nextSerial : Nat
  skip : Table Mask
  taken : Table (List (Nat × Word))
  reserved : Option Nat
  splits : List Split
  handler : Option Nat
  halted : Bool
  ended : Bool
  residence : Residence
  eligible : Bool
  canopyBad : Bool
  written : Table Nat
  deriving DecidableEq, Repr

/-! ## Workgroups, launches, regions -/

/-- Why a workgroup's splits are held at their boundaries (R305, R346, R348, R430). -/
inductive HoldKind where
  | none | capture | move | flush | save | restore
  deriving DecidableEq, Repr

/-- The kind of a pre-emption (R345). -/
inductive PreKind where
  | flush | drain | save
  deriving DecidableEq, Repr

/-- Where a save image lies (R349). -/
inductive ImagePlace where
  | canopy (tower : Nat)
  | area (base : DWord)
  deriving DecidableEq, Repr

/-- A pre-emption that is under way: its kind, its deadline, who asked for it, whether the tick at which a save reverted to a drain (R345, R348), the dirty lines that
a save still has to write back, the image being written and the tick it is complete, and whether a flushed workgroup reruns. -/
structure Preempt where
  kind : PreKind
  deadline : Nat
  forRegion : Option Nat
  reverted : Option Nat
  publish : Option (List Nat)
  image : Option (ImagePlace × Nat)
  rerun : Bool
  deriving DecidableEq, Repr

/-- The fields of a launch record (R332). -/
structure LaunchRec where
  entry : DWord
  args : DWord
  nwg : Nat
  lanes : Nat
  groups : Nat
  vcnt : Nat
  spad : Nat
  wbase : Nat
  wsize : Nat
  tiles : Nat
  inhLo : Nat
  inhHi : Nat
  restart : Bool
  cores : Bool
  chain : Bool
  mset : Nat
  done : DWord
  bitmap : DWord
  deriving DecidableEq, Repr

/-- A workgroup of a launch that has run: its column, and the floors of its splits, for the launch's release (R269, R335). -/
structure EndedWg where
  wg : Nat
  column : Nat
  floors : List Nat
  deriving DecidableEq, Repr

/-- A launch (R335, R336, R339, R342, R431). -/
structure Launch where
  id : Nat
  region : Nat
  record : Nat
  addr : DWord
  fields : LaunchRec
  status : Nat
  next : Nat
  again : List Nat
  finished : List Nat
  losses : Table Nat
  ran : List EndedWg
  avg : Option Nat
  since : Option Nat
  expired : Bool
  deriving DecidableEq, Repr

/-- A workgroup resident on a column slot (R14); `born` is its placement in the time of the memory order. -/
structure Workgroup where
  id : Nat
  column : Nat
  layer : Nat
  slot : Nat
  region : Nat
  launch : Nat
  index : Nat
  seq : Nat
  placed : Nat
  born : Nat
  runBase : Nat
  migcnt : Word
  migcyc : Word
  migdefer : Word
  excluded : Option Nat
  fields : LaunchRec
  scratchSeed : Nat
  scratch : Table Byte
  full : List Nat
  scratchPoison : List Nat
  groups : List Group
  hold : HoldKind
  preempt : Option Preempt
  lost : Option Nat
  stopped : Bool
  deriving DecidableEq, Repr

/-- A save image (R349); `bad` marks one in a canopy that an uncorrectable error has struck (R427). -/
structure SaveImage where
  id : Nat
  wg : Workgroup
  bytes : Nat
  place : ImagePlace
  seed : Nat
  saved : Nat
  restoring : Option Nat
  bad : Bool
  deriving DecidableEq, Repr

/-- A command being carried out for a region (R343). -/
structure Command where
  code : Nat
  target : Nat
  done : DWord
  record : Nat
  deriving DecidableEq, Repr

/-- Capacity of a column held for members of a launch (R344, R347). -/
structure Reserve where
  column : Nat
  region : Nat
  launch : Nat
  count : Nat
  deriving DecidableEq, Repr

/-- An active region (R328 to R330). `listEnd` is the number of records appended when a RETIRE began, `cand` whether it has a candidate (R336). -/
structure Region where
  id : Nat
  addr : DWord
  space : Nat
  parent : Option Nat
  depth : Nat
  block : List Byte
  formats : List (BitVec 16)
  frozen : Bool
  faultStop : Bool
  retiring : Bool
  listEnd : Option Nat
  nextRecord : Nat
  launches : List Launch
  lstart : Nat
  ldone : Nat
  cdone : Nat
  vpass : Nat
  cand : Bool
  answered : List (Nat × Bool)
  fqWaiting : List (List Byte)
  command : Option Command
  deriving DecidableEq, Repr

/-! ## Accesses in flight -/

/-- The kind of a page (R264 to R266, R355). -/
inductive PageKind where
  | rc | so | uo
  deriving DecidableEq, Repr

/-- Where an access goes. -/
inductive Place where
  | global (pa : Nat)
  | scratch (off : Nat)
  | mirror (column off : Nat)
  deriving DecidableEq, Repr

/-- What one access does when it is performed. -/
inductive PartOp where
  | read
  | write
  | atomic (op : Nat) (bytes : Nat)
  | reserve
  | condWrite
  | counterAdd
  | counterRead
  | writeBack
  | drop
  | append
  | hostEvent
  | publish
  | setFull (full : Bool)
  deriving DecidableEq, Repr

/-- The progress of one access; a write that is `landed` is in memory and not yet performed at the scope that completes it (R194, R258). -/
inductive PartState where
  | queued | waiting | pushing (acks : Nat) | landed | done | skipped
  deriving DecidableEq, Repr

/-- One access of a memory instruction: a lane, or one page's share of a lane (R258, R267). `level` is the scope at which a write is performed.
`after` names the flights, and `behind` the parts of flights, that are to be performed first, each with the scope at which (R263 to R271);
`fenced` is the widest scope of a fence of kind sc that stands before the access (R271). -/
structure Part where
  lane : Nat
  base : Nat
  size : Nat
  place : Place
  va : DWord
  kind : PageKind
  key : Nat
  home : Nat
  op : PartOp
  data : List Byte
  state : PartState
  level : Nat
  got : List Byte
  after : List (Nat × Nat)
  behind : List (Nat × Nat × Nat)
  fenced : Nat
  bad : Bool
  deriving DecidableEq, Repr

/-- A register that a result goes to, and the lanes that were its destination at issue: which word of the result it takes, and the split slot whose
scalar it is (R138, R141). -/
structure Dest where
  reg : RegRef
  word : Nat
  slot : Nat
  mask : Mask
  clobbered : Mask
  value : Image
  deriving DecidableEq, Repr

/-- How an instruction in flight turns what it got into results. `clock` is a read of TIME, `playbill` a `pbset` of an entry or of an image,
`swap` a `pswap`. -/
inductive FlightKind where
  | value
  | clock
  | playbill (entry : Nat) (image : Bool)
  | swap
  | load (bytes : Nat)
  | store
  | atomic (bytes : Nat)
  | cond
  | counter
  | launch (region : Nat)
  | post (region : Nat)
  | line
  | mirror
  | format (region entry old : Nat)
  deriving DecidableEq, Repr

/-- An instruction in flight: a memory access or another variable-latency result (R50, R194). `at_` is the time of its issue, `since` the time from
which its addresses stood in registers (R268); `strong`, `acquire` and `release` are scopes, 0 for none (R265, R269); `presented` tells that
its release has presented REL (R378, R387). `floors` and `sfloors` are those of the split at its issue, raised by what it comes after. -/
structure Flight where
  id : Nat
  x : SplitId
  pc : DWord
  seq : Nat
  kind : FlightKind
  path : Option Nat
  at_ : Nat
  since : Nat
  strong : Nat
  acquire : Nat
  release : Nat
  presented : Bool
  floors : List Nat
  sfloors : List Nat
  parts : List Part
  dests : List Dest
  readyAt : Nat
  written : Bool
  dropped : Bool
  answered : Bool
  trap : Option TrapInfo
  deriving DecidableEq, Repr

/-! ## Engines -/

/-- What a command of an engine must see: the split that issued it and the time, the floors of that split, and the copy that it follows
(R224, R272). -/
structure EngineView where
  by_ : SplitId
  at_ : Nat
  floors : List Nat
  follows : Option Nat
  deriving DecidableEq, Repr

/-- A unit of a copy: its lane or row, its first byte, its elements as global and scratchpad bit addresses, and whether it is pending (0),
landed (1) or failed (2), with the cause and the address (R218, R220, R222); `moved` names the 4-byte words of its destination that have landed. -/
structure CopyUnit where
  lane : Nat
  first : Nat
  elements : List (Nat × Nat)
  moved : List Nat
  state : Nat
  cause : Nat
  addr : Nat
  deriving DecidableEq, Repr

/-- The fixed operands of a matrix command (R223, R228, R233, R234): the record's offset, the two entries, the rows, the A tile's registers. -/
inductive MxOp where
  | mma (f : XF) (shape : Nat) (fa fb : BitVec 16) (rows : Mask) (a : List Lanes)
  | accld (tile fmt : Nat) (rows : Mask) (parts : List Part)
  | accst (tile fmt : Nat) (rows : Mask) (parts : List Part)
  | acczero (tile : Nat) (rows : Mask)
  deriving DecidableEq, Repr

/-- A command of the matrix queue (R231). Times are cycles of its column. `fetched` holds the codes of B, then the scales of B and of A; `cause`
is that of a fetch that failed (R230, R232). -/
structure MxCmd where
  id : Nat
  g : GroupId
  core : Nat
  pc : DWord
  op : MxOp
  handle : Option Word
  readyAt : Nat
  started : Bool
  doneAt : Nat
  fetched : List Nat
  cause : Nat
  cancel : Bool
  view : EngineView
  deriving DecidableEq, Repr

/-- The follow-on of a `cpmc`, with what it fixed; `tile` is the A tile as it stood then (R223, R224). -/
structure Follow where
  f : XF
  shape : Nat
  fa : BitVec 16
  fb : BitVec 16
  rows : Mask
  active : Mask
  slot : Nat
  pc : DWord
  tile : List Lanes
  deriving DecidableEq, Repr

/-- A copy, or a copy with a follow-on (R219 to R225): its elements are `bits` wide; `ready` once its record is read; `landed` while its
follow-on waits to issue; `settled` once it is over, `counted` once Path(cp) has fallen for it; `scope` is that of its completion add; `covered` is the
bits of each destination granule written clean (R429). -/
structure Copy where
  id : Nat
  g : GroupId
  handle : Word
  kind : Nat
  out : Bool
  pad : Bool
  bits : Nat
  ready : Bool
  units : List CopyUnit
  counter : Option DWord
  privileged : Bool
  follow : Option Follow
  landed : Bool
  settled : Bool
  cancel : Bool
  covered : Table Nat
  counted : Bool
  scope : Nat
  recordAt : Option (Place × DWord)
  view : EngineView
  deriving DecidableEq, Repr

/-! ## Writes that readers may miss (R258, R270, R272) -/

/-- A write made readable by an `xfence`, a completion add or a save: the path that reads it, the scope, the time, and the split whose `xfence` it was. -/
structure News where
  path : Nat
  scope : Nat
  at_ : Nat
  by_ : Option SplitId
  deriving DecidableEq, Repr

/-- A write that some reader may still miss: the instruction and its part, the writer's group, path and column; the bytes it replaced, in global memory
or in a workgroup's scratchpad (`home`), none for a byte that is settled. A `strong` one shows only at scopes at which it is performed; `near`
concerns readers of its column alone. `times` holds when it was performed at each scope from .g up (R258), `news` when other paths could read
it (R272), `done_` when its instruction completed (R194), `seen` the splits that never miss these bytes of it again (R263), and
`after` and `behind` what it is to be performed after (R265 to R271). -/
structure PastWrite where
  id : Nat
  part : Nat
  group : GroupId
  path : Nat
  column : Nat
  home : Option Nat
  addr : Nat
  old : List (Option Byte)
  strong : Bool
  near : Bool
  born : Nat
  times : List Nat
  news : List News
  done_ : Option Nat
  seen : List (SplitId × Nat)
  after : List (Nat × Nat)
  behind : List (Nat × Nat × Nat)
  deriving DecidableEq, Repr

/-- Bytes of memory before a write, and the time of the write: a fetch may still return them (R89). -/
structure Former where
  addr : Nat
  bytes : List Byte
  at_ : Nat
  deriving DecidableEq, Repr

/-! ## Coherence -/

/-- A line held by the cache side of a protocol (R378, R381); `pin` is the space and the address of the access that pinned it (R364). -/
structure CacheLine where
  agent : Agent
  line : Nat
  state : Nat
  data : List Byte
  dirty : BitVec 128
  key : Nat
  pin : Option (Nat × Nat)
  used : Nat
  poison : BitVec 4
  deriving DecidableEq, Repr

/-- The home side of a line: at the home, or in a tower's remote ways (R380, R390). -/
structure DirLine where
  place : Agent
  line : Nat
  state : Nat
  owner : Option Agent
  sharers : List Agent
  count : Nat
  requester : Option Agent
  lastDue : Bool
  deriving DecidableEq, Repr

/-- A message in flight (R378, R379). -/
structure Msg where
  id : Nat
  event : Nat
  src : Agent
  dst : Agent
  line : Nat
  data : List Byte
  mask : BitVec 128
  poison : BitVec 4
  part : Option (Nat × Nat)
  deriving DecidableEq, Repr

/-- A playbill entry (R372). -/
structure PlayEntry where
  word0 : DWord
  word1 : DWord
  word2 : DWord
  word3 : DWord
  deriving DecidableEq, Repr

/-- A `pbset.rng` that waits for its conversion (R392). -/
structure Conversion where
  entry : Nat
  new : PlayEntry
  flight : Nat
  started : Bool
  deriving DecidableEq, Repr

/-- A page swap in progress (R371). -/
structure PageSwap where
  id : Nat
  flight : Nat
  pteA : Nat
  pteB : Nat
  frameA : Nat
  frameB : Nat
  chunks : Nat
  next : Nat
  space : Nat
  deriving DecidableEq, Repr

/-- A cached translation (R361): space, page number, page bits, leaf. -/
structure TlbEntry where
  space : Nat
  page : Nat
  bits : Nat
  leaf : DWord
  deriving DecidableEq, Repr

/-! ## Towers, columns, cores -/

/-- A residency handle (R237, R369). -/
structure Residency where
  gen : Nat
  used : Bool
  region : Nat
  space : Nat
  base : DWord
  size : Nat
  prio : Nat
  evicted : Bool
  deriving DecidableEq, Repr

/-- A tag of a home slice (R363, R367). -/
structure SliceLine where
  line : Nat
  slice : Nat
  remote : Bool
  pinned : Bool
  va : DWord
  space : Nat
  used : Nat
  deriving DecidableEq, Repr

/-- The access counts of a 64 KB chunk (R370). -/
structure ChunkCount where
  counts : List Nat
  quietTill : Nat
  deriving DecidableEq, Repr

/-- An admissions-log range (R452). -/
structure LogRange where
  enabled : Bool
  base : Nat
  limit : Nat
  deriving DecidableEq, Repr

/-- One count of the admissions log: range, class, domain, bytes read, bytes written (R452). -/
structure LogCount where
  range : Nat
  cls : Nat
  domain : Nat
  reads : Nat
  writes : Nat
  deriving DecidableEq, Repr

/-- A batch that waits for room (R452). -/
structure LogBatch where
  interval : Nat
  merged : Nat
  counts : List LogCount
  deriving DecidableEq, Repr

structure Tower where
  rsh : BitVec 4
  pinbyp : Word
  handles : Table Residency
  slices : List SliceLine
  tlb : List TlbEntry
  logRanges : Table LogRange
  logArea : Option (Nat × Nat × Nat)
  logProduced : Nat
  logCounts : List LogCount
  logWaiting : List LogBatch
  logInterval : Nat
  logBatch : Nat
  logPrev : List Byte
  refreshed : Nat
  deriving DecidableEq, Repr

/-- A capture by the trapeze, with the target's layer, and the cycles of its start, of its success, and of the start, the length and the end of its move,
which takes the bus in its turn (R305, R309). -/
structure Capture where
  wg : Nat
  target : Nat
  start : Nat
  succeeded : Option Nat
  moveFrom : Nat
  moveLen : Nat
  moveTill : Option Nat
  deriving DecidableEq, Repr

/-- The final values a chain keeps (R342). -/
structure Kept where
  region : Nat
  launch : Nat
  index : Nat
  regs : List (Nat × Nat × Lanes)
  deriving DecidableEq, Repr

/-- What the arithmetic clock of a column does: as usual, stretched, or issuing in every second cycle (R419). -/
inductive ClockPhase where
  | usual | stretched | halved
  deriving DecidableEq, Repr

/-- A column: `left` cycles of its clock phase are left with the current one, which began at `cycleAt`; `half` marks the second half of a stretched
cycle, and `alarm` a droop alarm in the current cycle (R302, R418, R419). -/
structure Column where
  thHi : BitVec 10
  thLo : BitVec 10
  thEn : Bool
  thDwell : BitVec 24
  drEn : Bool
  drAlarms : Nat
  drTh : BitVec 5
  seq : Nat
  cycle : Nat
  half : Bool
  phase : ClockPhase
  left : Nat
  alarm : Bool
  cycleAt : Nat
  overheat : Bool
  capture : Option Capture
  lastSlot : Table Nat
  busFree : Nat
  kept : List Kept
  tlb : List TlbEntry
  degraded : Bool
  deriving DecidableEq, Repr

/-- A block of eight words that a core has fetched: its space, the number of the block in the space, the fetch's number and time, and for each
split of the fused set the words that it may still take, one bit each (R89, R294). -/
structure Fetch where
  space : Nat
  block : Nat
  number : Nat
  at_ : Nat
  due : List (SplitId × Nat)
  deriving DecidableEq, Repr

/-- A core: `live` is what its sensors read now and `sensors` the sample of this tick (R301); `lag` is what the word that holds its vector pipe
adds to the time of its results (R123, R124). -/
structure Core where
  live : List (BitVec 10)
  sensors : List (BitVec 10)
  above : List (Option Nat)
  hot : Bool
  overSince : Option Nat
  bank : Option SplitId
  waiters : List SplitId
  kregs : Table Lanes
  ksregs : Table Word
  guard : List SplitId
  pipeFree : Nat
  lag : Nat
  fetches : List Fetch
  fetchNo : Nat
  claimed : Option Nat
  special : List Nat
  mxFree : Nat
  degraded : Bool
  deriving DecidableEq, Repr

/-! ## Links, host, domains, errors -/

/-- An entry of a send window (R398, R438). -/
structure WindowEntry where
  seq : Nat
  flit : List Byte
  lost : Bool
  firstSlotlost : Option Nat
  lastSlotlost : Nat
  deriving DecidableEq, Repr

/-- A transaction that a port has outstanding (R399): its tag, its queue and descriptor, its operation, its local address and length. -/
structure LinkTxn where
  tag : Nat
  queue : Nat
  desc : Nat
  op : Nat
  va : DWord
  len : Nat
  deriving DecidableEq, Repr

/-- A descriptor being performed (R402): lines still to send, answers still to come, its STATUS. -/
structure LinkDesc where
  index : Nat
  bytes : List Byte
  sent : Nat
  outstanding : Nat
  status : Nat
  deriving DecidableEq, Repr

structure LinkQueue where
  bound : Bool
  region : Nat
  ring : DWord
  size : Nat
  doorbell : DWord
  next : Nat
  active : List LinkDesc
  halted : Bool
  deriving DecidableEq, Repr

structure Link where
  window : List WindowEntry
  txSeq : Nat
  rxSeq : Nat
  reorder : List (Nat × List Byte)
  slotlostRx : Option Nat
  nak : Option (Nat × Nat × Nat)
  outbox : List (List Byte)
  creditReq : Nat
  creditResp : Nat
  returnReq : Nat
  returnResp : Nat
  nextTag : Nat
  txns : List LinkTxn
  held : List (Nat × Nat × List Byte)
  retrain : Option Nat
  retrains : Nat
  down : Bool
  sent : List (List Byte)
  queues : Table LinkQueue
  deriving DecidableEq, Repr

/-- An inbound window (R400). -/
structure InWindow where
  enabled : Bool
  read : Bool
  write : Bool
  counter : Bool
  source : Nat
  key : Nat
  base : Nat
  limit : Nat
  deriving DecidableEq, Repr

/-- The mailbox: command register fields and payload, and the command that runs, as it was when it started (R404). -/
structure Mailbox where
  status : Nat
  busy : Bool
  len : Nat
  opc : Nat
  payload : List Byte
  runLen : Nat
  runOpc : Nat
  runPayload : List Byte
  deriving DecidableEq, Repr

/-- The migration queue (R405, R406). -/
structure MigQueue where
  base : Nat
  entries : Nat
  vector : Nat
  counter : Nat
  deriving DecidableEq, Repr

/-- A loaded key slot (R442). -/
structure KeySlot where
  domain : Nat
  key : BitVec 512
  deriving DecidableEq, Repr

/-- What the device answers to the host, a peer's debugger, or a request from outside (R403, R428). -/
structure Answer where
  tag : Nat
  bytes : List Byte
  poison : Bool
  deriving DecidableEq, Repr

/-- A repair unit that has met errors (R424 to R426). -/
structure RepairState where
  unit : RepairUnit
  times : List Nat
  sparing : Option Nat
  lasting : Bool
  deriving DecidableEq, Repr

/-- What arrives from outside the machine (R247, R280, R301, R400, R404, R414, R419): `command` writes the mailbox's command register, `commandRead`
reads it, and `payload` writes bytes of its payload. -/
inductive Input where
  | event (i : Instr)
  | sensors (core : Nat) (codes : List (BitVec 10))
  | command (value : DWord)
  | commandRead (tag : Nat)
  | payload (off : Nat) (bytes : List Byte)
  | hostDecoder (base : Nat)
  | deviceNumber (n : Nat)
  deriving DecidableEq, Repr

/-! ## The device -/

/-- The state of the device. Times are in half ticks of TIME, which are nanoseconds (R412). `lossAt` and `returnAt` are the ticks of the last loss and
return of the reference (R415); `formerKeys` are the keys that bytes were stored under and that no slot holds any more (R442); `oddBytes`
marks the bytes of a line that were stored under another slot than the line's last (R365). -/
structure State where
  now : Nat
  turn : Nat
  draw : Nat
  nextId : Nat
  issue : Option SplitId
  agenda : List (Nat × Input)
  inReset : Bool
  booted : Bool
  timeFree : Bool
  timeLoss : Bool
  timeRet : Bool
  lossAt : Option Nat
  returnAt : Option Nat
  bootFailed : Bool
  xlat : List (Bool × BitVec 16)
  mem : List Host.Cell
  lineKeys : Table Nat
  oddBytes : Table Nat
  poison : List Nat
  towers : Table Tower
  columns : Table Column
  cores : Table Core
  chunks : Table ChunkCount
  halvedAt : Nat
  wgs : List Workgroup
  images : List SaveImage
  reserves : List Reserve
  spaces : Table Nat
  regions : List Region
  flights : List Flight
  past : List PastWrite
  former : List Former
  copies : List Copy
  commands : List MxCmd
  lines : List CacheLine
  dirs : List DirLine
  msgs : List Msg
  playbill : Table PlayEntry
  images7 : Table (List Byte)
  conversions : List Conversion
  swaps : List PageSwap
  links : Table Link
  windows : Table InWindow
  device : Nat
  hostBase : Nat
  hostKeys : Table Nat
  mailbox : Mailbox
  migq : Option MigQueue
  signals : List Nat
  answers : List Answer
  debugger : Bool
  keys : Table KeySlot
  formerKeys : Table (BitVec 512)
  keks : Table (BitVec 256)
  canopyKeys : Table (BitVec 256)
  marks : Table (List (Nat × Nat))
  thresh : Table Nat
  repairs : List RepairState
  spares : Table Nat
  disabledWays : Table Nat
  events : List (List Byte)
  eventIndex : Nat
  deriving DecidableEq, Repr

/-! ## Reset -/

/-- A tower after reset (R366, R368). -/
def Tower.reset : Tower :=
  { rsh := 2, pinbyp := 0, handles := [], slices := [], tlb := [], logRanges := [], logArea := none, logProduced := 0,
    logCounts := [], logWaiting := [], logInterval := 0, logBatch := 0, logPrev := [], refreshed := 0 }

/-- A column after reset (R57, R302, R418). -/
def Column.reset : Column :=
  { thHi := 0x17C, thLo := 0x154, thEn := true, thDwell := 0x1388, drEn := true, drAlarms := 0, drTh := 8, seq := 1,
    cycle := 0, half := false, phase := .usual, left := 0, alarm := false, cycleAt := 0, overheat := false, capture := none, lastSlot := [],
    busFree := 0, kept := [], tlb := [], degraded := false }

/-- A core after reset (R40, R290). -/
def Core.reset : Core :=
  { live := [], sensors := [], above := [], hot := false, overSince := none, bank := none, waiters := [], kregs := [], ksregs := [],
    guard := [], pipeFree := 0, lag := 0, fetches := [], fetchNo := 0, claimed := none, special := [], mxFree := 0, degraded := false }

/-- A link after reset: empty windows, 2048 credits of each class (R399). -/
def Link.reset : Link :=
  { window := [], txSeq := 0, rxSeq := 0, reorder := [], slotlostRx := none, nak := none, outbox := [], creditReq := 2048,
    creditResp := 2048, returnReq := 0, returnResp := 0, nextTag := 0, txns := [], held := [], retrain := none,
    retrains := 0, down := false, sent := [], queues := [] }

/-- The machine right after release from reset, before the boot sequence of R454 (`deviceReset`). Each register that the manual gives no
reset value holds the value the assumption log names. -/
def State.reset : State :=
  { now := 0, turn := 0, draw := 0, nextId := 1, issue := none, agenda := [], inReset := false, booted := false,
    timeFree := false, timeLoss := false, timeRet := false, lossAt := none, returnAt := none, bootFailed := false,
    xlat := List.replicate 8 (false, 0),
    mem := [], lineKeys := [], oddBytes := [], poison := [], towers := [], columns := [], cores := [], chunks := [], halvedAt := 0, wgs := [], images := [], reserves := [],
    spaces := [], regions := [], flights := [], past := [], former := [], copies := [], commands := [], lines := [], dirs := [], msgs := [],
    playbill := [], images7 := [], conversions := [], swaps := [], links := [], windows := [], device := 0, hostBase := 0,
    hostKeys := [], mailbox := { status := 0, busy := false, len := 0, opc := 0, payload := [], runLen := 0, runOpc := 0, runPayload := [] }, migq := none,
    signals := [], answers := [], debugger := false, keys := [], formerKeys := [], keks := [], canopyKeys := [], marks := [], thresh := [],
    repairs := [], spares := [], disabledWays := [], events := [], eventIndex := 0 }

end Sys2Proof.Machine
end

