-- ==== Sys2Proof/Machine/Memory.lean ====
section
/-! DEFINITION. Memory by physical address in canonical form, poison marks, and the physical address map (R353, R427, R429). -/

namespace Sys2Proof.Machine

/-! ## Bytes -/

/-- The byte at a physical address; an unlisted address reads zero. -/
def Memory.read (m : List Host.Cell) (a : Nat) : Byte := Table.get m a 0

/-- Write a byte, keeping the canonical form: keys rise and no listed byte is zero. -/
def Memory.write (m : List Host.Cell) (a : Nat) (b : Byte) : List Host.Cell :=
  if b = 0 then Table.drop m a else Table.put m a b

/-- The canonical form. -/
def Memory.wf (m : List Host.Cell) : Bool := Table.rising m && m.all (fun c => c.2 != 0)

def Memory.readN (m : List Host.Cell) (a n : Nat) : List Byte := (List.range n).map (fun i => Memory.read m (a + i))

/-- Write a byte string at an address, lowest byte first. -/
def Memory.writeN (m : List Host.Cell) (a : Nat) (bs : List Byte) : List Host.Cell :=
  match bs with
  | [] => m
  | b :: r => Memory.writeN (Memory.write m a b) (a + 1) r

def memRead (s : State) (a n : Nat) : List Byte := Memory.readN s.mem a n
def memWrite (s : State) (a : Nat) (bs : List Byte) : State := { s with mem := Memory.writeN s.mem a bs }

/-! ## The physical map (R353) -/

def isHbm (a : Nat) : Bool := a < 0x020000000000
def isHostMem (a : Nat) : Bool := 0x400000000000 ≤ a && a < 0x800000000000
def isBacked (a : Nat) : Bool := isHbm a || isHostMem a

/-- The tower that homes an address (R396). -/
def homeTower (a : Nat) : Nat := if isHbm a then a / 2 ^ 39 % 4 else a / 2 ^ 7 % 4

/-- The slice that homes an address, within its tower (R396). -/
def homeSlice (a : Nat) : Nat :=
  let f (k : Nat) := a / 2 ^ k % 32
  f 7 ^^^ f 12 ^^^ f 17 ^^^ f 22 ^^^ f 27 ^^^ f 32 ^^^ (a / 2 ^ 37 % 4)

/-- The HBM stack of an address, within its tower (R396). -/
def homeStack (a : Nat) : Nat := (a / 2 ^ 8 % 8) ^^^ (a / 2 ^ 17 % 8)

/-- The 128-byte line of an address, and its first byte. -/
def lineOf (a : Nat) : Nat := a / 128
def lineBase (l : Nat) : Nat := l * 128

/-! ## Poison at the home: 32-byte granules (R427 to R429) -/

def granuleOf (a : Nat) : Nat := a / 32

/-- The granules that `n` bytes at `a` touch. -/
def granulesOf (a n : Nat) : List Nat := if n = 0 then [] else (List.range (granuleOf (a + n - 1) - granuleOf a + 1)).map (· + granuleOf a)

def poisonedAt (s : State) (a n : Nat) : Bool := (granulesOf a n).any (fun g => s.poison.contains g)

def markPoison (s : State) (gs : List Nat) : State :=
  { s with poison := sortBy (fun a b => a ≤ b) (s.poison ++ gs.filter (fun g => !s.poison.contains g)) }

def clearPoison (s : State) (gs : List Nat) : State := { s with poison := s.poison.filter (fun g => !gs.contains g) }

/-- The poison marks of a line, one bit per granule. -/
def linePoison (s : State) (l : Nat) : BitVec 4 :=
  BitVec.ofNat 4 ((List.range 4).foldl (fun acc k => acc + (if s.poison.contains (4 * l + k) then 2 ^ k else 0)) 0)

/-- Set the marks of a line as a 4-bit mask gives, in the granules of `which`. -/
def setLinePoison (s : State) (l : Nat) (p which : BitVec 4) : State :=
  let all := (List.range 4).filter (fun k => which.getLsbD k)
  let on := all.filter (fun k => p.getLsbD k)
  markPoison (clearPoison s (all.map (4 * l + ·))) (on.map (4 * l + ·))

/-! ## Byte masks over a line -/

/-- Bytes `k` to `k + n - 1` of a line. -/
def byteMask (k n : Nat) : BitVec 128 := BitVec.ofNat 128 ((2 ^ n - 1) * 2 ^ k)

/-- `new` where the mask is set, `old` elsewhere. -/
def blend (mask : BitVec 128) (new old : List Byte) : List Byte :=
  (List.range 128).map (fun i => if mask.getLsbD i then new.getD i 0 else old.getD i 0)

/-- The granules that a byte mask touches, and those it covers whole. -/
def maskTouches (mask : BitVec 128) : BitVec 4 :=
  BitVec.ofNat 4 ((List.range 4).foldl (fun acc k => acc + (if mask.toNat / 2 ^ (32 * k) % 2 ^ 32 = 0 then 0 else 2 ^ k)) 0)
def maskCovers (mask : BitVec 128) : BitVec 4 :=
  BitVec.ofNat 4 ((List.range 4).foldl (fun acc k => acc + (if mask.toNat / 2 ^ (32 * k) % 2 ^ 32 = 2 ^ 32 - 1 then 2 ^ k else 0)) 0)

end Sys2Proof.Machine
end

