-- ==== Sys2Proof/Machine/Past.lean ====
section
/-! DEFINITION. Writes that readers may still miss, as plain lists: what a read returns, and how writes become readable (R258 to R273). -/

namespace Sys2Proof.Machine

/-! ## Times -/

/-- The time of the memory order: it rises with every step. -/
def stampOf (s : State) : Nat := s.draw

/-- No floor yet, for the six scopes; and every scope from a time on. -/
def noFloors : List Nat := List.replicate 6 0
def floorsAt (t : Nat) : List Nat := List.replicate 6 t

/-- The floor of a scope, 1 to 6. -/
def floorOf (fl : List Nat) (scope : Nat) : Nat := fl.getD (scope - 1) 0

/-- Floors raised to a time at every scope up to one. -/
def raiseFloors (fl : List Nat) (scope t : Nat) : List Nat := (List.range 6).map (fun k => if k < scope then max (fl.getD k 0) t else fl.getD k 0)

/-- The higher of two floors at every scope up to one. -/
def joinFloors (fl gl : List Nat) (scope : Nat) : List Nat :=
  (List.range 6).map (fun k => if k < scope then max (fl.getD k 0) (gl.getD k 0) else fl.getD k 0)

/-! ## Places -/

/-- Bytes `addr` to `addr + n - 1` of global memory, or of a workgroup's scratchpad, that a write touched. -/
def PastWrite.meets (e : PastWrite) (home : Option Nat) (addr n : Nat) : Bool :=
  e.home == home && e.addr < addr + n && addr < e.addr + e.old.length

/-- The bytes of a write that lie in a range, one bit each. -/
def PastWrite.within (e : PastWrite) (addr n : Nat) : Nat :=
  (List.range e.old.length).foldl (fun m i => if addr ≤ e.addr + i ∧ e.addr + i < addr + n then m ||| 2 ^ i else m) 0

/-- A split has seen some byte of a mask. -/
def PastWrite.seenBy (e : PastWrite) (x : SplitId) (mask : Nat) : Bool := e.seen.any (fun v => v.1 == x && (v.2 &&& mask) != 0)

/-- A split has seen the bytes of a mask. -/
def PastWrite.see (e : PastWrite) (x : SplitId) (mask : Nat) : PastWrite :=
  if e.seen.any (fun v => v.1 == x) then { e with seen := e.seen.map (fun v => if v.1 = x then (x, v.2 ||| mask) else v) }
  else { e with seen := e.seen ++ [(x, mask)] }

/-- Every byte of a write. -/
def PastWrite.all (e : PastWrite) : Nat := 2 ^ e.old.length - 1

/-- The bytes of a range are settled: no reader returns older ones. A write with every byte settled is forgotten. -/
def settleBytes (l : List PastWrite) (home : Option Nat) (addr n : Nat) : List PastWrite :=
  (l.map (fun e => if e.meets home addr n then
      { e with old := ((List.range e.old.length).zip e.old).map (fun b => if addr ≤ e.addr + b.1 ∧ e.addr + b.1 < addr + n then none else b.2) } else e)).filter
    (fun e => e.old.any Option.isSome)

/-- Global bytes written by an agent whose writes every reader sees at once. -/
def settleGlobal (s : State) (addr n : Nat) : State := { s with past := settleBytes s.past none addr n }

/-- Note what memory holds before a write, for the fetches of the workgroups that are resident (R89). -/
def noteFormer (s : State) (a n : Nat) : State :=
  if s.wgs.isEmpty then s else { s with former := s.former ++ [{ addr := a, bytes := memRead s a n, at_ := stampOf s }] }

/-- Write home memory. -/
def homePut (s : State) (a : Nat) (bs : List Byte) : State := memWrite (noteFormer s a bs.length) a bs

/-- Bytes of memory as they stood at a time: what was written later is undone. -/
def bytesAt (s : State) (a n time : Nat) : List Byte :=
  (s.former.filter (fun f => time < f.at_)).reverse.foldl (fun bs f =>
    ((List.range n).zip bs).map (fun b => if f.addr ≤ a + b.1 ∧ a + b.1 < f.addr + f.bytes.length then f.bytes.getD (a + b.1 - f.addr) 0 else b.2))
    (memRead s a n)

/-! ## What splits have seen (R259) -/

/-- What one split has seen, and what its `xfence` showed it, another has seen too. -/
def seenAs (s : State) (x y : SplitId) : State :=
  { s with past := s.past.map (fun e =>
    let e1 := { e with news := e.news ++ (e.news.filter (fun n => n.by_ == some x)).map (fun n => { n with by_ := some y }) }
    match firstWith (fun v => v.1 == x) e.seen with
    | some v => e1.see y v.2
    | none => e1) }

/-- A split that is gone has seen nothing. -/
def unseen (s : State) (x : SplitId) : State :=
  { s with past := s.past.map (fun e => { e with seen := e.seen.filter (fun v => v.1 != x), news := e.news.filter (fun n => n.by_ != some x) }) }

/-! ## Levels (R258) -/

/-- The scope at which a write is performed. -/
def PastWrite.level (e : PastWrite) : Nat := e.times.length

/-- A write performed at every scope up to one, from a time on. -/
def PastWrite.raise (e : PastWrite) (scope t : Nat) : PastWrite := { e with times := e.times ++ List.replicate (scope - e.times.length) t }

/-- The time from which a write is performed at a scope. -/
def PastWrite.time (e : PastWrite) (scope : Nat) : Option Nat := e.times[scope - 1]?

def pastFind (s : State) (id part : Nat) : Option PastWrite := firstWith (fun e => e.id == id && e.part == part) s.past

def modPast (s : State) (id part : Nat) (f : PastWrite → PastWrite) : State :=
  { s with past := s.past.map (fun e => if e.id = id ∧ e.part = part then f e else e) }

/-- The writes of an instruction are complete (R194, R272). -/
def completePast (s : State) (id : Nat) : State :=
  { s with past := s.past.map (fun e => if e.id = id then { e with done_ := some (e.done_.getD (stampOf s)) } else e) }

/-- A write becomes readable by a path at a scope, for everyone and at once for the split whose `xfence` it is. -/
def PastWrite.publish (e : PastWrite) (path scope t : Nat) (x : Option SplitId) : PastWrite :=
  let e1 := if path = 0 then e.raise scope t else e
  { e1 with news := e1.news ++ [{ path := path, scope := scope, at_ := t, by_ := x }] }

/-- The reading path of a path number: ld, st and at read alike; 0, 3 or 4, and none for mr. -/
def readingPath (k : Nat) : Option Nat := if k ≤ 2 then some 0 else if k ≤ 4 then some k else none

/-! ## What a read returns (R260, R263, R270, R272, R273) -/

/-- A read as the memory order sees it: its split, or the one that issued the engine's command; whether it is the host's or a peer's; its group and
column; its path; when it was issued; the floors below which it misses nothing; whether R263 orders it with the split's own accesses; the copy
that it follows; and whether it reads what its column's store keeps of a protocol without messages, where the writes of others do not show. -/
structure Reader where
  x : SplitId
  outside : Bool
  column : Nat
  path : Nat
  issue : Nat
  floors : List Nat
  coherent : Bool
  follows : Option Nat
  store : Bool
  deriving DecidableEq, Repr

/-- The path of a write from outside the device. -/
def outsidePath : Nat := 6

/-- An agent outside as the memory order names it: the host is 0, link k is k + 1 (R257). No workgroup has the number 0. -/
def outsideAgent (n : Nat) : SplitId := { wg := 0, grp := n, slot := 0 }

/-- A read by an agent outside: at system scope (R280). -/
def outsideReader (s : State) (n : Nat) : Reader :=
  { x := outsideAgent n, outside := true, column := 0, path := 0, issue := stampOf s, floors := noFloors, coherent := true, follows := none, store := false }

/-- The least scope whose instance holds the writer and the reader (R260). -/
def PastWrite.distance (e : PastWrite) (r : Reader) : Nat :=
  if r.outside || e.group.wg == 0 then 6
  else if e.group.wg = r.x.wg then (if e.group.grp = r.x.grp then 1 else 2)
  else if e.column = r.column then 3
  else if e.column / 48 = r.column / 48 then 4
  else 5

/-- A read of local bytes by a link's port, which reads as the copy engine does, on path cp: it owes what an `xfence` at .sys has made readable there
(R401, R402). -/
def portReader (s : State) (link : Nat) : Reader := { outsideReader s (link + 1) with path := 3, coherent := false }

/-- A write that concerns a reader. -/
def PastWrite.concerns (e : PastWrite) (r : Reader) : Bool := if e.near then r.path == 0 && !r.outside && e.column == r.column else !r.store

/-- A reader may see a write: a strong store shows at a scope all at once (R265). -/
def PastWrite.shows (e : PastWrite) (r : Reader) : Bool := !e.strong || r.path != 0 || e.distance r ≤ e.level

/-- A time that a write or a publication has, no later than another. -/
def noLater (t : Option Nat) (limit : Nat) : Bool := match t with | some k => k ≤ limit | none => false

/-- A reader may not miss these bytes of a write: its split has seen them, they were performed or published before what the reader waits for, or the
instruction was complete before the reader was issued. -/
def PastWrite.owed (e : PastWrite) (r : Reader) (mask : Nat) : Bool :=
  if r.outside then (if r.path = 0 then 6 ≤ e.level || e.seenBy r.x mask else e.news.any (fun n => n.path == r.path && 6 ≤ n.scope))
  else
    let d := e.distance r
    (r.coherent && r.path == 0 && e.seenBy r.x mask) ||
    (r.path == 0 && noLater (e.time d) (floorOf r.floors d)) ||
    e.news.any (fun n => n.path == r.path && ((n.by_ == some r.x && n.at_ ≤ r.issue) || (d ≤ n.scope && n.at_ ≤ floorOf r.floors d))) ||
    (noLater e.done_ r.issue && (if e.path = 5 then 0 else (readingPath e.path).getD 0) == r.path) ||
    r.follows == some e.id

/-- What a read of bytes that now hold `bytes` returns, and the writes it sees, newest first: a write that it misses is undone, unless a newer one
settles the byte. The number names the free choices. -/
def viewFrom (draw : Nat) (r : Reader) (home : Option Nat) (addr salt : Nat) :
    List (Nat × PastWrite) → List (Byte × Bool) → List PastWrite → List Byte × List PastWrite
  | [], bs, kept => (bs.map (·.1), kept)
  | (k, e) :: rest, bs, kept =>
    let open_ (i : Nat) : Bool := e.addr ≤ addr + i && addr + i < e.addr + e.old.length && !((bs.getD i (0, true)).2)
    if !(e.meets home addr bs.length && e.concerns r && (List.range bs.length).any open_) then viewFrom draw r home addr salt rest bs kept
    else if e.owed r (e.within addr bs.length) || (e.shows r && Config.freeBit draw (20000000 + 65536 * salt + k)) then
      viewFrom draw r home addr salt rest (((List.range bs.length).zip bs).map (fun b => if open_ b.1 then (b.2.1, true) else b.2)) (e :: kept)
    else
      viewFrom draw r home addr salt rest (((List.range bs.length).zip bs).map (fun b =>
        if open_ b.1 then (match (e.old[addr + b.1 - e.addr]?).getD none with | some o => (o, false) | none => (b.2.1, true)) else b.2)) kept

/-- The bytes that a read returns, and the writes that it sees. -/
def viewOf (s : State) (r : Reader) (home : Option Nat) (addr salt : Nat) (bs : List Byte) : List Byte × List PastWrite :=
  viewFrom s.draw r home addr salt (((List.range s.past.length).zip s.past).reverse) (bs.map (fun b => (b, false))) []

/-- The words of 4 bytes, aligned, that a range of bytes falls into: offset and length. -/
def words4 (addr n : Nat) : List (Nat × Nat) :=
  if n = 0 then []
  else (List.range ((addr + n - 1) / 4 - addr / 4 + 1)).map (fun k =>
    let lo := max addr (4 * (addr / 4 + k))
    (lo - addr, min (addr + n) (4 * (addr / 4 + k) + 4) - lo))

/-- An engine's read: each aligned 4-byte word is old or new on its own (R221, R230, R273). -/
def engineBytes (s : State) (r : Reader) (home : Option Nat) (addr : Nat) (bs : List Byte) : List Byte :=
  if s.past.isEmpty then bs else (words4 addr bs.length).flatMap (fun w => (viewOf s r home (addr + w.1) ((addr + w.1) / 4 % 4096) (slice bs w.1 w.2)).1)

/-- The time that seeing a write carries: when a strong store was performed at the reader's distance, when another was issued (R258, R261). -/
def PastWrite.carries (e : PastWrite) (r : Reader) : Nat := if e.strong then (e.time (e.distance r)).getD 0 else e.born

/-- The latest time that the writes seen carry. -/
def latestSeen (r : Reader) (kept : List PastWrite) : Nat := kept.foldl (fun t e => max t (e.carries r)) 0

end Sys2Proof.Machine
end

