-- ==== Sys2Proof/Machine/Protocol.lean ====
section
/-! DEFINITION. The playbill and the protocols as tables of action words (R372 to R390), and the checker (R384). -/

namespace Sys2Proof.Machine

/-! ## Action words (R382) -/

/-- The fields of an action word. -/
structure Action where
  valid : Bool
  next : Nat
  msg : Nat
  cls : Nat
  dest : Nat
  data : Nat
  ack : Nat
  dir : Nat
  stall : Bool
  deriving DecidableEq, Repr

def Action.ofWord (w : Nat) : Action :=
  { valid := w / 2 ^ 31 % 2 == 1, next := w / 2 ^ 27 % 16, msg := w / 2 ^ 23 % 16, cls := w / 2 ^ 21 % 4,
    dest := w / 2 ^ 18 % 8, data := w / 2 ^ 15 % 8, ack := w / 2 ^ 13 % 4, dir := w / 2 ^ 10 % 8, stall := w / 2 ^ 9 % 2 == 1 }

def Action.toWord (a : Action) : Nat :=
  (if a.valid then 2 ^ 31 else 0) + a.next * 2 ^ 27 + a.msg * 2 ^ 23 + a.cls * 2 ^ 21 + a.dest * 2 ^ 18 + a.data * 2 ^ 15 +
  a.ack * 2 ^ 13 + a.dir * 2 ^ 10 + (if a.stall then 2 ^ 9 else 0)

/-- An undefined entry. -/
def Action.none : Action := Action.ofWord 0

/-- The class of a message (R378). -/
def msgClass (ev : Nat) : Nat := if 4 ≤ ev ∧ ev ≤ 6 then 1 else if 8 ≤ ev ∧ ev ≤ 10 then 2 else 3

/-- An action that sends nothing. -/
def act (next : Nat) (data : Nat := 0) (dir : Nat := 0) : Action :=
  { valid := true, next := next, msg := 0, cls := 0, dest := 0, data := data, ack := 0, dir := dir, stall := false }

/-- An action that sends a message. -/
def snd (next msg dest : Nat) (data : Nat := 0) (ack : Nat := 0) (dir : Nat := 0) : Action :=
  { valid := true, next := next, msg := msg, cls := msgClass msg, dest := dest, data := data, ack := ack, dir := dir, stall := false }

def stallIn (st : Nat) : Action := { act st with stall := true }

/-! ## INVAL (R385), and MIGRATORY (R386) -/

/-- The cache side of INVAL: states 0 I, 1 S, 2 M, 3 IS, 4 IM, 5 SM, 6 MI. -/
def invalCache (st ev : Nat) : Action :=
  match st, ev with
  | 0, 0 => snd 3 4 1 | 0, 1 => snd 4 5 1 | 0, 2 => act 0 | 0, 3 => act 0
  | 0, 8 => snd 0 12 1 | 0, 9 => snd 0 14 1 3 | 0, 10 => snd 0 14 1 3
  | 1, 0 => act 1 1 | 1, 1 => snd 5 5 1 | 1, 2 => act 0 5 | 1, 3 => act 1
  | 1, 8 => snd 0 12 1 5 | 1, 9 => snd 1 14 1 3 | 1, 10 => snd 0 14 1 4
  | 2, 0 => act 2 1 | 2, 1 => act 2 1 | 2, 2 => snd 6 6 1 3 | 2, 3 => act 2
  | 2, 8 => snd 0 12 1 4 | 2, 9 => snd 1 14 1 3 | 2, 10 => snd 0 14 1 4
  | 3, 8 => snd 3 12 1 | 3, 11 => act 1 2
  | 4, 8 => snd 4 12 1 | 4, 11 => act 2 2
  | 5, 0 => act 5 1 | 5, 8 => snd 4 12 1 5 | 5, 11 => act 2 2
  | 6, 3 => act 6 | 6, 9 => snd 6 14 1 3 | 6, 10 => snd 6 14 1 3 | 6, 15 => act 0 5
  | st, 0 => if st ≤ 6 then stallIn st else .none
  | st, 1 => if st ≤ 6 then stallIn st else .none
  | st, 2 => if st ≤ 6 then stallIn st else .none
  | st, 3 => if st ≤ 5 then stallIn st else .none
  | _, _ => .none

/-- The home side of INVAL: states 0 I, 1 S, 2 M, 3 SM_A, 4 MS_D, 5 MM_D. -/
def invalHome (st ev : Nat) : Action :=
  match st, ev with
  | 0, 4 => snd 1 11 2 3 0 1 | 0, 5 => snd 2 11 2 3 0 3 | 0, 6 => snd 0 15 2 | 0, 7 => snd 0 15 2
  | 1, 4 => snd 1 11 2 3 0 1 | 1, 5 => snd 3 8 3 0 1 0 | 1, 6 => snd 1 15 2 0 0 2 | 1, 7 => snd 1 15 2 0 0 2
  | 2, 4 => snd 4 9 4 | 2, 5 => snd 5 10 4 | 2, 6 => snd 0 15 2 6 0 4 | 2, 7 => snd 2 15 2
  | 3, 12 => { act 3 6 with ack := 2 } | 3, 13 => snd 2 11 2 3 0 3
  | 4, 14 => snd 1 11 2 7 0 5
  | 5, 14 => snd 2 11 2 7 0 3
  | st, 4 => if 3 ≤ st ∧ st ≤ 5 then stallIn st else .none
  | st, 5 => if 3 ≤ st ∧ st ≤ 5 then stallIn st else .none
  | st, 6 => if 3 ≤ st ∧ st ≤ 5 then stallIn st else .none
  | st, 7 => if 3 ≤ st ∧ st ≤ 5 then stallIn st else .none
  | _, _ => .none

/-- The cache side of MIGRATORY: states 0 I, 1 M, 2 IM, 3 MI; no shared state, and a load misses with GETM. -/
def migCache (st ev : Nat) : Action :=
  match st, ev with
  | 0, 0 => snd 2 5 1 | 0, 1 => snd 2 5 1 | 0, 2 => act 0 | 0, 3 => act 0
  | 0, 8 => snd 0 12 1 | 0, 9 => snd 0 14 1 3 | 0, 10 => snd 0 14 1 3
  | 1, 0 => act 1 1 | 1, 1 => act 1 1 | 1, 2 => snd 3 6 1 3 | 1, 3 => act 1
  | 1, 8 => snd 0 12 1 4 | 1, 9 => snd 0 14 1 4 | 1, 10 => snd 0 14 1 4
  | 2, 8 => snd 2 12 1 | 2, 11 => act 1 2
  | 3, 3 => act 3 | 3, 9 => snd 3 14 1 3 | 3, 10 => snd 3 14 1 3 | 3, 15 => act 0 5
  | st, 0 => if st ≤ 3 then stallIn st else .none
  | st, 1 => if st ≤ 3 then stallIn st else .none
  | st, 2 => if st ≤ 3 then stallIn st else .none
  | st, 3 => if st ≤ 2 then stallIn st else .none
  | _, _ => .none

/-- The home side of MIGRATORY: states 0 I, 1 M, 2 MM_D. A GETS comes from the home agent alone and is handled as a GETM. -/
def migHome (st ev : Nat) : Action :=
  match st, ev with
  | 0, 4 => snd 1 11 2 3 0 3 | 0, 5 => snd 1 11 2 3 0 3 | 0, 6 => snd 0 15 2 | 0, 7 => snd 0 15 2
  | 1, 4 => snd 2 10 4 | 1, 5 => snd 2 10 4 | 1, 6 => snd 0 15 2 6 0 4 | 1, 7 => snd 1 15 2
  | 2, 14 => snd 1 11 2 7 0 3
  | 2, 4 => stallIn 2 | 2, 5 => stallIn 2 | 2, 6 => stallIn 2 | 2, 7 => stallIn 2
  | _, _ => .none

/-- The cache side of UPDATE: states 0 I, 1 S, 2 IS; a store first fills the line (R386). -/
def updCache (st ev : Nat) : Action :=
  match st, ev with
  | 0, 0 => snd 2 4 1 | 0, 1 => snd 2 4 1 | 0, 2 => act 0 | 0, 3 => act 0
  | 1, 0 => act 1 1 | 1, 1 => act 1 1 | 1, 2 => act 0 5 | 1, 3 => act 1
  | 2, 11 => act 1 2 | 2, 0 => stallIn 2 | 2, 1 => stallIn 2 | 2, 2 => stallIn 2 | 2, 3 => stallIn 2
  | _, _ => .none

/-- The home side of UPDATE: states 0 I, 1 S. -/
def updHome (st ev : Nat) : Action :=
  match st, ev with
  | 0, 4 => snd 1 11 2 3 0 1 | 1, 4 => snd 1 11 2 3 0 1
  | _, _ => .none

/-! ## The playbill (R372 to R377) -/

def bitsAt (w : DWord) (lo len : Nat) : Nat := w.toNat / 2 ^ lo % 2 ^ len

def PlayEntry.zero : PlayEntry := { word0 := 0, word1 := 0, word2 := 0, word3 := 0 }

def PlayEntry.en (e : PlayEntry) : Bool := bitsAt e.word0 0 1 == 1
def PlayEntry.kinds (e : PlayEntry) : Nat := bitsAt e.word0 1 3
def PlayEntry.hostc (e : PlayEntry) : Bool := bitsAt e.word0 4 1 == 1
def PlayEntry.slot (e : PlayEntry) : Nat := bitsAt e.word0 8 4
def PlayEntry.base (e : PlayEntry) : Nat := bitsAt e.word0 12 36
def PlayEntry.limit (e : PlayEntry) : Nat := bitsAt e.word1 12 36
def PlayEntry.dom (e : PlayEntry) : Nat := bitsAt e.word1 48 10
def PlayEntry.conflict (e : PlayEntry) : Nat := bitsAt e.word1 0 12

def PlayEntry.covers (e : PlayEntry) (pa : Nat) : Bool := e.en && e.base ≤ pa / 4096 && pa / 4096 ≤ e.limit

/-- The enabled entry that covers an address, with its number. -/
def entryFor (s : State) (pa : Nat) : Option (Nat × PlayEntry) := firstWith (fun e => e.2.covers pa) s.playbill

/-- The protocol slot of an address: INVAL where no entry covers it (R374). -/
def slotOf (s : State) (pa : Nat) : Nat := ((entryFor s pa).map (fun e => e.2.slot)).getD 1

/-- Whether the range of an address admits a page kind (R374, R375). -/
def admits (s : State) (pa : Nat) (k : PageKind) : Bool :=
  match entryFor s pa with
  | none => true
  | some e => bitAtN e.2.kinds (match k with | .so => 0 | .rc => 1 | .uo => 2)
where bitAtN (v i : Nat) : Bool := v / 2 ^ i % 2 == 1

/-- Whether the controllers of a slot run a table: INVAL, UPDATE, MIGRATORY, TOKEN and loaded images. -/
def isTabled (slot : Nat) : Bool := slot == 1 || slot == 2 || slot == 3 || slot == 6 || 7 ≤ slot

/-- The action of the cache side. -/
def cacheAction (s : State) (slot st ev : Nat) : Action :=
  if slot = 1 ∨ slot = 6 then invalCache st ev
  else if slot = 2 then updCache st ev
  else if slot = 3 then migCache st ev
  else Action.ofWord (numAt (Table.get s.images7 slot []) (64 + 4 * (16 * st + ev)) 4)

/-- The action of the home side. -/
def homeAction (s : State) (slot st ev : Nat) : Action :=
  if slot = 1 ∨ slot = 6 then invalHome st ev
  else if slot = 2 then updHome st ev
  else if slot = 3 then migHome st ev
  else Action.ofWord (numAt (Table.get s.images7 slot []) (1088 + 4 * (16 * st + ev)) 4)

/-- The stable states of the cache side. -/
def cacheStable (s : State) (slot : Nat) : Nat :=
  if slot = 1 ∨ slot = 6 then 3 else if slot = 2 ∨ slot = 3 then 2 else numAt (Table.get s.images7 slot []) 3 1

/-- A stable state without write permission: its STORE does not perform (R382). -/
def noWrite (s : State) (slot st : Nat) : Bool := st < cacheStable s slot && (cacheAction s slot st 1).data != 1

/-! ## Classes (R376, R377) -/

/-- The consistency class of a slot. -/
def slotClass (s : State) (slot : Nat) : Nat :=
  if slot = 0 ∨ slot = 2 ∨ slot = 5 then 1 else if slot < 7 then 0 else numAt (Table.get s.images7 slot []) 6 1

/-- The kinds a class admits, as the bits of KINDS (SO, RC, UO). -/
def classKinds (cls : Nat) : Nat := if cls = 0 then 7 else if cls = 1 then 6 else 4

/-- Whether every kind of `k` is among those of `m`. -/
def kindsWithin (k m : Nat) : Bool := (List.range 3).all (fun i => k / 2 ^ i % 2 == 0 || m / 2 ^ i % 2 == 1)

/-- Whether a slot holds an image or is built in. -/
def slotHolds (s : State) (slot : Nat) : Bool := slot < 7 || (Table.find s.images7 slot).isSome

/-- The enabled entries that name a slot. -/
def slotUse (s : State) (slot : Nat) : Nat := (s.playbill.filter (fun e => e.2.en && e.2.slot == slot)).length

/-- The status word of `pbget.prot` (R376). -/
def slotStatus (s : State) (slot : Nat) : Nat :=
  if slotHolds s slot then slotUse s slot * 16 + slotClass s slot * 4 + (if slot < 7 then 1 else 2) else 0

/-! ## The checker (R384) -/

/-- One word against rule 2: side 0 is the cache side. -/
def wordOk (cache : Bool) (count st : Nat) (w : Nat) : Bool :=
  let a := Action.ofWord w
  !a.valid ||
  (a.next < count && w % 2 ^ 9 == 0 &&
   (if a.msg = 0 then a.cls == 0 && a.dest == 0
    else a.msg != 7 && a.msg != 13 && 4 ≤ a.msg && a.dest != 0 && a.dest ≤ 4 &&
      a.cls == (match msgClass a.msg with | 1 => 1 | 2 => 2 | _ => 3)) &&
   a.dir ≤ 5 && a.ack ≤ 2 && (!cache || (a.dest ≤ 1 && a.dir == 0 && a.ack == 0)) && (!a.stall || a.next == st))

/-- The word of a table in an image. -/
def tableWord (img : List Byte) (cache : Bool) (st ev : Nat) : Nat :=
  numAt img ((if cache then 64 else 1088) + 4 * (16 * st + ev)) 4

/-- The states reachable from state 0 through defined words, by repeated expansion. -/
def reachable (img : List Byte) (cache : Bool) (count : Nat) (fuel : Nat) (seen : List Nat) : List Nat :=
  match fuel with
  | 0 => seen
  | f + 1 =>
    let new := seen.flatMap (fun st => (List.range 16).filterMap (fun ev =>
      let a := Action.ofWord (tableWord img cache st ev)
      if a.valid && a.next < count && !seen.contains a.next then some a.next else none))
    reachable img cache count f (seen ++ new.eraseDups)

/-- Rules 2 to 6 for one side: its state counts, its events. -/
def sideOk (img : List Byte) (cache : Bool) (count stable : Nat) (events : List Nat) : Bool :=
  let states := List.range 16
  let word := tableWord img cache
  let reach := reachable img cache count 16 [0]
  states.all (fun st => (List.range 16).all (fun ev =>
    if st < count && events.contains ev then wordOk cache count st (word st ev) else word st ev == 0)) &&
  states.all (fun st => [11, 12, 13, 14, 15].all (fun ev => !(Action.ofWord (word st ev)).stall)) &&
  reach.all (fun st =>
    if st < stable then events.all (fun ev => 11 ≤ ev || (Action.ofWord (word st ev)).valid)
    else [11, 12, 13, 14, 15].any (fun ev =>
      let a := Action.ofWord (word st ev)
      a.valid && a.next != st))

/-- The events of a 16-bit mask. -/
def maskEvents (m : Nat) : List Nat := (List.range 16).filter (fun i => m / 2 ^ i % 2 == 1)

/-- The checker accepts an image of 2112 bytes (R384). -/
def checkerOk (img : List Byte) : Bool :=
  let cns := numAt img 2 1
  let cst := numAt img 3 1
  let hns := numAt img 4 1
  let hst := numAt img 5 1
  let cev := numAt img 8 2
  let hev := numAt img 10 2
  numAt img 0 2 == 1 && 2 ≤ cns && cns ≤ 16 && 1 ≤ cst && cst ≤ cns && 2 ≤ hns && hns ≤ 16 && 1 ≤ hst && hst ≤ hns &&
  numAt img 6 1 ≤ 2 && numAt img 7 1 == 0 && (cev == 0x8F07 || cev == 0x8F0F) && hev == 0x70F0 &&
  (slice img 12 52).all (· == 0) &&
  sideOk img true cns cst (maskEvents cev) && sideOk img false hns hst (maskEvents hev)

/-! ## TOKEN (R388) and HALO (R387) parameters -/

/-- The column that holds the token of an entry. -/
def tokenHolder (s : State) (e : PlayEntry) : Nat :=
  let n := bitsAt e.word2 48 3 + 1
  let c := numOf (memRead s (bitsAt e.word2 0 48) 8)
  bitsAt e.word3 (8 * (c % n)) 8

/-- The geometry of a HALO entry: row length, tile width, tile height, halo width. -/
def haloGeom (e : PlayEntry) : Nat × Nat × Nat × Nat := (bitsAt e.word2 0 12, bitsAt e.word2 12 12, bitsAt e.word2 24 12, bitsAt e.word2 36 4)

/-- The row and position of a line of a HALO range. -/
def haloPlace (e : PlayEntry) (l : Nat) : Nat × Nat :=
  let k := l - e.base * 32
  (k / (haloGeom e).1, k % (haloGeom e).1)

/-- The first line of the tile of a line: the tile's name in the directory. -/
def haloTile (e : PlayEntry) (l : Nat) : Nat :=
  let (rpl, twl, th, _) := haloGeom e
  let (r, p) := haloPlace e l
  e.base * 32 + r / th * th * rpl + p / twl * twl

/-- Whether a line lies in the strip of its tile. -/
def haloStrip (e : PlayEntry) (l : Nat) : Bool :=
  let (_, twl, th, hw) := haloGeom e
  let (r, p) := haloPlace e l
  let x := p % twl
  let y := r % th
  x < hw || twl - hw ≤ x || y < hw || th - hw ≤ y

/-- R386 to R388: the parameters meet the limits of the slot's protocol. -/
def paramsOk (e : PlayEntry) : Bool :=
  if e.slot = 5 then
    let (rpl, twl, th, hw) := haloGeom e
    bitsAt e.word2 40 24 == 0 && e.word3 == 0 && 1 ≤ hw && hw ≤ 8 && 1 ≤ th && 1 ≤ twl && 1 ≤ rpl && rpl % twl == 0 &&
    2 * hw ≤ twl && 2 * hw ≤ th && ((e.limit + 1 - e.base) * 32) % (rpl * th) == 0
  else if e.slot = 6 then
    bitsAt e.word2 51 13 == 0 && bitsAt e.word2 0 3 == 0 &&
    (List.range 8).all (fun k => if k ≤ bitsAt e.word2 48 3 then bitsAt e.word3 (8 * k) 8 ≤ 191 else bitsAt e.word3 (8 * k) 8 == 0)
  else e.word2 == 0 && e.word3 == 0

/-- Whether every page of a range lies in HBM, or every page in host memory (R373). -/
def rangeBacked (e : PlayEntry) : Bool :=
  (isHbm (e.base * 4096) && isHbm (e.limit * 4096)) || (isHostMem (e.base * 4096) && isHostMem (e.limit * 4096))

/-- R373: the descriptor is refused with status 2. -/
def descriptorBad (s : State) (e : PlayEntry) : Bool :=
  bitsAt e.word0 48 16 != 0 || bitsAt e.word0 5 3 != 0 || bitsAt e.word1 58 6 != 0 || e.limit < e.base || !rangeBacked e ||
  (e.en && e.kinds == 0) || (slotHolds s e.slot && !kindsWithin e.kinds (classKinds (slotClass s e.slot))) || !paramsOk e ||
  (isHostMem (e.base * 4096) && e.slot != 1) || (e.hostc && e.slot != 1)

end Sys2Proof.Machine
end

