-- ==== Sys2Proof/Machine/Coherence.lean ====
section
/-! DEFINITION. The coherence controllers: cache side, home side, messages and their order, and the accesses of the home agent H
(R378 to R391). -/

namespace Sys2Proof.Machine

/-! ## Time, events of Sahong -/

/-- TIME, in ticks of 2 ns (R412). -/
def timeOf (s : State) : Nat := s.now / 2

/-- Sahong records an event (R453): type, structure code, tower, unit, correction count. -/
def sahong (s : State) (type code tower unit count : Nat) : State :=
  let rec_ := bytesOf 8 s.eventIndex ++ bytesOf 8 (timeOf s) ++ bytesOf 1 type ++ bytesOf 1 code ++ bytesOf 1 tower ++
    bytesOf 1 0 ++ bytesOf 8 unit ++ bytesOf 2 (min count 0xFFFF) ++ bytesOf 2 0
  let all := s.events ++ [rec_]
  { s with events := all.drop (all.length - 65536), eventIndex := s.eventIndex + 1 }

/-! ## The admissions log (R452) -/

/-- The domain to which a key slot is bound. -/
def keyDomain (s : State) (key : Nat) : Nat := ((Table.find s.keys key).map (fun k => k.domain)).getD 0

/-- Add to the count of a range, a class and a domain; counts saturate at 64 bits. -/
def addCount (cs : List LogCount) (range cls domain reads writes : Nat) : List LogCount :=
  let cap (n : Nat) : Nat := min n (2 ^ 64 - 1)
  match cs with
  | [] => [{ range := range, cls := cls, domain := domain, reads := reads, writes := writes }]
  | c :: r =>
    if c.range = range ∧ c.cls = cls ∧ c.domain = domain then { c with reads := cap (c.reads + reads), writes := cap (c.writes + writes) } :: r
    else c :: addCount r range cls domain reads writes

/-- Count an access of `n` bytes of one home in every enabled range that it touches, in the log of the tower that homes it. -/
def logRun (s : State) (pa n : Nat) (reads writes : Bool) (key cls : Nat) : State :=
  let t := Table.get s.towers (homeTower pa) .reset
  let bytes (g : LogRange) : Nat := min (pa + n) (g.limit + 4096) - max pa g.base
  let hits := t.logRanges.filter (fun g => g.2.enabled && bytes g.2 != 0)
  if hits.isEmpty then s
  else { s with towers := Table.put s.towers (homeTower pa) { t with logCounts := hits.foldl (fun cs g =>
    addCount cs g.1 cls (keyDomain s key) (if reads then bytes g.2 else 0) (if writes then bytes g.2 else 0)) t.logCounts } }

/-- Count an access of `n` bytes: the lines of host memory have homes of their own. -/
def logAccess (s : State) (pa n : Nat) (reads writes : Bool) (key cls : Nat) : State :=
  if isHbm pa || n = 0 then logRun s pa n reads writes key cls
  else (List.range (lineOf (pa + n - 1) - lineOf pa + 1)).foldl (fun s k =>
    let lo := max pa (lineBase (lineOf pa + k))
    logRun s lo (min (pa + n) (lineBase (lineOf pa + k) + 128) - lo) reads writes key cls) s

/-- Whether `n` bytes lie in a log area. -/
def inLogArea (s : State) (pa n : Nat) : Bool :=
  s.towers.any (fun t => match t.2.logArea with
    | some (base, size, _) => pa < base + size && base < pa + n
    | none => false)

/-! ## Lines, directory lines, messages -/

def zeroLine : List Byte := List.replicate 128 0

def CacheLine.new (ag : Agent) (l : Nat) : CacheLine :=
  { agent := ag, line := l, state := 0, data := zeroLine, dirty := 0, key := 0, pin := none, used := 0, poison := 0 }

def lineFind (s : State) (ag : Agent) (l : Nat) : Option CacheLine := firstWith (fun c => c.agent == ag && c.line == l) s.lines
def lineAt (s : State) (ag : Agent) (l : Nat) : CacheLine := (lineFind s ag l).getD (.new ag l)

def dropLine (s : State) (ag : Agent) (l : Nat) : State := { s with lines := s.lines.filter (fun c => !(c.agent == ag && c.line == l)) }

/-- Store a cached line; a line in state 0 is no line. -/
def putLine (s : State) (c : CacheLine) : State :=
  if c.state = 0 then dropLine s c.agent c.line
  else if (lineFind s c.agent c.line).isSome then
    { s with lines := s.lines.map (fun d => if d.agent == c.agent && d.line == c.line then c else d) }
  else { s with lines := s.lines ++ [c] }

def DirLine.new (pl : Agent) (l : Nat) : DirLine :=
  { place := pl, line := l, state := 0, owner := none, sharers := [], count := 0, requester := none, lastDue := false }

def dirAt (s : State) (pl : Agent) (l : Nat) : DirLine :=
  (firstWith (fun d => d.place == pl && d.line == l) s.dirs).getD (.new pl l)

/-- Store a directory line; one in its initial form is not listed. -/
def putDir (s : State) (d : DirLine) : State :=
  let rest := s.dirs.filter (fun e => !(e.place == d.place && e.line == d.line))
  { s with dirs := if d = DirLine.new d.place d.line then rest else rest ++ [d] }

def sendMsg (s : State) (ev : Nat) (src dst : Agent) (l : Nat) (data : List Byte) (mask : BitVec 128) (poison : BitVec 4)
    (part : Option (Nat × Nat)) : State :=
  { s with nextId := s.nextId + 1,
           msgs := s.msgs ++ [{ id := s.nextId, event := ev, src := src, dst := dst, line := l, data := data, mask := mask,
                                poison := poison, part := part }] }

def dropMsg (s : State) (id : Nat) : State := { s with msgs := s.msgs.filter (fun m => m.id != id) }

/-! ## Keys (R365) -/

/-- Bytes from an address on, all of one line, read under a key slot: those written under another slot read as free values. -/
def keyed (s : State) (a key : Nat) (data : List Byte) : List Byte :=
  match Table.find s.lineKeys (lineOf a) with
  | none => data
  | some k =>
    let odd := Table.get s.oddBytes (lineOf a) 0
    if k = key ∧ odd = 0 then data
    else (List.range data.length).map (fun i =>
      if k = key ∧ odd / 2 ^ ((a + i) % 128) % 2 = 0 then data.getD i 0 else Config.freeByte s.draw (2 ^ 50 + a + i))

/-- Note the key slot under which bytes of a line were written; none keeps what is noted. Bytes that stay from another slot are odd (R365). -/
def noteKey (s : State) (l : Nat) (mask : BitVec 128) (key : Option Nat) : State :=
  match key with
  | none => s
  | some k =>
    let rest := 2 ^ 128 - 1 - mask.toNat
    let odd := if (Table.find s.lineKeys l).getD k = k then Table.get s.oddBytes l 0 &&& rest else rest
    { s with lineKeys := Table.put s.lineKeys l k, oddBytes := if odd = 0 then Table.drop s.oddBytes l else Table.put s.oddBytes l odd }

/-- The key slot of a line that an agent holds: a remote way keeps bytes as their home does, under the slot that they were written under. -/
def heldKey (s : State) (ag : Agent) (l key : Nat) : Nat :=
  match ag with
  | .way _ => (Table.find s.lineKeys l).getD key
  | _ => key

/-- The bytes that fill a line. -/
def fillBytes (s : State) (ag : Agent) (l key : Nat) (data : List Byte) : List Byte :=
  match ag with
  | .way _ => data
  | _ => keyed s (lineBase l) key data

/-! ## Reservations (R203) -/

/-- Clear every reservation on a line, but for one group's where an access of its own is named. -/
def clearReservations (s : State) (l : Nat) : State :=
  { s with wgs := s.wgs.map (fun w => { w with groups := w.groups.map (fun g => if g.reserved = some l then { g with reserved := none } else g) }) }

/-! ## The home line -/

def placeData (s : State) (pl : Agent) (l : Nat) : List Byte :=
  match pl with
  | .way _ => (lineAt s pl l).data
  | _ => memRead s (lineBase l) 128

def placePoison (s : State) (pl : Agent) (l : Nat) : BitVec 4 :=
  match pl with
  | .way _ => (lineAt s pl l).poison
  | _ => linePoison s l

/-- Merge bytes into the home line by their mask; poison goes with the bytes, and a whole clean granule clears it (R428, R429). -/
def placeMerge (s : State) (pl : Agent) (l : Nat) (mask : BitVec 128) (data : List Byte) (poison : BitVec 4) : State :=
  if mask = 0 then s
  else
    let touched := maskTouches mask
    match pl with
    | .way _ =>
      let c := lineAt s pl l
      putLine s { c with data := blend mask data c.data, dirty := c.dirty ||| mask, key := heldKey s pl l c.key,
                         poison := (c.poison &&& ~~~ (maskCovers mask &&& ~~~ poison)) ||| (poison &&& touched) }
    | _ =>
      let s1 := homePut s (lineBase l) (blend mask data (memRead s (lineBase l) 128))
      setLinePoison s1 l poison ((poison &&& touched) ||| (maskCovers mask))

/-- A protocol fault: the line is poisoned at its home and in every copy, and Sahong records it (R383). -/
def protocolFault (s : State) (l : Nat) : State :=
  let s1 := setLinePoison s l 15 15
  sahong { s1 with lines := s1.lines.map (fun c => if c.line = l then { c with poison := 15 } else c) } 12 0 (homeTower (lineBase l)) 0 0

/-! ## Lines whose copies go -/

/-- The state of an access to a line whose copies are gone: one that waits is presented afresh, one that pushes waits for no sharer. -/
def PartState.requeued : PartState → PartState
  | .waiting => .queued
  | .pushing _ => .pushing 0
  | st => st

/-- The accesses to a line once its copies are gone. -/
def requeueLine (s : State) (l : Nat) : State :=
  { s with flights := s.flights.map (fun f => { f with parts := f.parts.map (fun p =>
      match p.place with
      | .global pa => if lineOf pa = l then { p with state := p.state.requeued } else p
      | _ => p) }) }

/-- A copy in a remote way, whose dirty bytes are older than those of a column of its tower. -/
def CacheLine.inWay (c : CacheLine) : Bool := match c.agent with | .way _ => true | _ => false

/-- What a home keeps of a line that has no copy: that it is written, under WRITEONCE, and the claim of its tile, under HALO (R386, R387). -/
def DirLine.flushed (d : DirLine) (slot : Nat) : Option DirLine :=
  if slot = 4 ∧ d.state = 1 then some d else if slot = 5 ∧ d.owner.isSome then some { d with sharers := [] } else none

/-- Drop every copy of a line, writing dirty bytes back, those on their way to a home among them: a conversion, a page swap, the replacement of a
remote way's line, or a HALO write by another (R367, R371, R387, R392). -/
def flushLine (s : State) (l : Nat) : State :=
  let copies := s.lines.filter (fun c => c.line == l)
  let sent := s.msgs.filter (fun m => m.line == l && (m.event == 6 || m.event == 12 || m.event == 14))
  let s1 := (copies.filter CacheLine.inWay).foldl (fun s c => placeMerge s .home l c.dirty c.data c.poison) s
  let s2 := sent.foldl (fun s m => placeMerge s .home l m.mask m.data m.poison) s1
  let s3 := (copies.filter (fun c => !c.inWay)).foldl (fun s c => placeMerge s .home l c.dirty c.data c.poison) s2
  requeueLine { s3 with lines := s3.lines.filter (fun c => c.line != l), msgs := s3.msgs.filter (fun m => m.line != l),
                        dirs := s3.dirs.filterMap (fun d => if d.line = l then d.flushed (slotOf s (lineBase l)) else some d) } l

/-! ## Access counts (R370) -/

/-- An agent's tower. -/
def agentTower : Agent → Nat
  | .col c => c / 48
  | .way t => t
  | _ => 0

/-- A migration request for a 64 KB chunk: the tower that has a count of at least 96 and at least twice the home's plus 32. -/
def migrationWanted (c : ChunkCount) (home : Nat) : Option Nat :=
  firstWith (fun t => t != home && 96 ≤ c.counts.getD t 0 && 2 * c.counts.getD home 0 + 32 ≤ c.counts.getD t 0) [0, 1, 2, 3]

/-- Post a record in the migration queue, where one is set and has room (R406), and signal its vector if it was empty. The copies of the lines that
it writes are written back and dropped. -/
def postMigration (s : State) (chunk tower : Nat) (counts : List Nat) : State :=
  match s.migq with
  | none => s
  | some q =>
    let s := flushLine s (lineOf q.base)
    let prod := numOf (memRead s q.base 8)
    let cons := numOf (memRead s (q.base + 8) 8)
    if prod - cons = q.entries then s
    else
      let r := bytesOf 8 (chunk * 65536) ++ bytesOf 1 tower ++ (counts.map (BitVec.ofNat 8)) ++ bytesOf 3 0
      let put (s : State) (a : Nat) (bs : List Byte) : State :=
        homePut (clearReservations (settleGlobal (flushLine s (lineOf a)) a bs.length) (lineOf a)) a bs
      let s1 := put s (q.base + 64 + 16 * (prod % q.entries)) r
      let s2 := put s1 q.base (bytesOf 8 (prod + 1))
      let s3 := if q.counter = 0 then s2 else put s2 q.counter (bytesOf 8 (min (numOf (memRead s2 q.counter 8) + 1) (2 ^ 64 - 1)))
      if prod = cons then { s3 with signals := s3.signals ++ [q.vector] } else s3

/-- Request a migration of a chunk if its counts ask for one and its hysteresis is over (R370). -/
def checkMigration (s : State) (chunk : Nat) : State :=
  let c := Table.get s.chunks chunk { counts := [0, 0, 0, 0], quietTill := 0 }
  match migrationWanted c (homeTower (chunk * 65536)) with
  | none => s
  | some t =>
    if timeOf s < c.quietTill then s
    else postMigration { s with chunks := Table.put s.chunks chunk { c with quietTill := timeOf s + 2 ^ 22 } } chunk t c.counts

/-- Count an access performed at the home by an agent of a tower. -/
def countAccess (s : State) (pa tower : Nat) : State :=
  if isHbm pa then
    let chunk := pa / 65536
    let c := Table.get s.chunks chunk { counts := [0, 0, 0, 0], quietTill := 0 }
    let new := (List.range 4).map (fun t => if t = tower then min 255 (c.counts.getD t 0 + 1) else c.counts.getD t 0)
    checkMigration { s with chunks := Table.put s.chunks chunk { c with counts := new } } chunk
  else s

/-! ## The cache side -/

/-- Where the requests of a column for a line go: the home, or the remote way of its tower (R390). -/
def homeSideOf (s : State) (ag : Agent) (l : Nat) : Agent :=
  match ag with
  | .col c =>
    let t := c / 48
    let d := dirAt s .home l
    if isHbm (lineBase l) && homeTower (lineBase l) != t && slotOf s (lineBase l) != 2 &&
       !(d.owner == some ag || d.sharers.contains ag || d.requester == some ag) &&
       ((Table.get s.towers t .reset).rsh != 0 || (lineFind s (.way t) l).isSome)
    then .way t else .home
  | _ => .home

/-- A cache-side controller takes an event: the new state, and whether the local access performs; none for a stall. -/
def cacheStep (s : State) (ag : Agent) (l ev : Nat) (data : List Byte) (poison : BitVec 4) : Option (State × Bool) :=
  let slot := slotOf s (lineBase l)
  let c := lineAt s ag l
  let a := cacheAction s slot c.state ev
  if !a.valid then some (protocolFault s l, false)
  else if a.stall then none
  else
    let drops := a.data == 4 || a.data == 5
    let fills := a.data == 2
    let dirty := if drops || fills || (a.next != c.state && noWrite s slot a.next) then 0 else c.dirty
    let c' := { c with state := a.next, dirty := dirty, used := s.draw,
                       key := heldKey s ag l c.key, data := if fills then fillBytes s ag l c.key data else if drops then zeroLine else c.data,
                       poison := if fills then poison else if drops then 0 else c.poison }
    let sends := a.data == 3 || a.data == 4
    let dst := homeSideOf s ag l
    let s1 := putLine s c'
    let s2 := if a.msg = 0 then s1
      else sendMsg s1 a.msg ag dst l (if sends then c.data else []) (if sends then c.dirty else 0) (if sends then c.poison else 0) none
    some (s2, a.data == 1 || a.data == 2)

/-! ## The home side -/

/-- The directory after a directory action; the home agent is never recorded (R380). -/
def dirAction (d : DirLine) (act : Nat) (req : Agent) : DirLine :=
  let isH := req == .home
  match act with
  | 1 => if isH || d.sharers.contains req then d else { d with sharers := d.sharers ++ [req] }
  | 2 => { d with sharers := d.sharers.filter (· != req) }
  | 3 => { d with owner := if isH then none else some req, sharers := [] }
  | 4 => { d with owner := none, sharers := [] }
  | 5 => { d with sharers := (d.owner.toList ++ (if isH then [] else [req])).eraseDups, owner := none }
  | _ => d

/-- The home controller of a line at a place takes an event; none for a stall (R380, R382). -/
def homeStep (s : State) (pl : Agent) (l ev : Nat) (src : Agent) (data : List Byte) (mask : BitVec 128) (poison : BitVec 4) :
    Option State :=
  let slot := slotOf s (lineBase l)
  let d := dirAt s pl l
  let a := homeAction s slot d.state ev
  if !a.valid then some (protocolFault s l)
  else if a.stall then none
  else
    let isReq := 4 ≤ ev && ev ≤ 7
    let req := if isReq then src else d.requester.getD src
    let others := d.sharers.filter (· != req)
    let s1 := if a.data = 6 ∨ a.data = 7 then placeMerge s pl l mask data poison else s
    let count := if a.ack = 1 then others.length else if a.ack = 2 then d.count - 1 else d.count
    let d1 := dirAction d a.dir req
    let empty := d1.owner.isNone && d1.sharers.isEmpty
    let next := if req == .home && a.dir != 0 && empty then 0 else a.next
    let d2 := { d1 with state := next, count := count, lastDue := a.ack != 0 && count == 0,
                        requester := if next = d.state then d.requester else if isReq then some src else if next = 0 then none else d.requester }
    let d3 := if next = 0 ∧ empty then { d2 with requester := none } else d2
    let s2 := putDir s1 d3
    let whole := a.data = 3 ∨ a.data = 7
    let body := if whole then placeData s2 pl l else []
    let pois := if whole then placePoison s2 pl l else 0
    let targets := match a.dest with
      | 2 => [req]
      | 3 => others
      | 4 => d.owner.toList
      | _ => []
    let s3 := if a.msg = 0 then s2 else targets.foldl (fun s t => sendMsg s a.msg pl t l body 0 pois none) s2
    some (if (ev = 4 ∨ ev = 5) ∧ pl = .home ∧ src ≠ .home then countAccess s3 (lineBase l) (agentTower src) else s3)

/-- LAST, where it is due (R380). -/
def takeLast (s : State) (pl : Agent) (l : Nat) : State :=
  let d := dirAt s pl l
  if d.lastDue then (homeStep (putDir s { d with lastDue := false }) pl l 13 .home [] 0 0).getD s else s

/-- The home-side events. -/
def isHomeEvent (ev : Nat) : Bool := ev == 4 || ev == 5 || ev == 6 || ev == 12 || ev == 14

/-- A message to a home controller; a PUTM from any agent that is not the recorded owner is a PUTX (R378). -/
def homeTake (s : State) (pl : Agent) (m : Msg) : Option State :=
  let ev := if m.event = 6 ∧ (dirAt s pl m.line).owner ≠ some m.src then 7 else m.event
  homeStep s pl m.line ev m.src m.data m.mask m.poison

/-- A message that arrives at the host's cache: it holds no dirty bytes, answers, and drops its copy (R393). -/
def hostTake (s : State) (m : Msg) : State :=
  if m.event = 8 then sendMsg s 12 .host .home m.line [] 0 0 none
  else if m.event = 9 ∨ m.event = 10 then sendMsg s 14 .host .home m.line [] 0 0 none
  else s

/-- Earlier messages of the same line that this one may not pass (R379). -/
def lineFree (s : State) (m : Msg) : Bool :=
  s.msgs.all (fun n => !(n.line == m.line && n.id < m.id && n.src == m.src && n.dst == m.dst &&
    (msgClass n.event == msgClass m.event || (msgClass m.event == 2 && msgClass n.event == 3))))

mutual
/-- Deliver a message to its controller; none for a stall. A remote way serves a column's request once its own copy permits it,
and answers a forward once its columns have (R390). -/
def deliver (fuel : Nat) (s : State) (m : Msg) : Option State :=
  match fuel with
  | 0 => none
  | f + 1 =>
    let s0 := dropMsg s m.id
    match m.dst with
    | .host => some (hostTake s0 m)
    | .home => if isHomeEvent m.event then homeTake s0 .home m else none
    | .col c => (cacheStep s0 (.col c) m.line m.event m.data m.poison).map (·.1)
    | .way t =>
      if m.event = 4 ∨ m.event = 5 then
        let slot := slotOf s (lineBase m.line)
        if (cacheAction s slot (lineAt s (.way t) m.line).state (m.event - 4)).data = 1 then homeTake s0 (.way t) m
        else (cacheStep s (.way t) m.line (m.event - 4) [] 0).map (·.1)
      else if isHomeEvent m.event then homeTake s0 (.way t) m
      else if 8 ≤ m.event ∧ m.event ≤ 10 then
        match hLoop f s0 (.way t) m.line (m.event != 9) false with
        | none => none
        | some s1 => (cacheStep s1 (.way t) m.line m.event [] 0).map (·.1)
      else (cacheStep s0 (.way t) m.line m.event m.data m.poison).map (·.1)

/-- A request of the home agent H at a place, with the messages of its line delivered until its DATA arrives (R380). -/
def hLoop (fuel : Nat) (s : State) (pl : Agent) (l : Nat) (write posted : Bool) : Option State :=
  match fuel with
  | 0 => none
  | f + 1 =>
    let s := takeLast (takeLast s pl l) .home l
    let move (_ : Unit) : Option State :=
      match (s.msgs.filter (fun m => m.line == l && m.event != 16 && lineFree s m)).findSome? (fun m => deliver f s m) with
      | none => none
      | some s1 => hLoop f s1 pl l write posted
    if posted then
      match firstWith (fun m => m.event == 11 && m.dst == .home && m.src == pl && m.line == l) s.msgs with
      | some m => some (dropMsg s m.id)
      | none => move ()
    else
      match homeStep s pl l (if write then 5 else 4) .home [] 0 0 with
      | some s1 => hLoop f s1 pl l write true
      | none => move ()
end

/-! ## Replacement (R364, R366 to R368) -/

/-- Count a bypass in a tower (R368). -/
def bypassed (s : State) (tower : Nat) : State :=
  { s with towers := Table.modify s.towers tower .reset (fun t => { t with pinbyp := t.pinbyp + 1 }) }

/-- The sets of a column store's cache: 128 for each 256 KB that the resident scratchpads leave of its 2 MB (R19, R364). -/
def columnSets (s : State) (col : Nat) : Nat :=
  let spad := ((s.wgs.filter (fun w => w.column == col)).map (fun w => w.fields.spad)).foldl (· + ·) 0
  128 * (8 - (spad + 262143) / 262144)

/-- The lines of a column store that share the set of a line. -/
def setMates (s : State) (col l : Nat) : List CacheLine :=
  let sets := columnSets s col
  s.lines.filter (fun c => c.agent == .col col && c.line != l && Config.columnSet c.line % sets == Config.columnSet l % sets)

/-- The least recently used line that is not pinned. -/
def lruLine (cs : List CacheLine) : Option CacheLine :=
  cs.foldl (fun best c => if c.pin.isSome then best else match best with
    | none => some c
    | some b => if c.used < b.used then some c else best) none

/-! ## Protocols that serve at the home (R386, R387) -/

/-- Push bytes of a line from the home to caches, each to merge them (R386, R387). -/
def pushTo (s : State) (targets : List Agent) (l : Nat) (data : List Byte) (mask : BitVec 128) (part : Option (Nat × Nat)) : State :=
  targets.foldl (fun s t => sendMsg s 16 .home t l data mask 0 part) s

/-- A cache merges bytes that the home pushed (R386, R387). -/
def mergeCopy (s : State) (t : Agent) (l : Nat) (mask : BitVec 128) (data : List Byte) : State :=
  match lineFind s t l with
  | some c => if c.state = 1 then putLine s { c with data := blend mask data c.data, poison := c.poison &&& ~~~ maskCovers mask } else s
  | none => s

/-- One sharer fewer is to merge the bytes of a store. -/
def lessPushing (s : State) (part : Option (Nat × Nat)) : State :=
  match part with
  | none => s
  | some (id, k) => { s with flights := s.flights.map (fun f => if f.id = id then { f with parts := modAt f.parts k (fun p => match p.state with
      | .pushing n => { p with state := .pushing (n - 1) }
      | _ => p) } else f) }

/-- A write of H under UPDATE: the pushes under way are merged, then its bytes are, by every sharer and by the fills on their way (R386, R391). -/
def pushNow (s : State) (targets : List Agent) (l : Nat) (data : List Byte) (mask : BitVec 128) : State :=
  let due := s.msgs.filter (fun m => m.event == 16 && m.line == l)
  let s1 := due.foldl (fun s m => lessPushing (mergeCopy (dropMsg s m.id) m.dst l m.mask m.data) m.part) s
  let s2 := targets.foldl (fun s t => mergeCopy s t l mask data) s1
  { s2 with msgs := s2.msgs.map (fun m => if m.event = 11 ∧ m.line = l ∧ targets.contains m.dst then { m with data := blend mask data m.data } else m) }

/-- Whether a push to a cache is on its way for a line. -/
def pushPending (s : State) (ag : Agent) (l : Nat) : Bool := s.msgs.any (fun m => m.event == 16 && m.dst == ag && m.line == l)

/-- The remote way that holds a NONCOH line between a column and its home (R390). -/
def nonCohWay (s : State) (ag : Agent) (l : Nat) : Option CacheLine :=
  if slotOf s (lineBase l) = 0 then lineFind s (.way (agentTower ag)) l else none

/-- The bytes that a column's line sends home stand in its tower's remote way too. -/
def mergeWay (s : State) (c : CacheLine) : State :=
  match nonCohWay s c.agent c.line with
  | some w => putLine s { w with data := blend c.dirty c.data w.data, dirty := w.dirty &&& ~~~ c.dirty }
  | none => s

/-- A remote way gives up a line, and with it the copies of its tower; under NONCOH its own dirty bytes go home and no copy goes (R386, R390). -/
def leaveWay (s : State) (tower l : Nat) : State :=
  match nonCohWay s (.way tower) l with
  | some w => dropLine (placeMerge s .home l w.dirty w.data w.poison) (.way tower) l
  | none => if (lineFind s (.way tower) l).isSome then flushLine s l else s

/-- Write the dirty bytes of a cached line to the home: NONCOH and HALO, which have no messages for it. A HALO strip line goes on to
every replica. The line stays, clean. -/
def writeBackDirect (s : State) (c : CacheLine) : State :=
  if c.dirty = 0 then s
  else
    let s1 := mergeWay (placeMerge s .home c.line c.dirty c.data c.poison) c
    let s2 := putLine s1 { c with dirty := 0, state := if c.state = 3 then 2 else c.state }
    match entryFor s (lineBase c.line) with
    | some (_, e) =>
      if e.slot = 5 ∧ haloStrip e c.line then pushTo s2 ((dirAt s2 .home c.line).sharers.filter (· != c.agent)) c.line c.data c.dirty none
      else s2
    | none => s2

/-- Dirty bytes that a tower's remote ways hold go on to the home; the lines stay, clean (R194, R197, R208, R390). -/
def cleanWays (s : State) (keep : CacheLine → Bool) : State :=
  (s.lines.filter (fun c => c.inWay && c.dirty != 0 && keep c)).foldl
    (fun s c => putLine (placeMerge s .home c.line c.dirty c.data c.poison) { c with dirty := 0 }) s

/-- A release at .col or wider presents REL to the lines of its column (R378): HALO writes dirty lines to the home, which pushes them on (R387), and
an image that uses the event acts on it. None while a line stalls it. -/
def presentRel (s : State) (col : Nat) : Option State :=
  (s.lines.filter (fun c => c.agent == .col col)).foldl (fun (r : Option State) c => r.bind (fun s =>
    let slot := slotOf s (lineBase c.line)
    if slot = 5 then some (writeBackDirect s c)
    else if 7 ≤ slot ∧ numAt (Table.get s.images7 slot []) 8 2 / 8 % 2 = 1 then (cacheStep s (.col col) c.line 3 [] 0).map (·.1)
    else some s)) (some s)

/-- Fuel enough for every cache of the package to answer. -/
def hFuel : Nat := 2048

/-- The home agent's request for a line: afterwards the home line holds the bytes that the access is to read or change (R391). None where
it cannot be served yet. -/
def homeAccess (s : State) (l : Nat) (write : Bool) : Option State :=
  let slot := slotOf s (lineBase l)
  if slot = 5 ∧ write then some (flushLine s l)
  else if isTabled slot && slot != 2 then hLoop hFuel s .home l write false
  else some s

/-- The home agent's requests for every line of `n` bytes. -/
def homeAccessN (s : State) (a n : Nat) (write : Bool) : Option State :=
  (if n = 0 then [] else (List.range (lineOf (a + n - 1) - lineOf a + 1)).map (· + lineOf a)).foldl
    (fun r l => r.bind (fun s => homeAccess s l write)) (some s)

/-- A write by the home agent after its request: the bytes, the key slot of its lines, and the pushes of UPDATE. -/
def homeWrite (s : State) (a : Nat) (bs : List Byte) (key : Option Nat) : State :=
  let ls := (if bs.length = 0 then [] else (List.range (lineOf (a + bs.length - 1) - lineOf a + 1)).map (· + lineOf a))
  ls.foldl (fun s l =>
    let lo := max a (lineBase l) - lineBase l
    let hi := min (a + bs.length) (lineBase l + 128) - lineBase l
    let s := noteKey (clearReservations s l) l (byteMask lo (hi - lo)) key
    if slotOf s (lineBase l) = 2 then pushNow s (dirAt s .home l).sharers l (memRead s (lineBase l) 128) (byteMask lo (hi - lo)) else s) (homePut s a bs)

/-- Read by the home agent: coherent bytes and whether any granule is poisoned. -/
def homeRead (s : State) (a n : Nat) : Option (State × List Byte × Bool) :=
  (homeAccessN s a n false).map (fun s => (s, memRead s a n, poisonedAt s a n))

/-- A coherent write by a device agent (the ringmaster, a port), which every later read sees: whole granules that it covers lose their poison (R429). -/
def homeStore (s : State) (a : Nat) (bs : List Byte) : Option State :=
  (homeAccessN s a bs.length true).map (fun s =>
    let s1 := homeWrite (settleGlobal s a bs.length) a bs none
    clearPoison s1 ((granulesOf a bs.length).filter (fun g => a ≤ 32 * g && 32 * g + 32 ≤ a + bs.length)))

/-! ## Messages as events -/

/-- No earlier message of the same channel stands before this one (R379). -/
def deliverable (s : State) (m : Msg) : Bool :=
  s.msgs.all (fun n => !(n.id < m.id && n.src == m.src && n.dst == m.dst && (m.event == 16) == (n.event == 16) &&
    (msgClass n.event == msgClass m.event || (msgClass m.event == 2 && msgClass n.event == 3))))

def msgFind (s : State) (id : Nat) : Option Msg := firstWith (fun m => m.id == id) s.msgs

end Sys2Proof.Machine
end

