-- ==== Sys2Proof/Machine/Translate.lean ====
section
/-! DEFINITION. Page tables, TLBs and the checks of an access (R353 to R361). -/

namespace Sys2Proof.Machine

/-! ## Entries (R355, R356) -/

def pteV (e : DWord) : Bool := bitsAt e 0 1 == 1
def pteR (e : DWord) : Bool := bitsAt e 1 1 == 1
def pteW (e : DWord) : Bool := bitsAt e 2 1 == 1
def pteX (e : DWord) : Bool := bitsAt e 3 1 == 1
def pteU (e : DWord) : Bool := bitsAt e 4 1 == 1
def pteOrd (e : DWord) : Nat := bitsAt e 5 2
def pteHome (e : DWord) : Nat := bitsAt e 7 2
def pteCtr (e : DWord) : Bool := bitsAt e 9 1 == 1
def pteA (e : DWord) : Bool := bitsAt e 10 1 == 1
def pteD (e : DWord) : Bool := bitsAt e 11 1 == 1
def pteFrame (e : DWord) : Nat := bitsAt e 12 36 * 4096
def pteKey (e : DWord) : Nat := bitsAt e 48 10

/-- What an entry is at a level (R356). -/
inductive PteKind where
  | notPresent | pointer | leaf (bits : Nat) | invalid
  deriving DecidableEq, Repr

def decodePte (e : DWord) (level : Nat) : PteKind :=
  if !pteV e then .notPresent
  else if bitsAt e 58 6 != 0 then .invalid
  else if !pteR e && !pteW e && !pteX e then
    (if level = 3 ∨ bitsAt e 1 11 ≠ 0 ∨ bitsAt e 48 16 ≠ 0 ∨ !isBacked (pteFrame e) then .invalid else .pointer)
  else if level = 0 ∨ pteOrd e = 3 ∨ !isBacked (pteFrame e) then .invalid
  else match level with
    | 1 => if bitsAt e 12 18 = 0 then .leaf 30 else .invalid
    | 2 => if bitsAt e 12 9 = 0 then .leaf 21 else .invalid
    | _ => .leaf 12

/-- Canonical virtual addresses (R354). -/
def canonical (va : DWord) : Bool := bitsAt va 47 17 == 0 || bitsAt va 47 17 == 2 ^ 17 - 1

/-- How a walk ends; a leaf stands at an address of memory, or is a stale one of a TLB. -/
inductive WalkEnd where
  | leaf (e : DWord) (at_ : Option Nat) (bits : Nat)
  | notPresent
  | invalid
  deriving DecidableEq, Repr

/-- The walk from a level down: each read is made by the home agent (R354, R391). None where the home cannot serve it yet. -/
def walkFrom (levels : List Nat) (s : State) (table : Nat) (va : DWord) : Option (State × WalkEnd) :=
  match levels with
  | [] => some (s, .invalid)
  | lv :: rest =>
    let a := table + 8 * bitsAt va (39 - 9 * lv) 9
    match homeRead s a 8 with
    | none => none
    | some (s1, bs, bad) =>
      let e := BitVec.ofNat 64 (numOf bs)
      if bad then some (s1, .invalid)
      else match decodePte e lv with
        | .notPresent => some (s1, .notPresent)
        | .invalid => some (s1, .invalid)
        | .leaf bits => some (s1, if inLogArea s1 (pteFrame e / 2 ^ bits * 2 ^ bits) (2 ^ bits) then .invalid else .leaf e (some a) bits)
        | .pointer => walkFrom rest s1 (pteFrame e) va

/-- A walk in a space; a space with no root has nothing present. -/
def walk (s : State) (space : Nat) (va : DWord) : Option (State × WalkEnd) :=
  match Table.find s.spaces space with
  | none => some (s, .notPresent)
  | some root => walkFrom [0, 1, 2, 3] s root va

/-! ## TLBs (R360, R361) -/

def TlbEntry.hits (t : TlbEntry) (space : Nat) (va : DWord) : Bool := t.space == space && t.page == va.toNat % 2 ^ 48 / 2 ^ t.bits

/-- The leaf that the column TLB or the tower TLB holds for an address, with its page size. -/
def tlbLookup (s : State) (column space : Nat) (va : DWord) : Option TlbEntry :=
  match firstWith (fun t => t.hits space va) (Table.get s.columns column .reset).tlb with
  | some t => some t
  | none => firstWith (fun t => t.hits space va) (Table.get s.towers (column / 48) .reset).tlb

/-- Put a leaf in a TLB of a given size, the newest first. -/
def tlbPut (size : Nat) (tlb : List TlbEntry) (t : TlbEntry) : List TlbEntry :=
  (t :: tlb.filter (fun u => !(u.space == t.space && u.page == t.page && u.bits == t.bits))).take size

/-- The entry of `disabledWays` for a slice of a tower (code 3), the cache of a column store (code 4), or a TLB, of a column or, from 192 on, of a
tower (code 8) (R422, R426). -/
def wayKey (code place array : Nat) : Nat := code + 16 * (place + 1024 * array)

/-- The entries of a TLB that are not disabled: 512 of a column's, 32K of a tower's. -/
def tlbSize (s : State) (place : Nat) : Nat := (if place < 192 then 512 else 32768) - Table.get s.disabledWays (wayKey 8 place 0) 0

def tlbFill (s : State) (column space : Nat) (va : DWord) (leaf : DWord) (bits : Nat) : State :=
  let t : TlbEntry := { space := space, page := va.toNat % 2 ^ 48 / 2 ^ bits, bits := bits, leaf := leaf }
  { s with columns := Table.modify s.columns column .reset (fun c => { c with tlb := tlbPut (tlbSize s column) c.tlb t }),
           towers := Table.modify s.towers (column / 48) .reset (fun c => { c with tlb := tlbPut (tlbSize s (192 + column / 48)) c.tlb t }) }

/-- Remove the translations that a test of space and page picks, from every TLB (R254); the pins of their lines lapse (R364). -/
def tlbRemove (s : State) (p : TlbEntry → Bool) (covers : Nat → Nat → Bool) : State :=
  { s with
    columns := s.columns.map (fun c => (c.1, { c.2 with tlb := c.2.tlb.filter (fun t => !p t) })),
    towers := s.towers.map (fun c => (c.1, { c.2 with
      tlb := c.2.tlb.filter (fun t => !p t),
      slices := c.2.slices.map (fun l => if covers l.space l.va.toNat then { l with pinned := false } else l) })),
    lines := s.lines.map (fun c => match c.pin with
      | some (sp, va) => if covers sp va then { c with pin := none } else c
      | none => c) }

/-- The physical address through a leaf. -/
def leafPa (leaf : DWord) (bits : Nat) (va : DWord) : Nat := pteFrame leaf / 2 ^ bits * 2 ^ bits + va.toNat % 2 ^ bits

/-- Where an access to a page that a swap has reached goes: a chunk that is done has moved to the other frame (R371). -/
def swapPa (s : State) (pa : Nat) : Nat :=
  s.swaps.foldl (fun pa w =>
    let inside (frame : Nat) : Bool := frame ≤ pa && pa < frame + 4096 * w.chunks && (pa - frame) / 4096 < w.next
    if inside w.frameA then w.frameB + (pa - w.frameA) else if inside w.frameB then w.frameA + (pa - w.frameB) else pa) pa

/-- Set A, and D for a write, in a leaf at its home (R359); none where the home cannot serve it yet. -/
def markLeaf (s : State) (at_ : Option Nat) (leaf : DWord) (write : Bool) : Option (State × DWord) :=
  let want := leaf ||| 0x400 ||| (if write then 0x800 else 0)
  match at_ with
  | none => some (s, leaf)
  | some a =>
    if want = leaf then some (s, leaf)
    else (homeAccess s (lineOf a) true).map (fun s1 => (homeWrite (settleGlobal s1 a 8) a (bytesOf 8 want.toNat) none, want))

/-- What an address translates to, with the leaf's page size; a stale leaf that a TLB still holds may be used in place of the
entry in memory, one choice for each lane (R360). The walker's updates are made by `touchPage` (R359). -/
def translate (s : State) (column space : Nat) (va : DWord) (write : Bool) (pick : Nat) : Option (State × WalkEnd) :=
  match walk s space va with
  | none => none
  | some (s1, fresh) =>
    match tlbLookup s1 column space va with
    | none => some (s1, fresh)
    | some t =>
      let old : WalkEnd := .leaf t.leaf none t.bits
      let same := match fresh with
        | .leaf e _ b => e ||| 0xC00 == t.leaf ||| 0xC00 && b == t.bits
        | _ => false
      if same || !(pteA t.leaf) || (write && !(pteD t.leaf)) then some (s1, fresh)
      else if Config.freeBit s.draw (3000000 + pick) then some (s1, old) else some (s1, fresh)

/-- Before the first access through a leaf: its A and D bits, and the TLBs (R359, R361); none where the access has to wait for them. -/
def touchPage (s : State) (column space : Nat) (va : DWord) (w : WalkEnd) (write : Bool) : Option State :=
  match w with
  | .leaf e (some a) bits => (markLeaf s (some a) e write).map (fun r => tlbFill r.1 column space va r.2 bits)
  | _ => some s

/-! ## Checks (R187, R357, R358) -/

/-- What an access does at a page, for R357's rules 4 and 5. -/
inductive AccessKind where
  | load | store | atomic | counterAdd | counterRead | fetch
  deriving DecidableEq, Repr

/-- What the checks of R357 ask of the accessor: supervisor mode, and the key slots it may use, one bit each. -/
structure Rights where
  super : Bool
  keys : Nat
  deriving DecidableEq, Repr

/-- The first failure of an address's check: the DETAIL, none for a pass; a page that is not present fails none (R357). -/
def pageCheck (r : Rights) (k : AccessKind) (va : DWord) (w : WalkEnd) : Option Nat :=
  if !canonical va then some 6
  else match w with
    | .notPresent => none
    | .invalid => some 5
    | .leaf e _ _ =>
      if !pteU e && !r.super then some 3
      else if !(match k with
        | .load => pteR e
        | .counterRead => pteR e
        | .store => pteW e
        | .counterAdd => pteW e
        | .atomic => pteW e && pteR e
        | .fetch => pteX e) then some 3
      else if pteCtr e != (k == .counterAdd || k == .counterRead) then some 4
      else if r.keys / 2 ^ pteKey e % 2 == 0 then some 7
      else none

/-- The page kind of an access: the entry's, or UO where its range does not admit it (R363, R375). -/
def pageKind (s : State) (leaf : DWord) (pa : Nat) : PageKind :=
  let k : PageKind := match pteOrd leaf with | 0 => .rc | 1 => .so | _ => .uo
  if admits s pa k then k else .uo

end Sys2Proof.Machine
end

