-- ==== Sys2Proof/Machine/Regions.lean ====
section
/-! DEFINITION. Regions: effective fields, fault records, completion adds, the ringmaster's writes, and the fault stop
(R328 to R335, R352, R433, R434, R459). -/

namespace Sys2Proof.Machine

/-! ## Finding and changing -/

def regionFind (s : State) (id : Nat) : Option Region := firstWith (fun r => r.id == id) s.regions
def modRegion (s : State) (id : Nat) (f : Region → Region) : State :=
  { s with regions := s.regions.map (fun r => if r.id = id then f r else r) }

def wgFind (s : State) (id : Nat) : Option Workgroup := firstWith (fun w => w.id == id) s.wgs
def modWg (s : State) (id : Nat) (f : Workgroup → Workgroup) : State :=
  { s with wgs := s.wgs.map (fun w => if w.id = id then f w else w) }

def groupFind (s : State) (g : GroupId) : Option Group := (wgFind s g.wg).bind (fun w => w.groups[g.grp]?)
def modGroup (s : State) (g : GroupId) (f : Group → Group) : State :=
  modWg s g.wg (fun w => { w with groups := modAt w.groups g.grp f })

/-- The group of a split. -/
def groupOf (x : SplitId) : GroupId := { wg := x.wg, grp := x.grp }

def splitFind (s : State) (x : SplitId) : Option Split := (groupFind s (groupOf x)).bind (fun g => g.splits[x.slot]?)
def modSplit (s : State) (x : SplitId) (f : Split → Split) : State :=
  modGroup s (groupOf x) (fun g => { g with splits := modAt g.splits x.slot f })

/-- The package-wide core number of a workgroup (R13). -/
def Workgroup.core (w : Workgroup) : Nat := 4 * w.column + w.layer

def coreOf (s : State) (n : Nat) : Core := Table.get s.cores n .reset
def modCore (s : State) (n : Nat) (f : Core → Core) : State := { s with cores := Table.modify s.cores n .reset f }
def columnOf (s : State) (n : Nat) : Column := Table.get s.columns n .reset
def modColumn (s : State) (n : Nat) (f : Column → Column) : State := { s with columns := Table.modify s.columns n .reset f }
def towerOf (s : State) (n : Nat) : Tower := Table.get s.towers n .reset
def modTower (s : State) (n : Nat) (f : Tower → Tower) : State := { s with towers := Table.modify s.towers n .reset f }

def flightFind (s : State) (id : Nat) : Option Flight := firstWith (fun f => f.id == id) s.flights
def modFlight (s : State) (id : Nat) (f : Flight → Flight) : State :=
  { s with flights := s.flights.map (fun g => if g.id = id then f g else g) }
def dropFlight (s : State) (id : Nat) : State := { s with flights := s.flights.filter (fun g => g.id != id) }

/-- A cycle in which no core of the column may issue: every second cycle of a halved window (R419), or of an overheated
column (R457), and the second half of a stretched cycle. -/
def Column.issueBarred (k : Column) : Bool :=
  k.half || (k.phase == .halved && k.left % 2 == 1) || (k.overheat && k.cycle % 2 == 1)

/-! ## Effective fields (R330) -/

/-- The effective value of a field with an OVR bit: depth of the tree is at most eight. -/
def effective (fuel : Nat) (s : State) (r : Region) (bit off n : Nat) : Nat :=
  match fuel with
  | 0 => numAt r.block off n
  | f + 1 =>
    match r.parent with
    | none => numAt r.block off n
    | some p =>
      if numAt r.block 8 2 / 2 ^ bit % 2 = 1 then numAt r.block off n
      else match regionFind s p with
        | none => numAt r.block off n
        | some q => effective f s q bit off n

/-- The effective KEYS: a region's own are cut to its parent's. -/
def effectiveKeys (fuel : Nat) (s : State) (r : Region) : Nat :=
  match fuel with
  | 0 => numAt r.block 64 128
  | f + 1 =>
    match r.parent with
    | none => numAt r.block 64 128
    | some p =>
      match regionFind s p with
      | none => numAt r.block 64 128
      | some q =>
        let up := effectiveKeys f s q
        if numAt r.block 8 2 / 2 ^ 7 % 2 = 1 then numAt r.block 64 128 &&& up else up

def prioOf (s : State) (r : Region) : Nat := effective 9 s r 0 10 1
def colsOf (s : State) (r : Region) : Nat := effective 9 s r 1 14 2
def regbOf (s : State) (r : Region) : Nat := effective 9 s r 2 24 8
def spadbOf (s : State) (r : Region) : Nat := effective 9 s r 3 32 8
def canbOf (s : State) (r : Region) : Nat := effective 9 s r 4 40 8
def powerOf (s : State) (r : Region) : Nat := effective 9 s r 5 16 1
def fdomOf (s : State) (r : Region) : Nat := effective 9 s r 6 12 2
def pboundOf (s : State) (r : Region) : Nat := effective 9 s r 8 48 8
def handlerOf (s : State) (r : Region) : Nat := effective 9 s r 9 56 8
def saveAreaOf (s : State) (r : Region) : Nat × Nat := (effective 9 s r 10 264 8, effective 9 s r 10 272 8)
def rhmaxOf (s : State) (r : Region) : Nat := effective 9 s r 11 18 2
def supvOf (r : Region) : Bool := numAt r.block 11 1 % 2 == 1
def Region.llist (r : Region) : Nat := numAt r.block 192 8
def Region.llsize (r : Region) : Nat := numAt r.block 200 4
def Region.lctr (r : Region) : Nat := numAt r.block 208 8
def Region.clist (r : Region) : Nat := numAt r.block 216 8
def Region.clsize (r : Region) : Nat := numAt r.block 224 4
def Region.cctr (r : Region) : Nat := numAt r.block 232 8
def Region.fq (r : Region) : Nat := numAt r.block 240 8
def Region.fqsize (r : Region) : Nat := numAt r.block 248 4
def Region.fqctr (r : Region) : Nat := numAt r.block 256 8
def Region.hevq (r : Region) : Nat := numAt r.block 280 8

/-- A region and its ancestors, up to the root. -/
def pathToRoot (fuel : Nat) (s : State) (id : Nat) : List Region :=
  match fuel with
  | 0 => []
  | f + 1 =>
    match regionFind s id with
    | none => []
    | some r => r :: (match r.parent with | none => [] | some p => pathToRoot f s p)

def isDescendant (s : State) (top id : Nat) : Bool := (pathToRoot 9 s id).any (fun r => r.id == top)
def subtree (s : State) (top : Nat) : List Region := s.regions.filter (fun r => isDescendant s top r.id)
def rootOf (s : State) (id : Nat) : Nat := ((pathToRoot 9 s id).getLast?.map (fun r => r.id)).getD id

/-- The key slots that hold a key, one bit each (R357, R442). -/
def loadedKeys (s : State) : Nat := s.keys.foldl (fun acc k => acc ||| 2 ^ k.1) 0

/-- What a region's accesses may do (R357), with its supervisor flag or in supervisor mode. -/
def rightsOf (s : State) (r : Region) (super : Bool) : Rights :=
  { super := super || supvOf r, keys := effectiveKeys 9 s r &&& loadedKeys s }

/-! ## The ringmaster's accesses -/

/-- The physical address of a ringmaster's access at a virtual address of a space, and its leaf; none for a page that is not there. -/
def ringAddr (s : State) (space : Nat) (va : Nat) (write : Bool) : Option (State × Nat × DWord) :=
  let a := BitVec.ofNat 64 va
  if !canonical a then none
  else match walk s space a with
    | some (s1, .leaf e at_ bits) => (markLeaf s1 at_ e write).map (fun m => (m.1, swapPa m.1 (leafPa e bits a), e))
    | _ => none

/-- Read bytes that lie in one page. -/
def ringRead (s : State) (space va n : Nat) : Option (State × List Byte × Bool) :=
  match ringAddr s space va false with
  | none => none
  | some (s1, pa, _) => homeRead s1 pa n

/-- Read a counter, which lies on a CTR page (R328). -/
def ringCounter (s : State) (space va : Nat) : Option (State × List Byte × Bool) :=
  match ringAddr s space va false with
  | none => none
  | some (s1, pa, leaf) => if pteCtr leaf then homeRead s1 pa 8 else none

/-- Write bytes that lie in one page; a write that cannot be made is dropped. -/
def ringWrite (s : State) (space va : Nat) (bs : List Byte) : State :=
  match ringAddr s space va true with
  | none => s
  | some (s1, pa, _) => (homeStore s1 pa bs).getD s

/-! ## Fault records (R226, R433, R434, R459, R460) -/

/-- Hand a record to the ringmaster, which posts records in the order they arise (`faultRecordPost`). -/
def queueRecord (s : State) (region : Nat) (bs : List Byte) : State := modRegion s region (fun r => { r with fqWaiting := r.fqWaiting ++ [bs] })

/-- HANDLE of R362. -/
def placeHandle (w : Workgroup) (grp : Nat) : Nat := w.column + w.slot * 256 + grp * 65536

/-- The record layout of R226. -/
def record226 (handle cause kind count addr : Nat) (mask : Nat) (tile addf : Nat) : List Byte :=
  bytesOf 4 handle ++ bytesOf 1 cause ++ bytesOf 1 kind ++ bytesOf 2 (min count 0xFFFF) ++ bytesOf 8 addr ++ bytesOf 12 mask ++
  bytesOf 1 tile ++ bytesOf 1 addf ++ bytesOf 2 0

/-- R362. -/
def recordPage (w : Workgroup) (grp : Nat) (fetch : Bool) (va pc : DWord) (lane access : Nat) : List Byte :=
  bytesOf 4 (placeHandle w grp) ++ bytesOf 1 1 ++ bytesOf 1 (if fetch then 6 else 5) ++ bytesOf 2 1 ++ bytesOf 8 va.toNat ++
  bytesOf 8 pc.toNat ++ bytesOf 1 lane ++ bytesOf 1 access ++ bytesOf 6 0

/-- R460. -/
def recordTrap (w : Workgroup) (grp slot : Nat) (t : TrapInfo) (inHandler : Bool) : List Byte :=
  bytesOf 4 (placeHandle w grp) ++ bytesOf 1 t.code ++ bytesOf 1 9 ++ bytesOf 1 t.detail ++
  bytesOf 1 ((if t.async then 1 else 0) + (if inHandler then 2 else 0)) ++ bytesOf 8 t.pc.toNat ++ bytesOf 8 t.value.toNat ++
  bytesOf 1 t.lane ++ bytesOf 1 slot ++ bytesOf 6 0

/-- R434. -/
def recordLost (w : Workgroup) (grp cause losses action struct_ : Nat) (addr : DWord) : List Byte :=
  bytesOf 4 (placeHandle w grp) ++ bytesOf 1 cause ++ bytesOf 1 8 ++ bytesOf 2 losses ++ bytesOf 8 addr.toNat ++
  bytesOf 4 w.index ++ bytesOf 1 action ++ bytesOf 1 struct_ ++ bytesOf 10 0

/-! ## Completion adds (R459) -/

/-- Add to a counter at its home, saturating: the value before, and whether it saturated. None where the home cannot serve it yet. -/
def counterAdd (s : State) (pa : Nat) (b : Nat) : Option (State × Nat × Bool) :=
  match homeAccess s (lineOf pa) true with
  | none => none
  | some s1 =>
    let old := numOf (memRead s1 pa 8)
    let new := min (old + b) (2 ^ 64 - 1)
    some (homeWrite (settleGlobal s1 pa 8) pa (bytesOf 8 new) none, old, decide (2 ^ 64 - 1 < old + b))

/-- Before a token counter moves on, the home writes back and drops every dirty line of its range that the holder's column store and
its tower's remote ways hold (R388). -/
def passTokens (s : State) (pa : Nat) : State :=
  s.playbill.foldl (fun s e =>
    if e.2.en && e.2.slot == 6 && bitsAt e.2.word2 0 48 == pa then
      let h := tokenHolder s e.2
      let mine := s.lines.filter (fun c => (c.agent == .col h || c.agent == .way (h / 48)) && e.2.covers (lineBase c.line) && c.dirty != 0)
      mine.foldl (fun s c => flushLine s c.line) s
    else s) s

/-- A completion add at a virtual address, with a region's or a group's privilege, in its space: refused adds post a record (R459). -/
def completionAdd (s : State) (r : Region) (super : Bool) (addr handle kind : Nat) : State :=
  let fail (s : State) (cause : Nat) : State := queueRecord s r.id (record226 handle cause kind 0 addr 0 0 1)
  let va := BitVec.ofNat 64 addr
  if addr % 8 ≠ 0 then fail s 3
  else match walk s r.space va with
    | none => fail s 1
    | some (s1, w) =>
      match pageCheck (rightsOf s1 r super) .counterAdd va w with
      | some _ => fail s1 2
      | none =>
        match w with
        | .leaf e at_ bits =>
          let pa := swapPa s1 (leafPa e bits va)
          if poisonedAt s1 pa 8 then fail s1 4
          else
            match (markLeaf s1 at_ e true).bind (fun m => counterAdd (passTokens m.1 pa) pa 1) with
            | none => fail s1 1
            | some (s2, _, sat) => if sat then fail s2 11 else s2
        | _ => fail s1 1

/-! ## Host events (R252, R406) -/

/-- Post a 16-byte event in a host event queue: 0 posted, 1 full; its vector is signalled if it was empty. -/
def hostEvent (s : State) (r : Region) (body : List Byte) : State × Nat :=
  match ringAddr s r.space r.hevq true with
  | none => (s, 1)
  | some (s1, pa, _) =>
    match homeRead s1 pa 24 with
    | none => (s1, 1)
    | some (s2, hd, _) =>
      let prod := numAt hd 0 8
      let cons := numAt hd 8 8
      let ent := numAt hd 16 4
      if prod - cons = ent then (s2, 1)
      else
        let s3 := ringWrite s2 r.space (r.hevq + 64 + 16 * (prod % ent)) body
        let s4 := ringWrite s3 r.space r.hevq (bytesOf 8 (prod + 1))
        (if prod = cons then { s4 with signals := s4.signals ++ [numAt hd 20 2] } else s4, 0)

/-! ## Launch status and the fault stop (R332, R352) -/

def modLaunch (s : State) (region launch : Nat) (f : Launch → Launch) : State :=
  modRegion s region (fun r => { r with launches := r.launches.map (fun l => if l.id = launch then f l else l) })

def launchFind (s : State) (region launch : Nat) : Option Launch :=
  (regionFind s region).bind (fun r => firstWith (fun l => l.id == launch) r.launches)

/-- The ringmaster's copy of its state in bytes 312 to 511 of a region's block, rewritten at a change; the manual gives no layout (R432). -/
def keepCopy (s : State) (region : Nat) : State :=
  match regionFind s region with
  | some r => ringWrite s r.space (r.addr.toNat + 312) ((List.range 200).map (fun k => Config.freeByte s.draw (5000 + k)))
  | none => s

/-- Set a launch's STATUS, in the ringmaster and in its record. -/
def setStatus (s : State) (region launch status : Nat) : State :=
  match regionFind s region, launchFind s region launch with
  | some r, some l =>
    keepCopy (ringWrite (modLaunch s region launch (fun l => { l with status := status })) r.space (l.addr.toNat + 124) (bytesOf 4 status)) region
  | _, _ => s

/-- A launch is complete: done, refused, faulted or killed. -/
def Launch.over (l : Launch) : Bool := 2 ≤ l.status && l.status ≤ 6

/-- Advance LDONE over every leading complete launch (R335). -/
def advanceLdone (s : State) (region : Nat) : State :=
  match regionFind s region with
  | none => s
  | some r =>
    let n := ((r.launches.filter (fun l => r.ldone ≤ l.id)).takeWhile Launch.over).length
    if n = 0 then s
    else ringWrite (modRegion s region (fun r => { r with ldone := r.ldone + n })) r.space (r.addr.toNat + 296) (bytesOf 8 (r.ldone + n))

/-- A launch faults (R352): STATUS 5. DESIGN CHOICE: it counts as complete from then on, for LDONE, RETIRE and KILL alike. -/
def faultLaunch (s : State) (region launch : Nat) : State := advanceLdone (setStatus s region launch 5) region

/-- A group whose transfer waits for the rigging bus behind a move that does not take place has its turn so many cycles earlier (R309). -/
def earlierOnBus (after len : Nat) (g : Group) : Group :=
  let sooner (till : Nat) : Nat := if after < till then till - len else till
  { g with residence := match g.residence with
      | .demoting till => .demoting (sooner till)
      | .recalling till true => .recalling (sooner till) true
      | .starting till => .starting (sooner till)
      | r => r }

/-- The bus gives up the turn of a move (R309). -/
def freeBusTurn (s : State) (column : Nat) (cap : Capture) : State :=
  if cap.succeeded.isNone then s
  else
    let s1 := modColumn s column (fun k => { k with busFree := k.busFree - cap.moveLen })
    { s1 with wgs := s1.wgs.map (fun w => if w.column = column then { w with groups := w.groups.map (earlierOnBus cap.moveFrom cap.moveLen) } else w) }

/-- A capture that has not begun to move is abandoned: its splits are released, its time counts, and its workgroup is left alone for
2048 cycles (R306, R311). -/
def abandonCapture (s : State) (column : Nat) : State :=
  let k := columnOf s column
  match k.capture with
  | none => s
  | some cap =>
    if cap.moveTill.isSome then s
    else modWg (modColumn (freeBusTurn s column cap) column (fun k => { k with capture := none })) cap.wg (fun w =>
      { w with hold := .none, excluded := some (k.cycle + 2048),
               migdefer := BitVec.ofNat 32 (min (w.migdefer.toNat + (k.cycle - cap.start)) 0xFFFFFFFF) })

/-- A request against a workgroup that is being captured ends the capture (R306, R351). -/
def releaseCapture (s : State) (wg : Nat) : State :=
  match wgFind s wg with
  | none => s
  | some w => if w.hold == .capture then abandonCapture s w.column else s

/-- The flush that a fault stop, a KILL or an R345 choice asks for; the earlier choice stands (R351). -/
def requestFlush (s : State) (wg : Nat) (forRegion : Option Nat) (rerun : Bool) : State :=
  modWg (releaseCapture s wg) wg (fun w =>
    let again := rerun && (w.preempt.map (fun p => p.rerun)).getD true
    let p : Preempt := { kind := .flush, deadline := 0, forRegion := forRegion, reverted := none, publish := none, image := none, rerun := again }
    { w with hold := if w.hold = .move ∨ w.hold = .restore then w.hold else .flush, preempt := some p })

/-- The regions of the same root and fault domain stop: their workgroups are flushed without rerunning and their lists frozen. -/
def stopDomain (s : State) (region : Nat) : State :=
  match regionFind s region with
  | none => s
  | some r =>
    let dom := fdomOf s r
    let hit := (subtree s (rootOf s region)).filter (fun q => fdomOf s q == dom)
    let ids := hit.map (fun q => q.id)
    let s1 : State := { s with regions := s.regions.map (fun q => if ids.contains q.id then { q with faultStop := true } else q) }
    (s1.wgs.filter (fun w => ids.contains w.region && !w.stopped)).foldl (fun s w => requestFlush s w.id none false) s1

/-- A workgroup stops (R352): its groups stop issuing, a record of KIND 8 is posted, its launch faults, its fault domain stops. -/
def faultStop (s : State) (wg grp cause struct_ : Nat) : State :=
  match wgFind s wg with
  | none => s
  | some w =>
    let l := launchFind s w.region w.launch
    let losses := (l.map (fun l => Table.get l.losses w.index 0)).getD 0 + (if cause = 8 then 0 else 1)
    let s1 := modWg (releaseCapture s wg) wg (fun w => { w with stopped := true })
    let s2 := queueRecord s1 w.region (recordLost w grp cause losses 1 struct_ ((l.map (fun l => l.addr)).getD 0))
    stopDomain (faultLaunch s2 w.region w.launch) w.region

/-- R430: a workgroup is lost, every group stopped at once; Sahong records the error. -/
def loseWorkgroup (s : State) (wg struct_ unit : Nat) : State :=
  match wgFind s wg with
  | none => s
  | some w =>
    if w.stopped then s
    else sahong (modWg (releaseCapture s wg) wg (fun w => { w with lost := some struct_, stopped := true })) 4 struct_ (w.column / 48) unit 0

end Sys2Proof.Machine
end

