-- ==== Sys2Proof/Machine/Ops.lean ====
section
/-! DEFINITION. The named operations on registers, traps, parking, the return from a handler, and the run of one word
(R23 to R59, R103 to R105, R240 to R248). -/

namespace Sys2Proof.Machine

/-! ## The issuing split -/

/-- What a word runs in: its split, and the records it belongs to. -/
structure Ctx where
  x : SplitId
  w : Workgroup
  g : Group
  p : Split
  r : Region
  core : Core
  draw : Nat
  deriving DecidableEq, Repr

/-- The context of a split, where it exists. -/
def ctxOf (s : State) (x : SplitId) : Option Ctx :=
  match wgFind s x.wg with
  | none => none
  | some w =>
    match w.groups[x.grp]?, regionFind s w.region with
    | some g, some r =>
      match g.splits[x.slot]? with
      | none => none
      | some p => some { x := x, w := w, g := g, p := p, r := r, core := coreOf s w.core, draw := s.draw }
    | _, _ => none

/-- The cycle of the context's column. -/
def cycleOf (s : State) (c : Ctx) : Nat := (columnOf s c.w.column).cycle

/-- The context of the split chosen to issue. -/
def issuing (s : State) : Option Ctx := s.issue.bind (ctxOf s)

/-- The split is in handler mode (R241). -/
def Ctx.handler (c : Ctx) : Bool := c.g.handler == some c.x.slot

/-- The split is in supervisor mode (R240). -/
def Ctx.super (c : Ctx) : Bool := c.handler || supvOf c.r

/-- The vector registers the launch declares (R26), and its tiles (R38). -/
def Ctx.vcnt (c : Ctx) : Nat := c.w.fields.vcnt
def Ctx.tiles (c : Ctx) : Nat := c.w.fields.tiles

/-! ## Reading registers (R32 to R35, R39, R49, R50, R119) -/

def vref (c : Ctx) (n : Nat) : RegRef := if c.handler && 120 ≤ n && n ≤ 127 then .k (n - 120) else .v n
def sref (c : Ctx) (n : Nat) : RegRef := if c.handler && 44 ≤ n && n ≤ 59 then .ks (n - 44) else .s n

/-- A register's number for the draws of R49 and R50. -/
def regCode : RegRef → Nat
  | .v n => n
  | .s n => 256 + n
  | .p n => 320 + n
  | .x n => 328 + n
  | .k n => 336 + n
  | .ks n => 344 + n

/-- A register's newest value. -/
def regNow (c : Ctx) (r : RegRef) : Image :=
  match r with
  | .v n => .lanes (Table.get c.g.vregs n [])
  | .s n => .word (if n = 0 then 0 else Table.get c.p.scalars n 0)
  | .p n => .mask (if n = 0 then BitVec.allOnes 96 else Table.get c.g.preds n 0)
  | .x n => .lanes (Table.get c.g.xregs n [])
  | .k n => .lanes (Table.get c.core.kregs n [])
  | .ks n => .word (Table.get c.core.ksregs n 0)

def imageLanes : Image → Lanes
  | .lanes v => v
  | .mask _ => []
  | .word w => [w]
def imageMask : Image → Mask
  | .mask m => m
  | _ => 0
def imageWord : Image → Word
  | .word w => w
  | .lanes v => lane v 0
  | .mask _ => 0

/-- The open shadows of a register, oldest first, numbered. -/
def shadowsOf (c : Ctx) (r : RegRef) : List (Nat × Shadow) := ((List.range c.p.shadows.length).zip c.p.shadows).filter (fun e => e.2.reg == r)

/-- The free choice of a lane of a register in a shadow: the old value (R49). -/
def takesOld (c : Ctx) (r : RegRef) (k l : Nat) : Bool := Config.freeBit c.draw ((regCode r * 64 + k) * 96 + l)

/-- The one image of a vector-shaped register that an instruction reads (R119). -/
def readLanes (c : Ctx) (r : RegRef) : Lanes :=
  let now := imageLanes (regNow c r)
  match shadowsOf c r with
  | [] => now
  | sh => ofLanes (fun l => sh.foldl (fun v e => if has e.2.mask l && takesOld c r e.1 l then lane (imageLanes e.2.old) l else v) (lane now l))

/-- Predicates are read as vector registers are; p0 reads all ones (R34). -/
def readMask (c : Ctx) (r : RegRef) : Mask :=
  if r = .p 0 then BitVec.allOnes 96 else
  let now := imageMask (regNow c r)
  match shadowsOf c r with
  | [] => now
  | sh => ofMask (fun l => sh.foldl (fun v e => if has e.2.mask l && takesOld c r e.1 l then has (imageMask e.2.old) l else v) (has now l))

/-- Scalars are read as vector registers are; s0 reads zero (R32). -/
def readWord (c : Ctx) (r : RegRef) : Word :=
  if r = .s 0 then 0 else
  (shadowsOf c r).foldl (fun v e => if takesOld c r e.1 0 then imageWord e.2.old else v) (imageWord (regNow c r))

/-- vN, sN, pN, xN as an instruction of the split reads them. -/
def Ctx.v (c : Ctx) (n : Nat) : Lanes := readLanes c (vref c n)
def Ctx.s (c : Ctx) (n : Nat) : Word := readWord c (sref c n)
def Ctx.pr (c : Ctx) (n : Nat) : Mask := readMask c (.p n)
def Ctx.xr (c : Ctx) (n : Nat) : Lanes := readLanes c (.x n)

/-- The pair sN:sN+1 as a number (R5, R32). -/
def Ctx.pair (c : Ctx) (n : Nat) : Nat := (c.s n).toNat + 2 ^ 32 * (c.s (n + 1)).toNat

/-- Three scalars as a lane mask (R33). -/
def Ctx.triple (c : Ctx) (n : Nat) : Mask :=
  BitVec.ofNat 96 ((c.s n).toNat + 2 ^ 32 * (c.s (n + 1)).toNat + 2 ^ 64 * (c.s (n + 2)).toNat)

/-- Own() AND NOT Exited(). -/
def Ctx.alive (c : Ctx) : Mask := c.p.own &&& ~~~ c.g.exited

/-- Active() of R43. -/
def Ctx.active (c : Ctx) : Mask := c.triple 61 &&& c.alive

/-- A field of MODE (R41). -/
def Ctx.mode (c : Ctx) (lo len : Nat) : Nat := bitsAt c.p.mode lo len
def Ctx.et (c : Ctx) : Nat := c.mode 0 4
def Ctx.rnd (c : Ctx) : Nat := c.mode 8 2
def Ctx.sat (c : Ctx) : Bool := c.mode 10 1 == 1
def Ctx.ftz (c : Ctx) : Bool := c.mode 11 1 == 1
def Ctx.fill (c : Ctx) : Bool := c.mode 12 1 == 1
def Ctx.rall (c : Ctx) : Bool := c.mode 13 1 == 1

/-- The lanes whose guard permits a write (R43). -/
def Ctx.guard (c : Ctx) : Mask := if c.mode 7 1 = 1 then ~~~ c.pr (c.mode 4 3) else c.pr (c.mode 4 3)

/-- The lanes an instruction writes. -/
def Ctx.writes (c : Ctx) : Mask := c.active &&& c.guard

/-! ## Writing registers (R24, R29, R31, R48, R50) -/

/-- `new` in the lanes of the mask. -/
def mergeLanes (mask : Mask) (new old : Lanes) : Lanes := ofLanes (fun l => if has mask l then lane new l else lane old l)

/-- The hold latch after a write of a register: a write of any lane frees its entries (R31). -/
def freeHeld (hold : List HoldEntry) (r : RegRef) (mask : Mask) : List HoldEntry := if mask = 0 then hold else hold.filter (fun h => !h.regs.contains r)

/-- Put an image in a register, in the lanes of the mask, and note the time; s0 and p0 discard it. -/
def putReg (s : State) (x : SplitId) (core : Nat) (r : RegRef) (mask : Mask) (new : Image) : State :=
  match r with
  | .v n => modGroup s (groupOf x) (fun g =>
      { g with vregs := Table.put g.vregs n (mergeLanes mask (imageLanes new) (Table.get g.vregs n [])), hold := freeHeld g.hold r mask,
               written := Table.put g.written (regCode r) (stampOf s) })
  | .x n => modGroup s (groupOf x) (fun g =>
      { g with xregs := Table.put g.xregs n (mergeLanes mask (imageLanes new) (Table.get g.xregs n [])), written := Table.put g.written (regCode r) (stampOf s) })
  | .p n =>
    if n = 0 then s
    else modGroup s (groupOf x) (fun g =>
      { g with preds := Table.put g.preds n ((imageMask new &&& mask) ||| (Table.get g.preds n 0 &&& ~~~ mask)) })
  | .s n =>
    if n = 0 then s else modSplit s x (fun p => { p with scalars := Table.put p.scalars n (imageWord new), written := Table.put p.written n (stampOf s) })
  | .k n =>
    modGroup (modCore s core (fun k => { k with kregs := Table.put k.kregs n (mergeLanes mask (imageLanes new) (Table.get k.kregs n [])) }))
      (groupOf x) (fun g => { g with hold := freeHeld g.hold r mask })
  | .ks n => modCore s core (fun k => { k with ksregs := Table.put k.ksregs n (imageWord new) })

/-- Whether a flight's destination is this register of this split. -/
def sameDest (f : Flight) (x : SplitId) (r : RegRef) (d : Dest) : Bool :=
  d.reg == r && f.x.wg == x.wg && f.x.grp == x.grp && (match r with | .s _ => d.slot == x.slot | _ => true)

/-- Another instruction writes the destination of a result still to come: its lanes end with either value (R50). -/
def clobber (s : State) (x : SplitId) (r : RegRef) (mask : Mask) : State :=
  { s with flights := s.flights.map (fun f =>
      if f.written then f
      else { f with dests := f.dests.map (fun d => if sameDest f x r d then { d with clobbered := d.clobbered ||| (mask &&& d.mask) } else d) }) }

/-- Open a shadow over a register of a split (R48). -/
def openShadow (s : State) (x : SplitId) (sh : Shadow) : State := modSplit s x (fun p => { p with shadows := p.shadows ++ [sh] })

/-- A later write of a register closes the earlier shadows of it, in the lanes that it writes, no later than its own (R29, R49). -/
def closeEarlier (sh : List Shadow) (r : RegRef) (mask : Mask) (shadow : Nat) : List Shadow :=
  sh.flatMap (fun e =>
    if e.reg = r ∧ e.mask &&& mask ≠ 0 then
      [{ e with mask := e.mask &&& ~~~ mask },
       { e with mask := e.mask &&& mask, left := some (min (e.left.getD (shadow + 1)) (shadow + 1)) }].filter (fun e => e.mask != 0 && e.left != some 1)
    else [e])

/-- An instruction writes a register: the lanes of the mask, with a shadow of so many instructions (R48); the cycle from which a reading word needs no
longer window is noted where a route has made the value late (R124). -/
def writeReg (s : State) (c : Ctx) (r : RegRef) (mask : Mask) (new : Image) (shadow : Nat) : State :=
  let k := coreOf s c.w.core
  let late := if shadow = 0 ∨ k.lag = 0 then [] else [(r, k.pipeFree + 3 * shadow + k.lag)]
  let s0 := modSplit s c.x (fun p => { p with shadows := closeEarlier p.shadows r mask shadow, late := p.late.filter (fun e => e.1 != r) ++ late })
  let s1 := if shadow = 0 then s0 else openShadow s0 c.x { reg := r, old := regNow c r, mask := mask, left := some (shadow + 1) }
  clobber (putReg s1 c.x c.w.core r mask new) c.x r mask

/-- Write a vector register in the lanes of the mask. -/
def writeV (s : State) (c : Ctx) (n : Nat) (mask : Mask) (new : Lanes) (shadow : Nat) : State := writeReg s c (vref c n) mask (.lanes new) shadow

/-- Write a scalar; s0 discards it (R32). -/
def writeS (s : State) (c : Ctx) (n : Nat) (v : Nat) (shadow : Nat := 0) : State :=
  if n = 0 then s else writeReg s c (sref c n) 1 (.word (BitVec.ofNat 32 v)) shadow

/-- Write a scalar pair; its half in s0 is discarded. -/
def writePair (s : State) (c : Ctx) (n : Nat) (v : Nat) (shadow : Nat := 0) : State := writeS (writeS s c n v shadow) c (n + 1) (v / 2 ^ 32) shadow

/-- Write a mask to three scalars (R144). -/
def writeTriple (s : State) (c : Ctx) (n : Nat) (m : Mask) : State :=
  writeS (writeS (writeS s c n (m.toNat)) c (n + 1) (m.toNat / 2 ^ 32)) c (n + 2) (m.toNat / 2 ^ 64)

/-- Write predicate bits in the lanes of the mask; p0 discards them (R34). -/
def writeP (s : State) (c : Ctx) (n : Nat) (mask : Mask) (new : Mask) (shadow : Nat) : State :=
  if n = 0 then s else writeReg s c (.p n) mask (.mask new) shadow

/-! ## Path counters (R55) -/

def pathOf (g : Group) (n : Nat) : Nat := g.paths.getD n 0
def setPath (s : State) (g : GroupId) (n v : Nat) : State := modGroup s g (fun gr => { gr with paths := modAt gr.paths n (fun _ => v) })
def raisePath (s : State) (g : GroupId) (n : Nat) : State := modGroup s g (fun gr => { gr with paths := modAt gr.paths n (· + 1) })

/-- A completion on a path: its counter falls, and every `xfence` of the group that waits for the path counts it (R208). -/
def lowerPath (s : State) (g : GroupId) (n : Nat) : State :=
  modGroup s g (fun gr => { gr with
    paths := modAt gr.paths n (· - 1),
    splits := gr.splits.map (fun p => match p.wait with
      | .xfence counts lines => { p with wait := .xfence (counts.map (fun e => if e.1 = n then (e.1, e.2 - 1) else e)) lines }
      | _ => p) })

/-! ## Traps (R241 to R245, R460) -/

def causeWord (t : TrapInfo) : Word :=
  BitVec.ofNat 32 ((if t.async then 2 ^ 31 else 0) + t.lane * 2 ^ 24 + t.detail * 2 ^ 8 + t.code)

/-- Post a trap instead of taking it. -/
def postTrap (s : State) (x : SplitId) (t : TrapInfo) (inHandler : Bool) : State :=
  match wgFind s x.wg with
  | none => s
  | some w => queueRecord s w.region (recordTrap w x.grp x.slot t inHandler)

/-- Splits leave the fused sets of their core (R294). -/
def unfused (k : Core) (leaves : SplitId → Bool) : Core :=
  { k with fetches := k.fetches.map (fun f => { f with due := f.due.filter (fun d => !leaves d.1) }) }

/-- R241: write the trap registers, enter handler mode with a cleared shadow bank, go on at the handler. -/
def enterHandler (s : State) (x : SplitId) (t : TrapInfo) (run : RunState) : State :=
  match ctxOf s x with
  | none => s
  | some c =>
    let s1 := modSplit s x (fun p => { p with
      trapCause := causeWord t, trapPc := t.pc, trapVal := t.value, pc := BitVec.ofNat 64 (handlerOf s c.r), state := run, markWait := false,
      boundary := false, wait := .none, refused := none, readySince := none })
    let s2 := modGroup s1 (groupOf x) (fun g => { g with handler := some x.slot, hold := [] })
    modCore s2 c.w.core (fun k => { unfused k (fun y => groupOf y == groupOf x) with bank := some x, kregs := [], ksregs := [] })

/-- Where a split goes on in its handler: a breakpoint stops under an attached debugger (R247). -/
def handlerRun (s : State) (t : TrapInfo) : RunState := if s.debugger && t.code == 12 then .debug else .running

/-- A core gives its free bank to the group that has waited longest for it and still waits (R40, R248). -/
def grantTo (s : State) (core : Nat) : List SplitId → State
  | [] => modCore s core (fun k => { k with waiters := [] })
  | x :: rest =>
    match (splitFind s x).map Split.state with
    | some (RunState.parked (.bank t) _) => enterHandler (modCore s core (fun k => { k with waiters := rest })) x t (handlerRun s t)
    | _ => grantTo s core rest

def grantBank (s : State) (core : Nat) : State :=
  match (coreOf s core).bank with
  | none => grantTo s core (coreOf s core).waiters
  | some _ => s

def releaseBank (s : State) (core : Nat) : State := grantBank (modCore s core (fun k => { k with bank := none })) core

/-- The traps that a split holds undelivered, as their records carry them: those pending, and one that waits for the bank after its delivery (R190). -/
def Split.undelivered (p : Split) : List TrapInfo :=
  (p.pending ++ (match p.state with
    | .parked (.bank t) _ => if t.async then [t] else []
    | _ => [])).map (fun t => { t with async := true, value := if t.async then t.value else p.pc })

/-- A list with some records before the last that passes a test, or at the end where none does. -/
def aheadOf {α : Type} (p : α → Bool) (new l : List α) : List α :=
  let later := (l.reverse.takeWhile (fun a => !p a)).reverse
  if l.any p then l.take (l.length - later.length - 1) ++ new ++ l.drop (l.length - later.length - 1) else l ++ new

/-- A halted group posts its traps in issue order, ahead of the record of KIND 8 that reports the halt, once the homes have answered all its accesses
(R190, R460). -/
def postHeld (s : State) (g : GroupId) : State :=
  match wgFind s g.wg, groupFind s g with
  | some w, some gr =>
    let all := ((List.range gr.splits.length).zip gr.splits).flatMap (fun e => e.2.pending.map (fun t => (e.1, t)))
    if !gr.halted || all.isEmpty || s.flights.any (fun f => groupOf f.x == g && !f.answered) then s
    else
      let records := (sortBy (fun a b => a.2.seq ≤ b.2.seq) all).map (fun e => recordTrap w g.grp e.1 e.2 e.2.inHandler)
      let report (r : List Byte) : Bool := numAt r 0 4 == placeHandle w g.grp && numAt r 5 1 == 8
      modRegion (modGroup s g (fun gr => { gr with splits := gr.splits.map (fun p => { p with pending := [] }) })) w.region
        (fun r => { r with fqWaiting := aheadOf report records r.fqWaiting })
  | _, _ => s

/-- A group halts (R40, R241): it frees the bank if it holds it, its workgroup stops (R352), and the traps that halt it are posted with those that it
holds undelivered (R190). -/
def haltGroup (s : State) (x : SplitId) (own : List TrapInfo) (inHandler : Bool) : State :=
  match ctxOf s x with
  | none => s
  | some c =>
    let mine (k : Nat) : List TrapInfo := if k = x.slot then own.map (fun t => { t with inHandler := inHandler }) else []
    let s1 := modGroup s (groupOf x) (fun g => { g with
      halted := true, handler := none,
      splits := ((List.range g.splits.length).zip g.splits).map (fun e =>
        { (if e.2.live then { e.2 with state := .halted, wait := .none, markWait := false } else e.2) with pending := e.2.undelivered ++ mine e.1 }) })
    let s2 := postHeld (faultStop s1 x.wg x.grp 9 0) (groupOf x)
    match c.core.bank with
    | some y => if y.wg = x.wg ∧ y.grp = x.grp then releaseBank s2 c.w.core else s2
    | none => s2

/-- A trap at a split: it is taken, waits for the bank, or is posted and halts the group (R40, R241). -/
def takeTrap (s : State) (x : SplitId) (t : TrapInfo) : State :=
  match ctxOf s x with
  | none => s
  | some c =>
    if c.g.handler.isSome then haltGroup s x [t] true
    else if handlerOf s c.r = 0 && !(s.debugger && t.code == 12) then haltGroup s x [t] false
    else if c.core.bank.isSome then
      modCore (modSplit s x (fun p => { p with state := .parked (.bank t) (cycleOf s c), markWait := false })) c.w.core
        (fun k => { k with waiters := k.waiters ++ [x] })
    else enterHandler s x t (handlerRun s t)

/-- A word stops being the one that issues; every draw after it is fresh. -/
def endIssue (s : State) : State := { s with issue := none, draw := s.draw + 1 }

/-- A precise trap at the issuing word. -/
def preciseTrap (s : State) (c : Ctx) (code detail lane : Nat) (value : DWord) : State :=
  endIssue (takeTrap s c.x { code := code, detail := detail, lane := lane, value := value, pc := c.p.pc, async := false, seq := s.nextId })

/-- A `bar` or a `join` has issued, and its wait outlasts a trap that is delivered there; at a park point the instruction executes again (R52, R142, R206). -/
def ParkReason.rests : ParkReason → Option ParkReason
  | .bar => some .bar
  | .join record token => some (.join record token)
  | _ => none

/-- An asynchronous trap delivered at a boundary: `resume` is the word the split would issue next (R189, R245). Every other pending
trap of the split is posted. -/
def deliverAsync (s : State) (x : SplitId) (resume : DWord) : State :=
  match ctxOf s x with
  | none => s
  | some c =>
    match c.p.pending.map (fun t => { t with async := true, value := resume }) with
    | [] => s
    | first :: others =>
      let s1 := modSplit s x (fun p => { p with pending := [], resting := match p.state with | .parked why _ => why.rests | _ => none })
      if c.g.handler.isSome || handlerOf s c.r = 0 then haltGroup s1 x (first :: others) c.g.handler.isSome
      else takeTrap (others.foldl (fun s t => postTrap s x t false) s1) x first

/-! ## Loops (R135 to R137) -/

/-- The update of R136 at a word: the levels and the next address. -/
def loopUpdate (loops : List LoopLevel) (pc : DWord) : List LoopLevel × DWord :=
  match loops with
  | [] => ([], pc + 8)
  | inner :: outer =>
    if inner.last ≠ pc then (loops, pc + 8)
    else if inner.count - 1 ≠ 0 then ({ inner with count := inner.count - 1 } :: outer, inner.start)
    else match outer with
      | [] => ([], pc + 8)
      | o :: rest =>
        if o.last ≠ pc then (o :: rest, pc + 8)
        else if o.count - 1 ≠ 0 then ({ o with count := o.count - 1 } :: rest, o.start)
        else (rest, pc + 8)

/-- The levels that a transfer of control leaves (R137). -/
def loopLeave (loops : List LoopLevel) (pc target : DWord) : List LoopLevel :=
  match loops with
  | [] => []
  | l :: rest =>
    let within (a : DWord) : Bool := l.start.toNat ≤ a.toNat && a.toNat ≤ l.last.toNat
    if within pc && !within target then loopLeave rest pc target else l :: loopLeave rest pc target

/-! ## The run of a word (R103 to R105) -/

/-- Where a word that has issued goes on. -/
inductive Go where
  | next
  | jump (target : DWord) (taken : Bool)
  deriving DecidableEq, Repr

/-- What a word does after its decode checks: it issues, traps, parks at itself, or has not issued. -/
inductive Act where
  | done (s : State) (go : Go)
  | trap (code detail lane : Nat) (value : DWord)
  | park (s : State) (why : ParkReason)
  | wait (s : State)

/-- Who may run a word (R59, R101). -/
inductive Priv where
  | any | super | never | handler
  deriving DecidableEq, Repr

/-- The units and counters that a word needs room in (R55, R56, R181, R231). -/
structure Needs where
  path : Option Nat := none
  future : Bool := false
  special : Bool := false
  matrix : Bool := false
  deriving DecidableEq, Repr

/-- A register-index check of R97: a vector register, or a tile. -/
inductive IndexCheck where
  | vec (n : Nat)
  | tile (n : Nat)
  deriving DecidableEq, Repr

/-- The first offending number (R105). -/
def indexFault (c : Ctx) (checks : List IndexCheck) : Option Nat :=
  match checks with
  | [] => none
  | .vec n :: rest => if c.vcnt ≤ n && !(c.handler && 120 ≤ n && n ≤ 127) then some n else indexFault c rest
  | .tile n :: rest => if c.tiles ≤ n then some n else indexFault c rest

/-- The word of an instruction as a trap value. -/
def wordOf (i : Instr) : DWord := (encode i).getD 0

/-- The trap of an illegal word (R105). -/
def Act.illegal (i : Instr) : Act := .trap 1 0 127 (wordOf i)

/-- What a word is before it runs: its instruction, marker, privilege, index checks and needs. -/
structure Form where
  instr : Instr
  mark : Bool
  priv : Priv := .any
  checks : List IndexCheck := []
  needs : Needs := {}
  deriving DecidableEq, Repr

def privOk (c : Ctx) : Priv → Bool
  | .any => true
  | .super => c.super
  | .never => false
  | .handler => c.handler

/-- Items 2 to 4 of R103: the trap of a word that is not to run. -/
def decodeTrap (c : Ctx) (f : Form) : Option (Nat × DWord) :=
  if !f.instr.wellFormed then some (1, wordOf f.instr)
  else if !privOk c f.priv then some (2, wordOf f.instr)
  else match indexFault c f.checks with
    | some n => some (3, BitVec.ofNat 64 (n % 128))
    | none => none

/-- The units and counters have room. -/
def roomFor (c : Ctx) (n : Needs) : Bool :=
  (match n.path with | none => true | some k => pathOf c.g k < 255) &&
  (!n.future || (c.g.futures.filter (fun f => f.outstanding)).length < 64) &&
  (!n.special || c.core.special.length < 4)

/-- The matrix queue of a core (R231). -/
def matrixQueue (s : State) (core : Nat) : List MxCmd := s.commands.filter (fun m => m.core == core && !m.started)

/-- The shadows of a split after one more of its instructions. -/
def ageShadows (sh : List Shadow) : List Shadow :=
  sh.filterMap (fun e => match e.left with
    | none => some e
    | some n => if n ≤ 1 then none else some { e with left := some (n - 1) })

/-- The split after a word has issued. -/
def advance (p : Split) (pc : DWord) (mark : Bool) (go : Go) (cycle : Nat) : Split :=
  let after := match go with
    | .next => loopUpdate p.loops pc
    | .jump t _ => (p.loops, t)
  let later := match go with
    | .jump _ true => cycle + 2
    | _ => 0
  { p with pc := after.2, loops := after.1, shadows := ageShadows p.shadows, markWait := mark, boundary := false, wait := .none, refused := none,
           resumeAt := later, readySince := none }

/-- A word has issued. -/
def settle (s : State) (c : Ctx) (mark : Bool) (go : Go) : State :=
  endIssue (modSplit s c.x (fun p => advance p c.p.pc mark go (columnOf s c.w.column).cycle))

/-- A split parks at its word, which re-executes when the condition clears (R52). -/
def parkAt (s : State) (c : Ctx) (why : ParkReason) : State :=
  endIssue (modCore (modSplit s c.x (fun p => { p with state := .parked why (cycleOf s c), readySince := none })) c.w.core (fun k => unfused k (· == c.x)))

/-- What becomes of a word. -/
def finish (s : State) (c : Ctx) (mark : Bool) (a : Act) : State :=
  match a with
  | .done s' go => settle s' c mark go
  | .trap code detail lane value => preciseTrap s c code detail lane value
  | .park s' why => parkAt s' c why
  | .wait s' => endIssue s'

/-- Run a word: the checks of R103 in order, then its own effect. A word whose page fault the driver refused traps first (R256). -/
def runWord (s : State) (f : Ctx → Form) (body : State → Ctx → Act) : Host.Outcome State Fault Refusal :=
  match issuing s with
  | none => .fault .noIssuingSplit
  | some c =>
    match c.p.refused with
    | some (va, l) => .next (preciseTrap s c 5 9 l va)
    | none =>
      match decodeTrap c (f c) with
      | some (code, value) => .next (preciseTrap s c code 0 127 value)
      | none =>
        if !roomFor c (f c).needs || ((f c).needs.matrix && 8 ≤ (matrixQueue s c.w.core).length) then .next (endIssue s)
        else .next (finish s c (f c).mark (body s c))

/-- An event: its effect where it can happen. -/
def event (name : String) (r : Option State) : Host.Outcome State Fault Refusal :=
  match r with
  | some s => .next s
  | none => .refused (.notEnabled name)

/-! ## The return from a handler (R248) -/

/-- `rett`: the group's parked splits start their parks afresh (R296), and the split resumes at TRAPPC, or at TRAPVAL after an asynchronous trap, once the
`bar` or `join` that it rests in lets it go on; a misaligned address traps in handler mode. -/
def returnFromTrap (i : Instr) (s : State) (c : Ctx) : Act :=
  let back := if bitsAt (c.p.trapCause.zeroExtend 64) 31 1 = 1 then c.p.trapVal else c.p.trapPc
  if !c.handler then .illegal i
  else if back.toNat % 8 ≠ 0 then .trap 4 0 127 back
  else
    let afresh (p : Split) : Split := match p.state with
      | .parked why _ => { p with state := .parked why (cycleOf s c) }
      | _ => p
    let s1 := modGroup s (groupOf c.x) (fun g => { g with handler := none, splits := g.splits.map afresh })
    let s2 := modSplit s1 c.x (fun p => { p with resting := none, state := match p.resting with | some why => .parked why (cycleOf s c) | none => p.state })
    .done (releaseBank s2 c.w.core) (.jump back false)

end Sys2Proof.Machine
end

