-- ==== Sys2Proof/Machine/Operands.lean ====
section
/-! DEFINITION. Operand forms: scalar operands, routed vector sources, elements, the hold latch and bank conflicts, shadow lengths,
and the results that arrive later (R25 to R31, R48, R50, R60, R93, R116 to R124, R147, R148). -/

namespace Sys2Proof.Machine

/-- What a meaning answers. -/
abbrev Result := Host.Outcome State Fault Refusal

/-! ## Scalar operands (R93, R125) -/

/-- W of R125. -/
def sWidth (f : SF) : Nat := if f.pair then 64 else 32

/-- A scalar, or a pair, as a number. -/
def Ctx.scalar (c : Ctx) (pair : Bool) (n : Nat) : Nat := if pair then c.pair n else (c.s n).toNat

/-- Write a scalar, or a pair. -/
def writeScalar (s : State) (c : Ctx) (pair : Bool) (n v : Nat) : State := if pair then writePair s c n v else writeS s c n v

/-- IMM32 as an operand of `w` bits (R92). -/
def immAt (f : SF) (w : Nat) : Nat := wrap w (signed 32 f.imm.toNat)

/-- The first operand a. -/
def opA (f : SF) (c : Ctx) : Nat := c.scalar f.pair f.sa.toNat

/-- The second operand b. -/
def opB (f : SF) (c : Ctx) : Nat := if f.sb = 0 then immAt f (sWidth f) else c.scalar f.pair f.sb.toNat

/-- What SD holds before the word. -/
def oldD (f : SF) (c : Ctx) : Nat := c.scalar f.pair f.sd.toNat

/-! ## Routes (R116 to R120) -/

/-- The source lane of each reading lane. -/
def Ctx.sourceLane (c : Ctx) (rt : Route) : Nat → Int :=
  match rt with
  | .identity => fun l => l
  | .rot32 n => fun l => (l / 32 * 32 + (l % 32 + n.toNat) % 32 : Nat)
  | .rot96 n => fun l => ((l + n.toNat) % 96 : Nat)
  | .beatShift two => fun l => ((l + (if two then 64 else 32)) % 96 : Nat)
  | .bcast32 n => fun l => (l / 32 * 32 + n.toNat : Nat)
  | .bcast96 q => let k := (c.s q.toNat).toNat; fun _ => k
  | .butterfly n => fun l => (l ^^^ n.toNat : Nat)
  | .indexed m x =>
    let xs := c.xr x.toNat
    fun l =>
      let t := (lane xs l).toNat % 65536
      match m with
      | .ix => t
      | .ixb => if t < 32 then (l / 32 * 32 + t : Nat) else -1
      | .ixo => l + signed 16 t

/-- The lanes that a route may read. -/
def Ctx.readable (c : Ctx) : Mask := c.alive &&& (if c.rall then BitVec.allOnes 96 else c.triple 61)

/-- Src of R43: one register, read through a route by every lane. -/
def Ctx.src (c : Ctx) (n : Nat) (rt : Route) : Lanes :=
  let val := c.v n
  match rt with
  | .identity => val
  | rt =>
    let source := c.sourceLane rt
    let can := c.readable
    ofLanes (fun l =>
      let sl := source l
      if 0 ≤ sl ∧ sl < 96 ∧ has can sl.toNat then lane val sl.toNat else if c.fill then lane val l else 0)

/-- A vector source: its register, its route, and whether it is a pair (R118). -/
structure Src where
  reg : Nat
  route : Route := .identity
  wide : Bool := false
  deriving DecidableEq, Repr

def Src.regs (a : Src) : List Nat := if a.wide then [a.reg, a.reg + 1] else [a.reg]

/-- The values of a source in the 96 lanes. -/
def Ctx.take (c : Ctx) (a : Src) : List Nat :=
  let lo := c.src a.reg a.route
  if a.wide then
    let hi := c.src (a.reg + 1) a.route
    allLanes.map (fun l => (lane lo l).toNat + 2 ^ 32 * (lane hi l).toNat)
  else allLanes.map (fun l => (lane lo l).toNat)

/-! ## Elements (R60, R147) -/

def etWidth (et : Nat) : Nat := if etWide et then 64 else 32 / etCount et
def etSigned (et : Nat) : Bool := et == 0 || et == 2 || et == 4 || et == 6

/-- Element `i` of width `w`. -/
def elem (w v i : Nat) : Nat := v / 2 ^ (w * i) % 2 ^ w

/-- A lane of `n` elements of width `w`. -/
def pack (n w : Nat) (f : Nat → Nat) : Nat := (List.range n).foldl (fun acc i => acc + f i % 2 ^ w * 2 ^ (w * i)) 0

/-- `v` with element `i` replaced. -/
def setElem (w v i r : Nat) : Nat := v - elem w v i * 2 ^ (w * i) + r % 2 ^ w * 2 ^ (w * i)

/-- The operand of a list, by its place. -/
def arg (xs : List Nat) (k : Nat) : Nat := xs.getD k 0

/-- A function of elements on every element of the operands. -/
def perElem (et : Nat) (f : List Nat → Nat) (vals : List Nat) : Nat :=
  pack (etCount et) (etWidth et) (fun i => f (vals.map (fun v => elem (etWidth et) v i)))

/-- The 96 results of a function of the sources' lanes. -/
def lanewise (c : Ctx) (srcs : List Src) (f : List Nat → Nat) : List Nat :=
  let vals := srcs.map c.take
  allLanes.map (fun l => f (vals.map (fun v => v.getD l 0)))

/-! ## Shadows (R48, R122) -/

/-- The shadow a route adds. -/
def routeExtra : Route → Nat
  | .identity => 0
  | .rot32 _ => 0
  | .bcast32 _ => 0
  | .butterfly _ => 0
  | .rot96 _ => 1
  | .beatShift _ => 1
  | .bcast96 _ => 1
  | .indexed .ixb _ => 0
  | .indexed _ _ => 2

/-- A vector register of the slow partition; k0 to k7 are none of it. -/
def slowReg (c : Ctx) (n : Nat) : Bool := 96 ≤ n && vref c n == .v n

def shadowFor (c : Ctx) (base : Nat) (srcs : List Src) : Nat :=
  base + srcs.foldl (fun m a => max m (routeExtra a.route)) 0 + (if srcs.any (fun a => a.regs.any (slowReg c)) then 1 else 0)

/-! ## The hold latch and the vector pipe (R28, R30, R31, R47) -/

/-- A latch entry serves a register of a split. -/
def latched (c : Ctx) (n : Nat) : Bool := c.g.hold.any (fun h => h.regs.contains (vref c n) && h.slot == c.x.slot)

/-- Pairs of distinct registers read from one bank. -/
def bankPairs (regs : List Nat) : Nat :=
  match regs with
  | [] => 0
  | a :: r => (r.filter (fun b => a % 4 == b % 4 && (96 ≤ a : Bool) == (96 ≤ b : Bool))).length + bankPairs r

/-- The registers of the source that the H field captures: of a 64-bit operand, the pair. -/
def heldSource (h : Hold) (srcs : List Src) : List Nat :=
  match h with
  | .none => []
  | .a => (srcs.take 1).flatMap Src.regs
  | .b => ((srcs.drop 1).take 1).flatMap Src.regs
  | .c => ((srcs.drop 2).take 1).flatMap Src.regs

/-- How many cycles R124 adds to the window of a word that reads registers too early after a late result (R123). -/
def earlyBy (c : Ctx) (regs : List Nat) (cycle : Nat) : Nat :=
  (c.p.late.filter (fun e => (regs.map (vref c)).contains e.1)).foldl (fun m e => max m (e.2 - cycle)) 0

/-- What the routes of a word add to the time of its results beyond its shadow: the one cycle of class 1 (R122, R123). -/
def routeLag (srcs : List Src) : Nat :=
  if srcs.any (fun a => a.route != .identity) && srcs.all (fun a => routeExtra a.route == 0) then 1 else 0

/-- The latch after a vector instruction of a split has read its registers: an entry that serves is used up at its second service. -/
def servedHold (c : Ctx) (regs : List Nat) : List HoldEntry :=
  c.g.hold.filterMap (fun h =>
    if h.slot = c.x.slot ∧ h.regs.any (regs.map (vref c)).contains then (if h.left ≤ 1 then none else some { h with left := h.left - 1 }) else some h)

/-- A vector instruction reads its sources: latch entries serve and are used up, a source is captured, and the pipe is taken for its
windows. -/
def vectorIssue (s : State) (c : Ctx) (srcs : List Src) (hold : List Nat) (windows : Nat) : State :=
  let regs := (srcs.flatMap Src.regs).eraseDups
  let served := servedHold c regs
  let held := hold.map (vref c)
  let kept :=
    if held.isEmpty then served
    else
      let all := served ++ [{ regs := held, slot := c.x.slot, left := 2 }]
      all.drop (all.length - 3)
  let cycle := (columnOf s c.w.column).cycle
  let bank := regs.filter (fun n => !latched c n)
  modCore (modGroup s (groupOf c.x) (fun g => { g with hold := kept })) c.w.core
    (fun k => { k with pipeFree := cycle + 3 * windows + 3 * bankPairs bank + earlyBy c bank cycle, lag := routeLag srcs })

/-! ## Vector results -/

/-- Write 96 values to a vector register or pair in the lanes that Active() and the guard permit. -/
def writeVals (s : State) (c : Ctx) (d : Nat) (wide : Bool) (vals : List Nat) (shadow : Nat) : State :=
  let s1 := writeV s c d c.writes (vals.map (BitVec.ofNat 32)) shadow
  if wide then writeV s1 c (d + 1) c.writes (vals.map (fun v => BitVec.ofNat 32 (v / 2 ^ 32))) shadow else s1

/-- A lane-by-lane instruction: its sources, what it captures, its windows, its base shadow, its destination, and its function. -/
def vectorOp (s : State) (c : Ctx) (srcs : List Src) (hold : Hold) (windows base d : Nat) (wideD : Bool) (f : List Nat → Nat) : Act :=
  .done (writeVals (vectorIssue s c srcs (heldSource hold srcs) windows) c d wideD (lanewise c srcs f) (shadowFor c base srcs)) .next

/-- A lane-by-lane test that writes a predicate: COMB 0 sets, 1 ANDs, 2 ORs (R155). -/
def predicateOp (s : State) (c : Ctx) (srcs : List Src) (hold : Hold) (base p comb : Nat) (f : List Nat → Bool) : Act :=
  let vals := srcs.map c.take
  let t := ofMask (fun l => f (vals.map (fun v => v.getD l 0)))
  let old := c.pr p
  let new := if comb = 0 then t else if comb = 1 then old &&& t else old ||| t
  .done (writeP (vectorIssue s c srcs (heldSource hold srcs) 1) c p c.writes new (shadowFor c base srcs)) .next

/-- The ET check, then the odd-register check of operands that are pairs because of ET (R103, R147, R164). -/
def etGate (i : Instr) (c : Ctx) (accept : Bool) (operands : List Nat) (a : Act) : Act :=
  if !accept then .illegal i else if etWide c.et && operands.any (fun n => n % 2 == 1) then .illegal i else a

/-! ## The register fields of a word, from bit 53 down (R97, R105) -/

def v3Checks (f : V3) (n : Nat) : List IndexCheck := [.vec f.d.toNat, .vec f.a.toNat, .vec f.b.toNat, .vec f.c.toNat].take (n + 1)
def v2Checks (f : V2I) (n : Nat) : List IndexCheck := [.vec f.d.toNat, .vec f.a.toNat, .vec f.b.toNat].take (n + 1)
def v2Reads (f : V2I) (n : Nat) : List IndexCheck := [.vec f.a.toNat, .vec f.b.toNat].take n

/-- The word of a scalar instruction. -/
def sForm (i : Instr) (f : SF) : Form := { instr := i, mark := f.mark }
def bForm (i : Instr) (f : BF) : Form := { instr := i, mark := f.mark }
def v3Form (i : Instr) (f : V3) (n : Nat) : Form := { instr := i, mark := f.mark, checks := v3Checks f n }
def v2Form (i : Instr) (f : V2I) (n : Nat) : Form := { instr := i, mark := f.mark, checks := v2Checks f n }
def v2ReadForm (i : Instr) (f : V2I) (n : Nat) : Form := { instr := i, mark := f.mark, checks := v2Reads f n }

/-! ## Results that arrive later (R50) -/

/-- A flight of a split with nothing in it. -/
def Flight.new (s : State) (c : Ctx) (kind : FlightKind) : Flight :=
  { id := s.nextId, x := c.x, pc := c.p.pc, seq := s.nextId, kind := kind, path := none, at_ := stampOf s, since := stampOf s, strong := 0,
    acquire := 0, release := 0, presented := false, floors := c.p.floors, sfloors := c.p.sfloors, parts := [], dests := [], readyAt := 0, written := false, dropped := false, answered := true,
    trap := none }

/-- Put a flight in the air: its split waits for it at the next marked word. -/
def addFlight (s : State) (f : Flight) : State :=
  modSplit { s with nextId := s.nextId + 1,
                    flights := s.flights ++ [{ f with dests := ((List.range f.dests.length).zip f.dests).map (fun e => { e.2 with word := e.1, slot := f.x.slot }) }] }
    f.x (fun p => { p with await := p.await ++ [f.id] })

/-- A destination of a later result. -/
def destOf (r : RegRef) (mask : Mask) (v : Image) : Dest := { reg := r, word := 0, slot := 0, mask := mask, clobbered := 0, value := v }

/-- A scalar that is written later; s0 discards it. -/
def destScalar (c : Ctx) (n v : Nat) : List Dest := if n = 0 then [] else [destOf (sref c n) 1 (.word (BitVec.ofNat 32 v))]

/-- A scalar, or a pair, that is written later. -/
def destScalars (c : Ctx) (pair : Bool) (n v : Nat) : List Dest :=
  if pair then destScalar c n v ++ destScalar c (n + 1) (v / 2 ^ 32) else destScalar c n v

/-- A later result whose value is already fixed. -/
def laterResult (s : State) (c : Ctx) (dests : List Dest) (readyAt : Nat) : State :=
  addFlight s { Flight.new s c .value with dests := dests, readyAt := readyAt }

end Sys2Proof.Machine
end

