-- ==== Sys2Proof/Machine/Fetch.lean ====
section
/-! DEFINITION. The fetch of a split's word (R88, R89, R103, R294, R358, R428). -/

namespace Sys2Proof.Machine

/-- How a fetch ends: a word, a trap with its code and detail, a page that is not present, or a home that cannot serve it yet. -/
inductive FetchEnd where
  | word (w : DWord)
  | fault (code detail : Nat)
  | absent
  | busy
  deriving DecidableEq, Repr

/-- The block of eight words and the word in it at which a split stands. -/
def blockOf (p : Split) : Nat := p.pc.toNat / 64
def wordInBlock (p : Split) : Nat := p.pc.toNat / 8 % 8

/-- The fetch of a split's core that is to give the split its word (R294). -/
def fetchFor (s : State) (c : Ctx) : Option Fetch :=
  firstWith (fun f => f.space == c.r.space && f.block == blockOf c.p && f.due.any (fun d => d.1 == c.x && d.2 / 2 ^ wordInBlock c.p % 2 == 1))
    (coreOf s c.w.core).fetches

/-- The word of memory that a fetch returns: as it stands when it is fetched or, one choice for each fetch, as it stood before a write made since the
workgroup was placed (R89). -/
def fetchedBytes (s : State) (c : Ctx) (pa : Nat) : List Byte :=
  let k := coreOf s c.w.core
  let f := (fetchFor s c).map (fun f => (f.number, f.at_))
  let time := (f.map (·.2)).getD (stampOf s)
  let olds := ((s.former.filter (fun e => c.w.born < e.at_ && e.at_ ≤ time && e.addr < pa + 8 && pa < e.addr + e.bytes.length)).map (fun e => e.at_ - 1)).reverse
  if olds.isEmpty then bytesAt s pa 8 time
  else bytesAt s pa 8 ((time :: olds).getD
    (Config.choice (c.w.core + 768 * ((f.map (·.1)).getD k.fetchNo)) (7000000 + wordInBlock c.p) % (olds.length + 1)) time)

/-- Fetch the word at a split's pc, by the home agent. -/
def fetchWord (s : State) (c : Ctx) : State × FetchEnd :=
  match translate s c.w.column c.r.space c.p.pc false 0 with
  | none => (s, .busy)
  | some (s1, w) =>
    match pageCheck (rightsOf s1 c.r c.super) .fetch c.p.pc w with
    | some _ => (s1, .fault 5 8)
    | none =>
      match w with
      | .leaf e _ bits =>
        let pa (s : State) : Nat := swapPa s (leafPa e bits c.p.pc)
        match (touchPage s1 c.w.column c.r.space c.p.pc w false).bind (fun s2 => homeRead s2 (pa s2) 8) with
        | none => (s1, .busy)
        | some (s3, _, bad) =>
          if bad then (s3, .fault 6 0) else (s3, .word (BitVec.ofNat 64 (numOf (keyed s3 (pa s3) (pteKey e) (fetchedBytes s3 c (pa s3))))))
      | _ => (s1, .absent)

/-- A split of a core that stands at a word of a block. -/
def standsAt (g : Group) (p : Split) (block : Nat) : Bool :=
  p.live && p.state == .running && !g.halted && g.residence == .core && blockOf p == block

/-- The splits of a core that stand at a block of a space. -/
def fusedSet (s : State) (core space block : Nat) : List SplitId :=
  (s.wgs.filter (fun w => w.core == core && ((regionFind s w.region).map Region.space) == some space)).flatMap (fun w =>
    ((List.range w.groups.length).zip w.groups).flatMap (fun g =>
      (((List.range g.2.splits.length).zip g.2.splits).filter (fun p => standsAt g.2 p.2 block)).map (fun p => { wg := w.id, grp := g.1, slot := p.1 })))

/-- A split takes its word: from the block that was fetched for its set, or from a block fetched now, for every split that stands at it (R294). -/
def noteFetch (s : State) (c : Ctx) : State :=
  let k := coreOf s c.w.core
  let fresh : List Fetch := match fetchFor s c with
    | some _ => []
    | none => [{ space := c.r.space, block := blockOf c.p, number := k.fetchNo, at_ := stampOf s,
                 due := (fusedSet s c.w.core c.r.space (blockOf c.p)).map (fun x => (x, 255)) }]
  let mine := (fetchFor s c).getD (fresh.headD { space := 0, block := 0, number := 0, at_ := 0, due := [] })
  let took (f : Fetch) : Fetch :=
    { f with due := f.due.filterMap (fun d =>
        if d.1 ≠ c.x then some d
        else if f.number ≠ mine.number then none
        else some (d.1, d.2 &&& (255 - 2 ^ wordInBlock c.p))) }
  modCore s c.w.core (fun k => { k with
    fetches := ((k.fetches ++ fresh).map took).filter (fun f => f.due.any (fun d => d.2 != 0)), fetchNo := k.fetchNo + fresh.length })

/-- The instruction that a split stands at, where its word can be fetched and decoded. -/
def peek (s : State) (c : Ctx) : Option Instr :=
  match (fetchWord s c).2 with
  | .word w => (decode w).toOption
  | _ => none

end Sys2Proof.Machine
end

