-- ==== Sys2Proof/Machine/VectorInt.lean ====
section
/-! DEFINITION. Vector integer and bit words (R147 to R163), and the index words (R37, R214, R215). -/

namespace Sys2Proof.Machine

/-! ## The common form (R147, R148) -/

/-- The sources of a V3 word under the ET in force, first `n` of them. -/
def v3Srcs (f : V3) (n : Nat) (wide : Bool) : List Src :=
  [{ reg := f.a.toNat, route := f.ra, wide := wide }, { reg := f.b.toNat, route := f.rb, wide := wide },
   { reg := f.c.toNat, route := f.rc, wide := wide }].take n

def v2Srcs (f : V2I) (n : Nat) (wide : Bool) : List Src :=
  [{ reg := f.a.toNat, route := f.ra, wide := wide }, { reg := f.b.toNat, route := f.rb, wide := wide }].take n

/-- D as a source, unrouted. -/
def dSrc (d : Nat) (wide : Bool) : Src := { reg := d, wide := wide }

/-- The vector fields of a V3 word that are operands, D first. -/
def v3Regs (f : V3) (n : Nat) : List Nat := [f.d.toNat, f.a.toNat, f.b.toNat, f.c.toNat].take (n + 1)
def v2Regs (f : V2I) (n : Nat) : List Nat := [f.d.toNat, f.a.toNat, f.b.toNat].take (n + 1)

/-- A V3 word of `n` sources, element by element. -/
def v3Word (i : Instr) (f : V3) (n base : Nat) (accept : Nat → Bool) (fn : Ctx → List Nat → Nat) (s : State) : Result :=
  runWord s (fun _ => v3Form i f n) (fun s c =>
    let wide := etWide c.et
    etGate i c (accept c.et) (v3Regs f n) (vectorOp s c (v3Srcs f n wide) f.hold 1 base f.d.toNat wide (perElem c.et (fn c))))

/-- Element types 0 to 7, and every element type. -/
def intEt (et : Nat) : Bool := et ≤ 7
def anyEt (et : Nat) : Bool := et ≤ 11

/-- An element as the signed or unsigned integer of the ET in force. -/
def Ctx.int (c : Ctx) (v : Nat) : Int := elemInt (etWidth c.et) (etSigned c.et) v

/-- R61 under the ET and MODE in force. -/
def Ctx.fit (c : Ctx) (v : Int) : Nat := narrow (etWidth c.et) (etSigned c.et) c.sat v

/-- W of R147. -/
def Ctx.ew (c : Ctx) : Nat := etWidth c.et

/-! ## Arithmetic (R150) -/

/-- R150: a + b. -/
def execVadd (f : V3) (s : State) : Result := v3Word (.vadd f) f 2 1 intEt (fun c x => c.fit (c.int (arg x 0) + c.int (arg x 1))) s

/-- R150: a − b. -/
def execVsub (f : V3) (s : State) : Result := v3Word (.vsub f) f 2 1 intEt (fun c x => c.fit (c.int (arg x 0) - c.int (arg x 1))) s

/-- R150: a × b. -/
def execVmul (f : V3) (s : State) : Result := v3Word (.vmul f) f 2 2 intEt (fun c x => c.fit (c.int (arg x 0) * c.int (arg x 1))) s

/-- R150: the high half of the product. -/
def execVmulh (f : V3) (s : State) : Result := v3Word (.vmulh f) f 2 2 intEt (fun c x => wrap c.ew (c.int (arg x 0) * c.int (arg x 1) / (2 : Int) ^ c.ew)) s

/-- R150: a × b + c, narrowed once. -/
def execVmad (f : V3) (s : State) : Result := v3Word (.vmad f) f 3 2 intEt (fun c x => c.fit (c.int (arg x 0) * c.int (arg x 1) + c.int (arg x 2))) s

/-- R150: the lesser. -/
def execVmin (f : V3) (s : State) : Result := v3Word (.vmin f) f 2 1 intEt (fun c x => if c.int (arg x 0) ≤ c.int (arg x 1) then (arg x 0) else (arg x 1)) s

/-- R150: the greater. -/
def execVmax (f : V3) (s : State) : Result := v3Word (.vmax f) f 2 1 intEt (fun c x => if c.int (arg x 0) ≤ c.int (arg x 1) then (arg x 1) else (arg x 0)) s

/-- R150: the magnitude. -/
def execVabs (f : V3) (s : State) : Result := v3Word (.vabs f) f 1 1 intEt (fun c x => c.fit (c.int (arg x 0)).natAbs) s

/-- R150: 0 − a. -/
def execVneg (f : V3) (s : State) : Result := v3Word (.vneg f) f 1 1 intEt (fun c x => c.fit (0 - c.int (arg x 0))) s

/-! ## Bitwise, shift, count and move (R153, R157) -/

/-- R153: AND. -/
def execVand (f : V3) (s : State) : Result := v3Word (.vand f) f 2 1 anyEt (fun _ x => (arg x 0) &&& (arg x 1)) s

/-- R153: OR. -/
def execVor (f : V3) (s : State) : Result := v3Word (.vor f) f 2 1 anyEt (fun _ x => (arg x 0) ||| (arg x 1)) s

/-- R153: XOR. -/
def execVxor (f : V3) (s : State) : Result := v3Word (.vxor f) f 2 1 anyEt (fun _ x => (arg x 0) ^^^ (arg x 1)) s

/-- R153: AND NOT. -/
def execVandn (f : V3) (s : State) : Result := v3Word (.vandn f) f 2 1 anyEt (fun c x => (arg x 0) &&& (2 ^ c.ew - 1 - (arg x 1))) s

/-- R153: NOT. -/
def execVnot (f : V3) (s : State) : Result := v3Word (.vnot f) f 1 1 anyEt (fun c x => 2 ^ c.ew - 1 - (arg x 0)) s

/-- R153: shift left. -/
def execVshl (f : V3) (s : State) : Result := v3Word (.vshl f) f 2 1 anyEt (fun c x => shl c.ew (arg x 0) (arg x 1)) s

/-- R153: logical shift right. -/
def execVshr (f : V3) (s : State) : Result := v3Word (.vshr f) f 2 1 anyEt (fun c x => shr c.ew (arg x 0) (arg x 1)) s

/-- R153: arithmetic shift right. -/
def execVsar (f : V3) (s : State) : Result := v3Word (.vsar f) f 2 1 anyEt (fun c x => sar c.ew (arg x 0) (arg x 1)) s

/-- R153: rotation. -/
def execVrot (f : V3) (s : State) : Result := v3Word (.vrot f) f 2 1 anyEt (fun c x => rot c.ew (arg x 0) (arg x 1)) s

/-- R153: set bits. -/
def execVpopc (f : V3) (s : State) : Result := v3Word (.vpopc f) f 1 1 anyEt (fun c x => popCount c.ew (arg x 0)) s

/-- R153: leading zeros. -/
def execVclz (f : V3) (s : State) : Result := v3Word (.vclz f) f 1 1 anyEt (fun c x => clz c.ew (arg x 0)) s

/-- R153: trailing zeros. -/
def execVctz (f : V3) (s : State) : Result := v3Word (.vctz f) f 1 1 anyEt (fun c x => ctz c.ew (arg x 0)) s

/-- R153: FindNth. -/
def execVfns (f : V3) (s : State) : Result := v3Word (.vfns f) f 2 1 anyEt (fun c x => findNth c.ew (arg x 0) (arg x 1)) s

/-- R153: bit reversal. -/
def execVbrev (f : V3) (s : State) : Result := v3Word (.vbrev f) f 1 1 anyEt (fun c x => bitRev c.ew (arg x 0)) s

/-- R157: the whole lane or pair, routed. -/
def execVmov (f : V3) (s : State) : Result := v3Word (.vmov f) f 1 1 anyEt (fun _ x => (arg x 0)) s

/-- k of R151, as a lane or pair of the ET in force. -/
def immLane (et : Nat) (imm : Word) : Nat :=
  if et = 2 then wrap 64 (signed 32 imm.toNat) else if et = 9 then imm.toNat * 2 ^ 32 else imm.toNat

/-- R150, R151: a + k. -/
def execVaddi (f : VI) (s : State) : Result :=
  runWord s (fun _ => { instr := .vaddi f, mark := f.mark, checks := [.vec f.d.toNat, .vec f.a.toNat] }) (fun s c =>
    let wide := etWide c.et
    let k := immLane c.et f.imm
    etGate (.vaddi f) c (intEt c.et) [f.d.toNat, f.a.toNat]
      (vectorOp s c [{ reg := f.a.toNat, route := f.ra, wide := wide }] .none 1 1 f.d.toNat wide
        (fun v => perElem c.et (fun x => c.fit (c.int (arg x 0) + c.int (arg x 1))) [arg v 0, k])))

/-- R151: the immediate. -/
def execVmovi (f : VI) (s : State) : Result :=
  runWord s (fun _ => { instr := .vmovi f, mark := f.mark, checks := [.vec f.d.toNat] }) (fun s c =>
    let wide := etWide c.et
    etGate (.vmovi f) c (anyEt c.et) [f.d.toNat] (vectorOp s c [] .none 1 1 f.d.toNat wide (fun _ => immLane c.et f.imm)))

/-- The widened products of R152: the pair as one number. -/
def wideProducts (et a b : Nat) : Nat :=
  let w := etWidth et
  pack (etCount et) (2 * w) (fun i => wrap (2 * w) (elemInt w (etSigned et) (elem w a i) * elemInt w (etSigned et) (elem w b i)))

/-- R152: the exact products, widened, to a pair. -/
def execVmulw (f : V3) (s : State) : Result :=
  runWord s (fun _ => v3Form (.vmulw f) f 2) (fun s c =>
    etGate (.vmulw f) c (intEt c.et && !etWide c.et) []
      (vectorOp s c (v3Srcs f 2 false) f.hold 1 2 f.d.toNat true (fun v => wideProducts c.et (arg v 0) (arg v 1))))

/-! ## Bit fields (R154) -/

/-- A bit-field word: every element with the field of the immediate, or of the lane's register B. -/
def bitFieldWord (i : Instr) (f : V2I) (readD : Bool) (fn : Nat → Nat → Nat → Nat → Nat → Nat) (s : State) : Result :=
  let fromB := field f.imm 14 1 == 1
  runWord s (fun _ => v2Form i f (if fromB then 2 else 1)) (fun s c =>
    let wide := etWide c.et
    let srcA : Src := { reg := f.a.toNat, route := f.ra, wide := wide }
    let srcB : Src := { reg := f.b.toNat, route := f.rb }
    let srcs := srcA :: ((if fromB then [srcB] else []) ++ (if readD then [dSrc f.d.toNat wide] else []))
    etGate i c (anyEt c.et) [f.d.toNat, f.a.toNat]
      (vectorOp s c srcs f.hold 1 1 f.d.toNat wide (fun v =>
        let b := arg v 1
        let pos := if fromB then fieldPos' b else field f.imm 0 6
        let wid := min (if fromB then b / 256 % 64 else field f.imm 6 7) c.ew
        let d := if readD then arg v (srcs.length - 1) else 0
        perElem c.et (fun x => fn c.ew (arg x 1) (arg x 0) pos wid) [arg v 0, d])))
where fieldPos' (b : Nat) : Nat := b % 64

/-- R154: Extract. -/
def execVbfx (f : V2I) (s : State) : Result := bitFieldWord (.vbfx f) f false (fun w _ a pos wid => bitExtract w a pos wid (field f.imm 13 1 == 1)) s

/-- R154: Insert. -/
def execVbfi (f : V2I) (s : State) : Result := bitFieldWord (.vbfi f) f true (fun w d a pos wid => bitInsert w d a pos wid) s

/-! ## Compare and select (R155, R156) -/

/-- R155: compare one element per lane into a predicate. -/
def execVcmp (f : V2I) (s : State) : Result :=
  runWord s (fun _ => v2ReadForm (.vcmp f) f 2) (fun s c =>
    let e := field f.imm 4 2
    etGate (.vcmp f) c (intEt c.et && e < etCount c.et) [f.a.toNat, f.b.toNat]
      (predicateOp s c (v2Srcs f 2 (etWide c.et)) f.hold 1 (field f.d 0 3) (field f.imm 6 2) (fun v =>
        condHolds c.ew (field f.imm 0 4) (elem c.ew (arg v 0) e) (elem c.ew (arg v 1) e))))

/-- R156: select by a predicate. -/
def execVsel (f : V2I) (s : State) : Result :=
  runWord s (fun _ => v2Form (.vsel f) f 2) (fun s c =>
    let wide := etWide c.et
    let srcs := v2Srcs f 2 wide
    let pm := c.pr (field f.imm 0 3)
    let a := c.take { reg := f.a.toNat, route := f.ra, wide := wide }
    let b := c.take { reg := f.b.toNat, route := f.rb, wide := wide }
    etGate (.vsel f) c (anyEt c.et) (v2Regs f 2)
      (.done (writeVals (vectorIssue s c srcs (heldSource f.hold srcs) 1) c f.d.toNat wide
        (allLanes.map (fun l => if has pm l then a.getD l 0 else b.getD l 0)) (shadowFor c 1 srcs)) .next))

/-! ## Conversion, packing (R158 to R160) -/

/-- R158: convert one element between integer types. -/
def execVcvt (f : V2I) (s : State) : Result :=
  let from_ := field f.imm 0 4
  runWord s (fun _ => v2Form (.vcvt f) f 1) (fun s c =>
    let wide := etWide c.et
    let packed := 1 < etCount c.et
    let del := field f.imm 6 2
    let srcs := ({ reg := f.a.toNat, route := f.ra, wide := etWide from_ } : Src) :: (if packed then [dSrc f.d.toNat false] else [])
    etGate (.vcvt f) c (intEt c.et && del < etCount c.et) [f.d.toNat]
      (vectorOp s c srcs f.hold 1 1 f.d.toNat wide (fun v =>
        let x := elemInt (etWidth from_) (etSigned from_) (elem (etWidth from_) (arg v 0) (field f.imm 4 2))
        let r := c.fit x
        if packed then setElem c.ew (arg v 1) del r else r)))

/-- R159: narrow the elements of two registers into one. -/
def execVpack (f : V2I) (s : State) : Result :=
  runWord s (fun _ => v2Form (.vpack f) f 2) (fun s c =>
    let w2 := 2 * c.ew
    let half := etCount c.et / 2
    let sgn := field f.imm 0 1 == 0
    etGate (.vpack f) c (4 ≤ c.et && c.et ≤ 7) []
      (vectorOp s c (v2Srcs f 2 false) f.hold 1 1 f.d.toNat false (fun v =>
        pack (etCount c.et) c.ew (fun i =>
          c.fit (elemInt w2 sgn (elem w2 (arg v (i / half)) (i % half)))))))

/-- R160: widen half of the elements. -/
def execVunpk (f : V2I) (s : State) : Result :=
  runWord s (fun _ => v2Form (.vunpk f) f 1) (fun s c =>
    let w2 := c.ew / 2
    let n := etCount c.et
    let half := field f.imm 0 1
    let sgn := field f.imm 1 1 == 0
    etGate (.vunpk f) c (c.et == 0 || c.et == 1 || c.et == 4 || c.et == 5) []
      (vectorOp s c (v2Srcs f 1 false) f.hold 1 1 f.d.toNat false (fun v =>
        pack n c.ew (fun i => wrap c.ew (elemInt w2 sgn (elem w2 (arg v 0) (n * half + i)))))))

/-! ## Between lanes and scalars (R161, R162) -/

/-- R161: broadcast a scalar. -/
def execVbcs (f : V2I) (s : State) : Result :=
  runWord s (fun _ => v2Form (.vbcs f) f 0) (fun s c =>
    let wide := etWide c.et
    let k := field f.a 0 6
    etGate (.vbcs f) c (anyEt c.et) [f.d.toNat, k]
      (let v := c.scalar wide k
       vectorOp s c [] .none 1 1 f.d.toNat wide (fun _ => v)))

/-- R162: read one lane into a scalar; a lane that may not be read gives zero. -/
def execVrdl (f : V2I) (s : State) : Result :=
  runWord s (fun _ => { instr := .vrdl f, mark := f.mark, checks := [.vec f.a.toNat] }) (fun s c =>
    let wide := etWide c.et
    let sd := field f.d 0 6
    let n := if field f.imm 14 1 = 0 then field f.imm 0 7 else (c.s (field f.imm 0 6)).toNat
    let src : Src := { reg := f.a.toNat, wide := wide }
    let v := if n < 96 ∧ has c.readable n then (c.take src).getD n 0 else 0
    let sh := shadowFor c 1 [src]
    let s1 := vectorIssue s c [src] (heldSource f.hold [src]) 1
    etGate (.vrdl f) c (anyEt c.et) [sd, f.a.toNat]
      (.done (if wide then writePair s1 c sd v sh else writeS s1 c sd v sh) .next))

/-! ## Index registers (R35 to R37, R214, R215) -/

/-- n of R37 in a lane. -/
def indexOf (c : Ctx) (x imm l : Nat) : Nat := (lane (c.xr x) l).toNat % 65536 + imm

/-- The bounds of XBND (R36). -/
def xbndLo (c : Ctx) : Nat := c.p.xbnd.toNat % 128
def xbndHi (c : Ctx) : Nat := c.p.xbnd.toNat / 256 % 128

/-- The lowest active lane whose n is out of bounds (R37). -/
def indexOut (c : Ctx) (x imm : Nat) : Option Nat :=
  firstWith (fun l => let n := indexOf c x imm l; n < xbndLo c || xbndHi c < n || c.vcnt ≤ n) (lanesOf c.active)

/-- The check of R37, then the effect. -/
def indexGate (c : Ctx) (x imm : Nat) (a : Act) : Act :=
  match indexOut c x imm with
  | some l => .trap 3 0 l (BitVec.ofNat 64 (indexOf c x imm l))
  | none => a

/-- A word that reads registers of its own in each beat: a beat takes one cycle more for each pair that it reads from one bank, and the hold latch serves
what it holds (R28, R30). -/
def indexedIssue (s : State) (c : Ctx) (beats : List (List Nat)) : State :=
  let regs := (beats.flatMap id).eraseDups
  let bank (b : List Nat) : List Nat := b.filter (fun n => !latched c n)
  let cycle := (columnOf s c.w.column).cycle
  modCore (modGroup s (groupOf c.x) (fun g => { g with hold := servedHold c regs })) c.w.core
    (fun k => { k with pipeFree := cycle + 3 + (beats.map (fun b => bankPairs (bank b))).sum + earlyBy c (bank regs) cycle, lag := 0 })

/-- R214: read v[x + imm]; no redirection in handler mode (R39). -/
def execRdx (f : V2I) (s : State) : Result :=
  runWord s (fun _ => v2Form (.rdx f) f 0) (fun s c =>
    let x := field f.a 0 3
    let imm := field f.imm 0 7
    let regs := ((lanesOf c.active).map (indexOf c x imm)).eraseDups
    let imgs := regs.map (fun n => (n, readLanes c (.v n)))
    let slow := if regs.any (96 ≤ ·) then 1 else 0
    indexGate c x imm (.done (writeV (indexedIssue s c ((List.range 3).map (fun b =>
        (((lanesOf c.active).filter (fun l => l / 32 == b)).map (indexOf c x imm)).eraseDups))) c f.d.toNat c.writes
      (ofLanes (fun l => lane (Table.get imgs (indexOf c x imm l) []) l)) (1 + slow)) .next))

/-- R214: write v[x + imm]; each register written is inside its shadow. -/
def execWrx (f : V2I) (s : State) : Result :=
  runWord s (fun _ => v2ReadForm (.wrx f) f 1) (fun s c =>
    let x := field f.d 0 3
    let imm := field f.imm 0 7
    let src : Src := { reg := f.a.toNat, route := f.ra }
    let v := c.src src.reg src.route
    let regs := ((lanesOf c.writes).map (indexOf c x imm)).eraseDups
    indexGate c x imm (.done (regs.foldl (fun s n =>
      writeReg s c (.v n) (ofMask (fun l => has c.writes l && indexOf c x imm l == n)) (.lanes v) (shadowFor c 1 [src]))
      (vectorIssue s c [src] (heldSource f.hold [src]) 1)) .next))

/-- R214: a half of each lane to an index register. -/
def execXset (f : V2I) (s : State) : Result :=
  runWord s (fun _ => v2ReadForm (.xset f) f 1) (fun s c =>
    let src : Src := { reg := f.a.toNat, route := f.ra }
    let v := c.src src.reg src.route
    let h := field f.imm 0 1
    .done (writeReg (vectorIssue s c [src] (heldSource f.hold [src]) 1) c (.x (field f.d 0 3)) c.writes
      (.lanes (ofLanes (fun l => BitVec.ofNat 32 ((lane v l).toNat / 2 ^ (16 * h) % 65536)))) (shadowFor c 1 [src])) .next)

/-- R214: an index register to a vector register, extended. -/
def execXget (f : V2I) (s : State) : Result :=
  runWord s (fun _ => v2Form (.xget f) f 0) (fun s c =>
    let xs := c.xr (field f.a 0 3)
    .done (writeV (vectorIssue s c [] [] 1) c f.d.toNat c.writes
      (ofLanes (fun l =>
        let t := (lane xs l).toNat % 65536
        BitVec.ofNat 32 (if field f.imm 0 1 = 1 then wrap 32 (signed 16 t) else t))) 1) .next)

/-- R36: a value that XBND may not hold. -/
def xbndBad (v : Nat) : Bool := v / 2 ^ 15 % 2 ^ 17 != 0 || v / 128 % 2 != 0

/-- R215: write XBND, or trap. -/
def execXbnd (f : SF) (s : State) : Result :=
  runWord s (fun _ => sForm (.xbnd f) f) (fun s c =>
    let b := opB f c
    if xbndBad b then .illegal (.xbnd f)
    else .done (modSplit s c.x (fun p => { p with xbnd := BitVec.ofNat 32 b })) .next)

end Sys2Proof.Machine
end

