-- ==== Sys2Proof/Machine/VectorFloat.lean ====
section
/-! DEFINITION. Vector floating-point words: arithmetic, comparison, rounding and conversion (R164 to R178). -/

namespace Sys2Proof.Machine

/-- The types of R164, and the windows of R166. -/
def floatEt (et : Nat) : Bool := 8 ≤ et && et ≤ 11
def floatWindows (et : Nat) : Nat := if et = 9 then 4 else 1

/-- The format of the ET in force, and Fl of an element's bits as a value (R165). -/
def Ctx.fp (c : Ctx) : Fp := fpOf c.et
def Ctx.fl (c : Ctx) (bits : Nat) : Val := c.fp.read c.ftz bits

/-- Fl(Round(v)) into the ET in force, under MODE.RND. -/
def Ctx.round (c : Ctx) (v : Val) : Nat := c.fp.write c.ftz c.rnd v

/-- A V3 floating-point word of `n` sources, element by element (R165). -/
def floatWord (i : Instr) (f : V3) (n : Nat) (windows : Nat → Nat) (fn : Ctx → List Nat → Nat) (s : State) : Result :=
  runWord s (fun _ => v3Form i f n) (fun s c =>
    let wide := etWide c.et
    etGate i c (floatEt c.et) (v3Regs f n)
      (vectorOp s c (v3Srcs f n wide) f.hold (windows c.et) 2 f.d.toNat wide (perElem c.et (fn c))))

/-- The lesser or greater element of R169, −0 below +0. -/
def minMax (f : Fp) (greater : Bool) (a b : Nat) : Nat :=
  let x := f.value a
  let y := f.value b
  if x.isNaN then (if y.isNaN then f.nan else b)
  else if y.isNaN then a
  else
    let less := x.compare y == .lt || (x.compare y == .eq && x.isNeg)
    if less != greater then a else b

/-! ## Arithmetic (R167 to R170) -/

/-- R167: a + b. -/
def execFadd (f : V3) (s : State) : Result := floatWord (.fadd f) f 2 floatWindows (fun c x => c.round ((c.fl (arg x 0)).add (c.fl (arg x 1)) c.rnd)) s

/-- R167: a − b. -/
def execFsub (f : V3) (s : State) : Result := floatWord (.fsub f) f 2 floatWindows (fun c x => c.round ((c.fl (arg x 0)).add (c.fl (arg x 1)).negate c.rnd)) s

/-- R167: a × b. -/
def execFmul (f : V3) (s : State) : Result := floatWord (.fmul f) f 2 floatWindows (fun c x => c.round ((c.fl (arg x 0)).mul (c.fl (arg x 1)))) s

/-- R167: a × b + c, rounded once. -/
def execFfma (f : V3) (s : State) : Result := floatWord (.ffma f) f 3 floatWindows (fun c x => c.round (((c.fl (arg x 0)).mul (c.fl (arg x 1))).add (c.fl (arg x 2)) c.rnd)) s

/-- R167: a × b − c, rounded once. -/
def execFfms (f : V3) (s : State) : Result := floatWord (.ffms f) f 3 floatWindows (fun c x => c.round (((c.fl (arg x 0)).mul (c.fl (arg x 1))).add (c.fl (arg x 2)).negate c.rnd)) s

/-- R167: −(a × b) + c, rounded once. -/
def execFnma (f : V3) (s : State) : Result := floatWord (.fnma f) f 3 floatWindows (fun c x => c.round (((c.fl (arg x 0)).mul (c.fl (arg x 1))).negate.add (c.fl (arg x 2)) c.rnd)) s

/-- R169: the lesser. -/
def execFmin (f : V3) (s : State) : Result :=
  floatWord (.fmin f) f 2 (fun _ => 1) (fun c x => minMax c.fp false (c.fp.flush c.ftz (arg x 0)) (c.fp.flush c.ftz (arg x 1))) s

/-- R169: the greater. -/
def execFmax (f : V3) (s : State) : Result :=
  floatWord (.fmax f) f 2 (fun _ => 1) (fun c x => minMax c.fp true (c.fp.flush c.ftz (arg x 0)) (c.fp.flush c.ftz (arg x 1))) s

/-- R170: clear the sign bit. -/
def execFabs (f : V3) (s : State) : Result :=
  floatWord (.fabs f) f 1 (fun _ => 1) (fun c x => arg x 0 % 2 ^ (c.ew - 1)) s

/-- R170: invert the sign bit. -/
def execFneg (f : V3) (s : State) : Result :=
  floatWord (.fneg f) f 1 (fun _ => 1) (fun c x => arg x 0 ^^^ 2 ^ (c.ew - 1)) s

/-- The sum of R168. -/
def dot2 (ftz : Bool) (mode a b d : Nat) : Nat :=
  let h (v i : Nat) : Val := fp16.read ftz (elem 16 v i)
  fp32.write ftz mode (Val.sum [(h a 0).mul (h b 0), (h a 1).mul (h b 1), fp32.read ftz d] mode)

/-- R168: two products and an accumulator, rounded once. -/
def execFdot2 (f : V3) (s : State) : Result :=
  runWord s (fun _ => v3Form (.fdot2 f) f 3) (fun s c =>
    etGate (.fdot2 f) c (c.et == 10) []
      (vectorOp s c (v3Srcs f 3 false) f.hold 1 2 f.d.toNat false (fun v => dot2 c.ftz c.rnd (arg v 0) (arg v 1) (arg v 2))))

/-! ## Compare and classify (R171, R172) -/

/-- R171: compare one element per lane into a predicate. -/
def execFcmp (f : V2I) (s : State) : Result :=
  runWord s (fun _ => v2ReadForm (.fcmp f) f 2) (fun s c =>
    let e := field f.imm 4 2
    etGate (.fcmp f) c (floatEt c.et && e < etCount c.et) [f.a.toNat, f.b.toNat]
      (predicateOp s c (v2Srcs f 2 (etWide c.et)) f.hold 2 (field f.d 0 3) (field f.imm 6 2) (fun v =>
        fcondHolds (field f.imm 0 4) (c.fl (elem c.ew (arg v 0) e)) (c.fl (elem c.ew (arg v 1) e)))))

/-- R172: whether the class of an element is in the mask. -/
def execFclass (f : V2I) (s : State) : Result :=
  runWord s (fun _ => v2ReadForm (.fclass f) f 1) (fun s c =>
    let e := field f.imm 12 1
    etGate (.fclass f) c (floatEt c.et && e < etCount c.et) [f.a.toNat]
      (predicateOp s c (v2Srcs f 1 (etWide c.et)) f.hold 2 (field f.d 0 3) (field f.imm 13 2) (fun v =>
        bitAt (field f.imm 0 10) (classOf c.fp (elem c.ew (arg v 0) e)))))

/-! ## Rounding and conversion (R173, R174) -/

/-- The mode of FIX and RM. -/
def fixedMode (c : Ctx) (fix rm : Nat) : Nat := if fix = 1 then rm else c.rnd

/-- An integral value of R173. -/
def toIntegral (f : Fp) (mode : Nat) (v : Val) : Nat :=
  match v with
  | .nan => f.nan
  | .inf n => f.inf n
  | .fin neg n d => f.encode mode (.fin neg (roundInt mode neg n d) 1)

/-- R173: round to an integral value. -/
def execFrnd (f : V2I) (s : State) : Result :=
  runWord s (fun _ => v2Form (.frnd f) f 1) (fun s c =>
    let wide := etWide c.et
    etGate (.frnd f) c (floatEt c.et) (v2Regs f 1)
      (vectorOp s c (v2Srcs f 1 wide) f.hold (floatWindows c.et) 2 f.d.toNat wide
        (perElem c.et (fun x => c.fp.flush c.ftz (toIntegral c.fp (fixedMode c (field f.imm 2 1) (field f.imm 0 2)) (c.fl (arg x 0)))))))

/-- An element of a type as a value (R174). -/
def typedVal (et : Nat) (ftz : Bool) (bits : Nat) : Val :=
  if et ≤ 7 then .ofInt (elemInt (etWidth et) (etSigned et) bits) else (fpOf et).read ftz bits

/-- A value as an element of a type (R70, R174): an integer saturates whatever SAT says. -/
def typedBits (et : Nat) (ftz : Bool) (mode : Nat) (v : Val) : Nat :=
  let w := etWidth et
  if et ≤ 7 then wrap w (v.toInt mode (rangeLo w (etSigned et)) (rangeHi w (etSigned et))) else (fpOf et).write ftz mode v

/-- R174: convert one element. -/
def execFcvt (f : V2I) (s : State) : Result :=
  let from_ := field f.imm 0 4
  runWord s (fun _ => v2Form (.fcvt f) f 1) (fun s c =>
    let wide := etWide c.et
    let packed := 1 < etCount c.et
    let del := field f.imm 6 2
    let srcs := ({ reg := f.a.toNat, route := f.ra, wide := etWide from_ } : Src) :: (if packed then [dSrc f.d.toNat false] else [])
    etGate (.fcvt f) c (anyEt c.et && (8 ≤ c.et || 8 ≤ from_) && del < etCount c.et) [f.d.toNat]
      (vectorOp s c srcs f.hold (if c.et = 9 ∨ from_ = 9 then 4 else 1) 2 f.d.toNat wide (fun v =>
        let x := typedVal from_ c.ftz (elem (etWidth from_) (arg v 0) (field f.imm 4 2))
        let r := typedBits c.et c.ftz (fixedMode c (field f.imm 10 1) (field f.imm 8 2)) x
        if packed then setElem c.ew (arg v 1) del r else r)))

/-! ## Format-table strings (R175 to R178) -/

/-- The place of an entry of a region's format table among the writes that readers may miss, and the path of such a write. -/
def formatSpot (region n : Nat) : Nat := 2 ^ 60 + 32 * region + 2 * n
def formatPath : Nat := 7

/-- A format-table entry as a split reads it: its own latest write, or a newer one that it has synchronised with; where it has written none, any value
that the entry has held since it last did (R175, R236). -/
def formatEntry (s : State) (c : Ctx) (n : Nat) : BitVec 16 :=
  let ws := ((List.range s.past.length).zip s.past).reverse.filter (fun e => e.2.home.isNone && e.2.addr == formatSpot c.r.id n)
  let own := ws.any (fun e => e.2.seenBy c.x 3)
  let sure (e : PastWrite) : Bool := e.seenBy c.x 3 || noLater (e.time 6) (floorOf c.p.floors 6)
  (ws.foldl (fun (r : Bool × BitVec 16) e =>
    if r.1 then r
    else if sure e.2 || (!own && Config.freeBit s.draw (4000000 + e.1)) then (true, r.2)
    else (false, BitVec.ofNat 16 (numOf (e.2.old.map (fun b => b.getD 0))))) (false, c.r.formats.getD n (defaultEntry n))).2

/-- The limit of K of R175. -/
def maxK (w : Nat) : Nat := if w = 4 then 7 else if w = 6 then 15 else if w = 8 then 3 else 1

/-- The string registers of element K at register X. -/
def stringRegs (x w k : Nat) : List Nat :=
  let lo := x + k * w / 32
  let hi := x + (k * w + w - 1) / 32
  if lo = hi then [lo] else [lo, hi]

/-- The checks of R175 and the ET checks of R164, then the effect. -/
def stringGate (i : Instr) (c : Ctx) (sel : Nat) (operand : List Nat) (x w k : Nat) (a : Act) : Act :=
  etGate i c (floatEt c.et && (sel == 0 || etCount c.et == 2)) operand
    (if maxK w < k then .illegal i
     else match firstWith (fun n => 127 < n || (c.vcnt ≤ n && !(c.handler && 120 ≤ n))) (stringRegs x w k) with
       | some n => .trap 3 0 127 (BitVec.ofNat 64 n)
       | none => a)

/-- Scale(L) of R176: byte 0 for lanes 0 to 47, byte 1 for the rest. -/
def laneScale (e : Entry) (word : Nat) (l : Nat) : Val := scaleOf e.scale (if l < 48 then word % 256 else word / 256 % 256)

/-- R177: convert a float element into an entry's element of a string. -/
def execFcvtt (f : V2I) (s : State) : Result :=
  runWord s (fun _ => v2Form (.fcvtt f) f 1) (fun s c =>
    let e := Entry.ofBits (formatEntry s c (field f.imm 0 4))
    let w := e.width
    let k := field f.imm 4 4
    let sel := field f.imm 8 1
    let src : Src := { reg := f.a.toNat, route := f.ra, wide := etWide c.et }
    let a := c.take src
    let sk := (c.s (field f.b 0 6)).toNat
    let regs := stringRegs f.d.toNat w k
    let code (l : Nat) : Nat := e.encode c.rnd c.ftz ((c.fl (elem c.ew (a.getD l 0) sel)).div (laneScale e sk l))
    let old := regs.map (fun n => imageLanes (regNow c (vref c n)))
    let bit := k * w % 32
    let codes := allLanes.map code
    let string (l : Nat) : Nat :=
      let v := (List.range regs.length).foldl (fun acc j => acc + (lane (old.getD j []) l).toNat * 2 ^ (32 * j)) 0
      v - v / 2 ^ bit % 2 ^ w * 2 ^ bit + codes.getD l 0 * 2 ^ bit
    let sh := shadowFor c 2 [src]
    stringGate (.fcvtt f) c sel [f.a.toNat] f.d.toNat w k
      (.done ((List.range regs.length).foldl (fun s j =>
        writeV s c (regs.getD j 0) c.writes (allLanes.map (fun l => BitVec.ofNat 32 (string l / 2 ^ (32 * j)))) sh)
        (vectorIssue s c [src] (heldSource f.hold [src]) 1)) .next))

/-- R178: decode an element of a string. -/
def execFcvtf (f : V2I) (s : State) : Result :=
  runWord s (fun _ => v2Form (.fcvtf f) f 1) (fun s c =>
    let e := Entry.ofBits (formatEntry s c (field f.imm 0 4))
    let w := e.width
    let k := field f.imm 4 4
    let del := field f.imm 8 1
    let wide := etWide c.et
    let packed := etCount c.et == 2
    let regs := stringRegs f.a.toNat w k
    let srcs := regs.map (fun n => ({ reg := n, route := f.ra } : Src))
    let str := srcs.map c.take
    let sk := (c.s (field f.b 0 6)).toNat
    let d := c.take (dSrc f.d.toNat false)
    let bit := k * w % 32
    let value (l : Nat) : Nat :=
      let v := (List.range regs.length).foldl (fun acc j => acc + (str.getD j []).getD l 0 * 2 ^ (32 * j)) 0
      let r := c.round ((e.flushVal c.ftz (e.dec (v / 2 ^ bit % 2 ^ w))).mul (laneScale e sk l))
      if packed then setElem c.ew (d.getD l 0) del r else r
    let all := srcs ++ (if packed then [dSrc f.d.toNat false] else [])
    stringGate (.fcvtf f) c del [f.d.toNat] f.a.toNat w k
      (.done (writeVals (vectorIssue s c all (if f.hold = .a then regs.take 1 else []) 1) c f.d.toNat wide (allLanes.map value)
        (shadowFor c 2 all)) .next))

end Sys2Proof.Machine
end

