-- ==== Sys2Proof/Machine/Access.lean ====
section
/-! DEFINITION. Accesses in flight: what each part waits for, how it is performed at a column store, at a home or in a scratchpad,
and how its instruction completes (R189, R191 to R206, R258 to R276, R363 to R369, R385 to R391, R427 to R429). -/

namespace Sys2Proof.Machine

/-! ## Scratchpad (R45, R191) -/

def scratchByte (w : Workgroup) (o : Nat) : Byte := Table.get w.scratch o (Config.scratchByte w.scratchSeed o)
def scratchRead (w : Workgroup) (o n : Nat) : List Byte := (List.range n).map (fun i => scratchByte w (o + i))
def scratchPut (w : Workgroup) (o : Nat) (bs : List Byte) : Workgroup :=
  { w with scratch := ((List.range bs.length).zip bs).foldl (fun t e => Table.put t (o + e.1) e.2) w.scratch }
def scratchBad (w : Workgroup) (o n : Nat) : Bool := (granulesOf o n).any (fun g => w.scratchPoison.contains g)

/-- The workgroup's allocation in the scratchpad, in bytes (R332). -/
def Workgroup.spadBytes (w : Workgroup) : Nat := w.fields.spad

/-! ## Slices: tags, pins, held lines, bypasses (R363, R364, R367 to R369) -/

/-- The used handles of a tower that hold a virtual address of a space, highest priority first. -/
def holdersOf (t : Tower) (space va : Nat) : List (Nat × Residency) :=
  sortBy (fun a b => b.2.prio ≤ a.2.prio) (t.handles.filter (fun h => h.2.used && !h.2.evicted && h.2.space == space && h.2.base.toNat ≤ va && va < h.2.base.toNat + h.2.size))

def heldAt (t : Tower) (space va : Nat) : Option (Nat × Residency) := (holdersOf t space va).head?

/-- Evict a handle: its dirty bytes go home, its lines are dropped, and it is marked (R369). A line that is pinned too stays (R367). -/
def evictHandle (s : State) (tower h : Nat) : State :=
  match Table.find (towerOf s tower).handles h with
  | none => s
  | some r =>
    let mine (sl : SliceLine) : Bool := sl.space == r.space && r.base.toNat ≤ sl.va.toNat && sl.va.toNat < r.base.toNat + r.size
    let lines (pinned : Bool) : List Nat := ((towerOf s tower).slices.filter (fun sl => mine sl && sl.pinned == pinned)).map (fun sl => sl.line)
    let s1 := (lines false).foldl (fun s l => leaveWay s tower l) s
    let s2 := cleanWays s1 (fun c => c.agent == .way tower && (lines true).contains c.line)
    modTower s2 tower (fun t => { t with slices := t.slices.filter (fun sl => !mine sl || sl.pinned),
                                         handles := Table.modify t.handles h r (fun r => { r with evicted := true }) })

/-- The ways of a slice's sets that its own lines and lines of other towers may take: a disabled way is one of the first while any is left
(R366, R426). -/
def sliceWays (s : State) (tower slice : Nat) (remote : Bool) : Nat :=
  let reserved := (towerOf s tower).rsh.toNat
  let left := 16 - Table.get s.disabledWays (wayKey 3 tower slice) 0
  if remote then min reserved left else left - reserved

/-- The least recently used tag that is neither pinned nor held (R367). -/
def lruTag (t : Tower) (mates : List SliceLine) : Option SliceLine :=
  (mates.filter (fun e => !e.pinned && (heldAt t e.space e.va.toNat).isNone)).foldl
    (fun b e => match b with | none => some e | some c => if e.used < c.used then some e else b) none

/-- The tags of a slice that share the class and the set of a line: 4 MB in 2048 sets (R17, R364). -/
def tagMates (t : Tower) (slice : Nat) (remote : Bool) (l : Nat) : List SliceLine :=
  t.slices.filter (fun e => e.slice == slice && e.remote == remote && Config.sliceSet e.line % 2048 == Config.sliceSet l % 2048)

/-- A tag leaves its slice; with it a remote way's line goes home (R367, R390). -/
def dropTag (s : State) (tower : Nat) (v : SliceLine) : State :=
  modTower (leaveWay s tower v.line) tower (fun t => { t with slices := t.slices.filter (fun e => e.line != v.line) })

/-- A demand miss at a tower's slices: find the line, allocate it, or bypass (R366 to R368). -/
def sliceTouch (s : State) (tower : Nat) (pa va space home : Nat) : State :=
  let t := towerOf s tower
  let l := lineOf pa
  let sl := homeSlice pa
  let remote := homeTower pa != tower
  if home = 3 then s
  else if t.slices.any (fun e => e.line == l) then
    modTower s tower (fun t => { t with slices := t.slices.map (fun e => if e.line = l then { e with used := s.draw, pinned := e.pinned || home == 2 } else e) })
  else if remote ∧ t.rsh = 0 then s
  else
    let new : SliceLine := { line := l, slice := sl, remote := remote, pinned := home == 2, va := BitVec.ofNat 64 va, space := space, used := s.draw }
    let mates := tagMates t sl remote l
    let place (s : State) : State := modTower s tower (fun t => { t with slices := t.slices ++ [new] })
    if mates.length < sliceWays s tower sl remote then place s
    else
      match lruTag t mates with
      | some v => place (dropTag s tower v)
      | none =>
        let p := ((heldAt t space va).map (fun h => h.2.prio)).getD 0
        let held := ((mates.filter (fun e => !e.pinned)).filterMap (fun e => heldAt t e.space e.va.toNat)).filter (fun h => h.2.prio < p)
        match (sortBy (fun a b => a.2.prio < b.2.prio || (a.2.prio == b.2.prio && a.1 ≤ b.1)) held).head? with
        | some h => place (evictHandle s tower h.1)
        | none => bypassed s tower

/-- An access that is made at the home goes to the slice of the home (R363). -/
def homeTouch (s : State) (pa va space home : Nat) : State := sliceTouch s (homeTower pa) pa va space home

/-- A miss of a column goes to the slices of its tower and of the home. -/
def slicesTouch (s : State) (tower pa va space home : Nat) : State :=
  let s1 := homeTouch s pa va space home
  if homeTower pa = tower then s1 else sliceTouch s1 tower pa va space home

/-! ## An access of a column -/

/-- The bytes of a line that an access of a column names, and how its page has them cached. -/
structure Target where
  col : Nat
  line : Nat
  off : Nat
  size : Nat
  key : Nat
  home : Nat
  va : Nat
  space : Nat
  deriving DecidableEq, Repr

def Target.pa (t : Target) : Nat := lineBase t.line + t.off
def Target.tower (t : Target) : Nat := t.col / 48

/-- HOME 01 pins the line in the column store (R363). -/
def Target.pin (t : Target) : Option (Nat × Nat) := if t.home = 1 then some (t.space, t.va) else none

/-- What an access met: it is performed, with the bytes it got and the bytes that it replaced, it waits for sharers to merge its bytes, or it waits. -/
inductive Hit where
  | done (s : State) (got old : List Byte) (bad : Bool)
  | push (s : State) (old : List Byte) (n : Nat)
  | wait (s : State)

/-- The poison of the granules that an access touches. -/
def Target.badIn (t : Target) (poison : BitVec 4) : Bool := (poison &&& maskTouches (byteMask t.off t.size)) != 0

/-- REPL at a column store (R364, R378): protocols without messages write back directly, NONCOH to the remote way that holds the line (R390). -/
def evictLine (s : State) (col : Nat) (c : CacheLine) : State :=
  if isTabled (slotOf s (lineBase c.line)) then ((cacheStep s (.col col) c.line 2 [] 0).map (·.1)).getD s
  else if (nonCohWay s (.col col) c.line).isSome then dropLine (placeMerge s (.way (col / 48)) c.line c.dirty c.data c.poison) (.col col) c.line
  else dropLine (writeBackDirect s c) (.col col) c.line

/-- The ways of a column store's sets that are not disabled (R364, R426). -/
def columnWays (s : State) (col : Nat) : Nat := 16 - Table.get s.disabledWays (wayKey 4 col 0) 0

/-- A set of a column store's cache and the room in it. -/
inductive Room where
  | free | bypass | wait
  deriving DecidableEq, Repr

/-- Room for a line in its set: the least recently used line that is not pinned leaves, which its protocol may put off; else the miss bypasses (R367). -/
def makeRoom (s : State) (col l : Nat) : State × Room :=
  let mates := setMates s col l
  let leaving := mates.filter (fun c => c.pin.isNone && isTabled (slotOf s (lineBase c.line)) && (cacheAction s (slotOf s (lineBase c.line)) c.state 2).stall)
  if mates.length < columnWays s col then (s, .free)
  else if !leaving.isEmpty then (s, .wait)
  else match lruLine mates with
    | some c =>
      let s1 := evictLine s col c
      (s1, if (setMates s1 col l).length < columnWays s1 col then .free else .wait)
    | none => (bypassed s (col / 48), .bypass)

/-- A column store whose sets have lost room: each set that is over-full gives up its least recently used lines (R364, R426). -/
def trimColumn (s : State) (col : Nat) : State :=
  (s.lines.filter (fun c => c.agent == .col col)).foldl (fun s c =>
    if (lineFind s (.col col) c.line).isNone then s
    else
      let set := lineAt s (.col col) c.line :: setMates s col c.line
      if set.length ≤ columnWays s col then s
      else match lruLine set with
        | some v => evictLine s col v
        | none => s) s

/-- An access of a column that is made at the home: its slice, and the counts of R370. -/
def atHome (s : State) (t : Target) : State := countAccess (homeTouch s t.pa t.va t.space t.home) t.pa t.tower

/-- Bytes read at the home by H for a column (R380, R391). -/
def readHome (s : State) (t : Target) : Hit :=
  match homeRead s t.pa t.size with
  | none => .wait s
  | some (s1, bs, bad) => .done (atHome s1 t) (keyed s1 t.pa t.key bs) [] bad

/-- A miss of a column for a protocol without messages. -/
def missDirect (s : State) (t : Target) : State := countAccess (slicesTouch s t.tower t.pa t.va t.space t.home) t.pa t.tower

/-- Bytes of the home as they stand, for a protocol without messages. -/
def readHomeDirect (s : State) (t : Target) : Hit := .done (missDirect s t) (keyed s t.pa t.key (memRead s t.pa t.size)) [] (poisonedAt s t.pa t.size)

/-- After a miss of a column on a NONCOH line homed in another tower: a remote way whose slice has taken the line holds it (R366, R390). -/
def fillWay (s : State) (t : Target) : State :=
  if slotOf s t.pa = 0 ∧ homeSideOf s (.col t.col) t.line = .way t.tower ∧ (nonCohWay s (.col t.col) t.line).isNone ∧
      (towerOf s t.tower).slices.any (fun e => e.line == t.line) then
    putLine s { CacheLine.new (.way t.tower) t.line with
      state := 1, data := memRead s (lineBase t.line) 128, key := heldKey s (.way t.tower) t.line t.key, used := s.draw, poison := linePoison s t.line }
  else s

/-- Fill a line of a column as its remote way or the home has it, in a state. -/
def fillDirect (s : State) (t : Target) (state : Nat) : State :=
  let s1 := fillWay (missDirect s t) t
  let src : List Byte × BitVec 4 := match nonCohWay s1 (.col t.col) t.line with
    | some w => (w.data, w.poison)
    | none => (memRead s (lineBase t.line) 128, linePoison s t.line)
  putLine s1 { CacheLine.new (.col t.col) t.line with
    state := state, data := keyed s (lineBase t.line) t.key src.1, key := t.key, pin := t.pin, used := s.draw, poison := src.2 }

/-- What a column holds of the bytes. -/
def readLine (s : State) (t : Target) (c : CacheLine) : Hit := .done s (slice c.data t.off t.size) [] (t.badIn c.poison)

/-- Present LOAD or STORE to a cache-side table; on a miss the line takes the key and pin of the access. -/
def presentTable (s : State) (t : Target) (ev : Nat) : State × Option Bool :=
  let had := (lineFind s (.col t.col) t.line).isSome
  match cacheStep s (.col t.col) t.line ev [] 0 with
  | none => (s, none)
  | some (s1, ok) =>
    let s2 := if had then s1 else slicesTouch s1 t.tower t.pa t.va t.space t.home
    ({ s2 with lines := s2.lines.map (fun c => if c.agent = .col t.col ∧ c.line = t.line ∧ !had then { c with key := t.key, pin := t.pin } else c) }, some ok)

/-- A line held under another key slot is written back before the access (R365); none while that cannot be done yet. -/
def underKey (s : State) (t : Target) : Option State :=
  match lineFind s (.col t.col) t.line with
  | none => some s
  | some c =>
    if c.key = t.key then some s
    else
      let s1 := evictLine s t.col c
      if (lineFind s1 (.col t.col) t.line).isNone then some s1 else none

/-- A column's read of part of a line. -/
def readColumn (s : State) (t : Target) : Hit :=
  let slot := slotOf s t.pa
  let e := (entryFor s t.pa).map (·.2)
  if t.home = 3 then readHome s t
  else match underKey s t with
  | none => .wait (((lineFind s (.col t.col) t.line).map (evictLine s t.col)).getD s)
  | some s =>
    let held := lineFind s (.col t.col) t.line
    let room := if held.isSome then (s, .free) else makeRoom s t.col t.line
    if room.2 = .bypass then readHome room.1 t
    else if room.2 = .wait then .wait room.1
    else if isTabled slot then
      let bad := !(cacheAction s slot (lineAt s (.col t.col) t.line).state 0).valid
      match presentTable room.1 t 0 with
      | (s1, none) => .wait s1
      | (s1, some true) => readLine s1 t (lineAt room.1 (.col t.col) t.line)
      | (s1, some false) => if bad then .done s1 (List.replicate t.size 0) [] true else .wait s1
    else match held with
      | some c => readLine s t c
      | none =>
        if slot = 4 then
          if (dirAt s .home t.line).state = 1 then let s1 := fillDirect room.1 t 1; readLine s1 t (lineAt s1 (.col t.col) t.line)
          else readHomeDirect room.1 t
        else if slot = 5 then
          match e with
          | none => readHomeDirect s t
          | some e =>
            if (dirAt s .home (haloTile e t.line)).owner = some (.col t.col) then
              let s1 := fillDirect room.1 t 2
              readLine s1 t (lineAt s1 (.col t.col) t.line)
            else if haloStrip e t.line then
              let s1 := fillDirect room.1 t 1
              let d := dirAt s1 .home t.line
              let s2 := putDir s1 { d with sharers := (d.sharers ++ [Agent.col t.col]).eraseDups }
              readLine s2 t (lineAt s2 (.col t.col) t.line)
            else readHomeDirect s t
        else let s1 := fillDirect room.1 t 1; readLine s1 t (lineAt s1 (.col t.col) t.line)

/-- Store bytes in a line that a column holds. -/
def storeInLine (s : State) (t : Target) (bs : List Byte) (state : Nat) : State :=
  let c := lineAt s (.col t.col) t.line
  let s1 := putLine s { c with data := splice c.data t.off bs, dirty := c.dirty ||| byteMask t.off t.size, used := s.draw, state := state }
  noteKey (clearReservations s1 t.line) t.line (byteMask t.off t.size) (some t.key)

/-- A line of WRITEONCE moves to W at its first write (R386). -/
def writtenOnce (s : State) (pa : Nat) : State := if slotOf s pa = 4 then putDir s { dirAt s .home (lineOf pa) with state := 1 } else s

/-- A write performed at the home as a request of H (R391). -/
def writeHome (s : State) (t : Target) (bs : List Byte) : Hit :=
  match homeAccess s t.line true with
  | none => .wait s
  | some s1 => .done (writtenOnce (atHome (homeWrite s1 t.pa bs (some t.key)) t) t.pa) [] (memRead s1 t.pa t.size) false

/-- The bytes that a column holds where an access is to write. -/
def heldBytes (s : State) (t : Target) : List Byte := slice (lineAt s (.col t.col) t.line).data t.off t.size

/-- A column's write of part of a line. -/
def writeColumn (s : State) (t : Target) (bs : List Byte) (part : Nat × Nat) : Hit :=
  let slot := slotOf s t.pa
  let ag : Agent := .col t.col
  let e := (entryFor s t.pa).map (·.2)
  if t.home = 3 ∨ slot = 4 then writeHome s t bs
  else match underKey s t with
  | none => .wait (((lineFind s ag t.line).map (evictLine s t.col)).getD s)
  | some s =>
    let held := lineFind s ag t.line
    let room := if held.isSome then (s, .free) else makeRoom s t.col t.line
    if room.2 = .bypass then writeHome room.1 t bs
    else if room.2 = .wait then .wait room.1
    else if slot = 2 then
      match held with
      | some c =>
        if c.state = 1 then
          if pushPending s ag t.line then .wait s
          else
            let s1 := storeInLine s t bs 1
            let s2 := { s1 with lines := s1.lines.map (fun d => if d.agent = ag ∧ d.line = t.line then { d with dirty := 0 } else d) }
            let s3 := placeMerge s2 .home t.line (byteMask t.off t.size) (splice c.data t.off bs) 0
            let others := (dirAt s3 .home t.line).sharers.filter (· != ag)
            let s4 := pushTo s3 others t.line (splice c.data t.off bs) (byteMask t.off t.size) (some part)
            if others.isEmpty then .done s4 [] (heldBytes s t) false else .push s4 (heldBytes s t) others.length
        else .wait s
      | none => .wait (presentTable room.1 t 1).1
    else if isTabled slot then
      let bad := !(cacheAction s slot (lineAt s ag t.line).state 1).valid
      match presentTable room.1 t 1 with
      | (s1, none) => .wait s1
      | (s1, some true) => .done (storeInLine s1 t bs (lineAt s1 ag t.line).state) [] (heldBytes s1 t) false
      | (s1, some false) => if bad then .done s1 [] [] false else .wait s1
    else if slot = 5 then
      match e with
      | none => writeHome room.1 t bs
      | some e =>
        let tile := dirAt s .home (haloTile e t.line)
        let free := tile.owner.isNone
        if free ∨ tile.owner = some ag then
          let s1 := if free then putDir room.1 { tile with owner := some ag } else room.1
          let s2 := if held.isSome then s1 else fillDirect s1 t 2
          .done (storeInLine s2 t bs 3) [] (heldBytes s2 t) false
        else writeHome room.1 t bs
    else
      let s1 := if held.isSome then s else fillDirect room.1 t 1
      .done (storeInLine s1 t bs 1) [] (heldBytes s1 t) false

/-- Dirty bytes of a line that the remote way of a column's tower holds go on to the home; a NONCOH line leaves the way, so that the column's next
fill is the home's (R194, R197, R279). -/
def wayClean (s : State) (t : Target) : State :=
  let s1 := cleanWays s (fun c => c.line == t.line && c.agent == .way t.tower)
  if (nonCohWay s (.col t.col) t.line).isSome then dropLine s1 (.way t.tower) t.line else s1

/-- `cwb`: dirty bytes reach the home, and the line ends valid; `cinv` drops the copy too, and its pin lapses (R197, R364, R385). `sent` tells that
REPL has been presented. -/
def lineColumn (s : State) (t : Target) (drop sent : Bool) : Hit :=
  match lineFind s (.col t.col) t.line with
  | none =>
    if drop || !sent || !isTabled (slotOf s t.pa) then .done (wayClean s t) [] [] false
    else .done (presentTable (wayClean s t) t 0).1 [] [] false
  | some c =>
    if !isTabled (slotOf s t.pa) then
      let s1 := writeBackDirect (wayClean s t) c
      .done (if drop then dropLine s1 (.col t.col) t.line else s1) [] [] false
    else if c.dirty = 0 ∧ !drop then .done (wayClean s t) [] [] false
    else
      let s1 := evictLine s t.col { c with pin := none }
      if (lineFind s1 (.col t.col) t.line).isNone then
        (if drop then .done (wayClean s1 t) [] [] false else .done (presentTable (wayClean s1 t) t 0).1 [] [] false)
      else .wait s1

/-! ## Atomic operations at the home (R198 to R201) -/

/-- The new value of an atomic operation over `n` bytes. -/
def atomicNew (op n old b b' : Nat) : Nat :=
  let w := 8 * n
  let f : Fp := if n = 2 then fp16 else if n = 4 then fp32 else fp64
  match op with
  | 0 => b
  | 1 => if old = b then b' else old
  | 2 => (old + b) % 2 ^ w
  | 3 => old &&& b
  | 4 => old ||| b
  | 5 => old ^^^ b
  | 6 => if signed w old ≤ signed w b then old else b
  | 7 => if signed w old ≤ signed w b then b else old
  | 8 => min old b
  | 9 => max old b
  | 10 => f.encode 0 ((f.value old).add (f.value b) 0)
  | 11 => minMax f false old b
  | 12 => minMax f true old b
  | _ => bf16.encode 0 ((bf16.value old).add (bf16.value b) 0)

/-- The new bytes of an operand: one value, or every element of a granule; `cas` has both operands in the data. -/
def atomicBytes (op n : Nat) (old data : List Byte) : List Byte :=
  (List.range (old.length / n)).flatMap (fun i => bytesOf n (atomicNew op n (numAt old (n * i) n) (numAt data (n * i) n) (numAt data (n * i + n) n)))

/-! ## Flights -/

def Part.finished (p : Part) : Bool := p.state == .done || p.state == .skipped

/-- The home, or the scratchpad, has ordered an access (R189). -/
def Part.ordered (p : Part) : Bool := p.finished || p.state == .landed

/-- Every access of the instruction is performed. -/
def Flight.performed (f : Flight) : Bool := f.parts.all Part.finished

/-- The instruction is complete: performed, its results written, the home's answers in (R194). -/
def Flight.complete (f : Flight) : Bool := f.performed && f.written && f.answered

def setPart (s : State) (id k : Nat) (g : Part → Part) : State := modFlight s id (fun f => { f with parts := modAt f.parts k g })

/-- Whether an access changes memory, and whether it reads it. -/
def PartOp.writes : PartOp → Bool
  | .write => true | .atomic _ _ => true | .condWrite => true | .counterAdd => true | .append => true | .hostEvent => true | .publish => true
  | .setFull _ => true
  | _ => false
def PartOp.reads : PartOp → Bool
  | .read => true | .atomic _ _ => true | .reserve => true | .counterRead => true | .counterAdd => true | _ => false

/-- An access that the order of R265 takes for a load: `scond` reads and writes in one. -/
def PartOp.loads (op : PartOp) : Bool := op.reads || op == .condWrite

/-- A change of memory that reads it too: it is refused where the bytes are poisoned (R428). -/
def PartOp.changes : PartOp → Bool
  | .atomic _ _ => true | .condWrite => true | .counterAdd => true
  | _ => false

/-- Maintenance of a line, which touches no byte of its own (R197). -/
def PartOp.maintains (op : PartOp) : Bool := op == .writeBack || op == .drop

/-- The protocol and parameters that an entry gives an address: INVAL with none where it does not cover it; a HALO geometry starts at BASE. -/
def PlayEntry.rules (e : PlayEntry) (pa : Nat) : Nat × DWord × DWord × Bool × Nat :=
  if e.covers pa then (e.slot, e.word2, e.word3, e.hostc, if e.slot = 5 then e.base else 0) else (1, 0, 0, false, 0)

/-- Accesses to pages under conversion stall before being performed (R392), and those to a row of HBM whose contents go to a spare (R425). -/
def stalledAt (s : State) (pa : Nat) : Bool :=
  s.repairs.any (fun r => r.sparing.isSome && r.unit.code == 1 && isHbm pa && r.unit.index == pa / 1024) ||
  s.conversions.any (fun c => c.started && c.new.rules pa != (Table.get s.playbill c.entry .zero).rules pa)

/-- Pushes of a HALO release that a column's replicas have not merged yet (R387). -/
def haloPushes (s : State) (col : Nat) : Bool :=
  s.msgs.any (fun m => m.event == 16 && (match entryFor s (lineBase m.line) with
    | some (_, e) => e.slot == 5 && (dirAt s .home (haloTile e m.line)).owner == some (.col col)
    | none => false))

/-! ## The scopes at which accesses are performed (R258, R260, R265) -/

/-- The scope of a strong access: its own, and .sys for an atomic that is written without one; an access to a UO page is not strong (R265, R266). -/
def strongOf (f : Flight) (p : Part) : Nat :=
  if p.kind == .uo then 0
  else match p.op with
    | .atomic _ _ => if f.strong = 0 then 6 else f.strong
    | .setFull _ => 0
    | _ => f.strong

/-- The scope at which a store is complete: .wg in the scratchpad, else .dev or its own if that is wider (R194). -/
def goalOf (f : Flight) (p : Part) : Nat := match p.place with | .scratch _ => 2 | _ => max 5 f.strong

/-- A store to the scratchpad, or to RC or UO bytes of a protocol with messages, is performed at one scope after another; every other write at all scopes
at once. -/
def stepwise (s : State) (p : Part) : Bool :=
  p.op == .write && (match p.place with
    | .global pa => p.kind != .so && isTabled (slotOf s pa)
    | .scratch _ => true
    | .mirror _ _ => false)

/-- The scope at which an access is performed, 6 for all of them and 0 for none. -/
def partLevel (s : State) (id k : Nat) : Nat :=
  match pastFind s id k with
  | some e => if e.home.isSome && 2 ≤ e.level then 6 else e.level
  | none => match flightFind s id with
    | none => 6
    | some f => ((f.parts[k]?).map (fun p => if p.finished then 6 else 0)).getD 6

/-- The least scope at which the accesses of an instruction are performed. -/
def flightLevel (s : State) (id : Nat) : Nat :=
  match flightFind s id with
  | some f => (List.range f.parts.length).foldl (fun m k => min m (partLevel s id k)) 6
  | none => (s.past.filter (fun e => e.id == id)).foldl (fun m e => min m (partLevel s id e.part)) 6

/-- What an access comes after is performed far enough for it to be performed at a scope. -/
def edgesMet (s : State) (after : List (Nat × Nat)) (behind : List (Nat × Nat × Nat)) (scope : Nat) : Bool :=
  after.all (fun e => min scope e.2 ≤ flightLevel s e.1) && behind.all (fun e => min scope e.2.2 ≤ partLevel s e.1 e.2.1)

/-- An access of what a column alone can see: a line of NONCOH or HALO that its store holds (R279, R387). -/
def nearWrite (s : State) (p : Part) (w : Workgroup) : Bool :=
  match p.place with
  | .global pa => !isTabled (slotOf s pa) && slotOf s pa != 4 && (lineFind s (.col w.column) (lineOf pa)).isSome
  | _ => false

/-- What a split's reads see, as the memory order has it: the floors of its flight, raised by the time at which the registers of the address were written
(R268), by its earlier strong loads if it is strong (R265), and by a fence of kind sc before it (R271). -/
def readerOf (s : State) (f : Flight) (p : Part) (w : Workgroup) : Reader :=
  let a := raiseFloors f.floors 6 f.since
  let b := joinFloors a f.sfloors (strongOf f p)
  { x := f.x, outside := false, column := w.column, path := 0, issue := f.at_, floors := raiseFloors b p.fenced (stampOf s), coherent := p.kind != .uo,
    follows := none, store := nearWrite s p w }

/-- A write that a split's acquires oblige it to see. -/
def PastWrite.acquired (e : PastWrite) (r : Reader) : Bool := noLater (e.time (e.distance r)) (floorOf r.floors (e.distance r))

/-- A release comes after every write that its split's acquires have shown it (R270). -/
def cumulative (s : State) (f : Flight) (p : Part) (w : Workgroup) (scope : Nat) : Bool :=
  f.release = 0 || s.past.all (fun e =>
    e.near || !e.acquired { readerOf s f p w with floors := f.floors } || min (min scope f.release) (if e.home.isSome then 2 else 6) ≤ e.level)

/-- An atomic operation finds every write of its bytes performed. -/
def bytesSettled (s : State) (p : Part) : Bool :=
  match p.place with
  | .global pa => !(p.op.changes || p.op == .reserve) || s.past.all (fun e => !e.meets none pa p.size || 6 ≤ e.level)
  | _ => true

/-- What a part waits for is performed, so that it may be performed itself: at the first scope for a store that goes from scope to scope. A release
at .col or wider has presented REL, and the pushes of HALO that it caused are merged (R378, R387). -/
def partReady (s : State) (f : Flight) (p : Part) : Bool :=
  (p.state == .queued) &&
  edgesMet s p.after p.behind (if stepwise s p then 1 else 6) &&
  (match p.place with | .global pa => !stalledAt s pa | _ => true) &&
  bytesSettled s p &&
  (match wgFind s f.x.wg with
    | none => true
    | some w => cumulative s f p w (if stepwise s p then 1 else 6) && (f.release < 3 || (f.presented && !haloPushes s w.column)))

/-- A release presents REL to the lines of its column once everything before it is performed as far as its scope (R378, R387). -/
def presentRelease (s : State) (f : Flight) : Option State :=
  match wgFind s f.x.wg with
  | none => none
  | some w =>
    if f.release < 3 ∨ f.presented ∨ !f.parts.all (fun p => p.state != .queued || edgesMet s p.after p.behind f.release) then none
    else (presentRel s w.column).map (fun s => modFlight s f.id (fun f => { f with presented := true }))

/-- The bytes are poisoned at their home or in a copy. -/
def poisonedAnywhere (s : State) (pa n : Nat) : Bool :=
  poisonedAt s pa n || s.lines.any (fun c => c.line == lineOf pa && (c.poison &&& maskTouches (byteMask (pa % 128) n)) != 0)

/-- The first lane whose write is refused before any byte is written: a WRITEONCE line already written, a token held elsewhere, or a poisoned
granule that the instruction would change (R189, R388, R389, R428). -/
def violation (s : State) (col : Nat) (f : Flight) : Option (Nat × Nat) :=
  let bad (p : Part) : Option (Nat × Nat) :=
    match p.place with
    | .global pa =>
      if !p.op.writes then none
      else if p.op.changes && poisonedAnywhere s pa p.size then some (6, p.lane)
      else match entryFor s pa with
        | none => none
        | some (_, e) =>
          if e.slot = 4 ∧ (dirAt s .home (lineOf pa)).state = 1 then some (9, p.lane)
          else if e.slot = 6 ∧ tokenHolder s e ≠ col then some (10, p.lane) else none
    | _ => none
  if f.parts.any (fun p => p.ordered && p.op.writes) then none
  else (f.parts.filterMap bad).foldl (fun b v => match b with | none => some v | some w => if v.2 < w.2 then some v else b) none

/-- A trap that a flight's home found (R189). -/
def flightTrap (f : Flight) (code lane : Nat) : TrapInfo := { code := code, detail := 0, lane := lane, value := 0, pc := f.pc, async := true, seq := f.seq }

/-- The bytes of a granule that the writes of a flight so far cover, as a mask; `locate` gives a part's address in the space of the granule. -/
def coverage (f : Flight) (locate : Part → Option Nat) (g : Nat) : Nat :=
  (f.parts.filter (fun p => (p.state == .done || p.state == .landed) && p.op.writes && (match p.op with | .setFull _ => false | _ => true))).foldl (fun m p =>
    match locate p with
    | none => m
    | some a => m ||| (List.range p.size).foldl (fun m i => if granuleOf (a + i) = g then m ||| 2 ^ ((a + i) % 32) else m) 0) 0

/-- A write of a flight completes the cover of a poisoned granule: the mark clears at the home and in every copy (R429). -/
def clearCovered (s : State) (id k : Nat) : State :=
  match flightFind s id with
  | none => s
  | some f =>
    match f.parts[k]? with
    | none => s
    | some p =>
      match p.place with
      | .global pa =>
        (granulesOf pa p.size).foldl (fun s g =>
          if coverage f (fun q => match q.place with | .global a => some a | _ => none) g = 2 ^ 32 - 1 then
            { clearPoison s [g] with lines := s.lines.map (fun c => if c.line = g / 4 then { c with poison := c.poison &&& ~~~ (BitVec.ofNat 4 (2 ^ (g % 4))) } else c) }
          else s) s
      | .scratch o =>
        (granulesOf o p.size).foldl (fun s g =>
          if coverage f (fun q => match q.place with | .scratch a => some a | _ => none) g = 2 ^ 32 - 1 then
            modWg s f.x.wg (fun w => { w with scratchPoison := w.scratchPoison.filter (· != g) })
          else s) s
      | .mirror _ _ => s

/-- The column access of a part. -/
def Part.target (p : Part) (w : Workgroup) (space pa : Nat) : Target :=
  { col := w.column, line := lineOf pa, off := pa % 128, size := p.size, key := p.key, home := p.home, va := p.va.toNat, space := space }

/-- A change at the home by its own arithmetic: the old bytes, and whether they are poisoned, when nothing is written (R199, R428). -/
def homeChange (s : State) (t : Target) (new : List Byte → List Byte) : Hit :=
  match homeAccess s t.line true with
  | none => .wait s
  | some s1 =>
    let old := keyed s1 t.pa t.key (memRead s1 t.pa t.size)
    if poisonedAt s1 t.pa t.size then .done s1 old [] true
    else .done (writtenOnce (atHome (homeWrite s1 t.pa (new old) (some t.key)) t) t.pa) old (memRead s1 t.pa t.size) false

/-- A counter after an add, and whether it overflows (R205). -/
def counterSum (old b : Nat) : Nat × Bool := (min (old + b) (2 ^ 64 - 1), decide (2 ^ 64 - 1 < old + b))

/-- `launch` where its region's list has room (R251, R334): the record is read as the column reads, written to its slot, and the counter advances;
0 where the list is full. The part lies at the counter; its data name the record's address, key slot and HOME field. -/
def launchAppend (s : State) (f : Flight) (p : Part) (w : Workgroup) (space pa : Nat) : Hit :=
  let t := p.target w space pa
  let from_ : Target := { t with line := lineOf (numAt p.data 0 8), off := 0, size := 128, key := numAt p.data 8 2, home := numAt p.data 10 1 }
  let region := match f.kind with | .launch r => r | _ => 0
  match regionFind s region with
  | none => .done s (bytesOf 4 0) [] false
  | some r =>
    match readColumn s from_ with
    | .push s1 _ _ => .wait s1
    | .wait s1 => .wait s1
    | .done s1 _ _ true => .done s1 [] [] true
    | .done s1 record _ false =>
      match homeRead (passTokens s1 pa) pa 8 with
      | none => .wait s1
      | some (s2, _, true) => .done s2 [] [] true
      | some (s2, raw, false) =>
        let n := numOf raw
        if r.llsize ≤ n - r.ldone then .done s2 (bytesOf 4 0) [] false
        else match ringAddr s2 space (r.llist + 128 * (n % r.llsize)) true with
          | none => .wait s2
          | some (s3, at_, leaf) =>
            let slot := slotOf s3 at_
            let once := slot == 4 && (dirAt s3 .home (lineOf at_)).state == 1
            let held := slot == 6 && ((entryFor s3 at_).map (fun e => tokenHolder s3 e.2)) != some w.column
            if once || held then
              .done (modFlight s3 f.id (fun f => { f with
                trap := some (flightTrap f (if once then 9 else 10) 127), dropped := true, answered := false, written := true })) [] [] false
            else match homeStore s3 at_ record with
            | none => .wait s3
            | some s4 =>
              let s4 := noteKey s4 (lineOf at_) (byteMask 0 128) (some (pteKey leaf))
              match homeChange (writtenOnce s4 at_) t (fun old => bytesOf 8 (counterSum (numOf old) 1).1) with
              | .done s5 _ _ bad => .done s5 (bytesOf 4 (n % 0xFFFFFFFF + 1)) [] bad
              | .push s5 _ _ => .wait s5
              | .wait s5 => .wait s5

/-- `hpost` is placed in its region's host event queue (R252): 0 posted, 1 full. -/
def postEvent (s : State) (f : Flight) (p : Part) : Hit :=
  match (match f.kind with | .post r => regionFind s r | _ => none) with
  | none => .done s (bytesOf 4 1) [] false
  | some r =>
    let e := hostEvent s r (p.data ++ bytesOf 4 (timeOf s))
    .done e.1 (bytesOf 4 e.2) [] false

/-- A part in global memory. -/
def globalPart (s : State) (f : Flight) (k : Nat) (p : Part) (w : Workgroup) (space pa : Nat) : Hit :=
  let t := p.target w space pa
  let g := groupOf f.x
  match p.op with
  | .read => readColumn s t
  | .write => writeColumn s t p.data (f.id, k)
  | .atomic op n => homeChange s t (fun old => atomicBytes op n old p.data)
  | .reserve =>
    match readColumn s t with
    | .done s1 got old bad => .done (if bad then s1 else modGroup s1 g (fun gr => { gr with reserved := some t.line })) got old bad
    | h => h
  | .condWrite =>
    if (groupFind s g).bind (fun gr => gr.reserved) = some t.line then
      match homeChange s t (fun _ => p.data) with
      | .done s1 _ old bad => .done (modGroup s1 g (fun gr => { gr with reserved := none })) [0, 0, 0, 0] old bad
      | h => h
    else .done (modGroup s g (fun gr => { gr with reserved := none })) [1, 0, 0, 0] [] false
  | .counterAdd => homeChange (passTokens s pa) t (fun old => bytesOf 8 (counterSum (numOf old) (numOf p.data)).1)
  | .counterRead => readHome s t
  | .writeBack => lineColumn s t false (p.got != [])
  | .drop => lineColumn s t true (p.got != [])
  | .append => launchAppend s f p w space pa
  | _ => .wait s

/-- A word's full/empty state; and the state set (R195). -/
def wordFull (w : Workgroup) (o : Nat) : Bool := w.full.contains (o / 4)
def setFull (w : Workgroup) (o : Nat) (full : Bool) : Workgroup :=
  let rest := w.full.filter (· != o / 4)
  { w with full := if full then sortBy (fun a b => a ≤ b) (o / 4 :: rest) else rest }

/-- A part in the scratchpad. -/
def scratchPart (s : State) (f : Flight) (p : Part) (w : Workgroup) (o : Nat) : Hit :=
  let old := scratchRead w o p.size
  let bad := scratchBad w o p.size
  match p.op with
  | .write => .done (modWg s f.x.wg (fun w => scratchPut w o p.data)) [] old false
  | .setFull full => .done (modWg s f.x.wg (fun w => setFull w o full)) [] [] false
  | .hostEvent => postEvent s f p
  | .counterAdd =>
    if bad then .done s old [] true
    else .done (modWg s f.x.wg (fun w => scratchPut w o (bytesOf 8 (counterSum (numOf old) (numOf p.data)).1))) old [] false
  | _ => .done s old [] bad

/-- The counter of a part overflowed: the trap of R189. -/
def overflowed (p : Part) (old : List Byte) : Bool := p.op == .counterAdd && (counterSum (numOf old) (numOf p.data)).2

/-- An access of a core in the admissions log (R452). -/
def logPart (s : State) (p : Part) : State :=
  match p.place with
  | .global pa => if p.op.reads || p.op.writes then logAccess s pa p.size p.op.reads p.op.writes p.key 0 else s
  | _ => s

/-! ## What is performed, as readers see it (R258 to R271) -/

/-- Where a part's bytes lie: global memory, or a workgroup's scratchpad. -/
def Part.spot (p : Part) (wg : Nat) : Option Nat × Nat :=
  match p.place with
  | .global pa => (none, pa)
  | .scratch o => (some wg, o)
  | .mirror _ o => (some wg, o)

/-- Note a write that readers may still miss, performed as far as a scope. -/
def noteWrite (s : State) (f : Flight) (k : Nat) (p : Part) (w : Workgroup) (old : List Byte) (scope : Nat) : State :=
  if old.isEmpty then s
  else
    let e : PastWrite :=
      { id := f.id, part := k, group := groupOf f.x, path := f.path.getD 0, column := w.column, home := (p.spot f.x.wg).1, addr := (p.spot f.x.wg).2,
        old := old.map some, strong := strongOf f p != 0, near := nearWrite s p w, born := f.at_, times := List.replicate scope (stampOf s), news := [],
        done_ := none, seen := [], after := p.after, behind := p.behind }
    { s with past := s.past ++ [e.see f.x e.all] }

/-- What comes after an access in program order reads no older than a time, up to the scopes of its acquire and of its order as a strong load. -/
def raiseLater (s : State) (f : Flight) (acquire strong t : Nat) : State :=
  if acquire = 0 ∧ strong = 0 then s
  else
    let comesAfter (g : Flight) : Bool := g.parts.any (fun q => q.after.any (fun e => e.1 == f.id) || q.behind.any (fun e => e.1 == f.id))
    let s1 := modGroup s (groupOf f.x) (fun g => { g with
      splits := g.splits.map (fun p => if p.hist.any (fun h => h.flight == f.id) then
        { p with floors := raiseFloors p.floors acquire t, sfloors := raiseFloors p.sfloors strong t } else p),
      joins := g.joins.map (fun r => if r.hist.any (fun h => h.flight == f.id) then { r with floors := raiseFloors r.floors acquire t, sfloors := raiseFloors r.sfloors strong t } else r) })
    { s1 with flights := s1.flights.map (fun g => if comesAfter g then
        { g with floors := raiseFloors g.floors acquire t, sfloors := raiseFloors g.sfloors strong t } else g) }

/-- A read returns what its split may see; what it has seen, no later read of the same bytes by the split misses (R263). -/
def readSeen (s : State) (f : Flight) (k : Nat) (p : Part) (w : Workgroup) (got : List Byte) : State × List Byte × Nat :=
  let r := readerOf s f p w
  let home := (p.spot f.x.wg).1
  let at_ := (p.spot f.x.wg).2
  let v := viewOf s r home at_ k got
  let s1 := if r.coherent then v.2.foldl (fun s e => modPast s e.id e.part (fun e => e.see f.x (e.within at_ p.size))) s else s
  (s1, v.1, latestSeen r v.2)

/-- A part has been performed at the home, in the column or in the scratchpad: what a read returns and orders, what a write leaves to be seen. -/
def partDone (s : State) (f : Flight) (k : Nat) (p : Part) (w : Workgroup) (got old : List Byte) (bad : Bool) : State :=
  let s := logPart s p
  if bad then setPart s f.id k (fun p => { p with state := .done, got := got, bad := true })
  else
    let racy := p.op == .read && p.kind != .so
    let r := if racy then readSeen s f k p w got else (s, got, stampOf s)
    let s1 := if p.op.reads then raiseLater r.1 f f.acquire (strongOf f p) r.2.2 else r.1
    let scope := if stepwise s p then 1 else 6
    let s2 := if p.op == .counterAdd || !p.op.writes then s1 else noteWrite s1 f k p w old scope
    let state : PartState := if p.op == .write && scope < goalOf f p then .landed else .done
    let s3 := setPart s2 f.id k (fun p => { p with state := state, level := scope, got := r.2.1, bad := false })
    let s4 := if overflowed p got then modFlight s3 f.id (fun f => { f with trap := some (flightTrap f 8 127), answered := false }) else s3
    if p.op.writes then clearCovered s4 f.id k else s4

/-- What becomes of a part that has been presented. -/
def recordHit (f : Flight) (k : Nat) (p : Part) (w : Workgroup) (h : Hit) : State :=
  match h with
  | .done s got old bad => partDone s f k p w got old bad
  | .push s old n => setPart (noteWrite s f k p w old 1) f.id k (fun p => { p with state := .pushing n, level := 1 })
  | .wait s => setPart s f.id k (fun p => { p with state := .waiting, got := if p.op.maintains then [1] else p.got })

/-- After its last part: a poisoned read is a trap and writes no register; else the home has answered (R189). -/
def closeFlight (s : State) (id : Nat) : State :=
  modFlight s id (fun f =>
    if !f.parts.all Part.ordered then f
    else match f.trap with
      | some _ => f
      | none =>
        match (f.parts.filter (fun p => p.bad)).foldl (fun (b : Option Nat) p => some (match b with | none => p.lane | some l => min l p.lane)) none with
        | some l => { f with trap := some (flightTrap f 6 l), dropped := true, answered := false, written := true }
        | none => { f with answered := true })

/-- Every sharer has merged a store's bytes: a strong one is performed at its scope, at that moment (R265, R386). -/
def pushedPart (s : State) (f : Flight) (k : Nat) (p : Part) : State :=
  let scope := max 1 (strongOf f p)
  let s1 := modPast (logPart s p) f.id k (fun e => e.raise scope (stampOf s))
  clearCovered (setPart s1 f.id k (fun p => { p with state := if scope < goalOf f p then .landed else .done, level := scope })) f.id k

/-- Perform a part that is ready, or present it once more. Before the first write of a flight its protocols may refuse it whole. -/
def performPart (s : State) (id k : Nat) : State :=
  match flightFind s id with
  | none => s
  | some f =>
    match f.parts[k]?, wgFind s f.x.wg with
    | some p, some w =>
      if p.ordered then s
      else if p.state = .pushing 0 then closeFlight (pushedPart s f k p) id
      else match (if p.op.writes && f.trap.isNone then violation s w.column f else none) with
        | some (code, l) => modFlight s id (fun f => { f with
            trap := some (flightTrap f code l), dropped := true, answered := false, written := true,
            parts := f.parts.map (fun p => if p.ordered then p else { p with state := .skipped }) })
        | none =>
          let space := ((regionFind s w.region).map (fun r => r.space)).getD 0
          match p.place with
          | .global pa => closeFlight (recordHit f k p w (globalPart s f k p w space pa)) id
          | .scratch o => closeFlight (recordHit f k p w (scratchPart s f p w o)) id
          | .mirror _ _ => s
    | _, _ => s

/-- The widest scope, from one down to another, at which a write may be performed now. -/
def widestScope (ok : Nat → Bool) (least : Nat) : Nat → Option Nat
  | 0 => none
  | n + 1 => if n + 1 < least then none else if ok (n + 1) then some (n + 1) else widestScope ok least n

/-- A write is performed at a wider scope, one that is free but for what it comes after; a strong one at its own scope at once (R258, R265). None where it
cannot be yet. -/
def raisePart (s : State) (id k : Nat) : Option State :=
  match pastFind s id k with
  | none => none
  | some e =>
    let cap := if e.home.isSome then 2 else 6
    let f := flightFind s id
    let p := f.bind (fun f => f.parts[k]?)
    let own := match f, p with | some f, some p => min cap (strongOf f p) | _, _ => 0
    let most := max own (e.level + 1 + Config.choice s.draw (8000000 + k) % (cap - e.level))
    let ok (m : Nat) : Bool := edgesMet s e.after e.behind m && (match f, p with
      | some f, some p => ((wgFind s f.x.wg).map (fun w => cumulative s f p w m)).getD true
      | _, _ => true)
    if cap ≤ e.level ∨ 5 ≤ e.path ∨ (p.map (fun p => !p.ordered)).getD false then none
    else (widestScope ok (max own (e.level + 1)) most).map (fun m =>
      let s1 := modPast s id k (fun e => e.raise m (stampOf s))
      match f, p with
      | some f, some p => closeFlight (setPart s1 id k (fun p => { p with level := m, state := if p.state == .landed && goalOf f p ≤ m then .done else p.state })) id
      | _, _ => s1)

/-- The writes of one instruction that writes a WRITEONCE line are performed together (R389). -/
def onceParts (s : State) (f : Flight) : List Nat :=
  if f.parts.any (fun p => !p.finished && p.op.writes && (match p.place with | .global pa => slotOf s pa == 4 | _ => false)) then
    (List.range f.parts.length).filter (fun k => match f.parts[k]? with
      | some p => !p.finished && p.op.writes
      | none => false)
  else []

/-- Present a part if it is ready. -/
def presentPart (s : State) (id k : Nat) : State :=
  match flightFind s id with
  | none => s
  | some f =>
    match f.parts[k]? with
    | none => s
    | some p =>
      let once := onceParts s f
      if once.contains k then
        (if once.all (fun j => ((f.parts[j]?).map (fun q => q.state == .waiting || partReady s f q)).getD true) && (violation s ((wgFind s f.x.wg).map (fun w => w.column) |>.getD 0) f).isNone then
          once.foldl (fun s j => match flightFind s id with
            | none => s
            | some f => match f.parts[j]?, wgFind s f.x.wg with
              | some q, some w => match q.place with
                | .global pa => closeFlight (recordHit f j q w (globalPart s f j q w (((regionFind s w.region).map (fun r => r.space)).getD 0) pa)) id
                | _ => s
              | _, _ => s) s
         else if once.all (fun j => ((f.parts[j]?).map (fun q => q.state == .waiting || partReady s f q)).getD true) then performPart s id k else s)
      else if partReady s f p then performPart s id k else s

/-! ## Retries after a line changes (R382) -/

/-- The parts of a column that wait for a line. -/
def waitingParts (s : State) (col l : Nat) : List (Nat × Nat) :=
  s.flights.flatMap (fun f =>
    if ((wgFind s f.x.wg).map (fun w => w.column)) = some col then
      (List.range f.parts.length).filterMap (fun k => match f.parts[k]? with
        | some p => (match p.place with | .global pa => if p.state = .waiting ∧ lineOf pa = l then some (f.id, k) else none | _ => none)
        | none => none)
    else [])

/-- The pending access of a fill performs with the bytes of the fill, whatever the new state's own table says (R382). -/
def performFilled (s : State) (col l : Nat) : State :=
  let slot := slotOf s (lineBase l)
  let c := lineAt s (.col col) l
  let readOnly := noWrite s slot c.state
  let fits_ (e : Nat × Nat) : Bool := match (flightFind s e.1).bind (fun f => f.parts[e.2]?) with
    | some p => p.op == .read || p.op == .reserve || (p.op == .write && !readOnly && slot != 2)
    | none => false
  match firstWith fits_ (waitingParts s col l) with
  | none => s
  | some e =>
    match flightFind s e.1 with
    | none => s
    | some f =>
      match f.parts[e.2]?, wgFind s f.x.wg with
      | some p, some w =>
        match p.place with
        | .global pa =>
          let t := p.target w 0 pa
          if p.op == .write then closeFlight (recordHit f e.2 p w (.done (storeInLine s t p.data c.state) [] (heldBytes s t) false)) e.1
          else
            let s1 := if p.op == .reserve ∧ !t.badIn c.poison then modGroup s (groupOf f.x) (fun g => { g with reserved := some l }) else s
            closeFlight (recordHit f e.2 p w (readLine s1 t c)) e.1
        | _ => s
      | _, _ => s

/-- Every waiting access of a line is presented again. -/
def retryLine (s : State) (col l : Nat) : State := (waitingParts s col l).foldl (fun s e => performPart s e.1 e.2) s

/-! ## Completion (R55, R194) -/

/-- Flights of a group on a path, in issue order; the oldest that are complete lower its counter and leave. -/
def retirePath (fuel : Nat) (s : State) (g : GroupId) (path : Nat) : State :=
  match fuel with
  | 0 => s
  | n + 1 =>
    match firstWith (fun f => groupOf f.x == g && f.path == some path) s.flights with
    | none => s
    | some f => if f.complete then retirePath n (dropFlight (completePast (lowerPath s g path) f.id) f.id) g path else s

/-- A flight that is complete leaves: on a path in issue order, otherwise at once. -/
def retireFlight (s : State) (id : Nat) : State :=
  match flightFind s id with
  | none => s
  | some f =>
    match f.path with
    | some path => retirePath (s.flights.length + 1) s (groupOf f.x) path
    | none => if f.complete then dropFlight (completePast s id) id else s

/-! ## Results (R50, R134) -/

/-- The bytes that a lane of a flight got. -/
def Flight.laneBytes (f : Flight) (l : Nat) : List Byte :=
  (f.parts.filter (fun p => p.lane == l)).foldl (fun acc p => splice (acc ++ List.replicate (p.base + p.got.length - acc.length) 0) p.base p.got) []

/-- The value of a flight's destination: from its bytes, or fixed. -/
def Flight.result (f : Flight) (d : Dest) : Image :=
  match f.kind with
  | .value => d.value
  | .clock => d.value
  | .playbill _ _ => d.value
  | .swap => d.value
  | _ =>
    match d.reg with
    | .s _ => .word (BitVec.ofNat 32 (numAt (f.laneBytes 127) (4 * d.word) 4))
    | .ks _ => .word (BitVec.ofNat 32 (numAt (f.laneBytes 127) (4 * d.word) 4))
    | _ => .lanes (ofLanes (fun l => if has d.mask l then BitVec.ofNat 32 (numAt (f.laneBytes l) (4 * d.word) 4) else 0))

/-- The split whose register a destination is (R138); a register of the group is named with its first slot. -/
def Dest.owner (d : Dest) (f : Flight) : SplitId := match d.reg with | .s _ => { f.x with slot := d.slot } | _ => { f.x with slot := 0 }

/-- Write destination number `k`: the lanes that have not exited; a lane that another instruction wrote since keeps either value. -/
def writeDest (s : State) (f : Flight) (k : Nat) (d : Dest) : State :=
  match ctxOf s (d.owner f) with
  | none => s
  | some c =>
    let vector := match d.reg with | .v _ => true | .x _ => true | .k _ => true | _ => false
    let mine (slot : Nat) : Bool := match d.reg with | .s _ => slot == d.slot | _ => true
    let live := if vector then d.mask &&& ~~~ c.g.exited else d.mask
    let keep := ofMask (fun l => has d.clobbered l && Config.freeBit s.draw (5000000 + k * 96 + l))
    let mask := live &&& ~~~ keep
    if mask = 0 then s
    else
      let sh : Shadow := { reg := d.reg, old := regNow c d.reg, mask := mask, left := none }
      let s1 := modGroup s (groupOf f.x) (fun g => { g with splits := ((List.range g.splits.length).zip g.splits).map (fun e =>
        if mine e.1 && e.2.await.contains f.id then { e.2 with shadows := e.2.shadows ++ [sh] } else e.2) })
      putReg s1 (d.owner f) c.w.core d.reg mask (f.result d)

/-- The results of a flight are written (R50). -/
def writeResults (s : State) (f : Flight) : State :=
  let s1 := ((List.range f.dests.length).zip f.dests).foldl (fun s e => writeDest s f e.1 e.2) s
  let s2 := modFlight s1 f.id (fun f => { f with written := true })
  { s2 with cores := s2.cores.map (fun c => (c.1, { c.2 with special := c.2.special.filter (· != f.id) })) }

/-! ## Program order (R259, R263 to R271) -/

/-- Whether the bytes of two accesses overlap. -/
def overlaps (a b : Place) (n m : Nat) : Bool :=
  match a, b with
  | .global x, .global y => x < y + m && y < x + n
  | .scratch x, .scratch y => x < y + m && y < x + n
  | _, _ => false

/-- An acquire or a release of its own keeps the order of its bytes even on a UO page (R266). -/
def Flight.synchronises (f : Flight) : Bool := f.acquire != 0 || f.release != 0

/-- The scope at which an earlier access and a later one are ordered by their own kinds, 0 for none (R263 to R266). -/
def pairScope (f : Flight) (p : Part) (g : Flight) (q : Part) : Nat :=
  let touch := overlaps p.place q.place p.size q.size && !p.op.maintains && ((p.kind != .uo && q.kind != .uo) || f.synchronises || g.synchronises)
  let strong := if p.op.writes && !p.op.loads && q.op.loads && !q.op.writes then 0 else min (strongOf f p) (strongOf g q)
  if p.kind == .so && q.kind == .so then 6 else max (if touch then 1 else 0) strong

/-- The scope at which the fences between an earlier access and a later one order them (R207). -/
def fenceScope (fences : List (Nat × Nat)) (p q : Part) : Nat :=
  fences.foldl (fun m e => max m (match e.1 with
    | 0 => if p.op.loads || q.op.writes then e.2 else 0
    | 1 => if p.op.loads then e.2 else 0
    | 2 => if q.op.writes then e.2 else 0
    | _ => e.2)) 0

/-- The widest scope of the fences of kind sc in a list. -/
def fullFence (fences : List (Nat × Nat)) : Nat := fences.foldl (fun m e => if e.1 = 3 then max m e.2 else m) 0

/-- An instruction has a write that is not performed at every scope. -/
def writesOpen (s : State) (id : Nat) : Bool := s.past.any (fun e => e.id == id && e.level < (if e.home.isSome then 2 else 6))

/-- An access of a history that is not performed at every scope yet. -/
def HistItem.open_ (s : State) (h : HistItem) : Bool := ((flightFind s h.flight).map (fun f => !f.performed)).getD false || writesOpen s h.flight

/-- A fence stands after an access: of one kind the widest counts. -/
def HistItem.fence (h : HistItem) (kind scope : Nat) : HistItem :=
  { h with fences := if h.fences.any (fun e => e.1 == kind) then h.fences.map (fun e => if e.1 = kind then (kind, max e.2 scope) else e)
                     else h.fences ++ [(kind, scope)] }

/-- Two histories as one: an access in both has the fences of both. -/
def joinHist (a b : List HistItem) : List HistItem :=
  a.map (fun h => (b.filter (fun i => i.flight == h.flight)).foldl (fun h i => i.fences.foldl (fun h e => h.fence e.1 e.2) h) h) ++
  b.filter (fun i => !a.any (fun h => h.flight == i.flight))

/-- The split without the accesses of its history that are performed at every scope. What stood before a fence of kind sc was performed by now: later
reads see all that is (R271). -/
def pruneSplit (s : State) (p : Split) : Split :=
  let gone := p.hist.filter (fun h => !h.open_ s)
  { p with hist := p.hist.filter (HistItem.open_ s), floors := raiseFloors p.floors (fullFence (gone.flatMap (fun h => h.fences))) (stampOf s) }

/-- What a new access comes after: instructions, and single accesses, each with the scope at which. -/
def placePart (s : State) (hist : List HistItem) (g : Flight) (k : Nat) (q : Part) : Part :=
  let whole := hist.filterMap (fun h =>
    let own := match flightFind s h.flight with
      | some f => max f.acquire g.release
      | none => max g.release (if q.op.writes then (h.fences.filter (fun n => n.1 != 1)).foldl (fun m n => max m n.2) 0 else 0)
    let scope := max own (fullFence h.fences)
    if scope = 0 then none else some (h.flight, scope))
  let parts := hist.flatMap (fun h => match flightFind s h.flight with
    | none => []
    | some f => (List.range f.parts.length).filterMap (fun j => (f.parts[j]?).bind (fun p =>
        let scope := max (fenceScope h.fences p q) (pairScope f p g q)
        if scope = 0 || (p.finished && !writesOpen s f.id) then none else some (f.id, j, scope))))
  let own := (List.range k).filterMap (fun j => (g.parts[j]?).bind (fun p =>
    if p.kind == .so && q.kind == .so then some (g.id, j, 6)
    else if overlaps p.place q.place p.size q.size && (p.op.writes || q.op.writes) then some (g.id, j, 1) else none))
  { q with after := whole, behind := parts ++ own, fenced := fullFence (hist.flatMap (fun h => h.fences)) }

/-- A strong store after a fence of kind rel, ar or sc is a release, at the smaller of the two scopes (R269). -/
def releaseAt (p : Split) (f : Flight) : Nat :=
  if f.parts.any (fun q => q.op.writes && strongOf f q != 0) then max f.release (min p.relFence f.strong) else f.release

/-- Put a memory instruction in the air: its place in program order, its path, its parts; what is ready may be performed at once. -/
def launchFlight (s : State) (c : Ctx) (f : Flight) : State :=
  let p := pruneSplit s c.p
  let hist := p.hist
  let f := { f with release := releaseAt p f, floors := joinFloors f.floors p.floors 6 }
  let g := { f with parts := ((List.range f.parts.length).zip f.parts).map (fun e => placePart s hist f e.1 e.2), written := f.dests.isEmpty,
                    answered := f.parts.isEmpty || (!f.parts.any (fun p => p.op.reads) && (f.parts.all (fun p => match p.place with
                      | .global pa => let sl := slotOf s pa; sl != 4 && sl != 6
                      | _ => true)) && !f.parts.any (fun p => p.op == .condWrite)) }
  let ordered : Bool := match f.path with | some k => decide (k ≤ 2) | none => false
  let s1 := addFlight s g
  let s2 := modSplit s1 c.x (fun q => { q with floors := joinFloors q.floors p.floors 6, hist := if ordered then hist ++ [{ flight := f.id, fences := [] }] else hist })
  let s3 := match f.path with | some k => raisePath s2 (groupOf c.x) k | none => s2
  let s4 := (List.range f.parts.length).foldl (fun s k => if Config.freeBit s.draw (6000000 + k) then presentPart s f.id k else s) s3
  retireFlight (closeFlight s4 f.id) f.id

end Sys2Proof.Machine
end

