-- ==== Sys2Proof/Machine/MemInstr.lean ====
section
/-! DEFINITION. Memory instructions: addresses, the checks of every lane, loads and stores, full/empty words, prefetch and line
maintenance (R182 to R197, R256). -/

namespace Sys2Proof.Machine

/-! ## Operands of format M (R182 to R185) -/

/-- Bytes per lane, and data registers (R184). -/
def widthBytes : Width → Nat
  | .b => 1 | .h => 2 | .w => 4 | .d => 8 | .q => 16
def widthRegs : Width → Nat
  | .d => 2 | .q => 4 | _ => 1

/-- The aligned unit of R262. -/
def widthUnit : Width → Nat
  | .q => 4 | .b => 1 | .h => 2 | .w => 4 | .d => 8

/-- R186. -/
def widthAlign : Width → Nat
  | .q => 4 | .b => 1 | .h => 2 | .w => 4 | .d => 8

/-- The number of a scope, 1 to 6 (R95). -/
def scopeNo : Scope → Nat
  | .g => 1 | .wg => 2 | .col => 3 | .twr => 4 | .dev => 5 | .sys => 6

/-- How a memory instruction is ordered: the scopes at which it is strong, an acquire and a release, 0 for none, and the time at which the registers of
its address were written (R95, R265, R268, R269). -/
structure AccessOrder where
  strong : Nat := 0
  acquire : Nat := 0
  release : Nat := 0
  since : Nat := 0
  deriving DecidableEq, Repr

/-- The order of a load, of a store and of an atomic, from the ORD field. -/
def loadOrder (o : MemOrd) (since : Nat) : AccessOrder :=
  match o with
  | .plain => { since := since }
  | .strong sc acq => { strong := scopeNo sc, acquire := if acq then scopeNo sc else 0, since := since }
def storeOrder (o : MemOrd) : AccessOrder :=
  match o with
  | .plain => {}
  | .strong sc rel => { strong := scopeNo sc, release := if rel then scopeNo sc else 0 }
def atomicOrder (o : MemOrd) (since : Nat) : AccessOrder :=
  match o with
  | .plain => { since := since }
  | .strong sc acq => { strong := scopeNo sc, acquire := if acq then scopeNo sc else 0, release := if acq then scopeNo sc else 0, since := since }

/-- OFFSET sign-extended. -/
def off16 (f : MF) : Int := signed 16 f.offset.toNat

/-- The address source, where the word names one; a pair with SBASE = 0 in global space. -/
def addrSrc (f : MF) (global routed : Bool) : List Src :=
  if f.addr = 0 then [] else [{ reg := f.addr.toNat, route := if routed then f.rt else .identity, wide := global && f.sbase == 0 }]

/-- When a register was last written; one of the shadow bank counts as written now (R268). -/
def writtenAt (s : State) (c : Ctx) (r : RegRef) : Nat :=
  match r with
  | .v _ => Table.get c.g.written (regCode r) 0
  | .x _ => Table.get c.g.written (regCode r) 0
  | .s n => Table.get c.p.written n 0
  | .p _ => 0
  | _ => stampOf s

/-- The registers that a route reads. -/
def routeRefs (c : Ctx) : Route → List RegRef
  | .bcast96 q => [sref c q.toNat]
  | .indexed _ x => [.x x.toNat]
  | _ => []

/-- When the registers that give an address were last written. -/
def addressTime (s : State) (c : Ctx) (f : MF) (srcs : List Src) : Nat :=
  ([sref c f.sbase.toNat, sref c (f.sbase.toNat + 1)] ++ srcs.flatMap (fun a => a.regs.map (vref c) ++ routeRefs c a.route)).foldl
    (fun m r => max m (writtenAt s c r)) 0

/-- The 96 values of the address source. -/
def addrIndex (c : Ctx) (f : MF) (global routed : Bool) : List Nat := ((addrSrc f global routed).head?.map c.take).getD []

/-- Global addresses of the lanes. -/
def globalAddrs (c : Ctx) (f : MF) (off : Int) (routed : Bool) : List DWord :=
  let base := if f.sbase = 0 then 0 else c.pair f.sbase.toNat
  let idx := addrIndex c f true routed
  allLanes.map (fun l =>
    let r := idx.getD l 0
    BitVec.ofInt 64 (base + (if f.sbase = 0 then (r : Int) else signed 32 r) + off))

/-- Scratchpad addresses of the lanes. -/
def scratchAddrs (c : Ctx) (f : MF) (routed : Bool) : List DWord :=
  let base := (c.s f.sbase.toNat).toNat
  let idx := addrIndex c f false routed
  allLanes.map (fun l => BitVec.ofNat 64 (wrap 32 (base + idx.getD l 0 + off16 f)))

/-- The address of a scalar access. -/
def scalarAddr (c : Ctx) (f : MF) (off : Int) : DWord := BitVec.ofInt 64 ((if f.sbase = 0 then 0 else c.pair f.sbase.toNat) + off)

/-- The active lanes with their addresses. -/
def activeAddrs (c : Ctx) (addrs : List DWord) : List (Nat × DWord) := (lanesOf c.active).map (fun l => (l, addrs.getD l 0))

/-- Register-index checks: DATA, then ADDR. -/
def memChecks (f : MF) (data : Nat) (wide : Bool) : List IndexCheck :=
  (List.range data).map (fun k => .vec (f.data.toNat + k)) ++
  (if f.addr = 0 then [] else if wide then [.vec f.addr.toNat, .vec (f.addr.toNat + 1)] else [.vec f.addr.toNat])

/-- A word of format M. -/
def memForm (i : Instr) (f : MF) (data : Nat) (global : Bool) (path : Option Nat) : Form :=
  { instr := i, mark := f.mark, checks := memChecks f data (global && f.sbase == 0), needs := { path := path } }

/-- A scalar word of format M. -/
def scalarMemForm (i : Instr) (f : MF) (path : Nat) : Form := { instr := i, mark := f.mark, needs := { path := some path } }

/-- The registers of the source that H names: of 64-bit data or a 64-bit address, the pair. -/
def memHeld (f : MF) (wideAddr : Bool := false) : List Nat :=
  match f.hold with
  | .a => if f.width = .d then [f.data.toNat, f.data.toNat + 1] else [f.data.toNat]
  | .b => if wideAddr then [f.addr.toNat, f.addr.toNat + 1] else [f.addr.toNat]
  | _ => []

/-- The data registers as sources, routed alike. -/
def dataSrcs (f : MF) (n : Nat) : List Src := (List.range n).map (fun k => { reg := f.data.toNat + k, route := f.rt })

/-- The bytes of the data registers in every lane. -/
def dataBytes (c : Ctx) (f : MF) (regs bytes : Nat) : List (List Byte) :=
  let vals := (dataSrcs f regs).map c.take
  allLanes.map (fun l => (vals.flatMap (fun v => bytesOf 4 (v.getD l 0))).take bytes)

/-- The data registers as destinations of a later result. -/
def dataDests (c : Ctx) (f : MF) (regs : Nat) : List Dest := (List.range regs).map (fun k => destOf (vref c (f.data.toNat + k)) c.writes (.lanes []))

/-! ## The checks of R187 -/

/-- An access of R262 with what its address translates to. -/
structure Seen where
  lane : Nat
  base : Nat
  size : Nat
  laneVa : DWord
  va : DWord
  page : WalkEnd
  deriving DecidableEq, Repr

/-- What the checks of every lane come to. -/
inductive Verdict where
  | ok (s : State) (seen : List Seen)
  | trap (code detail lane : Nat) (va : DWord)
  | absent (s : State) (lane : Nat) (va : DWord)
  | busy (s : State)

/-- The first lane whose address is not aligned. -/
def misaligned (align : Nat) (addrs : List (Nat × DWord)) : Option (Nat × DWord) := firstWith (fun e => e.2.toNat % align != 0) addrs

/-- Translate every unit of every lane, one choice for each page of a lane (R360). -/
def translateUnits (s : State) (c : Ctx) (write : Bool) (units : List (Nat × DWord × Nat × Nat)) : Option (State × List Seen) :=
  units.foldl (fun acc u => acc.bind (fun (s, seen) =>
    let va := u.2.1 + BitVec.ofNat 64 u.2.2.1
    let second := va.toNat / 4096 != u.2.1.toNat / 4096
    (translate s c.w.column c.r.space va write (2 * u.1 + (if second then 1 else 0) + 1)).map (fun (s1, w) =>
      (s1, seen ++ [{ lane := u.1, base := u.2.2.1, size := u.2.2.2, laneVa := u.2.1, va := va, page := w }])))) (some (s, []))

/-- The units of the lanes: lane, address, offset, size. -/
def unitsOf (addrs : List (Nat × DWord)) (size unit : Nat) : List (Nat × DWord × Nat × Nat) :=
  addrs.flatMap (fun e => (List.range (size / unit)).map (fun k => (e.1, e.2, k * unit, unit)))

/-- The checks of a global access: alignment, translation and permission, presence. -/
def checkGlobal (s : State) (c : Ctx) (k : AccessKind) (align size unit : Nat) (addrs : List (Nat × DWord)) : Verdict :=
  match misaligned align addrs with
  | some e => .trap 4 0 e.1 e.2
  | none =>
    let write := k == .store || k == .atomic || k == .counterAdd
    match translateUnits s c write (unitsOf addrs size unit) with
    | none => .busy s
    | some (s1, seen) =>
      let rights := rightsOf s1 c.r c.super
      match seen.findSome? (fun u => (pageCheck rights k u.va u.page).map (fun d => (d, u))) with
      | some (d, u) => .trap 5 d u.lane u.laneVa
      | none =>
        match firstWith (fun u => u.page == .notPresent) seen with
        | some u => .absent s1 u.lane u.laneVa
        | none => .ok s1 seen

/-- The checks of a scratchpad access: alignment, bounds, and for `vstm` the window. -/
def checkScratch (c : Ctx) (align size : Nat) (mirrored : Bool) (addrs : List (Nat × DWord)) : Option (Nat × Nat × Nat × DWord) :=
  match misaligned align addrs with
  | some e => some (4, 0, e.1, e.2)
  | none =>
    addrs.findSome? (fun e =>
      let a := e.2.toNat
      if c.w.spadBytes < a + size then some (5, 1, e.1, e.2)
      else if mirrored && !(c.w.fields.wbase ≤ a && a + size ≤ c.w.fields.wbase + c.w.fields.wsize) then some (5, 2, e.1, e.2)
      else none)

/-- The ACCESS code of a fault record (R362). -/
def accessCode : AccessKind → Nat
  | .load => 0 | .store => 1 | .atomic => 2 | .counterAdd => 2 | .counterRead => 0 | .fetch => 3

/-- Park at a page that is not there, with its record (R188, R362). -/
def parkAbsent (s : State) (c : Ctx) (fetch : Bool) (lane access : Nat) (va : DWord) : Act :=
  .park (queueRecord s c.w.region (recordPage c.w c.x.grp fetch va c.p.pc lane access)) (.pageFault fetch va lane access none)

/-- Before an access through a leaf, its A and D bits (R359); none where the access has to wait for them. -/
def touchAll (s : State) (c : Ctx) (write : Bool) (seen : List Seen) : Option State :=
  seen.foldl (fun r u => r.bind (fun s => touchPage s c.w.column c.r.space u.va u.page write)) (some s)

/-- A global access: its checks, then what it does with the units it may touch. -/
def globalAccess (s : State) (c : Ctx) (k : AccessKind) (align size unit : Nat) (addrs : List (Nat × DWord)) (may : Nat → Bool)
    (go : State → List Seen → Act) : Act :=
  match checkGlobal s c k align size unit addrs with
  | .trap code detail lane va => .trap code detail lane va
  | .absent s lane va => parkAbsent s c false lane (accessCode k) va
  | .busy s => .wait s
  | .ok s seen =>
    let mine := seen.filter (fun u => may u.lane)
    match touchAll s c (k == .store || k == .atomic || k == .counterAdd) mine with
    | some s => go s mine
    | none => .wait s

/-- The part of a unit in global memory. -/
def globalUnit (s : State) (u : Seen) (op : PartOp) (data : List Byte) : Part :=
  let leaf := match u.page with
    | .leaf e _ bits => (e, swapPa s (leafPa e bits u.va))
    | _ => (0, 0)
  { lane := u.lane, base := u.base, size := u.size, place := .global leaf.2, va := u.va, kind := pageKind s leaf.1 leaf.2,
    key := pteKey leaf.1, home := pteHome leaf.1, op := op, data := data, state := .queued, level := 0, got := [], after := [], behind := [],
    fenced := 0, bad := false }

/-- A part in the workgroup's scratchpad. -/
def scratchUnit (lane base size off : Nat) (op : PartOp) (data : List Byte) : Part :=
  { lane := lane, base := base, size := size, place := .scratch off, va := BitVec.ofNat 64 off, kind := .rc, key := 0, home := 0, op := op,
    data := data, state := .queued, level := 0, got := [], after := [], behind := [], fenced := 0, bad := false }

/-- The parts of scratchpad lanes, unit by unit. -/
def scratchUnits (addrs : List (Nat × DWord)) (size unit : Nat) (op : PartOp) (data : Nat → List Byte) : List Part :=
  (unitsOf addrs size unit).map (fun u => scratchUnit u.1 u.2.2.1 u.2.2.2 (u.2.1.toNat + u.2.2.1) op (slice (data u.1) u.2.2.1 u.2.2.2))

/-- Put a memory instruction in the air. -/
def launchMem (s : State) (c : Ctx) (kind : FlightKind) (path : Nat) (o : AccessOrder) (parts : List Part) (dests : List Dest) : Act :=
  .done (launchFlight s c { Flight.new s c kind with
    path := some path, since := o.since, strong := o.strong, acquire := o.acquire, release := o.release, parts := parts, dests := dests }) .next

/-! ## Loads and stores (R191, R192) -/

/-- A load from global memory into vector registers. -/
def loadGlobal (i : Instr) (f : MF) (s : State) : Result :=
  let n := widthBytes f.width
  runWord s (fun _ => memForm i f (widthRegs f.width) true (some 0)) (fun s c =>
    let addrs := activeAddrs c (globalAddrs c f (off16 f) true)
    globalAccess s c .load (widthAlign f.width) n (widthUnit f.width) addrs (has c.writes) (fun s seen =>
      launchMem (vectorIssue s c (addrSrc f true true) (memHeld f (f.sbase == 0)) 1) c (.load n) 0
        (loadOrder f.ord (addressTime s c f (addrSrc f true true))) (seen.map (fun u => globalUnit s u .read [])) (dataDests c f (widthRegs f.width))))

/-- A store from vector registers to global memory. -/
def storeGlobal (i : Instr) (f : MF) (s : State) : Result :=
  let n := widthBytes f.width
  runWord s (fun _ => memForm i f (widthRegs f.width) true (some 1)) (fun s c =>
    let addrs := activeAddrs c (globalAddrs c f (off16 f) false)
    let data := dataBytes c f (widthRegs f.width) n
    globalAccess s c .store (widthAlign f.width) n (widthUnit f.width) addrs (has c.writes) (fun s seen =>
      launchMem (vectorIssue s c (dataSrcs f (widthRegs f.width) ++ addrSrc f true false) (memHeld f (f.sbase == 0)) 1) c .store 1
        (storeOrder f.ord) (seen.map (fun u => globalUnit s u .write (slice (data.getD u.lane []) u.base u.size))) []))

/-- R191: vector load, global. -/
def execVld (f : MF) (s : State) : Result := loadGlobal (.vld f) f s

/-- R191: vector store, global. -/
def execVst (f : MF) (s : State) : Result := storeGlobal (.vst f) f s

/-- A scratchpad instruction: its checks, then what it does. -/
def scratchAccess (c : Ctx) (align size : Nat) (mirrored : Bool) (addrs : List (Nat × DWord)) (go : Act) : Act :=
  match checkScratch c align size mirrored addrs with
  | some (code, detail, lane, va) => .trap code detail lane va
  | none => go

/-- R191: vector load, scratchpad. -/
def execVlds (f : MF) (s : State) : Result :=
  let n := widthBytes f.width
  runWord s (fun _ => memForm (.vlds f) f (widthRegs f.width) false (some 0)) (fun s c =>
    let addrs := activeAddrs c (scratchAddrs c f true)
    scratchAccess c (widthAlign f.width) n false addrs
      (launchMem (vectorIssue s c (addrSrc f false true) (memHeld f) 1) c (.load n) 0
        (loadOrder f.ord (addressTime s c f (addrSrc f false true))) (scratchUnits (addrs.filter (fun e => has c.writes e.1)) n (widthUnit f.width) .read (fun _ => [])) (dataDests c f (widthRegs f.width))))

/-- R191: vector store, scratchpad. -/
def execVsts (f : MF) (s : State) : Result :=
  let n := widthBytes f.width
  runWord s (fun _ => memForm (.vsts f) f (widthRegs f.width) false (some 1)) (fun s c =>
    let addrs := activeAddrs c (scratchAddrs c f false)
    let data := dataBytes c f (widthRegs f.width) n
    scratchAccess c (widthAlign f.width) n false addrs
      (launchMem (vectorIssue s c (dataSrcs f (widthRegs f.width) ++ addrSrc f false false) (memHeld f) 1) c .store 1
        (storeOrder f.ord) (scratchUnits (addrs.filter (fun e => has c.writes e.1)) n (widthUnit f.width) .write (fun l => data.getD l [])) []))

/-- A scalar, or a pair, that a later result fills from the bytes it got. -/
def scalarDests (c : Ctx) (n : Nat) (pair : Bool) : List Dest :=
  if n = 0 ∧ !pair then []
  else if pair then [destOf (sref c n) (if n = 0 then 0 else 1) (.word 0), destOf (sref c (n + 1)) 1 (.word 0)]
  else [destOf (sref c n) 1 (.word 0)]

/-- R191: scalar load. -/
def execSld (f : MF) (s : State) : Result :=
  let n := widthBytes f.width
  runWord s (fun _ => scalarMemForm (.sld f) f 0) (fun s c =>
    globalAccess s c .load n n n [(127, scalarAddr c f (off16 f))] (fun _ => true) (fun s seen =>
      launchMem s c (.load n) 0 (loadOrder f.ord (addressTime s c f [])) (seen.map (fun u => globalUnit s u .read []))
        (scalarDests c f.data.toNat (f.width == .d))))

/-- R191: scalar store. -/
def execSst (f : MF) (s : State) : Result :=
  let n := widthBytes f.width
  runWord s (fun _ => scalarMemForm (.sst f) f 1) (fun s c =>
    let data := bytesOf n (c.scalar (f.width == .d) f.data.toNat)
    globalAccess s c .store n n n [(127, scalarAddr c f (off16 f))] (fun _ => true) (fun s seen =>
      launchMem s c .store 1 (storeOrder f.ord) (seen.map (fun u => globalUnit s u .write data)) []))

/-! ## Mirrored stores (R193, R341, R397) -/

/-- The resident workgroups of a mirror set, in ascending column order. -/
def mirrorSet (s : State) (w : Workgroup) : List Workgroup :=
  sortBy (fun a b => a.column ≤ b.column) (s.wgs.filter (fun v => v.region == w.region && v.launch == w.launch && 2 ≤ w.fields.mset &&
    v.index / w.fields.mset == w.index / w.fields.mset))

/-- R193: a store to the mirrored window of every member. -/
def execVstm (f : MF) (s : State) : Result :=
  let n := widthBytes f.width
  runWord s (fun _ => memForm (.vstm f) f (widthRegs f.width) false (some 5)) (fun s c =>
    let addrs := activeAddrs c (scratchAddrs c f false)
    let data := dataBytes c f (widthRegs f.width) n
    scratchAccess c (widthAlign f.width) n true addrs (
      let lanes := addrs.filter (fun e => has c.writes e.1)
      let parts := (mirrorSet s c.w).flatMap (fun m => lanes.map (fun e =>
        { scratchUnit e.1 0 n e.2.toNat .write (data.getD e.1 []) with place := .mirror m.column e.2.toNat }))
      launchMem (vectorIssue s c (dataSrcs f (widthRegs f.width) ++ addrSrc f false false) (memHeld f) 1) c .mirror 5 {} parts []))

/-- The groups' `vstm`s land at a member in issue order: no earlier one of the group still has a part there. -/
def mirrorFirst (s : State) (f : Flight) (column : Nat) : Bool :=
  s.flights.all (fun g => !(g.kind == .mirror && groupOf g.x == groupOf f.x && g.seq < f.seq &&
    g.parts.any (fun p => !p.finished && (match p.place with | .mirror c _ => c == column | _ => false))))

/-- The bytes of a lane of a `vstm` land at a member, where a reader may still miss them (R193, R272, R274). -/
def landLane (s : State) (f : Flight) (m : Workgroup) (k : Nat) (p : Part) (o : Nat) : State :=
  let old := scratchRead ((wgFind s m.id).getD m) o p.size
  let e : PastWrite :=
    { id := f.id, part := k, group := groupOf f.x, path := 5, column := ((wgFind s f.x.wg).map (fun w => w.column)).getD 0, home := some m.id, addr := o,
      old := old.map some, strong := false, near := false, born := f.at_, times := [], news := [], done_ := none, seen := [], after := [], behind := [] }
  { modWg s m.id (fun w => scratchPut w o p.data) with past := s.past ++ [e] }

/-- A `vstm` lands at a member: every lane, the higher lane last; the mark of a granule clears when the store covers it (R429). -/
def landMirror (s : State) (f : Flight) (column : Nat) : State :=
  let mine (p : Part) : Option Nat := match p.place with
    | .mirror c o => if c = column then some o else none
    | _ => none
  let f1 := { f with parts := f.parts.map (fun p => if (mine p).isSome then { p with state := .done } else p) }
  let s1 := modFlight s f.id (fun _ => f1)
  let target := (wgFind s f.x.wg).bind (fun w => firstWith (fun m => m.column == column) (mirrorSet s w))
  match target with
  | none => s1
  | some m =>
    let s2 := ((List.range f.parts.length).zip f.parts).foldl (fun s e => match mine e.2 with | some o => landLane s f m e.1 e.2 o | none => s) s1
    modWg s2 m.id (fun w => { w with scratchPoison := w.scratchPoison.filter (fun g => coverage f1 mine g != 2 ^ 32 - 1) })

/-- R397: a member acknowledges a `vstm`; the last acknowledgement completes it. -/
def execVstmMemberAck (id column : Nat) (s : State) : Result :=
  event "VSTM_MEMBER_ACK" (
    match flightFind s id with
    | none => none
    | some f =>
      if f.kind == .mirror && mirrorFirst s f column &&
         f.parts.any (fun p => !p.finished && (match p.place with | .mirror c _ => c == column | _ => false)) then
        some (retireFlight (landMirror s f column) id)
      else none)

/-! ## Full/empty words (R195, R196) -/

/-- The lanes of a split that have performed. -/
def skipMask (c : Ctx) : Mask := Table.get c.g.skip c.x.slot 0

/-- The lanes that are still to perform, with their addresses. -/
def fullTodo (c : Ctx) (op : FullOp) (f : MF) : List (Nat × DWord) :=
  (activeAddrs c (scratchAddrs c f (op != .stfe))).filter (fun e => has c.writes e.1 && !has (skipMask c) e.1)

/-- The path that a full/empty instruction counts on (R194). -/
def FullOp.path (op : FullOp) : Nat := if op = .stfe then 1 else 0

/-- The order of a full/empty instruction at workgroup scope (R195, R269). -/
def FullOp.order (op : FullOp) : AccessOrder := if op = .stfe then { release := 2 } else { acquire := 2 }

/-- The words that lanes of a split's `ldfe` or `ldff` have taken, as the destination's value. -/
def takenWords (c : Ctx) : List (Nat × Word) := Table.get c.g.taken c.x.slot []

/-- Every lane has performed: a load's words are its result, and the instruction counts on its path until it is complete (R194, R196). -/
def fullEnd (s : State) (c : Ctx) (op : FullOp) (f : MF) : Act :=
  let s1 := modGroup s (groupOf c.x) (fun g => { g with skip := Table.drop g.skip c.x.slot, taken := Table.drop g.taken c.x.slot })
  let mask := ofMask (fun l => (takenWords c).any (fun e => e.1 == l))
  let value := ofLanes (fun l => ((firstWith (fun e => e.1 == l) (takenWords c)).map (·.2)).getD 0)
  launchMem s1 c .value op.path op.order [] (if op = .stfe ∨ mask = 0 then [] else [destOf (vref c f.data.toNat) mask (.lanes value)])

/-- `ldfe`, `ldff` and `stfe`: the checks of every lane, then a park until every lane has performed. -/
def fullEmpty (i : Instr) (op : FullOp) (f : MF) (s : State) : Result :=
  runWord s (fun _ => memForm i f 1 false (some op.path)) (fun s c =>
    let addrs := activeAddrs c (scratchAddrs c f (op != .stfe))
    scratchAccess c 4 4 false addrs (
      let srcs := (if op = .stfe then dataSrcs f 1 else []) ++ addrSrc f false (op != .stfe)
      let s1 := vectorIssue s c srcs (memHeld f) 1
      let data := if op = .stfe then dataBytes c f 1 4 else []
      match fullTodo c op f with
      | [] => fullEnd s1 c op f
      | todo => .park s1 (.fullEmpty op (todo.map (fun e =>
          { lane := e.1, off := e.2.toNat, data := BitVec.ofNat 32 (numOf (data.getD e.1 [])) })))))

/-- R195: load and empty. -/
def execLdfe (f : MF) (s : State) : Result := fullEmpty (.ldfe f) .ldfe f s

/-- R195: load and leave full. -/
def execLdff (f : MF) (s : State) : Result := fullEmpty (.ldff f) .ldff f s

/-- R195: store and fill. -/
def execStfe (f : MF) (s : State) : Result := fullEmpty (.stfe f) .stfe f s

/-- The lane of a full/empty instruction as an access: its place in program order, and what it comes after (R263, R269). -/
def fullAccess (s : State) (c : Ctx) (op : FullOp) (l : FullLane) : Flight × Part :=
  let g := { Flight.new s c .value with path := some op.path, acquire := op.order.acquire, release := op.order.release }
  (g, placePart s (pruneSplit s c.p).hist g 0 (scratchUnit l.lane 0 4 l.off (if op = .stfe then .write else .read) []))

/-- A lane may perform: its word is in the state it needs, it is the lowest lane left at its word, and what comes before it is performed at workgroup
scope. -/
def fullReady (s : State) (c : Ctx) (op : FullOp) (lanes : List FullLane) (l : FullLane) : Bool :=
  let a := fullAccess s c op l
  wordFull c.w l.off == (op != .stfe) && lanes.all (fun m => has (skipMask c) m.lane || m.off / 4 != l.off / 4 || l.lane ≤ m.lane) &&
  edgesMet s a.2.after a.2.behind 2 && cumulative s a.1 a.2 c.w 2

/-- A trap of a park instruction that found poison falls due when it goes on (R428). -/
def poisonedPark (s : State) (c : Ctx) (lane : Nat) : State :=
  let t : TrapInfo := { code := 6, detail := 0, lane := lane, value := 0, pc := c.p.pc, async := true, seq := s.nextId }
  { modSplit s c.x (fun p => { p with pending := p.pending ++ [t] }) with nextId := s.nextId + 1 }

/-- A lane performs. Poisoned data ends the instruction with its trap: no lane of its destination is written (R189, R428). -/
def fullPerform (s : State) (c : Ctx) (op : FullOp) (l : FullLane) : State :=
  let note (s : State) (m : Mask) (words : List (Nat × Word)) : State := modGroup s (groupOf c.x) (fun g =>
    { g with skip := Table.put g.skip c.x.slot (skipMask c ||| m), taken := Table.put g.taken c.x.slot words })
  let bit := BitVec.ofNat 96 (2 ^ l.lane)
  if scratchBad c.w l.off 4 then note (poisonedPark s c l.lane) (BitVec.allOnes 96) []
  else if op = .stfe then
    let a := fullAccess s c op l
    let s1 := noteWrite s a.1 l.lane { a.2 with kind := .rc } c.w (scratchRead c.w l.off 4) 2
    let s2 := completePast { s1 with nextId := s.nextId + 1 } a.1.id
    note (modWg s2 c.x.wg (fun w => setFull (scratchPut w l.off (bytesOf 4 l.data.toNat)) l.off true)) bit (takenWords c)
  else
    let word := BitVec.ofNat 32 (numOf (scratchRead c.w l.off 4))
    let s1 := modSplit s c.x (fun p => { p with floors := raiseFloors p.floors 2 (stampOf s) })
    note (if op = .ldfe then modWg s1 c.x.wg (fun w => setFull w l.off false) else s1) bit (takenWords c ++ [(l.lane, word)])

/-- R195: a lane of a parked full/empty instruction performs. -/
def execFullEmptyLanePerform (x : SplitId) (lane : Nat) (s : State) : Result :=
  event "FULL_EMPTY_LANE_PERFORM" (
    match ctxOf s x with
    | none => none
    | some c =>
      match c.p.state with
      | .parked (.fullEmpty op lanes) _ =>
        (firstWith (fun l => l.lane == lane && !has (skipMask c) l.lane) lanes).bind (fun l =>
          if fullReady s c op lanes l then some { fullPerform s c op l with draw := s.draw + 1 } else none)
      | _ => none)

/-- R195: set the state of each word. -/
def execFeset (f : MF) (s : State) : Result :=
  runWord s (fun _ => memForm (.feset f) f 0 false (some 1)) (fun s c =>
    let addrs := activeAddrs c (scratchAddrs c f true)
    scratchAccess c 4 4 false addrs (
      launchMem (vectorIssue s c (addrSrc f false true) (memHeld f) 1) c .store 1 {}
        ((addrs.filter (fun e => has c.writes e.1)).map (fun e => scratchUnit e.1 0 4 e.2.toNat (.setFull (f.data == 1)) [])) []))

/-! ## Prefetch and line maintenance (R197) -/

/-- R197: a hint that changes no value; a lane whose check fails is dropped. -/
def execVpf (f : MF) (s : State) : Result :=
  runWord s (fun _ => memForm (.vpf f) f 0 true none) (fun s c => .done (vectorIssue s c (addrSrc f true true) (memHeld f (f.sbase == 0)) 1) .next)

/-- `cwb` and `cinv`: one access for each line that a lane names. -/
def lineOp (i : Instr) (op : PartOp) (f : MF) (s : State) : Result :=
  runWord s (fun _ => memForm i f 0 true (some 1)) (fun s c =>
    let addrs := activeAddrs c (globalAddrs c f (off16 f) true)
    globalAccess s c .load 1 1 1 addrs (has c.writes) (fun s seen =>
      let parts := (seen.map (fun u => globalUnit s u op [])).map (fun p => match p.place with
        | .global pa => { p with place := .global (lineBase (lineOf pa)), size := 128 }
        | _ => p)
      launchMem (vectorIssue s c (addrSrc f true true) (memHeld f (f.sbase == 0)) 1) c .line 1 {} parts []))

/-- R197: write back the dirty bytes of lines. -/
def execCwb (f : MF) (s : State) : Result := lineOp (.cwb f) .writeBack f s

/-- R197: write back the dirty bytes of lines and drop the copies. -/
def execCinv (f : MF) (s : State) : Result := lineOp (.cinv f) .drop f s

end Sys2Proof.Machine
end

