-- ==== Sys2Proof/Machine/Atomics.lean ====
section
/-! DEFINITION. Atomics, reservations and counters (R198 to R205). -/

namespace Sys2Proof.Machine

/-! ## Vector atomics (R198 to R200) -/

/-- OP and RET of format M's OFFSET (R198). -/
def atomOp (f : MF) : Nat := field f.offset 0 5
def atomRet (f : MF) : Bool := field f.offset 5 1 == 1

/-- R199: a read-modify-write of each lane, lanes of one address in ascending order. -/
def execAtom (f : MF) (s : State) : Result :=
  let n := widthBytes f.width
  let cas := atomOp f == 1
  let regs := widthRegs f.width * (if cas then 2 else 1)
  runWord s (fun _ => memForm (.atom f) f regs true (some 2)) (fun s c =>
    let addrs := activeAddrs c (globalAddrs c f 0 false)
    let data := dataBytes c f regs (if cas then 2 * n else n)
    globalAccess s c .atomic n n n addrs (has c.writes) (fun s seen =>
      launchMem (vectorIssue s c (dataSrcs f regs ++ addrSrc f true false) (memHeld f (f.sbase == 0)) 1) c (.atomic n) 2
        (atomicOrder f.ord (addressTime s c f (addrSrc f true false))) (seen.map (fun u => globalUnit s u (.atomic (atomOp f) n) (data.getD u.lane [])))
        (if atomRet f then dataDests c f (widthRegs f.width) else [])))

/-- R200: the operation on every element of a 32-byte granule of each lane. -/
def execAtomv (f : MF) (s : State) : Result :=
  let n := widthBytes f.width
  runWord s (fun _ => memForm (.atomv f) f 8 true (some 2)) (fun s c =>
    let addrs := activeAddrs c (globalAddrs c f 0 false)
    let data := dataBytes c f 8 32
    globalAccess s c .atomic 32 32 n addrs (has c.writes) (fun s seen =>
      launchMem (vectorIssue s c (dataSrcs f 8 ++ addrSrc f true false) (memHeld f (f.sbase == 0)) 1) c (.atomic n) 2
        (atomicOrder f.ord (addressTime s c f (addrSrc f true false))) (seen.map (fun u => globalUnit s u (.atomic (atomOp f) n) (slice (data.getD u.lane []) u.base n)))
        (if atomRet f then dataDests c f 8 else [])))

/-! ## The scalar atomic (R201) -/

/-- b of `satom`, and b′ of `cas`; SB = 0 supplies 0 for b. -/
def satomData (c : Ctx) (f : SF) : List Byte :=
  let n := if f.pair then 8 else 4
  let b := if f.sb = 0 then 0 else c.scalar f.pair f.sb.toNat
  let next := f.sb.toNat + (if f.pair then 2 else 1)
  bytesOf n b ++ (if field f.imm 0 5 = 1 then bytesOf n (c.scalar f.pair next) else [])

/-- R201: one read-modify-write. -/
def execSatom (f : SF) (s : State) : Result :=
  let n := if f.pair then 8 else 4
  runWord s (fun _ => { instr := .satom f, mark := f.mark, needs := { path := some 2 } }) (fun s c =>
    let acq := field f.imm 8 1 == 1
    let scope := field f.imm 5 3
    globalAccess s c .atomic n n n [(127, BitVec.ofNat 64 (c.pair f.sa.toNat))] (fun _ => true) (fun s seen =>
      launchMem s c (.atomic n) 2 { strong := scope, acquire := if acq then scope else 0, release := if acq then scope else 0 } (seen.map (fun u => globalUnit s u (.atomic (field f.imm 0 5) n) (satomData c f)))
        (if f.sd = 0 then [] else scalarDests c f.sd.toNat f.pair)))

/-! ## Load-reserved and store-conditional (R202, R203) -/

/-- R202: load and place the group's reservation on the line. -/
def execLres (f : MF) (s : State) : Result :=
  let n := widthBytes f.width
  runWord s (fun _ => scalarMemForm (.lres f) f 0) (fun s c =>
    globalAccess s c .load n n n [(127, scalarAddr c f 0)] (fun _ => true) (fun s seen =>
      launchMem s c (.load n) 0 (loadOrder f.ord (addressTime s c f [])) (seen.map (fun u => globalUnit s u .reserve []))
        (scalarDests c f.data.toNat (f.width == .d))))

/-- R202: store if the reservation is live and covers the line; 0 or 1 to the data register. -/
def execScond (f : MF) (s : State) : Result :=
  let n := widthBytes f.width
  runWord s (fun _ => scalarMemForm (.scond f) f 2) (fun s c =>
    let data := bytesOf n (c.scalar (f.width == .d) f.data.toNat)
    globalAccess s c .store n n n [(127, scalarAddr c f 0)] (fun _ => true) (fun s seen =>
      launchMem s c .cond 2 (storeOrder f.ord) (seen.map (fun u => globalUnit s u .condWrite data))
        (scalarDests c f.data.toNat (f.width == .d))))

/-! ## Counters (R204, R205) -/

/-- b of a counter instruction, read unsigned and zero-extended: IMM32, a scalar, or with PAIR = 1 a pair (R93). -/
def counterB (c : Ctx) (f : SF) : Nat := if f.sb = 0 then immAt f 32 else c.scalar f.pair f.sb.toNat

/-- The address of a counter. -/
def counterVa (c : Ctx) (f : SF) : DWord := if f.pair then BitVec.ofNat 64 (c.pair f.sa.toNat) else BitVec.ofNat 64 (c.s f.sa.toNat).toNat

/-- A counter access: its checks, then its part. -/
def counterAccess (s : State) (c : Ctx) (f : SF) (k : AccessKind) (op : PartOp) (data : List Byte) (go : State → Part → Act) : Act :=
  let addrs := [(127, counterVa c f)]
  if f.pair then
    globalAccess s c k 8 8 8 addrs (fun _ => true) (fun s seen => match seen with
      | u :: _ => go s (globalUnit s u op data)
      | [] => .wait s)
  else scratchAccess c 8 8 false addrs (go s (scratchUnit 127 0 8 (counterVa c f).toNat op data))

/-- The pair that receives the counter's value; SD = 0 names none. -/
def counterDests (c : Ctx) (f : SF) : List Dest := if f.sd = 0 then [] else scalarDests c f.sd.toNat true

/-- R205: add at the counter's home, as a release. -/
def execCtadd (f : SF) (s : State) : Result :=
  runWord s (fun _ => { instr := .ctadd f, mark := f.mark, needs := { path := some 2 } }) (fun s c =>
    counterAccess s c f .counterAdd .counterAdd (bytesOf 8 (counterB c f)) (fun s p =>
      launchMem s c .counter 2 { strong := f.fn.toNat, release := f.fn.toNat } [p] (counterDests c f)))

/-- R205: a strong relaxed read of a counter. -/
def execCtread (f : SF) (s : State) : Result :=
  runWord s (fun _ => { instr := .ctread f, mark := f.mark, needs := { path := some 2 } }) (fun s c =>
    counterAccess s c f .counterRead .counterRead [] (fun s p => launchMem s c .counter 2 { strong := f.fn.toNat } [p] (counterDests c f)))

/-- The value of a counter at its home, and whether it is poisoned; none while the home cannot serve it. -/
def counterNow (s : State) (c : Ctx) (p : Part) : Option (State × Nat × Bool) :=
  match p.place with
  | .global pa => (homeRead s pa 8).map (fun r => (r.1, numOf (keyed s pa p.key r.2.1), r.2.2))
  | .scratch o => some (s, numOf (scratchRead c.w o 8), scratchBad c.w o 8)
  | .mirror _ _ => none

/-- What comes before the read of a `ctwait` in program order is performed (R205, R264, R265). -/
def counterTurn (s : State) (c : Ctx) (f : SF) (p : Part) : Bool :=
  let g := { Flight.new s c .counter with strong := f.fn.toNat, acquire := f.fn.toNat }
  let q := placePart s (pruneSplit s c.p).hist g 0 p
  edgesMet s q.after q.behind 6

/-- The acquire of a satisfied `ctwait`: later reads see what is performed by now, up to its scope (R205, R269, R275). -/
def counterAcquire (s : State) (c : Ctx) (f : SF) : State :=
  modSplit s c.x (fun p => { p with floors := raiseFloors p.floors f.fn.toNat (stampOf s), sfloors := raiseFloors p.sfloors f.fn.toNat (stampOf s) })

/-- R205: wait until the counter is at least b, as an acquire. -/
def execCtwait (f : SF) (s : State) : Result :=
  runWord s (fun _ => { instr := .ctwait f, mark := f.mark }) (fun s c =>
    counterAccess s c f .counterRead .counterRead [] (fun s p =>
      if !counterTurn s c f p then .wait s
      else match counterNow s c p with
        | none => .wait s
        | some (s1, v, bad) =>
          if bad then .done (poisonedPark s1 c 127) .next
          else if v < counterB c f then .park s1 .counter
          else .done (let s2 := counterAcquire s1 c f; if f.sd = 0 then s2 else laterResult s2 c (destScalars c true f.sd.toNat v) 0) .next))

/-- The condition of a parked `ctwait`: the counter has reached b, or its read now fails or is poisoned. -/
def counterReached (s : State) (c : Ctx) (f : SF) : Bool :=
  match counterAccess s c f .counterRead .counterRead [] (fun s p =>
      match counterNow s c p with
      | none => .park s .counter
      | some (s1, v, bad) => if bad || counterB c f ≤ v then .done s1 .next else .park s1 .counter) with
  | .park _ .counter => false
  | .wait _ => false
  | _ => true

end Sys2Proof.Machine
end

