-- ==== Sys2Proof/Machine/Playbill.lean ====
section
/-! DEFINITION. The messages of the coherence protocols as events (R378 to R380, R382, R385 to R387, R390, R393). -/

namespace Sys2Proof.Machine

/-- A push is on its way to a cache before a message of the same line, or a message before a push: the home's order is kept (R386). -/
def pushOrder (s : State) (m : Msg) : Bool :=
  s.msgs.all (fun n => !(n.line == m.line && n.dst == m.dst && n.id < m.id && (n.event == 16) != (m.event == 16) && (m.event == 16 || m.event == 11)))

/-- After a message reached a column: the access that a fill was made for performs, and every access that waits for the line is presented again. -/
def afterMessage (s : State) (m : Msg) (fills : Bool) : State :=
  match m.dst with
  | .col c => retryLine (if fills then performFilled s c m.line else s) c m.line
  | _ => s

/-- A message of an event is taken by its controller; none where it stalls or may not pass another. -/
def takeMessage (name : String) (ev id : Nat) (s : State) : Result :=
  event name (
    match msgFind s id with
    | none => none
    | some m =>
      if m.event != ev || !deliverable s m || !pushOrder s m then none
      else
        let fills := match m.dst with
          | .col _ => (cacheAction s (slotOf s (lineBase m.line)) (lineAt s m.dst m.line).state ev).data == 2
          | _ => false
        (deliver hFuel s m).map (fun s1 => { afterMessage s1 m fills with draw := s.draw + 1 }))

/-- R385: the home receives a read request. -/
def execGets (id : Nat) (s : State) : Result := takeMessage "GETS" 4 id s

/-- R385: the home receives a modify request. -/
def execGetm (id : Nat) (s : State) : Result := takeMessage "GETM" 5 id s

/-- R385: the home receives a write-back; from an agent that is not the recorded owner it is a PUTX. -/
def execPutm (id : Nat) (s : State) : Result := takeMessage "PUTM" 6 id s

/-- R385, R393: a cache receives an invalidation. -/
def execInv (id : Nat) (s : State) : Result := takeMessage "INV" 8 id s

/-- R385: an owner receives a forwarded read request. -/
def execFwds (id : Nat) (s : State) : Result := takeMessage "FWDS" 9 id s

/-- R385: an owner receives a forwarded modify request. -/
def execFwdm (id : Nat) (s : State) : Result := takeMessage "FWDM" 10 id s

/-- R385: a requester receives a line. -/
def execData (id : Nat) (s : State) : Result := takeMessage "DATA" 11 id s

/-- R385: the home receives an acknowledgement of an invalidation. -/
def execAck (id : Nat) (s : State) : Result := takeMessage "ACK" 12 id s

/-- R385: the home receives an owner's bytes. -/
def execWbdata (id : Nat) (s : State) : Result := takeMessage "WBDATA" 14 id s

/-- R385: a cache receives the answer to its write-back. -/
def execPutack (id : Nat) (s : State) : Result := takeMessage "PUTACK" 15 id s

/-- R380: LAST is taken where a count has reached zero. -/
def execLast (s : State) : Result := event "LAST" ((firstWith (fun d => d.lastDue) s.dirs).map (fun d => takeLast s d.place d.line))

/-- One sharer fewer is to merge the bytes of a store; after the last the store is performed (R386). -/
def pushDone (s : State) (part : Option (Nat × Nat)) : State :=
  match part with
  | none => s
  | some (id, k) =>
    let s1 := lessPushing s part
    if ((flightFind s1 id).bind (fun f => f.parts[k]?)).map (fun p => p.state) = some (.pushing 0) then retireFlight (performPart s1 id k) id else s1

/-- R386, R387: a cache merges bytes that the home pushed. -/
def execPushMerge (id : Nat) (s : State) : Result :=
  event "PUSH_MERGE" (
    match msgFind s id with
    | none => none
    | some m =>
      if m.event != 16 || !deliverable s m || !pushOrder s m then none
      else
        some { afterMessage (pushDone (mergeCopy (dropMsg s id) m.dst m.line m.mask m.data) m.part) m false with draw := s.draw + 1 })

end Sys2Proof.Machine
end

