-- ==== Sys2Proof/Machine/Control.lean ====
section
/-! DEFINITION. Control words: branches, calls, hardware loops, splits and joins, and `exit` (R129 to R143, R190); the barrier's
completion (R206). -/

namespace Sys2Proof.Machine

/-! ## Branches (R130 to R133, R137) -/

/-- The target of OFFSET (R88). -/
def branchTarget (c : Ctx) (f : BF) : DWord := c.p.pc + 8 + BitVec.ofInt 64 (8 * signed 32 f.offset.toNat)

/-- A control word may not stand at the end of a live loop level (R136). -/
def atLoopEnd (c : Ctx) : Bool := c.p.loops.any (fun l => l.last == c.p.pc)

/-- Go to a target, leaving the loop levels whose bodies the transfer leaves (R137). -/
def transfer (s : State) (c : Ctx) (target : DWord) : Act :=
  .done (modSplit s c.x (fun p => { p with loops := loopLeave p.loops c.p.pc target })) (.jump target true)

/-- A control word: its own check at a loop's end, then its effect. -/
def controlWord (i : Instr) (f : BF) (body : State → Ctx → Act) (s : State) : Result :=
  runWord s (fun _ => bForm i f) (fun s c => if atLoopEnd c then .illegal i else body s c)

/-- R129: branch. -/
def execBr (f : BF) (s : State) : Result := controlWord (.br f) f (fun s c => transfer s c (branchTarget c f)) s

/-- b of R131. -/
def bcOperand (c : Ctx) (f : BF) : Nat :=
  if field f.aux 11 1 = 0 then wrap 32 (signed 11 (field f.aux 0 11)) else (c.s (field f.aux 0 6)).toNat

/-- R131: branch on a condition. -/
def execBc (f : BF) (s : State) : Result :=
  controlWord (.bc f) f (fun s c =>
    if condHolds 32 f.cond.toNat (c.s f.sa.toNat).toNat (bcOperand c f) then transfer s c (branchTarget c f) else .done s .next) s

/-- R132: call; no level is retired. -/
def execCall (f : BF) (s : State) : Result :=
  controlWord (.call f) f (fun s c => .done (writePair s c f.sa.toNat (c.p.pc + 8).toNat) (.jump (branchTarget c f) true)) s

/-- A jump to an address from a pair: one that is not a multiple of 8 traps here (R88). -/
def jumpTo (target : DWord) (a : Act) : Act := if target.toNat % 8 ≠ 0 then .trap 4 0 127 target else a

/-- R132: return; no level is retired. -/
def execRet (f : BF) (s : State) : Result :=
  controlWord (.ret f) f (fun s c =>
    let t := BitVec.ofNat 64 (c.pair f.sa.toNat)
    jumpTo t (.done s (.jump t true))) s

/-- R132: jump through a pair. -/
def execJr (f : BF) (s : State) : Result :=
  controlWord (.jr f) f (fun s c =>
    let t := BitVec.ofNat 64 (c.pair f.sa.toNat) + BitVec.ofInt 64 (8 * signed 32 f.offset.toNat)
    jumpTo t (transfer s c t)) s

/-- The mask that `bzm` and `bnzm` test (R133). -/
def testedMask (c : Ctx) (f : BF) : Mask := if f.sa = 0 then c.active else c.triple f.sa.toNat &&& c.alive

/-- R133: branch if the mask is zero. -/
def execBzm (f : BF) (s : State) : Result :=
  controlWord (.bzm f) f (fun s c => if testedMask c f = 0 then transfer s c (branchTarget c f) else .done s .next) s

/-- R133: branch if the mask is not zero. -/
def execBnzm (f : BF) (s : State) : Result :=
  controlWord (.bnzm f) f (fun s c => if testedMask c f ≠ 0 then transfer s c (branchTarget c f) else .done s .next) s

/-! ## Loops (R135) -/

/-- The count of `loop`. -/
def loopCount (c : Ctx) (f : BF) : Nat := if f.sa = 0 then f.aux.toNat else (c.s f.sa.toNat).toNat

/-- `loop` may not open a third level, nor end outside the level that encloses it. -/
def loopBad (c : Ctx) (last : DWord) : Bool :=
  match c.p.loops with
  | [] => false
  | [l] => !(l.start.toNat ≤ last.toNat && last.toNat ≤ l.last.toNat)
  | _ => true

/-- R135: open a level; with a count of zero, act as the word at the end address would on completing. -/
def execLoop (f : BF) (s : State) : Result :=
  controlWord (.loop f) f (fun s c =>
    let last := branchTarget c f
    if loopBad c last then .illegal (.loop f)
    else if loopCount c f = 0 then
      let r := loopUpdate c.p.loops last
      .done (modSplit s c.x (fun p => { p with loops := r.1 })) (.jump r.2 false)
    else
      let l : LoopLevel := { count := loopCount c f, start := c.p.pc + 8, last := last }
      .done (modSplit s c.x (fun p => { p with loops := l :: p.loops })) (.jump (c.p.pc + 8) false)) s

/-! ## Splits (R138 to R140) -/

/-- Write a token: its first word, then the mask in the next three. -/
def writeToken (s : State) (c : Ctx) (n : Nat) (word : Nat) (m : Mask) : State := writeTriple (writeS s c n word) c (n + 1) m

/-- The NONE token. -/
def tokenNone : Nat := 0x40000000

/-- The lowest free split slot (R293), and the lowest free join record (DESIGN CHOICE: R140 does not say which record a split takes). -/
def freeSlot (g : Group) : Option Nat := firstWith (fun k => !((g.splits[k]?.map (fun p => p.live)).getD true)) [0, 1, 2, 3]
def freeRecord (g : Group) : Option Nat := firstWith (fun k => !g.joins.any (fun j => j.record == k)) [0, 1, 2]

/-- A hardware split copies what its flights owe: a scalar result that is still open comes to both sides (R138). -/
def shareResults (s : State) (x : SplitId) (slot : Nat) : State :=
  let copy (d : Dest) : List Dest := match d.reg with
    | .s n => if d.slot = x.slot then [d, { d with slot := slot, clobbered := if 61 ≤ n then d.mask else d.clobbered }] else [d]
    | _ => [d]
  { s with flights := s.flights.map (fun f => if groupOf f.x = groupOf x ∧ !f.written then { f with dests := f.dests.flatMap copy } else f) }

/-- The flights of a split go by another slot's name; what it has seen that slot has seen (R259). -/
def renameFlights (s : State) (x : SplitId) (slot : Nat) : State :=
  let y : SplitId := { x with slot := slot }
  unseen (seenAs { s with flights := s.flights.map (fun f => if f.x = x then { f with x := y } else f) } x y) x

/-- A slot that is freed takes no scalar result any more (R134, R141). -/
def dropScalars (s : State) (x : SplitId) : State :=
  { s with flights := s.flights.map (fun f => if groupOf f.x = groupOf x then
      { f with dests := f.dests.filter (fun d => match d.reg with | .s _ => d.slot != x.slot | _ => true) } else f) }

/-- The name of the flights of a split that has ended, until its record's survivor takes them over; 7 where no record names it. -/
def endedSlot (record : Option Nat) : Nat := 4 + record.getD 3

/-- The hardware split: the dividing split gives up T; the new split runs T at the target as a copy of it. -/
def hardwareSplit (s : State) (c : Ctx) (f : BF) (slot rec_ : Nat) (t nt : Mask) : State :=
  let token := 2 ^ 31 + c.g.joinGen * 2 ^ 10 + rec_ * 2 ^ 8 + slot * 4 + c.x.slot
  let target := branchTarget c f
  let s1 := writeToken s c f.sa.toNat token nt
  let child (p : Split) : Split :=
    let q := advance { p with loops := loopLeave p.loops c.p.pc target } c.p.pc f.mark (.jump target true) (columnOf s c.w.column).cycle
    { q with own := t, pending := [], pass := 0, refused := none,
             scalars := Table.put (Table.put (Table.put q.scalars 61 (t.extractLsb' 0 32)) 62 (t.extractLsb' 32 32)) 63 (t.extractLsb' 64 32) }
  let j : JoinRec := { record := rec_, gen := c.g.joinGen, age := c.g.joinAge, newSlot := slot, oldSlot := c.x.slot, newDone := false,
                       oldDone := false, newEnded := false, oldEnded := false, hist := [],
                       floors := noFloors, sfloors := noFloors }
  let s2 := match splitFind s1 c.x with
    | none => s1
    | some p => modGroup s1 (groupOf c.x) (fun g => { g with
        splits := modAt g.splits slot (fun _ => child p), joins := g.joins ++ [j], joinGen := (g.joinGen + 1) % 64, joinAge := g.joinAge + 1 })
  let s3 := modSplit s2 c.x (fun p => { p with own := p.own &&& ~~~ t })
  writeTriple (shareResults (seenAs s3 c.x { c.x with slot := slot }) c.x slot) c 61 nt

/-- R138: divide the split, in hardware or deferred, or branch or fall through. -/
def execSplit (f : BF) (s : State) : Result :=
  controlWord (.split f) f (fun s c =>
    let pm := c.pr (field f.aux 0 3)
    let t := c.active &&& pm
    let nt := c.active &&& ~~~ pm
    if t = 0 then .done (writeToken s c f.sa.toNat tokenNone 0) .next
    else if nt = 0 then transfer (writeToken s c f.sa.toNat tokenNone 0) c (branchTarget c f)
    else match freeSlot c.g, freeRecord c.g with
      | some slot, some rec_ => .done (hardwareSplit s c f slot rec_ t nt) .next
      | _, _ =>
        let s1 := writeToken s c f.sa.toNat (bitsAt (c.p.pc + 8) 3 30) nt
        transfer (writeTriple s1 c 61 t) c (branchTarget c f)) s

/-! ## Joins (R141, R142, R259) -/

/-- A record names a split's slot, which has neither arrived nor ended. -/
def JoinRec.names (j : JoinRec) (slot : Nat) : Bool :=
  (j.newSlot == slot && !j.newDone && !j.newEnded) || (j.oldSlot == slot && !j.oldDone && !j.oldEnded)

/-- Every split of a record has arrived or ended. -/
def JoinRec.full (j : JoinRec) : Bool := (j.newDone || j.newEnded) && (j.oldDone || j.oldEnded)

/-- The slots that arrived, lowest first. -/
def JoinRec.arrived (j : JoinRec) : List Nat :=
  sortBy (fun a b => a ≤ b) ((if j.newDone then [j.newSlot] else []) ++ (if j.oldDone then [j.oldSlot] else []))

/-- Mark a slot arrived, or ended, in a record that names it; its accesses and its floors are left to the survivor. -/
def JoinRec.note (j : JoinRec) (slot : Nat) (ended : Bool) (p : Split) : JoinRec :=
  if !j.names slot then j
  else
    let i := { j with hist := joinHist j.hist p.hist, floors := joinFloors j.floors p.floors 6, sfloors := joinFloors j.sfloors p.sfloors 6 }
    if j.newSlot = slot then { i with newDone := j.newDone || !ended, newEnded := j.newEnded || ended }
    else { i with oldDone := j.oldDone || !ended, oldEnded := j.oldEnded || ended }

/-- A free split slot. -/
def Split.freed (p : Split) : Split :=
  { p with live := false, state := .ended, own := 0, shadows := [], markWait := false, boundary := false, wait := .none, await := [],
           hist := [], pending := [], refused := none, readySince := none, pass := 0, resting := none }

/-- The mask triple of a split as its scalars hold it. -/
def Split.triple (p : Split) : Mask :=
  BitVec.ofNat 96 ((Table.get p.scalars 61 0).toNat + 2 ^ 32 * (Table.get p.scalars 62 0).toNat + 2 ^ 64 * (Table.get p.scalars 63 0).toNat)

/-- The token register of a split parked in a `join`. -/
def Split.joinToken (p : Split) : Nat :=
  match p.state with
  | .parked (.join _ n) _ => n
  | _ => 0

/-- A shadow of a register that belongs to one split alone. -/
def Shadow.scalar (e : Shadow) : Bool := match e.reg with | .s _ => true | _ => false

/-- The survivor after the merge: it owns the union, its triple is the OR, its own results and the others' stay open, but for the others' scalars; what
the record's splits had to see it has to see (R141, R259). -/
def Split.merged (p : Split) (others : List Split) (j : JoinRec) : Split :=
  let m := others.foldl (fun m q => m ||| q.triple) p.triple
  { p with own := others.foldl (fun m q => m ||| q.own) p.own,
           scalars := Table.put (Table.put (Table.put p.scalars 61 (m.extractLsb' 0 32)) 62 (m.extractLsb' 32 32)) 63 (m.extractLsb' 64 32),
           state := .running, hist := joinHist p.hist j.hist, await := (p.await ++ others.flatMap (fun q => q.await)).eraseDups,
           shadows := p.shadows ++ others.flatMap (fun q => (ageShadows q.shadows).filter (fun e => !e.scalar)),
           late := p.late ++ others.flatMap (fun q => q.late.filter (fun e => match e.1 with | .s _ => false | _ => true)),
           floors := joinFloors p.floors j.floors 6, sfloors := joinFloors p.sfloors j.sfloors 6,
           relFence := others.foldl (fun m q => max m q.relFence) p.relFence }

/-- The merge of a full record, or its retirement (R141). -/
def mergeJoin (s : State) (g : GroupId) (j : JoinRec) : State :=
  let s1 := modGroup s g (fun gr => { gr with joins := gr.joins.filter (fun k => k.record != j.record) })
  match j.arrived, groupFind s1 g with
  | v :: rest, some gr =>
    let others := rest.filterMap (fun k => gr.splits[k]?)
    let token := ((gr.splits[v]?).map Split.joinToken).getD 0
    let s2 := modGroup s1 g (fun gr => { gr with
      aLatch := none,
      splits := rest.foldl (fun l k => modAt l k Split.freed) (modAt gr.splits v (fun p => p.merged others j)),
      joins := rest.foldl (fun js k => js.map (fun i => ((gr.splits[k]?).map (i.note k true)).getD i)) gr.joins })
    let at_ (k : Nat) : SplitId := { wg := g.wg, grp := g.grp, slot := k }
    let s3 := (endedSlot (some j.record) :: rest).foldl (fun s k => renameFlights s (at_ k) v) (rest.foldl (fun s k => dropScalars s (at_ k)) s2)
    match ctxOf s3 { wg := g.wg, grp := g.grp, slot := v } with
    | some c => if token = 0 then s3 else writeToken s3 c token tokenNone 0
    | none => s3
  | _, _ => renameFlights s1 { wg := g.wg, grp := g.grp, slot := endedSlot (some j.record) } (endedSlot none)

/-- Merge every full record; a merge may fill another. -/
def resolveJoins (fuel : Nat) (s : State) (g : GroupId) : State :=
  match fuel with
  | 0 => s
  | f + 1 =>
    match (groupFind s g).bind (fun gr => firstWith JoinRec.full gr.joins) with
    | none => s
    | some j => resolveJoins f (mergeJoin s g j) g

/-- Accesses of the split whose home has not answered its checks yet (R189, R190). -/
def answersDue (s : State) (x : SplitId) : Bool := s.flights.any (fun f => f.x == x && !f.answered)

/-- The wait of R190 before a split may end: for the homes' answers, then for delivery of a pending trap here. -/
def drained (s : State) (c : Ctx) (go : Act) : Act :=
  if answersDue s c.x then .wait (modSplit s c.x (fun p => { p with wait := .answers }))
  else if !c.p.pending.isEmpty then .wait (deliverAsync s c.x c.p.pc)
  else go

/-- The younger live records that name a slot. -/
def namedYounger (g : Group) (slot age : Nat) : Bool := g.joins.any (fun j => age < j.age && j.names slot)

/-- The youngest record that names a slot. -/
def youngestNaming (g : Group) (slot : Nat) : Option Nat :=
  ((g.joins.filter (fun j => j.names slot)).foldl (fun (b : Option JoinRec) j => match b with
    | none => some j
    | some i => if i.age < j.age then some j else some i) none).map (fun j => j.record)

/-- R141: a `join`. -/
def execJoin (f : BF) (s : State) : Result :=
  controlWord (.join f) f (fun s c =>
    let n := f.sa.toNat
    let tok := (c.s n).toNat
    let kind := tok / 2 ^ 30
    if kind = 1 then .done s .next
    else if kind = 0 then
      let target := BitVec.ofNat 64 (c.p.pc.toNat / 2 ^ 33 * 2 ^ 33 + tok % 2 ^ 30 * 8)
      let s1 := writeTriple s c 61 (c.triple (n + 1))
      let s2 := writeToken s1 c n (3 * 2 ^ 30 + tok % 2 ^ 30) (c.triple 61)
      transfer (modGroup s2 (groupOf c.x) (fun g => { g with aLatch := none })) c target
    else if kind = 3 then
      let s1 := writeTriple s c 61 (c.triple 61 ||| c.triple (n + 1))
      .done (modGroup (writeToken s1 c n tokenNone 0) (groupOf c.x) (fun g => { g with aLatch := none })) .next
    else
      match firstWith (fun j => j.record == tok / 2 ^ 8 % 4 && j.gen == tok / 2 ^ 10 % 64) c.g.joins with
      | none => .trap 1 0 127 (BitVec.ofNat 64 tok)
      | some j =>
        if !j.names c.x.slot || namedYounger c.g c.x.slot j.age then .trap 1 0 127 (BitVec.ofNat 64 tok)
        else drained s c (
          let s1 := modSplit s c.x (fun p => { p with state := .parked (.join j.record n) (cycleOf s c) })
          let s2 := modGroup s1 (groupOf c.x) (fun g => { g with
            joins := g.joins.map (fun i => if i.record = j.record then i.note c.x.slot false c.p else i) })
          .done (resolveJoins 4 s2 (groupOf c.x)) .next)) s

/-! ## The barrier (R206) -/

/-- A split waits at the barrier, or will again when it returns from a trap that was delivered there. -/
def Split.inBar (p : Split) : Bool := (match p.state with | .parked .bar _ => true | _ => false) || p.resting == some .bar

/-- A group has arrived at the barrier of its workgroup. -/
def Group.atBarrier (g : Group) : Bool :=
  g.ended || g.splits.all (fun p => !p.live || p.inBar)

/-- The accesses of a workgroup on the ld, st and at paths that are still in flight, each before the barrier. -/
def openAccesses (s : State) (wg : Nat) : List HistItem :=
  (s.flights.filter (fun f => f.x.wg == wg && (match f.path with | some k => k ≤ 2 | none => false))).map (fun f => { flight := f.id, fences := [(3, 2)] })

/-- The barrier lets a split go: it sees what its workgroup has performed, and its later accesses come after every earlier one. -/
def Split.throughBar (p : Split) (before : List HistItem) (now : Nat) : Split :=
  { p with state := (match p.state with | .parked .bar _ => .running | st => st), resting := none, floors := raiseFloors p.floors 2 now,
           hist := joinHist (p.hist.map (fun h => h.fence 3 2)) before }

/-- When every group has arrived, every parked split resumes. -/
def barrierCheck (s : State) (wg : Nat) : State :=
  match wgFind s wg with
  | none => s
  | some w =>
    if !w.groups.all Group.atBarrier then s
    else
      modWg s wg (fun w => { w with groups := w.groups.map (fun g => { g with splits := g.splits.map (fun p =>
        if p.inBar then p.throughBar (openAccesses s wg) (stampOf s) else p) }) })

/-! ## Exit (R134) -/

/-- A group ends: its tiles, latches and predicates go; its vector registers stay, for a chain to keep (R342), and its path counters and futures. -/
def endGroup (s : State) (x : SplitId) (core : Nat) : State :=
  let s1 := modGroup s (groupOf x) (fun g => { g with
    ended := true, preds := [], xregs := [], acc := [], accPoison := [], aLatch := none, hold := [], reserved := none, handler := none })
  match (coreOf s core).bank with
  | some y => if y.wg = x.wg ∧ y.grp = x.grp then releaseBank s1 core else s1
  | none => s1

/-- R134: the active lanes exit; a split with no lane left ends, and so does a group. -/
def exitLanes (s : State) (c : Ctx) : State :=
  let gone := c.g.exited ||| c.active
  let s1 := modGroup s (groupOf c.x) (fun g => { g with exited := gone })
  let s2 := if c.p.own &&& ~~~ gone ≠ 0 then s1
    else
      let s3 := renameFlights (dropScalars s1 c.x) c.x (endedSlot (youngestNaming c.g c.x.slot))
      resolveJoins 4 (modGroup s3 (groupOf c.x) (fun g => { g with
        splits := modAt g.splits c.x.slot Split.freed, joins := g.joins.map (fun j => j.note c.x.slot true c.p) })) (groupOf c.x)
  let s3 := if gone = BitVec.allOnes 96 then endGroup s2 c.x c.w.core else s2
  barrierCheck s3 c.x.wg

/-- R134, R190: `exit`. -/
def execExit (f : BF) (s : State) : Result :=
  controlWord (.exit f) f (fun s c => if c.active = 0 then .done s .next else drained s c (.done (exitLanes s c) .next)) s

end Sys2Proof.Machine
end

