-- ==== Sys2Proof/Machine/Sync.lean ====
section
/-! DEFINITION. The barrier, fences, waits and futures (R206 to R211). -/

namespace Sys2Proof.Machine

/-! ## The barrier (R206) -/

/-- R206: arrive at the barrier and wait for every group of the workgroup. -/
def execBar (f : SF) (s : State) : Result :=
  runWord s (fun _ => sForm (.bar f) f) (fun s c =>
    .done (barrierCheck (modSplit s c.x (fun p => { p with state := .parked .bar (cycleOf s c) })) c.x.wg) .next)

/-! ## Fences (R207, R208) -/

/-- A load that a fence of kind ar, acq or sc makes an acquire, at the smaller of the two scopes (R269). -/
def fencedLoad (f : Flight) (scope : Nat) : Flight :=
  if f.parts.any (fun q => q.op.loads && strongOf f q != 0) then { f with acquire := max f.acquire (min scope f.strong) } else f

/-- R207, R269, R271: a fence of its kind and scope stands in the split's program order. Kinds 0, 1 and 3 turn the strong loads before it into acquires,
kinds 0, 2 and 3 the strong stores after it into releases, and after kind 3 the split's reads see all that is performed at the scope. -/
def execFence (f : SF) (s : State) : Result :=
  runWord s (fun _ => sForm (.fence f) f) (fun s c =>
    let kind := field f.imm 0 2
    let scope := f.fn.toNat
    let before := (pruneSplit s c.p).hist
    let s1 := if kind = 2 then s
      else { s with flights := s.flights.map (fun g => if before.any (fun h => h.flight == g.id) then fencedLoad g scope else g) }
    .done (modSplit s1 c.x (fun p =>
      let q := pruneSplit s p
      let fl := if kind = 2 then q.floors else joinFloors q.floors q.sfloors scope
      { q with hist := q.hist.map (fun h => h.fence kind scope), floors := if kind = 3 then raiseFloors fl scope (stampOf s) else fl,
               relFence := if kind = 1 then q.relFence else max q.relFence scope })) .next)

/-- The paths of a mask. -/
def pathsOf (m : Nat) : List Nat := (List.range 6).filter (fun k => m / 2 ^ k % 2 == 1)

/-- The dirty lines of a column's store. -/
def dirtyLines (s : State) (col : Nat) : List Nat :=
  (s.lines.filter (fun c => c.agent == .col col && c.dirty != 0)).map (fun c => c.line)

/-- The dirty lines of a column that the AFTER paths read at the home, where a BEFORE path writes the column store: cp and mx read every line there, and
at the lines of NONCOH (R208, R273, R279). -/
def linesHome (s : State) (col before after : Nat) : List Nat :=
  if !(pathsOf before).any (fun k => k ≤ 2) then []
  else (dirtyLines s col).filter (fun l => (pathsOf after).any (fun k => k == 3 || k == 4 || (k == 2 && slotOf s (lineBase l) == 0)))

/-- Present a write-back of every line that is still dirty. -/
def pushDirty (s : State) (col : Nat) (ls : List Nat) : State :=
  ls.foldl (fun s l => match lineFind s (.col col) l with
    | some c => if c.dirty = 0 then s else evictLine s col c
    | none => s) s

/-- Bytes of some lines are still on their way from a column's store. -/
def bytesUnderWay (s : State) (col : Nat) (ls : List Nat) : Bool := s.msgs.any (fun m => m.src == .col col && m.mask != 0 && ls.contains m.line)

/-- The bytes of some lines that a tower's remote ways hold dirty go home. -/
def cleanTower (s : State) (tower : Nat) (ls : List Nat) : State := cleanWays s (fun c => c.agent == .way tower && ls.contains c.line)

/-- The completed writes of a group on some paths become readable by others at a scope, for the split whose `xfence` it is at once (R208, R272). -/
def publishPaths (s : State) (x : SplitId) (before after scope : Nat) : State :=
  let reads := ((pathsOf after).filterMap readingPath).eraseDups
  { s with past := s.past.map (fun e =>
      if e.group = groupOf x ∧ (pathsOf before).contains e.path ∧ e.done_.isSome then reads.foldl (fun e k => e.publish k scope (stampOf s) (some x)) e else e) }

/-- The wait of `xfence`, at no boundary: first for as many completions on each BEFORE path as its counter held, then for the write-backs. -/
def xfenceWait (s : State) (c : Ctx) (f : SF) (counts : List (Nat × Nat)) (lines : List Nat) : Act :=
  let held (s : State) (w : Wait) : Act := .wait (modSplit s c.x (fun p => { p with wait := w, boundary := false }))
  if !counts.all (fun e => e.2 == 0) then held s (.xfence counts lines)
  else
    let left := lines.filter (dirtyLines s c.w.column).contains
    if !left.isEmpty then held (pushDirty s c.w.column left) (.xfence [] lines)
    else if bytesUnderWay s c.w.column lines then held s (.xfence [] lines)
    else .done (publishPaths (cleanTower s (c.w.column / 48) lines) c.x (field f.imm 0 6) (field f.imm 8 6) f.fn.toNat) .next

/-- R208: wait for the accesses of the BEFORE paths, and write dirty bytes to the home where an AFTER path reads it. -/
def execXfence (f : SF) (s : State) : Result :=
  runWord s (fun _ => sForm (.xfence f) f) (fun s c =>
    let before := field f.imm 0 6
    let lines := linesHome s c.w.column before (field f.imm 8 6)
    match c.p.wait with
    | .xfence [] ls => xfenceWait s c f [] ls
    | .xfence counts _ => xfenceWait s c f counts lines
    | _ => xfenceWait s c f ((pathsOf before).map (fun k => (k, pathOf c.g k))) lines)

/-! ## Path waits (R209) -/

/-- The condition of `wait`. -/
def waitMet (c : Ctx) (f : SF) : Bool := pathOf c.g f.fn.toNat ≤ (if f.sb = 0 then immAt f 32 else (c.s f.sb.toNat).toNat)

/-- R209: wait until a path counter is no more than b. -/
def execWait (f : SF) (s : State) : Result :=
  runWord s (fun _ => sForm (.wait f) f) (fun s c => if waitMet c f then .done s .next else .park s .path)

/-! ## Futures (R210, R211) -/

def futCode : FutState → Nat
  | .pending => 0 | .done => 1 | .partial_ => 2 | .faulted => 3 | .cancelled => 4

/-- A future that the group knows by a handle: outstanding, or among its last 128. -/
def futureFind (g : Group) (h : Word) : Option Future :=
  let recent := g.futures.drop (g.futures.length - 128)
  firstWith (fun f => f.handle == h && (f.outstanding || recent.contains f)) g.futures.reverse

/-- The code of a handle: 7 for one that is not known. -/
def handleCode (g : Group) (h : Word) : Nat := ((futureFind g h).map (fun f => futCode f.state)).getD 7

def modFuture (s : State) (g : GroupId) (h : Word) (f : Future → Future) : State :=
  modGroup s g (fun gr => { gr with futures := gr.futures.map (fun u => if u.handle = h then f u else u) })

/-- An observed code of 1 to 4 ends the future's outstanding status. -/
def observe (s : State) (c : Ctx) (h : Word) (code : Nat) : State :=
  if 1 ≤ code ∧ code ≤ 4 then modFuture s (groupOf c.x) h (fun f => { f with outstanding := false }) else s

/-- R211: wait until the future is no longer pending. -/
def execFwait (f : SF) (s : State) : Result :=
  runWord s (fun _ => sForm (.fwait f) f) (fun s c =>
    let h := c.s f.sa.toNat
    let code := handleCode c.g h
    if code = 0 then .park s .future
    else if code = 2 ∨ code = 3 then .trap 7 code 127 (h.zeroExtend 64)
    else .done (laterResult (observe s c h code) c (destScalar c f.sd.toNat code) 0) .next)

/-- R211: the current code. -/
def execFtest (f : SF) (s : State) : Result :=
  runWord s (fun _ => sForm (.ftest f) f) (fun s c =>
    let h := c.s f.sa.toNat
    let code := handleCode c.g h
    .done (laterResult (observe s c h code) c (destScalar c f.sd.toNat code) 0) .next)

/-- Cancel the future of a handle: a pending one once its engine has stopped, a partial or faulted one at once. -/
def cancelFuture (s : State) (g : GroupId) (h : Word) (code : Nat) : State :=
  if code = 0 then
    { s with copies := s.copies.map (fun k => if k.g = g ∧ k.handle = h ∧ !k.settled then { k with cancel := true } else k),
             commands := s.commands.map (fun m => if m.g = g ∧ m.handle = some h then { m with cancel := true } else m) }
  else if code = 2 ∨ code = 3 then
    let s1 := modFuture s g h (fun f => { f with state := .cancelled })
    { s1 with copies := s1.copies.map (fun k => if k.g = g ∧ k.handle = h then { k with cancel := true } else k) }
  else s

/-- R211: the code found, then the cancellation. -/
def execFcancel (f : SF) (s : State) : Result :=
  runWord s (fun _ => sForm (.fcancel f) f) (fun s c =>
    let h := c.s f.sa.toNat
    let code := handleCode c.g h
    .done (laterResult (cancelFuture s (groupOf c.x) h code) c (destScalar c f.sd.toNat code) 0) .next)

end Sys2Proof.Machine
end

