-- ==== Sys2Proof/Machine/Engine.lean ====
section
/-! DEFINITION. The copy engine, the format table and the residency handles (R216 to R227, R236 to R239). -/

namespace Sys2Proof.Machine

/-! ## Handles and the cp path (R55, R56) -/

/-- The futures a group keeps: those outstanding, and the last 128 it has issued (R210). -/
def keptFutures (fs : List Future) : List Future :=
  (fs.take (fs.length - 128)).filter (fun f => f.outstanding) ++ fs.drop (fs.length - 128)

/-- A new handle of a path, pending (R56, R57). -/
def newFuture (s : State) (c : Ctx) (path : Nat) : State × Word :=
  let h := BitVec.ofNat 32 (path * 2 ^ 28 + c.w.seq * 2 ^ 16 + c.g.nextSerial)
  (modGroup s (groupOf c.x) (fun g => { g with
    futures := keptFutures (g.futures ++ [{ handle := h, state := .pending, outstanding := true }]),
    nextSerial := if g.nextSerial = 0xFFFF then 1 else g.nextSerial + 1 }), h)

/-- The state a future takes when its engine ends. -/
def settleFuture (s : State) (g : GroupId) (h : Word) (st : FutState) : State := modFuture s g h (fun f => { f with state := st })

def copyFind (s : State) (id : Nat) : Option Copy := firstWith (fun k => k.id == id) s.copies
def modCopy (s : State) (id : Nat) (f : Copy → Copy) : State :=
  { s with copies := s.copies.map (fun k => if k.id = id then f k else k) }

/-- Completions of a group's copies counted in issue order; a copy that nothing can name any more is forgotten. -/
def drainCopies (fuel : Nat) (s : State) (g : GroupId) : State :=
  match fuel with
  | 0 => s
  | n + 1 =>
    match firstWith (fun k => k.g == g && !k.counted) s.copies with
    | none => s
    | some k =>
      if k.settled then
        let keep := k.units.any (fun u => u.state == 2) && !k.cancel
        let s1 := lowerPath s g 3
        drainCopies n (if keep then modCopy s1 k.id (fun k => { k with counted := true })
          else { s1 with copies := s1.copies.filter (fun q => q.id != k.id) }) g
      else s

/-- A copy is over: its writes are complete, and its path falls in its turn. -/
def endCopy (s : State) (k : Copy) (st : FutState) : State :=
  drainCopies (s.copies.length + 1) (completePast (modCopy (settleFuture s k.g k.handle st) k.id (fun k => { k with settled := true, landed := false })) k.id) k.g

/-! ## What an engine reads and writes, as readers see it (R221, R230, R258, R272, R273) -/

/-- What a command of a split must see. -/
def viewNow (s : State) (c : Ctx) (follows : Option Nat) : EngineView := { by_ := c.x, at_ := stampOf s, floors := c.p.floors, follows := follows }

/-- A command's reads: those of the copy engine on path cp, of the matrix unit on path mx. -/
def EngineView.reader (v : EngineView) (column path : Nat) : Reader :=
  { x := v.by_, outside := false, column := column, path := path, issue := v.at_, floors := v.floors, coherent := false, follows := v.follows, store := false }

/-- Dirty bytes of lines, the later over the earlier: what ways hold, what is on its way to a home, what column stores hold. -/
def dirtyBytes (s : State) : List (Nat × BitVec 128 × List Byte) :=
  let held (way : Bool) : List (Nat × BitVec 128 × List Byte) :=
    (s.lines.filter (fun c => c.dirty != 0 && c.inWay == way && isTabled (slotOf s (lineBase c.line)))).map (fun c => (c.line, c.dirty, c.data))
  held true ++ (s.msgs.filter (fun m => m.event == 6 || m.event == 12 || m.event == 14)).map (fun m => (m.line, m.mask, m.data)) ++ held false

/-- The newest bytes of global memory: the home's, under what is dirty of a protocol with messages. -/
def newestBytes (s : State) (pa n : Nat) : List Byte :=
  ((dirtyBytes s).filter (fun d => lineBase d.1 < pa + n && pa < lineBase d.1 + 128)).foldl (fun bs d =>
    ((List.range n).zip bs).map (fun b =>
      if lineOf (pa + b.1) = d.1 ∧ d.2.1.getLsbD ((pa + b.1) % 128) then d.2.2.getD ((pa + b.1) % 128) 0 else b.2)) (memRead s pa n)

/-- Global bytes as an engine reads them under a key slot: each aligned word is old or new. -/
def engineGlobal (s : State) (r : Reader) (pa n key : Nat) : List Byte := keyed s pa key (engineBytes s r none pa (newestBytes s pa n))

/-- Bytes of the scratchpad as an engine reads them. -/
def engineScratch (s : State) (r : Reader) (w : Workgroup) (o n : Nat) : List Byte := engineBytes s r (some w.id) o (scratchRead w o n)

/-- Note a write of an engine, one for each aligned word: the bytes that it replaces, none for those that it leaves. -/
def noteEngine (s : State) (id : Nat) (g : GroupId) (path column : Nat) (home : Option Nat) (olds : List (Nat × List (Option Byte))) : State :=
  { s with past := s.past ++ ((List.range olds.length).zip olds).map (fun e =>
      { id := id, part := 65536 * stampOf s + e.1, group := g, path := path, column := column, home := home, addr := e.2.1, old := e.2.2, strong := false, near := false,
        born := stampOf s, times := [], news := [], done_ := none, seen := [], after := [], behind := [] }) }

/-- What an engine's write of `n` bytes replaces, word by word. -/
def oldWords (addr : Nat) (old : List Byte) : List (Nat × List (Option Byte)) :=
  (words4 addr old.length).map (fun w => (addr + w.1, (slice old w.1 w.2).map some))

/-- The writes of an instruction of an engine become readable on every path at a scope: the release of a completion add (R219, R272). -/
def publishWrites (s : State) (id scope : Nat) : State :=
  { s with past := s.past.map (fun e => if e.id = id then [0, 3, 4].foldl (fun e k => e.publish k scope (stampOf s) none) e else e) }

/-! ## Shape records (R217, R218) -/

/-- The units of rows: elements as global and scratchpad bit addresses, grouped by the page of their first bit. -/
def rowUnits (rows : List (Nat × List (Nat × Nat))) : List CopyUnit :=
  rows.flatMap (fun r =>
    ((r.2.map (fun e => e.1 / 8 / 4096)).eraseDups).map (fun pg =>
      let es := r.2.filter (fun e => e.1 / 8 / 4096 == pg)
      { lane := r.1, first := es.foldl (fun m e => min m (e.1 / 8)) (2 ^ 64), elements := es, moved := [], state := 0, cause := 0, addr := 0 }))

/-- A record's elements: their width, PAD, and the units; or the CAUSE of an invalid one. -/
def readShape (raw : List Byte) : Except Nat (Nat × Bool × List CopyUnit) :=
  let base := numAt raw 0 8
  let rows := numAt raw 8 2
  let cols := numAt raw 10 2
  let rstr := signed 32 (numAt raw 12 4)
  let estr := signed 16 (numAt raw 16 2)
  let size := numAt raw 18 1
  let flags := numAt raw 19 1
  let dst := numAt raw 20 4
  let pitch := numAt raw 24 4
  let trans := flags / 2 % 2 == 1
  let pad := flags % 2 == 1
  if rows * cols = 0 then .ok (8, pad, [])
  else if 4 ≤ flags then .error 5
  else if size ≤ 3 then
    let z := 2 ^ size
    if base % z ≠ 0 ∨ dst % z ≠ 0 ∨ pitch % z ≠ 0 then .error 5
    else .ok (8 * z, pad, rowUnits ((List.range rows).map (fun r => (r, (List.range cols).map (fun c =>
      let so : Nat := dst + (if trans then c * pitch + r * z else r * pitch + c * z)
      (8 * wrap 64 ((base : Int) + ((r : Int) * rstr + c * estr) * z), 8 * so))))))
  else if size ≤ 5 then
    let w : Nat := if size = 4 then 4 else 6
    if estr ≠ 1 ∨ trans ∨ (rstr * w) % 8 ≠ 0 ∨ cols * w % 8 ≠ 0 then .error 5
    else .ok (w, pad, rowUnits ((List.range rows).map (fun r => (r, (List.range cols).map (fun c =>
      let so : Nat := 8 * (dst + r * pitch) + c * w
      (wrap 67 (8 * (base : Int) + ((r : Int) * rstr + c) * w), so))))))
  else .error 5

/-- Every landed byte lies inside the allocation. -/
def insideSpad (w : Workgroup) (bits : Nat) (us : List CopyUnit) : Bool :=
  us.all (fun u => u.elements.all (fun e => e.2 + bits ≤ 8 * w.spadBytes))

/-- A page that a unit needs: its number, the physical address of its first byte, its key slot and HOME field. -/
structure UnitPage where
  page : Nat
  pa : Nat
  key : Nat
  home : Nat
  deriving DecidableEq, Repr

/-- What an access by a column's engine at one page comes to: the frame, the key and the HOME field, or a CAUSE and whether PAD may take it (R218, R220). -/
inductive PageFate where
  | at_ (pa key home : Nat)
  | fail (cause : Nat) (mayPad : Bool)
  deriving DecidableEq, Repr

/-- An engine's access to the page of a virtual address, with its group's region and privilege. -/
def enginePage (s : State) (column : Nat) (r : Region) (super : Bool) (k : AccessKind) (va : Nat) : Option (State × PageFate) :=
  let a := BitVec.ofNat 64 va
  match translate s column r.space a (k == .store) (va / 4096 % 1000) with
  | none => none
  | some (s1, w) =>
    match pageCheck (rightsOf s1 r super) k a w with
    | some d => some (s1, .fail 2 (d != 4))
    | none =>
      match w with
      | .leaf e _ bits => (touchPage s1 column r.space a w (k == .store)).map (fun s2 => (s2, .at_ (swapPa s2 (leafPa e bits a)) (pteKey e) (pteHome e)))
      | _ => some (s1, .fail 1 true)

/-- A column's reader for a copy. -/
def Copy.reader (k : Copy) (w : Workgroup) : Reader := k.view.reader w.column 3

/-- The record of a copy: its bytes, or the CAUSE that faults it (R218, R220). -/
def readRecord (s : State) (w : Workgroup) (r : Region) (k : Copy) : Option (State × Except Nat (List Byte)) :=
  match k.recordAt with
  | some (.scratch o, _) =>
    some (s, if o % 32 ≠ 0 then .error 5 else if w.spadBytes < o + 32 then .error 7 else .ok (engineScratch s (k.reader w) w o 32))
  | some (_, va) =>
    if va.toNat % 32 ≠ 0 then some (s, .error 5)
    else (enginePage s w.column r k.privileged .load va.toNat).map (fun e => match e.2 with
      | .fail _ _ => (e.1, .error 6)
      | .at_ pa key home => (homeTouch e.1 pa va.toNat r.space home, .ok (engineGlobal e.1 (k.reader w) pa 32 key)))
  | none => some (s, .ok [])

/-- A copy faults: nothing is moved, and a record is posted. It names the failing lanes of a `cpg`, and the lowest of their addresses (R226). -/
def faultCopy (s : State) (region : Nat) (k : Copy) (cause : Nat) (failing : List CopyUnit) : State :=
  let addr := match k.recordAt with
    | some (.scratch o, _) => o
    | some (_, va) => va.toNat
    | none => (failing.map (fun u => u.first)).foldl (fun (m : Option Nat) a => some (min a (m.getD a))) none |>.getD 0
  endCopy (queueRecord s region (record226 k.handle.toNat cause k.kind (max 1 failing.length) addr (failing.foldl (fun m u => m ||| 2 ^ u.lane) 0) 0 0)) k .faulted

/-- The engine reads and checks the record: the units to move, or a fault. -/
def beginCopy (s : State) (w : Workgroup) (r : Region) (k : Copy) : Option State :=
  match readRecord s w r k with
  | none => none
  | some (s1, .error cause) => some (faultCopy s1 r.id k cause [])
  | some (s1, .ok raw) =>
    match (if k.kind = 2 then .ok (k.bits, k.pad, k.units) else readShape raw) with
    | .error cause => some (faultCopy s1 r.id k cause [])
    | .ok (bits, pad, us) =>
      if insideSpad w bits us then some (modCopy s1 k.id (fun k => { k with ready := true, bits := bits, pad := pad, units := us }))
      else some (faultCopy s1 r.id k 7 (if k.kind = 2 then us.filter (fun u => !insideSpad w bits [u]) else []))

/-! ## Moving a unit (R218 to R222) -/

/-- Pieces of an element within one byte on either side: the global byte, its first bit, the scratchpad bit, and the number of bits. -/
def pieces (fuel g sp n : Nat) : List (Nat × Nat × Nat × Nat) :=
  match fuel with
  | 0 => []
  | f + 1 => if n = 0 then [] else let m := min n (min (8 - g % 8) (8 - sp % 8)); (g / 8, g % 8, sp, m) :: pieces f (g + m) (sp + m) (n - m)

def unitPieces (bits : Nat) (u : CopyUnit) : List (Nat × Nat × Nat × Nat) := u.elements.flatMap (fun e => pieces (bits + 1) e.1 e.2 bits)

/-- The pages that a unit needs. -/
def unitPages (bits : Nat) (u : CopyUnit) : List Nat := ((unitPieces bits u).map (fun p => p.1 / 4096)).eraseDups

/-- The aligned 4-byte word of the destination that a piece lands in. -/
def wordOfPiece (out : Bool) (p : Nat × Nat × Nat × Nat) : Nat := if out then p.1 / 4 else p.2.2.1 / 32

/-- The words of its destination that a unit has still to move, and some of them that move now: any, but at least one (R218). -/
def wordsLeft (out : Bool) (bits : Nat) (u : CopyUnit) : List Nat :=
  ((unitPieces bits u).map (wordOfPiece out)).eraseDups.filter (fun q => !u.moved.contains q)
def someWords (draw : Nat) (l : List Nat) : List Nat :=
  let c := l.filter (fun q => Config.freeBit draw (9500000 + q))
  if c.isEmpty then l.take 1 else c

/-- A field of a byte replaced. -/
def putField (old lo n v : Nat) : Nat := old - old / 2 ^ lo % 2 ^ n * 2 ^ lo + v % 2 ^ n * 2 ^ lo

/-- The bits of a piece in its source byte. -/
def pieceBits (byte lo n : Nat) : Nat := byte / 2 ^ lo % 2 ^ n

/-- Bytes of a space written by a list of pieces, each a byte, a first bit, a number of bits and a value, over what `old` gives. -/
def writtenBytes (old : Nat → Byte) (l : List (Nat × Nat × Nat × Nat)) : List (Nat × Byte) :=
  l.foldl (fun t p => Table.put t p.1 (BitVec.ofNat 8 (putField (Table.get t p.1 (old p.1)).toNat p.2.1 p.2.2.1 p.2.2.2))) []

/-- The bytes that a list of pieces replaces, by aligned word. -/
def replacedWords (old : Nat → Byte) (bytes : List Nat) : List (Nat × List (Option Byte)) :=
  ((bytes.map (· / 4)).eraseDups).map (fun q => (4 * q, [0, 1, 2, 3].map (fun i => if bytes.contains (4 * q + i) then some (old (4 * q + i)) else none)))

/-- Note clean bits of a destination granule. -/
def coverBits (t : Table Nat) (bit n : Nat) : Table Nat :=
  let m := min n (256 - bit % 256)
  let t1 := Table.modify t (bit / 256) 0 (· ||| ((2 ^ m - 1) * 2 ^ (bit % 256)))
  if m < n then Table.modify t1 (bit / 256 + 1) 0 (· ||| (2 ^ (n - m) - 1)) else t1

/-- Granules that a copy has written whole and clean, and those of them whose cover completes with a new one (R429). -/
def wholeGranules (t : Table Nat) : List Nat := (t.filter (fun e => e.2 == 2 ^ 256 - 1)).map (·.1)
def newlyWhole (old new : Table Nat) : List Nat := (wholeGranules new).filter (fun g => !(wholeGranules old).contains g)

/-- The physical byte of a virtual one, and the key slot of its page. -/
def physOf (pages : List UnitPage) (va : Nat) : Nat := ((firstWith (fun p => p.page == va / 4096) pages).map (fun p => p.pa)).getD 0 + va % 4096
def keyOf (pages : List UnitPage) (va : Nat) : Nat := ((firstWith (fun p => p.page == va / 4096) pages).map (fun p => p.key)).getD 0

/-- Marks of scratchpad granules: those whose cover completes are clear, those that took poisoned bytes are set. -/
def markScratch (w : Workgroup) (clear set : List Nat) : Workgroup :=
  { w with scratchPoison := sortBy (fun a b => a ≤ b) ((w.scratchPoison.filter (fun g => !clear.contains g) ++ set).eraseDups) }

/-- Bytes written to the scratchpad by an engine. -/
def putScratch (s : State) (wg id path : Nat) (g : GroupId) (w : Workgroup) (bytes : List (Nat × Byte)) : State :=
  let s1 := noteEngine s id g path w.column (some wg) (replacedWords (scratchByte w) (bytes.map (·.1)))
  modWg s1 wg (fun w => bytes.foldl (fun w b => scratchPut w b.1 [b.2]) w)

/-- Some words of a unit land in the scratchpad; the home lines are read as they stand (R391). -/
def landIn (s : State) (k : Copy) (w : Workgroup) (ps : List (Nat × Nat × Nat × Nat)) (pages : List UnitPage) : State :=
  let words := ((ps.map (fun p => p.1 / 4)).eraseDups).map (fun q => (q, engineGlobal s (k.reader w) (physOf pages (4 * q)) 4 (keyOf pages (4 * q))))
  let byte (va : Nat) : Nat := ((Table.get words (va / 4) []).getD (va % 4) 0).toNat
  let bad (p : Nat × Nat × Nat × Nat) : Bool := poisonedAt s (physOf pages p.1) 1
  let bytes := writtenBytes (scratchByte w) (ps.map (fun p => (p.2.2.1 / 8, p.2.2.1 % 8, p.2.2.2, pieceBits (byte p.1) p.2.1 p.2.2.2)))
  let cover := (ps.filter (fun p => !bad p)).foldl (fun t p => coverBits t p.2.2.1 p.2.2.2) k.covered
  let marked := ((ps.filter bad).map (fun p => p.2.2.1 / 256)).eraseDups
  modCopy (modWg (putScratch s w.id k.id 3 k.g w bytes) w.id (fun w => markScratch w (newlyWhole k.covered cover) marked)) k.id (fun k => { k with covered := cover })

/-- Zeros land for a padded unit. -/
def landPad (s : State) (k : Copy) (w : Workgroup) (u : CopyUnit) : State :=
  let ps := unitPieces k.bits u
  let bytes := writtenBytes (scratchByte w) (ps.map (fun p => (p.2.2.1 / 8, p.2.2.1 % 8, p.2.2.2, 0)))
  let cover := ps.foldl (fun t p => coverBits t p.2.2.1 p.2.2.2) k.covered
  modCopy (modWg (putScratch s w.id k.id 3 k.g w bytes) w.id (fun w => markScratch w (newlyWhole k.covered cover) [])) k.id (fun k => { k with covered := cover })

/-- Bytes at consecutive addresses, gathered into runs. -/
def runsOf (t : List (Nat × Byte)) : List (Nat × List Byte) :=
  match t with
  | [] => []
  | (a, b) :: r =>
    match runsOf r with
    | (a', bs) :: rest => if a' = a + 1 then (a, b :: bs) :: rest else (a, [b]) :: (a', bs) :: rest
    | [] => [(a, [b])]

/-- An engine's write at the home, under a key slot, noted for its readers; a WRITEONCE line moves to W (R389, R391). -/
def deviceWrite (s : State) (id path column : Nat) (g : GroupId) (pa : Nat) (bs : List Byte) (key : Nat) : Option State :=
  (homeAccessN s pa bs.length true).map (fun s =>
    let s1 := homeWrite (noteEngine s id g path column none (oldWords pa (memRead s pa bs.length))) pa bs (some key)
    (granulesOf pa bs.length).foldl (fun s g => writtenOnce s (32 * g)) s1)

/-- A write by an engine of a column that its protocol refuses; what one command writes to a line is a single write (R388, R389). -/
def engineRefused (s : State) (column id : Nat) (pas : List Nat) : Bool :=
  pas.any (fun pa => match entryFor s pa with
    | none => false
    | some (_, e) =>
      (e.slot == 4 && (dirAt s .home (lineOf pa)).state == 1 && !s.past.any (fun w => w.id == id && w.home.isNone && lineOf w.addr == lineOf pa)) ||
      (e.slot == 6 && tokenHolder s e != column))

/-- A write that its protocol drops adds 1 to CONFLICT of its entry, up to 0xFFF (R372, R388, R389). -/
def addConflict (s : State) (pa : Nat) : State :=
  match entryFor s pa with
  | none => s
  | some (n, e) =>
    if 0xFFF ≤ e.conflict then s else { s with playbill := Table.put s.playbill n { e with word1 := e.word1 + 1 } }

/-- A byte that a higher lane of a scatter has landed keeps that lane's value (R222). -/
def keptByHigher (k : Copy) (u : CopyUnit) (va : Nat) : Bool :=
  k.kind == 2 && k.units.any (fun v => u.lane < v.lane && (v.state == 1 || v.moved.contains (va / 4)) && v.state != 2 && v.first ≤ va && va < v.first + k.bits / 8)

/-- Some words of a unit land in global memory at the homes; none while a home cannot serve them. -/
def landOut (s : State) (k : Copy) (w : Workgroup) (ps : List (Nat × Nat × Nat × Nat)) (pages : List UnitPage) : Option State :=
  let lines := (ps.map (fun p => lineOf (physOf pages p.1))).eraseDups
  match lines.foldl (fun (r : Option State) l => r.bind (fun s => homeAccess s l true)) (some s) with
  | none => none
  | some s1 =>
    let words := ((ps.map (fun p => p.2.2.1 / 32)).eraseDups).map (fun q => (q, engineScratch s (k.reader w) w (4 * q) 4))
    let byte (o : Nat) : Nat := ((Table.get words (o / 4) []).getD (o % 4) 0).toNat
    let bytes := writtenBytes (Memory.read s1.mem) (ps.map (fun p => (physOf pages p.1, p.2.1, p.2.2.2, pieceBits (byte (p.2.2.1 / 8)) (p.2.2.1 % 8) p.2.2.2)))
    let bad (p : Nat × Nat × Nat × Nat) : Bool := scratchBad w (p.2.2.1 / 8) 1
    let key := ((pages.head?).map (fun p => p.key)).getD 0
    match (runsOf bytes).foldl (fun (r : Option State) e => r.bind (fun s => deviceWrite s k.id 3 w.column k.g e.1 e.2 key)) (some s1) with
    | none => none
    | some s2 =>
      let cover := (ps.filter (fun p => !bad p)).foldl (fun t p => coverBits t (8 * physOf pages p.1 + p.2.1) p.2.2.2) k.covered
      let marked := ((ps.filter bad).map (fun p => granuleOf (physOf pages p.1))).eraseDups
      some (modCopy (markPoison (clearPoison s2 (newlyWhole k.covered cover)) marked) k.id (fun k => { k with covered := cover }))

/-- The fates of a unit's pages, lowest first. -/
def unitFates (s : State) (w : Workgroup) (r : Region) (k : Copy) (u : CopyUnit) : Option (State × List (Nat × PageFate)) :=
  (sortBy (fun a b => a ≤ b) (unitPages k.bits u)).foldl (fun (acc : Option (State × List (Nat × PageFate))) pg => acc.bind (fun (s, fates) =>
    (enginePage s w.column r k.privileged (if k.out then .store else .load) (pg * 4096)).map (fun (s1, f) => (s1, fates ++ [(pg, f)])))) (some (s, []))

/-- The failure that decides for a unit: under PAD a page that is never padded; its CAUSE and the lowest of its bytes that fail, and whether PAD takes the
unit (R218, R220, R226). -/
def unitFailure (k : Copy) (u : CopyUnit) (fates : List (Nat × PageFate)) : Option (Nat × Nat × Bool) :=
  let fails := fates.filterMap (fun e => match e.2 with
    | .fail cause mayPad => some (cause, max u.first (4096 * e.1), k.pad && mayPad)
    | .at_ _ _ _ => none)
  match fails.filter (fun f => !f.2.2) with
  | f :: _ => some f
  | [] => fails.head?

/-- A moved unit in the slices, one touch a line, in the access counts, and in the admissions log (R363, R370, R452). -/
def noteUnit (s : State) (space : Nat) (k : Copy) (w : Workgroup) (u : CopyUnit) (pages : List UnitPage) : State :=
  let bytes := ((unitPieces k.bits u).map (fun p => p.1)).eraseDups
  let firsts := (bytes.map (fun a => a / 128 * 128)).eraseDups
  let s1 := firsts.foldl (fun s a =>
    let home := ((firstWith (fun p => p.page == a / 4096) pages).map (fun p => p.home)).getD 0
    countAccess (homeTouch s (physOf pages a) a space home) (physOf pages a) (w.column / 48)) s
  let runs := runsOf (bytes.foldl (fun t a => Table.put t (physOf pages a) 0) [])
  runs.foldl (fun s r => logAccess s r.1 r.2.length (!k.out) k.out (((pages.head?).map (fun p => p.key)).getD 0) 1) s1

/-- The `j`-th unit of a copy is over. -/
def markUnit (s : State) (id j st cause addr : Nat) : State :=
  modCopy s id (fun k => { k with units := modAt k.units j (fun u => { u with moved := [], state := st, cause := cause, addr := addr }) })

/-- Some words of a unit have moved; after the last the unit has landed. -/
def movedWords (s : State) (space : Nat) (k : Copy) (w : Workgroup) (j : Nat) (u : CopyUnit) (pages : List UnitPage) (now : List Nat) : State :=
  if (wordsLeft k.out k.bits u).all now.contains then markUnit (noteUnit s space k w u pages) k.id j 1 0 0
  else modCopy s k.id (fun k => { k with units := modAt k.units j (fun u => { u with moved := u.moved ++ now }) })

/-- Move some words of one unit, or fail it; none while it stalls. -/
def moveUnit (s : State) (id j : Nat) : Option State :=
  match copyFind s id with
  | none => none
  | some k =>
    match wgFind s k.g.wg, k.units[j]? with
    | some w, some u =>
      match regionFind s w.region with
      | none => none
      | some r =>
        if u.state ≠ 0 then none
        else if k.kind = 2 ∧ u.first % (k.bits / 8) ≠ 0 then some (markUnit s id j 2 3 u.first)
        else match unitFates s w r k u with
          | none => none
          | some (s1, fates) =>
            match unitFailure k u fates with
            | some (_, _, true) => some (markUnit (if k.out then s1 else landPad s1 k w u) id j 1 0 0)
            | some (cause, addr, false) => some (markUnit s1 id j 2 cause addr)
            | none =>
              let pages := fates.filterMap (fun e => match e.2 with
                | .at_ pa key home => some { page := e.1, pa := pa, key := key, home := home }
                | .fail _ _ => none)
              let pas := (unitPieces k.bits u).map (fun p => physOf pages p.1)
              let now := someWords s.draw (wordsLeft k.out k.bits u)
              let ps := (unitPieces k.bits u).filter (fun p => now.contains (wordOfPiece k.out p))
              if pas.any (stalledAt s1) then none
              else if k.out then
                (if engineRefused s1 w.column id pas then some (markUnit s1 id j 2 2 u.first)
                 else (landOut s1 k w (ps.filter (fun p => !keptByHigher k u p.1)) pages).map (fun s2 => movedWords s2 r.space k w j u pages now))
              else some (movedWords (landIn s1 k w ps pages) r.space k w j u pages now)
    | _, _ => none

/-- Every unit has landed or failed: the copy settles, or its follow-on may issue (R219, R220, R224). -/
def settleCopy (s : State) (id : Nat) : State :=
  match copyFind s id with
  | none => s
  | some k =>
    match (wgFind s k.g.wg).bind (fun w => regionFind s w.region) with
    | none => s
    | some r =>
      if !k.ready || k.settled || k.landed || k.units.any (fun u => u.state == 0) then s
      else
        let failed := k.units.filter (fun u => u.state == 2)
        match sortBy (fun a b => a.addr < b.addr || (a.addr == b.addr && a.lane ≤ b.lane)) failed with
        | worst :: _ =>
          let mask := if k.kind = 2 then failed.foldl (fun m u => m ||| 2 ^ u.lane) 0 else 0
          endCopy (queueRecord s r.id (record226 k.handle.toNat worst.cause k.kind failed.length worst.addr mask 0 0)) k .partial_
        | [] =>
          if k.follow.isSome then modCopy s id (fun k => { k with landed := true })
          else
            let s1 := endCopy s k .done
            match k.counter with
            | none => s1
            | some a => completionAdd (publishWrites s1 k.id k.scope) r k.privileged a.toNat k.handle.toNat k.kind

/-- R219: the engine reads the record, or moves words of some of the units; after the last one the copy settles. -/
def execCopyCompletion (id : Nat) (units : List Nat) (s : State) : Result :=
  event "COPY_COMPLETION" (
    match copyFind s id with
    | none => none
    | some k =>
      if k.settled || k.landed || k.cancel then none
      else if !k.ready then
        (if units.isEmpty then ((wgFind s k.g.wg).bind (fun w => (regionFind s w.region).bind (fun r => beginCopy s w r k))).map (fun s => settleCopy s id)
         else none)
      else if units.isEmpty then none
      else (units.foldl (fun (r : Option State) j => r.bind (fun s => moveUnit s id j)) (some s)).map (fun s => { settleCopy s id with draw := s.draw + 1 }))

/-! ## The copy instructions -/

/-- A word of format E. -/
def eForm (i : Instr) (f : EF) (needs : Needs) : Form := { instr := i, mark := f.mark, needs := needs }

/-- Put a copy in the air: its handle, its path. -/
def launchCopy (s : State) (c : Ctx) (sd path : Nat) (k : Copy) : State :=
  let r := newFuture s c path
  let s1 := raisePath r.1 (groupOf c.x) 3
  writeS { s1 with nextId := s1.nextId + 1, copies := s1.copies ++ [{ k with id := s1.nextId, handle := r.2 }] } c sd r.2.toNat

/-- The record operand: an offset in a scalar, or an address in a pair. -/
def recordOperand (c : Ctx) (f : EF) (local_ : Bool) : Place × DWord :=
  if local_ then (.scratch (c.s f.sa.toNat).toNat, 0) else (.global 0, BitVec.ofNat 64 (c.pair f.sa.toNat))

/-- The counter operand. -/
def counterOperand (c : Ctx) (f : EF) : Option DWord := if f.sb = 0 then none else some (BitVec.ofNat 64 (c.pair f.sb.toNat))

/-- A copy of a split with nothing moved. -/
def Copy.new (s : State) (c : Ctx) (kind : Nat) (out : Bool) : Copy :=
  { id := 0, g := groupOf c.x, handle := 0, kind := kind, out := out, pad := false, bits := 8, ready := false, units := [], counter := none,
    privileged := c.super, follow := none, landed := false, settled := false, cancel := false, covered := [], counted := false, scope := 0, recordAt := none,
    view := viewNow s c none }

/-- R219: copy the elements of a shape record. -/
def execCp (f : EF) (s : State) : Result :=
  runWord s (fun _ => eForm (.cp f) f { path := some 3, future := true }) (fun s c =>
    .done (launchCopy s c f.sd.toNat 3 { Copy.new s c 0 (f.eop == 1) with
      counter := counterOperand c f, scope := field f.flags 2 3, recordAt := some (recordOperand c f (field f.flags 0 1 == 1)) }) .next)

/-- The V register of `cpg`. -/
def cpgV (f : EF) : Nat := field f.flags 0 7

/-- R222: copy one element for each active, guard-true lane. -/
def execCpg (f : EF) (s : State) : Result :=
  runWord s (fun _ => { eForm (.cpg f) f { path := some 3, future := true } with checks := [.vec (cpgV f), .vec (cpgV f + 1)] }) (fun s c =>
    let size := 2 ^ field f.flags 8 3
    let addrs := c.take { reg := cpgV f, wide := true }
    let base := (c.s f.sa.toNat).toNat
    let unit (l : Nat) : CopyUnit :=
      { lane := l, first := addrs.getD l 0, elements := [(8 * addrs.getD l 0, 8 * ((base + l * size) % 2 ^ 32))], moved := [], state := 0, cause := 0, addr := 0 }
    .done (launchCopy (vectorIssue s c [{ reg := cpgV f, wide := true }] [] 1) c f.sd.toNat 3 { Copy.new s c 2 (f.eop == 1) with
      counter := counterOperand c f, scope := field f.flags 12 3, bits := 8 * size, pad := field f.flags 11 1 == 1, units := (lanesOf c.writes).map unit }) .next)

/-- R225: a partial future's failed units are moved again, in the order of the retry; a first completion that is not counted yet keeps its place. -/
def execCpretry (f : EF) (s : State) : Result :=
  runWord s (fun _ => eForm (.cpretry f) f {}) (fun s c =>
    let h := c.s f.sa.toNat
    let code := handleCode c.g h
    if code = 2 then
      (if 255 ≤ pathOf c.g 3 then .wait s
       else
        let mine (k : Copy) : Bool := k.g == groupOf c.x && k.handle == h
        let again := (s.copies.filter mine).map (fun k => { k with
          settled := false, counted := false, landed := false, view := viewNow s c none,
          units := k.units.map (fun u => if u.state = 2 then { u with moved := [], state := 0, cause := 0, addr := 0 } else u) })
        let stays := s.copies.filterMap (fun k =>
          if !mine k then some k else if k.counted then none else some { k with id := s.nextId, handle := 0, units := [], cancel := true })
        let s1 := { settleFuture s (groupOf c.x) h .pending with copies := stays ++ again, nextId := s.nextId + 1 }
        .done (writeS (raisePath s1 (groupOf c.x) 3) c f.sd.toNat code) .next)
    else .done (writeS s c f.sd.toNat code) .next)

/-! ## The format table (R236) -/

/-- R236: write an entry of the region's table. -/
def execFmtset (f : EF) (s : State) : Result :=
  runWord s (fun _ => eForm (.fmtset f) f { path := some 1 }) (fun s c =>
    let n := field f.flags 0 4
    let v := (c.s f.sa.toNat).toNat
    let dflt := field f.flags 4 1 == 1
    let new := if dflt then defaultEntry n else BitVec.ofNat 16 v
    if !dflt && (2 ^ 16 ≤ v || !(Entry.ofBits new).valid) then .illegal (.fmtset f)
    else
      let held := bytesOf 2 (c.r.formats.getD n (defaultEntry n)).toNat
      let old := numOf held
      let fl := { Flight.new s c (.format c.r.id n old) with path := some 1 }
      let s1 := modRegion s c.r.id (fun r => { r with formats := modAt r.formats n (fun _ => new) })
      let noted := noteEngine s1 fl.id (groupOf c.x) formatPath c.w.column none [(formatSpot c.r.id n, held.map some)]
      let s2 : State := { noted with nextId := s1.nextId + 1, flights := s1.flights ++ [fl],
                                     past := noted.past.map (fun e => if e.id = fl.id then e.see c.x e.all else e) }
      .done (raisePath s2 (groupOf c.x) 1) .next)

/-- R236: every core that runs the region holds the entry, which splits that synchronise with a later release read. -/
def execFmtsetCompletion (id : Nat) (s : State) : Result :=
  event "FMTSET_COMPLETION" (
    match flightFind s id with
    | some f => (match f.kind with
      | .format _ _ _ =>
        if f.written then none
        else some (retireFlight (modFlight { s with past := s.past.map (fun e => if e.id = id then e.raise 6 (stampOf s) else e) } id (fun f => { f with written := true })) id)
      | _ => none)
    | none => none)

/-- R236: read an entry. -/
def execFmtget (f : EF) (s : State) : Result :=
  runWord s (fun _ => eForm (.fmtget f) f {}) (fun s c => .done (writeS s c f.sd.toNat (formatEntry s c (field f.flags 0 4)).toNat) .next)

/-! ## Residency handles (R237 to R239, R369) -/

/-- The handles charged to a region's subtree (R331). -/
def handlesHeld (s : State) (region : Nat) : Nat :=
  ((List.range 4).flatMap (fun t => (towerOf s t).handles.filter (fun h => h.2.used && isDescendant s region h.2.region))).length

/-- One more handle fits the budget of every region up to the root. -/
def handleBudget (s : State) (region : Nat) : Bool :=
  (pathToRoot 9 s region).all (fun r => handlesHeld s r.id + 1 ≤ rhmaxOf s r)

/-- The lowest index that is free (DESIGN CHOICE: R238 does not say which of the free handles `rhold` takes). -/
def freeHandle (t : Tower) : Option Nat := firstWith (fun k => !((Table.find t.handles k).map (fun h => h.used)).getD false) (List.range 256)

/-- R237. -/
def residencyWord (gen twr idx : Nat) : Nat := gen * 2 ^ 24 + twr * 2 ^ 8 + idx

/-- R238: register a range; 0 where it may not be. -/
def execRhold (f : EF) (s : State) : Result :=
  runWord s (fun _ => eForm (.rhold f) f {}) (fun s c =>
    let base := c.pair f.sa.toNat
    let size := c.pair f.sb.toNat
    let ok := base % 128 == 0 && size % 128 == 0 && 128 ≤ size && size ≤ 2 ^ 26 && handleBudget s c.r.id
    match (if ok then freeHandle (towerOf s (c.w.column / 48)) else none) with
    | none => .done (laterResult s c (destScalar c f.sd.toNat 0) 0) .next
    | some k =>
      let t := c.w.column / 48
      let gen := match (Table.find (towerOf s t).handles k).map (fun h => h.gen) with
        | none => 1
        | some g => if g = 255 then 1 else g + 1
      let h : Residency := { gen := gen, used := true, region := c.r.id, space := c.r.space, base := BitVec.ofNat 64 base, size := size,
                             prio := field f.flags 0 3, evicted := false }
      let s1 := modTower s t (fun t => { t with handles := Table.put t.handles k h })
      .done (laterResult s1 c (destScalar c f.sd.toNat (residencyWord gen t k)) 0) .next)

/-- The tower and index of a handle that a region registered. -/
def knownHandle (s : State) (region : Nat) (h : Word) : Option (Nat × Nat × Residency) :=
  let t := bitsAt (h.zeroExtend 64) 8 2
  let k := bitsAt (h.zeroExtend 64) 0 8
  match Table.find (towerOf s t).handles k with
  | none => none
  | some r => if r.used && r.region == region && h.toNat == residencyWord r.gen t k then some (t, k, r) else none

/-- R239: lower a handle's priority, and evict its tensor where asked. -/
def execRdemote (f : EF) (s : State) : Result :=
  runWord s (fun _ => eForm (.rdemote f) f {}) (fun s c =>
    let prio := field f.flags 0 3
    let answer (s : State) (n : Nat) : Act := .done (laterResult s c (destScalar c f.sd.toNat n) 0) .next
    match knownHandle s c.r.id (c.s f.sa.toNat) with
    | none => answer s 1
    | some (t, k, r) =>
      if r.prio < prio then answer s 2
      else
        let s1 := modTower s t (fun t => { t with handles := Table.put t.handles k { r with prio := prio } })
        answer (if field f.flags 3 1 = 1 then evictHandle s1 t k else s1) 0)

/-- R239: release a handle. -/
def execRdrop (f : EF) (s : State) : Result :=
  runWord s (fun _ => eForm (.rdrop f) f {}) (fun s c =>
    match knownHandle s c.r.id (c.s f.sa.toNat) with
    | none => .done (laterResult s c (destScalar c f.sd.toNat 1) 0) .next
    | some (t, k, r) =>
      let s1 := modTower s t (fun t => { t with handles := Table.put t.handles k { r with used := false } })
      .done (laterResult s1 c (destScalar c f.sd.toNat 0) 0) .next)

end Sys2Proof.Machine
end

