-- ==== Sys2Proof/Machine/Matrix.lean ====
section
/-! DEFINITION. The matrix unit: `mma`, follow-ons, accumulator moves, and the order of its commands (R81 to R83, R223, R224, R228 to R235). -/

namespace Sys2Proof.Machine

/-! ## The accumulator store (R38, R235) -/

def accKey (tile row col : Nat) : Nat := (tile * 96 + row) * 64 + col
def accAt (g : Group) (tile row col : Nat) : Nat := (Table.get g.acc (accKey tile row col) 0).toNat
def accPoisoned (g : Group) (tile row : Nat) : Bool := g.accPoison.contains (tile * 96 + row)

/-- Mark or clear rows of a tile. -/
def setAccPoison (g : Group) (tile : Nat) (rows : List Nat) (on : Bool) : Group :=
  let ks := rows.map (tile * 96 + ·)
  let rest := g.accPoison.filter (fun k => !ks.contains k)
  { g with accPoison := if on then sortBy (fun a b => a ≤ b) (rest ++ ks) else rest }

/-- Write a run of a row. -/
def setAccRow (g : Group) (tile row : Nat) (vals : List Nat) : Group :=
  { g with acc := ((List.range vals.length).zip vals).foldl (fun t e => Table.put t (accKey tile row e.1) (BitVec.ofNat 32 e.2)) g.acc }

/-! ## The A tile (R229) -/

/-- Registers of an A tile, and its beat windows. -/
def tileRegs (w : Nat) : Nat := 3 * w / 2
def tileWindows (w : Nat) : Nat := if w = 4 then 2 else if w = 16 then 6 else 3

/-- Columns of a product (R90). -/
def mxN (f : XF) : Nat := 16 * 2 ^ f.nc.toNat

/-- The latch serves an `mma`. -/
def latchHit (g : Group) (slot : Nat) (f : XF) : Option (List Lanes) :=
  match g.aLatch with
  | some l => if f.u && l.slot == slot && l.abase == f.abase.toNat && l.fa == f.fa.toNat then some l.rows else none
  | none => none

/-- The latch after an `mma`: kept on a hit, captured with U, released without. -/
def latchAfter (g : Group) (slot : Nat) (f : XF) (active : Mask) (rows : List Lanes) : Option ALatch :=
  if (latchHit g slot f).isSome then g.aLatch
  else if f.u then some { slot := slot, abase := f.abase.toNat, fa := f.fa.toNat, rows := rows.map (fun v => ofLanes (fun l => if has active l then lane v l else 0)) }
  else none

/-- The checks of R97 and R228, in the order of the fields. -/
def mxChecks (f : XF) (wa : Nat) : List IndexCheck :=
  [.tile f.acc.toNat] ++ (if f.nc = 3 then [.tile (f.acc.toNat + 1)] else []) ++ (List.range (tileRegs wa)).map (fun k => .vec (f.abase.toNat + k))

/-! ## The queue (R231) -/

/-- Cycles that a product occupies the unit, in half cycles. -/
def mxOccupancy (w nc : Nat) : Nat := (if w = 4 then 9 else if w = 16 then 72 else 18) * 2 ^ nc

/-- Put a command at the end of the queue. -/
def queueCmd (s : State) (g : GroupId) (core : Nat) (pc : DWord) (op : MxOp) (handle : Option Word) (readyAt : Nat) (view : EngineView) : State :=
  { s with nextId := s.nextId + 1,
           commands := s.commands ++ [{ id := s.nextId, g := g, core := core, pc := pc, op := op, handle := handle, readyAt := readyAt,
                                        started := false, doneAt := 0, fetched := [], cause := 0, cancel := false, view := view }] }

/-- The cycle of a core's column. -/
def coreCycle (s : State) (core : Nat) : Nat := (columnOf s (core / 4)).cycle

/-- The registers of the A tile of an `mma`, and what they hold. -/
def tileNames (f : XF) (wa : Nat) : List Nat := (List.range (tileRegs wa)).map (fun k => f.abase.toNat + k)

/-- Item 4 of R97 for a product, which comes before the word can wait (R104): its tiles and registers. -/
def mxIndex (s : State) (c : Ctx) (f : XF) : List IndexCheck := mxChecks f (Entry.ofBits (formatEntry s c f.fa.toNat)).width

/-- R228: a product of the A tile and B into accumulator tiles. Its A-read windows are lengthened by no bank conflict (R229), and registers that the hold
latch serves are taken from it (R30). -/
def execMma (f : XF) (s : State) : Result :=
  runWord s (fun c => { instr := .mma f, mark := f.mark, checks := mxIndex s c f, needs := { path := some 4, matrix := true } }) (fun s c =>
    let fa := formatEntry s c f.fa.toNat
    let fb := formatEntry s c f.fb.toNat
    let wa := (Entry.ofBits fa).width
    let hit := latchHit c.g c.x.slot f
    let regs := if hit.isSome then [] else tileNames f wa
    let rows := hit.getD (regs.map c.v)
    let windows := if hit.isSome then 1 else tileWindows wa
    let cycle := coreCycle s c.w.core
    let free := cycle + 3 * windows + earlyBy c (regs.filter (fun n => !latched c n)) cycle
    let s1 := modGroup s (groupOf c.x) (fun g => { g with hold := servedHold c regs, aLatch := latchAfter g c.x.slot f c.active rows })
    let s2 := modCore s1 c.w.core (fun k => { k with pipeFree := free, lag := 0 })
    let op : MxOp := .mma f (c.s f.sbr.toNat).toNat fa fb c.writes rows
    .done (raisePath (queueCmd s2 (groupOf c.x) c.w.core c.p.pc op none free (viewNow s c none)) (groupOf c.x) 4) .next)

/-! ## Follow-ons (R223, R224) -/

/-- The X-format fields in FLAGS of `cpmc`. -/
def followWord (flags : BitVec 32) : XF :=
  { mark := false, u := flags.getLsbD 29, na := flags.getLsbD 28, z := flags.getLsbD 27, fa := flags.extractLsb' 23 4, fb := flags.extractLsb' 19 4,
    acc := flags.extractLsb' 16 3, abase := flags.extractLsb' 9 7, sbr := flags.extractLsb' 3 6, nc := flags.extractLsb' 0 3 }

/-- R223: a copy in with a product to follow it. -/
def execCpmc (f : EF) (s : State) : Result :=
  runWord s (fun c => { eForm (.cpmc f) f { path := some 3, future := true } with checks := mxIndex s c (followWord f.flags) }) (fun s c =>
    let x := followWord f.flags
    let fa := formatEntry s c x.fa.toNat
    let fb := formatEntry s c x.fb.toNat
    let follow : Follow := { f := x, shape := (c.s x.sbr.toNat).toNat, fa := fa, fb := fb, rows := c.writes, active := c.active, slot := c.x.slot, pc := c.p.pc,
                             tile := (tileNames x (Entry.ofBits fa).width).map c.v }
    .done (launchCopy s c f.sd.toNat 4 { Copy.new s c 1 false with
      follow := some follow, recordAt := some (recordOperand c f (field f.flags 30 1 == 1)) }) .next)

/-- The A tile that a follow-on reads: a register of a row that was written since its `cpmc` gives its old value or its new one (R224). -/
def followTile (s : State) (g : Group) (fl : Follow) : List Lanes :=
  let regs := tileNames fl.f (Entry.ofBits fl.fa).width
  ((List.range regs.length).zip regs).map (fun e =>
    let now := Table.get g.vregs e.2 []
    let then_ := fl.tile.getD e.1 []
    if now = then_ then now else ofLanes (fun l => if Config.freeBit s.draw (9000000 + 96 * e.1 + l) then lane now l else lane then_ l))

/-- R224: a follow-on issues: Path(mx) rises, Path(cp) falls in its turn, and the A tile is read. A latch that it captures holds zeros for the lanes that were
inactive at its `cpmc` (R229; DESIGN CHOICE: the activity that the `cpmc` fixed is that of the capture). -/
def issueFollow (s : State) (k : Copy) (w : Workgroup) (g : Group) (fl : Follow) : State :=
  let wa := (Entry.ofBits fl.fa).width
  let hit := latchHit g fl.slot fl.f
  let rows := hit.getD (followTile s g fl)
  let cycle := coreCycle s w.core
  let windows := if hit.isSome then 1 else tileWindows wa
  let s1 := modGroup s k.g (fun g => { g with aLatch := latchAfter g fl.slot fl.f fl.active rows })
  let s2 := modCore s1 w.core (fun q => { q with pipeFree := cycle + 3 * windows, lag := 0, claimed := some cycle })
  let s3 := queueCmd s2 k.g w.core fl.pc (.mma fl.f fl.shape fl.fa fl.fb fl.rows rows) (some k.handle) (cycle + 3 * windows)
    { k.view with follows := some k.id }
  let s4 := raisePath s3 k.g 4
  drainCopies (s4.copies.length + 1) (completePast (modCopy s4 k.id (fun k => { k with settled := true, landed := false })) k.id) k.g

/-- The workgroup's capture has succeeded, and its move is next (R305). -/
def moveIsNext (s : State) (w : Workgroup) : Bool := (columnOf s w.column).capture.any (fun k => k.wg == w.id && k.succeeded.isSome)

/-- R224, R288: the follow-on of a landed copy issues where no move is in progress or next, ahead of every split: in a cycle in which its core has not chosen one yet. -/
def execFollowOnMmaIssue (id : Nat) (s : State) : Result :=
  event "FOLLOW_ON_MMA_ISSUE" (
    match copyFind s id with
    | none => none
    | some k =>
      match wgFind s k.g.wg, groupFind s k.g, k.follow with
      | some w, some g, some fl =>
        if k.landed && !k.cancel && s.turn ≤ w.core && g.residence == .core && w.hold != .move && !moveIsNext s w && (coreOf s w.core).pipeFree ≤ coreCycle s w.core &&
           !(columnOf s w.column).issueBarred && pathOf g 4 < 255 && (matrixQueue s w.core).length < 8 then some (issueFollow s k w g fl)
        else none
      | _, _, _ => none)

/-! ## The fetch (R79, R230, R232) -/

/-- `n` bytes of the scratchpad, where they lie inside the allocation. -/
def insideBytes (w : Workgroup) (o n : Nat) : Bool := o + n ≤ w.spadBytes

/-- SIZE for a width. -/
def sizeFor (w : Nat) : Nat := if w = 8 then 0 else if w = 16 then 1 else if w = 4 then 4 else 5

/-- The bit address of element (k, j) of B. -/
def bBit (base : Nat) (rstr estr : Int) (w k j : Nat) : Int :=
  if w = 4 ∨ w = 6 then 8 * (base : Int) + ((k : Int) * rstr + j) * w else 8 * ((base : Int) + ((k : Int) * rstr + j * estr) * ((w / 8 : Nat) : Int))

/-- `n` bits of the scratchpad as the matrix unit reads them. -/
def fetchBits (s : State) (r : Reader) (w : Workgroup) (bit n : Nat) : Nat :=
  let q := bit / 32
  numOf (engineScratch s r w (4 * q) (4 * ((bit % 32 + n + 31) / 32))) / 2 ^ (bit % 32) % 2 ^ n

/-- The record, B and the scales as a command fetches them: the codes, or the CAUSE of R232 in its order. -/
def fetchB (s : State) (r : Reader) (w : Workgroup) (shape n : Nat) (ea eb : Entry) : Except Nat (List Nat) :=
  let wb := eb.width
  if shape % 32 ≠ 0 then .error 5
  else if !insideBytes w shape 32 then .error 7
  else
    let raw := engineScratch s r w shape 32
    let base := numAt raw 0 4
    let rstr := signed 32 (numAt raw 12 4)
    let estr := signed 16 (numAt raw 16 2)
    let scale := numAt raw 28 4
    if numAt raw 8 2 ≠ 48 ∨ numAt raw 10 2 < n ∨ numAt raw 19 1 ≠ 0 ∨ numAt raw 4 4 ≠ 0 ∨ numAt raw 18 1 ≠ sizeFor wb then .error 5
    else if (wb = 4 ∨ wb = 6) ∧ ((rstr * (wb : Int)) % 8 ≠ 0 ∨ estr ≠ 1) then .error 5
    else
      let spots := (List.range n).flatMap (fun j => (List.range 48).map (fun k => bBit base rstr estr wb k j))
      let sb := if eb.scale = 0 then [] else List.range n
      let sa := if ea.scale = 0 then [] else List.range 96
      if spots.any (fun b => b < 0 || decide (8 * (w.spadBytes : Int) < b + wb)) || (!sb.isEmpty && !insideBytes w scale n) ||
         (!sa.isEmpty && !insideBytes w (scale + n) 96) then .error 7
      else if scratchBad w shape 32 || spots.any (fun b => scratchBad w (b.toNat / 8) ((b.toNat % 8 + wb + 7) / 8)) ||
         (!sb.isEmpty && scratchBad w scale n) || (!sa.isEmpty && scratchBad w (scale + n) 96) then .error 4
      else .ok (spots.map (fun b => fetchBits s r w b.toNat wb) ++
        (List.range (n + 96)).map (fun j => if insideBytes w (scale + j) 1 then fetchBits s r w (8 * (scale + j)) 8 else 0))

/-- The fetch of a command whose operands changed while it ran: each element and scale is old or new, and so is a failure (R230). -/
def fetchAgain (draw : Nat) (old new : Except Nat (List Nat)) : Except Nat (List Nat) :=
  match old, new with
  | .ok a, .ok b => .ok (((List.range a.length).zip a).map (fun e =>
      let n := b.getD e.1 0
      if n = e.2 then n else if Config.freeBit draw (9000000 + e.1) then n else e.2))
  | .error a, .error b => if a = b then .error a else if Config.freeBit draw 8999999 then .error b else .error a
  | a, b => if Config.freeBit draw 8999999 then b else a

/-! ## The products (R81, R82) -/

/-- Element k of a lane of an A tile. -/
def aCode (rows : List Lanes) (w i k : Nat) : Nat := (rows.foldr (fun v acc => (lane v i).toNat + 2 ^ 32 * acc) 0) / 2 ^ (w * k) % 2 ^ w

/-- P of R81. -/
def mxProduct (f : XF) (ea eb : Entry) (rows : List Lanes) (fetched : List Nat) (i j : Nat) : Val :=
  let n := mxN f
  let terms := (List.range 48).map (fun k => (ea.dec (aCode rows ea.width i k)).mul (eb.dec (fetched.getD (48 * j + k) 0)))
  let p := ((Val.sum terms 0).mul (scaleOf ea.scale (fetched.getD (48 * n + n + i) 0))).mul (scaleOf eb.scale (fetched.getD (48 * n + j) 0))
  if p.isZero then .zero false else if f.na then p.negate else p

/-- The new element. -/
def mxElement (f : XF) (old : Nat) (p : Val) : Nat := if f.z then fp32.encode 0 p else fp32.encode 0 ((fp32.value old).add p 0)

/-- The tiles that a product spans. -/
def mxTiles (f : XF) : List Nat := if f.nc = 3 then [f.acc.toNat, f.acc.toNat + 1] else [f.acc.toNat]

/-- A product takes effect on its tiles, or its fetch has failed (R232, R235). -/
def applyMma (s : State) (m : MxCmd) (w : Workgroup) (f : XF) (fa fb : BitVec 16) (rows : Mask) (a : List Lanes) : State :=
  let n := mxN f
  let rs := lanesOf rows
  if m.cause ≠ 0 then
    let s1 := modGroup s m.g (fun g => (mxTiles f).foldl (fun g t => setAccPoison g t rs true) g)
    queueRecord s1 w.region (record226 ((m.handle.map BitVec.toNat).getD 0) m.cause 3 1 m.pc.toNat rows.toNat (f.acc.toNat + (if f.nc = 3 then 0x80 else 0)) 0)
  else
    let ea := Entry.ofBits fa
    let eb := Entry.ofBits fb
    modGroup s m.g (fun g =>
      let g1 := (mxTiles f).foldl (fun g t =>
        rs.foldl (fun g i => setAccRow g t i ((List.range (min n 64)).map (fun j =>
          mxElement f (accAt g t i j) (mxProduct f ea eb a m.fetched i (j + 64 * (t - f.acc.toNat)))))) g) g
      if f.z && 64 ≤ n then (mxTiles f).foldl (fun g t => setAccPoison g t rs false) g1 else g1)

/-! ## Accumulator moves (R233 to R235) -/

def accSize (fmt : Nat) : Nat := if fmt = 0 then 4 else 2

/-- An element in memory, from and to fp32. -/
def accLoad (fmt v : Nat) : Nat :=
  match fmt with
  | 0 => v
  | 1 => fp32.encode 0 (fp16.value v)
  | _ => fp32.encode 0 (bf16.value v)
def accStore (fmt v : Nat) : Nat :=
  match fmt with
  | 0 => fp32.encode 0 (fp32.value v)
  | 1 => fp16.encode 0 (fp32.value v)
  | _ => bf16.encode 0 (fp32.value v)

/-- The bytes of a part of a row as they stand for the matrix unit, word by word, and whether any is poisoned. -/
def accPart (s : State) (r : Reader) (w : Workgroup) (p : Part) : List Byte × Bool :=
  match p.place with
  | .global pa => (engineGlobal s r pa p.size p.key, poisonedAt s pa p.size)
  | .scratch o => (engineScratch s r w o p.size, scratchBad w o p.size)
  | .mirror _ _ => ([], false)

/-- A part of a row in the slices and the access counts, one access a line, and in the admissions log (R363, R370, R452). -/
def notePart (s : State) (w : Workgroup) (p : Part) (write : Bool) : State :=
  let space := ((regionFind s w.region).map (fun r => r.space)).getD 0
  match p.place with
  | .global pa =>
    let lines := ((List.range p.size).map (fun i => lineOf (pa + i))).eraseDups
    logAccess (lines.foldl (fun s l => countAccess (homeTouch s (lineBase l) (p.va.toNat / 128 * 128) space p.home) (lineBase l) (w.column / 48)) s)
      pa p.size (!write) write p.key 2
  | _ => s

/-- Rows are loaded. -/
def applyAccld (s : State) (m : MxCmd) (w : Workgroup) (tile fmt : Nat) (rows : Mask) (parts : List Part) : State :=
  let z := accSize fmt
  let got := parts.map (fun p => (p, accPart s (m.view.reader w.column 4) w p))
  modGroup (parts.foldl (fun s p => notePart s w p false) s) m.g (fun g => (lanesOf rows).foldl (fun g i =>
    let mine := got.filter (fun e => e.1.lane == i)
    let bs := mine.flatMap (fun e => e.2.1)
    setAccPoison (setAccRow g tile i ((List.range 64).map (fun j => accLoad fmt (numAt bs (z * j) z)))) tile [i] (mine.any (fun e => e.2.2))) g)

/-- Rows are stored; a poisoned row marks what it writes, a clean one clears whole granules (R235, R429). -/
def applyAccst (s : State) (m : MxCmd) (w : Workgroup) (g : Group) (tile fmt : Nat) (parts : List Part) : Option State :=
  let z := accSize fmt
  let bytes (p : Part) : List Byte := slice ((List.range 64).flatMap (fun j => bytesOf z (accStore fmt (accAt g tile p.lane j)))) p.base p.size
  let refused := engineRefused s w.column m.id
  parts.foldl (fun (r : Option State) p => r.bind (fun s =>
    let bad := accPoisoned g tile p.lane
    match p.place with
    | .global pa =>
      if refused [pa] then some (addConflict s pa)
      else (deviceWrite s m.id 4 w.column m.g pa (bytes p) p.key).map (fun s =>
        let s := notePart s w p true
        if bad then markPoison s (granulesOf pa p.size) else clearPoison s (granulesOf pa p.size))
    | .scratch o => some (modWg (noteEngine s m.id m.g 4 w.column (some m.g.wg) (oldWords o (scratchRead w o p.size))) m.g.wg (fun w =>
        let w1 := scratchPut w o (bytes p)
        let gs := granulesOf o p.size
        let rest := w1.scratchPoison.filter (fun g => !gs.contains g)
        { w1 with scratchPoison := if bad then sortBy (fun a b => a ≤ b) (rest ++ gs) else rest }))
    | .mirror _ _ => some s)) (some s)

/-- The effect of a command; none while a home cannot serve it. -/
def applyCmd (s : State) (m : MxCmd) : Option State :=
  match wgFind s m.g.wg, groupFind s m.g with
  | some w, some g =>
    match m.op with
    | .mma f _ fa fb rows a => some (applyMma s m w f fa fb rows a)
    | .accld tile fmt rows parts => some (applyAccld s m w tile fmt rows parts)
    | .accst tile fmt _ parts => applyAccst s m w g tile fmt parts
    | .acczero tile rows => some (modGroup s m.g (fun g =>
        (lanesOf rows).foldl (fun g i => setAccPoison (setAccRow g tile i (List.replicate 64 0)) tile [i] false) g))
  | _, _ => some s

/-- The parts of the rows of an accumulator move: 32-byte granules. -/
def accMove (i : Instr) (f : EF) (op : PartOp) (k : AccessKind) (build : Nat → Nat → Mask → List Part → MxOp) (s : State) : Result :=
  let tile := field f.flags 0 3
  let fmt := field f.flags 4 2
  let row := 64 * accSize fmt
  runWord s (fun _ => { eForm i f { path := some 4, future := f.sd != 0, matrix := true } with checks := [.tile tile] }) (fun s c =>
    let pitch := if f.sb = 0 then row else (c.s f.sb.toNat).toNat
    let base := if field f.flags 3 1 = 1 then (c.s f.sa.toNat).toNat else c.pair f.sa.toNat
    let wide := if field f.flags 3 1 = 1 then 32 else 64
    let addrs := (lanesOf c.active).map (fun l => (l, BitVec.ofNat 64 ((base + l * pitch) % 2 ^ wide)))
    let launch (s : State) (parts : List Part) : Act :=
      let r := if f.sd = 0 then (s, none) else (fun (e : State × Word) => (writeS e.1 c f.sd.toNat e.2.toNat, some e.2)) (newFuture s c 4)
      .done (raisePath (queueCmd r.1 (groupOf c.x) c.w.core c.p.pc (build tile fmt c.writes parts) r.2 (coreCycle s c.w.core) (viewNow s c none)) (groupOf c.x) 4) .next
    if field f.flags 3 1 = 1 then
      scratchAccess c 32 row false addrs (launch s (scratchUnits (addrs.filter (fun e => has c.writes e.1)) row 32 op (fun _ => [])))
    else globalAccess s c k 32 row 32 addrs (has c.writes) (fun s seen => launch s (seen.map (fun u => globalUnit s u op []))))

/-- R233: load rows of a tile. -/
def execAccld (f : EF) (s : State) : Result := accMove (.accld f) f .read .load (fun t m r p => .accld t m r p) s

/-- R233: store rows of a tile. -/
def execAccst (f : EF) (s : State) : Result := accMove (.accst f) f .write .store (fun t m r p => .accst t m r p) s

/-- R234: zero rows of a tile. -/
def execAcczero (f : EF) (s : State) : Result :=
  runWord s (fun _ => { eForm (.acczero f) f { path := some 4, matrix := true } with checks := [.tile (field f.flags 0 3)] }) (fun s c =>
    .done (raisePath (queueCmd s (groupOf c.x) c.w.core c.p.pc (.acczero (field f.flags 0 3) c.writes) none (coreCycle s c.w.core) (viewNow s c none)) (groupOf c.x) 4) .next)

/-! ## The unit (R230, R231) -/

def cmdFind (s : State) (id : Nat) : Option MxCmd := firstWith (fun m => m.id == id) s.commands
def modCmd (s : State) (id : Nat) (f : MxCmd → MxCmd) : State := { s with commands := s.commands.map (fun m => if m.id = id then f m else m) }

/-- The first command of its group. -/
def firstOfGroup (s : State) (m : MxCmd) : Bool := ((firstWith (fun q => q.g == m.g) s.commands).map (fun q => q.id)) == some m.id

/-- What an `mma` fetches now; none for another command. -/
def fetchNow (s : State) (m : MxCmd) : Option (Except Nat (List Nat)) :=
  match m.op with
  | .mma f shape fa fb _ _ => some (match wgFind s m.g.wg with
    | none => .error 7
    | some w => fetchB s (m.view.reader w.column 4) w shape (mxN f) (Entry.ofBits fa) (Entry.ofBits fb))
  | _ => none

/-- A command with what it has fetched. -/
def MxCmd.took (m : MxCmd) (got : Except Nat (List Nat)) : MxCmd :=
  match got with
  | .error e => { m with cause := e, fetched := [] }
  | .ok l => { m with cause := 0, fetched := l }

/-- Half cycles that a command occupies the unit. -/
def MxOp.occupies : MxOp → Nat
  | .mma f _ fa fb _ _ => mxOccupancy (max (Entry.ofBits fa).width (Entry.ofBits fb).width) f.nc.toNat
  | _ => 0

/-- A command starts: it occupies the unit from the half cycle in which that is free, and completes 12 cycles after the last cycle in which it does; an `mma`
fetches its record, B and scales (R230, R231). -/
def startCmd (s : State) (m : MxCmd) : State :=
  let end_ := max (2 * coreCycle s m.core) (coreOf s m.core).mxFree + m.op.occupies
  let s1 := modCore s m.core (fun k => { k with mxFree := end_ })
  let m1 := match fetchNow s m with | some got => m.took got | none => m
  modCmd s1 m.id (fun _ => { m1 with started := true, doneAt := (if m.op.occupies = 0 then coreCycle s m.core else (end_ - 1) / 2) + 12 })

/-- R230: the next command of a core's queue starts, once its A read is over and the unit is free in one half of the cycle (R231). -/
def execMatrixCommandStart (id : Nat) (s : State) : Result :=
  event "MATRIX_COMMAND_START" (
    match cmdFind s id with
    | none => none
    | some m =>
      if !m.started && !m.cancel && ((matrixQueue s m.core).head?.map (fun q => q.id)) == some id && m.readyAt ≤ coreCycle s m.core &&
         (coreOf s m.core).mxFree ≤ 2 * coreCycle s m.core + 1 then some { startCmd s m with draw := s.draw + 1 }
      else none)

/-- The command with its operands as it has them at its completion: what software wrote meanwhile is old or new (R230). -/
def lastFetch (s : State) (m : MxCmd) : MxCmd :=
  match fetchNow s m with
  | none => m
  | some new => m.took (fetchAgain s.draw (if m.cause = 0 then .ok m.fetched else .error m.cause) new)

/-- A command is over: Path(mx) falls, and its future settles. -/
def endCmd (s : State) (m : MxCmd) (st : FutState) : State :=
  let s1 := lowerPath { completePast s m.id with commands := s.commands.filter (fun q => q.id != m.id) } m.g 4
  match m.handle with
  | none => s1
  | some h => settleFuture s1 m.g h st

/-- A command's group has its tiles in its core (R300). -/
def tilesInCore (s : State) (m : MxCmd) : Bool := ((groupFind s m.g).map (fun g => g.residence == .core)).getD true

/-- R231: a command completes, in the issue order of its group; that of a demoted group waits for the recall (R300). -/
def execMatrixCommandComplete (id : Nat) (s : State) : Result :=
  event "MATRIX_COMMAND_COMPLETE" (
    match cmdFind s id with
    | none => none
    | some m =>
      if m.started && !m.cancel && m.doneAt ≤ coreCycle s m.core && firstOfGroup s m && tilesInCore s m then
        (applyCmd s (lastFetch s m)).map (fun t => { endCmd t m .done with draw := s.draw + 1 })
      else none)

/-! ## Cancellation (R211) -/

/-- Each element of the tiles holds its old value or its new one. -/
def blendAcc (draw : Nat) (old new : Table Word) : Table Word :=
  new.map (fun e => if Config.freeBit draw (7000000 + e.1) then e else (e.1, Table.get old e.1 0))

/-- A cancelled command stops: what it had in progress is done for some of its units, and for none while its group is demoted. -/
def stopCmd (s : State) (m : MxCmd) : State :=
  let part : MxCmd := match m.op with
    | .accst t k r ps =>
      let kept := ((List.range ps.length).zip ps).filterMap (fun e => if Config.freeBit s.draw (7000000 + e.1) then some e.2 else none)
      { m with op := MxOp.accst t k r kept }
    | _ => m
  let s1 := if m.started && tilesInCore s m then (applyCmd s part).getD s else s
  let s2 := match groupFind s m.g with
    | none => s1
    | some g => modGroup s1 m.g (fun n => { n with acc := blendAcc s.draw g.acc n.acc })
  endCmd s2 m .cancelled

/-- A cancelled copy stops: each unit in progress is moved or not. -/
def stopCopy (s : State) (k : Copy) : State :=
  let s1 := (List.range k.units.length).foldl (fun s j => if Config.freeBit s.draw (7000000 + j) then (moveUnit s k.id j).getD s else s) s
  endCopy s1 k .cancelled

/-- R211: an engine stops on a cancelled copy or command. -/
def execEngineStopCancel (id : Nat) (s : State) : Result :=
  event "ENGINE_STOP_CANCEL" (
    match copyFind s id with
    | some k => if k.cancel && !k.settled then some { stopCopy s k with draw := s.draw + 1 } else none
    | none =>
      match cmdFind s id with
      | some m => if m.cancel && firstOfGroup s m then some { stopCmd s m with draw := s.draw + 1 } else none
      | none => none)

end Sys2Proof.Machine
end

