-- ==== Sys2Proof/Machine/System.lean ====
section
/-! DEFINITION. System and trap instructions: traps, system registers, `tsr`, `launch`, `hpost`, the playbill, `tlbinv`, page swaps
(R240 to R256, R302, R303, R311, R366, R368, R371, R372 to R376, R415, R416, R418). -/

namespace Sys2Proof.Machine

/-! ## Traps, `rett`, `nop` (R102, R247, R248) -/

/-- R247: user trap. -/
def execTrap (f : SF) (s : State) : Result :=
  runWord s (fun _ => sForm (.trap f) f) (fun _ _ => .trap 11 0 127 (f.imm.zeroExtend 64))

/-- R247: breakpoint. -/
def execBrkp (f : SF) (s : State) : Result :=
  runWord s (fun _ => sForm (.brkp f) f) (fun _ _ => .trap 12 0 127 (f.imm.zeroExtend 64))

/-- R248: return from the handler. A `bar` or `join` that the split rests in was marked, so that it is at a boundary there again (R206, R292). -/
def execRett (f : SF) (s : State) : Result :=
  runWord s (fun c => { sForm (.rett f) f with priv := .super, mark := f.mark || (c.handler && c.p.resting.isSome) }) (fun s c => returnFromTrap (.rett f) s c)

/-- R102: no operation. -/
def execNop (f : SF) (s : State) : Result := runWord s (fun _ => sForm (.nop f) f) (fun s _ => .done s .next)

/-! ## System registers (R58, R59, R249) -/

/-- IS44 to IS59: the interrupted split's own s44 to s59. -/
def isInterrupted (n : Nat) : Bool := 0x020 ≤ n && n ≤ 0x02F

/-- PLACE (R15). -/
def placeWord (w : Workgroup) : Nat := w.slot * 2 ^ 16 + w.column / 48 * 2 ^ 8 + w.column % 48 * 4 + w.layer

/-- A register held per split or per workgroup. -/
def sysHeld (c : Ctx) (n : Nat) : Option Nat :=
  if n = 0x001 then some c.p.xbnd.toNat
  else if n = 0x002 then some (placeWord c.w)
  else if n = 0x010 then some c.p.trapCause.toNat
  else if n = 0x011 then some c.p.trapPc.toNat
  else if n = 0x012 then some c.p.trapVal.toNat
  else if isInterrupted n then some (readWord c (.s (44 + (n - 0x020)))).toNat
  else if n = 0x043 then some c.w.migcnt.toNat
  else if n = 0x044 then some c.w.migcyc.toNat
  else if n = 0x045 then some c.w.migdefer.toNat
  else none

/-- TIMESTAT, an XLAT register, TH_DWELL and DRTH as words (R302, R415, R416, R418). -/
def timestatWord (s : State) : Nat := (if s.timeRet then 4 else 0) + (if s.timeLoss then 2 else 0) + (if s.timeFree then 1 else 0)
def xlatWord (s : State) (k : Nat) : Nat := match s.xlat[k]? with
  | some (v, l) => (if v then 2 ^ 31 else 0) + l.toNat
  | none => 0
def dwellWord (k : Column) : Nat := (if k.thEn then 2 ^ 31 else 0) + k.thDwell.toNat
def drthWord (k : Column) : Nat := (if k.drEn then 2 ^ 31 else 0) + k.drAlarms * 2 ^ 16 + k.drTh.toNat

/-- A 32-bit register held per column, tower or device. -/
def sysShared (s : State) (column n : Nat) : Nat :=
  let k := columnOf s column
  let t := towerOf s (column / 48)
  if n = 0x031 then timestatWord s
  else if 0x038 ≤ n ∧ n ≤ 0x03F then xlatWord s (n - 0x038)
  else if n = 0x040 then k.thHi.toNat
  else if n = 0x041 then k.thLo.toNat
  else if n = 0x042 then dwellWord k
  else if n = 0x050 then drthWord k
  else if n = 0x060 then t.rsh.toNat
  else t.pinbyp.toNat

/-- R249: read a system register; a read of TIME is sampled later (R412). -/
def execRdsys (f : SF) (s : State) : Result :=
  let n := f.imm.toNat
  runWord s (fun _ => { sForm (.rdsys f) f with priv := if isInterrupted n then .handler else .any }) (fun s c =>
    match sysHeld c n with
    | some v => .done (writeScalar s c f.pair f.sd.toNat v) .next
    | none =>
      if n = 0x030 then
        .done (addFlight s { Flight.new s c .clock with dests := destScalars c f.pair f.sd.toNat (timeOf s) }) .next
      else .done (laterResult s c (destScalars c f.pair f.sd.toNat (sysShared s c.w.column n)) 0) .next)

/-- Who may write a register (R7, R59). -/
def sysPriv (n : Nat) : Priv :=
  if n = 0x001 ∨ n = 0x031 then .any
  else if isInterrupted n then .handler
  else if n = 0x010 ∨ n = 0x011 ∨ n = 0x012 ∨ n = 0x040 ∨ n = 0x041 ∨ n = 0x042 ∨ n = 0x050 ∨ n = 0x060 then .super
  else .never

/-- The reserved bits of a register, which may not be set (R8). -/
def sysReserved (n v : Nat) : Bool :=
  if n = 0x001 then xbndBad v
  else if n = 0x010 then v / 2 ^ 16 % 2 ^ 8 != 0
  else if n = 0x011 then v % 8 != 0
  else if n = 0x031 then v / 8 != 0
  else if n = 0x040 ∨ n = 0x041 then v / 2 ^ 10 != 0
  else if n = 0x042 then v / 2 ^ 24 % 2 ^ 7 != 0
  else if n = 0x050 then v / 2 ^ 5 % 2 ^ 11 != 0
  else if n = 0x060 then 8 < v
  else false

/-- A `wrsys`: privilege, then reserved bits, then the effect. -/
def writeSys (i : Instr) (f : SF) (s : State) (body : State → Ctx → Nat → State) : Result :=
  let n := f.imm.toNat
  runWord s (fun _ => { sForm i f with priv := sysPriv n }) (fun s c =>
    let v := c.scalar f.pair f.sa.toNat
    if sysReserved n v then .illegal i else .done (body s c v) .next)

/-- R249: write XBND, a trap register, an interrupted scalar or DRTH, whose ALARMS stay (R418). -/
def execWrsys (f : SF) (s : State) : Result :=
  let n := f.imm.toNat
  writeSys (.wrsys f) f s (fun s c v =>
    if n = 0x001 then modSplit s c.x (fun p => { p with xbnd := BitVec.ofNat 32 v })
    else if n = 0x010 then modSplit s c.x (fun p => { p with trapCause := BitVec.ofNat 32 v })
    else if n = 0x011 then modSplit s c.x (fun p => { p with trapPc := BitVec.ofNat 64 v })
    else if n = 0x012 then modSplit s c.x (fun p => { p with trapVal := BitVec.ofNat 64 v })
    else if isInterrupted n then writeReg s c (.s (44 + (n - 0x020))) 1 (.word (BitVec.ofNat 32 v)) 0
    else if n = 0x050 then modColumn s c.w.column (fun k => { k with drEn := v / 2 ^ 31 == 1, drTh := BitVec.ofNat 5 v })
    else s)

/-- Thresholds under which no core of a column is hot (R303). -/
def Column.trapezeOff (k : Column) : Bool := !k.thEn || k.thHi.toNat ≤ k.thLo.toNat

/-- The four cores of a column. -/
def coresOf (column : Nat) : List Nat := (List.range 4).map (4 * column + ·)

/-- After a write of thresholds: every dwell run restarts; if no core may be hot any more, none is, and a capture is abandoned (R303). -/
def thresholdsChanged (s : State) (column : Nat) : State :=
  let off := (columnOf s column).trapezeOff
  let s1 := (coresOf column).foldl (fun s n => modCore s n (fun k => { k with above := [], hot := k.hot && !off })) s
  if off then abandonCapture s1 column else s1

/-- R302, R303: write TH_HI, TH_LO or TH_DWELL. -/
def execThRegisterWrite (f : SF) (s : State) : Result :=
  let n := f.imm.toNat
  writeSys (.thRegisterWrite f) f s (fun s c v =>
    thresholdsChanged (modColumn s c.w.column (fun k =>
      if n = 0x040 then { k with thHi := BitVec.ofNat 10 v }
      else if n = 0x041 then { k with thLo := BitVec.ofNat 10 v }
      else { k with thEn := v / 2 ^ 31 == 1, thDwell := BitVec.ofNat 24 v })) c.w.column)

/-- R415: clear LOSS and RET where a 1 is written, but for a bit that was set in this tick. -/
def execTimestatWrite (f : SF) (s : State) : Result :=
  writeSys (.timestatWrite f) f s (fun s _ v =>
    let keep (bit : Bool) (k : Nat) (at_ : Option Nat) : Bool := bit && (v / 2 ^ k % 2 == 0 || at_ == some (timeOf s))
    { s with timeLoss := keep s.timeLoss 1 s.lossAt, timeRet := keep s.timeRet 2 s.returnAt })

/-- R366: write RWAYF of the column's tower. -/
def execRwayfWrite (f : SF) (s : State) : Result :=
  writeSys (.rwayfWrite f) f s (fun s c v => modTower s (c.w.column / 48) (fun t => { t with rsh := BitVec.ofNat 4 v }))

/-! ## `tsr` (R250) -/

/-- Every register result of the split's instructions is written (R51). -/
def resultsWritten (s : State) (p : Split) : Bool :=
  p.await.all (fun id => match flightFind s id with | none => true | some f => f.written)

/-- R250: wait for every earlier result, then sample TIME. -/
def execTsr (f : SF) (s : State) : Result :=
  runWord s (fun _ => sForm (.tsr f) f) (fun s c =>
    if !resultsWritten s c.p then .wait (modSplit s c.x (fun p => { p with wait := .results }))
    else
      let s1 := modSplit s c.x (fun p => { p with shadows := [] })
      match ctxOf s1 c.x with
      | none => .wait s1
      | some c1 => .done (writePair s1 c1 f.sd.toNat (timeOf s1)) .next)

/-! ## `launch` and `hpost` (R251, R252) -/

/-- The active region of a block's address in a space. -/
def regionAt (s : State) (space : Nat) (addr : Nat) : Option Region := firstWith (fun r => r.space == space && r.addr.toNat == addr) s.regions

/-- The region that a `launch` may append to: itself or a descendant, not retiring. -/
def launchTarget (s : State) (c : Ctx) (addr : Nat) : Option Region :=
  match regionAt s c.r.space addr with
  | none => none
  | some q => if isDescendant s c.r.id q.id && !q.retiring then some q else none

/-- The appended records of a region as its counter stands; none where it lies on no CTR page that is there, or its home cannot serve it. -/
def appended (s : State) (q : Region) : Option Nat :=
  match ringCounter s q.space q.lctr with
  | some (_, bs, _) => some (numOf bs)
  | none => none

/-- The access that `launch` makes for a record at `u`, its counter being at `k`. -/
def launchPart (s : State) (u k : Seen) : Part :=
  let p := globalUnit s u .append []
  let at_ := match p.place with | .global a => a | _ => 0
  { globalUnit s k .append (bytesOf 8 at_ ++ bytesOf 2 p.key ++ bytesOf 1 p.home) with lane := 127, base := 0 }

/-- R251: append a launch record: a release at device scope. What gives 0 comes first; a counter that cannot be read traps or parks as its own check does. -/
def execLaunch (f : SF) (s : State) : Result :=
  runWord s (fun _ => { sForm (.launch f) f with needs := { path := some 2 } }) (fun s c =>
    let one (n : Nat) : List (Nat × DWord) := [(127, BitVec.ofNat 64 n)]
    let none_ : Act := .done (laterResult s c (destScalar c f.sd.toNat 0) 0) .next
    let counterCheck (s : State) (q : Region) (k : State → List Seen → Act) : Act := globalAccess s c .counterAdd 8 8 8 (one q.lctr) (fun _ => true) k
    match launchTarget s c (c.pair f.sb.toNat) with
    | none => none_
    | some q =>
      match appended s q with
      | none => counterCheck s q (fun s _ => .wait s)
      | some n =>
        if q.llsize ≤ n - q.ldone then none_
        else globalAccess s c .load 128 128 128 (one (c.pair f.sa.toNat)) (fun _ => true) (fun s recs =>
          globalAccess s c .store 128 128 128 (one (q.llist + 128 * (n % q.llsize))) (fun _ => true) (fun s _ =>
            counterCheck s q (fun s ctrs =>
              match recs, ctrs with
              | u :: _, k :: _ => launchMem s c (.launch q.id) 2 { strong := 5, release := 5 } [launchPart s u k] (scalarDests c f.sd.toNat false)
              | _, _ => .wait s))))

/-- The part of an `hpost`: it covers no byte of the group's memory. -/
def postPart (c : Ctx) (body : Nat) (cls : Nat) : Part :=
  scratchUnit 127 0 0 0 .hostEvent (bytesOf 8 body ++ bytesOf 2 cls ++ bytesOf 2 c.w.column)

/-- R252: post a host event: a release at system scope. -/
def execHpost (f : SF) (s : State) : Result :=
  runWord s (fun _ => { sForm (.hpost f) f with needs := { path := some 2 } }) (fun s c =>
    if c.r.hevq = 0 then .done (laterResult s c (destScalar c f.sd.toNat 2) 0) .next
    else launchMem s c (.post c.r.id) 2 { strong := 6, release := 6 } [postPart c (c.pair f.sa.toNat) f.imm.toNat] (scalarDests c f.sd.toNat false))

/-! ## The playbill (R253, R372 to R376, R392) -/

/-- A later result of one scalar whose value is yet to be settled; s0 takes part and discards it. -/
def openScalar (c : Ctx) (n : Nat) : List Dest := [destOf (sref c n) 1 (.word 0)]

/-- The value of a later result is settled. -/
def settleValue (s : State) (id v : Nat) : State :=
  modFlight s id (fun f => { f with kind := .value, dests := f.dests.map (fun d => { d with value := .word (BitVec.ofNat 32 v) }) })

/-- A `pbset`: it reads `n` bytes, and acts once it has them. -/
def playbillSet (i : Instr) (f : SF) (image : Bool) (bytes : Nat) (s : State) : Result :=
  runWord s (fun _ => { sForm i f with priv := .super }) (fun s c =>
    let k := f.imm.toNat
    let a := c.pair f.sa.toNat
    let send (s : State) (parts : List Part) : Act :=
      .done (launchFlight s c { Flight.new s c (.playbill k image) with parts := parts, dests := openScalar c f.sd.toNat }) .next
    if image && (a == 0 || k < 7 || 16 ≤ k) then send s []
    else globalAccess s c .load 8 bytes 8 [(127, BitVec.ofNat 64 a)] (fun _ => true) (fun s seen =>
      send s (seen.map (fun u => globalUnit s u .read []))))

/-- R253: write a playbill entry. -/
def execPbsetRng (f : SF) (s : State) : Result := playbillSet (.pbsetRng f) f false 32 s

/-- R253, R376: load a protocol image, with its signature block, or empty a slot. -/
def execPbsetProt (f : SF) (s : State) : Result := playbillSet (.pbsetProt f) f true (2112 + 3376) s

/-- The entry that a descriptor gives; CONFLICT restarts at 0 (R372). -/
def readEntry (raw : List Byte) : PlayEntry :=
  { word0 := BitVec.ofNat 64 (numAt raw 0 8), word1 := BitVec.ofNat 64 (numAt raw 8 8 / 2 ^ 12 * 2 ^ 12),
    word2 := BitVec.ofNat 64 (numAt raw 16 8), word3 := BitVec.ofNat 64 (numAt raw 24 8) }

/-- Another enabled entry covers some page of this one. -/
def entryOverlaps (s : State) (n : Nat) (e : PlayEntry) : Bool :=
  e.en && s.playbill.any (fun o => o.1 != n && o.2.en && o.2.base ≤ e.limit && e.base ≤ o.2.limit)

/-- Some page changes its protocol or its parameters. -/
def entryConverts (old new : PlayEntry) : Bool :=
  [old.base, old.limit + 1, new.base, new.limit + 1].any (fun pg => old.rules (4096 * pg) != new.rules (4096 * pg))

/-- `pbset.rng` acts: a status, or the start of a conversion; none while another conversion runs. -/
def actEntry (s : State) (id n : Nat) (raw : List Byte) : Option State :=
  let new := readEntry raw
  let old := Table.get s.playbill n .zero
  if s.conversions.any (fun c => c.entry == n) then some (settleValue s id 3)
  else if !s.conversions.isEmpty then none
  else if descriptorBad s new then some (settleValue s id 2)
  else if !slotHolds s new.slot then some (settleValue s id 5)
  else if entryOverlaps s n new then some (settleValue s id 4)
  else if entryConverts old new then some { s with conversions := [{ entry := n, new := new, flight := id, started := true }] }
  else some (settleValue { s with playbill := Table.put s.playbill n new } id 0)

/-- `pbset.prot` acts. -/
def actImage (s : State) (id n : Nat) (raw : List Byte) : State :=
  if n < 7 ∨ 16 ≤ n ∨ slotUse s n ≠ 0 then settleValue s id 3
  else if raw.isEmpty then settleValue { s with images7 := Table.drop s.images7 n } id 0
  else
    let img := slice raw 0 2112
    if !Config.protocolSigOk (Config.sha512 img) (slice raw 2112 3376) then settleValue s id 1
    else if !checkerOk img then settleValue s id 2
    else settleValue { s with images7 := Table.put s.images7 n img } id 0

/-- A `pbset` that has read its bytes acts. -/
def actPlaybill (s : State) (f : Flight) : Option State :=
  match f.kind with
  | .playbill n image =>
    if !f.performed || f.trap.isSome || f.dropped then none
    else if image then some (actImage s f.id n (f.laneBytes 127)) else actEntry s f.id n (f.laneBytes 127)
  | _ => none

/-- R253: read a word of an entry. -/
def execPbgetRng (f : SF) (s : State) : Result :=
  runWord s (fun _ => sForm (.pbgetRng f) f) (fun s c =>
    let e := Table.get s.playbill (field f.imm 0 6) .zero
    let w := match field f.imm 6 2 with | 0 => e.word0 | 1 => e.word1 | 2 => e.word2 | _ => e.word3
    .done (writePair s c f.sd.toNat w.toNat) .next)

/-- R376: the status of a slot; the manual gives none to a number that is no slot, which reads as a free value. -/
def execPbgetProt (f : SF) (s : State) : Result :=
  runWord s (fun _ => sForm (.pbgetProt f) f) (fun s c =>
    let n := field f.imm 0 6
    let v := if n < 16 then slotStatus s n else numOf ((List.range 8).map (Config.freeByte s.draw))
    .done (writePair s c f.sd.toNat v) .next)

/-! ## Conversions (R392) -/

/-- No access or message is under way at an address that a test picks. -/
def quietAt (s : State) (hit : Nat → Bool) : Bool :=
  s.msgs.all (fun m => !hit (lineBase m.line)) &&
  s.flights.all (fun f => f.parts.all (fun p => p.finished || p.state == .queued || (match p.place with | .global pa => !hit pa | _ => true)))

/-- The bytes of a line after its dirty copies have come home: where copies differ, either value, byte by byte; and whether any differ. -/
def mergeCopies (s : State) (l : Nat) : List Byte × Bool :=
  let copies := s.lines.filter (fun c => c.line == l && c.dirty != 0)
  let home := memRead s (lineBase l) 128
  let pick (i : Nat) : Byte × Bool := copies.foldl (fun b c =>
    if c.dirty.getLsbD i then
      (if b.2 && Config.freeBit s.draw (8000000 + 128 * l + i) then b else (c.data.getD i 0, true))
    else b) (home.getD i 0, false)
  let clash (i : Nat) : Bool :=
    let vs := (copies.filter (fun c => c.dirty.getLsbD i)).map (fun c => c.data.getD i 0)
    vs.any (fun v => some v != vs.head?)
  ((List.range 128).map (fun i => (pick i).1), (List.range 128).any clash)

/-- Write back and drop every copy of a line that is converted; its home state starts anew, and every reader sees the bytes that it has then. True where
dirty bytes met. -/
def convertLine (s : State) (l : Nat) : State × Bool :=
  let m := mergeCopies s l
  let f := flushLine s l
  let s1 := homePut { f with dirs := f.dirs.filter (fun d => d.line != l) } (lineBase l) m.1
  (clearReservations (settleGlobal s1 (lineBase l) 128) l, m.2)

/-- R392: the pages of a conversion are clean and follow their new rules. -/
def convert (s : State) (c : Conversion) : State :=
  let old := Table.get s.playbill c.entry .zero
  let hit (pa : Nat) : Bool := old.rules pa != c.new.rules pa
  let ls := ((s.lines.map (fun k => k.line)) ++ (s.dirs.map (fun d => d.line))).eraseDups.filter (fun l => hit (lineBase l))
  let r := ls.foldl (fun (a : State × Nat) l => let q := convertLine a.1 l; (q.1, if q.2 then a.2 + 1 else a.2)) (s, 0)
  let s1 := r.1
  let held (t : Tower) : Tower := { t with slices := t.slices.filter (fun e => !hit (lineBase e.line)) }
  let wgs := s1.wgs.map (fun w => { w with groups := w.groups.map (fun g => match g.reserved with
    | some l => if hit (lineBase l) then { g with reserved := none } else g
    | none => g) })
  { s1 with towers := s1.towers.map (fun t => (t.1, held t.2)), wgs := wgs,
            playbill := Table.put s1.playbill c.entry { c.new with word1 := c.new.word1 ||| BitVec.ofNat 64 (min r.2 0xFFF) } }

/-- R392: the conversion of the playbill entry that is under way ends, and its `pbset.rng` gets status 0. -/
def execConversionComplete (s : State) : Result :=
  event "CONVERSION_COMPLETE" (
    match s.conversions with
    | [] => none
    | c :: rest =>
      let old := Table.get s.playbill c.entry .zero
      if quietAt s (fun pa => old.rules pa != c.new.rules pa) then
        some (settleValue { convert s c with conversions := rest, draw := s.draw + 1 } c.flight 0)
      else none)

/-! ## `tlbinv` (R254, R360, R364) -/

/-- Every translation of a space's address that a TLB holds. -/
def tlbEntries (s : State) (space : Nat) (va : DWord) : List TlbEntry :=
  (s.columns.flatMap (fun c => c.2.tlb) ++ s.towers.flatMap (fun t => t.2.tlb)).filter (fun t => t.hits space va)

/-- The pages of a `tlbinv`: page 0, space 1, all 2. The page is that of the largest leaf that the address has, in a TLB or in the tables. -/
def tlbCovers (s : State) (c : Ctx) (form : Nat) (va : DWord) (space page : Nat) : Bool :=
  let walked := match (walk s c.r.space va).map (·.2) with
    | some (.leaf _ _ b) => b
    | _ => 12
  let bits := (tlbEntries s c.r.space va).foldl (fun m t => max m t.bits) walked
  form == 2 || (space == c.r.space && (form == 1 || page % 2 ^ 48 / 2 ^ bits == va.toNat % 2 ^ 48 / 2 ^ bits))

/-- The space of a group's accesses, and of a flight's. -/
def groupSpaceOf (s : State) (g : GroupId) : Nat := (((wgFind s g.wg).bind (fun w => regionFind s w.region)).map (fun r => r.space)).getD 0
def spaceOf (s : State) (f : Flight) : Nat := groupSpaceOf s (groupOf f.x)

/-- The form of a `tlbinv` word, and its operand register. -/
def tlbForm : Instr → Option (Nat × SF)
  | .tlbinvPage f => some (0, f)
  | .tlbinvSpace f => some (1, f)
  | .tlbinvAll f => some (2, f)
  | _ => none

/-- The split waits at its word until the removal is over. -/
def tlbinv (i : Instr) (f : SF) (s : State) : Result :=
  runWord s (fun _ => { sForm i f with priv := .super }) (fun s c =>
    match c.p.wait with
    | .tlbinv true => .done s .next
    | _ => .wait (modSplit s c.x (fun p => { p with wait := .tlbinv false })))

/-- R254: remove the translation of a page. -/
def execTlbinvPage (f : SF) (s : State) : Result := tlbinv (.tlbinvPage f) f s

/-- R254: remove the translations of the issuing region's space. -/
def execTlbinvSpace (f : SF) (s : State) : Result := tlbinv (.tlbinvSpace f) f s

/-- R254: remove every translation. -/
def execTlbinvAll (f : SF) (s : State) : Result := tlbinv (.tlbinvAll f) f s

/-- R254: the removal of a waiting `tlbinv` is made and complete: no access in flight, no queued command of a matrix unit and no launch record uses what it
removes, and the split's earlier accesses are performed (R360). -/
def execTlbinvComplete (x : SplitId) (s : State) : Result :=
  event "TLBINV_COMPLETE" (
    match ctxOf s x with
    | none => none
    | some c =>
      match c.p.wait, (peek s c).bind tlbForm with
      | .tlbinv false, some (form, f) =>
        let va := BitVec.ofNat 64 (c.pair f.sa.toNat)
        let covers := tlbCovers s c form va
        let hit (space : Nat) (p : Part) : Bool := !p.finished && (match p.place with
          | .global _ => covers space p.va.toNat || p.op == .append
          | _ => false)
        let moving (m : MxCmd) : List Part := match m.op with
          | .accld _ _ _ ps => ps
          | .accst _ _ _ ps => ps
          | _ => []
        if s.flights.all (fun g => g.x != x || g.performed) && !s.flights.any (fun g => g.parts.any (hit (spaceOf s g))) &&
           !s.commands.any (fun m => (moving m).any (hit (groupSpaceOf s m.g))) then
          some (modSplit (tlbRemove s (fun t => form == 2 || (t.space == c.r.space && (form == 1 || t.hits c.r.space va))) covers) x
            (fun p => { p with wait := .tlbinv true }))
        else none
      | _, _ => none)

/-! ## Page swaps (R255, R371) -/

/-- The newest value of `n` bytes, wherever they are dirty. -/
def newestRead (s : State) (a n : Nat) : List Byte :=
  (List.range n).map (fun i =>
    match firstWith (fun c => c.line == lineOf (a + i) && c.dirty.getLsbD ((a + i) % 128)) (s.lines.filter (fun c => !c.inWay) ++ s.lines.filter CacheLine.inWay) with
    | some c => c.data.getD ((a + i) % 128) 0
    | none => Memory.read s.mem (a + i))

/-- The level of a table entry, by its place in the tables below a table. -/
def entryLevel (levels : List Nat) (s : State) (table pte : Nat) : Option Nat :=
  match levels with
  | [] => none
  | lv :: rest =>
    if pte / 4096 = table / 4096 then some lv
    else (List.range 512).findSome? (fun k =>
      let e := BitVec.ofNat 64 (numOf (newestRead s (table + 8 * k) 8))
      match decodePte e lv with
      | .pointer => entryLevel rest s (pteFrame e) pte
      | _ => none)

/-- What an entry at a physical address maps: its frame, its page's bits, and the entry. -/
def swapEntry (s : State) (pte : Nat) : Option (Nat × Nat × DWord) :=
  if pte % 8 ≠ 0 ∨ !isBacked pte then none
  else
    let lv := (s.spaces.findSome? (fun r => entryLevel [0, 1, 2, 3] s r.2 pte)).getD 3
    let e := BitVec.ofNat 64 (numOf (newestRead s pte 8))
    match decodePte e lv with
    | .leaf bits => some (pteFrame e, bits, e)
    | _ => none

/-- R255: begin the swap of two pages, or answer why not. -/
def execPswap (f : SF) (s : State) : Result :=
  runWord s (fun _ => { sForm (.pswap f) f with priv := .super }) (fun s c =>
    let answer (n : Nat) : Act := .done (laterResult s c (destScalar c f.sd.toNat n) 0) .next
    let a := c.pair f.sa.toNat
    let b := c.pair f.sb.toNat
    match swapEntry s a, swapEntry s b with
    | some (fa, na, _), some (fb, nb, _) =>
      if na ≠ nb then answer 1
      else if s.swaps.any (fun w => w.frameA == fa || w.frameA == fb || w.frameB == fa || w.frameB == fb) then answer 3
      else
        let fl := { Flight.new s c .swap with dests := openScalar c f.sd.toNat }
        let w : PageSwap := { id := s.nextId, flight := fl.id, pteA := a, pteB := b, frameA := fa, frameB := fb, chunks := 2 ^ (na - 12), next := 0,
                              space := c.r.space }
        .done { addFlight s fl with swaps := s.swaps ++ [w] } .next
    | _, _ => answer 2)

/-- The other place of an address when two chunks change places. -/
def exchanged (a b n : Nat) (x : Nat) : Nat := if a ≤ x ∧ x < a + n then b + (x - a) else if b ≤ x ∧ x < b + n then a + (x - b) else x

/-- What readers may still miss of two chunks goes with the bytes. -/
def movePast (s : State) (a b : Nat) : State :=
  { s with past := s.past.map (fun e => if e.home.isNone then { e with addr := exchanged a b 4096 e.addr } else e),
           former := s.former.map (fun f => { f with addr := exchanged a b 4096 f.addr }) }

/-- Two chunks change places: bytes, key slots and poison. -/
def exchangeChunks (s : State) (a b : Nat) : State :=
  let ls := (List.range 32).flatMap (fun k => [lineOf a + k, lineOf b + k])
  let s1 := ls.foldl (fun s l => clearReservations (flushLine s l) l) s
  let x := memRead s1 a 4096
  let y := memRead s1 b 4096
  let s2 := movePast (memWrite (memWrite s1 a y) b x) a b
  let keys := s2.lineKeys.foldl (fun t e => Table.put t (exchanged (lineOf a) (lineOf b) 32 e.1) e.2) []
  let odd := s2.oddBytes.foldl (fun t e => Table.put t (exchanged (lineOf a) (lineOf b) 32 e.1) e.2) []
  let gone (t : Tower) : Tower := { t with slices := t.slices.filter (fun e => !ls.contains e.line) }
  { s2 with lineKeys := keys, oddBytes := odd, poison := sortBy (fun a b => a ≤ b) (s2.poison.map (exchanged (granuleOf a) (granuleOf b) 128)),
            towers := s2.towers.map (fun t => (t.1, gone t.2)) }

/-- An entry with another frame. -/
def withFrame (e : DWord) (frame : Nat) : DWord := BitVec.ofNat 64 (e.toNat % 2 ^ 12 + frame + e.toNat / 2 ^ 48 * 2 ^ 48)

/-- After its last chunk a swap exchanges the two frame fields and removes both translations. -/
def endSwap (s : State) (w : PageSwap) : Option State :=
  let a := BitVec.ofNat 64 (numOf (newestRead s w.pteA 8))
  let b := BitVec.ofNat 64 (numOf (newestRead s w.pteB 8))
  match homeStore s w.pteA (bytesOf 8 (withFrame a (pteFrame b)).toNat) with
  | none => none
  | some s1 =>
    match homeStore s1 w.pteB (bytesOf 8 (withFrame b (pteFrame a)).toNat) with
    | none => none
    | some s2 =>
      let s3 := tlbRemove s2 (fun t => pteFrame t.leaf == w.frameA || pteFrame t.leaf == w.frameB) (fun _ _ => false)
      some (settleValue { s3 with swaps := s3.swaps.filter (fun v => v.id != w.id) } w.flight 0)

/-- No access that is already translated to a chunk is unperformed, of a split or of the matrix queue, and no unit of a copy is half moved. -/
def chunkQuiet (s : State) (a b : Nat) : Bool :=
  let hit (p : Part) : Bool := match p.place with
    | .global pa => (a ≤ pa && pa < a + 4096) || (b ≤ pa && pa < b + 4096)
    | _ => false
  s.flights.all (fun f => f.parts.all (fun p => p.finished || !hit p)) &&
  s.commands.all (fun m => match m.op with
    | .accld _ _ _ ps => !ps.any hit
    | .accst _ _ _ ps => !ps.any hit
    | _ => true) &&
  s.copies.all (fun k => k.units.all (fun u => u.moved.isEmpty)) &&
  s.msgs.all (fun m => !((a ≤ lineBase m.line && lineBase m.line < a + 4096) || (b ≤ lineBase m.line && lineBase m.line < b + 4096)))

/-- R371: the next chunk of a swap is exchanged. -/
def execPswapChunkExchange (id : Nat) (s : State) : Result :=
  event "PSWAP_CHUNK_EXCHANGE" (
    match firstWith (fun w => w.id == id) s.swaps with
    | none => none
    | some w =>
      let a := w.frameA + 4096 * w.next
      let b := w.frameB + 4096 * w.next
      if !chunkQuiet s a b then none
      else
        let s1 := { exchangeChunks s a b with swaps := s.swaps.map (fun v => if v.id = id then { v with next := w.next + 1 } else v) }
        if w.next + 1 < w.chunks then some s1 else endSwap s1 w)

end Sys2Proof.Machine
end

