-- ==== Sys2Proof/Machine/Completion.lean ====
section
/-! DEFINITION. Completion of what is in flight, the wait after a marked word, boundaries, the delivery of asynchronous traps, and parked
conditions (R50 to R53, R188 to R190, R194, R195, R205, R209, R211, R242, R292). -/

namespace Sys2Proof.Machine

/-! ## Accesses and results (R50, R189, R194) -/

/-- One access of an instruction in flight is presented, or presented again, its release presents REL first (R378), and a write that is performed becomes
performed at a wider scope (R258); none where it cannot go on. One that waited for room in its set goes on by sending its request (R367). -/
def completePart (s : State) (id k : Nat) : Option State :=
  match (flightFind s id).map (fun f => (f, f.parts[k]?)) with
  | some (f, some p) =>
    let mirror := match p.place with | .mirror _ _ => true | _ => false
    if mirror then none
    else match p.state with
      | .queued => if partReady s f p then some (presentPart s id k) else presentRelease s f
      | .waiting =>
        let s1 := performPart s id k
        if ((flightFind s1 id).bind (fun g => g.parts[k]?)).map (fun q => q.state) = some .waiting ∧ s1.nextId = s.nextId then none else some s1
      | .pushing 0 => some (performPart s id k)
      | .pushing _ => none
      | _ => raisePart s id k
  | _ => raisePart s id k

/-- What follows the last access of an instruction: a `pbset` acts, a complete instruction leaves. -/
def completeWhole (s : State) (f : Flight) : Option State :=
  match f.kind with
  | .playbill _ _ => if f.dropped then (if f.complete then some (retireFlight s f.id) else none) else actPlaybill s f
  | _ => if f.complete then some (retireFlight s f.id) else none

/-- R194: accesses of an instruction are performed, or performed at wider scopes, also once it is complete; with none named, what follows the last. -/
def execAccessCompletion (id : Nat) (parts : List Nat) (s : State) : Result :=
  event "ACCESS_COMPLETION" (
    if parts.isEmpty then (flightFind s id).bind (completeWhole s)
    else (parts.foldl (fun (r : Option State) k => r.bind (fun s => completePart s id k)) (some s)).map
      (fun s => { retireFlight s id with draw := s.draw + 1 }))

/-- The result of an instruction can be written: performed, with no trap to answer, and its latency is over. -/
def resultDue (s : State) (f : Flight) : Bool :=
  !f.written && f.performed && f.trap.isNone && f.readyAt ≤ (columnOf s (((wgFind s f.x.wg).map (fun w => w.column)).getD 0)).cycle &&
  (match f.kind with
    | .playbill _ _ => false
    | .swap => false
    | .format _ _ _ => false
    | _ => true)

/-- A read of TIME takes its sample between its issue and its result (R412). -/
def sampleClock (s : State) (f : Flight) : Flight :=
  if f.kind == .clock && Config.freeBit s.draw 9000000 then
    { f with dests := f.dests.map (fun d => { d with value := .word (BitVec.ofNat 32 (timeOf s / 2 ^ (32 * d.word))) }) }
  else f

/-- R50: a variable-latency result is written. -/
def execVariableLatencyResult (id : Nat) (s : State) : Result :=
  event "VARIABLE_LATENCY_RESULT" (
    match flightFind s id with
    | none => none
    | some f => if resultDue s f then some { retireFlight (writeResults s (sampleClock s f)) id with draw := s.draw + 1 } else none)

/-- The pending traps of a split in issue order. -/
def addPending (ts : List TrapInfo) (t : TrapInfo) : List TrapInfo := sortBy (fun a b => a.seq ≤ b.seq) (ts ++ [t])

/-- A trap that a home found falls due: pending at its split, or posted with the traps of its group where that has halted (R190). -/
def trapDue (s : State) (x : SplitId) (t : TrapInfo) : State :=
  match ctxOf s x with
  | none => s
  | some c =>
    let u : TrapInfo := if c.g.halted then { t with async := true, value := c.p.pc } else t
    postHeld (modSplit s x (fun p => { p with pending := addPending p.pending u })) (groupOf x)

/-- R189: the home's answer to the checks of an instruction. -/
def execHomeTrapAnswer (id : Nat) (s : State) : Result :=
  event "HOME_TRAP_ANSWER" (
    match flightFind s id with
    | none => none
    | some f =>
      match f.trap with
      | none => none
      | some t => some (retireFlight (trapDue (modFlight s id (fun f => { f with trap := none, answered := true })) f.x t) id))

/-! ## Boundaries (R51 to R53, R242, R292) -/

/-- A split stands at a park point of R52. -/
def Split.parkPoint (p : Split) : Bool :=
  match p.state with
  | .parked (.fullEmpty _ _) _ => true
  | .parked .counter _ => true
  | .parked .future _ => true
  | .parked .path _ => true
  | .parked (.pageFault _ _ _ _ _) _ => true
  | _ => false

/-- A split that waits for the shadow bank is at no boundary. -/
def Split.atBank (p : Split) : Bool :=
  match p.state with
  | .parked (.bank _) _ => true
  | _ => false

/-- A split is at an instruction-group boundary; an ended or a halted one counts as at one. -/
def splitAtBoundary (s : State) (p : Split) : Bool :=
  !p.live || p.state == .ended || p.state == .halted || (!p.atBank && p.boundary) || (p.parkPoint && resultsWritten s p)

/-- A group is at a boundary when its splits are, and none is in handler mode. -/
def groupAtBoundary (s : State) (g : Group) : Bool := g.ended || (g.handler.isNone && g.splits.all (splitAtBoundary s))

/-- A workgroup is at a boundary when its groups are. -/
def wgAtBoundary (s : State) (w : Workgroup) : Bool := w.groups.all (groupAtBoundary s)

/-- R51: the wait after a marked word is over: every result is written, the homes have answered, and every shadow has closed. -/
def execSwitchMarkerWaitEnd (x : SplitId) (s : State) : Result :=
  event "SWITCH_MARKER_WAIT_END" (
    match splitFind s x with
    | none => none
    | some p =>
      if p.live && p.markWait && resultsWritten s p && !answersDue s x then
        some (modSplit s x (fun p => { p with markWait := false, boundary := true, shadows := [], await := [] }))
      else none)

/-! ## Asynchronous traps (R189, R242, R245, R310) -/

/-- A split is at a full/empty instruction that has nothing left to wait for: it is parked no more (R195). -/
def fullServed (c : Ctx) : Bool :=
  match c.p.state with
  | .parked (.fullEmpty _ lanes) _ => lanes.all (fun l => has (skipMask c) l.lane)
  | _ => false

/-- A pending trap can be delivered to a split: at a boundary, in no handler. A marked `join` or `bar` in which it waits is one (R142, R206, R292), and it
rests there until the handler returns. -/
def trapDeliverable (s : State) (x : SplitId) : Bool :=
  match ctxOf s x with
  | none => false
  | some c =>
    let away := match c.g.residence with | .core => false | _ => true
    !c.p.pending.isEmpty && c.p.live && !c.g.halted && c.g.handler.isNone && splitAtBoundary s c.p && !fullServed c && !away && !moveIsNext s c.w

/-- R189: a pending trap is delivered. -/
def execAsyncTrapDelivery (x : SplitId) (s : State) : Result :=
  event "ASYNC_TRAP_DELIVERY" (
    match splitFind s x with
    | none => none
    | some p => if trapDeliverable s x then some { deliverAsync s x p.pc with draw := s.draw + 1 } else none)

/-! ## Parked conditions (R52, R195, R205, R209, R211) -/

/-- The condition of a park instruction, as its word and the state stand. A word that no longer is that instruction goes on. -/
def conditionMet (s : State) (c : Ctx) : Bool :=
  match (fetchWord s c).2 with
  | .busy => false
  | _ =>
    match c.p.state, peek s c with
    | .parked (.fullEmpty _ lanes) _, _ => lanes.all (fun l => has (skipMask c) l.lane)
    | .parked .counter _, some (.ctwait f) => counterReached s c f
    | .parked .future _, some (.fwait f) => handleCode c.g (c.s f.sa.toNat) != 0
    | .parked .path _, some (.wait f) => waitMet c f
    | .parked (.pageFault _ _ _ _ _) _, _ => false
    | .parked .counter _, _ => true
    | .parked .future _, _ => true
    | .parked .path _, _ => true
    | _, _ => false

/-- A split whose workgroup is held, or whose registers are away, stays parked at its boundary (R299, R305, R346). -/
def heldParked (s : State) (c : Ctx) : Bool :=
  (c.w.hold != .none && splitAtBoundary s c.p) || c.g.residence != .core

/-- R52: the condition of a parked split clears; its instruction re-executes from its start. -/
def execParkConditionClears (x : SplitId) (s : State) : Result :=
  event "PARK_CONDITION_CLEARS" (
    match ctxOf s x with
    | none => none
    | some c =>
      if c.p.live && !heldParked s c && conditionMet s c then some (modGroup (modSplit s x (fun p => { p with state := .running })) (groupOf x) (fun g => { g with eligible := false }))
      else none)

end Sys2Proof.Machine
end

