-- ==== Sys2Proof/Machine/Schedule.lean ====
section
/-! DEFINITION. The passage of time, readiness, the issue choice, and registers in the canopy (R287 to R300, R301, R412, R419). -/

namespace Sys2Proof.Machine

/-! ## Classes and needs of a word (R55, R56, R181, R231, R287) -/

/-- The path that a word raises. -/
def wordPath : Instr → Option Nat
  | .vld _ => some 0
  | .vlds _ => some 0
  | .sld _ => some 0
  | .lres _ => some 0
  | .ldfe _ => some 0
  | .ldff _ => some 0
  | .stfe _ => some 1
  | .vst _ => some 1
  | .vsts _ => some 1
  | .sst _ => some 1
  | .feset _ => some 1
  | .cwb _ => some 1
  | .cinv _ => some 1
  | .fmtset _ => some 1
  | .atom _ => some 2
  | .atomv _ => some 2
  | .satom _ => some 2
  | .scond _ => some 2
  | .ctadd _ => some 2
  | .ctread _ => some 2
  | .launch _ => some 2
  | .hpost _ => some 2
  | .cp _ => some 3
  | .cpg _ => some 3
  | .cpmc _ => some 3
  | .mma _ => some 4
  | .accld _ => some 4
  | .accst _ => some 4
  | .acczero _ => some 4
  | .vstm _ => some 5
  | _ => none

/-- The word returns a future handle. -/
def wordFuture : Instr → Bool
  | .cp _ => true
  | .cpg _ => true
  | .cpmc _ => true
  | .accld f => f.sd != 0
  | .accst f => f.sd != 0
  | _ => false

/-- The opcode of a word. -/
def opcodeOf (i : Instr) : Nat := (wordOf i).toNat / 2 ^ 55

/-- A word of the vector class. -/
def vectorClass (op : Nat) : Bool :=
  (0x080 ≤ op && op ≤ 0x0A3) || (0x0E0 ≤ op && op ≤ 0x0F0) || (0x120 ≤ op && op ≤ 0x127) || (0x138 ≤ op && op ≤ 0x13B) ||
  (0x150 ≤ op && op ≤ 0x153) || (0x156 ≤ op && op ≤ 0x15D) || op == 0x190 || op == 0x192 || op == 0x1C2 || op == 0x1C4

/-- A word that goes through the special-function queue, and one that goes through the matrix queue. -/
def specialClass (op : Nat) : Bool := 0x120 ≤ op && op ≤ 0x127
def matrixClass (i : Instr) : Bool := wordPath i == some 4

/-- The units of a word have room for it. -/
def unitsFree (s : State) (c : Ctx) (i : Instr) : Bool :=
  let op := opcodeOf i
  roomFor c { path := wordPath i, future := wordFuture i, special := specialClass op } &&
  (match i with
    | .cpretry f => handleCode c.g (c.s f.sa.toNat) != 2 || pathOf c.g 3 < 255
    | _ => true) &&
  (!matrixClass i || (matrixQueue s c.w.core).length < 8) && (!vectorClass op || c.core.pipeFree ≤ cycleOf s c)

/-! ## Readiness (R289) -/

/-- The wait of a split at its word is over. -/
def waitOver (s : State) (c : Ctx) : Bool :=
  match c.p.wait with
  | .none => true
  | .xfence counts lines =>
    let left := lines.filter (dirtyLines s c.w.column).contains
    counts.all (fun e => e.2 == 0) && (!counts.isEmpty ||
      (if left.isEmpty then !bytesUnderWay s c.w.column lines
       else left.any (fun l => match lineFind s (.col c.w.column) l with
        | none => false
        | some k => !(cacheAction s (slotOf s (lineBase l)) k.state 2).stall)))
  | .tlbinv done => done
  | .results => resultsWritten s c.p
  | .answers => !answersDue s c.x

/-- The workgroup's hold stands in the way of a split: a capture, a flush or a save only once the split is at a boundary (R305, R346). -/
def heldBack (s : State) (c : Ctx) : Bool :=
  match c.w.hold with
  | .none => false
  | .move => true
  | .restore => true
  | _ => c.g.handler.isNone && splitAtBoundary s c.p

/-- A split may issue, as far as its own state and its group's go. -/
def mayIssue (s : State) (c : Ctx) : Bool :=
  c.p.live && c.p.state == .running && !c.p.markWait && !c.g.halted && !c.g.ended && !c.w.stopped && c.g.residence == .core &&
  (c.g.handler.isNone || c.g.handler == some c.x.slot) && c.p.resumeAt ≤ cycleOf s c && !heldBack s c && !trapDeliverable s c.x && waitOver s c

/-- A split is ready: it may issue, its word has been fetched, and the units that the word needs have room. -/
def splitReady (s : State) (x : SplitId) : Bool :=
  match ctxOf s x with
  | none => false
  | some c =>
    mayIssue s c && (match fetchWord s c with
      | (_, .busy) => false
      | (_, .absent) => c.p.refused.isSome
      | (_, .fault _ _) => true
      | (_, .word w) => match (decode w).toOption with
        | none => true
        | some i => !i.wellFormed || unitsFree s c i)

/-- A split whose fetch meets a page that is not present parks there; it takes no issue slot (R289, R358). -/
def parkUnfetched (s : State) (x : SplitId) : State :=
  match ctxOf s x with
  | none => s
  | some c =>
    if mayIssue s c && c.p.refused.isNone then
      match fetchWord s c with
      | (s1, .absent) => finish s1 c false (parkAbsent s1 c true 127 3 c.p.pc)
      | _ => s
    else s

/-! ## The issue choice (R290, R291) -/

/-- The live splits of the groups on a core. -/
def splitsOn (s : State) (core : Nat) : List SplitId :=
  (s.wgs.filter (fun w => w.core == core)).flatMap (fun w => ((List.range w.groups.length).zip w.groups).flatMap (fun g =>
    ((List.range g.2.splits.length).zip g.2.splits).filterMap (fun p => if p.2.live then some { wg := w.id, grp := g.1, slot := p.1 } else none)))

/-- What orders two ready splits: priority, READYSINCE, column slot, group, split slot. -/
def issueKey (s : State) (x : SplitId) : List Nat :=
  match ctxOf s x with
  | none => []
  | some c => [47 - min 47 (prioOf s c.r), c.p.readySince.getD (cycleOf s c), c.w.slot, x.grp, x.slot]

/-- The first of two keys comes first, place by place. -/
def keyBefore : List Nat → List Nat → Bool
  | [], _ => true
  | _ :: _, [] => false
  | a :: r, b :: q => a < b || (a == b && keyBefore r q)

/-- The ready split that comes first. -/
def firstReady (s : State) (xs : List SplitId) : Option SplitId :=
  xs.foldl (fun best x => match best with
    | none => some x
    | some b => if keyBefore (issueKey s b) (issueKey s x) then some b else some x) none

/-- The core chooses a split to issue, if any is ready. -/
def issueChoice (start : State) (core : Nat) : State :=
  let s := (splitsOn start core).foldl parkUnfetched start
  let cycle := (columnOf s (core / 4)).cycle
  let ready := (splitsOn s core).filter (splitReady s)
  let s1 := ready.foldl (fun s x => modSplit s x (fun p => { p with readySince := some (p.readySince.getD cycle) })) s
  let issue (s : State) (x : SplitId) : State := { modSplit s x (fun p => { p with pass := 0 }) with issue := some x }
  match firstWith ready.contains (coreOf s core).guard with
  | some x => issue (modCore s1 core (fun k => { k with guard := k.guard.filter (· != x) })) x
  | none =>
    match firstReady s1 ready with
    | none => s1
    | some x => issue ((ready.filter (· != x)).foldl (fun s y => modSplit s y (fun p => { p with pass := min 63 (p.pass + 1) })) s1) x

/-- R290: a split that has been passed over 63 times enters the guard queue of its core. -/
def execGuardQueueAppend (s : State) : Result :=
  event "GUARD_QUEUE_APPEND" (
    (List.range 768).findSome? (fun n =>
      (firstWith (fun x => ((splitFind s x).map (fun p => p.pass)) == some 63 && !(coreOf s n).guard.contains x) (splitsOn s n)).map (fun x =>
        modCore s n (fun k => { k with guard := k.guard ++ [x] }))))

/-! ## Register-file and accumulator space (R19, R27, R38, R304) -/

/-- Space on a core: groups, bytes of the fast and of the slow partition, accumulator slots. -/
structure Space where
  groups : Nat
  fast : Nat
  slow : Nat
  tiles : Nat
  deriving DecidableEq, Repr

def Space.add (a b : Space) : Space := { groups := a.groups + b.groups, fast := a.fast + b.fast, slow := a.slow + b.slow, tiles := a.tiles + b.tiles }

/-- A core holds it. -/
def Space.fits (a : Space) : Bool := a.groups ≤ 32 && a.fast ≤ 393216 && a.slow ≤ 131072 && a.tiles ≤ 16

/-- What one group of a launch record takes. -/
def LaunchRec.space (f : LaunchRec) : Space :=
  { groups := 1, fast := 384 * min f.vcnt 96, slow := 384 * (f.vcnt - 96), tiles := f.tiles }

/-- What a whole workgroup takes. -/
def LaunchRec.whole (f : LaunchRec) : Space :=
  { groups := f.groups, fast := f.groups * f.space.fast, slow := f.groups * f.space.slow, tiles := f.groups * f.tiles }

/-- What a group takes now: none once it has ended; a place alone while it is in the canopy. `early` counts a demotion in progress as over. -/
def groupSpace (w : Workgroup) (early : Bool) (g : Group) : Space :=
  let one : Space := w.fields.space
  let away : Space := { groups := 1, fast := 0, slow := 0, tiles := 0 }
  if g.ended then { groups := 0, fast := 0, slow := 0, tiles := 0 }
  else match g.residence with
    | .canopy _ => away
    | .demoting _ => if early then away else one
    | _ => one

/-- The workgroups that take space on a core: those on it, and one that a capture is to move there. -/
def holdersOn (s : State) (core : Nat) : List Workgroup :=
  s.wgs.filter (fun w => w.core == core || (match (columnOf s w.column).capture with
    | some k => k.wg == w.id && 4 * w.column + k.target == core
    | none => false))

/-- What a core holds. -/
def coreSpace (s : State) (core : Nat) (early : Bool) : Space :=
  (holdersOn s core).foldl (fun a w => w.groups.foldl (fun a g => a.add (groupSpace w early g)) a) { groups := 0, fast := 0, slow := 0, tiles := 0 }

/-! ## Domains and marks (R443, R449) -/

/-- The domain of a region: that of the lowest loaded slot in its effective KEYS. -/
def domainOf (s : State) (r : Region) : Nat :=
  let keys := effectiveKeys 9 s r
  ((firstWith (fun k => keys / 2 ^ k.1 % 2 == 1) s.keys).map (fun k => k.2.domain)).getD 0

/-- Units of a structure of so many, by the domain whose mark they carry: a domain takes `n`, of which some may be its own from before, the others
blank first and then of other domains. -/
def markUnits (cap dom n pick : Nat) (ms : List (Nat × Nat)) : List (Nat × Nat) :=
  let mine := Table.get ms dom 0
  let more := min (n - pick % (min n mine + 1)) (cap - mine)
  let blank := cap - ms.foldl (fun a e => a + e.2) 0
  let taken := ms.foldl (fun (a : List (Nat × Nat) × Nat) e =>
    if e.1 = dom then (a.1 ++ [e], a.2) else (a.1 ++ [(e.1, e.2 - min a.2 e.2)], a.2 - min a.2 e.2)) (([] : List (Nat × Nat)), more - blank)
  Table.put taken.1 dom (mine + more)

/-- Mark units: register-file rows of core n at n, accumulator rows at 1000 + n, column-store lines of column c at 2000 + c,
canopy rows of tower t at 3000 + t. -/
def markUse (s : State) (key cap dom n : Nat) : State :=
  { s with marks := Table.put s.marks key (markUnits cap dom n (Config.choice s.draw (7000 + key)) (Table.get s.marks key [])) }

/-! ## Demotion (R296 to R298) -/

/-- S of R298. -/
def stateBytes (w : Workgroup) (g : Group) : Nat :=
  384 * w.fields.vcnt + 1632 + 24576 * w.fields.tiles + 384 * ((g.aLatch.map (fun a => a.rows.length)).getD 0)

def ceilDiv (a b : Nat) : Nat := (a + b - 1) / b

/-- A group's state counts as canopy bytes from the start of its demotion to the end of its recall. -/
def Group.canopyBytes (w : Workgroup) (g : Group) : Nat :=
  match g.residence with
  | .core => 0
  | .starting _ => 0
  | _ => if g.ended then 0 else stateBytes w g

/-- Bytes of a save image (R349). -/
def imageBytes (w : Workgroup) : Nat :=
  256 + 2048 + w.fields.spad + w.fields.spad / 32 +
  w.groups.foldl (fun a g => a + (if g.ended then 0 else stateBytes w g + 256 * (g.splits.filter (fun p => p.live)).length + 128)) 0

/-- What a workgroup has in the canopy: its demoted groups, which an image takes where they lie (R300), or the image that is being written there. -/
def Workgroup.inCanopy (w : Workgroup) : Nat :=
  match w.preempt.bind (fun p => p.image) with
  | some (.canopy _, _) => imageBytes w
  | _ => w.groups.foldl (fun a g => a + g.canopyBytes w) 0

/-- The canopy bytes of a region's subtree: demoted groups and save images (R331). -/
def canopyCharge (s : State) (region : Nat) : Nat :=
  (s.wgs.filter (fun w => isDescendant s region w.region)).foldl (fun a w => a + w.inCanopy) 0 +
  (s.images.filter (fun i => isDescendant s region i.wg.region)).foldl (fun a i => match i.place with | .canopy _ => a + i.bytes | _ => a) 0

/-- The bytes in use in a tower's canopy. -/
def canopyUsed (s : State) (tower : Nat) : Nat :=
  (s.wgs.filter (fun w => w.column / 48 == tower)).foldl (fun a w => a + w.inCanopy) 0 +
  s.images.foldl (fun a i => match i.place with | .canopy t => if t = tower then a + i.bytes else a | _ => a) 0

/-- A canopy may take so many bytes more for a region. -/
def canopyRoom (s : State) (tower region bytes : Nat) : Bool :=
  canopyUsed s tower + bytes ≤ 2 ^ 31 && (pathToRoot 9 s region).all (fun r => canopyCharge s r.id + bytes ≤ canbOf s r)

/-- The cycle since which a split has been parked. -/
def Split.parkedSince (p : Split) : Option Nat :=
  match p.state with
  | .parked _ since => some since
  | _ => none

/-- The condition of a split of a group has cleared. -/
def conditionOf (s : State) (x : SplitId) : Bool :=
  match ctxOf s x with
  | some c => conditionMet s c
  | none => false

/-- A group may be demoted: every split that has not ended has stood parked at a boundary for 2048 cycles with its condition not met, no group of its
workgroup is in handler mode (R242), nothing holds the workgroup, and the canopy has room (R296). -/
def mayDemote (s : State) (w : Workgroup) (grp : Nat) (g : Group) : Bool :=
  let cycle := (columnOf s w.column).cycle
  let live := g.splits.filter (fun p => p.live && p.state != .ended)
  !g.ended && !g.halted && g.residence == .core && w.hold == .none && !w.stopped && !live.isEmpty && groupAtBoundary s g &&
  w.groups.all (fun g => g.handler.isNone) && live.all (fun p => match p.parkedSince with | some t => t + 2048 ≤ cycle | none => false) &&
  [0, 1, 2, 3].all (fun k => !conditionOf s { wg := w.id, grp := grp, slot := k }) &&
  canopyRoom s (w.column / 48) w.region (stateBytes w g)

/-- The groups on a core that are eligible, in the order of R297. -/
def eligibleGroups (s : State) (core : Nat) : List (Workgroup × Nat × Group) :=
  let all := (s.wgs.filter (fun w => w.core == core)).flatMap (fun w => ((List.range w.groups.length).zip w.groups).filterMap (fun e =>
    if e.2.eligible && mayDemote s w e.1 e.2 then some (w, e.1, e.2) else none))
  let key (e : Workgroup × Nat × Group) : List Nat :=
    [((regionFind s e.1.region).map (prioOf s)).getD 0, e.2.2.splits.foldl (fun m p => max m (p.parkedSince.getD 0)) 0, e.1.slot, e.2.1]
  sortBy (fun a b => keyBefore (key a) (key b)) all

/-- Begin the demotion of a group: it takes the rigging bus in its turn. -/
def beginDemotion (s : State) (w : Workgroup) (grp : Nat) : State :=
  let k := columnOf s w.column
  match w.groups[grp]? with
  | none => s
  | some g =>
    let till := max k.cycle k.busFree + ceilDiv (stateBytes w g) 512 + 32
    let rows := ceilDiv (stateBytes w g) 1024
    let s0 := modCore (match regionFind s w.region with
      | some r => markUse s (3000 + w.column / 48) 2097152 (domainOf s r) rows
      | none => s) w.core (fun k => unfused k (fun x => x.wg == w.id && x.grp == grp))
    modGroup (modColumn s0 w.column (fun k => { k with busFree := till })) { wg := w.id, grp := grp }
      (fun g => { g with residence := .demoting till, hold := [], eligible := false })

/-- Demote groups of a list, one after another, until the need fits; none if it never does (R297). -/
def demoteUntil (need : Space) (core : Nat) (s : State) : List (Workgroup × Nat × Group) → Option State
  | [] => if ((coreSpace s core true).add need).fits then some s else none
  | e :: rest =>
    if ((coreSpace s core true).add need).fits then some s
    else match (wgFind s e.1.id).bind (fun w => w.groups[e.2.1]?.map (fun g => (w, g))) with
      | some (w, g) => demoteUntil need core (if mayDemote s w e.2.1 g then beginDemotion s w e.2.1 else s) rest
      | none => demoteUntil need core s rest

/-- R296: a group becomes eligible for demotion. -/
def execDemotionEligible (s : State) : Result :=
  event "DEMOTION_ELIGIBLE" (
    s.wgs.findSome? (fun w => ((List.range w.groups.length).zip w.groups).findSome? (fun e =>
      if !e.2.eligible && mayDemote s w e.1 e.2 then some (modGroup s { wg := w.id, grp := e.1 } (fun g => { g with eligible := true })) else none)))

/-- A matrix command has come to its completion, in the issue order of its group. -/
def commandDue (s : State) (m : MxCmd) : Bool := m.started && !m.cancel && m.doneAt ≤ coreCycle s m.core && firstOfGroup s m

/-- A split of a group has its condition, or its page fault answered, or a trap is due for it (R299); a follow-on that has landed and a matrix command that
has come to its completion wait for the recall as well (R300). -/
def wantsRecall (s : State) (wg grp : Nat) (g : Group) : Bool :=
  (List.range g.splits.length).any (fun k => match ctxOf s { wg := wg, grp := grp, slot := k } with
    | some c => c.p.live && (conditionMet s c || c.p.state == .running || !c.p.pending.isEmpty)
    | none => false) ||
  s.copies.any (fun k => k.g.wg == wg && k.g.grp == grp && k.landed && !k.cancel) || s.commands.any (fun m => m.g.wg == wg && m.g.grp == grp && commandDue s m)

/-- R298: a demotion ends; a recall that has fallen due meanwhile is due at once. -/
def execDemotionEnd (s : State) : Result :=
  event "DEMOTION_END" (
    s.wgs.findSome? (fun w => ((List.range w.groups.length).zip w.groups).findSome? (fun e =>
      let cycle := (columnOf s w.column).cycle
      match e.2.residence with
      | .demoting till =>
        if till ≤ cycle then
          some (modGroup s { wg := w.id, grp := e.1 } (fun g => { g with
            residence := .canopy (if w.hold == .none && wantsRecall s w.id e.1 e.2 then some cycle else none) }))
        else none
      | _ => none)))

/-! ## Recall (R299) -/

/-- The cycle in which the recall of a group in the canopy fell due: one that has its reason now is due now. -/
def recallDue (s : State) (w : Workgroup) (grp : Nat) (g : Group) : Option Nat :=
  match g.residence with
  | .canopy (some due) => some due
  | .canopy none => if wantsRecall s w.id grp g then some (columnOf s w.column).cycle else none
  | _ => none

/-- The recalls that are pending on a core, in their order. -/
def pendingRecalls (s : State) (core : Nat) : List GroupId :=
  let all := (s.wgs.filter (fun w => w.core == core && w.hold == .none)).flatMap (fun w =>
    ((List.range w.groups.length).zip w.groups).filterMap (fun e => (recallDue s w e.1 e.2).map (fun due =>
      (({ wg := w.id, grp := e.1 } : GroupId), [47 - min 47 (((regionFind s w.region).map (prioOf s)).getD 0), due]))))
  (sortBy (fun a b => keyBefore a.2 b.2) all).map (·.1)

/-- R299: the first pending recall of a core starts where there is space, or has space made for it. -/
def execRecallStart (x : GroupId) (s : State) : Result :=
  event "RECALL_START" (
    match wgFind s x.wg with
    | none => none
    | some w =>
      if (pendingRecalls s w.core).head? ≠ some x then none
      else
        let need : Space := { w.fields.space with groups := 0 }
        if ((coreSpace s w.core false).add need).fits then
          some (modGroup s x (fun g => { g with residence := .recalling ((columnOf s w.column).cycle + 960) false }))
        else if ((coreSpace s w.core true).add need).fits then none
        else demoteUntil need w.core s (eligibleGroups s w.core))

/-- A split goes on from its boundary, or executes its park instruction again from its start (R52, R299, R309, R350). -/
def Split.resumed (p : Split) : Split := if p.parkPoint then { p with state := .running } else p

/-- A split that begins anew on a core: PASS is 0 and READYSINCE unset (R290). -/
def Split.counted (p : Split) : Split := { p with pass := 0, readySince := none }

/-- The group stands in its core: PASS starts at 0, and each split's park instruction executes again (R299); while a capture holds its workgroup its splits
stay parked. -/
def backInCore (s : State) (x : GroupId) : State :=
  let held := ((wgFind s x.wg).map (fun w => w.hold != .none)).getD false
  modGroup s x (fun g => { g with
    residence := .core, eligible := false, splits := g.splits.map (fun p => if held then p.counted else p.resumed.counted) })

/-- R299: a recall ends; where an uncorrectable error has struck the state, the workgroup is lost (R430). -/
def execRecallEnd (s : State) : Result :=
  event "RECALL_END" (
    s.wgs.findSome? (fun w => ((List.range w.groups.length).zip w.groups).findSome? (fun e =>
      match e.2.residence with
      | .recalling till true =>
        if till ≤ (columnOf s w.column).cycle then
          if e.2.canopyBad then
            some (loseWorkgroup (modGroup s { wg := w.id, grp := e.1 } (fun g => { g with residence := .core, canopyBad := false })) w.id 2 0)
          else
          let s1 := backInCore s { wg := w.id, grp := e.1 }
          some (modCore s1 w.core (fun k => { k with guard := k.guard.filter (fun x => !(x.wg == w.id && x.grp == e.1)) }))
        else none
      | _ => none)))

/-! ## Time (R301, R412, R419) -/

/-- A column's clock half a tick later. -/
def tickColumn (now : Nat) (k : Column) : Column :=
  if k.phase = .stretched ∧ !k.half then { k with half := true }
  else
    let next := { k with half := false, cycle := k.cycle + 1, cycleAt := now, alarm := false }
    if k.alarm then { next with phase := .stretched, left := 6 }
    else if k.phase = .usual then next
    else { next with left := k.left - 1 }

/-- The recalls of a column: after its latency a recall's data takes the bus in its turn; one whose condition has cleared falls due, and one that a
save or a flush holds is dropped. A group that was placed starts. -/
def tickRecall (before s : State) (w : Workgroup) (grp : Nat) (g : Group) : State :=
  let k := columnOf s w.column
  let x : GroupId := { wg := w.id, grp := grp }
  match g.residence with
  | .recalling till false =>
    if till ≤ k.cycle then
      let done := max k.cycle k.busFree + ceilDiv (stateBytes w g) 512
      modGroup (modColumn s w.column (fun k => { k with busFree := done })) x (fun g => { g with residence := .recalling done true })
    else s
  | .starting till => if till ≤ k.cycle then modGroup s x (fun g => { g with residence := .core }) else s
  | .canopy due =>
    let held := w.hold == .flush || w.hold == .save || w.hold == .restore
    let new := if held then none else if due.isNone then recallDue before w grp g else due
    if new = due then s else modGroup s x (fun g => { g with residence := .canopy new })
  | _ => s

/-- A core's reading (R301): the highest of its samples. -/
def Core.reading (k : Core) : Nat := k.sensors.foldl (fun m c => max m c.toNat) 0

/-- The dwell of a column, of which 0 acts as 1 (R302). -/
def Column.dwell (k : Column) : Nat := max 1 k.thDwell.toNat

/-- A run of samples that is long enough stays until its core has become hot. -/
def runDone (k : Column) (tick : Nat) (run : Option Nat) : Bool :=
  match run with
  | some t => t + k.dwell ≤ tick
  | none => false

/-- The samples of a tick, one of each of the 16 sensors: each sensor's run above TH_HI, and the core's run at 105.0 degrees or more (R301, R457). -/
def sampleCore (s : State) (n : Nat) (live : Core) : Core :=
  let c := { live with sensors := (List.range 16).map (fun i => live.live.getD i 0) }
  let k := columnOf s (n / 4)
  let tick := timeOf s
  let run (i : Nat) : Option Nat :=
    let old := (c.above[i]?).getD none
    if !k.trapezeOff && !c.hot && runDone k tick old then old
    else if k.trapezeOff || (c.sensors.getD i 0).toNat ≤ k.thHi.toNat then none
    else some (old.getD tick)
  { c with above := (List.range c.sensors.length).map run,
           overSince := if 420 ≤ c.reading then some (c.overSince.getD tick) else none }

/-- Half a tick passes. -/
def passTime (s : State) : State :=
  let now := s.now + 1
  let s1 := { s with now := now, turn := 0, columns := (List.range 192).map (fun n => (n, tickColumn now (columnOf s n))) }
  let s2 := if now % 2 = 0 then { s1 with cores := s1.cores.map (fun e => (e.1, sampleCore s1 e.1 e.2)) } else s1
  s2.wgs.foldl (fun t w => ((List.range w.groups.length).zip w.groups).foldl (fun t e => tickRecall s t w e.1 e.2) t) s2

/-- R290: one core's issue choice for the cycle; after the last core's, and the word that it chose, half a tick passes. -/
def execIssueCycle (s : State) : Result :=
  event "ISSUE_CYCLE" (
    if !s.booted || s.inReset || s.issue.isSome then none
    else if 768 ≤ s.turn then some { passTime s with draw := s.draw + 1 }
    else
      let k := columnOf s (s.turn / 4)
      let c := coreOf s s.turn
      let s1 := if k.issueBarred || c.claimed == some k.cycle then s else issueChoice s s.turn
      some { s1 with turn := s1.turn + 1, draw := s1.draw + 1 })

end Sys2Proof.Machine
end

