-- ==== Sys2Proof/Machine/Migration.lean ====
section
/-! DEFINITION. The trapeze: hot cores, captures and moves (R301 to R312). -/

namespace Sys2Proof.Machine

/-! ## Hot and cool (R301, R303) -/

/-- A sensor of a core has exceeded TH_HI for the whole dwell. -/
def hotDue (s : State) (n : Nat) : Bool :=
  let k := columnOf s (n / 4)
  let c := coreOf s n
  !c.hot && !k.trapezeOff && c.above.any (runDone k (timeOf s))

/-- R301: a core becomes hot. -/
def execCoreBecomesHot (s : State) : Result :=
  event "CORE_BECOMES_HOT" ((firstWith (hotDue s) (s.cores.map (·.1))).map (fun n => modCore s n (fun c => { c with hot := true })))

/-- R301: a core stops being hot when every sample is below TH_LO. -/
def execCoreStopsBeingHot (s : State) : Result :=
  event "CORE_STOPS_BEING_HOT" (
    (firstWith (fun n => (coreOf s n).hot && (coreOf s n).reading < (columnOf s (n / 4)).thLo.toNat) (s.cores.map (·.1))).map (fun n =>
      modCore s n (fun c => { c with hot := false, above := [] })))

/-! ## Capture (R304 to R306) -/

/-- The element of a list with the least key. -/
def leastBy {α : Type} (key : α → List Nat) (l : List α) : Option α :=
  l.foldl (fun best a => match best with
    | none => some a
    | some b => if keyBefore (key b) (key a) then some b else some a) none

/-- What a workgroup needs on the core it moves to. -/
def moveSpace (w : Workgroup) : Space :=
  w.groups.foldl (fun a g => a.add (groupSpace w false g)) { groups := 0, fast := 0, slow := 0, tiles := 0 }

/-- The core of a column that a workgroup would be moved to. -/
def captureTarget (s : State) (w : Workgroup) : Option Nat :=
  let k := columnOf s w.column
  let ok (n : Nat) : Bool := n != w.core && !(coreOf s n).degraded && !k.degraded && (coreOf s n).reading < k.thLo.toNat && ((coreSpace s n false).add (moveSpace w)).fits
  (leastBy (fun n => [(coreOf s n).reading, n]) ((coresOf w.column).filter ok)).map (· % 4)

/-- A workgroup that the trapeze may capture. -/
def mayCapture (w : Workgroup) : Bool := w.excluded.isNone && w.hold == .none && !w.stopped && w.groups.all (fun g => g.handler.isNone)

/-- The workgroup that a column's trapeze captures now, with its target. -/
def captureChoice (s : State) (column : Nat) : Option (Workgroup × Nat) :=
  let k := columnOf s column
  if k.capture.isSome || k.trapezeOff then none
  else match leastBy (fun n => [2000 - (coreOf s n).reading, n]) ((coresOf column).filter (fun n => (coreOf s n).hot)) with
    | none => none
    | some src =>
      let after := (Table.find k.lastSlot (src % 4)).map (· + 1)
      let place (w : Workgroup) : Nat := (w.slot + 128 - (after.getD 0) % 128) % 128
      (sortBy (fun a b => place a ≤ place b) (s.wgs.filter (fun w => w.core == src && mayCapture w))).findSome? (fun w =>
        (captureTarget s w).map (fun t => (w, t)))

/-- R304: a capture begins. -/
def execCaptureBegin (s : State) : Result :=
  event "CAPTURE_BEGIN" (
    (List.range 192).findSome? (fun c => (captureChoice s c).map (fun e =>
      let cycle := (columnOf s c).cycle
      let cap : Capture := { wg := e.1.id, target := e.2, start := cycle, succeeded := none, moveFrom := 0, moveLen := 0, moveTill := none }
      modWg (modColumn s c (fun k => { k with capture := some cap, lastSlot := Table.put k.lastSlot e.1.layer e.1.slot })) e.1.id
        (fun w => { w with hold := .capture }))))

/-- The column whose capture passes a test, with it and its workgroup. -/
def captureWhere (s : State) (p : Column → Capture → Workgroup → Bool) : Option (Nat × Capture × Workgroup) :=
  s.columns.findSome? (fun e => match e.2.capture with
    | none => none
    | some k => (wgFind s k.wg).bind (fun w => if p e.2 k w then some (e.1, k, w) else none))

/-- Every group of the workgroup is at a boundary where no trap is due (R310), and no matrix command is in flight. -/
def readyToMove (s : State) (w : Workgroup) : Bool :=
  wgAtBoundary s w && w.groups.all (fun g => pathOf g 4 == 0) &&
  (List.range w.groups.length).all (fun g => [0, 1, 2, 3].all (fun k => !trapDeliverable s { wg := w.id, grp := g, slot := k }))

/-- The bytes that a group's move carries: none for one that is in the canopy, on its way there, or not yet on its way back. -/
def groupMoveBytes (w : Workgroup) (g : Group) : Nat :=
  let carried := match g.residence with
    | .core => true
    | .recalling _ true => true
    | _ => false
  if g.ended || !carried then 0
  else stateBytes w g + 256 * (g.splits.filter (fun p => p.live)).length + 128

/-- M of R309. -/
def moveBytes (w : Workgroup) : Nat := w.groups.foldl (fun a g => a + groupMoveBytes w g) 0

/-- R305, R309: a capture succeeds; its move takes its turn on the rigging bus, in a later cycle. -/
def execCaptureSuccess (s : State) : Result :=
  event "CAPTURE_SUCCESS" (
    (captureWhere s (fun _ k w => k.succeeded.isNone && w.hold == .capture && !w.stopped && readyToMove s w)).map (fun e =>
      let len := ceilDiv (moveBytes e.2.2) 512
      modColumn s e.1 (fun c =>
        let from_ := max (c.cycle + 1) c.busFree
        { c with capture := some { e.2.1 with succeeded := some c.cycle, moveFrom := from_, moveLen := len }, busFree := from_ + len })))

/-- R306: a capture that has not succeeded within 2048 cycles is abandoned. -/
def execCaptureAbandon (s : State) : Result :=
  event "CAPTURE_ABANDON" (
    (captureWhere s (fun c k _ => k.succeeded.isNone && k.start + 2048 ≤ c.cycle)).map (fun e => abandonCapture s e.1))

/-- R306: an abandoned workgroup may be captured again. -/
def execCaptureExclusionEnd (s : State) : Result :=
  event "CAPTURE_EXCLUSION_END" (
    (firstWith (fun w => match w.excluded with | some t => t ≤ (columnOf s w.column).cycle | none => false) s.wgs).map (fun w =>
      modWg s w.id (fun w => { w with excluded := none })))

/-! ## The move (R307 to R312) -/

/-- Add to a counter of 32 bits, saturating. -/
def addSat (c : Word) (n : Nat) : Word := BitVec.ofNat 32 (min (c.toNat + n) 0xFFFFFFFF)

/-- R309: the move of a captured workgroup begins, at its turn on the rigging bus. -/
def execMoveBegin (s : State) : Result :=
  event "MOVE_BEGIN" (
    (captureWhere s (fun c k w => k.moveTill.isNone && k.succeeded.isSome && k.moveFrom ≤ c.cycle && !w.stopped)).map (fun e =>
      let cycle := (columnOf s e.1).cycle
      modWg (modColumn s e.1 (fun c => { c with capture := some { e.2.1 with moveTill := some (cycle + e.2.1.moveLen) } })) e.2.2.id
        (fun w => { w with hold := .move, migdefer := addSat w.migdefer (cycle - e.2.1.start) })))

/-- What holds a workgroup once a move or a restore is over: the pre-emption that waited for it (R351). -/
def Workgroup.nextHold (w : Workgroup) : HoldKind :=
  match (w.preempt.map (fun p => p.kind) : Option PreKind) with
  | some .flush => .flush
  | some .save => .save
  | _ => .none

/-- A workgroup stands on another core of its column: hold latches are free, PASS and READYSINCE start anew, and where nothing else holds it each park
instruction of a group that moved executes again (R290, R307, R309). -/
def arrive (w : Workgroup) (layer : Nat) : Workgroup :=
  { w with layer := layer, hold := w.nextHold,
           groups := w.groups.map (fun g => { g with hold := [], splits := g.splits.map (fun p =>
             if w.nextHold = .none ∧ g.residence = .core then p.resumed.counted else p.counted) }) }

/-- R309: a move ends. -/
def execMoveEnd (s : State) : Result :=
  event "MOVE_END" (
    (captureWhere s (fun c k _ => match k.moveTill with | some t => t ≤ c.cycle | none => false)).map (fun e =>
      let w := e.2.2
      let s1 := modCore (modColumn s e.1 (fun c => { c with capture := none })) w.core (fun c =>
        { unfused c (fun x => x.wg == w.id) with guard := c.guard.filter (fun x => x.wg != w.id) })
      modWg s1 w.id (fun w => { arrive w e.2.1.target with migcnt := addSat w.migcnt 1, migcyc := addSat w.migcyc e.2.1.moveLen })))

end Sys2Proof.Machine
end

