-- ==== Sys2Proof/Machine/Ringmaster.lean ====
section
/-! DEFINITION. The ringmaster: launch records and their checks, candidates, placement, pre-emption requests, completion of workgroups and
launches, and fault records (R45, R46, R57, R331 to R345, R433, R449). -/

namespace Sys2Proof.Machine

/-! ## Launch records (R332 to R334) -/

/-- The fields of a record's 128 bytes. -/
def LaunchRec.ofBytes (b : List Byte) : LaunchRec :=
  { entry := BitVec.ofNat 64 (numAt b 0 8), args := BitVec.ofNat 64 (numAt b 8 8), nwg := numAt b 16 4, lanes := numAt b 20 2,
    groups := numAt b 22 1, vcnt := numAt b 23 1, spad := numAt b 24 4, wbase := numAt b 28 4, wsize := numAt b 32 4, tiles := numAt b 36 1,
    inhLo := numAt b 37 1, inhHi := numAt b 38 1, restart := numAt b 39 1 % 2 == 1, cores := numAt b 39 1 / 2 % 2 == 1,
    chain := numAt b 39 1 / 4 % 2 == 1, mset := numAt b 40 1, done := BitVec.ofNat 64 (numAt b 48 8), bitmap := BitVec.ofNat 64 (numAt b 56 8) }

/-- Record `i` of a region's list. -/
def Region.recordAddr (r : Region) (i : Nat) : Nat := r.llist + 128 * (i % r.llsize)

/-- The launch sequence number of record `i`. -/
def seqOf (i : Nat) : Nat := i % 0xFFFFFFFF + 1

/-- The records appended; a RETIRE refuses later ones (R343). -/
def listCount (s : State) (r : Region) : Option Nat :=
  (appended s r).map (fun n => match r.listEnd with | some e => min e n | none => n)

/-- A field breaks its limits, a reserved field is not zero, or the fields do not go together (R332, R333). -/
def recordInvalid (i : Nat) (b : List Byte) : Bool :=
  let f := LaunchRec.ofBytes b
  f.entry.toNat % 8 != 0 || f.nwg == 0 || f.groups == 0 || 16 < f.groups || f.lanes ≤ 96 * (f.groups - 1) || 96 * f.groups < f.lanes ||
  f.vcnt < 8 || 128 < f.vcnt || f.vcnt % 8 != 0 || 0x1C0000 < f.spad || f.spad % 128 != 0 || f.wbase % 128 != 0 || f.wsize % 128 != 0 ||
  f.spad < f.wbase + f.wsize || 8 < f.tiles || 16 < f.groups * f.tiles ||
  !((f.inhLo == 0 && f.inhHi == 0) || (2 ≤ f.inhLo && f.inhLo ≤ f.inhHi && f.inhHi < f.vcnt)) || 8 ≤ numAt b 39 1 || f.mset == 1 || 8 < f.mset ||
  numAt b 41 7 != 0 || numAt b 64 56 != 0 || f.bitmap.toNat % 8 != 0 ||
  (2 ≤ f.mset && (f.wsize == 0 || f.nwg % f.mset != 0)) || (f.wsize != 0 && f.mset == 0) || (f.chain && i == 0)

/-- REGB of one workgroup (R331). -/
def LaunchRec.regb (f : LaunchRec) : Nat := f.groups * (384 * f.vcnt + 24576 * f.tiles)

/-- Workgroups of a record that an empty core, and an empty column, can hold. -/
def LaunchRec.perCore (f : LaunchRec) : Nat :=
  let w := f.whole
  let fit (cap n : Nat) : Nat := if n = 0 then 32 else cap / n
  min (min (fit 32 w.groups) (fit 393216 w.fast)) (min (fit 131072 w.slow) (fit 16 w.tiles))
def LaunchRec.perColumn (f : LaunchRec) : Nat := min (min 128 (4 * f.perCore)) (if f.spad = 0 then 128 else 0x1C0000 / f.spad)

/-- Mirror sets that so many columns, spread over so many towers, can hold: each set lies in distinct columns of one tower. -/
def setsIn (mset per : Nat) : Nat → Nat → Nat
  | 0, _ => 0
  | t + 1, cols => (List.range (min 48 cols + 1)).foldl (fun best c =>
      max best ((if c < mset then 0 else c * per / mset) + setsIn mset per t (cols - c))) 0

/-- The workgroups that have to be resident at once, and whether so many columns can hold them. -/
def LaunchRec.together (f : LaunchRec) : Nat := if f.cores then f.nwg else if 2 ≤ f.mset then f.mset else 1
def LaunchRec.columnsDo (f : LaunchRec) (cols : Nat) : Bool :=
  if 2 ≤ f.mset then f.together / f.mset ≤ setsIn f.mset f.perColumn 4 (min cols 192) else f.together ≤ min cols 192 * f.perColumn

/-- A launch that an empty device could not place within the budgets (R333). -/
def unplaceable (s : State) (r : Region) (f : LaunchRec) : Bool :=
  f.perCore == 0 || (pathToRoot 9 s r.id).any (fun q =>
    regbOf s q < f.together * f.regb || spadbOf s q < f.together * f.spad || !f.columnsDo (colsOf s q))

/-! ## Completion of launches (R335) -/

/-- A write that a workgroup made, or that the acquires of its splits obliged it to see. -/
def EndedWg.knows (k : EndedWg) (e : PastWrite) : Bool :=
  e.group.wg == k.wg ||
  (!e.near && e.acquired { x := { wg := k.wg, grp := 16, slot := 0 }, outside := false, column := k.column, path := 0, issue := 0, floors := k.floors,
                           coherent := true, follows := none, store := false })

/-- The release of every path of some workgroups at system scope: what they wrote, and what happens before it, is performed there and readable by every
path (R269, R270, R272). -/
def releaseAll (s : State) (ks : List EndedWg) : State :=
  { s with past := s.past.map (fun e =>
      if ks.any (fun k => k.knows e) then [0, 3, 4].foldl (fun e p => e.publish p 6 (stampOf s) none) e else e) }

/-- A workgroup as its launch keeps it. -/
def Workgroup.ran (w : Workgroup) : EndedWg :=
  { wg := w.id, column := w.column, floors := w.groups.foldl (fun f g => g.splits.foldl (fun f p => joinFloors f p.floors 6) f) noFloors }

/-- A launch is complete: the add to DONE, a release at system scope, then LDONE (R269, R335, R459). -/
def finishLaunch (s : State) (region launch : Nat) : State :=
  match regionFind s region, launchFind s region launch with
  | some r, some l =>
    let s1 := if l.fields.done = 0 then s else completionAdd (releaseAll s l.ran) r false l.fields.done.toNat (seqOf l.id) 4
    advanceLdone s1 region
  | _, _ => s

/-! ## The check of a record (R333) -/

/-- Nothing of a launch is left to place. -/
def Launch.placed (s : State) (l : Launch) : Bool :=
  l.over || (l.fields.nwg ≤ l.next && l.again.isEmpty && !s.images.any (fun i => i.wg.region == l.region && i.wg.launch == l.id && i.restoring.isNone))

/-- The region is frozen, by a command or by a fault stop. -/
def Region.still (r : Region) : Bool := r.frozen || r.faultStop

/-- The next record of a region, where it stands at the head of its list, with whether it is poisoned. -/
def nextRecordOf (s : State) (r : Region) : Option (State × List Byte × Bool) :=
  if r.still || !r.launches.all (fun l => l.placed s) then none
  else match listCount s r with
    | none => none
    | some n => if n ≤ r.nextRecord then none else ringRead s r.space (r.recordAddr r.nextRecord) 128

/-- Take a record in, with its STATUS. -/
def admitRecord (s : State) (r : Region) (b : List Byte) (status : Nat) : State :=
  let i := r.nextRecord
  let l : Launch := { id := i, region := r.id, record := i, addr := BitVec.ofNat 64 (r.recordAddr i), fields := LaunchRec.ofBytes b, status := 0, next := 0,
                      again := [], finished := [], losses := [], ran := [], avg := none, since := none, expired := false }
  let s1 := modRegion s r.id (fun r => { r with launches := r.launches ++ [l], nextRecord := i + 1 })
  let s2 := ringWrite s1 r.space (r.recordAddr i + 120) (bytesOf 4 (seqOf i))
  setStatus s2 r.id i status

/-- R333: the ringmaster checks the record at the head of a list. -/
def execLaunchRecordCheck (s : State) : Result :=
  event "LAUNCH_RECORD_CHECK" (
    s.regions.findSome? (fun r => (nextRecordOf s r).map (fun e =>
      let b := e.2.1
      let status := if e.2.2 || recordInvalid r.nextRecord b then 3 else if unplaceable s r (LaunchRec.ofBytes b) then 4 else 0
      let s1 := admitRecord e.1 r b status
      if status = 0 then s1
      else finishLaunch (queueRecord s1 r.id (record226 (seqOf r.nextRecord) status 4 0 (r.recordAddr r.nextRecord) 0 0 0)) r.id r.nextRecord)))

/-! ## Candidates (R336, R339) -/

/-- A workgroup to place: one that is new or reruns, by its index, or a save image. -/
inductive Member where
  | fresh (index : Nat)
  | image (id : Nat)
  deriving DecidableEq, Repr

/-- The images of a launch that wait to be placed, the earliest saved first. -/
def waitingImages (s : State) (l : Launch) : List SaveImage :=
  sortBy (fun a b => a.saved ≤ b.saved) (s.images.filter (fun i => i.wg.region == l.region && i.wg.launch == l.id && i.restoring.isNone))

/-- The unplaced indexes of a launch, ascending, up to a bound. -/
def unplaced (l : Launch) (bound : Nat) : List Nat := (sortBy (fun a b => a ≤ b) l.again) ++ (List.range (bound - l.next)).map (l.next + ·)

/-- The members that a launch places next: its earliest image, else its lowest unplaced workgroup; or the whole set (R336, R340, R341). -/
def nextMembers (s : State) (l : Launch) : List Member :=
  let f := l.fields
  let whole (p : Nat → Bool) (bound : Nat) : List Member :=
    let all := ((waitingImages s l).map (fun i => (i.wg.index, Member.image i.id))) ++ ((unplaced l bound).map (fun k => (k, Member.fresh k)))
    (sortBy (fun a b => a.1 ≤ b.1) (all.filter (fun e => p e.1))).map (·.2)
  if f.cores then whole (fun _ => true) f.nwg
  else
    let first : Option (Nat × Member) := match waitingImages s l with
      | i :: _ => some (i.wg.index, .image i.id)
      | [] => (unplaced l (min f.nwg (l.next + 1))).head?.map (fun k => (k, .fresh k))
    match first with
    | none => []
    | some (k, m) => if f.mset < 2 then [m] else whole (fun j => j / f.mset == k / f.mset) (min f.nwg ((k / f.mset + 1) * f.mset))

/-- The index of a member. -/
def Member.index (s : State) : Member → Nat
  | .fresh k => k
  | .image id => ((firstWith (fun i => i.id == id) s.images).map (fun i => i.wg.index)).getD 0

/-- A chain's workgroup waits until that of its predecessor has completed (R342). -/
def chainReady (r : Region) (l : Launch) (ms : List Member) : Bool :=
  !l.fields.chain || (match firstWith (fun p => p.id + 1 == l.id) r.launches with
    | none => true
    | some p => ms.all (fun m => match m with
        | .fresh k => p.over || p.finished.contains k
        | .image _ => true))

/-- The candidate of a region: the launch at its head, with what it places next. -/
def candidateOf (s : State) (r : Region) : Option (Launch × List Member) :=
  if r.still then none
  else match firstWith (fun l => !l.placed s) r.launches with
    | none => none
    | some l =>
      let ms := nextMembers s l
      if ms.isEmpty || !chainReady r l ms then none else some (l, ms)

/-- The candidates, with their regions. -/
def candidates (s : State) : List (Region × Launch × List Member) := s.regions.filterMap (fun r => (candidateOf s r).map (fun c => (r, c.1, c.2)))

/-- E of a candidate. -/
def urgency (s : State) (r : Region) (l : Launch) : Nat := if l.expired then 47 else prioOf s r

/-- Note which regions have become candidates and which launches have begun to wait; a new candidate takes the lowest VPASS of its priority. -/
def noteCandidates (s : State) : State :=
  let cs := candidates s
  let old := cs.filter (fun c => c.1.cand)
  let pass (r : Region) : Nat := ((old.filter (fun c => prioOf s c.1 == prioOf s r)).map (fun c => c.1.vpass)).foldl (fun m v => some (match m with
    | none => v
    | some w => min v w)) (none : Option Nat) |>.getD 0
  { s with regions := s.regions.map (fun r =>
      match firstWith (fun c => c.1.id == r.id) cs with
      | none => { r with cand := false, launches := r.launches.map (fun l => { l with since := none, expired := false }) }
      | some c => { r with
          cand := true, vpass := if r.cand then r.vpass else pass r,
          launches := r.launches.map (fun l => if l.id = c.2.1.id then { l with since := some (l.since.getD (timeOf s)) }
            else { l with since := none, expired := false }) }) }

/-- R339: a launch has waited longer than its region's PBOUND. -/
def execPboundExpiry (s : State) : Result :=
  event "PBOUND_EXPIRY" (
    s.regions.findSome? (fun r => (firstWith (fun l => !l.expired && (match l.since with
        | some t => t + pboundOf s r < timeOf s
        | none => false)) r.launches).map (fun l => modLaunch s r.id l.id (fun l => { l with expired := true }))))

/-! ## Marks of a placement (R449) -/

/-- A workgroup on a core marks what it uses. -/
def markPlacement (s : State) (dom core : Nat) (f : LaunchRec) : State :=
  let rows (bytes row : Nat) : Nat := ceilDiv bytes row
  let s1 := markUse s core (rows 524288 Config.registerRowBytes) dom (rows (384 * f.groups * f.vcnt) Config.registerRowBytes)
  let s2 := markUse s1 (1000 + core) (rows 393216 Config.accumulatorRowBytes) dom (rows (24576 * f.groups * f.tiles) Config.accumulatorRowBytes)
  markUse s2 (2000 + core / 4) 16384 dom (f.spad / 128)

/-! ## Where a member fits (R331, R337) -/

/-- The columns, the one whose hottest core has the lowest reading first. -/
def columnOrder (s : State) : List Nat :=
  let hot (c : Nat) : Nat := (coresOf c).foldl (fun m n => max m (coreOf s n).reading) 0
  (sortBy (fun a b => a.2 ≤ b.2) ((List.range 192).map (fun c => (c, hot c)))).map (·.1)

/-- The columns that hold a workgroup of a region's subtree. -/
def subtreeColumns (s : State) (region : Nat) : List Nat := ((s.wgs.filter (fun w => isDescendant s region w.region)).map (fun w => w.column)).eraseDups

/-- R331 for one more workgroup on a column: no charge that rises passes its budget. -/
def budgetsAllow (s : State) (r : Region) (f : LaunchRec) (column : Nat) : Bool :=
  (pathToRoot 9 s r.id).all (fun q =>
    let mine := s.wgs.filter (fun w => isDescendant s q.id w.region)
    let cols := subtreeColumns s q.id
    (cols.contains column || cols.length + 1 ≤ colsOf s q) &&
    mine.foldl (fun a w => a + w.fields.regb) 0 + f.regb ≤ regbOf s q &&
    (f.spad == 0 || mine.foldl (fun a w => a + w.fields.spad) 0 + f.spad ≤ spadbOf s q))

/-- What a member takes on its core: an image comes back with every group that has not ended. -/
def memberSpace (s : State) (f : LaunchRec) : Member → Space
  | .fresh _ => f.whole
  | .image id => match firstWith (fun i => i.id == id) s.images with
    | none => f.whole
    | some i => i.wg.groups.foldl (fun a g => a.add (if g.ended then { groups := 0, fast := 0, slow := 0, tiles := 0 } else f.space))
        { groups := 0, fast := 0, slow := 0, tiles := 0 }

/-- The core of a column that takes so much: one with capacity as it stands before one that must demote; with the state after the demotions
begun for it, and whether the groups wait for them. -/
def coreFor (s : State) (need : Space) (column : Nat) : Option (Nat × State × Bool) :=
  let order := sortBy (fun a b => keyBefore [(coreOf s a).reading, a] [(coreOf s b).reading, b]) ((coresOf column).filter (fun n => !(coreOf s n).degraded))
  match firstWith (fun n => ((coreSpace s n false).add need).fits) order with
  | some n => some (n, s, false)
  | none => order.findSome? (fun n => (demoteUntil need n s (eligibleGroups s n)).map (fun s1 => (n, s1, true)))

/-- A column has a slot, scratchpad, capacity on a core, and the budgets allow it. -/
def columnFor (s : State) (r : Region) (f : LaunchRec) (need : Space) (column : Nat) : Option (Nat × State × Bool) :=
  let here := s.wgs.filter (fun w => w.column == column)
  if (columnOf s column).degraded || 128 ≤ here.length || 0x1C0000 < here.foldl (fun a w => a + w.fields.spad) 0 + f.spad || !budgetsAllow s r f column then none
  else coreFor s need column

/-! ## Placing (R45, R46, R57, R337, R350) -/

/-- The lanes in use of a group. -/
def lanesInUse (f : LaunchRec) (grp : Nat) : Mask := ofMask (fun l => 96 * grp + l < f.lanes)

/-- A split that has not started: free, with every register zero. -/
def Split.blank : Split :=
  { live := false, pc := 0, scalars := [], mode := 0, xbnd := 0, loops := [], own := 0, trapCause := 0, trapPc := 0, trapVal := 0, state := .ended,
    shadows := [], markWait := false, boundary := false, wait := .none, await := [], hist := [], pending := [], refused := none, resumeAt := 0, pass := 0,
    readySince := none, floors := noFloors, sfloors := noFloors, relFence := 0, written := [], late := [], resting := none }

/-- The scalars that a group starts with. -/
def startScalars (f : LaunchRec) (addr : DWord) (seq index grp : Nat) (inherited : Bool) : Table Word :=
  let m := (lanesInUse f grp).toNat
  ([(1, index), (2, grp), (3, f.groups), (4, f.args.toNat), (5, f.args.toNat / 2 ^ 32), (6, addr.toNat), (7, addr.toNat / 2 ^ 32), (8, seq),
    (9, if inherited then 1 else 0), (61, m), (62, m / 2 ^ 32), (63, m / 2 ^ 64)]).map (fun e => (e.1, BitVec.ofNat 32 e.2))

/-- A group as it starts at a time (R45): everything reads zero but what its launch gives it. Its start is an acquire at system scope (R269). -/
def startGroup (f : LaunchRec) (addr : DWord) (seq index grp : Nat) (kept : Option (List (Nat × Nat × Lanes))) (res : Residence) (time : Nat) : Group :=
  let inherited : List (Nat × Lanes) := match kept with
    | none => []
    | some ks => (ks.filter (fun k => k.1 == grp)).map (fun k => k.2)
  let vregs := inherited.foldl (fun t e => Table.put t e.1 e.2) [(0, ofLanes (fun l => BitVec.ofNat 32 (96 * grp + l))), (1, ofLanes (fun l => BitVec.ofNat 32 l))]
  let first : Split := { Split.blank with
    live := true, pc := f.entry, scalars := startScalars f addr seq index grp kept.isSome, xbnd := BitVec.ofNat 32 ((f.vcnt - 1) * 256),
    own := BitVec.allOnes 96, state := .running, floors := floorsAt time }
  { vregs := vregs, preds := [], xregs := [], acc := [], accPoison := [], aLatch := none, hold := [], exited := ~~~ lanesInUse f grp, joins := [],
    joinGen := 0, joinAge := 0, paths := [0, 0, 0, 0, 0, 0], futures := [], nextSerial := 1, skip := [], taken := [], written := [], reserved := none,
    splits := [first, .blank, .blank, .blank], handler := none, halted := false, ended := false, residence := res, eligible := false, canopyBad := false }

/-- A free slot of a column; the manual does not say which is taken. -/
def freeColumnSlot (s : State) (column : Nat) : Nat :=
  let used := (s.wgs.filter (fun w => w.column == column)).map (fun w => w.slot)
  let free := (List.range 128).filter (fun k => !used.contains k)
  free.getD (Config.choice s.draw (1000 + column) % free.length) 0

/-- The values that a column keeps for a chain's workgroup. -/
def keptFor (s : State) (l : Launch) (index : Nat) : Option (Nat × Kept) :=
  s.columns.findSome? (fun c => (firstWith (fun k => k.region == l.region && k.launch == l.id && k.index == index) c.2.kept).map (fun k => (c.1, k)))

/-- When the groups of a new workgroup start: at once, or once the demotions under way on the core are over. -/
def startsAt (s : State) (core : Nat) (waits : Bool) : Residence :=
  if !waits then .core
  else
    let till := (s.wgs.filter (fun w => w.core == core)).foldl (fun m w => w.groups.foldl (fun m g => match g.residence with
      | .demoting t => max m t
      | _ => m) m) 0
    .starting till

/-- A new workgroup, or one that reruns, on a core. -/
def placeFresh (s : State) (l : Launch) (index column core : Nat) (waits : Bool) : State :=
  let f := l.fields
  let slot := freeColumnSlot s column
  let kept := match keptFor s l index with
    | some (c, k) => if c = column ∧ f.inhHi ≠ 0 then some k.regs else none
    | none => none
  let seq := (columnOf s column).seq
  let res := startsAt s core waits
  let w : Workgroup := {
    id := s.nextId, column := column, layer := core % 4, slot := slot, region := l.region, launch := l.id, index := index, seq := seq, placed := timeOf s,
    born := stampOf s, runBase := 0, migcnt := 0, migcyc := 0, migdefer := 0, excluded := none, fields := f, scratchSeed := s.nextId, scratch := [], full := [],
    scratchPoison := [], groups := (List.range f.groups).map (fun g => startGroup f l.addr (seqOf l.id) index g kept res (stampOf s)), hold := .none, preempt := none,
    lost := none, stopped := false }
  let drop (k : Kept) : Bool := !(k.region == l.region && k.launch == l.id && k.index == index)
  let s1 := { s with nextId := s.nextId + 1, wgs := s.wgs ++ [w],
                     columns := s.columns.map (fun c => (c.1, { c.2 with kept := c.2.kept.filter drop })) }
  let s2 := modColumn s1 column (fun k => { k with seq := if k.seq = 0xFFF then 1 else k.seq + 1 })
  modLaunch s2 l.region l.id (fun l =>
    if l.again.contains index then { l with again := l.again.filter (· != index) } else { l with next := index + 1 })

/-- The ticks that an image takes to write or to restore (R348, R350). -/
def imageTicks (bytes : Nat) : Nat := 64 + ceilDiv bytes 256

/-- A saved workgroup on a core, held while its image is restored. -/
def placeImage (s : State) (id column core : Nat) (waits : Bool) : State :=
  match firstWith (fun i => i.id == id) s.images with
  | none => s
  | some i =>
    let res := startsAt s core waits
    let w := { i.wg with column := column, layer := core % 4, slot := freeColumnSlot s column, placed := timeOf s, born := stampOf s, hold := .restore, preempt := none,
                         excluded := none,
                         groups := i.wg.groups.map (fun g => { g with residence := if g.ended then .core else res, eligible := false }) }
    { s with wgs := s.wgs ++ [w],
             images := s.images.map (fun j => if j.id = id then { j with restoring := some (timeOf s + imageTicks j.bytes) } else j) }

/-- One member less of a reserve. -/
def useReserve (s : State) (column region launch : Nat) : State :=
  { s with reserves := s.reserves.filterMap (fun e =>
      if e.column = column ∧ e.region = region ∧ e.launch = launch then (if e.count ≤ 1 then none else some { e with count := e.count - 1 }) else some e) }

/-- A member stands on a core of a column. -/
def placeMember (s : State) (r : Region) (l : Launch) (m : Member) (column core : Nat) (waits : Bool) : State :=
  let s1 := useReserve (markPlacement s (domainOf s r) core l.fields) column l.region l.id
  trimColumn (match m with
    | .fresh k => placeFresh s1 l k column core waits
    | .image id => placeImage s1 id column core waits) column

/-- The launch of an index of a mirror set, as resident members of a column see it. -/
def sameSet (l : Launch) (index : Nat) (w : Workgroup) : Bool :=
  w.region == l.region && w.launch == l.id && 2 ≤ l.fields.mset && w.index / l.fields.mset == index / l.fields.mset

/-- Remove workgroups, as if they had gone. -/
def without (s : State) (ids : List Nat) : State := { s with wgs := s.wgs.filter (fun w => !ids.contains w.id) }

/-- So many members of a launch placed on a column as its capacity stands, for a count of capacity. -/
def fillColumn (r : Region) (l : Launch) (column : Nat) : Nat → State → Option State
  | 0, s => some s
  | n + 1, s =>
    match columnFor s r l.fields l.fields.whole column with
    | none => none
    | some (core, s1, waits) => fillColumn r l column n (placeFresh s1 { l with next := 0, again := [] } 0 column core waits)

/-- The column once the pre-emptions in it are over and the launches for which its capacity is held stand there; none where they no longer would. -/
def afterReserves (s : State) (column : Nat) (region launch : Nat) : Option State :=
  let theirs := s.reserves.filter (fun e => e.column == column && !(e.region == region && e.launch == launch))
  if theirs.isEmpty then some s
  else
    let gone := (s.wgs.filter (fun w => w.column == column && w.preempt.isSome)).map (fun w => w.id)
    theirs.foldl (fun (st : Option State) e => st.bind (fun s => match regionFind s e.region, launchFind s e.region e.launch with
      | some q, some k => fillColumn q k column e.count s
      | _, _ => some s)) (some (without s gone))

/-- Place a member on a column, where it fits and leaves room for what the column's capacity is held for. -/
def placeOn (s : State) (r : Region) (l : Launch) (m : Member) (column : Nat) : Option State :=
  match columnFor s r l.fields (memberSpace s l.fields m) column with
  | none => none
  | some (core, s1, waits) =>
    let s2 := placeMember s1 r l m column core waits
    if (afterReserves s2 column l.region l.id).isSome then some s2 else none

/-- The columns for a member: a chain successor's own first; for a mirror set, distinct columns of one tower. -/
def columnsFor (s : State) (l : Launch) (m : Member) (order : List Nat) (tower : Option Nat) : List Nat :=
  let index := m.index s
  let mates := s.wgs.filter (sameSet l index)
  let ok (c : Nat) : Bool := !mates.any (fun w => w.column == c) && mates.all (fun w => w.column / 48 == c / 48) && (tower.isNone || tower == some (c / 48))
  let own := match m, keptFor s l index with
    | .fresh _, some (c, _) => [c]
    | _, _ => []
  (own ++ order.filter (fun c => !own.contains c)).filter ok

/-- Place members one after another, in one tower where one is given; none if some member finds no column. -/
def placeAll (r : Region) (order : List Nat) (tower : Option Nat) (l : Launch) : List Member → State → Option State
  | [], s => some s
  | m :: rest, s =>
    match (columnsFor s l m order tower).findSome? (fun c => placeOn s r ((launchFind s l.region l.id).getD l) m c) with
    | none => none
    | some s1 => placeAll r order tower l rest s1

/-- Place a mirror set in the first tower, in the order of the columns, that takes it whole. -/
def placeSet (r : Region) (order : List Nat) (l : Launch) (ms : List Member) (s : State) : Option State :=
  (order.map (· / 48)).eraseDups.findSome? (fun t => placeAll r order (some t) l ms s)

/-- The members of each mirror set. -/
def setsOf (s : State) (l : Launch) (ms : List Member) : List (List Member) :=
  ((ms.map (fun m => m.index s / l.fields.mset)).eraseDups).map (fun k => ms.filter (fun m => m.index s / l.fields.mset == k))

/-- Place a launch's members, whole. -/
def placeMembers (s : State) (r : Region) (l : Launch) (ms : List Member) : Option State :=
  let order := columnOrder s
  if 2 ≤ l.fields.mset then (setsOf s l ms).foldl (fun (st : Option State) set => st.bind (placeSet r order l set)) (some s)
  else placeAll r order none l ms s

/-- After a placement: STATUS 1 and LSTART at the launch's first, the wait afresh, VPASS (R336, R339). -/
def notePlaced (s : State) (r : Region) (l : Launch) : State :=
  let s1 := modRegion (modLaunch s r.id l.id (fun l => { l with since := none, expired := false })) r.id (fun r =>
    { r with vpass := r.vpass + 65536 / powerOf s r })
  if l.status = 0 then
    let s2 := modRegion (setStatus s1 r.id l.id 1) r.id (fun r => { r with lstart := r.lstart + 1 })
    ringWrite s2 r.space (r.addr.toNat + 288) (bytesOf 8 (r.lstart + 1))
  else keepCopy s1 r.id

/-! ## Pre-emption requests (R344, R345, R349, R351) -/

/-- The 4 KB units of a save area that images occupy or are being written to. -/
def areaUsed (s : State) (r : Region) : List (Nat × Nat) :=
  let mine (region : Nat) : Bool := rootOf s region == rootOf s r.id
  let held := s.images.filterMap (fun i => match i.place with | .area b => if mine i.wg.region then some (b.toNat, i.bytes) else none | _ => none)
  let writing := s.wgs.filterMap (fun w => match w.preempt.bind (fun p => p.image) with
    | some (.area b, _) => if mine w.region then some (b.toNat, imageBytes w) else none
    | _ => none)
  held ++ writing

/-- The lowest free run of 4 KB units in a region's save area. -/
def areaRun (s : State) (r : Region) (bytes : Nat) : Option Nat :=
  let (base, size) := saveAreaOf s r
  let n := ceilDiv bytes 4096
  let used := areaUsed s r
  if base = 0 ∨ size < 4096 * n then none
  else ((List.range (size / 4096 - n + 1)).map (fun k => base + 4096 * k)).find? (fun a =>
    used.all (fun u => !(a < u.1 + 4096 * ceilDiv u.2 4096 && u.1 < a + 4096 * n)))

/-- Where the image of a workgroup can be placed: its tower's canopy, where its demoted groups' state lies already (R300), else its region's save area. -/
def imagePlace (s : State) (w : Workgroup) : Option ImagePlace :=
  let t := w.column / 48
  let b := imageBytes w
  match regionFind s w.region with
  | none => none
  | some r =>
    if canopyUsed s t - w.inCanopy + b ≤ 2 ^ 31 && (pathToRoot 9 s r.id).all (fun q => canopyCharge s q.id - w.inCanopy + b ≤ canbOf s q) then some (.canopy t)
    else (areaRun s r b).map (fun a => .area (BitVec.ofNat 64 a))

/-- The images of some workgroups can be placed, one beside another. -/
def imagesFit (s : State) (ws : List Workgroup) : Bool :=
  (ws.foldl (fun (r : Option State) w => r.bind (fun s => (imagePlace s w).map (fun at_ => modWg s w.id (fun w => { w with
    preempt := some { kind := .save, deadline := 0, forRegion := none, reverted := none, publish := none, image := some (at_, 0), rerun := true } })))) (some s)).isSome

/-- RUN of a workgroup, in ticks. -/
def runTicks (s : State) (w : Workgroup) : Nat := w.runBase + (timeOf s - w.placed)

/-- The kind of pre-emption of a workgroup, or of a mirror set taken as one (R345). -/
def preemptKind (s : State) (bound : Nat) (ws : List Workgroup) : PreKind :=
  let avg := (ws.head?.bind (fun w => launchFind s w.region w.launch)).bind (fun l => l.avg)
  let early (w : Workgroup) : Bool := w.fields.restart && (match avg with | none => true | some a => 2 * runTicks s w < a)
  if ws.all early then .flush
  else
    let soon := match avg with
      | none => false
      | some a => ws.all (fun w => a - runTicks s w ≤ bound)
    if soon then .drain else if imagesFit s ws then .save else .drain

/-- The resident members of a workgroup's mirror set, or the workgroup alone. -/
def setMembers (s : State) (w : Workgroup) : List Workgroup :=
  if w.fields.mset < 2 then [w]
  else s.wgs.filter (fun v => v.region == w.region && v.launch == w.launch && v.index / v.fields.mset == w.index / w.fields.mset)

/-- Begin the chosen pre-emption of a workgroup: a capture in progress is abandoned (R351), and a flush or a save holds the workgroup, unless a move or a
restore has to end first. -/
def beginPreempt (s : State) (wg deadline : Nat) (kind : PreKind) (forRegion : Option Nat) : State :=
  let p : Preempt := { kind := kind, deadline := deadline, forRegion := forRegion, reverted := none, publish := none, image := none, rerun := true }
  modWg (releaseCapture s wg) wg (fun w =>
    let w1 := { w with preempt := some p }
    { w1 with hold := if w.hold = .move ∨ w.hold = .restore then w.hold else w1.nextHold })

/-- A request of pre-emption with a bound: the first choice stands, the earlier deadline counts (R351). -/
def requestPreempt (s : State) (wg bound : Nat) (forRegion : Option Nat) : State :=
  match wgFind s wg with
  | none => s
  | some w =>
    let due := timeOf s + bound
    match w.preempt with
    | some _ => (setMembers s w).foldl (fun s v => modWg s v.id (fun v => { v with preempt := v.preempt.map (fun p => { p with deadline := min p.deadline due }) })) s
    | none =>
      let ws := (setMembers s w).filter (fun v => !v.stopped && v.preempt.isNone)
      if w.stopped then s
      else
        let kind := preemptKind s bound ws
        ws.foldl (fun s v => beginPreempt s v.id due kind forRegion) s

/-- V(c): the workgroups of a column below a priority, lowest priority first, then latest placement first. -/
def victimsOn (s : State) (column e : Nat) : List Workgroup :=
  let prio (w : Workgroup) : Nat := ((regionFind s w.region).map (prioOf s)).getD 0
  sortBy (fun a b =>
    prio a < prio b || (prio a == prio b && (b.placed < a.placed || (a.placed == b.placed && b.id ≤ a.id)))) (s.wgs.filter (fun w => w.column == column && prio w < e))

/-- The shortest leading run of the victims of a column without which a member fits there, with the state it leaves. -/
def leadFor (s : State) (r : Region) (l : Launch) (m : Member) (e column : Nat) (real : List Nat) : Option (List Nat × State) :=
  match afterReserves s column l.region l.id with
  | none => none
  | some base =>
    let vs := ((victimsOn base column e).filter (fun w => real.contains w.id)).map (fun w => w.id)
    (List.range (vs.length + 1)).findSome? (fun k =>
      let s1 := without base (vs.take k)
      match columnFor s1 r l.fields (memberSpace s1 l.fields m) column with
      | none => none
      | some (core, s2, waits) => some (vs.take k, placeMember s2 r l m column core waits))

/-- The column with the least k(c) for each member in turn: its number and its victims, and the state they leave. -/
def victimPlan (r : Region) (l : Launch) (e : Nat) (order real : List Nat) (tower : Option Nat) :
    List Member → State → Option (List (Nat × List Nat) × State)
  | [], s => some ([], s)
  | m :: rest, s =>
    let found := (columnsFor s l m order tower).filterMap (fun c => (leadFor s r l m e c real).map (fun p => (c, p)))
    match leastBy (fun f => [f.2.1.length]) found with
    | none => none
    | some (c, vs, s1) => (victimPlan r l e order real tower rest s1).map (fun more => ((c, vs) :: more.1, more.2))

/-- The columns and victims for the members of a launch, mirror set by mirror set; a set that fails where its first member is best takes the
first tower that does. -/
def planVictims (s : State) (r : Region) (l : Launch) (ms : List Member) (e : Nat) : Option (List (Nat × List Nat)) :=
  let order := columnOrder s
  let real := s.wgs.map (fun w => w.id)
  let sets := if l.fields.mset < 2 then [ms] else setsOf s l ms
  let one (set : List Member) (s : State) : Option (List (Nat × List Nat) × State) :=
    match victimPlan r l e order real none set s with
    | some p => some p
    | none => if l.fields.mset < 2 then none else (order.map (· / 48)).eraseDups.findSome? (fun t => victimPlan r l e order real (some t) set s)
  (sets.foldl (fun (a : Option (List (Nat × List Nat) × State)) set =>
    a.bind (fun q => (one set q.2).map (fun p => (q.1 ++ p.1, p.2)))) (some ([], s))).map (·.1)

/-- Whether the capacity held for a launch is still being freed. -/
def freeing (s : State) (region launch : Nat) : Bool :=
  s.reserves.any (fun e => e.region == region && e.launch == launch && s.wgs.any (fun w => w.column == e.column && (w.preempt.isSome || w.stopped)))

/-- R344: request the pre-emptions for a launch that fits no column, and hold the capacity; none where nothing is to be asked. -/
def preemptFor (s : State) (r : Region) (l : Launch) (ms : List Member) : Option State :=
  if freeing s r.id l.id then none
  else
    let s0 := { s with reserves := s.reserves.filter (fun e => !(e.region == r.id && e.launch == l.id)) }
    match planVictims s0 r l ms (urgency s r l) with
    | none => none
    | some plan =>
      let victims := plan.flatMap (·.2)
      if victims.isEmpty then none
      else
        let cols := (plan.map (·.1)).eraseDups
        let held := cols.map (fun c => ({ column := c, region := r.id, launch := l.id, count := (plan.filter (fun p => p.1 == c)).length } : Reserve))
        some (victims.foldl (fun s v => requestPreempt s v (pboundOf s r) (some r.id)) { s0 with reserves := s0.reserves ++ held })

/-- The candidates of one priority in their order: the first that can be placed is; for each before it pre-emption is asked (R336). -/
def placeFirst (s : State) : List (Region × Launch × List Member) → Option State
  | [] => none
  | (r, l, ms) :: rest =>
    match placeMembers s r l ms with
    | some s1 => some (notePlaced s1 r l)
    | none =>
      match preemptFor s r l ms with
      | none => placeFirst s rest
      | some s1 => some ((placeFirst s1 rest).getD s1)

/-- Capacity stays held only for a launch that still has something to place. -/
def pruneReserves (s : State) : State :=
  { s with reserves := s.reserves.filter (fun e => match regionFind s e.region, launchFind s e.region e.launch with
      | some r, some l => !r.still && !l.placed s
      | _, _ => false) }

/-- R336: one step of the ringmaster. Nothing is placed until every crossing is calibrated (R416). -/
def execPlacementStep (s : State) : Result :=
  event "PLACEMENT_STEP" (
    if !s.booted || s.inReset || !s.xlat.all (·.1) then none
    else
      let s1 := pruneReserves (noteCandidates s)
      let cs := candidates s1
      let top := cs.foldl (fun m c => max m (urgency s1 c.1 c.2.1)) 0
      let turn := sortBy (fun a b => keyBefore [a.1.vpass, a.1.addr.toNat] [b.1.vpass, b.1.addr.toNat]) (cs.filter (fun c => urgency s1 c.1 c.2.1 == top))
      match placeFirst s1 turn with
      | some s2 => some { pruneReserves s2 with draw := s2.draw + 1 }
      | none => if s1.regions = s.regions ∧ s1.reserves = s.reserves then none else some s1)

/-! ## Completion of a workgroup (R335, R342, R364) -/

/-- What a slot held is gone: the workgroup, its accesses, copies and commands, what is noted of its scratchpad, its place in the guard queue, the bank it
may hold, and the pins of a space that leaves the column. What its halted groups hold undelivered is posted first (R190); a fetch by a later
workgroup finds no word older than its placement (R89). -/
def removeWg (start : State) (w : Workgroup) : State :=
  let s := (List.range w.groups.length).foldl (fun s g => postHeld s { wg := w.id, grp := g }) { start with flights := start.flights.filter (fun f => f.x.wg != w.id) }
  let wgs := s.wgs.filter (fun v => v.id != w.id)
  let s1 := { s with wgs := wgs, former := if wgs.isEmpty then [] else s.former, past := s.past.filter (fun e => e.home != some w.id),
                     copies := s.copies.filter (fun k => k.g.wg != w.id), commands := s.commands.filter (fun m => m.g.wg != w.id) }
  let s2 := modCore s1 w.core (fun k =>
    let q := unfused k (fun x => x.wg == w.id)
    { q with guard := q.guard.filter (fun x => x.wg != w.id), waiters := q.waiters.filter (fun x => x.wg != w.id),
             special := q.special.filter (fun id => s1.flights.any (fun f => f.id == id)) })
  let s3 := if (coreOf s2 w.core).bank.any (fun x => x.wg == w.id) then releaseBank s2 w.core else s2
  let s4 := modColumn s3 w.column (fun k => { k with capture := if k.capture.any (fun c => c.wg == w.id) then none else k.capture })
  let space := ((regionFind s w.region).map (fun r => r.space)).getD 0
  let stays := s4.wgs.any (fun v => v.column == w.column && ((regionFind s4 v.region).map (fun r => r.space)) == some space)
  if stays then s4
  else { s4 with lines := s4.lines.map (fun c => if c.agent = .col w.column ∧ (c.pin.map (·.1)) = some space then { c with pin := none } else c) }

/-- The completed workgroup's registers that a chain's successor inherits, where its record is appended and names them (R342). -/
def keepChain (s : State) (w : Workgroup) : State :=
  match regionFind s w.region with
  | none => s
  | some r =>
    let j := w.launch + 1
    if ((listCount s r).getD 0) ≤ j then s
    else match ringRead s r.space (r.recordAddr j) 128 with
      | some (s1, b, false) =>
        let f := LaunchRec.ofBytes b
        if f.chain && f.inhHi != 0 && f.groups == w.fields.groups && f.inhHi < w.fields.vcnt && w.index < f.nwg then
          let regs := ((List.range w.groups.length).zip w.groups).flatMap (fun g =>
            (g.2.vregs.filter (fun e => f.inhLo ≤ e.1 && e.1 ≤ f.inhHi)).map (fun e => (g.1, e.1, e.2)))
          modColumn s1 w.column (fun k => { k with kept := k.kept ++ [{ region := w.region, launch := j, index := w.index, regs := regs }] })
        else s1
      | _ => s

/-- Set a workgroup's bit in the launch's bitmap. -/
def setBitmap (s : State) (r : Region) (l : Launch) (index : Nat) : State :=
  let a := l.fields.bitmap.toNat + index / 8
  if l.fields.bitmap = 0 then s
  else match ringRead s r.space a 1 with
    | none => s
    | some (s1, b, _) => ringWrite s1 r.space a [(b.getD 0 0) ||| BitVec.ofNat 8 (2 ^ (index % 8))]

/-- AVG after one more run. -/
def nextAvg (avg : Option Nat) (run : Nat) : Nat :=
  match avg with
  | none => run
  | some a => if a ≤ run then a + (run - a) / 8 else a - (a - run) / 8

/-- A workgroup is complete: its last group has ended and its path counters are zero. -/
def Workgroup.complete (w : Workgroup) : Bool := !w.stopped && w.lost.isNone && w.groups.all (fun g => g.ended && g.paths.all (· == 0))

/-- Lines of HALO that a column's store holds dirty. -/
def haloDirty (s : State) (col : Nat) : Bool := s.lines.any (fun c => c.agent == .col col && c.dirty != 0 && slotOf s (lineBase c.line) == 5)

/-- A complete workgroup leaves its slot: its bit in the bitmap, what its chain keeps, its run in AVG; with the last, its launch is done (R335). -/
def endWorkgroup (s : State) (r : Region) (l : Launch) (w : Workgroup) (last : Bool) : State :=
  let s1 := removeWg (keepChain (setBitmap s r l w.index) w) w
  let s2 := modLaunch s1 r.id l.id (fun l => { l with
    finished := l.finished ++ [w.index], ran := l.ran ++ [w.ran], avg := some (nextAvg l.avg (runTicks s w)) })
  if last then finishLaunch (setStatus s2 r.id l.id 2) r.id l.id else keepCopy s2 r.id

/-- R335: a workgroup completes, and with the last its launch. Its column is presented REL (R378), and before the launch's completion add every replica of
HALO has merged what the columns of the launch pushed (R387). -/
def execWorkgroupCompletion (wg : Nat) (s : State) : Result :=
  event "WORKGROUP_COMPLETION" (
    match wgFind s wg with
    | none => none
    | some w =>
      match regionFind s w.region, launchFind s w.region w.launch with
      | some r, some l =>
        let last := l.finished.length + 1 == l.fields.nwg && !l.over
        if !w.complete || w.hold == .move then none
        else (presentRel s w.column).bind (fun s1 =>
          if last && haloDirty s w.column then some s1
          else if last && (w.column :: l.ran.map (fun k => k.column)).any (haloPushes s1) then none
          else some (endWorkgroup s1 r l w last))
      | _, _ => some (removeWg s w))

/-! ## Fault records (R256, R433) -/

/-- The lowest index that is not yet answered. -/
def Region.lowest (r : Region) : Nat := (firstWith (fun k => !r.answered.any (fun e => e.1 == k)) (List.range (r.answered.length + 1))).getD 0

/-- Note at the split that a page-fault record is about, under which index it was posted. -/
def noteRecord (b : List Byte) (i : Nat) (w : Workgroup) : Workgroup :=
  let kind := numAt b 5 1
  if !(kind == 5 || kind == 6) || w.column != numAt b 0 1 || w.slot != numAt b 1 1 then w
  else { w with groups := modAt w.groups (numAt b 2 1) (fun g => { g with splits := g.splits.map (fun p =>
    match p.state with
    | .parked (.pageFault fetch va lane access none) since =>
      if va.toNat = numAt b 8 8 ∧ p.pc.toNat = numAt b 16 8 ∧ lane = numAt b 24 1 ∧ fetch = (kind == 6) then
        { p with state := .parked (.pageFault fetch va lane access (some i)) since }
      else p
    | _ => p) }) }

/-- A record of KIND 8 reports a halted group whose accesses the homes have not all answered: traps may still be found that come before it (R190, R460). -/
def answersWaited (s : State) (r : Region) (b : List Byte) : Bool :=
  numAt b 5 1 == 8 && s.wgs.any (fun w => w.region == r.id && ((List.range w.groups.length).zip w.groups).any (fun g =>
    g.2.halted && numAt b 0 4 == placeHandle w g.1 && s.flights.any (fun f => f.x.wg == w.id && f.x.grp == g.1 && !f.answered)))

/-- R433: the first record of a region that has room in its queue is posted. -/
def execFaultRecordPost (s : State) : Result :=
  event "FAULT_RECORD_POST" (
    s.regions.findSome? (fun r => match r.fqWaiting with
      | [] => none
      | b :: more =>
        match (if answersWaited s r b then none else ringCounter s r.space r.fqctr) with
        | none => none
        | some (s1, raw, _) =>
          let i := numOf raw
          if r.fqsize ≤ i - r.lowest then none
          else match ringAddr (ringWrite s1 r.space (r.fq + 32 * (i % r.fqsize)) b) r.space r.fqctr true with
            | none => none
            | some (s2, pa, _) =>
              (counterAdd (passTokens s2 pa) pa 1).map (fun e =>
                let s3 := modRegion e.1 r.id (fun r => { r with fqWaiting := more })
                let s4 := { s3 with wgs := s3.wgs.map (noteRecord b i), images := s3.images.map (fun m => { m with wg := noteRecord b i m.wg }) }
                if r.hevq ≠ 0 ∧ i ≤ r.lowest then
                  (hostEvent s4 r (bytesOf 8 (i + 1) ++ bytesOf 2 0xFFF0 ++ bytesOf 2 0xFFFF ++ bytesOf 4 (timeOf s4))).1
                else s4)))

end Sys2Proof.Machine
end

