-- ==== Sys2Proof/Machine/Preempt.lean ====
section
/-! DEFINITION. Region control blocks and commands, flushes, drains, saves and restores (R328, R329, R343, R346 to R352, R428). -/

namespace Sys2Proof.Machine

/-! ## Control blocks (R328, R329) -/

/-- A power of two from 1 to a bound of at most 2 to the 20th. -/
def powerUpTo (n bound : Nat) : Bool := (List.range 21).any (fun k => n == 2 ^ k) && n ≤ bound

/-- A canonical address that a block gives. -/
def blockAddr (b : List Byte) (off : Nat) : Bool := canonical (BitVec.ofNat 64 (numAt b off 8))

/-- A reserved bit is set, or a field that is the region's own lies outside its limits. -/
def blockInvalid (root : Bool) (b : List Byte) : Bool :=
  let own (bit : Nat) : Bool := root || numAt b 8 2 / 2 ^ bit % 2 == 1
  let aligned (off n : Nat) : Bool := numAt b off 8 % n == 0 && blockAddr b off
  numAt b 9 1 / 16 != 0 || numAt b 11 1 / 2 != 0 || numAt b 17 1 != 0 || numAt b 20 4 != 0 || numAt b 204 4 != 0 || numAt b 228 4 != 0 || numAt b 252 4 != 0 ||
  (own 0 && 47 < numAt b 10 1) || (own 1 && 192 < numAt b 14 2) || (own 5 && numAt b 16 1 == 0) ||
  (own 8 && (numAt b 48 8 == 0 || 2 ^ 40 < numAt b 48 8)) || (own 9 && !aligned 56 8) || (own 10 && (!aligned 264 4096 || numAt b 272 8 % 4096 != 0)) ||
  (own 11 && 1024 < numAt b 18 2) ||
  !aligned 0 512 || !aligned 192 128 || !powerUpTo (numAt b 200 4) (2 ^ 20) || !blockAddr b 208 || !aligned 216 32 || !powerUpTo (numAt b 224 4) 256 ||
  !blockAddr b 232 || !blockAddr b 240 || !powerUpTo (numAt b 248 4) (2 ^ 16) || !blockAddr b 256 || !blockAddr b 280

/-- A counter address of a block lies on a page that is there and is no CTR page (R328). -/
def counterMisplaced (s : State) (space : Nat) (b : List Byte) : Bool :=
  [208, 232, 256].any (fun off => match walk s space (BitVec.ofNat 64 (numAt b off 8)) with
    | some (_, .leaf e _ _) => !pteCtr e
    | _ => false)

/-- The ringmaster reads bytes 0 to 287 of a block, as a supervisor may, with whether they hold poison; none where they cannot be read. -/
def readBlock (s : State) (space addr : Nat) : Option (State × List Byte × Bool) :=
  let va := BitVec.ofNat 64 addr
  match walk s space va with
  | none => none
  | some (s1, w) =>
    match pageCheck { super := true, keys := loadedKeys s1 } .load va w, w with
    | none, .leaf _ _ _ => ringRead s1 space addr 288
    | _, _ => none

/-- Another active region of the space has the same fault queue. -/
def sharesQueue (s : State) (space id : Nat) (b : List Byte) : Bool := s.regions.any (fun q => q.id != id && q.space == space && q.fq == numAt b 240 8)

/-- SUPV under a parent whose own is clear. -/
def supvRefused (s : State) (parent : Option Nat) (b : List Byte) : Bool :=
  numAt b 11 1 % 2 == 1 && (match parent.bind (regionFind s) with
    | none => false
    | some p => !supvOf p)

/-- Bytes 0 to 287 take the place of what was read before. -/
def Region.reread (r : Region) (b : List Byte) : Region := { r with block := b ++ r.block.drop 288 }

/-! ## Commands (R343) -/

/-- The command record that a region carries out next: its index, its bytes, whether they are poisoned. -/
def nextCommand (s : State) (r : Region) : Option (State × Nat × List Byte × Bool) :=
  if r.command.isSome then none
  else match ringCounter s r.space r.cctr with
    | none => none
    | some (s1, raw, _) =>
      if numOf raw ≤ r.cdone then none
      else (ringRead s1 r.space (r.clist + 32 * (r.cdone % r.clsize)) 32).map (fun e => (e.1, r.cdone, e.2))

/-- The region that a command record names, where the record is not refused. -/
def commandTarget (s : State) (r : Region) (b : List Byte) (bad : Bool) : Option Region :=
  let code := numAt b 0 1
  if bad || code == 0 || 4 < code || numAt b 1 3 != 0 || (code != 1 && numAt b 8 8 != 0) then none
  else match regionAt s r.space (numAt b 16 8) with
    | none => none
    | some q => if isDescendant s r.id q.id then some q else none

/-- A command completes: STATUS, CDONE, and the add to its DONE (R459). -/
def endCommand (s : State) (r : Region) (i status done : Nat) : State :=
  let s1 := ringWrite s r.space (r.clist + 32 * (i % r.clsize) + 4) (bytesOf 4 status)
  let s2 := ringWrite (modRegion s1 r.id (fun r => { r with cdone := i + 1, command := none })) r.space (r.addr.toNat + 304) (bytesOf 8 (i + 1))
  let s3 := keepCopy s2 r.id
  if done = 0 then s3 else completionAdd s3 r false done i 10

/-- Change every region of a subtree. -/
def modSubtree (s : State) (top : Nat) (f : Region → Region) : State :=
  { s with regions := s.regions.map (fun q => if isDescendant s top q.id then f q else q) }

/-- Nothing of a subtree is resident. -/
def nothingResident (s : State) (top : Nat) : Bool := s.wgs.all (fun w => !isDescendant s top w.region)

/-- Every list of a subtree is complete. -/
def listsComplete (s : State) (top : Nat) : Bool := (subtree s top).all (fun q => listCount s q == some q.nextRecord && q.ldone == q.nextRecord)

/-- The regions of a subtree retire: their spans end, with their handles, images, kept values and reserves; a root gives up its space. -/
def retireSubtree (s : State) (top : Nat) : State :=
  let gone (id : Nat) : Bool := isDescendant s top id
  let roots := (s.regions.filter (fun q => gone q.id && q.parent.isNone)).map (fun q => q.space)
  { s with
    spaces := s.spaces.filter (fun e => !roots.contains e.1), images := s.images.filter (fun i => !gone i.wg.region), reserves := s.reserves.filter (fun e => !gone e.region),
    towers := s.towers.map (fun t => (t.1, { t.2 with handles := t.2.handles.map (fun h => if h.2.used ∧ gone h.2.region then (h.1, { h.2 with used := false }) else h) })),
    columns := s.columns.map (fun c => (c.1, { c.2 with kept := c.2.kept.filter (fun k => !gone k.region) })),
    links := s.links.map (fun l => (l.1, { l.2 with queues := l.2.queues.map (fun q => if q.2.bound ∧ gone q.2.region then (q.1, { q.2 with bound := false }) else q) })),
    regions := s.regions.filter (fun q => !gone q.id) }

/-- PREEMPT begins: the subtree is frozen and its workgroups are pre-empted. -/
def beginPreemptCommand (s : State) (top bound : Nat) : State :=
  (s.wgs.filter (fun w => isDescendant s top w.region)).foldl (fun s w => requestPreempt s w.id bound none) (modSubtree s top (fun q => { q with frozen := true }))

/-- RESUME: every block of the subtree is read again; none where one is refused, which leaves all as it was. A block that holds poison stops its
region (R428). -/
def rereadAll (s : State) : List Region → Option State
  | [] => some s
  | q :: rest =>
    match readBlock s q.space q.addr.toNat with
    | none => none
    | some (s1, _, true) => (rereadAll s1 rest).map (fun s2 => stopDomain s2 q.id)
    | some (s1, b, false) =>
      if blockInvalid q.parent.isNone b || counterMisplaced s1 q.space b || supvRefused s1 q.parent b || sharesQueue s1 q.space q.id b then none
      else rereadAll (modRegion s1 q.id (fun q => { q.reread b with frozen := false, faultStop := false })) rest

/-- RETIRE begins: later appends are refused. -/
def beginRetire (s : State) (top : Nat) : State := modSubtree s top (fun q => { q with retiring := true, listEnd := some ((appended s q).getD q.nextRecord) })

/-- STATUS 6 on every launch of a region that is not complete, read or not. -/
def killLaunches (s : State) (q : Region) : State :=
  let n := (listCount s q).getD q.nextRecord
  let unread := (List.range (n - q.nextRecord)).map (q.nextRecord + ·)
  let s1 := unread.foldl (fun s _ => match regionFind s q.id with
    | none => s
    | some r => admitRecord s r [] 6) s
  let left := (q.launches.filter (fun l => !l.over)).map (fun l => l.id)
  advanceLdone (left.foldl (fun s k => setStatus s q.id k 6) s1) q.id

/-- KILL begins: the subtree is frozen, flushed without rerunning, its images are dropped, its launches are killed; then it retires. -/
def beginKill (s : State) (top : Nat) : State :=
  let s1 := modSubtree s top (fun q => { q with frozen := true })
  let s2 := (s1.wgs.filter (fun w => isDescendant s top w.region && !w.stopped)).foldl (fun s w => requestFlush s w.id none false) s1
  let s3 := { s2 with images := s2.images.filter (fun i => !(isDescendant s top i.wg.region && i.restoring.isNone)) }
  beginRetire ((subtree s3 top).foldl killLaunches s3) top

/-- The codes of the commands. -/
def commandOf (code : Nat) (b : List Byte) : Bool := if code = 1 then !(2 ≤ numAt b 0 1 && numAt b 0 1 ≤ 4) else numAt b 0 1 == code

/-- A region takes up its next command, where it has the code; a refused one completes. -/
def takeCommand (code : Nat) (region : Nat) (s : State) (body : State → Region → List Byte → Region → Option State) : Option State :=
  match regionFind s region with
  | none => none
  | some r =>
    match nextCommand s r with
    | none => none
    | some (s1, i, b, bad) =>
      if !commandOf code b then none
      else match commandTarget s1 r b bad with
        | none => some (endCommand s1 r i 1 (if bad then 0 else numAt b 24 8))
        | some q =>
          match body s1 r b q with
          | some s2 => some s2
          | none => some (endCommand s1 r i 1 (numAt b 24 8))

/-- The command that a region is carrying out. -/
def heldCommand (s : State) (region code : Nat) : Option (Region × Command) :=
  (regionFind s region).bind (fun r => r.command.bind (fun c => if c.code = code then some (r, c) else none))

/-- Keep a command that goes on. -/
def holdCommand (s : State) (r : Region) (code : Nat) (b : List Byte) (q : Region) : State :=
  modRegion s r.id (fun r => { r with command := some { code := code, target := q.id, done := BitVec.ofNat 64 (numAt b 24 8), record := r.cdone } })

/-- R343: PREEMPT begins, or is done when nothing of its subtree remains resident. -/
def execPreempt (region : Nat) (s : State) : Result :=
  event "PREEMPT" (
    match heldCommand s region 1 with
    | some (r, c) => if nothingResident s c.target then some (endCommand s r c.record 0 c.done.toNat) else none
    | none => takeCommand 1 region s (fun s r b q => some (beginPreemptCommand (holdCommand s r 1 b q) q.id (numAt b 8 8))))

/-- R343: RESUME. -/
def execResume (region : Nat) (s : State) : Result :=
  event "RESUME" (takeCommand 2 region s (fun s r b q => (rereadAll s (subtree s q.id)).map (fun s1 => endCommand s1 r r.cdone 0 (numAt b 24 8))))

/-- A RETIRE or a KILL is done: the command completes, and the regions retire. -/
def endRetire (s : State) (r : Region) (c : Command) : Option State :=
  if nothingResident s c.target && listsComplete s c.target then some (retireSubtree (endCommand s r c.record 0 c.done.toNat) c.target) else none

/-- R343: RETIRE begins, or is done. -/
def execRetire (region : Nat) (s : State) : Result :=
  event "RETIRE" (
    match heldCommand s region 3 with
    | some (r, c) => endRetire s r c
    | none => takeCommand 3 region s (fun s r b q => some (beginRetire (holdCommand s r 3 b q) q.id)))

/-- R343: KILL begins, or is done. -/
def execKill (region : Nat) (s : State) : Result :=
  event "KILL" (
    match heldCommand s region 4 with
    | some (r, c) => endRetire s r c
    | none => takeCommand 4 region s (fun s r b q => some (beginKill (holdCommand s r 4 b q) q.id)))

/-! ## Held workgroups (R346, R348) -/

/-- Every split stands at its boundary and no trap is due. -/
def heldStill (s : State) (w : Workgroup) : Bool :=
  wgAtBoundary s w && (List.range w.groups.length).all (fun g => [0, 1, 2, 3].all (fun k => !trapDeliverable s { wg := w.id, grp := g, slot := k }))

/-- Every path counter is zero. -/
def pathsClear (w : Workgroup) : Bool := w.groups.all (fun g => g.paths.all (· == 0))

/-- The copies of a workgroup that are under way and not cancelled. -/
def openCopies (s : State) (wg : Nat) : List Copy := s.copies.filter (fun k => k.g.wg == wg && !k.settled && !k.cancel)

/-- Cancel the pending copies of a workgroup, as `fcancel` does (R211, R227). -/
def cancelCopies (s : State) (wg : Nat) : State := (openCopies s wg).foldl (fun s k => cancelFuture s k.g k.handle 0) s

/-- A workgroup is discarded; it returns to its launch where it is to rerun. -/
def discardWg (s : State) (w : Workgroup) (rerun : Bool) : State :=
  let s1 := removeWg s w
  let s2 := { s1 with images := s1.images.filter (fun i => i.wg.id != w.id) }
  if rerun then modLaunch s2 w.region w.launch (fun l => if l.over then l else { l with ran := l.ran ++ [w.ran], again := sortBy (fun a b => a ≤ b) (l.again ++ [w.index]) }) else s2

/-- R346: the copies of a held or stopped workgroup are cancelled, and once its path counters are zero it is discarded. -/
def execFlushDiscard (s : State) : Result :=
  event "FLUSH_DISCARD" (
    s.wgs.findSome? (fun w =>
      let held := w.hold == .flush && heldStill s w
      if !(held || w.stopped) || w.lost.isSome || w.hold == .move then none
      else if !(openCopies s w.id).isEmpty then some (cancelCopies s w.id)
      else if pathsClear w then some (discardWg s w (!w.stopped && (w.preempt.map (fun p => p.rerun)).getD false))
      else none))

/-! ## Drains that become saves (R345, R348) -/

/-- The first workgroup with a pre-emption that a test picks. -/
def preemptWhere (s : State) (p : Workgroup → Preempt → Bool) : Option (Workgroup × Preempt) :=
  s.wgs.findSome? (fun w => w.preempt.bind (fun q => if p w q && !w.stopped then some (w, q) else none))

/-- A drain becomes a save, from its first step. -/
def startSave (s : State) (wg : Nat) : State :=
  modWg (releaseCapture s wg) wg (fun w =>
    let w1 : Workgroup := { w with preempt := w.preempt.map (fun p => { p with kind := .save, reverted := none, publish := none, image := none }) }
    { w1 with hold := if w.hold = .move ∨ w.hold = .restore then w.hold else .save })

/-- The members of a workgroup's mirror set that drain, from their request on or since a save of theirs found no place (R341, R345). -/
def draining (s : State) (w : Workgroup) (again : Bool) : List Workgroup :=
  (setMembers s w).filter (fun v => !v.stopped && (v.preempt.map (fun p => p.kind == .drain && p.reverted.isSome == again)).getD false)

/-- R345: a drain that has not completed at its deadline becomes a save at that tick where its image, with those of its mirror set, can be placed. -/
def execDrainToSave (s : State) : Result :=
  event "DRAIN_TO_SAVE" (
    (preemptWhere s (fun w p => p.kind == .drain && p.reverted.isNone && p.deadline == timeOf s && imagesFit s (draining s w false))).map (fun e =>
      (draining s e.1 false).foldl (fun s v => startSave s v.id) s))

/-- R348: a save that had become a drain is a save again at the first later tick at which its image, with those of its mirror set, can be placed. -/
def execSaveRetry (s : State) : Result :=
  event "SAVE_RETRY" (
    (preemptWhere s (fun w p => p.kind == .drain && (match p.reverted with | some t => t < timeOf s | none => false) &&
        imagesFit s (draining s w true))).map (fun e => (draining s e.1 true).foldl (fun s v => startSave s v.id) s))

/-! ## Saves (R278, R348, R349) -/

def modPreempt (s : State) (wg : Nat) (f : Preempt → Preempt) : State := modWg s wg (fun w => { w with preempt := w.preempt.map f })

/-- What a save does for memory order, as a `fence.sys sc` and an `xfence.sys` of every path in every split: all that the workgroup wrote, or must have seen,
is performed at every scope and readable by every path, and its later reads see all that is (R278). -/
def saveFence (s : State) (w : Workgroup) : State :=
  let s1 := cleanWays (releaseAll s [w.ran]) (fun c => c.agent == .way (w.column / 48))
  modWg s1 w.id (fun w => { w with groups := w.groups.map (fun g => { g with splits := g.splits.map (fun p =>
    { p with floors := floorsAt (stampOf s), hist := [] }) }) })

/-- The writing of an image begins: reservations and hold latches are cleared (R31, R203). -/
def beginImage (start : State) (w : Workgroup) (at_ : ImagePlace) : State :=
  let s := saveFence start w
  let s1 := modPreempt s w.id (fun p => { p with image := some (at_, timeOf s + imageTicks (imageBytes w)) })
  let s2 := modWg s1 w.id (fun w => { w with groups := w.groups.map (fun g => { g with reserved := none, hold := [] }) })
  match at_, regionFind s w.region with
  | .canopy t, some r => markUse s2 (3000 + t) 2097152 (domainOf s r) (ceilDiv (imageBytes w) 1024)
  | _, _ => s2

/-- R348: once a held workgroup has nothing under way, what its column store holds dirty goes home (R278), and then its image is written; where none can
be placed the save becomes a drain. -/
def execSaveImageWriteStart (wg : Nat) (s : State) : Result :=
  event "SAVE_IMAGE_WRITE_START" (
    match wgFind s wg with
    | none => none
    | some w =>
      match w.preempt with
      | none => none
      | some p =>
        if p.kind != .save || w.hold != .save || p.image.isSome || w.stopped || !heldStill s w || !pathsClear w || s.copies.any (fun k => k.g.wg == wg && !k.settled) ||
           s.commands.any (fun m => m.g.wg == wg) then none
        else
          let left := (p.publish.getD (dirtyLines s w.column)).filter (dirtyLines s w.column).contains
          if !left.isEmpty then
            let s1 := modPreempt (pushDirty s w.column left) wg (fun p => { p with publish := some left })
            if p.publish = some left ∧ s1.lines = s.lines then none else some s1
          else if s.msgs.any (fun m => m.src == .col w.column && m.mask != 0) then none
          else (presentRel s w.column).bind (fun s1 =>
            if haloDirty s w.column then some s1
            else if haloPushes s1 w.column then none
            else match imagePlace s1 w with
              | some at_ => some (beginImage s1 w at_)
              | none => some (modWg s wg (fun w => { w with hold := .none, preempt := some { p with kind := .drain, reverted := some (timeOf s), publish := none } }))))

/-- The bytes of an image as a save area holds them: the header and the slot state, the scratchpad, and the rest, of which the manual gives the parts and no
encoding (R349). -/
def imageByte (i : SaveImage) (k : Nat) : Byte :=
  if 2304 ≤ k ∧ k < 2304 + i.wg.fields.spad then scratchByte i.wg (k - 2304) else Config.freeByte (1000000 + i.seed) k

/-- Write an image into its area, page by page; the poison marks of the scratchpad go with it (R428). -/
def writeImage (s : State) (r : Region) (i : SaveImage) (base : Nat) : State :=
  let s1 := (List.range (ceilDiv i.bytes 4096)).foldl (fun s p =>
    let n := min 4096 (i.bytes - 4096 * p)
    ringWrite s r.space (base + 4096 * p) ((List.range n).map (fun k => imageByte i (4096 * p + k)))) s
  i.wg.scratchPoison.foldl (fun s g => match ringAddr s r.space (base + 2304 + 32 * g) true with
    | some (s1, pa, _) => markPoison s1 [granuleOf pa]
    | none => s) s1

/-- R348: an image is complete: the slot is free and the workgroup is saved. -/
def execSaveImageComplete (s : State) : Result :=
  event "SAVE_IMAGE_COMPLETE" (
    (preemptWhere s (fun _ p => p.kind == .save && (match p.image with | some (_, t) => t ≤ timeOf s | none => false))).bind (fun e =>
      match e.2.image, regionFind s e.1.region with
      | some (at_, _), some r =>
        let w := e.1
        let asleep := { w with runBase := runTicks s w, hold := .none, preempt := none,
                               groups := w.groups.map (fun g => { g with residence := .core, eligible := false }) }
        let i : SaveImage := { id := s.nextId, wg := asleep, bytes := imageBytes w, place := at_, seed := s.nextId, saved := timeOf s, restoring := none, bad := false }
        let s1 := removeWg { s with nextId := s.nextId + 1 } w
        let s2 := { s1 with images := s1.images ++ [i], copies := s1.copies ++ s.copies.filter (fun k => k.g.wg == w.id) }
        some (match at_ with
          | .area base => writeImage s2 r i base.toNat
          | .canopy _ => s2)
      | _, _ => none))

/-! ## Restores (R350) -/

/-- The check value of an image fails: a byte in its save area is not what was written, or an error struck what the canopy held of it. -/
def imageSpoilt (s : State) (i : SaveImage) : Bool :=
  i.bad || i.wg.groups.any (fun g => g.canopyBad) || match i.place, regionFind s i.wg.region with
  | .area base, some r =>
    (List.range (ceilDiv i.bytes 4096)).any (fun p =>
      let n := min 4096 (i.bytes - 4096 * p)
      match ringRead s r.space (base.toNat + 4096 * p) n with
      | some (_, bs, _) => bs != (List.range n).map (fun k => imageByte i (4096 * p + k))
      | none => true)
  | _, _ => false

/-- R350: a restore ends; the image's storage is free. Where the check value fails the workgroup stops (R352). -/
def execResumeRestoreComplete (s : State) : Result :=
  event "RESUME_RESTORE_COMPLETE" (
    (firstWith (fun i => match i.restoring with | some t => t ≤ timeOf s | none => false) s.images).bind (fun i =>
      match wgFind s i.wg.id with
      | none => none
      | some w =>
        let s1 := { s with images := s.images.filter (fun j => j.id != i.id) }
        some (if imageSpoilt s i then faultStop s1 w.id 0 10 0
          else modWg s1 w.id (fun w => { w with
            hold := w.nextHold,
            groups := w.groups.map (fun g => { g with splits := g.splits.map (fun p =>
              { (if w.nextHold = .none then p.resumed.counted else p.counted) with resumeAt := 0 }) }) }))))

end Sys2Proof.Machine
end

