-- ==== Sys2Proof/Machine/HostPort.lean ====
section
/-! DEFINITION. The host port: accesses of the host, and the mailbox with its commands for regions, queues, windows and keys
(R280, R329, R354, R391, R393, R403 to R406). -/

namespace Sys2Proof.Machine

/-! ## Accesses from outside (R280, R388, R389, R391, R429, R452) -/

/-- An access of an agent outside may not begin: a page of it is under conversion (R392). -/
def stalledAny (s : State) (pa n : Nat) : Bool := stalledAt s pa || stalledAt s (pa + (n - 1))

/-- The protocol drops a write from outside: a WRITEONCE line already written, or a TOKEN range. -/
def outsideRefused (s : State) (pa n : Nat) : Bool :=
  ((List.range (lineOf (pa + n - 1) - lineOf pa + 1)).map (· + lineOf pa)).any (fun l => match entryFor s (lineBase l) with
    | some (_, e) => (e.slot == 4 && (dirAt s .home l).state == 1) || e.slot == 6
    | none => false)

/-- A write from outside, noted word by word for its readers: it is performed at system scope, and every path reads it there (R258, R280). -/
def noteOutside (s : State) (agent pa n : Nat) : State :=
  publishWrites { noteEngine s s.nextId (groupOf (outsideAgent agent)) outsidePath 0 none (oldWords pa (memRead s pa n)) with nextId := s.nextId + 1 } s.nextId 6

/-- The bytes of several lines, read under a key slot. -/
def keyedRun (s : State) (pa key : Nat) (bs : List Byte) : List Byte :=
  (List.range (lineOf (pa + bs.length - 1) + 1 - lineOf pa)).flatMap (fun k =>
    let lo := max pa (lineBase (lineOf pa + k))
    keyed s lo key (slice bs (lo - pa) (min (pa + bs.length) (lineBase (lineOf pa + k) + 128) - lo)))

/-- What an agent outside reads of bytes at their home: each aligned word old or new on its own, and never older than what it has read before
(R258, R263, R280). -/
def outsideBytes (s : State) (agent pa n : Nat) : State × List Byte :=
  let bs := memRead s pa n
  if s.past.isEmpty then (s, bs)
  else (words4 pa n).foldl (fun (a : State × List Byte) w =>
    let v := viewOf s (outsideReader s agent) none (pa + w.1) ((pa + w.1) / 4 % 4096) (slice bs w.1 w.2)
    ({ a.1 with past := a.1.past.map (fun e =>
        if v.2.any (fun k => k.id == e.id && k.part == e.part) then e.see (outsideAgent agent) (e.within (pa + w.1) w.2) else e) }, a.2 ++ v.1)) (s, [])

/-- A write from outside is performed: whole granules lose their poison, but for those that the data poisons. -/
def notedWrite (note : State → State) (s : State) (pa : Nat) (bs : List Byte) (key cls : Nat) (bad : List Nat) : Option State :=
  if bs.isEmpty then some s
  else if outsideRefused s pa bs.length then some (addConflict s pa)
  else (homeAccessN s pa bs.length true).map (fun s0 =>
    let s1 := (granulesOf pa bs.length).foldl (fun s g => writtenOnce s (32 * g)) (homeWrite (note s0) pa bs (some key))
    let covered := (granulesOf pa bs.length).filter (fun g => pa ≤ 32 * g && 32 * g + 32 ≤ pa + bs.length)
    logAccess (markPoison (clearPoison s1 (covered.filter (fun g => !bad.contains g))) bad) pa bs.length false true key cls)

/-- A write by the host or a peer, as one writer. -/
def outsideWrite (s : State) (agent pa : Nat) (bs : List Byte) (key cls : Nat) (bad : List Nat) : Option State :=
  notedWrite (fun s => noteOutside s agent pa bs.length) s pa bs key cls bad

/-- A read by the host or a peer: bytes and poisoned granules. -/
def outsideRead (s : State) (agent pa n key cls : Nat) : Option (State × List Byte × List Nat) :=
  (homeAccessN s pa n false).map (fun s0 =>
    let s1 := (outsideBytes s0 agent pa n).1
    (logAccess s1 pa n true false key cls, keyedRun s0 pa key (outsideBytes s0 agent pa n).2, (granulesOf pa n).filter (fun g => s1.poison.contains g)))

/-- A counter add by the host or a peer, a `ctadd` at .sys: false where the counter is poisoned. -/
def outsideAdd (s : State) (pa addend key cls : Nat) : Option (State × Bool) :=
  let s0 := passTokens s pa
  match homeAccess s0 (lineOf pa) true with
  | none => none
  | some s1 =>
    if poisonedAt s1 pa 8 then some (s1, false)
    else
      let old := keyed s1 pa key (memRead s1 pa 8)
      let s2 := homeWrite (settleGlobal s1 pa 8) pa (bytesOf 8 (counterSum (numOf old) addend).1) (some key)
      some (logAccess s2 pa 8 true true key cls, true)

/-! ## The host's accesses (R403) -/

def answer (s : State) (tag : Nat) (bytes : List Byte) (poison : Bool) : State :=
  { s with answers := s.answers ++ [{ tag := tag, bytes := bytes, poison := poison }] }

/-- The HBM address of a host physical address, where the decoder maps the whole access. -/
def hostPa (s : State) (hpa n : Nat) : Option Nat :=
  if s.hostBase ≤ hpa && hpa - s.hostBase + n ≤ 0x020000000000 && n != 0 then some (hpa - s.hostBase) else none

/-- The key slot of a host access; none where it holds no key, or the access touches a log area (R452). -/
def hostKey (s : State) (pa n : Nat) : Option Nat :=
  let k := Table.get s.hostKeys (pa / 2 ^ 30) 0
  if (Table.find s.keys k).isSome && !inLogArea s pa n then some k else none

/-- The host's cache is recorded as a sharer of a line that it may cache (R393). -/
def recordHost (s : State) (l : Nat) : State :=
  match entryFor s (lineBase l) with
  | some (_, e) =>
    let d := dirAt s .home l
    if e.hostc ∧ !d.sharers.contains .host then putDir s { d with state := 1, sharers := d.sharers ++ [.host] } else s
  | none => s

/-- R280, R403: a read by the host; `cached` where it asks for a copy to keep. -/
def execHostRead (tag hpa len : Nat) (cached : Bool) (s : State) : Result :=
  event "HOST_READ" (
    match hostPa s hpa len with
    | none => some s
    | some pa =>
      match hostKey s pa len with
      | none => some (answer s tag (List.replicate len 0) true)
      | some k =>
        if stalledAny s pa len then none
        else (outsideRead s 0 pa len k 3).map (fun e =>
          let s1 := if cached then recordHost e.1 (lineOf pa) else e.1
          { answer s1 tag e.2.1 (!e.2.2.isEmpty) with draw := s.draw + 1 }))

/-- R280, R403: a write by the host. -/
def execHostWrite (tag hpa : Nat) (bytes : List Byte) (s : State) : Result :=
  event "HOST_WRITE" (
    match hostPa s hpa bytes.length with
    | none => some s
    | some pa =>
      match hostKey s pa bytes.length with
      | none => some (answer s tag [] false)
      | some k => if stalledAny s pa bytes.length then none else (outsideWrite s 0 pa bytes k 3 []).map (fun s1 => answer s1 tag [] false))

/-- R280, R428: the host adds to a counter; one that is poisoned answers with an error and poison. -/
def execHostCounterAdd (tag hpa : Nat) (addend : DWord) (s : State) : Result :=
  event "HOST_COUNTER_ADD" (
    match hostPa s hpa 8 with
    | none => some s
    | some pa =>
      match hostKey s pa 8 with
      | none => some (answer s tag [] false)
      | some k =>
        if pa % 8 ≠ 0 then some (answer s tag [] true)
        else if stalledAny s pa 8 then none
        else (outsideAdd s pa addend.toNat k 3).map (fun e => answer e.1 tag [] (!e.2)))

/-! ## The mailbox (R404) -/

/-- The commands by OPC. -/
def knownCommand (opc : Nat) : Bool :=
  [0x0001, 0x0010, 0x0011, 0x0020, 0x0021, 0x0022, 0x0030, 0x0040, 0x0041, 0x0042, 0x0043, 0x0044, 0x0048, 0x0049, 0x0060, 0x0061].contains opc

/-- A command is done: STATUS is set, BUSY is clear, and vector 0 is signalled. -/
def endMailbox (s : State) (status : Nat) : State :=
  { s with mailbox := { s.mailbox with status := status, busy := false }, signals := s.signals ++ [0] }

/-- The command register as the host reads it. -/
def Mailbox.word (m : Mailbox) : Nat := m.status * 2 ^ 48 + (if m.busy then 2 ^ 32 else 0) + m.len * 2 ^ 16 + m.opc * 2

/-- The host writes the command register: LEN and OPC; with GO a command starts, with its payload as it stands, and while one runs such a write is
ignored. A code that is no command ends at once with status 1, and a package held in reset answers every command with status 3 (R454). -/
def writeCommand (s : State) (value : DWord) : State :=
  let m := s.mailbox
  let len := bitsAt value 16 16
  let opc := bitsAt value 1 15
  if bitsAt value 0 1 = 0 then { s with mailbox := { m with len := len, opc := opc } }
  else if m.busy then s
  else
    let s1 := { s with mailbox := { m with busy := true, len := len, opc := opc, runLen := len, runOpc := opc, runPayload := slice m.payload 0 len } }
    if s.inReset then endMailbox s1 3 else if knownCommand opc then s1 else endMailbox s1 1

/-- The host writes bytes of the payload, of 2048. -/
def writePayload (s : State) (off : Nat) (bytes : List Byte) : State :=
  let old := s.mailbox.payload
  { s with mailbox := { s.mailbox with payload := (List.range 2048).map (fun i => if off ≤ i ∧ i < off + bytes.length then bytes.getD (i - off) 0 else old.getD i 0) } }

/-- Run the mailbox's command: a payload of another length gives status 2; the body gives a state and a status, or waits. -/
def mailboxCommand (name : String) (opc len : Nat) (s : State) (body : State → List Byte → Option (State × Nat)) : Result :=
  event name (
    if !s.mailbox.busy || s.mailbox.runOpc != opc then none
    else if s.inReset then some (endMailbox s 3)
    else if s.mailbox.runLen ≠ len then some (endMailbox s 2)
    else (body s s.mailbox.runPayload).map (fun e => endMailbox e.1 e.2))

/-- Bytes that the table marks zero. -/
def zeros (b : List Byte) (k n : Nat) : Bool := numAt b k n == 0

/-! ## ACTIVATE (R329, R354, R405) -/

/-- A region that becomes active: its table of formats is the default one (R75). -/
def Region.new (id : Nat) (addr : DWord) (space : Nat) (parent : Option Nat) (depth : Nat) (block : List Byte) : Region :=
  { id := id, addr := addr, space := space, parent := parent, depth := depth, block := block, formats := defaultFormats, frozen := false, faultStop := false,
    retiring := false, listEnd := none, nextRecord := 0, launches := [], lstart := 0, ldone := 0, cdone := 0, vpass := 0, cand := false, answered := [],
    fqWaiting := [], command := none }

/-- Activate the block of a space whose table root stands. -/
def activateBlock (s : State) (space addr root : Nat) (held : Bool) : Option (State × Nat) :=
  match readBlock s space addr with
  | none => some (s, 3)
  | some (_, _, true) => some (s, 3)
  | some (s1, b, false) =>
    let up := numAt b 0 8
    if up ≠ 0 ∧ root ≠ 0 then some (s, 2)
    else
      let parent := if up = 0 then none else regionAt s1 space up
      let depth := match parent with | none => 1 | some p => p.depth + 1
      let refused := (regionAt s1 space addr).isSome || (up == 0 && held) || (up != 0 && parent.isNone) || 8 < depth || blockInvalid (up == 0) b || counterMisplaced s1 space b ||
        supvRefused s1 (parent.map (fun p => p.id)) b || sharesQueue s1 space s1.nextId b
      if refused then some (s, 3)
      else some ({ s1 with nextId := s1.nextId + 1,
                           regions := s1.regions ++ [.new s1.nextId (BitVec.ofNat 64 addr) space (parent.map (fun p => p.id)) depth b] }, 0)

/-- R329, R405: activate a region; a root makes its space. -/
def execActivate (s : State) : Result :=
  mailboxCommand "ACTIVATE" 1 24 s (fun s b =>
    let addr := numAt b 0 8
    let space := numAt b 8 2
    let root := numAt b 16 8
    if addr % 512 ≠ 0 ∨ !canonical (BitVec.ofNat 64 addr) ∨ space = 0 ∨ 4095 < space ∨ !zeros b 10 6 ∨ root % 4096 ≠ 0 ∨ !isBacked root then some (s, 2)
    else if (Table.find s.spaces space).isSome then activateBlock s space addr root true
    else
      match activateBlock { s with spaces := Table.put s.spaces space root } space addr 0 false with
      | some (s1, 0) => some (s1, 0)
      | some (_, k) =>
        let child := match readBlock { s with spaces := Table.put s.spaces space root } space addr with
          | some (_, b, false) => numAt b 0 8 != 0
          | _ => false
        some (s, if child && root != 0 then 2 else k)
      | none => none)

/-! ## FAULT_ANSWER (R256, R362, R405, R433) -/

/-- A split whose page-fault record is answered executes its instruction again; after a refusal that instruction traps. -/
def answerSplit (s : State) (i : Nat) (refuse : Bool) (p : Split) : Split :=
  match p.state with
  | .parked (.pageFault _ va lane _ (some j)) _ =>
    if i = j then { p with state := .running, boundary := resultsWritten s p, refused := if refuse then some (va, lane) else none } else p
  | _ => p

/-- The answer reaches every split of the region's workgroups that waits for it, and of its images. -/
def answerAll (s : State) (region i : Nat) (refuse : Bool) : State :=
  let f (w : Workgroup) : Workgroup :=
    if w.region = region then { w with groups := w.groups.map (fun g => { g with splits := g.splits.map (answerSplit s i refuse) }) } else w
  { s with wgs := s.wgs.map f, images := s.images.map (fun m => { m with wg := f m.wg }) }

/-- R405: the driver answers a fault record. -/
def execFaultAnswer (s : State) : Result :=
  mailboxCommand "FAULT_ANSWER" 0x10 24 s (fun s b =>
    let space := numAt b 18 2
    let i := numAt b 8 8
    if 1 < numAt b 16 1 ∨ !zeros b 17 1 ∨ space = 0 ∨ 4095 < space ∨ !zeros b 20 4 then some (s, 2)
    else match firstWith (fun r => r.space == space && r.fq == numAt b 0 8) s.regions with
      | none => some (s, 3)
      | some r =>
        match ringCounter s space r.fqctr with
        | none => some (s, 3)
        | some (s1, raw, _) =>
          if numOf raw ≤ i ∨ r.answered.any (fun e => e.1 == i) then some (s, 3)
          else
            let refuse := numAt b 16 1 == 1
            some (answerAll (modRegion s1 r.id (fun r => { r with answered := r.answered ++ [(i, refuse)] })) r.id i refuse, 0))

/-! ## Queues, windows, keys (R400, R401, R403, R405, R406) -/

/-- R405, R406: set the migration queue. -/
def execMigqSet (s : State) : Result :=
  mailboxCommand "MIGQ_SET" 0x11 24 s (fun s b =>
    let base := numAt b 0 8
    let n := numAt b 8 4
    let ctr := numAt b 16 8
    if base % 4096 ≠ 0 ∨ !isBacked base ∨ !powerUpTo n 65536 ∨ n < 16 ∨ !zeros b 14 2 ∨ ctr % 8 ≠ 0 ∨ !isBacked ctr then some (s, 2)
    else some ({ s with migq := some { base := base, entries := n, vector := numAt b 12 2, counter := ctr } }, 0))

/-- A link queue that is bound to nothing. -/
def LinkQueue.free : LinkQueue := { bound := false, region := 0, ring := 0, size := 0, doorbell := 0, next := 0, active := [], halted := false }

def linkOf (s : State) (k : Nat) : Link := Table.get s.links k .reset
def modLink (s : State) (k : Nat) (f : Link → Link) : State := { s with links := Table.modify s.links k .reset f }
def queueOf (s : State) (link q : Nat) : LinkQueue := Table.get (linkOf s link).queues q .free
def modQueue (s : State) (link q : Nat) (f : LinkQueue → LinkQueue) : State :=
  modLink s link (fun k => { k with queues := Table.modify k.queues q .free f })

/-- The address lies on a CTR page of a space. -/
def onCtrPage (s : State) (space va : Nat) : Bool :=
  match walk s space (BitVec.ofNat 64 va) with
  | some (_, .leaf e _ _) => pteCtr e
  | _ => false

/-- R401, R405: bind a link queue to a region, a ring and a doorbell. -/
def execLinkqBind (s : State) : Result :=
  mailboxCommand "LINKQ_BIND" 0x20 32 s (fun s b =>
    let link := numAt b 0 1
    let q := numAt b 1 1
    let ring := BitVec.ofNat 64 (numAt b 16 8)
    let bell := BitVec.ofNat 64 (numAt b 24 8)
    if 15 < link ∨ 7 < q ∨ 16 < numAt b 2 1 ∨ !zeros b 3 5 ∨ ring.toNat % 64 ≠ 0 ∨ !canonical ring ∨ bell.toNat % 8 ≠ 0 ∨ !canonical bell then some (s, 2)
    else match firstWith (fun r => r.addr.toNat == numAt b 8 8) s.regions with
      | none => some (s, 2)
      | some r =>
        if !onCtrPage s r.space bell.toNat then some (s, 2)
        else if !(queueOf s link q).active.isEmpty then some (s, 3)
        else some (modQueue s link q (fun _ =>
          { bound := true, region := r.id, ring := ring, size := 2 ^ numAt b 2 1, doorbell := bell, next := 0, active := [], halted := false }), 0))

/-- R402, R405: a halted queue goes on with the descriptor after the failed one. -/
def execLinkqResume (s : State) : Result :=
  mailboxCommand "LINKQ_RESUME" 0x21 8 s (fun s b =>
    if 15 < numAt b 0 1 ∨ 7 < numAt b 1 1 ∨ !zeros b 2 6 then some (s, 2)
    else some (modQueue s (numAt b 0 1) (numAt b 1 1) (fun q => { q with halted := false }), 0))

/-- R400, R405: write an inbound window. -/
def execInwinSet (s : State) : Result :=
  mailboxCommand "INWIN_SET" 0x22 24 s (fun s b =>
    let fl := numAt b 1 1
    let base := numAt b 8 8
    let limit := numAt b 16 8
    if 31 < numAt b 0 1 ∨ fl / 8 % 16 ≠ 0 ∨ 0xFFF < numAt b 2 2 ∨ 1023 < numAt b 4 2 ∨ !zeros b 6 2 ∨ base % 4096 ≠ 0 ∨ !isHbm base ∨ limit % 4096 ≠ 0 ∨
       !isHbm limit ∨ limit < base then some (s, 2)
    else
      let w : InWindow := { enabled := fl / 128 == 1, read := fl % 2 == 1, write := fl / 2 % 2 == 1, counter := fl / 4 % 2 == 1, source := numAt b 2 2,
                            key := numAt b 4 2, base := base, limit := limit }
      some ({ s with windows := Table.put s.windows (numAt b 0 1) w }, 0))

/-- R403, R405: set the key slot of a run of gigabytes. -/
def execHostkeySet (s : State) : Result :=
  mailboxCommand "HOSTKEY_SET" 0x30 16 s (fun s b =>
    let first := numAt b 0 4
    let n := numAt b 4 4
    let k := numAt b 8 2
    if 2047 < first ∨ n = 0 ∨ 2048 - first < n ∨ 1023 < k ∨ !zeros b 10 6 then some (s, 2)
    else some ({ s with hostKeys := (List.range n).foldl (fun t i => Table.put t (first + i) k) s.hostKeys }, 0))

end Sys2Proof.Machine
end

