-- ==== Sys2Proof/Machine/Linko.lean ====
section
/-! DEFINITION. Linko links: flits, transactions, credits, inbound windows, link queues, replay, lost entries and retraining
(R398 to R402, R435 to R441). -/

namespace Sys2Proof.Machine

/-! ## Flits (R398, R437) -/

/-- CRC-64 over bytes, the highest bit of each first. -/
def crcByte (crc : BitVec 64) (b : Byte) : BitVec 64 :=
  (List.range 8).foldl (fun c _ => if c.getLsbD 63 then (c <<< 1) ^^^ 0x42F0E1EBA9EA3693 else c <<< 1) (crc ^^^ (b.zeroExtend 64 <<< 56))
def crc64 (bs : List Byte) : BitVec 64 := bs.foldl crcByte (BitVec.allOnes 64)

/-- The CRC of a flit is good. -/
def flitGood (flit : List Byte) : Bool := flit.length == 256 && numAt flit 248 8 == (crc64 (flit.take 248)).toNat

/-- A flit of its first 248 bytes. -/
def sealFlit (body : List Byte) : List Byte := slice body 0 248 ++ bytesOf 8 (crc64 (slice body 0 248)).toNat

/-- The highest SEQ received in order. -/
def Link.acked (k : Link) : Nat := (k.rxSeq + 255) % 256

/-- Bytes 0 to 7 of a flit: the credits that it returns are spent by `spend`. -/
def flitHead (k : Link) (kind seq : Nat) : List Byte :=
  bytesOf 1 kind ++ bytesOf 1 seq ++ bytesOf 1 k.acked ++ bytesOf 1 (min 15 k.returnReq + 16 * min 15 k.returnResp) ++ bytesOf 4 0

/-- A flit goes on the wire; it carries the credits that are due. -/
def putWire (s : State) (link : Nat) (flit : List Byte) : State :=
  modLink s link (fun k => { k with returnReq := k.returnReq - min 15 k.returnReq, returnResp := k.returnResp - min 15 k.returnResp, sent := k.sent ++ [flit] })

/-- Neither retraining nor down. -/
def Link.up (k : Link) : Bool := k.retrain.isNone && !k.down

/-- Send a control flit. -/
def sendControl (s : State) (link ctype cseq : Nat) : State :=
  let k := linkOf s link
  if k.up then putWire s link (sealFlit (flitHead k 1 0 ++ bytesOf 1 ctype ++ bytesOf 1 cseq)) else s

/-- Send the flit of a window entry as it now stands: the same slots, with the ACK and the credits of the moment. -/
def sendEntry (s : State) (link : Nat) (e : WindowEntry) : State :=
  let k := linkOf s link
  if k.up && !e.lost then putWire s link (sealFlit (flitHead k 0 e.seq ++ slice e.flit 8 240)) else s

/-! ## Transactions (R399) -/

/-- Data slots of a type and length. -/
def dataSlots (type len : Nat) : Nat := if type = 2 ∨ type = 8 then ceilDiv len 16 else if type = 3 then 1 else 0

/-- A transaction: its header, then its data, filled to whole slots. -/
def transaction (type tag src len addr pmask cause : Nat) (data : List Byte) : List Byte :=
  let d := dataSlots type len
  bytesOf 1 type ++ bytesOf 1 d ++ bytesOf 2 tag ++ bytesOf 2 src ++ bytesOf 2 len ++ bytesOf 6 addr ++ bytesOf 1 pmask ++ bytesOf 1 cause ++ slice data 0 (16 * d)

/-- The transactions in the slots of a flit; none where a header is not one of R399. -/
def splitSlots : Nat → List Byte → Option (List (List Byte))
  | 0, _ => some []
  | n + 1, slots =>
    if slots.length < 16 then some []
    else
      let type := numAt slots 0 1
      let d := numAt slots 1 1
      if type = 0 then some []
      else if !([1, 2, 3, 8, 9, 10, 11, 12] : List Nat).contains type || d != dataSlots type (numAt slots 6 2) || slots.length < 16 * (d + 1) then none
      else (splitSlots n (slots.drop (16 * (d + 1)))).map (fun rest => slots.take (16 * (d + 1)) :: rest)

/-- Responses use response slots. -/
def isResponse (t : List Byte) : Bool := 8 ≤ numAt t 0 1

/-- A transaction can be placed in a flit: the link is up, the window has room, and there is a credit for each slot. -/
def canPlace (k : Link) (t : List Byte) : Bool :=
  k.up && k.window.length < 128 && t.length / 16 ≤ (if isResponse t then k.creditResp else k.creditReq)

/-- Place a transaction in a flit of its own, and send it. -/
def placeTxn (s : State) (link : Nat) (t : List Byte) : State :=
  let k := linkOf s link
  let e : WindowEntry := { seq := k.txSeq, flit := bytesOf 8 0 ++ t, lost := false, firstSlotlost := none, lastSlotlost := 0 }
  let n := t.length / 16
  let s1 := modLink s link (fun k => { k with
    window := k.window ++ [e], txSeq := (k.txSeq + 1) % 256,
    creditReq := if isResponse t then k.creditReq else k.creditReq - n, creditResp := if isResponse t then k.creditResp - n else k.creditResp })
  sendEntry s1 link e

/-- Send the responses that wait, as far as credits and the window go. -/
def pump : Nat → State → Nat → State
  | 0, s, _ => s
  | n + 1, s, link =>
    match (linkOf s link).outbox with
    | [] => s
    | t :: rest => if canPlace (linkOf s link) t then pump n (placeTxn (modLink s link (fun k => { k with outbox := rest })) link t) link else s

/-- Idle control flits carry the credits that no other flit has. -/
def returnCredits : Nat → State → Nat → State
  | 0, s, _ => s
  | n + 1, s, link =>
    let k := linkOf s link
    if (k.returnReq = 0 ∧ k.returnResp = 0) ∨ !k.up then s else returnCredits n (sendControl s link 0 0) link

/-- After something arrived: responses go out, then the credits that are left. -/
def respond (s : State) (link : Nat) : State := returnCredits 512 (pump ((linkOf s link).outbox.length + 1) s link) link

/-- Put a response in the queue of a link. -/
def queueResponse (s : State) (link : Nat) (t : List Byte) : State := modLink s link (fun k => { k with outbox := k.outbox ++ [t] })

/-! ## Inbound requests (R280, R400, R428, R452) -/

/-- The inbound window of a request, or the CAUSE of its refusal. -/
def windowFor (s : State) (type src addr len : Nat) : Except Nat InWindow :=
  let hit (w : InWindow) : Bool := w.enabled && (w.source == 0xFFF || w.source == src) && w.base ≤ addr && addr + len ≤ w.limit + 4096
  let fault (w : InWindow) : Nat :=
    if type = 3 then (if !w.counter then 2 else if addr % 8 ≠ 0 then 3 else 0)
    else if w.counter then 3
    else if type = 1 then (if w.read then 0 else 2) else (if w.write then 0 else 2)
  let hits := (s.windows.map (·.2)).filter hit
  if inLogArea s addr len then .error 1
  else match firstWith (fun w => fault w == 0) hits with
    | some w => if (Table.find s.keys w.key).isSome then .ok w else .error 2
    | none => .error ((hits.head?.map fault).getD 1)

/-- The 32-byte groups of a transaction's data whose granules are poisoned. -/
def poisonGroups (addr len : Nat) (bad : List Nat) : Nat :=
  (List.range (ceilDiv len 32)).foldl (fun m g => if (granulesOf (addr + 32 * g) (min 32 (len - 32 * g))).any bad.contains then m + 2 ^ g else m) 0

/-- The granules that poisoned groups touch. -/
def groupGranules (addr len mask : Nat) : List Nat :=
  ((List.range (ceilDiv len 32)).filter (fun g => mask / 2 ^ g % 2 == 1)).flatMap (fun g => granulesOf (addr + 32 * g) (min 32 (len - 32 * g)))

/-- A request is performed, or refused, and answered. None while its home cannot serve it. -/
def takeRequest (s : State) (link : Nat) (t : List Byte) : Option State :=
  let type := numAt t 0 1
  let tag := numAt t 2 2 % 4096
  let src := numAt t 4 2 % 4096
  let len := if type = 3 then 8 else numAt t 6 2
  let addr := numAt t 8 6
  let reply (s : State) (ty n pmask cause : Nat) (data : List Byte) : State := queueResponse s link (transaction ty tag src n 0 pmask cause data)
  match windowFor s type src addr len with
  | .error cause => some (reply s 11 0 0 cause [])
  | .ok w =>
    if stalledAny s addr (max 1 len) then none
    else if type = 1 then
      (outsideRead s (link + 1) addr len w.key 4).map (fun e =>
        let s1 := modLink e.1 link (fun k => { k with held := k.held ++ [(tag, src, e.2.1)] })
        reply s1 8 len (poisonGroups addr len e.2.2) 0 e.2.1)
    else if type = 2 then
      (outsideWrite s (link + 1) addr (slice t 16 len) w.key 4 (groupGranules addr len (numAt t 14 1))).map (fun s1 => reply s1 9 0 0 0 [])
    else (outsideAdd s addr (numAt t 16 8) w.key 4).map (fun e => reply e.1 (if e.2 then 10 else 11) 0 0 (if e.2 then 0 else 4) [])

/-! ## Local accesses of a port (R221, R402) -/

/-- What a page lets a port do. -/
inductive PortPage where
  | absent | refused
  | at_ (pa key : Nat)
  deriving DecidableEq, Repr

/-- The page of a local address, checked with the region's privilege. -/
def portPage (s : State) (r : Region) (kind : AccessKind) (va : Nat) : Option (State × PortPage) :=
  let a := BitVec.ofNat 64 va
  match walk s r.space a with
  | none => none
  | some (s1, w) =>
    match pageCheck (rightsOf s1 r false) kind a w, w with
    | none, .leaf e at_ bits => (markLeaf s1 at_ e (kind == .store)).map (fun m => (m.1, .at_ (swapPa m.1 (leafPa e bits a)) (pteKey e)))
    | none, _ => some (s1, .absent)
    | some _, _ => some (s1, .refused)

/-- The runs of a local range that lie in one page: address and length. -/
def pageRuns (va n : Nat) : List (Nat × Nat) :=
  let first := min n (4096 - va % 4096)
  (if first = 0 then [] else [(va, first)]) ++ (if n ≤ first then [] else [(va + first, n - first)])

/-- A descriptor of a queue. -/
def modDesc (s : State) (link q index : Nat) (f : LinkDesc → LinkDesc) : State :=
  modQueue s link q (fun k => { k with active := k.active.map (fun d => if d.index = index then f d else d) })

/-- A descriptor fails: the first failure's STATUS stays. -/
def failDesc (s : State) (link q index status : Nat) : State := modDesc s link q index (fun d => if d.status = 0 then { d with status := status } else d)

/-- A local fault: STATUS 2, and for a page that is not present a record of KIND 7. -/
def localFault (s : State) (r : Region) (link q index va : Nat) (page : PortPage) : State :=
  let s1 := failDesc s link q index 2
  if page = .absent then queueRecord s1 r.id (record226 index 1 7 1 va 0 0 0) else s1

/-- The writes of a descriptor to local memory, as the memory order names them. -/
def descWrites (link q index : Nat) : GroupId := { wg := 0, grp := 17 + link + 16 * (q + 8 * index) }

/-- Bytes of local memory as the homes hold them, read as the copy engine reads, with the poisoned groups of 32; a failure is the address and its page. -/
def readLocal (s : State) (link : Nat) (r : Region) (va n : Nat) : Option (State × Except (Nat × PortPage) (List Byte × List Bool)) :=
  (pageRuns va n).foldl (fun (acc : Option (State × Except (Nat × PortPage) (List Byte × List Bool))) run =>
    match acc with
    | some (s, .ok (bs, bad)) =>
      match portPage s r .load run.1 with
      | none => none
      | some (s1, .at_ pa key) =>
        if stalledAny s1 pa run.2 then none
        else
          some (logAccess s1 pa run.2 true false key 4,
            .ok (bs ++ keyedRun s1 pa key (engineBytes s1 (portReader s1 link) none pa (newestBytes s1 pa run.2)),
                 bad ++ (List.range run.2).map (fun i => poisonedAt s1 (pa + i) 1)))
      | some (s1, page) => some (s1, .error (run.1, page))
    | other => other) (some (s, .ok ([], [])))

/-- Land bytes in local memory at the homes as the copy engine writes, with poison where `bad` says; a failure is the address and its page. -/
def landLocal (s : State) (g : GroupId) (r : Region) (va : Nat) (bs : List Byte) (bad : Nat → Bool) : Option (State × Option (Nat × PortPage)) :=
  (pageRuns va bs.length).foldl (fun (acc : Option (State × Option (Nat × PortPage))) run =>
    match acc with
    | some (s, none) =>
      match portPage s r .store run.1 with
      | none => none
      | some (s1, .at_ pa key) =>
        let off := run.1 - va
        let marks := ((List.range run.2).filter (fun i => bad (off + i))).map (fun i => granuleOf (pa + i))
        if stalledAny s1 pa run.2 then none
        else
          let note (s : State) : State := noteEngine { s with nextId := s.nextId + 1 } s.nextId g 3 0 none (oldWords pa (memRead s pa run.2))
          (notedWrite note s1 pa (slice bs off run.2) key 4 marks.eraseDups).map (fun s2 => (s2, none))
      | some (s1, page) => some (s1, some (run.1, page))
    | other => other) (some (s, none))

/-! ## Responses (R399, R402) -/

/-- One answer less is outstanding for a transaction's descriptor. -/
def closeTxn (s : State) (link : Nat) (x : LinkTxn) : State :=
  modDesc (modLink s link (fun k => { k with txns := k.txns.filter (fun y => y.tag != x.tag) })) link x.queue x.desc (fun d => { d with outstanding := d.outstanding - 1 })

/-- A response for a transaction of this device. None while its bytes cannot land. -/
def takeResponse (s : State) (link : Nat) (t : List Byte) : Option State :=
  let type := numAt t 0 1
  let tag := numAt t 2 2 % 4096
  if type = 12 then
    let src := numAt t 4 2 % 4096
    some (modLink s link (fun k => { k with held := k.held.filter (fun h => !(h.1 == tag && h.2.1 == src)) }))
  else
    let s0 := if type = 8 then queueResponse s link (transaction 12 tag s.device 0 0 0 0 []) else s
    match firstWith (fun x => x.tag == tag) (linkOf s link).txns with
    | none => some s0
    | some x =>
      let land (bs : List Byte) (bad : Nat → Bool) (status : Nat) : Option State :=
        match regionFind s0 (queueOf s0 link x.queue).region with
        | none => some (closeTxn s0 link x)
        | some r =>
          (landLocal s0 (descWrites link x.queue x.desc) r x.va.toNat bs bad).map (fun e =>
            let s1 := match e.2 with
              | some (va, page) => localFault e.1 r link x.queue x.desc va page
              | none => e.1
            closeTxn (if status = 0 then s1 else failDesc s1 link x.queue x.desc status) link x)
      if type = 8 then land (slice t 16 x.len) (fun i => numAt t 14 1 / 2 ^ (i / 32) % 2 == 1) 0
      else if type = 11 then
        if x.op = 2 then land (List.replicate x.len 0) (fun _ => true) 1 else some (closeTxn (failDesc s0 link x.queue x.desc 1) link x)
      else some (closeTxn s0 link x)

/-- A transaction of a flit is performed, and its slots' credits are to be returned. -/
def takeTxn (s : State) (link : Nat) (t : List Byte) : Option State :=
  let n := t.length / 16
  (if isResponse t then takeResponse s link t else takeRequest s link t).map (fun s1 =>
    modLink s1 link (fun k => if isResponse t then { k with returnResp := k.returnResp + n } else { k with returnReq := k.returnReq + n }))

/-! ## Receiving (R398, R436, R438, R441) -/

/-- What every good flit brings: entries up to ACK are free, credits come back. -/
def takeHead (s : State) (link : Nat) (flit : List Byte) : State :=
  let a := numAt flit 2 1
  let c := numAt flit 3 1
  modLink s link (fun k =>
    let through := if k.window.any (fun e => e.seq == a) then (k.window.takeWhile (fun e => e.seq != a)).length + 1 else 0
    { k with window := k.window.drop through, creditReq := k.creditReq + c % 16, creditResp := k.creditResp + c / 16 })

/-- Deliver a flit's transactions in slot order. -/
def deliverFlit (s : State) (link : Nat) (flit : List Byte) : Option State :=
  let ts := (splitSlots 15 (slice flit 8 240)).getD []
  (ts.foldl (fun (r : Option State) t => r.bind (fun s => takeTxn s link t)) (some s)).map (fun s1 =>
    modLink s1 link (fun k => { k with rxSeq := (k.rxSeq + 1) % 256, nak := none, slotlostRx := if k.slotlostRx = some k.rxSeq then none else k.slotlostRx }))

/-- Deliver every held flit that follows without a gap. -/
def deliverHeld : Nat → State → Nat → Option State
  | 0, s, _ => some s
  | n + 1, s, link =>
    let k := linkOf s link
    match firstWith (fun e => e.1 == k.rxSeq) k.reorder with
    | none => some s
    | some (q, flit) => (deliverFlit (modLink s link (fun k => { k with reorder := k.reorder.filter (fun e => e.1 != q) })) link flit).bind (fun s1 => deliverHeld n s1 link)

/-- A flit is discarded: the first discard since an in-order flit sends a NAK (R436), which Sahong notes (R435). -/
def discardFlit (s : State) (link : Nat) : State :=
  let k := linkOf s link
  if k.nak.isSome then s
  else sahong (sendControl (modLink s link (fun k => { k with nak := some (k.rxSeq, timeOf s, timeOf s) })) link 1 k.rxSeq) 5 10 255 link 0

/-- R399, R436, R438: a slotted flit arrives. -/
def execLinkoSlottedFlit (link : Nat) (flit : List Byte) (s : State) : Result :=
  event "LINKO_SLOTTED_FLIT" (
    let k := linkOf s link
    if 15 < link then none
    else if !k.up then some s
    else if !flitGood flit || numAt flit 0 1 != 0 || (splitSlots 15 (slice flit 8 240)).isNone then some (discardFlit s link)
    else
      let s1 := takeHead s link flit
      let ahead := (numAt flit 1 1 + 256 - k.rxSeq) % 256
      if ahead = 0 then ((deliverFlit s1 link flit).bind (fun s2 => deliverHeld 129 s2 link)).map (fun s2 => { respond s2 link with draw := s.draw + 1 })
      else if 128 ≤ ahead then some (respond (sendControl s1 link 0 0) link)
      else if k.slotlostRx.isSome then
        some (respond (if k.reorder.length < 128 ∧ !k.reorder.any (fun e => e.1 == numAt flit 1 1)
          then modLink s1 link (fun k => { k with reorder := k.reorder ++ [(numAt flit 1 1, flit)] }) else s1) link)
      else some (respond (discardFlit s1 link) link))

/-- A control flit of a type: its head counts, then the body; another flit is discarded. -/
def controlFlit (name : String) (ctype link : Nat) (flit : List Byte) (s : State) (body : State → State) : Result :=
  event name (
    if 15 < link then none
    else if !(linkOf s link).up then some s
    else if !flitGood flit || numAt flit 0 1 != 1 || numAt flit 8 1 != ctype then some (discardFlit s link)
    else some (respond (body (takeHead s link flit)) link))

/-- R437: an idle control flit returns ACK and credits. -/
def execLinkoIdle (link : Nat) (flit : List Byte) (s : State) : Result := controlFlit "LINKO_IDLE" 0 link flit s (fun s => s)

/-- Resend the entries of the window from a SEQ on, in order. -/
def resendFrom (s : State) (link seq : Nat) : State :=
  ((linkOf s link).window.dropWhile (fun e => e.seq != seq)).foldl (fun s e => sendEntry s link e) s

/-- R436: a NAK makes the sender resend from the SEQ that it names; what comes before it is acknowledged. -/
def execNak (link : Nat) (flit : List Byte) (s : State) : Result :=
  controlFlit "NAK" 1 link flit s (fun s => sahong (resendFrom s link (numAt flit 9 1)) 5 10 255 link 0)

/-- R438: SLOTLOST: a SEQ that is delivered is acknowledged; otherwise later flits are held. A NAK is still repeated until the SEQ arrives (R436). -/
def execSlotlost (link : Nat) (flit : List Byte) (s : State) : Result :=
  controlFlit "SLOTLOST" 2 link flit s (fun s =>
    let n := numAt flit 9 1
    if 128 ≤ (n + 256 - (linkOf s link).rxSeq) % 256 then sendControl s link 0 0
    else modLink s link (fun k => { k with slotlostRx := some n }))

/-- The first link that a test picks. -/
def linkWhere (s : State) (p : Link → Bool) : Option Nat := (firstWith (fun e => p e.2) s.links).map (·.1)

/-- R436: a NAK is repeated every 256 ticks until its SEQ arrives. -/
def execNakRepeat (s : State) : Result :=
  event "NAK_REPEAT" (
    (linkWhere s (fun k => k.up && (match k.nak with | some (_, _, t) => t + 256 ≤ timeOf s | none => false))).map (fun link =>
      let n := ((linkOf s link).nak.map (·.1)).getD 0
      sendControl (modLink s link (fun k => { k with nak := k.nak.map (fun e => (e.1, e.2.1, timeOf s)) })) link 1 n))

/-! ## Lost entries (R438, R439) -/

/-- R438: the read of an entry for a resend finds an uncorrectable error. -/
def execLostEntryDetect (link seq : Nat) (s : State) : Result :=
  event "LOST_ENTRY_DETECT" (
    let k := linkOf s link
    if k.window.any (fun e => e.seq == seq && !e.lost) then
      let s1 := modLink s link (fun k => { k with window := k.window.map (fun e =>
        if e.seq = seq then { e with lost := true, firstSlotlost := some (e.firstSlotlost.getD (timeOf s)), lastSlotlost := timeOf s } else e) })
      some (sahong (sendControl s1 link 2 seq) 6 10 255 link 0)
    else none)

/-- R438: SLOTLOST is repeated every 256 ticks until an ACK covers its entry. -/
def execSlotlostRepeat (s : State) : Result :=
  event "SLOTLOST_REPEAT" (
    (s.links.findSome? (fun e => if !e.2.up then none
      else (firstWith (fun w => w.firstSlotlost.isSome && w.lastSlotlost + 256 ≤ timeOf s) e.2.window).map (fun w => (e.1, w.seq)))).map (fun e =>
        sendControl (modLink s e.1 (fun k => { k with window := k.window.map (fun w => if w.seq = e.2 then { w with lastSlotlost := timeOf s } else w) })) e.1 2 e.2))

/-- R438, R439: the origins have regenerated an entry's transactions, with the operands and bytes first sent: the replacement is sent. -/
def execLinkoReplacementSend (link seq : Nat) (s : State) : Result :=
  event "LINKO_REPLACEMENT_SEND" (
    let k := linkOf s link
    match firstWith (fun e => e.seq == seq && e.lost) k.window with
    | none => none
    | some e =>
      if !k.up then none
      else some (sendEntry (modLink s link (fun k => { k with window := k.window.map (fun w => if w.seq = seq then { w with lost := false } else w) })) link { e with lost := false }))

/-! ## Retraining (R440) -/

/-- A link is to retrain: an entry has stayed lost, or a NAK unanswered, for 2^16 ticks; a SLOTLOST answers a NAK. -/
def retrainDue (k : Link) (tick : Nat) : Bool :=
  k.up && (k.window.any (fun e => match e.firstSlotlost with | some t => t + 65536 ≤ tick | none => false) ||
    (k.slotlostRx.isNone && match k.nak with | some (_, t, _) => t + 65536 ≤ tick | none => false))

/-- A link stops sending, to retrain. -/
def beginRetrain (s : State) (link : Nat) : State := sahong (modLink s link (fun k => { k with retrain := some (timeOf s) })) 7 10 255 link 0

/-- R440: a RETRAIN flit arrives, or (with no flit) this end starts a retrain that is due. -/
def execRetrain (link : Nat) (flit : List Byte) (s : State) : Result :=
  event "RETRAIN" (
    let k := linkOf s link
    if 15 < link then none
    else if flit.isEmpty then (if retrainDue k (timeOf s) then some (beginRetrain (sendControl s link 3 0) link) else none)
    else if !k.up then some s
    else if !flitGood flit || numAt flit 0 1 != 1 || numAt flit 8 1 != 3 then some (discardFlit s link)
    else some (beginRetrain (takeHead s link flit) link))

/-- The link is down: its descriptors end with STATUS 3, and what it holds for regeneration goes. -/
def linkDown (s : State) (link : Nat) : State :=
  sahong (modLink s link (fun k => { k with
    down := true, retrain := none, txns := [], held := [], outbox := [],
    queues := k.queues.map (fun q => (q.1, { q.2 with active := q.2.active.map (fun d => { d with status := if d.status = 0 then 3 else d.status, outstanding := 0 }) })) })) 8 10 255 link 0

/-- R440: a retrain ends: what is not acknowledged is sent again, lost entries regenerated; the third failure in a row takes the link down. -/
def execRetrainComplete (link : Nat) (ok : Bool) (s : State) : Result :=
  event "RETRAIN_COMPLETE" (
    let k := linkOf s link
    if k.retrain.isNone then none
    else if ok then
      let clean (e : WindowEntry) : WindowEntry := { e with lost := false, firstSlotlost := none, lastSlotlost := 0 }
      let s1 := modLink s link (fun k => { k with retrain := none, retrains := 0, window := k.window.map clean,
                                                  nak := k.nak.map (fun e => (e.1, timeOf s, timeOf s)) })
      some (respond ((linkOf s1 link).window.foldl (fun s e => sendEntry s link e) s1) link)
    else if 2 ≤ k.retrains then some (linkDown s link)
    else some (modLink s link (fun k => { k with retrains := k.retrains + 1, retrain := some (timeOf s) })))

/-! ## Descriptors (R401, R402) -/

/-- OP, LENGTH, LOCAL and the other fields of a descriptor. -/
def LinkDesc.op (d : LinkDesc) : Nat := numAt d.bytes 0 1
def LinkDesc.length (d : LinkDesc) : Nat := if d.op = 3 then 8 else numAt d.bytes 4 4
def LinkDesc.localVa (d : LinkDesc) : Nat := numAt d.bytes 8 8
def LinkDesc.remote (d : LinkDesc) : Nat := numAt d.bytes 16 8

/-- A descriptor is invalid: its OP, a reserved field, or a field outside what its OP allows. -/
def LinkDesc.invalid (d : LinkDesc) : Bool :=
  d.op == 0 || 3 < d.op || numAt d.bytes 1 3 != 0 || numAt d.bytes 42 2 != 0 || numAt d.bytes 48 16 != 0 || 4095 < numAt d.bytes 40 2 ||
  d.remote % 4 != 0 || 2 ^ 48 ≤ d.remote + d.length ||
  (if d.op = 3 then numAt d.bytes 4 4 != 0 || d.localVa != 0 else numAt d.bytes 4 4 % 4 != 0 || 2 ^ 24 < numAt d.bytes 4 4)

/-- Everything that a descriptor asks is sent, or it has failed. -/
def LinkDesc.issued (d : LinkDesc) : Bool := d.status != 0 || d.length ≤ d.sent
def LinkDesc.finished (d : LinkDesc) : Bool := d.issued && d.outstanding == 0

/-- The next descriptor that a queue may start: the doorbell exceeds its index, and every earlier one is sent, and for OP 3 done. -/
def nextDesc (s : State) (link q : Nat) : Option (State × LinkDesc) :=
  let k := queueOf s link q
  if !k.bound || k.halted || k.active.any (fun d => d.status != 0 || !d.issued) then none
  else match regionFind s k.region with
    | none => none
    | some r =>
      match ringCounter s r.space k.doorbell.toNat with
      | none => none
      | some (s1, raw, _) =>
        if numOf raw ≤ k.next then none
        else match ringRead s1 r.space (k.ring.toNat + 64 * (k.next % k.size)) 64 with
          | none => none
          | some (s2, b, bad) =>
            if numAt b 0 1 = 3 ∧ !k.active.isEmpty then none
            else some (s2, { index := k.next, bytes := b, sent := 0, outstanding := 0, status := if bad then 2 else 0 })

/-- Start the next descriptor of a queue: an invalid one fails at once, and so does any on a link that is down. -/
def startDesc (s : State) (link q : Nat) (d : LinkDesc) : State :=
  let status := if d.status ≠ 0 ∨ d.invalid then 2 else if (linkOf s link).down then 3 else 0
  modQueue s link q (fun k => { k with next := k.next + 1, active := k.active ++ [{ d with status := status }] })

/-- A tag that is not in use. -/
def freeTag (k : Link) : Option Nat := firstWith (fun t => !k.txns.any (fun x => x.tag == t)) ((List.range 4096).map (fun i => (k.nextTag + i) % 4096))

/-- Send a descriptor's next request. -/
def sendRequest (s : State) (link q : Nat) (d : LinkDesc) (type n : Nat) (pmask : Nat) (data : List Byte) : Option State :=
  let k := linkOf s link
  match freeTag k with
  | none => none
  | some tag =>
    let t := transaction type tag s.device (if type = 3 then 8 else n) (d.remote + d.sent) pmask 0 data
    if !canPlace k t then none
    else
      let x : LinkTxn := { tag := tag, queue := q, desc := d.index, op := d.op, va := BitVec.ofNat 64 (d.localVa + d.sent), len := n }
      let s1 := modLink s link (fun k => { k with txns := k.txns ++ [x], nextTag := (tag + 1) % 4096 })
      some (placeTxn (modDesc s1 link q d.index (fun d => { d with sent := d.sent + n, outstanding := d.outstanding + 1 })) link t)

/-- The bytes of a descriptor's next transaction: to the end of the destination's line. -/
def LinkDesc.step (d : LinkDesc) : Nat := min (d.length - d.sent) (128 - (d.remote + d.sent) % 128)

/-- One transaction of a descriptor of an operation. -/
def issueDesc (s : State) (link q : Nat) (d : LinkDesc) : Option State :=
  let n := d.step
  match regionFind s (queueOf s link q).region with
  | none => some (failDesc s link q d.index 2)
  | some r =>
    if d.op = 1 then
      match readLocal s link r (d.localVa + d.sent) n with
      | none => none
      | some (s1, .error (va, page)) => some (localFault s1 r link q d.index va page)
      | some (s1, .ok (bs, bad)) =>
        let pmask := (List.range (ceilDiv n 32)).foldl (fun m g => if (slice (bad.map (fun b => if b then (1 : Byte) else 0)) (32 * g) 32).any (· != 0) then m + 2 ^ g else m) 0
        sendRequest s1 link q d 2 n pmask bs
    else if d.op = 2 then
      match (pageRuns (d.localVa + d.sent) n).findSome? (fun run => match portPage s r .store run.1 with
        | some (_, .at_ _ _) => none
        | some (_, page) => some (run.1, page)
        | none => none) with
      | some (va, page) => some (localFault s r link q d.index va page)
      | none => sendRequest s link q d 1 n 0 []
    else sendRequest s link q d 3 8 0 (slice d.bytes 24 8)

/-- One step of the descriptors of an operation in a queue: the next transaction of the one under way, or the start of the next. -/
def portStep (name : String) (mine : Nat → Bool) (link q : Nat) (s : State) : Result :=
  event name (
    if 15 < link ∨ 7 < q then none
    else match firstWith (fun d => !d.issued) (queueOf s link q).active with
      | some d => if mine d.op then issueDesc s link q d else none
      | none =>
        match nextDesc s link q with
        | none => none
        | some (s1, d) => if mine d.op then some (startDesc s1 link q d) else none)

/-- R402: OP 1 writes local bytes to the peer; a descriptor with no valid OP fails. -/
def execLinkoOpWrite (link queue : Nat) (s : State) : Result := portStep "LINKO_OP_WRITE" (fun op => op != 2 && op != 3) link queue s

/-- R402: OP 2 reads the peer's bytes to local memory. -/
def execLinkoOpRead (link queue : Nat) (s : State) : Result := portStep "LINKO_OP_READ" (fun op => op == 2) link queue s

/-- R402: OP 3 adds at the peer, once every earlier descriptor of its queue is done. -/
def execLinkoOpCounterAdd (link queue : Nat) (s : State) : Result := portStep "LINKO_OP_COUNTER_ADD" (fun op => op == 3) link queue s

/-- A descriptor's add to DONE is a release of every byte that it landed: they become readable on every path at .sys. -/
def publishLanded (s : State) (g : GroupId) : State :=
  ((s.past.filter (fun e => e.group == g)).map (fun e => e.id)).eraseDups.foldl (fun s id => publishWrites s id 6) s

/-- R402: the first descriptor of a queue finishes: STATUS, DONE, and a halt where it failed. -/
def execLinkoDescriptorComplete (link queue : Nat) (s : State) : Result :=
  event "LINKO_DESCRIPTOR_COMPLETE" (
    let k := queueOf s link queue
    match k.active with
    | [] => none
    | d :: rest =>
      if !d.finished then none
      else
        let s1 := modQueue s link queue (fun k => { k with active := rest, halted := k.halted || d.status != 0 })
        match regionFind s1 k.region with
        | none => some s1
        | some r =>
          let s2 := ringWrite s1 r.space (k.ring.toNat + 64 * (d.index % k.size) + 44) (bytesOf 4 d.status)
          let done := numAt d.bytes 32 8
          some (if done = 0 then s2 else completionAdd (publishLanded s2 (descWrites link queue d.index)) r false done d.index 7))

end Sys2Proof.Machine
end

