-- ==== Sys2Proof/Machine/Errors.lean ====
section
/-! DEFINITION. Array errors, correction counts, lasting units and spares, lost workgroups, and the rebuild of the ringmaster's state
(R422 to R435). -/

namespace Sys2Proof.Machine

/-! ## Repair units (R422, R424)

A unit's index numbers it as the event log does: for HBM the number of its 1 KB row, which names its physical address; for structures 4 to 7 the
column, or the core, times 2 to the 32nd, plus a row; rows of a column store from 2 to the 31st on are scratchpad rows; structure 7 numbers columns from
768 on; for structure 8 the column, or 192 plus the tower, times 2 to the 32nd, plus the entry; for structure 10 the link. -/

/-- A unit of R422. -/
def unitOk (u : RepairUnit) : Bool := 1 ≤ u.code && u.code ≤ 11 && (u.tower ≤ 3 || u.tower == 255)

/-- The core, column, TLB or link of a unit, and its row there. -/
def unitPlace (u : RepairUnit) : Nat := u.index / 2 ^ 32
def unitRow (u : RepairUnit) : Nat := u.index % 2 ^ 32

/-- Spares of each bank, array or slot of a structure. -/
def spareRows (code : Nat) : Nat :=
  match code with
  | 1 => 4
  | 2 => 2
  | 3 => 4
  | 4 => 4
  | 5 => 2
  | 6 => 2
  | 7 => 1
  | _ => 0

/-- The key of a unit's bank, array or slot. -/
def bankKey (u : RepairUnit) : Nat := u.code + 16 * (u.tower + 256 * Config.repairBank u.code u.index)

/-- A unit's record. -/
def repairOf (s : State) (u : RepairUnit) : RepairState :=
  (firstWith (fun r => r.unit == u) s.repairs).getD { unit := u, times := [], sparing := none, lasting := false }
def putRepair (s : State) (r : RepairState) : State := { s with repairs := s.repairs.filter (fun q => q.unit != r.unit) ++ [r] }

/-- One correction more at a unit: those of the 2^31 ticks that end now count. -/
def countCorrection (s : State) (u : RepairUnit) : State :=
  let r := repairOf s u
  putRepair s { r with times := (r.times ++ [timeOf s]).filter (fun t => timeOf s < t + 2 ^ 31) }

/-- Sahong's event about a unit (R435). -/
def unitEvent (s : State) (type : Nat) (u : RepairUnit) : State := sahong s type u.code u.tower u.index (repairOf s u).times.length

/-! ## What an array read meets (R423, R427, R428) -/

/-- A group of the workgroup on a column slot. -/
def slotGroup (s : State) (column slot grp : Nat) : Option GroupId :=
  (firstWith (fun w => w.column == column && w.slot == slot && grp < w.groups.length) s.wgs).map (fun w => { wg := w.id, grp := grp })

/-- An error in a tower's canopy strikes the state of a group, an image, or nothing that is held: the manual does not say where each lies. -/
def strikeCanopy (s : State) (tower : Nat) : State :=
  let groups := (s.wgs.filter (fun w => w.column / 48 == tower)).flatMap (fun w => ((List.range w.groups.length).zip w.groups).filterMap (fun e =>
    if e.2.canopyBytes w = 0 then none else some ({ wg := w.id, grp := e.1 } : GroupId)))
  let images := (s.images.filter (fun i => match i.place with | .canopy t => t == tower | _ => false)).map (fun i => i.id)
  let k := Config.choice s.draw 8000 % (groups.length + images.length + 1)
  match groups[k]?, images[k - groups.length]? with
  | some g, _ => modGroup s g (fun g => { g with canopyBad := true })
  | none, some i => { s with images := s.images.map (fun j => if j.id = i then { j with bad := true } else j) }
  | none, none => s

/-- Drop entry `n` of a TLB. -/
def dropEntry (tlb : List TlbEntry) (n : Nat) : List TlbEntry := tlb.take n ++ tlb.drop (n + 1)

/-- An uncorrectable error in data that can carry a mark. The address is a physical address, for a scratchpad row the column slot times 2 to the 32nd
plus the offset, and for an accumulator row the column slot, the group and the tile row in fields of 16 bits. -/
def strike (s : State) (u : RepairUnit) (address : Nat) : State :=
  let g := granuleOf address
  let markIn (ag : Agent) : State :=
    let l := lineOf address
    match lineFind s ag l with
    | some c => putLine s { c with poison := c.poison ||| BitVec.ofNat 4 (2 ^ (g % 4)) }
    | none => s
  match u.code with
  | 1 => markPoison s [g]
  | 2 => strikeCanopy s u.tower
  | 3 => if homeTower address = u.tower then markPoison s [g] else markIn (.way u.tower)
  | 4 =>
    if unitRow u < 2 ^ 31 then markIn (.col (unitPlace u))
    else
      let off := address % 2 ^ 32
      { s with wgs := s.wgs.map (fun w =>
          if w.column = (unitPlace u) ∧ w.slot = address / 2 ^ 32 then { w with scratchPoison := sortBy (fun a b => a ≤ b) ((w.scratchPoison ++ [granuleOf off]).eraseDups) } else w) }
  | 6 =>
    match slotGroup s ((unitPlace u) / 4) (address / 2 ^ 32) (address / 2 ^ 16 % 2 ^ 16) with
    | some x => modGroup s x (fun gr => { gr with accPoison := sortBy (fun a b => a ≤ b) ((gr.accPoison ++ [address % 2 ^ 16]).eraseDups) })
    | none => s
  | _ => s

/-- R423, R427: an array read, of the patrol or of an access, meets no error, one that is corrected, or one that is not. -/
def execPatrolRead (unit : RepairUnit) (address : Nat) (error : ArrayError) (s : State) : Result :=
  event "PATROL_READ" (
    if !unitOk unit then none
    else match error with
      | .none => some s
      | .corrected =>
        if unit.code = 8 then some (countCorrection (
          if unitPlace unit < 192 then modColumn s (unitPlace unit) (fun k => { k with tlb := dropEntry k.tlb (unitRow unit) })
          else modTower s (unitPlace unit - 192) (fun t => { t with tlb := dropEntry t.tlb (unitRow unit) })) unit)
        else some (countCorrection s unit)
      | .uncorrectable =>
        if ([1, 2, 3, 4, 6] : List Nat).contains unit.code then some (unitEvent { strike s unit address with draw := s.draw + 1 } 4 unit)
        else if unit.code = 9 ∨ unit.code = 11 then some (countCorrection s unit)
        else none)

/-! ## Lasting units (R424 to R426) -/

/-- The count that makes a unit lasting: 8 after reset. -/
def threshOf (s : State) (code : Nat) : Nat := Table.get s.thresh code 8

/-- A slice whose sets have lost a way: each set that is over-full gives up its least recently used tag (R426). -/
def trimSlice (s : State) (tower slice : Nat) : State :=
  ((towerOf s tower).slices.filter (fun e => e.slice == slice)).foldl (fun s e =>
    let set := tagMates (towerOf s tower) slice e.remote e.line
    if set.length ≤ sliceWays s tower slice e.remote then s
    else match lruTag (towerOf s tower) set with
      | some v => dropTag s tower v
      | none => s) s

/-- A TLB that has lost an entry gives up its oldest one if it is over-full (R422). -/
def trimTlb (s : State) (place : Nat) : State :=
  if place < 192 then modColumn s place (fun k => { k with tlb := k.tlb.take (tlbSize s place) })
  else modTower s (place - 192) (fun t => { t with tlb := t.tlb.take (tlbSize s place) })

/-- What becomes of a lasting unit with no spare. -/
def noSpare (s : State) (u : RepairUnit) : State :=
  let s1 := unitEvent s 3 u
  let slice := Config.repairBank 3 u.index % 32
  let disable (place array : Nat) : State := { s1 with disabledWays := Table.modify s1.disabledWays (wayKey u.code place array) 0 (· + 1) }
  let badCore : State := modCore s1 (unitPlace u) (fun k => { k with degraded := true })
  let badColumn (c : Nat) : State := modColumn s1 c (fun k => { k with degraded := true })
  match u.code with
  | 3 => trimSlice (disable u.tower slice) u.tower slice
  | 4 => if unitRow u < 2 ^ 31 then trimColumn (disable (unitPlace u) 0) (unitPlace u) else badColumn (unitPlace u)
  | 5 => badCore
  | 6 => badCore
  | 7 => if (unitPlace u) < 768 then badCore else badColumn ((unitPlace u) - 768)
  | 8 => trimTlb (disable (unitPlace u) 0) (unitPlace u)
  | 10 => if (unitPlace u) < 16 ∧ (linkOf s1 (unitPlace u)).up then beginRetrain s1 (unitPlace u) else s1
  | _ => s1

/-- R424: the count of a unit reaches THRESH: a spare starts to take its place, or there is none. -/
def execLastingUnit (s : State) : Result :=
  event "LASTING_UNIT" (
    (firstWith (fun r => !r.lasting && threshOf s r.unit.code ≤ r.times.length) s.repairs).map (fun r =>
      let u := r.unit
      let s1 := unitEvent (putRepair s { r with lasting := true }) 1 u
      let used := Table.get s1.spares (bankKey u) 0
      if used < spareRows u.code then
        let most := if u.code = 1 ∨ u.code = 2 then 2 ^ 16 else 2 ^ 12
        let till := timeOf s + 1 + Config.choice s.draw 8200 % most
        let s2 := putRepair { s1 with spares := Table.put s1.spares (bankKey u) (used + 1), draw := s1.draw + 1 } { r with lasting := true, sparing := some till }
        unitEvent s2 2 u
      else noSpare s1 u))

/-- R425: the copy to a spare is complete: the spare is the unit, and its count starts at zero. -/
def execSpareCopyComplete (s : State) : Result :=
  event "SPARE_COPY_COMPLETE" (
    (firstWith (fun r => match r.sparing with | some t => t ≤ timeOf s | none => false) s.repairs).map (fun r =>
      putRepair s { r with times := [], sparing := none, lasting := false }))

/-! ## Lost workgroups (R430, R431) -/

/-- R430: an uncorrectable error strikes a workgroup's registers or control state. -/
def execWorkgroupLost (wg structure_ : Nat) (s : State) : Result :=
  event "WORKGROUP_LOST" (
    match wgFind s wg with
    | none => none
    | some w =>
      if w.stopped || !(structure_ == 5 || structure_ == 7) then none
      else some { loseWorkgroup s wg structure_ (w.core * 2 ^ 32 + Config.choice s.draw 8100 % 2 ^ 32) with draw := s.draw + 1 })

/-- Nothing that a workgroup began is under way. -/
def wgDrained (s : State) (w : Workgroup) : Bool :=
  pathsClear w && !s.flights.any (fun f => f.x.wg == w.id) && !s.commands.any (fun m => m.g.wg == w.id) && !s.copies.any (fun k => k.g.wg == w.id && !k.settled)

/-- The other members of a mirror set rerun: those that are resident are flushed, and those that are saved go back to their launch. -/
def rerunMates (s : State) (w : Workgroup) : State :=
  if w.fields.mset < 2 then s
  else
    let s1 := ((setMembers s w).filter (fun v => v.id != w.id && !v.stopped)).foldl (fun s v => requestFlush s v.id none true) s
    let theirs := s1.images.filter (fun i => i.wg.region == w.region && i.wg.launch == w.launch && i.wg.index / w.fields.mset == w.index / w.fields.mset && i.restoring.isNone)
    theirs.foldl (fun s i => modLaunch { s with images := s.images.filter (fun j => j.id != i.id) } w.region w.launch
      (fun l => { l with again := sortBy (fun a b => a ≤ b) (l.again ++ [i.wg.index]) })) s1

/-- R431: a lost workgroup whose accesses are over is rerun, or stopped. -/
def execLostWorkgroupDispose (s : State) : Result :=
  event "LOST_WORKGROUP_DISPOSE" (
    s.wgs.findSome? (fun w => match w.lost with
      | none => none
      | some struct_ =>
        if !(openCopies s w.id).isEmpty then some (cancelCopies s w.id)
        else if !wgDrained s w then none
        else
          let s1 := modLaunch s w.region w.launch (fun l => { l with losses := Table.modify l.losses w.index 0 (· + 1) })
          let l := launchFind s1 w.region w.launch
          let losses := (l.map (fun l => Table.get l.losses w.index 0)).getD 1
          let again := w.fields.restart && losses < 4 && (w.preempt.map (fun p => p.rerun)).getD true
          some (if again then
              discardWg (rerunMates (queueRecord s1 w.region (recordLost w 0 8 losses 0 struct_ ((l.map (fun l => l.addr)).getD 0))) w) w true
            else discardWg (faultStop s1 w.id 0 8 struct_) w false)))

/-! ## The ringmaster's own state (R432) -/

/-- A record about a workgroup that no slot holds: the manual gives no HANDLE for it. -/
def recordUnplaced (s : State) (l : Launch) (index action : Nat) : List Byte :=
  ((List.range 4).map (Config.freeByte s.draw)) ++ bytesOf 1 8 ++ bytesOf 1 8 ++ bytesOf 2 1 ++ bytesOf 8 l.addr.toNat ++ bytesOf 4 index ++ bytesOf 1 action ++ bytesOf 1 7 ++
  bytesOf 10 0

/-- What a region's records say of a launch: its STATUS and the indexes whose bitmap bit is set; none where they cannot be read. -/
def recordedState (s : State) (r : Region) (l : Launch) : Option (Nat × List Nat) :=
  match ringRead s r.space (l.addr.toNat + 124) 4 with
  | none => none
  | some (s1, raw, _) =>
    let done (k : Nat) : Bool := match ringRead s1 r.space (l.fields.bitmap.toNat + k / 8) 1 with
      | some (_, b, _) => (b.getD 0 0).getLsbD (k % 8)
      | none => false
    some (numOf raw, if l.fields.bitmap = 0 then [] else (List.range l.fields.nwg).filter done)

/-- A launch is rebuilt from its record, its bitmap, the column slots and the image headers. -/
def rebuildLaunch (s : State) (region launch : Nat) : State :=
  match regionFind s region, launchFind s region launch with
  | some r, some l =>
    match recordedState s r l with
    | none => s
    | some (status, done) =>
      let blank : Launch := { l with status := status, avg := none, losses := [], since := none, expired := false, finished := done }
      let s1 := modLaunch s region launch (fun _ => blank)
      if status ≠ 1 then s1
      else if l.fields.bitmap = 0 then stopDomain (faultLaunch s1 region launch) region
      else
        let here := (s.wgs.filter (fun w => w.region == region && w.launch == launch)).map (fun w => w.index) ++
          (s.images.filter (fun i => i.wg.region == region && i.wg.launch == launch)).map (fun i => i.wg.index)
        let missing := (List.range l.fields.nwg).filter (fun k => !done.contains k && !here.contains k)
        let s2 := modLaunch s1 region launch (fun l => { l with next := l.fields.nwg, again := if l.fields.restart then missing else [] })
        let s3 := missing.foldl (fun s k => queueRecord s region (recordUnplaced s l k (if l.fields.restart then 0 else 1))) s2
        if l.fields.restart || missing.isEmpty then s3 else stopDomain (faultLaunch s3 region launch) region
  | _, _ => s

/-- R432: both copies of the ringmaster's state have failed: it is rebuilt, from the records between LDONE and LCTR. Commands begin again, and capacity
that was held is held no more. -/
def execRingmasterStateRebuild (s : State) : Result :=
  event "RINGMASTER_STATE_REBUILD" (
    if !s.booted || s.inReset then none
    else
      let all := s.regions.flatMap (fun r => (r.launches.filter (fun l => r.ldone ≤ l.id)).map (fun l => (r.id, l.id)))
      let s1 := all.foldl (fun s e => rebuildLaunch s e.1 e.2) s
      some { s1 with reserves := [], draw := s.draw + 1, regions := s1.regions.map (fun r => { r with command := none, vpass := 0, cand := false }) })

end Sys2Proof.Machine
end

