-- ==== Sys2Proof/Machine/Domains.lean ====
section
/-! DEFINITION. Domains and their keys, scrub and its stubs, the admissions log, the event log and attestation (R442 to R455). -/

namespace Sys2Proof.Machine

/-! ## Signed objects (R451) -/

/-- The digest of a body, 64 bytes. -/
def digestOf (body : List Byte) : List Byte := slice (Config.sha512 body) 0 64

/-- A body with its digest and the signature block over the digest. -/
def signed512 (body : List Byte) : List Byte := body ++ digestOf body ++ slice (Config.signBlock (digestOf body)) 0 3376

/-- A destination of a command: 4 KB-aligned, in HBM or in host memory. -/
def destBad (a : Nat) : Bool := a % 4096 != 0 || !isBacked a

/-- The hub writes an output; none where its home cannot serve it yet. -/
def putOutput (s : State) (a : Nat) (bs : List Byte) : Option (State × Nat) := (homeStore s a bs).map (fun s => (s, 0))

/-! ## Attestation (R455) -/

/-- Bytes 0 to 4063 of a report. -/
def reportBody (s : State) (nonce : List Byte) : List Byte :=
  bytesOf 2 1 ++ bytesOf 6 0 ++ bytesOf 8 Config.devId.toNat ++ nonce ++ bytesOf 8 (timeOf s) ++
  (List.range 5).flatMap (fun k => bytesOf 4 (Config.securityVersion k).toNat) ++ bytesOf 52 0 ++
  (List.range 5).flatMap (fun k => slice (Config.measurement k) 0 64) ++ slice Config.encapKey 0 1568 ++
  (List.range 1024).flatMap (fun k => bytesOf 2 (match Table.find s.keys k with
    | some e => e.domain
    | none => 0xFFFF))

/-- R455. -/
def execAttest (s : State) : Result :=
  mailboxCommand "ATTEST" 0x40 40 s (fun s b =>
    let dest := numAt b 32 8
    if destBad dest then some (s, 2) else putOutput s dest (signed512 (reportBody s (slice b 0 32))))

/-! ## Keys (R442, R444, R445) -/

/-- R444: set the key-encryption key of a domain, and with it the canopy key. -/
def execKekSet (s : State) : Result :=
  mailboxCommand "KEK_SET" 0x41 1576 s (fun s b =>
    let d := numAt b 0 2
    if 1023 < d ∨ !zeros b 2 6 then some (s, 2)
    else
      let kek := Config.kemKek (slice b 8 1568) d
      some ({ s with keks := Table.put s.keks d kek, canopyKeys := Table.put s.canopyKeys d (Config.canopyKey kek d) }, 0))

/-- An active region has a slot in its effective KEYS. -/
def slotInUse (s : State) (k : Nat) : Bool := s.regions.any (fun r => effectiveKeys 9 s r / 2 ^ k % 2 == 1)

/-- What stands for a key that no slot holds any more, in the notes of the lines stored under it; and for bytes that nothing can decipher. -/
def formerId (s : State) (key : BitVec 512) : Nat :=
  match firstWith (fun e => e.2 == key) s.formerKeys with
  | some e => e.1
  | none => 1025 + s.formerKeys.length
def lostBytes : Nat := 1024

/-- A slot gives up its key: the lines stored under it are noted under the key itself. -/
def forgetKey (s : State) (k : Nat) (key : BitVec 512) : State :=
  let id := formerId s key
  { s with keys := Table.drop s.keys k, formerKeys := Table.put s.formerKeys id key, lineKeys := s.lineKeys.map (fun e => if e.2 = k then (e.1, id) else e) }

/-- A slot takes a key: the lines stored under that key are its own. -/
def takeKey (s : State) (k domain : Nat) (key : BitVec 512) : State :=
  let s1 := match Table.find s.keys k with
    | some old => forgetKey s k old.key
    | none => s
  let s2 := match firstWith (fun e => e.2 == key) s1.formerKeys with
    | some e => { s1 with lineKeys := s1.lineKeys.map (fun (l : Nat × Nat) => if l.2 = e.1 then (l.1, k) else l) }
    | none => s1
  { s2 with keys := Table.put s2.keys k { domain := domain, key := key } }

/-- R444: unwrap a key pair into a slot. -/
def execKeyLoad (s : State) : Result :=
  mailboxCommand "KEY_LOAD" 0x42 80 s (fun s b =>
    let k := numAt b 0 2
    let d := numAt b 2 2
    if 1023 < k ∨ 1023 < d ∨ !zeros b 4 4 then some (s, 2)
    else if (Table.find s.keys k).isSome && slotInUse s k then some (s, 3)
    else match (Table.find s.keks d).bind (fun kek => Config.keyUnwrap kek (slice b 8 72)) with
      | none => some (s, 2)
      | some key => some (takeKey s k d key, 0))

/-- The lines of slices and remote ways that a slot's bytes stand in. -/
def slotLines (s : State) (k : Nat) : List (Nat × Nat) :=
  (s.towers.flatMap (fun t => (t.2.slices.filter (fun e => !e.remote && Table.find s.lineKeys e.line == some k)).map (fun e => (t.1, e.line)))) ++
  (s.lines.filter (fun c => c.key == k && (match c.agent with | .way _ => true | _ => false))).map (fun c => (agentTower c.agent, c.line))

/-- Every cached line of a slot is dropped without write-back; what a slice alone held of a line is lost, and what earlier reads of its lines might still
have returned is gone. -/
def dropSlot (s : State) (k : Nat) : State :=
  let held := s.towers.flatMap (fun t => (t.2.slices.filter (fun e => !e.remote)).map (fun e => e.line))
  let gone := (s.lines.filter (fun c => c.key == k)).map (fun c => c.line)
  let mine (l : Nat) : Bool := Table.find s.lineKeys l == some k
  { s with
    past := s.past.filter (fun e => e.home.isSome || !(mine (lineOf e.addr) || gone.contains (lineOf e.addr))),
    lines := s.lines.filter (fun c => c.key != k), dirs := s.dirs.filter (fun d => !gone.contains d.line), msgs := s.msgs.filter (fun m => !gone.contains m.line),
    towers := s.towers.map (fun t => (t.1, { t.2 with slices := t.2.slices.filter (fun e => !(mine e.line || gone.contains e.line)) })),
    lineKeys := s.lineKeys.map (fun e => if e.2 = k ∧ held.contains e.1 then (e.1, lostBytes) else e) }

/-- A slot is cleared. -/
def clearSlot (s : State) (k : Nat) : State :=
  let s1 := dropSlot s k
  match Table.find s1.keys k with
  | some e => forgetKey s1 k e.key
  | none => s1

/-- R445. -/
def execKeyClear (s : State) : Result :=
  mailboxCommand "KEY_CLEAR" 0x43 8 s (fun s b =>
    let k := numAt b 0 2
    if 1023 < k ∨ !zeros b 2 6 then some (s, 2)
    else if slotInUse s k then some (s, 3)
    else some (clearSlot s k, 0))

/-! ## Scrub (R448 to R450) -/

/-- A range of 4 KB pages: its first byte and the byte after its last. -/
abbrev Span := Nat × Nat

/-- Bytes in ranges, those in several counted once, of ranges in the order of their bases. -/
def spanBytes (at_ : Nat) : List Span → Nat
  | [] => 0
  | (lo, hi) :: rest => (hi - max lo at_) + spanBytes (max at_ hi) rest

def inSpans (rs : List Span) (a : Nat) : Bool := rs.any (fun r => r.1 ≤ a && a < r.2)

/-- The HBM ranges of enabled playbill entries with a domain. -/
def domainRanges (s : State) (d : Nat) : List Span :=
  (s.playbill.filter (fun e => e.2.en && e.2.dom == d && isHbm (e.2.base * 4096))).map (fun e => (e.2.base * 4096, (e.2.limit + 1) * 4096))

/-- Rows of HBM are cleared: zero bytes under every key, no poison, no cached copy, no reservation. -/
def clearRanges (s : State) (rs : List Span) : State :=
  let hit (l : Nat) : Bool := inSpans rs (lineBase l)
  let settled := rs.foldl (fun s r => settleGlobal s r.1 (r.2 - r.1)) s
  { settled with
    former := s.former.filter (fun f => !inSpans rs f.addr), oddBytes := s.oddBytes.filter (fun e => !hit e.1),
    mem := s.mem.filter (fun c => !inSpans rs c.1), poison := s.poison.filter (fun g => !inSpans rs (32 * g)), lineKeys := s.lineKeys.filter (fun e => !hit e.1),
    lines := s.lines.filter (fun c => !hit c.line), dirs := s.dirs.filter (fun d => !hit d.line), msgs := s.msgs.filter (fun m => !hit m.line),
    wgs := s.wgs.map (fun w => { w with groups := w.groups.map (fun g => if g.reserved.any hit then { g with reserved := none } else g) }) }

/-- The units of a structure that carry a domain's mark, by the keys of their tables. -/
def markedUnits (s : State) (d lo hi : Nat) : Nat := (s.marks.filter (fun e => lo ≤ e.1 && e.1 < hi)).foldl (fun a e => a + Table.get e.2 d 0) 0

/-- Every mark of a domain goes, with the shadow banks of the cores where it stood, unless another's group holds them. -/
def dropMarks (s : State) (d : Nat) : State :=
  let cores := ((s.marks.filter (fun e => e.1 < 768 && Table.get e.2 d 0 != 0)).map (fun e => e.1)).filter (fun n => (coreOf s n).bank.isNone)
  cores.foldl (fun s n => modCore s n (fun k => { k with kregs := [], ksregs := [] })) { s with marks := s.marks.map (fun e => (e.1, Table.drop e.2 d)) }

/-- Bytes 0 to 127 of a stub. -/
def stubBody (d tstart tend : Nat) (nonce : List Byte) (counts : List Nat) : List Byte :=
  bytesOf 2 1 ++ bytesOf 2 d ++ bytesOf 4 0 ++ bytesOf 8 Config.devId.toNat ++ nonce ++ bytesOf 8 tstart ++ bytesOf 8 tend ++ counts.flatMap (bytesOf 8)

/-- The payload ranges of a SCRUB. -/
def payloadRanges (b : List Byte) : List Span := (List.range (numAt b 2 1)).map (fun i => (numAt b (48 + 16 * i) 8, numAt b (56 + 16 * i) 8 + 4096))

/-- A payload range is not one of whole pages of HBM. -/
def rangeBad (r : Span) : Bool := r.1 % 4096 != 0 || r.2 % 4096 != 0 || !isHbm r.1 || !isHbm (r.2 - 4096) || r.2 ≤ r.1

/-- Uncorrectable errors met while clearing are overwritten, each with an event: which units they strike, and how many of those cleared, is open (R448). -/
def scrubErrors (s : State) (cleared : Nat) : State :=
  (List.range (Config.choice s.draw 8400 % (cleared + 1))).foldl (fun t k =>
    let pick (i n : Nat) : Nat := Config.choice s.draw (8401 + 3 * k + i) % n
    unitEvent t 13 { code := 1 + pick 0 7, tower := pick 1 4, index := pick 2 (2 ^ 64) }) s

/-- R448: the steps of a scrub that is not refused, with the stub it writes. How many column-store units hold a mark from lines that have left the
cache the manual does not let one count: their number is free. -/
def scrubDomain (s : State) (d : Nat) (nonce : List Byte) (dest : Nat) (payload : List Span) : Option (State × Nat) :=
  let tstart := timeOf s
  let slots := (s.keys.filter (fun e => e.2.domain == d && !slotInUse s e.1)).map (fun e => e.1)
  let nslc := ((slots.flatMap (slotLines s)).eraseDups).length
  let ncache := (s.lines.filter (fun c => slots.contains c.key && (match c.agent with | .col _ => true | _ => false))).length
  let ncol := markedUnits s d 2000 2192 + ncache
  let ranges := domainRanges s d ++ payload
  let s1 := slots.foldl clearSlot s
  let s2 := dropMarks { s1 with keks := Table.drop s1.keks d, canopyKeys := Table.drop s1.canopyKeys d } d
  let counts := [markedUnits s d 0 768, markedUnits s d 1000 1768, ncol + Config.choice s.draw 8300 % (3145729 - min 3145728 ncol), nslc, markedUnits s d 3000 3004,
    spanBytes 0 (sortBy (fun a b => a.1 ≤ b.1) ranges) / 1024, slots.length, ranges.length]
  let s3 := clearRanges s2 ranges
  (putOutput { s3 with draw := s.draw + 1 } dest (signed512 (stubBody d tstart (timeOf s3) nonce counts))).map (fun e => (scrubErrors e.1 ((counts.take 6).foldl (· + ·) 0), e.2))

/-- R448. -/
def execScrub (s : State) : Result :=
  mailboxCommand "SCRUB" 0x44 s.mailbox.runLen s (fun s b =>
    let d := numAt b 0 2
    let ranges := payloadRanges b
    if s.mailbox.runLen ≠ 48 + 16 * numAt b 2 1 ∨ 32 < numAt b 2 1 ∨ 1023 < d ∨ !zeros b 3 5 ∨ destBad (numAt b 40 8) ∨ ranges.any rangeBad then some (s, 2)
    else if s.regions.any (fun r => domainOf s r == d) then some (s, 3)
    else scrubDomain s d (slice b 8 32) (numAt b 40 8) ranges)

/-! ## The admissions log (R447, R452) -/

/-- R447: set a log range. -/
def execLogRange (s : State) : Result :=
  mailboxCommand "LOG_RANGE" 0x48 24 s (fun s b =>
    let base := numAt b 8 8
    let limit := numAt b 16 8
    if 3 < numAt b 0 1 ∨ 63 < numAt b 1 1 ∨ 1 < numAt b 2 1 ∨ !zeros b 3 5 ∨ base % 4096 ≠ 0 ∨ limit % 4096 ≠ 0 ∨ !isBacked base ∨ !isBacked limit ∨ limit < base then some (s, 2)
    else
      let g : LogRange := { enabled := numAt b 2 1 == 1, base := base, limit := limit }
      some (modTower s (numAt b 0 1) (fun t => { t with logRanges := Table.put t.logRanges (numAt b 1 1) g }), 0))

/-- R447: set a tower's log area: the ring is empty. -/
def execLogArea (s : State) : Result :=
  mailboxCommand "LOG_AREA" 0x49 32 s (fun s b =>
    let base := numAt b 8 8
    let size := numAt b 16 8
    let ctr := numAt b 24 8
    if 3 < numAt b 0 1 ∨ !zeros b 1 7 ∨ base % 4096 ≠ 0 ∨ size % 4096 ≠ 0 ∨ !isBacked base ∨ (size ≠ 0 ∧ !isBacked (base + size - 1)) ∨ ctr % 8 ≠ 0 ∨ !isBacked ctr then some (s, 2)
    else some (modTower s (numAt b 0 1) (fun t => { t with logArea := some (base, size, ctr), logProduced := 0 }), 0))

/-- A batch before its digest. -/
def batchBody (tower serial : Nat) (prev : List Byte) (b : LogBatch) : List Byte :=
  let counts := b.counts.filter (fun c => c.reads != 0 || c.writes != 0)
  bytesOf 2 1 ++ bytesOf 1 tower ++ bytesOf 1 0 ++ bytesOf 4 counts.length ++ bytesOf 8 b.interval ++ bytesOf 8 serial ++ bytesOf 4 b.merged ++ bytesOf 36 0 ++ slice prev 0 64 ++
  counts.flatMap (fun c => bytesOf 1 c.range ++ bytesOf 1 c.cls ++ bytesOf 2 c.domain ++ bytesOf 4 0 ++ bytesOf 8 c.reads ++ bytesOf 8 c.writes ++ bytesOf 8 0)

/-- Write bytes into a ring from a position, round its end. -/
def ringPut (s : State) (base size pos : Nat) (bs : List Byte) : Option State :=
  let first := min bs.length (size - pos % size)
  (homeStore s (base + pos % size) (bs.take first)).bind (fun s1 => if first = bs.length then some s1 else homeStore s1 base (bs.drop first))

/-- Write a batch into a tower's log area, if the ring has room for it: positions and the consumer counter count bytes. -/
def writeBatch (s : State) (tower : Nat) (b : LogBatch) : Option State :=
  let t := towerOf s tower
  match t.logArea with
  | none => none
  | some (base, size, ctr) =>
    let body := batchBody tower t.logBatch t.logPrev b
    let whole := signed512 body
    match homeRead s ctr 8 with
    | none => none
    | some (s1, raw, _) =>
      if numOf raw + size < t.logProduced + whole.length then none
      else (ringPut s1 base size t.logProduced whole).map (fun s2 =>
        modTower s2 tower (fun t => { t with logProduced := t.logProduced + whole.length, logBatch := t.logBatch + 1, logPrev := digestOf body }))

/-- Fold the counts of a later interval into a batch. -/
def foldBatch (b : LogBatch) (counts : List LogCount) : LogBatch :=
  { b with merged := b.merged + 1, counts := counts.foldl (fun cs c => addCount cs c.range c.cls c.domain c.reads c.writes) b.counts }

/-- An interval of a tower ends: its batch is written, or waits, or is folded into the eighth that waits. -/
def closeInterval (s : State) (tower : Nat) : State :=
  let t := towerOf s tower
  let b : LogBatch := { interval := t.logInterval, merged := 0, counts := t.logCounts }
  let next (s : State) : State := modTower s tower (fun t => { t with logCounts := [], logInterval := t.logInterval + 1 })
  let wait : State := modTower s tower (fun t => { t with
    logWaiting := if t.logWaiting.length < 8 then t.logWaiting ++ [b] else modAt t.logWaiting 7 (fun w => foldBatch w b.counts) })
  next (if t.logWaiting.isEmpty then (writeBatch s tower b).getD wait else wait)

/-- R452: the batch of a tower whose interval of 2^20 ticks has ended. -/
def execAdmissionsBatch (s : State) : Result :=
  event "ADMISSIONS_BATCH" (
    if !s.booted || s.inReset then none
    else (firstWith (fun k => (towerOf s k).logInterval < timeOf s / 2 ^ 20) [0, 1, 2, 3]).map (closeInterval s))

/-- R452: a batch that waits is written once the ring has room. -/
def execLogBatchFlush (s : State) : Result :=
  event "LOG_BATCH_FLUSH" (
    [0, 1, 2, 3].findSome? (fun k => match (towerOf s k).logWaiting with
      | [] => none
      | b :: rest => (writeBatch s k b).map (fun s1 => modTower s1 k (fun t => { t with logWaiting := rest }))))

/-! ## Sahong's commands (R424, R447, R453) -/

/-- R447: set THRESH of a structure. -/
def execThreshSet (s : State) : Result :=
  mailboxCommand "THRESH_SET" 0x60 8 s (fun s b =>
    if numAt b 0 1 = 0 ∨ 11 < numAt b 0 1 ∨ numAt b 1 1 = 0 ∨ !zeros b 2 6 then some (s, 2)
    else some ({ s with thresh := Table.put s.thresh (numAt b 0 1) (numAt b 1 1) }, 0))

/-- R453: event records from an index on, with a signed trailer. FIRST is free where no record is written. -/
def execEvlogRead (s : State) : Result :=
  mailboxCommand "EVLOG_READ" 0x61 24 s (fun s b =>
    let n := numAt b 8 2
    let dest := numAt b 16 8
    if n = 0 ∨ 128 < n ∨ !zeros b 10 6 ∨ destBad dest then some (s, 2)
    else
      let recs := (s.events.filter (fun e => numAt b 0 8 ≤ numAt e 0 8)).take n
      let first := match recs with
        | e :: _ => slice e 0 8
        | [] => (List.range 8).map (fun k => Config.freeByte s.draw (6000 + k))
      let head := bytesOf 2 1 ++ bytesOf 2 recs.length ++ bytesOf 4 0 ++ bytesOf 8 Config.devId.toNat ++ first ++ bytesOf 8 (timeOf s) ++ bytesOf 32 0
      putOutput { s with draw := s.draw + 1 } dest (signed512 (recs.flatten ++ head)))

end Sys2Proof.Machine
end

