-- ==== Sys2Proof/Machine/Clock.lean ====
section
/-! DEFINITION. The reference, droop, thermal action, refresh, periodic counts, the release from reset, the debugger, illegal words and walks
(R100, R247, R354, R370, R414 to R420, R454, R457, R458). -/

namespace Sys2Proof.Machine

/-! ## The reference (R414) -/

/-- R414: the reference is lost. -/
def execReferenceLost (s : State) : Result :=
  event "REFERENCE_LOST" (
    if s.timeFree then none else some (sahong { s with timeFree := true, timeLoss := true, lossAt := some (timeOf s) } 9 0 255 0 0))

/-- R414: the reference has returned and the domain has relocked. -/
def execReferenceReturn (s : State) : Result :=
  event "REFERENCE_RETURN" (
    if !s.timeFree then none else some (sahong { s with timeFree := false, timeRet := true, returnAt := some (timeOf s) } 10 0 255 0 0))

/-! ## Droop (R418 to R420) -/

/-- The supply lies below the threshold of a column, in microvolts. -/
def droops (k : Column) (microvolts : Nat) : Bool := microvolts < 300000 + 4000 * k.drTh.toNat

/-- R419, R420: the supply of a column in its current cycle. An alarm in a stretch has no effect. -/
def execDroopAlarm (column microvolts : Nat) (s : State) : Result :=
  event "DROOP_ALARM" (
    let k := columnOf s column
    if 191 < column then none
    else if k.drEn && droops k microvolts && k.phase != .stretched && !k.alarm then
      some (modColumn s column (fun k => { k with alarm := true, drAlarms := min 0x7FFF (k.drAlarms + 1) }))
    else some s)

/-- The first column whose clock phase has run out. -/
def phaseOut (s : State) (p : ClockPhase) : Option Nat := firstWith (fun c => (columnOf s c).phase == p && (columnOf s c).left == 0) (List.range 192)

/-- R419: six stretched cycles are over, and 64 begin in which every second may issue. -/
def execStretchEnd (s : State) : Result :=
  event "STRETCH_END" ((phaseOut s .stretched).map (fun c => modColumn s c (fun k => { k with phase := .halved, left := 64 })))

/-- R419: the halved window is over. -/
def execHalvedWindowEnd (s : State) : Result :=
  event "HALVED_WINDOW_END" ((phaseOut s .halved).map (fun c => modColumn s c (fun k => { k with phase := .usual })))

/-! ## Thermal action (R457) -/

/-- R457: a core at 105.0 degrees for 1000 ticks halves the issue of its column. -/
def execOverheatHalving (s : State) : Result :=
  event "OVERHEAT_HALVING" (
    (firstWith (fun e => !(columnOf s (e.1 / 4)).overheat && (match e.2.overSince with | some t => t + 1000 ≤ timeOf s | none => false)) s.cores).map (fun e =>
      sahong (modColumn s (e.1 / 4) (fun k => { k with overheat := true })) 11 0 (e.1 / 192) e.1 0))

/-- R457: every core of an overheated column reads below 100.0 degrees. -/
def execOverheatHalvingEnd (s : State) : Result :=
  event "OVERHEAT_HALVING_END" (
    (firstWith (fun e => e.2.overheat && (coresOf e.1).all (fun n => (coreOf s n).reading < 400)) s.columns).map (fun e =>
      modColumn s e.1 (fun k => { k with overheat := false })))

/-- R457: a sensor at 120.0 degrees: every workgroup is lost, and the package holds in reset. -/
def execOvertempTrip (s : State) : Result :=
  event "OVERTEMP_TRIP" (
    if s.inReset then none
    else (firstWith (fun e => 480 ≤ e.2.reading) s.cores).map (fun e =>
      sahong { s with inReset := true, issue := none, wgs := s.wgs.map (fun w => { w with lost := some (w.lost.getD 0), stopped := true }) } 11 0 (e.1 / 192) e.1 0))

/-! ## Refresh (R458) -/

/-- The refresh period of a tower's canopy in ticks, by the highest reading of its third layer. -/
def refreshPeriod (s : State) (tower : Nat) : Nat :=
  let hot := (List.range 48).foldl (fun m c => max m (coreOf s (4 * (48 * tower + c) + 3)).reading) 0
  if hot < 340 then 16000000 else if hot ≤ 380 then 8000000 else 4000000

/-- R458: a canopy refreshes; no value changes (R18). -/
def execCanopyRefresh (s : State) : Result :=
  event "CANOPY_REFRESH" (
    (firstWith (fun t => (towerOf s t).refreshed + refreshPeriod s t ≤ timeOf s) [0, 1, 2, 3]).map (fun t =>
      modTower s t (fun k => { k with refreshed := timeOf s })))

/-! ## Access counts (R370) -/

/-- R370: every access count halves. -/
def execAccessCountHalving (s : State) : Result :=
  event "ACCESS_COUNT_HALVING" (
    if timeOf s / 2 ^ 20 ≤ s.halvedAt then none
    else
      let s1 : State := { s with halvedAt := s.halvedAt + 1, chunks := s.chunks.map (fun e => (e.1, { e.2 with counts := e.2.counts.map (· / 2) })) }
      some ((s1.chunks.map (fun e => e.1)).foldl checkMigration s1))

/-- R370: a chunk may ask for migration again. -/
def execMigrationHysteresisEnd (s : State) : Result :=
  event "MIGRATION_HYSTERESIS_END" (
    (firstWith (fun e => e.2.quietTill != 0 && e.2.quietTill ≤ timeOf s) s.chunks).map (fun e =>
      checkMigration { s with chunks := Table.put s.chunks e.1 { e.2 with quietTill := 0 } } e.1))

/-! ## Release from reset (R412, R416, R454) -/

/-- R454: the device is released from reset. Everything stands as after reset, HBM included, whose contents end with the device's span (R2, R3), but what
lies outside it: host memory, under the keys it was stored with, and what has been said to and by the outside. Where the firmware does not verify, the
package holds in reset. -/
def execDeviceReset (s : State) : Result :=
  event "DEVICE_RESET" (
    let s0 := s.keys.foldl (fun s e => forgetKey s e.1 e.2.key) s
    let fresh : State := { State.reset with
      mem := s0.mem.filter (fun c => !isHbm c.1), poison := s0.poison.filter (fun g => !isHbm (32 * g)),
      lineKeys := s0.lineKeys.filter (fun e => !isHbm (lineBase e.1)), oddBytes := s0.oddBytes.filter (fun e => !isHbm (lineBase e.1)), formerKeys := s0.formerKeys, nextId := s0.nextId, draw := s0.draw + 1,
      answers := s0.answers, signals := s0.signals, agenda := s0.agenda.map (fun e => (e.1 - s0.now, e.2)), device := s0.device, hostBase := s0.hostBase,
      booted := true }
    some (if Config.firmwareVerifies then { fresh with xlat := (List.range 8).map (fun k => (true, Config.xlatLat k)) }
      else { fresh with inReset := true, bootFailed := true }))

/-! ## Illegal words (R100, R103) -/

/-- R100: a word with an illegal opcode raises an illegal-instruction trap. -/
def execIllegalOpcodeWord (word : DWord) (s : State) : Result :=
  runWord s (fun _ => { instr := .illegalOpcodeWord word, mark := false }) (fun _ _ => .trap 1 0 127 word)

/-! ## Walks (R354, R359, R360) -/

/-- R354: a page-table walk finishes: it sets A and D in a leaf, and the TLBs hold the leaf. -/
def execTranslationWalkComplete (column space : Nat) (va : DWord) (write : Bool) (s : State) : Result :=
  event "TRANSLATION_WALK_COMPLETE" (
    if 191 < column || !canonical va then none
    else (walk s space va).bind (fun e => touchPage e.1 column space va e.2 write))

/-! ## The debugger (R39, R247, R299) -/

/-- A debugger's access to a group's state, which has to be in a core: a demoted group is recalled, and the request waits for it. -/
def withGroup (s : State) (x : SplitId) (request : DebugRequest) (f : State → Group → State) : State :=
  match groupFind s (groupOf x) with
  | none => s
  | some g =>
    match g.residence with
    | .core => f s g
    | .canopy none =>
      let cycle := (columnOf s (((wgFind s x.wg).map (fun w => w.column)).getD 0)).cycle
      { modGroup s (groupOf x) (fun g => { g with residence := .canopy (some cycle) }) with
        agenda := (s.now + 1, .event (.debuggerAccess request)) :: s.agenda }
    | _ => { s with agenda := (s.now + 1, .event (.debuggerAccess request)) :: s.agenda }

/-- A split that a breakpoint stopped goes on where it stood, as `rett` would have it. -/
def releaseDebug (s : State) (x : SplitId) : State :=
  match ctxOf s x with
  | none => s
  | some c =>
    if c.p.state = .debug then
      let s1 := modSplit s x (fun p => { p with state := .running, pc := p.trapPc })
      releaseBank (modGroup s1 (groupOf x) (fun g => { g with handler := none })) c.w.core
    else s

/-- What a debugger's request does while it is attached. -/
def debugStep (s : State) (request : DebugRequest) : State :=
  match request with
  | .attach => { s with debugger := true }
  | .detach => { s with debugger := false }
  | .readShadowVector core k l => if core < 768 ∧ k < 8 ∧ l < 96 then answer s 0 (bytesOf 4 (lane (Table.get (coreOf s core).kregs k []) l).toNat) false else s
  | .writeShadowVector core k l v =>
    if core < 768 ∧ k < 8 ∧ l < 96 then
      modCore s core (fun c => { c with kregs := Table.put c.kregs k (ofLanes (fun i => if i = l then v else lane (Table.get c.kregs k []) i)) })
    else s
  | .readShadowScalar core k => if core < 768 ∧ k < 16 then answer s 0 (bytesOf 4 (Table.get (coreOf s core).ksregs k 0).toNat) false else s
  | .writeShadowScalar core k v => if core < 768 ∧ k < 16 then modCore s core (fun c => { c with ksregs := Table.put c.ksregs k v }) else s
  | .readScalar x n => withGroup s x request (fun s g => match g.splits[x.slot]? with
      | some p => if n < 64 then answer s 0 (bytesOf 4 (Table.get p.scalars n 0).toNat) false else s
      | none => s)
  | .writeScalar x n v => withGroup s x request (fun s _ => if n = 0 ∨ 63 < n then s else modSplit s x (fun p => { p with scalars := Table.put p.scalars n v }))
  | .readVector x n l => withGroup s x request (fun s g => if n < 128 ∧ l < 96 then answer s 0 (bytesOf 4 (lane (Table.get g.vregs n []) l).toNat) false else s)
  | .writeVector x n l v => withGroup s x request (fun s _ =>
      if n < 128 ∧ l < 96 then
        modGroup s (groupOf x) (fun g => { g with vregs := Table.put g.vregs n (ofLanes (fun i => if i = l then v else lane (Table.get g.vregs n []) i)) })
      else s)
  | .release x => releaseDebug s x

/-- R247: a debugger that is attached through Sahong reads or writes; before it attaches nothing but its attaching has an effect. -/
def execDebuggerAccess (request : DebugRequest) (s : State) : Result :=
  event "DEBUGGER_ACCESS" (some (if s.debugger || request == .attach then debugStep s request else s))

end Sys2Proof.Machine
end

