-- ==== Sys2Proof/Machine/Mask.lean ====
section
/-! DEFINITION. Mask and mode words (R144 to R146), votes and predicate words (R212, R213). -/

namespace Sys2Proof.Machine

/-- A word that writes a triple. -/
def maskWord (i : Instr) (f : SF) (r : Ctx → Mask) (s : State) : Result :=
  runWord s (fun _ => sForm i f) (fun s c => .done (writeTriple s c f.sd.toNat (r c)) .next)

/-- A word that writes one scalar. -/
def countWord (i : Instr) (f : SF) (r : Ctx → Nat) (s : State) : Result :=
  runWord s (fun _ => sForm i f) (fun s c => .done (writeS s c f.sd.toNat (r c)) .next)

/-- The second operand: a triple, or three copies of the immediate (R144). -/
def maskB (f : SF) (c : Ctx) : Mask :=
  if f.sb = 0 then BitVec.ofNat 96 (f.imm.toNat * (1 + 2 ^ 32 + 2 ^ 64)) else c.triple f.sb.toNat

/-- Mask(A) of R145. -/
def maskLive (f : SF) (c : Ctx) : Mask := c.triple f.sa.toNat &&& c.alive

/-- The lowest lane of a mask, or 96. -/
def firstLane (m : Mask) : Nat := (lanesOf m).headD 96

/-- R145: every owned lane that has not exited. -/
def execMset (f : SF) (s : State) : Result := maskWord (.mset f) f (fun c => c.alive) s
/-- R145: AND. -/
def execMand (f : SF) (s : State) : Result := maskWord (.mand f) f (fun c => c.triple f.sa.toNat &&& maskB f c) s
/-- R145: OR. -/
def execMor (f : SF) (s : State) : Result := maskWord (.mor f) f (fun c => c.triple f.sa.toNat ||| maskB f c) s
/-- R145: AND NOT. -/
def execMandn (f : SF) (s : State) : Result := maskWord (.mandn f) f (fun c => c.triple f.sa.toNat &&& ~~~ maskB f c) s
/-- R145: XOR. -/
def execMxor (f : SF) (s : State) : Result := maskWord (.mxor f) f (fun c => c.triple f.sa.toNat ^^^ maskB f c) s
/-- R145: NOT. -/
def execMnot (f : SF) (s : State) : Result := maskWord (.mnot f) f (fun c => ~~~ c.triple f.sa.toNat) s
/-- R145: a predicate as a triple. -/
def execMfromp (f : SF) (s : State) : Result := maskWord (.mfromp f) f (fun c => c.pr (field f.sa 0 3)) s
/-- R145: the number of lanes. -/
def execMcnt (f : SF) (s : State) : Result := countWord (.mcnt f) f (fun c => maskCount (maskLive f c)) s
/-- R145: the lowest lane. -/
def execMfirst (f : SF) (s : State) : Result := countWord (.mfirst f) f (fun c => firstLane (maskLive f c)) s

/-- A word that writes a predicate in the lanes that Active() and the guard permit, with no shadow (R144, R213). -/
def predWord (i : Instr) (f : SF) (r : Ctx → Mask) (s : State) : Result :=
  runWord s (fun _ => sForm i f) (fun s c => .done (writeP s c (field f.sd 0 3) c.writes (r c) 0) .next)

/-- R145: a triple as a predicate. -/
def execMtop (f : SF) (s : State) : Result := predWord (.mtop f) f (fun c => c.triple f.sa.toNat) s

/-- The value that `mode` asks for (R146). -/
def modeWanted (f : SF) (c : Ctx) : Nat :=
  let b := opB f c
  if f.fn = 0 then b
  else
    let k := (c.s f.sa.toNat).toNat
    (b &&& k) ||| (c.mode 0 32 &&& (2 ^ 32 - 1 - k))

/-- MODE holds no such value (R41). -/
def modeBad (v : Nat) : Bool := v / 2 ^ 14 != 0 || 12 ≤ v % 16

/-- R146: write MODE, or trap with the rejected value. -/
def execMode (f : SF) (s : State) : Result :=
  runWord s (fun _ => sForm (.mode f) f) (fun s c =>
    let v := modeWanted f c
    if modeBad v then .trap 1 0 127 (BitVec.ofNat 64 v)
    else .done (modSplit s c.x (fun p => { p with mode := BitVec.ofNat 64 v })) .next)

/-- R145: read MODE. -/
def execRmode (f : SF) (s : State) : Result :=
  runWord s (fun _ => sForm (.rmode f) f) (fun s c => .done (writeScalar s c f.pair f.sd.toNat c.p.mode.toNat) .next)

/-! ## Votes (R212) -/

/-- The lanes of a vote: p[N] and Active(). -/
def voteLanes (f : SF) (c : Ctx) : Mask := c.pr (field f.sa 0 3) &&& c.active

/-- R212: any. -/
def execVany (f : SF) (s : State) : Result := countWord (.vany f) f (fun c => if voteLanes f c = 0 then 0 else 1) s
/-- R212: all. -/
def execVall (f : SF) (s : State) : Result := countWord (.vall f) f (fun c => if voteLanes f c = c.active then 1 else 0) s
/-- R212: the ballot. -/
def execVballot (f : SF) (s : State) : Result := maskWord (.vballot f) f (voteLanes f) s
/-- R212: the count. -/
def execVcount (f : SF) (s : State) : Result := countWord (.vcount f) f (fun c => maskCount (voteLanes f c)) s

/-! ## Predicates (R213) -/

/-- R213: AND. -/
def execPand (f : SF) (s : State) : Result := predWord (.pand f) f (fun c => c.pr (field f.sa 0 3) &&& c.pr (field f.sb 0 3)) s
/-- R213: OR. -/
def execPor (f : SF) (s : State) : Result := predWord (.por f) f (fun c => c.pr (field f.sa 0 3) ||| c.pr (field f.sb 0 3)) s
/-- R213: XOR. -/
def execPxor (f : SF) (s : State) : Result := predWord (.pxor f) f (fun c => c.pr (field f.sa 0 3) ^^^ c.pr (field f.sb 0 3)) s
/-- R213: NOT. -/
def execPnot (f : SF) (s : State) : Result := predWord (.pnot f) f (fun c => ~~~ c.pr (field f.sa 0 3)) s

end Sys2Proof.Machine
end

