-- ==== Sys2Proof/Machine/ScalarAlu.lean ====
section
/-! DEFINITION. The scalar arithmetic and logic words (R125 to R128). -/

namespace Sys2Proof.Machine

/-- R125: the word writes its result, with no shadow. -/
def scalarWord (i : Instr) (f : SF) (r : State → Ctx → Nat) (s : State) : Result :=
  runWord s (fun _ => sForm i f) (fun s c => .done (writeScalar s c f.pair f.sd.toNat (r s c)) .next)

/-- R50: the result of `sdiv` or `srem` arrives later. -/
def laterScalarWord (i : Instr) (f : SF) (r : Ctx → Nat) (s : State) : Result :=
  runWord s (fun _ => sForm i f) (fun s c => .done (laterResult s c (destScalars c f.pair f.sd.toNat (r c)) 0) .next)

/-- FN[0] of `smulh`, `sdiv`, `srem`: 0 signed, 1 unsigned. -/
def fnSigned (f : SF) : Bool := f.fn == 0

/-- High W bits of the exact product. -/
def mulHigh (w : Nat) (sgn : Bool) (a b : Nat) : Nat := wrap w (elemInt w sgn a * elemInt w sgn b / (2 : Int) ^ w)

/-- The quotient rounded toward zero; all ones for a zero divisor. -/
def divTrunc (w : Nat) (sgn : Bool) (a b : Nat) : Nat :=
  if b % 2 ^ w = 0 then 2 ^ w - 1 else wrap w ((elemInt w sgn a).tdiv (elemInt w sgn b))

/-- a − b × quotient; a for a zero divisor. -/
def remTrunc (w : Nat) (sgn : Bool) (a b : Nat) : Nat :=
  if b % 2 ^ w = 0 then a % 2 ^ w else wrap w ((elemInt w sgn a).tmod (elemInt w sgn b))

/-- pos and wid of R127. -/
def fieldPos (b : Nat) : Nat := b % 64
def fieldWid (w b : Nat) : Nat := min (b / 256 % 64) w

/-- The extensions of `sext` (R126): kinds 0 to 2 sign-extend 8, 16, 32 bits, 3 to 5 zero-extend. -/
def extendKind (w kind a : Nat) : Nat :=
  let n := if kind % 3 = 0 then 8 else if kind % 3 = 1 then 16 else 32
  if kind < 3 then wrap w (signed n a) else a % 2 ^ n

/-- R126: a + b. -/
def execSadd (f : SF) (s : State) : Result :=
  scalarWord (.sadd f) f (fun _ c => (opA f c) + (opB f c)) s

/-- R126: a − b. -/
def execSsub (f : SF) (s : State) : Result :=
  scalarWord (.ssub f) f (fun _ c => wrap 64 ((opA f c) - (opB f c) : Int)) s

/-- R126: the low W bits of a × b. -/
def execSmul (f : SF) (s : State) : Result :=
  scalarWord (.smul f) f (fun _ c => (opA f c) * (opB f c)) s

/-- R126: the high W bits of the product. -/
def execSmulh (f : SF) (s : State) : Result :=
  scalarWord (.smulh f) f (fun _ c => mulHigh (sWidth f) (fnSigned f) (opA f c) (opB f c)) s

/-- R126: a AND b. -/
def execSand (f : SF) (s : State) : Result :=
  scalarWord (.sand f) f (fun _ c => (opA f c) &&& (opB f c)) s

/-- R126: a OR b. -/
def execSor (f : SF) (s : State) : Result :=
  scalarWord (.sor f) f (fun _ c => (opA f c) ||| (opB f c)) s

/-- R126: a XOR b. -/
def execSxor (f : SF) (s : State) : Result :=
  scalarWord (.sxor f) f (fun _ c => (opA f c) ^^^ (opB f c)) s

/-- R126: a AND NOT b. -/
def execSandn (f : SF) (s : State) : Result :=
  scalarWord (.sandn f) f (fun _ c => (opA f c) &&& (2 ^ (sWidth f) - 1 - (opB f c))) s

/-- R126: shift left. -/
def execSshl (f : SF) (s : State) : Result :=
  scalarWord (.sshl f) f (fun _ c => shl (sWidth f) (opA f c) ((opB f c) % 2 ^ 32)) s

/-- R126: logical shift right. -/
def execSshr (f : SF) (s : State) : Result :=
  scalarWord (.sshr f) f (fun _ c => shr (sWidth f) (opA f c) ((opB f c) % 2 ^ 32)) s

/-- R126: arithmetic shift right. -/
def execSsar (f : SF) (s : State) : Result :=
  scalarWord (.ssar f) f (fun _ c => sar (sWidth f) (opA f c) ((opB f c) % 2 ^ 32)) s

/-- R126: signed minimum. -/
def execSmin (f : SF) (s : State) : Result :=
  scalarWord (.smin f) f (fun _ c => if signed (sWidth f) (opA f c) ≤ signed (sWidth f) (opB f c) then (opA f c) else (opB f c)) s

/-- R126: signed maximum. -/
def execSmax (f : SF) (s : State) : Result :=
  scalarWord (.smax f) f (fun _ c => if signed (sWidth f) (opA f c) ≤ signed (sWidth f) (opB f c) then (opB f c) else (opA f c)) s

/-- R126: unsigned minimum. -/
def execSminn (f : SF) (s : State) : Result :=
  scalarWord (.sminn f) f (fun _ c => min (opA f c) (opB f c)) s

/-- R126: unsigned maximum. -/
def execSmaxn (f : SF) (s : State) : Result :=
  scalarWord (.smaxn f) f (fun _ c => max (opA f c) (opB f c)) s

/-- R126, R94: 1 if the condition holds. -/
def execSset (f : SF) (s : State) : Result :=
  scalarWord (.sset f) f (fun _ c => if condHolds (sWidth f) f.fn.toNat (opA f c) (opB f c) then 1 else 0) s

/-- R126: a if the old SD is not zero, else b. -/
def execSsel (f : SF) (s : State) : Result :=
  scalarWord (.ssel f) f (fun _ c => if oldD f c ≠ 0 then (opA f c) else (opB f c)) s

/-- R126: a. -/
def execSmov (f : SF) (s : State) : Result :=
  scalarWord (.smov f) f (fun _ c => (opA f c)) s

/-- R126: the immediate. -/
def execSli (f : SF) (s : State) : Result :=
  scalarWord (.sli f) f (fun _ _ => immAt f (sWidth f)) s

/-- R126: the number of set bits. -/
def execSpopc (f : SF) (s : State) : Result :=
  scalarWord (.spopc f) f (fun _ c => popCount (sWidth f) (opA f c)) s

/-- R126: leading zeros. -/
def execSclz (f : SF) (s : State) : Result :=
  scalarWord (.sclz f) f (fun _ c => clz (sWidth f) (opA f c)) s

/-- R126: trailing zeros. -/
def execSctz (f : SF) (s : State) : Result :=
  scalarWord (.sctz f) f (fun _ c => ctz (sWidth f) (opA f c)) s

/-- R127: FindNth. -/
def execSfns (f : SF) (s : State) : Result :=
  scalarWord (.sfns f) f (fun _ c => findNth (sWidth f) (opA f c) ((opB f c) % 2 ^ 32)) s

/-- R126: bit reversal. -/
def execSbrev (f : SF) (s : State) : Result :=
  scalarWord (.sbrev f) f (fun _ c => bitRev (sWidth f) (opA f c)) s

/-- R126: extension. -/
def execSext (f : SF) (s : State) : Result :=
  scalarWord (.sext f) f (fun _ c => extendKind (sWidth f) f.fn.toNat (opA f c)) s

/-- R127: Extract. -/
def execSbfx (f : SF) (s : State) : Result :=
  scalarWord (.sbfx f) f (fun _ c => bitExtract (sWidth f) (opA f c) (fieldPos (opB f c)) (fieldWid (sWidth f) (opB f c)) (f.fn == 1)) s

/-- R127: Insert. -/
def execSbfi (f : SF) (s : State) : Result :=
  scalarWord (.sbfi f) f (fun _ c => bitInsert (sWidth f) (oldD f c) (opA f c) (fieldPos (opB f c)) (fieldWid (sWidth f) (opB f c))) s

/-- R126: the quotient, later. -/
def execSdiv (f : SF) (s : State) : Result := laterScalarWord (.sdiv f) f (fun c => divTrunc (sWidth f) (fnSigned f) (opA f c) (opB f c)) s

/-- R126: the remainder, later. -/
def execSrem (f : SF) (s : State) : Result := laterScalarWord (.srem f) f (fun c => remTrunc (sWidth f) (fnSigned f) (opA f c) (opB f c)) s

/-- R128: TIME as the word issues. -/
def execSrdt (f : SF) (s : State) : Result := scalarWord (.srdt f) f (fun s _ => timeOf s) s

end Sys2Proof.Machine
end

