-- ==== Sys2Proof/Machine/Special.lean ====
section
/-! DEFINITION. The special functions: exact cases, bounds, and the one value within them (R85, R86, R179 to R181). -/

namespace Sys2Proof.Machine

/-! ## Fixed-point approximations -/

/-- The scale of the approximations, and the constants π, ln 2 and log₂ e at it. -/
def unitQ : Nat := 2 ^ 360
def piQ : Nat := 7378164124685073364946466746278833415236614746553882654180771203405339206596172970189876069459220903288557364
def ln2Q : Nat := 1627885669674654482892730355379880326740837341145762307478155254432806869487692530383219780894837018285243210
def log2eQ : Nat := 3388230737484367056375848061802888330079743465685600416390824876643867776598936957335837400666439459469716354

/-- The integer square root of a number below `2 ^ (2 * bits)`. -/
def isqrt (bits v : Nat) : Nat :=
  (List.range bits).foldl (fun r i => let t := r + 2 ^ (bits - 1 - i); if t * t ≤ v then t else r) 0

/-- Terms `k` on of the exponential series of `z / unitQ`, the last one being `term`. -/
def expSeries (z : Nat) : Nat :=
  ((List.range 74).foldl (fun (acc : Nat × Nat) k => let t := acc.1 * z / unitQ / (k + 1); (t, acc.2 + t)) (unitQ, unitQ)).2

/-- `2 ^ (f / unitQ)`, scaled, for `f` below `unitQ`. -/
def exp2Q (f : Nat) : Nat := expSeries (f * ln2Q / unitQ)

/-- `log₂ (m / unitQ)`, scaled, for `m` from `unitQ` to `2 * unitQ`: one bit a step. -/
def log2Q (m : Nat) : Nat :=
  ((List.range 350).foldl (fun (acc : Nat × Nat) k =>
    let sq := acc.1 * acc.1 / unitQ
    if 2 * unitQ ≤ sq then (sq / 2, acc.2 + unitQ / 2 ^ (k + 1)) else (sq, acc.2)) (m, 0)).2

/-- Terms of a series in the signed square `z2`, scaled, whose term `k + 1` is term `k` times `z2` over `by_ k`. -/
def squareSeries (z2 : Int) (by_ : Nat → Nat) : Int :=
  ((List.range 44).foldl (fun (acc : Int × Int) (k : Nat) =>
    let t := acc.1 * z2 / (unitQ : Int) / (by_ k : Int)
    (t, acc.2 + t)) ((unitQ : Int), (unitQ : Int))).2

/-- `sin z / z` or `sinh z / z`, and `cosh z`, from the square of `z` (negative for the sine). -/
def oddSeries (z2 : Int) : Int := squareSeries z2 (fun k => (2 * k + 2) * (2 * k + 3))
def evenSeries (z2 : Int) : Int := squareSeries z2 (fun k => (2 * k + 1) * (2 * k + 2))

/-! ## Exact values and enclosures -/

/-- A value of a special function: exact, or within a relative `2 ^ -300` of a fraction. -/
inductive Enclosed where
  | exact (v : Val)
  | near (neg : Bool) (num den : Nat)
  deriving DecidableEq, Repr

/-- A power of two that a fraction is, if it is one. -/
def powerOfTwo (n d : Nat) : Option Int :=
  let e := floorLog2 n d
  if (if 0 ≤ e then n = d * 2 ^ e.toNat else n * 2 ^ (-e).toNat = d) then some e else none

/-- The square root of a fraction with at least 320 significant bits, and whether it is exact. -/
def rootOf2 (n d : Nat) : Nat × Int × Bool :=
  let k : Int := 330 - floorLog2 n d / 2
  let v := if 0 ≤ k then n * 2 ^ (2 * k.toNat) else n / 2 ^ (2 * (-k).toNat)
  let r := isqrt 340 (v / d)
  (r, -k, r * r * d == v && decide (0 ≤ k))

/-- `2 ^ x` of a signed fraction: exact at the integers whose power fp32 can hold (R180). -/
def exp2Of (neg : Bool) (n d : Nat) : Enclosed :=
  let u : Int := (if neg then -(n : Int) else n)
  let i : Int := u.fdiv d
  let f : Nat := ((u - i * d) * unitQ / d).toNat
  if (u - i * d) = 0 then (if -149 ≤ i ∧ i < 2000 then .exact (.scaled false 1 i) else if i < 0 then .near false 1 (2 ^ min 2000 i.natAbs) else .near false (2 ^ 2000) 1)
  else if 2000 < i.natAbs then (if i < 0 then .near false 1 (2 ^ 2000) else .near false (2 ^ 2000) 1)
  else if 0 ≤ i then .near false (exp2Q f * 2 ^ i.toNat) unitQ else .near false (exp2Q f) (unitQ * 2 ^ (-i).toNat)

/-- `log₂` of a positive fraction. -/
def log2Of (n d : Nat) : Enclosed :=
  match powerOfTwo n d with
  | some e => .exact (.ofInt e)
  | none =>
    let e := floorLog2 n d
    let m := if 0 ≤ e then n * unitQ / (d * 2 ^ e.toNat) else n * 2 ^ (-e).toNat * unitQ / d
    let y : Int := e * unitQ + log2Q m
    .near (y < 0) y.natAbs unitQ

/-- `sin (π x)` of a signed fraction reduced modulo 2, for x not zero; `zero` is its value at integers. -/
def sinPiOf (neg : Bool) (n d : Nat) : Enclosed :=
  let u : Int := (if neg then -(n : Int) else n)
  let r : Nat := (u.emod (2 * d)).toNat
  let below := r < d
  let h := if below then r else r - d
  if h = 0 then .exact (.zero false)
  else if 2 * h = d then .exact (.fin (!below) 1 1)
  else
    let t := if 2 * h < d then h else d - h
    let z2 := piQ * piQ * t * t / (d * d * unitQ)
    .near (!below) (t * piQ * (oddSeries (-(z2 : Int))).natAbs) (d * unitQ * unitQ)

/-- `tanh` of a positive fraction. -/
def tanhOf (neg : Bool) (n d : Nat) : Enclosed :=
  if d * 64 ≤ n then .near neg (2 ^ 184 - 1) (2 ^ 184)
  else if n < d then
    let z2 : Int := (n * n * unitQ / (d * d) : Nat)
    .near neg (n * (oddSeries z2).natAbs) (d * (evenSeries z2).natAbs)
  else
    let u := 2 * n * log2eQ / d
    let i := u / unitQ
    let e := exp2Q (u % unitQ) * 2 ^ i
    .near neg (e - unitQ) (e + unitQ)

/-- The special values and exact cases of R180, and the rest as enclosures. Functions: 0 frcp, 1 frsqrt, 2 fsqrt, 3 fexp2, 4 flog2,
5 fsinpi, 6 fcospi, 7 ftanh. -/
def specialValue (fn : Nat) (v : Val) : Enclosed :=
  match v with
  | .nan => .exact .nan
  | .inf neg =>
    match fn with
    | 0 => .exact (.zero neg)
    | 1 => .exact (if neg then .nan else .zero false)
    | 2 => .exact (if neg then .nan else .inf false)
    | 3 => .exact (if neg then .zero false else .inf false)
    | 4 => .exact (if neg then .nan else .inf false)
    | 7 => .exact (.fin neg 1 1)
    | _ => .exact .nan
  | .fin neg n d =>
    if n = 0 then
      match fn with
      | 0 => .exact (.inf neg)
      | 1 => .exact (.inf neg)
      | 3 => .exact (.fin false 1 1)
      | 4 => .exact (.inf true)
      | 6 => .exact (.fin false 1 1)
      | _ => .exact (.zero neg)
    else
      match fn with
      | 0 => match powerOfTwo n d with
        | some e => .exact (.scaled neg 1 (-e))
        | none => .near neg d n
      | 1 =>
        if neg then .exact .nan
        else match powerOfTwo n d with
          | some e => if e % 2 = 0 then .exact (.scaled false 1 (-(e / 2))) else let r := rootOf2 d n; (scaledNear r)
          | none => let r := rootOf2 d n; (scaledNear r)
      | 2 => if neg then .exact .nan else let r := rootOf2 n d; (scaledNear r)
      | 3 => exp2Of neg n d
      | 4 => if neg then .exact .nan else log2Of n d
      | 5 => sinPiOf neg n d
      | 6 => match sinPiOf false (halfMore neg n d).1 (halfMore neg n d).2 with
        | .exact w => .exact w
        | e => e
      | _ => tanhOf neg n d
where
  scaledNear (r : Nat × Int × Bool) : Enclosed :=
    if 0 ≤ r.2.1 then .near false (r.1 * 2 ^ r.2.1.toNat) 1 else .near false r.1 (2 ^ (-r.2.1).toNat)
  halfMore (neg : Bool) (n d : Nat) : Nat × Nat :=
    let u : Int := (if neg then -(n : Int) else n) * 2 + d
    ((u.emod (4 * d)).toNat, 2 * d)

/-! ## The value within the bounds (R85, R86) -/

/-- fp32 codes in the order of their values: −0 just below +0. -/
def codeOrd (c : Nat) : Int := if c < 2 ^ 31 then c else -((c - 2 ^ 31 : Nat) : Int) - 1
def ordCode (i : Int) : Nat := if 0 ≤ i then i.toNat else 2 ^ 31 + (-i - 1).toNat

/-- A signed fraction as a value. -/
def fracVal (n : Int) (d : Nat) : Val := .fin (n < 0) n.natAbs d

/-- The error bound of a function at a magnitude, as a fraction: ulps, or 2^-22. -/
def errorBound (fn n d : Nat) : Nat × Nat :=
  if fn = 5 ∨ fn = 6 then (1, 2 ^ 22)
  else
    let e := min (fp32.spacing n d) 104
    let b := if fn = 0 ∨ fn = 1 then 1 else 2
    if 0 ≤ e then (b * 2 ^ e.toNat, 1) else (b, 2 ^ (-e).toNat)

/-- The largest finite fp32 magnitude. -/
def fp32Top : Nat := (2 ^ 24 - 1) * 2 ^ 104

/-- The fp32 result of a special function other than `fsqrt`, before its flush: the fixed choice within the bounds. -/
def special32 (fn mode : Nat) (ftz : Bool) (code : Nat) (v : Val) : Nat :=
  match specialValue fn v with
  | .exact w => fp32.encode mode w
  | .near neg n d =>
    if fp32Top * d < n then (if overInf mode neg then fp32.inf neg else fp32.largest neg)
    else
      let b := errorBound fn n d
      let y : Int := if neg then -(n : Int) else n
      -- y ± (bound + |y| × 2^-300), over the common denominator; no code stands that near to a bound
      let den := d * b.2 * 2 ^ 300
      let slack : Int := (b.1 * d * 2 ^ 300 + n * b.2 : Nat)
      let mid := y * (b.2 * 2 ^ 300 : Nat)
      let lo := codeOrd (fp32.encode 2 (fracVal (mid - slack) den))
      let hi := codeOrd (fp32.encode 3 (fracVal (mid + slack) den))
      let count := (hi - lo + 1).toNat
      ordCode (lo + (Config.sfPick fn code mode ftz 8 count % count : Nat))

/-- The correctly rounded square root in a format. -/
def sqrtIn (f : Fp) (mode : Nat) (v : Val) : Nat :=
  match v with
  | .fin false n d =>
    if n = 0 then f.pack false 0 0
    else
      let r := rootOf2 n d
      let m := if r.2.2 then 2 * r.1 else 2 * r.1 + 1
      f.encode mode (.scaled false m (r.2.1 - 1))
  | _ => match specialValue 2 v with
    | .exact w => f.encode mode w
    | .near .. => f.nan

/-- The largest finite magnitude of a format of R62. -/
def topMagnitude (f : Fp) : Nat := (2 ^ f.p + f.topFrac) * 2 ^ (f.topExp - f.bias.toNat - f.p)

/-- One element of a special function under an element type (R179). -/
def specialElem (fn et mode : Nat) (ftz : Bool) (bits : Nat) : Nat :=
  let f := fpOf et
  let v := f.read ftz bits
  if fn = 2 then f.flush ftz (sqrtIn f mode v)
  else
    let y := special32 fn mode ftz (fp32.encode 0 v) v
    if et = 8 then fp32.flush ftz y
    else
      let yv := fp32.value y
      let r := match yv with
        | .fin neg n d => if topMagnitude f * d < n then (if overInf mode neg then f.inf neg else f.largest neg) else f.encode 0 yv
        | _ => f.encode 0 yv
      f.flush ftz r

/-- A special-function word: its result arrives later (R181). -/
def specialWord (i : Instr) (f : V2I) (fn : Nat) (s : State) : Result :=
  runWord s (fun _ => { instr := i, mark := f.mark, checks := v2Checks f 1, needs := { special := true } }) (fun s c =>
    let srcs := v2Srcs f 1 false
    let vals := lanewise c srcs (perElem c.et (fun x => specialElem fn c.et c.rnd c.ftz (arg x 0)))
    let cycle := (columnOf s c.w.column).cycle
    let start := (s.flights.filter (fun g => c.core.special.contains g.id)).foldl (fun m g => max m g.readyAt) cycle
    let ready := start + (if c.et = 8 then 12 else 24)
    etGate i c (c.et == 8 || c.et == 10 || c.et == 11) []
      (let s1 := modCore (vectorIssue s c srcs (heldSource f.hold srcs) 1) c.w.core (fun k => { k with special := k.special ++ [s.nextId] })
       .done (laterResult s1 c [destOf (vref c f.d.toNat) c.writes (.lanes (vals.map (BitVec.ofNat 32)))] ready) .next))

/-- R179: 1 / x. -/
def execFrcp (f : V2I) (s : State) : Result := specialWord (.frcp f) f 0 s
/-- R179: 1 / √x. -/
def execFrsqrt (f : V2I) (s : State) : Result := specialWord (.frsqrt f) f 1 s
/-- R179: √x. -/
def execFsqrt (f : V2I) (s : State) : Result := specialWord (.fsqrt f) f 2 s
/-- R179: 2 to the power x. -/
def execFexp2 (f : V2I) (s : State) : Result := specialWord (.fexp2 f) f 3 s
/-- R179: log₂ x. -/
def execFlog2 (f : V2I) (s : State) : Result := specialWord (.flog2 f) f 4 s
/-- R179: sin(πx). -/
def execFsinpi (f : V2I) (s : State) : Result := specialWord (.fsinpi f) f 5 s
/-- R179: cos(πx). -/
def execFcospi (f : V2I) (s : State) : Result := specialWord (.fcospi f) f 6 s
/-- R179: tanh x. -/
def execFtanh (f : V2I) (s : State) : Result := specialWord (.ftanh f) f 7 s

end Sys2Proof.Machine
end

