-- ==== Sys2Proof/Machine/Dispatch.lean ====
section
/-! DEFINITION. The meaning of every instruction and event: one arm per constructor. -/

namespace Sys2Proof.Machine

/-- What an instruction or an event does. -/
def exec (i : Instr) (s : State) : Host.Outcome State Fault Refusal :=
  match i with
  | .sadd f => Sys2Proof.Machine.execSadd f s
  | .ssub f => Sys2Proof.Machine.execSsub f s
  | .smul f => Sys2Proof.Machine.execSmul f s
  | .smulh f => Sys2Proof.Machine.execSmulh f s
  | .sdiv f => Sys2Proof.Machine.execSdiv f s
  | .srem f => Sys2Proof.Machine.execSrem f s
  | .sand f => Sys2Proof.Machine.execSand f s
  | .sor f => Sys2Proof.Machine.execSor f s
  | .sxor f => Sys2Proof.Machine.execSxor f s
  | .sandn f => Sys2Proof.Machine.execSandn f s
  | .sshl f => Sys2Proof.Machine.execSshl f s
  | .sshr f => Sys2Proof.Machine.execSshr f s
  | .ssar f => Sys2Proof.Machine.execSsar f s
  | .smin f => Sys2Proof.Machine.execSmin f s
  | .smax f => Sys2Proof.Machine.execSmax f s
  | .sminn f => Sys2Proof.Machine.execSminn f s
  | .smaxn f => Sys2Proof.Machine.execSmaxn f s
  | .sset f => Sys2Proof.Machine.execSset f s
  | .ssel f => Sys2Proof.Machine.execSsel f s
  | .smov f => Sys2Proof.Machine.execSmov f s
  | .sli f => Sys2Proof.Machine.execSli f s
  | .spopc f => Sys2Proof.Machine.execSpopc f s
  | .sclz f => Sys2Proof.Machine.execSclz f s
  | .sctz f => Sys2Proof.Machine.execSctz f s
  | .sfns f => Sys2Proof.Machine.execSfns f s
  | .sbrev f => Sys2Proof.Machine.execSbrev f s
  | .sext f => Sys2Proof.Machine.execSext f s
  | .sbfx f => Sys2Proof.Machine.execSbfx f s
  | .sbfi f => Sys2Proof.Machine.execSbfi f s
  | .srdt f => Sys2Proof.Machine.execSrdt f s
  | .br f => Sys2Proof.Machine.execBr f s
  | .bc f => Sys2Proof.Machine.execBc f s
  | .call f => Sys2Proof.Machine.execCall f s
  | .ret f => Sys2Proof.Machine.execRet f s
  | .jr f => Sys2Proof.Machine.execJr f s
  | .loop f => Sys2Proof.Machine.execLoop f s
  | .split f => Sys2Proof.Machine.execSplit f s
  | .join f => Sys2Proof.Machine.execJoin f s
  | .bzm f => Sys2Proof.Machine.execBzm f s
  | .bnzm f => Sys2Proof.Machine.execBnzm f s
  | .exit f => Sys2Proof.Machine.execExit f s
  | .mset f => Sys2Proof.Machine.execMset f s
  | .mand f => Sys2Proof.Machine.execMand f s
  | .mor f => Sys2Proof.Machine.execMor f s
  | .mandn f => Sys2Proof.Machine.execMandn f s
  | .mxor f => Sys2Proof.Machine.execMxor f s
  | .mnot f => Sys2Proof.Machine.execMnot f s
  | .mcnt f => Sys2Proof.Machine.execMcnt f s
  | .mfirst f => Sys2Proof.Machine.execMfirst f s
  | .mfromp f => Sys2Proof.Machine.execMfromp f s
  | .mtop f => Sys2Proof.Machine.execMtop f s
  | .mode f => Sys2Proof.Machine.execMode f s
  | .rmode f => Sys2Proof.Machine.execRmode f s
  | .vadd f => Sys2Proof.Machine.execVadd f s
  | .vsub f => Sys2Proof.Machine.execVsub f s
  | .vmul f => Sys2Proof.Machine.execVmul f s
  | .vmulh f => Sys2Proof.Machine.execVmulh f s
  | .vmad f => Sys2Proof.Machine.execVmad f s
  | .vmin f => Sys2Proof.Machine.execVmin f s
  | .vmax f => Sys2Proof.Machine.execVmax f s
  | .vabs f => Sys2Proof.Machine.execVabs f s
  | .vneg f => Sys2Proof.Machine.execVneg f s
  | .vand f => Sys2Proof.Machine.execVand f s
  | .vor f => Sys2Proof.Machine.execVor f s
  | .vxor f => Sys2Proof.Machine.execVxor f s
  | .vandn f => Sys2Proof.Machine.execVandn f s
  | .vnot f => Sys2Proof.Machine.execVnot f s
  | .vshl f => Sys2Proof.Machine.execVshl f s
  | .vshr f => Sys2Proof.Machine.execVshr f s
  | .vsar f => Sys2Proof.Machine.execVsar f s
  | .vrot f => Sys2Proof.Machine.execVrot f s
  | .vpopc f => Sys2Proof.Machine.execVpopc f s
  | .vclz f => Sys2Proof.Machine.execVclz f s
  | .vctz f => Sys2Proof.Machine.execVctz f s
  | .vfns f => Sys2Proof.Machine.execVfns f s
  | .vbrev f => Sys2Proof.Machine.execVbrev f s
  | .vbfx f => Sys2Proof.Machine.execVbfx f s
  | .vbfi f => Sys2Proof.Machine.execVbfi f s
  | .vcmp f => Sys2Proof.Machine.execVcmp f s
  | .vsel f => Sys2Proof.Machine.execVsel f s
  | .vmov f => Sys2Proof.Machine.execVmov f s
  | .vmovi f => Sys2Proof.Machine.execVmovi f s
  | .vaddi f => Sys2Proof.Machine.execVaddi f s
  | .vcvt f => Sys2Proof.Machine.execVcvt f s
  | .vpack f => Sys2Proof.Machine.execVpack f s
  | .vunpk f => Sys2Proof.Machine.execVunpk f s
  | .vmulw f => Sys2Proof.Machine.execVmulw f s
  | .vbcs f => Sys2Proof.Machine.execVbcs f s
  | .vrdl f => Sys2Proof.Machine.execVrdl f s
  | .fadd f => Sys2Proof.Machine.execFadd f s
  | .fsub f => Sys2Proof.Machine.execFsub f s
  | .fmul f => Sys2Proof.Machine.execFmul f s
  | .ffma f => Sys2Proof.Machine.execFfma f s
  | .ffms f => Sys2Proof.Machine.execFfms f s
  | .fnma f => Sys2Proof.Machine.execFnma f s
  | .fmin f => Sys2Proof.Machine.execFmin f s
  | .fmax f => Sys2Proof.Machine.execFmax f s
  | .fabs f => Sys2Proof.Machine.execFabs f s
  | .fneg f => Sys2Proof.Machine.execFneg f s
  | .fcmp f => Sys2Proof.Machine.execFcmp f s
  | .fclass f => Sys2Proof.Machine.execFclass f s
  | .frnd f => Sys2Proof.Machine.execFrnd f s
  | .fcvt f => Sys2Proof.Machine.execFcvt f s
  | .fcvtt f => Sys2Proof.Machine.execFcvtt f s
  | .fcvtf f => Sys2Proof.Machine.execFcvtf f s
  | .fdot2 f => Sys2Proof.Machine.execFdot2 f s
  | .frcp f => Sys2Proof.Machine.execFrcp f s
  | .frsqrt f => Sys2Proof.Machine.execFrsqrt f s
  | .fsqrt f => Sys2Proof.Machine.execFsqrt f s
  | .fexp2 f => Sys2Proof.Machine.execFexp2 f s
  | .flog2 f => Sys2Proof.Machine.execFlog2 f s
  | .fsinpi f => Sys2Proof.Machine.execFsinpi f s
  | .fcospi f => Sys2Proof.Machine.execFcospi f s
  | .ftanh f => Sys2Proof.Machine.execFtanh f s
  | .vany f => Sys2Proof.Machine.execVany f s
  | .vall f => Sys2Proof.Machine.execVall f s
  | .vballot f => Sys2Proof.Machine.execVballot f s
  | .vcount f => Sys2Proof.Machine.execVcount f s
  | .pand f => Sys2Proof.Machine.execPand f s
  | .por f => Sys2Proof.Machine.execPor f s
  | .pxor f => Sys2Proof.Machine.execPxor f s
  | .pnot f => Sys2Proof.Machine.execPnot f s
  | .rdx f => Sys2Proof.Machine.execRdx f s
  | .wrx f => Sys2Proof.Machine.execWrx f s
  | .xset f => Sys2Proof.Machine.execXset f s
  | .xget f => Sys2Proof.Machine.execXget f s
  | .xbnd f => Sys2Proof.Machine.execXbnd f s
  | .vld f => Sys2Proof.Machine.execVld f s
  | .vst f => Sys2Proof.Machine.execVst f s
  | .vlds f => Sys2Proof.Machine.execVlds f s
  | .vsts f => Sys2Proof.Machine.execVsts f s
  | .sld f => Sys2Proof.Machine.execSld f s
  | .sst f => Sys2Proof.Machine.execSst f s
  | .vstm f => Sys2Proof.Machine.execVstm f s
  | .ldfe f => Sys2Proof.Machine.execLdfe f s
  | .ldff f => Sys2Proof.Machine.execLdff f s
  | .stfe f => Sys2Proof.Machine.execStfe f s
  | .feset f => Sys2Proof.Machine.execFeset f s
  | .fullEmptyLanePerform x lane => Sys2Proof.Machine.execFullEmptyLanePerform x lane s
  | .vpf f => Sys2Proof.Machine.execVpf f s
  | .cwb f => Sys2Proof.Machine.execCwb f s
  | .cinv f => Sys2Proof.Machine.execCinv f s
  | .atom f => Sys2Proof.Machine.execAtom f s
  | .satom f => Sys2Proof.Machine.execSatom f s
  | .atomv f => Sys2Proof.Machine.execAtomv f s
  | .lres f => Sys2Proof.Machine.execLres f s
  | .scond f => Sys2Proof.Machine.execScond f s
  | .ctadd f => Sys2Proof.Machine.execCtadd f s
  | .ctwait f => Sys2Proof.Machine.execCtwait f s
  | .ctread f => Sys2Proof.Machine.execCtread f s
  | .bar f => Sys2Proof.Machine.execBar f s
  | .fence f => Sys2Proof.Machine.execFence f s
  | .xfence f => Sys2Proof.Machine.execXfence f s
  | .wait f => Sys2Proof.Machine.execWait f s
  | .fwait f => Sys2Proof.Machine.execFwait f s
  | .ftest f => Sys2Proof.Machine.execFtest f s
  | .fcancel f => Sys2Proof.Machine.execFcancel f s
  | .engineStopCancel id => Sys2Proof.Machine.execEngineStopCancel id s
  | .cp f => Sys2Proof.Machine.execCp f s
  | .cpmc f => Sys2Proof.Machine.execCpmc f s
  | .cpg f => Sys2Proof.Machine.execCpg f s
  | .cpretry f => Sys2Proof.Machine.execCpretry f s
  | .copyCompletion id units => Sys2Proof.Machine.execCopyCompletion id units s
  | .followOnMmaIssue id => Sys2Proof.Machine.execFollowOnMmaIssue id s
  | .mma f => Sys2Proof.Machine.execMma f s
  | .matrixCommandStart id => Sys2Proof.Machine.execMatrixCommandStart id s
  | .matrixCommandComplete id => Sys2Proof.Machine.execMatrixCommandComplete id s
  | .accld f => Sys2Proof.Machine.execAccld f s
  | .accst f => Sys2Proof.Machine.execAccst f s
  | .acczero f => Sys2Proof.Machine.execAcczero f s
  | .fmtset f => Sys2Proof.Machine.execFmtset f s
  | .fmtsetCompletion id => Sys2Proof.Machine.execFmtsetCompletion id s
  | .fmtget f => Sys2Proof.Machine.execFmtget f s
  | .rhold f => Sys2Proof.Machine.execRhold f s
  | .rdemote f => Sys2Proof.Machine.execRdemote f s
  | .rdrop f => Sys2Proof.Machine.execRdrop f s
  | .trap f => Sys2Proof.Machine.execTrap f s
  | .rett f => Sys2Proof.Machine.execRett f s
  | .asyncTrapDelivery x => Sys2Proof.Machine.execAsyncTrapDelivery x s
  | .homeTrapAnswer id => Sys2Proof.Machine.execHomeTrapAnswer id s
  | .rdsys f => Sys2Proof.Machine.execRdsys f s
  | .wrsys f => Sys2Proof.Machine.execWrsys f s
  | .thRegisterWrite f => Sys2Proof.Machine.execThRegisterWrite f s
  | .timestatWrite f => Sys2Proof.Machine.execTimestatWrite f s
  | .rwayfWrite f => Sys2Proof.Machine.execRwayfWrite f s
  | .tsr f => Sys2Proof.Machine.execTsr f s
  | .launch f => Sys2Proof.Machine.execLaunch f s
  | .brkp f => Sys2Proof.Machine.execBrkp f s
  | .pbsetRng f => Sys2Proof.Machine.execPbsetRng f s
  | .pbsetProt f => Sys2Proof.Machine.execPbsetProt f s
  | .pbgetRng f => Sys2Proof.Machine.execPbgetRng f s
  | .pbgetProt f => Sys2Proof.Machine.execPbgetProt f s
  | .pswap f => Sys2Proof.Machine.execPswap f s
  | .pswapChunkExchange id => Sys2Proof.Machine.execPswapChunkExchange id s
  | .tlbinvPage f => Sys2Proof.Machine.execTlbinvPage f s
  | .tlbinvSpace f => Sys2Proof.Machine.execTlbinvSpace f s
  | .tlbinvAll f => Sys2Proof.Machine.execTlbinvAll f s
  | .tlbinvComplete x => Sys2Proof.Machine.execTlbinvComplete x s
  | .nop f => Sys2Proof.Machine.execNop f s
  | .hpost f => Sys2Proof.Machine.execHpost f s
  | .variableLatencyResult id => Sys2Proof.Machine.execVariableLatencyResult id s
  | .accessCompletion id parts => Sys2Proof.Machine.execAccessCompletion id parts s
  | .vstmMemberAck id column => Sys2Proof.Machine.execVstmMemberAck id column s
  | .switchMarkerWaitEnd x => Sys2Proof.Machine.execSwitchMarkerWaitEnd x s
  | .parkConditionClears x => Sys2Proof.Machine.execParkConditionClears x s
  | .recallStart x => Sys2Proof.Machine.execRecallStart x s
  | .saveImageWriteStart wg => Sys2Proof.Machine.execSaveImageWriteStart wg s
  | .workgroupCompletion wg => Sys2Proof.Machine.execWorkgroupCompletion wg s
  | .preempt region => Sys2Proof.Machine.execPreempt region s
  | .resume region => Sys2Proof.Machine.execResume region s
  | .retire region => Sys2Proof.Machine.execRetire region s
  | .kill region => Sys2Proof.Machine.execKill region s
  | .workgroupLost wg structure_ => Sys2Proof.Machine.execWorkgroupLost wg structure_ s
  | .translationWalkComplete column space va write => Sys2Proof.Machine.execTranslationWalkComplete column space va write s
  | .gets id => Sys2Proof.Machine.execGets id s
  | .getm id => Sys2Proof.Machine.execGetm id s
  | .putm id => Sys2Proof.Machine.execPutm id s
  | .inv id => Sys2Proof.Machine.execInv id s
  | .fwds id => Sys2Proof.Machine.execFwds id s
  | .fwdm id => Sys2Proof.Machine.execFwdm id s
  | .data id => Sys2Proof.Machine.execData id s
  | .ack id => Sys2Proof.Machine.execAck id s
  | .wbdata id => Sys2Proof.Machine.execWbdata id s
  | .putack id => Sys2Proof.Machine.execPutack id s
  | .hostRead tag hpa len cached => Sys2Proof.Machine.execHostRead tag hpa len cached s
  | .hostWrite tag hpa bytes => Sys2Proof.Machine.execHostWrite tag hpa bytes s
  | .hostCounterAdd tag hpa addend => Sys2Proof.Machine.execHostCounterAdd tag hpa addend s
  | .linkoSlottedFlit link flit => Sys2Proof.Machine.execLinkoSlottedFlit link flit s
  | .linkoIdle link flit => Sys2Proof.Machine.execLinkoIdle link flit s
  | .nak link flit => Sys2Proof.Machine.execNak link flit s
  | .slotlost link flit => Sys2Proof.Machine.execSlotlost link flit s
  | .lostEntryDetect link seq => Sys2Proof.Machine.execLostEntryDetect link seq s
  | .linkoReplacementSend link seq => Sys2Proof.Machine.execLinkoReplacementSend link seq s
  | .retrain link flit => Sys2Proof.Machine.execRetrain link flit s
  | .retrainComplete link ok => Sys2Proof.Machine.execRetrainComplete link ok s
  | .linkoOpWrite link queue => Sys2Proof.Machine.execLinkoOpWrite link queue s
  | .linkoOpRead link queue => Sys2Proof.Machine.execLinkoOpRead link queue s
  | .linkoOpCounterAdd link queue => Sys2Proof.Machine.execLinkoOpCounterAdd link queue s
  | .linkoDescriptorComplete link queue => Sys2Proof.Machine.execLinkoDescriptorComplete link queue s
  | .patrolRead unit address error => Sys2Proof.Machine.execPatrolRead unit address error s
  | .droopAlarm column microvolts => Sys2Proof.Machine.execDroopAlarm column microvolts s
  | .illegalOpcodeWord word => Sys2Proof.Machine.execIllegalOpcodeWord word s
  | .debuggerAccess request => Sys2Proof.Machine.execDebuggerAccess request s
  | .pushMerge id => Sys2Proof.Machine.execPushMerge id s
  | .conversionComplete => Sys2Proof.Machine.execConversionComplete s
  | .faultRecordPost => Sys2Proof.Machine.execFaultRecordPost s
  | .issueCycle => Sys2Proof.Machine.execIssueCycle s
  | .guardQueueAppend => Sys2Proof.Machine.execGuardQueueAppend s
  | .demotionEligible => Sys2Proof.Machine.execDemotionEligible s
  | .demotionEnd => Sys2Proof.Machine.execDemotionEnd s
  | .recallEnd => Sys2Proof.Machine.execRecallEnd s
  | .coreBecomesHot => Sys2Proof.Machine.execCoreBecomesHot s
  | .captureBegin => Sys2Proof.Machine.execCaptureBegin s
  | .captureSuccess => Sys2Proof.Machine.execCaptureSuccess s
  | .captureAbandon => Sys2Proof.Machine.execCaptureAbandon s
  | .captureExclusionEnd => Sys2Proof.Machine.execCaptureExclusionEnd s
  | .moveBegin => Sys2Proof.Machine.execMoveBegin s
  | .moveEnd => Sys2Proof.Machine.execMoveEnd s
  | .launchRecordCheck => Sys2Proof.Machine.execLaunchRecordCheck s
  | .placementStep => Sys2Proof.Machine.execPlacementStep s
  | .pboundExpiry => Sys2Proof.Machine.execPboundExpiry s
  | .flushDiscard => Sys2Proof.Machine.execFlushDiscard s
  | .drainToSave => Sys2Proof.Machine.execDrainToSave s
  | .saveRetry => Sys2Proof.Machine.execSaveRetry s
  | .saveImageComplete => Sys2Proof.Machine.execSaveImageComplete s
  | .resumeRestoreComplete => Sys2Proof.Machine.execResumeRestoreComplete s
  | .lostWorkgroupDispose => Sys2Proof.Machine.execLostWorkgroupDispose s
  | .ringmasterStateRebuild => Sys2Proof.Machine.execRingmasterStateRebuild s
  | .accessCountHalving => Sys2Proof.Machine.execAccessCountHalving s
  | .migrationHysteresisEnd => Sys2Proof.Machine.execMigrationHysteresisEnd s
  | .last => Sys2Proof.Machine.execLast s
  | .nakRepeat => Sys2Proof.Machine.execNakRepeat s
  | .slotlostRepeat => Sys2Proof.Machine.execSlotlostRepeat s
  | .activate => Sys2Proof.Machine.execActivate s
  | .faultAnswer => Sys2Proof.Machine.execFaultAnswer s
  | .migqSet => Sys2Proof.Machine.execMigqSet s
  | .linkqBind => Sys2Proof.Machine.execLinkqBind s
  | .linkqResume => Sys2Proof.Machine.execLinkqResume s
  | .inwinSet => Sys2Proof.Machine.execInwinSet s
  | .hostkeySet => Sys2Proof.Machine.execHostkeySet s
  | .attest => Sys2Proof.Machine.execAttest s
  | .kekSet => Sys2Proof.Machine.execKekSet s
  | .keyLoad => Sys2Proof.Machine.execKeyLoad s
  | .keyClear => Sys2Proof.Machine.execKeyClear s
  | .scrub => Sys2Proof.Machine.execScrub s
  | .logRange => Sys2Proof.Machine.execLogRange s
  | .logArea => Sys2Proof.Machine.execLogArea s
  | .threshSet => Sys2Proof.Machine.execThreshSet s
  | .evlogRead => Sys2Proof.Machine.execEvlogRead s
  | .admissionsBatch => Sys2Proof.Machine.execAdmissionsBatch s
  | .logBatchFlush => Sys2Proof.Machine.execLogBatchFlush s
  | .lastingUnit => Sys2Proof.Machine.execLastingUnit s
  | .spareCopyComplete => Sys2Proof.Machine.execSpareCopyComplete s
  | .referenceLost => Sys2Proof.Machine.execReferenceLost s
  | .referenceReturn => Sys2Proof.Machine.execReferenceReturn s
  | .stretchEnd => Sys2Proof.Machine.execStretchEnd s
  | .halvedWindowEnd => Sys2Proof.Machine.execHalvedWindowEnd s
  | .overheatHalving => Sys2Proof.Machine.execOverheatHalving s
  | .overtempTrip => Sys2Proof.Machine.execOvertempTrip s
  | .canopyRefresh => Sys2Proof.Machine.execCanopyRefresh s
  | .deviceReset => Sys2Proof.Machine.execDeviceReset s
  | .coreStopsBeingHot => Sys2Proof.Machine.execCoreStopsBeingHot s
  | .overheatHalvingEnd => Sys2Proof.Machine.execOverheatHalvingEnd s

end Sys2Proof.Machine
end

