-- ==== Sys2Proof/Machine/Step.lean ====
section
/-! DEFINITION. One step of the device: the word of the split that issues, an event that is due, an input from outside, or one of the
events and issue choices whose time the manual leaves open; and the placing of a word where the next step fetches (R88, R257, R290, R412). -/

namespace Sys2Proof.Machine

/-! ## The word of the split that issues (R88, R103, R256, R358) -/

/-- Fetch, decode and run the word of a split. -/
def stepWord (s : State) (x : SplitId) : Result :=
  match ctxOf s x with
  | none => .next (endIssue s)
  | some c =>
    match fetchWord s c with
    | (s1, .word w) =>
      match decode w with
      | .ok i => exec i (noteFetch s1 c)
      | .error _ => .next (preciseTrap (noteFetch s1 c) c 1 0 127 w)
    | (s1, .fault code detail) => .next (preciseTrap s1 c code detail 127 c.p.pc)
    | (s1, .absent) =>
      match c.p.refused with
      | some (va, l) => .next (preciseTrap s1 c 5 9 l va)
      | none => .next (finish s1 c false (parkAbsent s1 c true 127 3 c.p.pc))
    | (s1, .busy) => .next (endIssue s1)

/-! ## Events (R257, R290) -/

/-- The state after an event, where it can happen. -/
def tryEvent (s : State) (i : Instr) : Option State :=
  match exec i s with
  | .next t => some t
  | _ => none

/-- The splits, groups and links of the device. -/
def allSplits (s : State) : List SplitId :=
  s.wgs.flatMap (fun w => ((List.range w.groups.length).zip w.groups).flatMap (fun g =>
    ((List.range g.2.splits.length).zip g.2.splits).filterMap (fun p => if p.2.live then some { wg := w.id, grp := g.1, slot := p.1 } else none)))
def allLinks : List Nat := List.range 16

/-- The command in the mailbox. -/
def mailboxEvent (s : State) : List Instr :=
  if !s.mailbox.busy then []
  else match s.mailbox.runOpc with
    | 0x01 => [.activate]
    | 0x10 => [.faultAnswer]
    | 0x11 => [.migqSet]
    | 0x20 => [.linkqBind]
    | 0x21 => [.linkqResume]
    | 0x22 => [.inwinSet]
    | 0x30 => [.hostkeySet]
    | 0x40 => [.attest]
    | 0x41 => [.kekSet]
    | 0x42 => [.keyLoad]
    | 0x43 => [.keyClear]
    | 0x44 => [.scrub]
    | 0x48 => [.logRange]
    | 0x49 => [.logArea]
    | 0x60 => [.threshSet]
    | 0x61 => [.evlogRead]
    | _ => []

/-- Events that happen as soon as they can, in the order in which they are taken: their times are stated. -/
def dueEvents (s : State) : List Instr :=
  List.flatten [
    [.last, .admissionsBatch, .overtempTrip, .stretchEnd, .halvedWindowEnd, .guardQueueAppend, .coreStopsBeingHot, .coreBecomesHot, .captureSuccess,
     .captureAbandon, .captureExclusionEnd, .captureBegin, .moveEnd, .moveBegin, .demotionEnd, .recallEnd],
    s.wgs.flatMap (fun w => (List.range w.groups.length).map (fun g => Instr.recallStart { wg := w.id, grp := g })),
    [.demotionEligible, .accessCountHalving, .migrationHysteresisEnd, .overheatHalving, .overheatHalvingEnd, .canopyRefresh, .lastingUnit, .spareCopyComplete,
     .nakRepeat, .slotlostRepeat],
    (allLinks.filter (fun k => retrainDue (linkOf s k) (timeOf s))).map (fun k => Instr.retrain k []),
    (allSplits s).flatMap (fun x => [Instr.switchMarkerWaitEnd x, Instr.asyncTrapDelivery x]),
    s.commands.flatMap (fun m => [Instr.matrixCommandComplete m.id, Instr.matrixCommandStart m.id]),
    s.copies.map (fun k => Instr.followOnMmaIssue k.id),
    (allSplits s).map (fun x => Instr.parkConditionClears x),
    [.drainToSave, .saveRetry, .saveImageComplete, .resumeRestoreComplete, .pboundExpiry],
    mailboxEvent s]

/-- The delivery of a message. -/
def messageEvent (m : Msg) : List Instr :=
  match m.event with
  | 4 => [.gets m.id]
  | 5 => [.getm m.id]
  | 6 => [.putm m.id]
  | 8 => [.inv m.id]
  | 9 => [.fwds m.id]
  | 10 => [.fwdm m.id]
  | 11 => [.data m.id]
  | 12 => [.ack m.id]
  | 14 => [.wbdata m.id]
  | 15 => [.putack m.id]
  | 16 => [.pushMerge m.id]
  | _ => []

/-- Writes of instructions that are complete and not yet performed at every scope (R258). -/
def risingWrites (s : State) : List Instr :=
  (s.past.filter (fun e => e.path ≤ 4 && e.level < (if e.home.isSome then 2 else 6) && (flightFind s e.id).isNone)).map (fun e => .accessCompletion e.id [e.part])

/-- What may happen next to an instruction in flight, to a copy, at a split, and at a link. -/
def flightEvents (f : Flight) : List Instr :=
  List.flatten [
    (List.range f.parts.length).map (fun k => Instr.accessCompletion f.id [k]),
    [.accessCompletion f.id [], .variableLatencyResult f.id, .homeTrapAnswer f.id, .fmtsetCompletion f.id],
    f.parts.filterMap (fun p => match p.place with
      | .mirror c _ => some (Instr.vstmMemberAck f.id c)
      | _ => none)]
def copyEvents (k : Copy) : List Instr :=
  [.copyCompletion k.id [], .engineStopCancel k.id] ++ (List.range k.units.length).map (fun j => Instr.copyCompletion k.id [j])
def splitEvents (s : State) (x : SplitId) : List Instr :=
  match (splitFind s x).map Split.state with
  | some (.parked (.fullEmpty _ _) _) => .tlbinvComplete x :: allLanes.map (fun l => Instr.fullEmptyLanePerform x l)
  | _ => [.tlbinvComplete x]
def linkEvents (s : State) (k : Nat) : List Instr :=
  ((linkOf s k).window.filter (fun e => e.lost)).map (fun e => Instr.linkoReplacementSend k e.seq) ++
  (List.range 8).flatMap (fun q => [Instr.linkoOpWrite k q, .linkoOpRead k q, .linkoOpCounterAdd k q, .linkoDescriptorComplete k q])

/-- Events whose time the manual leaves open: each may happen next, or the device may go on to its next issue choice. -/
def openEvents (s : State) : List Instr :=
  List.flatten [
    s.flights.flatMap flightEvents,
    risingWrites s,
    s.msgs.flatMap messageEvent,
    s.copies.flatMap copyEvents,
    s.commands.map (fun m => Instr.engineStopCancel m.id),
    (allSplits s).flatMap (splitEvents s),
    s.swaps.map (fun w => Instr.pswapChunkExchange w.id),
    [.conversionComplete, .launchRecordCheck, .placementStep, .faultRecordPost, .lostWorkgroupDispose, .flushDiscard, .logBatchFlush],
    s.wgs.flatMap (fun w => [Instr.workgroupCompletion w.id, Instr.saveImageWriteStart w.id]),
    s.regions.flatMap (fun r => [Instr.preempt r.id, Instr.resume r.id, Instr.retire r.id, Instr.kill r.id]),
    allLinks.flatMap (linkEvents s)]

/-- What an input from outside does; an event waits until it can happen. A package held in reset takes no access. -/
def takeInput (s : State) (i : Input) : Option State :=
  match i with
  | .event e => if s.inReset && e != .deviceReset then none else tryEvent s e
  | .sensors core codes => some (if core < 768 then modCore s core (fun k => { k with live := codes.take 16 }) else s)
  | .command value => some (writeCommand s value)
  | .commandRead tag => some (answer s tag (bytesOf 8 s.mailbox.word) false)
  | .payload off bytes => some (writePayload s off bytes)
  | .hostDecoder base => some { s with hostBase := base }
  | .deviceNumber n => some { s with device := n % 4096 }

/-- The first input whose time has come and that can be taken; the others keep their order. -/
def nextInput (s : State) (before : List (Nat × Input)) : List (Nat × Input) → Option State
  | [] => none
  | e :: rest =>
    match (if e.1 ≤ s.now then takeInput { s with agenda := before ++ rest } e.2 else none) with
    | some t => some t
    | none => nextInput s (before ++ [e]) rest

/-- An event happens: every draw after it is fresh. -/
def fresh (s : State) : State := { s with draw := s.draw + 1 }

/-- One of the open events, or the next issue choice. The manual gives the open events no time bounds: the choice may put one off for ever. -/
def stepOpen (s : State) : Result :=
  let can := (openEvents s).filterMap (tryEvent s)
  match can[Config.choice s.draw 0 % (can.length + 1)]? with
  | some t => .next (fresh t)
  | none => exec .issueCycle s

/-- A step that is not the run of a word. -/
def stepEvent (s : State) : Result :=
  if !s.booted then exec .deviceReset s
  else
    let due := if s.inReset then mailboxEvent s else dueEvents s
    match due.findSome? (tryEvent s) with
    | some t => .next (fresh t)
    | none =>
      match nextInput s [] s.agenda with
      | some t => .next (fresh t)
      | none => if s.inReset then .next (passTime s) else stepOpen s

/-- One step of the device. -/
def step (s : State) : Result :=
  match s.issue with
  | some x => stepWord s x
  | none => stepEvent s

/-! ## Placing a word (R45, R328, R354, R355) -/

/-- The region that a placed word runs in: the root of space 1, with the supervisor flag and key slot 0, every other field zero. -/
def loadedRegion (id : Nat) : Region :=
  let block := List.replicate 8 0 ++ bytesOf 2 0 ++ bytesOf 1 0 ++ bytesOf 1 1 ++ List.replicate 52 0 ++ bytesOf 16 1 ++ List.replicate 208 0
  Region.new id 0 1 none 0 block

/-- The launch record of a placed word. -/
def loadedRecord (entry : DWord) : LaunchRec :=
  { entry := entry, args := 0, nwg := 1, lanes := 96, groups := 1, vcnt := 128, spad := 65536, wbase := 0, wsize := 0, tiles := 8, inhLo := 0, inhHi := 0,
    restart := false, cores := false, chain := false, mset := 0, done := 0, bitmap := 0 }

/-- Where a placed word lies, and the two tables of its space: the first gigabyte is one page, for every use but counters. -/
def loadedAt : Nat := 0x4000
def loadedRoot : Nat := 0x1000
def loadedTable : Nat := 0x2000

/-- The device with a workgroup of one split, chosen to issue at the placed word. -/
def State.loaded (s : State) : State :=
  let f := loadedRecord (BitVec.ofNat 64 loadedAt)
  let w : Workgroup := {
    id := s.nextId, column := 0, layer := 0, slot := 0, region := s.nextId + 1, launch := 0, index := 0, seq := 1, placed := 0, born := 0, runBase := 0,
    migcnt := 0, migcyc := 0, migdefer := 0, excluded := none, fields := f, scratchSeed := s.nextId, scratch := [], full := [], scratchPoison := [],
    groups := [startGroup f 0 1 0 0 none .core 0], hold := .none, preempt := none, lost := none, stopped := false }
  let mem1 := Memory.writeN s.mem loadedRoot (bytesOf 8 (loadedTable + 1))
  let mem2 := Memory.writeN mem1 loadedTable (bytesOf 8 0xC1F)
  { s with booted := true, inReset := false, issue := some { wg := s.nextId, grp := 0, slot := 0 }, nextId := s.nextId + 2, mem := mem2,
           wgs := s.wgs ++ [w], regions := s.regions ++ [loadedRegion (s.nextId + 1)], spaces := Table.put s.spaces 1 loadedRoot,
           keys := Table.put s.keys 0 { domain := 0, key := 0 } }

/-- The physical address that the issuing split fetches from. -/
def fetchAt (s : State) : Option Nat :=
  match issuing s with
  | none => none
  | some c =>
    match walk s c.r.space c.p.pc with
    | some (_, .leaf e _ bits) => some (leafPa e bits c.p.pc)
    | _ => none

/-- The bits of an instruction of the opcode table stored where the next step fetches: at the word of the split that is about to issue, or, where none
is, at that of a workgroup loaded for it. -/
def State.withFetchWord (s : State) (nbits w : Nat) : State :=
  let bytes := bytesOf 8 (w % 2 ^ nbits)
  match fetchAt s with
  | some pa => memWrite s pa bytes
  | none => memWrite s.loaded loadedAt bytes

end Sys2Proof.Machine
end

