-- ==== Sys2Proof/Safety.lean ====
section
/-! DEFINITION. What counts as a safe run, and the terms in which claims speak of the device. -/

namespace Sys2Proof.Machine

/-! ## Runs -/

/-- The memory is in its canonical form. -/
def memoryOk (s : State) : Prop := Memory.wf s.mem = true

/-- Every flight's number is below the next one to be given, so a new flight's number is its own. -/
def FlightsFresh (s : State) : Prop := ∀ f ∈ s.flights, f.id < s.nextId

/-- An instruction or event completes. -/
def Completes (i : Instr) (s : State) : Prop := ∃ t, exec i s = .next t

/-- The device takes so many steps without a stop. -/
def RunsFor (k : Nat) (s : State) : Prop := ∃ t, Sys2Proof.core.run k s = .next t

/-! ## A word that is about to run -/

/-- The split chosen to issue has context `c`, its word `i` is well formed, and no page fault of it was refused. -/
def Issues (s : State) (c : Ctx) (i : Instr) : Prop := issuing s = some c ∧ c.p.refused = none ∧ i.wellFormed = true

/-- The launch declares each of these vector registers, or a handler names its k0 to k7 by them (R26, R39). -/
def VectorsIn (c : Ctx) (ns : List Nat) : Prop := ∀ n ∈ ns, n < c.vcnt ∨ (c.handler = true ∧ 120 ≤ n ∧ n ≤ 127)

/-- The registers may be pairs, where the element type makes them pairs (R147). -/
def EvenIfWide (c : Ctx) (ns : List Nat) : Prop := etWide c.et = true → ∀ n ∈ ns, n % 2 = 0

/-- A path counter of the split's group has room for one more (R55). -/
def PathRoom (c : Ctx) (k : Nat) : Prop := pathOf c.g k < 255

/-- Fewer than 64 futures of the group are outstanding (R56). -/
def FutureRoom (c : Ctx) : Prop := (c.g.futures.filter (fun f => f.outstanding)).length < 64

/-- The matrix queue of the split's core has room (R231). -/
def MatrixRoom (s : State) (c : Ctx) : Prop := (matrixQueue s c.w.core).length < 8

/-! ## What registers hold -/

/-- The newest value of a register, as a split names it. -/
def held (s : State) (x : SplitId) (r : RegRef) : Option Image := (ctxOf s x).map (fun c => regNow c r)

/-- Register `r` of split `y` is the storage that split `x` calls `r` (R23, R24, R39). -/
def SameStore (s : State) (x y : SplitId) (r : RegRef) : Prop :=
  match r with
  | .s _ => y = x
  | .k _ => (wgFind s y.wg).map Workgroup.core = (wgFind s x.wg).map Workgroup.core
  | .ks _ => (wgFind s y.wg).map Workgroup.core = (wgFind s x.wg).map Workgroup.core
  | _ => groupOf y = groupOf x

/-- Every register of every split keeps its value but those that split `x` calls `rs`. -/
def KeepsRegs (s t : State) (x : SplitId) (rs : List RegRef) : Prop :=
  ∀ y r, ¬ (r ∈ rs ∧ SameStore s x y r) → held t y r = held s y r

/-- Scalar `n`, or the pair at `n`, holds the value; s0 discards its part (R32). -/
def ScalarGets (t : State) (c : Ctx) (pair : Bool) (n v : Nat) : Prop :=
  (n ≠ 0 → held t c.x (sref c n) = some (.word (BitVec.ofNat 32 v))) ∧
  (pair = true → held t c.x (sref c (n + 1)) = some (.word (BitVec.ofNat 32 (v / 2 ^ 32))))

/-- Three scalars hold a mask, low lanes first; s0 discards its part (R33, R144). -/
def TripleGets (t : State) (c : Ctx) (n : Nat) (m : Mask) : Prop :=
  (n ≠ 0 → held t c.x (sref c n) = some (.word (m.extractLsb' 0 32))) ∧
  held t c.x (sref c (n + 1)) = some (.word (m.extractLsb' 32 32)) ∧ held t c.x (sref c (n + 2)) = some (.word (m.extractLsb' 64 32))

/-- Vector register `n` holds the new value in the lanes of a mask, and its old value in the others (R24, R31). -/
def VectorGets (t : State) (c : Ctx) (n : Nat) (mask : Mask) (new : Nat → Word) : Prop :=
  ∃ v, held t c.x (vref c n) = some (.lanes v) ∧
    ∀ l, l < 96 → lane v l = if has mask l then new l else lane (imageLanes (regNow c (vref c n))) l

/-- Vector register `n`, or the pair at `n`, holds a number per lane. -/
def LanesGet (t : State) (c : Ctx) (wide : Bool) (n : Nat) (mask : Mask) (new : Nat → Nat) : Prop :=
  VectorGets t c n mask (fun l => BitVec.ofNat 32 (new l)) ∧
  (wide = true → VectorGets t c (n + 1) mask (fun l => BitVec.ofNat 32 (new l / 2 ^ 32)))

/-- Predicate `n` holds the new bits in the lanes of a mask, and its old bits in the others; p0 discards them (R34). -/
def PredicateGets (t : State) (c : Ctx) (n : Nat) (mask : Mask) (new : Nat → Bool) : Prop :=
  n ≠ 0 → ∃ m, held t c.x (.p n) = some (.mask m) ∧
    ∀ l, l < 96 → has m l = if has mask l then new l else has (Table.get c.g.preds n 0) l

/-- The registers of a scalar destination, and of a vector destination. -/
def scalarRegs (c : Ctx) (pair : Bool) (n : Nat) : List RegRef := if pair then [sref c n, sref c (n + 1)] else [sref c n]
def tripleRegs (c : Ctx) (n : Nat) : List RegRef := [sref c n, sref c (n + 1), sref c (n + 2)]
def vectorRegs (c : Ctx) (wide : Bool) (n : Nat) : List RegRef := if wide then [vref c n, vref c (n + 1)] else [vref c n]

/-! ## What is left alone -/

/-- A split without its registers and when they were written, its place in the program, its open results, and the accounting of its issue. -/
def Split.rest (p : Split) : Split :=
  { p with pc := 0, scalars := [], loops := [], shadows := [], markWait := false, boundary := false, wait := .none, await := [],
           refused := none, resumeAt := 0, readySince := none, written := [], late := [] }

/-- A group without its registers, its hold latch, and those parts of its splits. -/
def Group.rest (g : Group) : Group := { g with vregs := [], preds := [], xregs := [], hold := [], written := [], splits := g.splits.map Split.rest }

/-- A workgroup without those parts of its groups. -/
def Workgroup.rest (w : Workgroup) : Workgroup := { w with groups := w.groups.map Group.rest }

/-- A core without its shadow registers and the accounting of its pipes. -/
def Core.rest (k : Core) : Core := { k with kregs := [], ksregs := [], pipeFree := 0, lag := 0, special := [] }

/-- A flight without the marks that a later write leaves on its destinations. -/
def Flight.rest (f : Flight) : Flight := { f with dests := f.dests.map (fun d => { d with clobbered := 0 }) }

/-- The device without its cores, its flights, its issue choice, its counters of flights and draws, and those parts of its workgroups. What is
left holds every other piece of state: memory, poison, every copy of a line, and every register of column, tower and device. -/
def State.rest (s : State) : State :=
  { s with wgs := s.wgs.map Workgroup.rest, cores := [], flights := [], issue := none, draw := 0, nextId := 0 }

/-- A word of split `c.x` has issued and goes on at `pc` with loop levels `loops`: it wrote no register of any split but `rs`, it put the flights
`fs` in the air, and nothing else of the device changed. -/
def RanTo (s t : State) (c : Ctx) (rs : List RegRef) (fs : List Flight) (pc : DWord) (loops : List LoopLevel) : Prop :=
  t.rest = s.rest ∧ (∀ n, (coreOf t n).rest = (coreOf s n).rest) ∧ (∀ y, y ≠ c.x → splitFind t y = splitFind s y) ∧
  KeepsRegs s t c.x rs ∧ (∀ a, Memory.read t.mem a = Memory.read s.mem a) ∧ t.flights.map Flight.rest = s.flights.map Flight.rest ++ fs ∧
  t.issue = none ∧ (splitFind t c.x).map (fun p => (p.pc, p.loops, p.await)) = some (pc, loops, c.p.await ++ fs.map (fun f => f.id))

/-- A word has issued and goes on at the next word, by way of the loop levels (R136). -/
def Ran (s t : State) (c : Ctx) (rs : List RegRef) (fs : List Flight) : Prop :=
  RanTo s t c rs fs (loopUpdate c.p.loops c.p.pc).2 (loopUpdate c.p.loops c.p.pc).1

/-- Destinations in the order in which the word names them, in the slot of its split (R138, R141). -/
def numberedDests (x : SplitId) (ds : List Dest) : List Dest := ((List.range ds.length).zip ds).map (fun e => { e.2 with word := e.1, slot := x.slot })

/-- A later result of the word: its destinations, and the cycle before which it is not written (R50). -/
def later (s : State) (c : Ctx) (dests : List Dest) (readyAt : Nat) : Flight :=
  { Flight.new s c .value with dests := numberedDests c.x dests, readyAt := readyAt }

/-- A word took a precise trap: nothing is left of the word's own effect (R241, R243). -/
def Traps (i : Instr) (s : State) (c : Ctx) (code detail lane : Nat) (value : DWord) : Prop :=
  exec i s = .next (preciseTrap s c code detail lane value)

/-! ## Control and masks -/

/-- No live loop level ends at the word (R136). -/
def InBody (c : Ctx) : Prop := ∀ l ∈ c.p.loops, l.last ≠ c.p.pc

/-- The target of OFFSET: the next word and so many words further (R88). -/
def targetOf (c : Ctx) (f : BF) : DWord := c.p.pc + 8 + BitVec.ofInt 64 (8 * f.offset.toInt)

/-- The lanes of a mask: the number of them, and the lowest, or 96 (R145). -/
def lanesIn (m : Mask) : Nat := (List.range 96).countP (has m)
def lowestLane (m : Mask) : Nat := ((List.range 96).find? (has m)).getD 96

/-- The words that write a triple, and their masks of operands A and b (R145, R212). -/
def maskTable (i : Instr) (c : Ctx) (a b : Mask) : Option (SF × Mask) :=
  match i with
  | .mset f => some (f, c.p.own &&& ~~~ c.g.exited)
  | .mand f => some (f, a &&& b)
  | .mor f => some (f, a ||| b)
  | .mandn f => some (f, a &&& ~~~ b)
  | .mxor f => some (f, a ^^^ b)
  | .mnot f => some (f, ~~~ a)
  | .mfromp f => some (f, c.pr (f.sa.toNat % 8))
  | .vballot f => some (f, c.pr (f.sa.toNat % 8) &&& c.active)
  | _ => none

/-- The words that write a number of lanes to a scalar (R145, R212). -/
def laneCountTable (i : Instr) (c : Ctx) : Option (SF × Nat) :=
  match i with
  | .mcnt f => some (f, lanesIn (c.triple f.sa.toNat &&& c.p.own &&& ~~~ c.g.exited))
  | .mfirst f => some (f, lowestLane (c.triple f.sa.toNat &&& c.p.own &&& ~~~ c.g.exited))
  | .vany f => some (f, if lanesIn (c.pr (f.sa.toNat % 8) &&& c.active) = 0 then 0 else 1)
  | .vall f => some (f, if lanesIn (~~~ c.pr (f.sa.toNat % 8) &&& c.active) = 0 then 1 else 0)
  | .vcount f => some (f, lanesIn (c.pr (f.sa.toNat % 8) &&& c.active))
  | _ => none

/-- The words that write a predicate, and its new bit in a lane (R145, R213). -/
def predicateTable (i : Instr) (c : Ctx) (l : Nat) : Option (SF × Bool) :=
  match i with
  | .mtop f => some (f, has (c.triple f.sa.toNat) l)
  | .pand f => some (f, has (c.pr (f.sa.toNat % 8)) l && has (c.pr (f.sb.toNat % 8)) l)
  | .por f => some (f, has (c.pr (f.sa.toNat % 8)) l || has (c.pr (f.sb.toNat % 8)) l)
  | .pxor f => some (f, has (c.pr (f.sa.toNat % 8)) l != has (c.pr (f.sb.toNat % 8)) l)
  | .pnot f => some (f, !has (c.pr (f.sa.toNat % 8)) l)
  | _ => none

/-! ## The manual's tables of results, over bit vectors -/

/-- `a OP b` of R94. -/
def condTable {w : Nat} (code : Nat) (a b : BitVec w) : Bool :=
  match code with
  | 0 => a == b
  | 1 => a != b
  | 2 => a.slt b
  | 3 => a.sle b
  | 4 => b.sle a
  | 5 => a.ult b
  | 6 => a.ule b
  | 7 => b.ule a
  | 8 => b.slt a
  | 9 => b.ult a
  | _ => false

/-- Shifts of R126 and R153: a count of the width or more shifts everything out. -/
def shiftLeft {w : Nat} (a : BitVec w) (k : Nat) : BitVec w := if w ≤ k then 0 else a <<< k
def shiftRight {w : Nat} (a : BitVec w) (k : Nat) : BitVec w := if w ≤ k then 0 else a >>> k
def shiftArith {w : Nat} (a : BitVec w) (k : Nat) : BitVec w := a.sshiftRight (min k (w - 1))

/-- The position of the `n`-th set bit from the bottom, or the width (R127, R153). -/
def nthSet {w : Nat} (a : BitVec w) (n : Nat) : Nat := ((List.range w).filter a.getLsbD).getD n w

/-- Zeros above the highest set bit, and below the lowest (R126, R153). -/
def zerosAbove {w : Nat} (a : BitVec w) : Nat := ((List.range w).takeWhile (fun k => !a.getLsbD (w - 1 - k))).length
def zerosBelow {w : Nat} (a : BitVec w) : Nat := ((List.range w).takeWhile (fun k => !a.getLsbD k)).length
def setCount {w : Nat} (a : BitVec w) : Nat := ((List.range w).filter a.getLsbD).length

/-- A field of `wid` bits at `pos`, extended; and a value with the field replaced (R127, R154). -/
def extractField {w : Nat} (a : BitVec w) (pos wid : Nat) (sx : Bool) : BitVec w :=
  let f := BitVec.ofNat wid (a.toNat / 2 ^ pos)
  if sx then f.signExtend w else f.zeroExtend w
def insertField {w : Nat} (d a : BitVec w) (pos wid : Nat) : BitVec w :=
  let m := BitVec.ofNat w ((2 ^ wid - 1) * 2 ^ pos)
  (d &&& ~~~ m) ||| (BitVec.ofNat w (a.toNat * 2 ^ pos) &&& m)

/-- The extensions of `sext` (R126). -/
def extendTable {w : Nat} (kind : Nat) (a : BitVec w) : BitVec w :=
  match kind with
  | 0 => (a.zeroExtend 8).signExtend w
  | 1 => (a.zeroExtend 16).signExtend w
  | 2 => (a.zeroExtend 32).signExtend w
  | 3 => (a.zeroExtend 8).zeroExtend w
  | 4 => (a.zeroExtend 16).zeroExtend w
  | _ => (a.zeroExtend 32).zeroExtend w

/-- The table of R126, of the operands and the old value of SD: all but `sdiv`, `srem` and `srdt`. -/
def scalarTable {w : Nat} (i : Instr) (a b d : BitVec w) : Option (SF × BitVec w) :=
  let k := b.toNat % 2 ^ 32
  match i with
  | .sadd f => some (f, a + b)
  | .ssub f => some (f, a - b)
  | .smul f => some (f, a * b)
  | .smulh f => some (f, if f.fn = 0 then BitVec.ofInt w (a.toInt * b.toInt / (2 : Int) ^ w) else BitVec.ofNat w (a.toNat * b.toNat / 2 ^ w))
  | .sand f => some (f, a &&& b)
  | .sor f => some (f, a ||| b)
  | .sxor f => some (f, a ^^^ b)
  | .sandn f => some (f, a &&& ~~~ b)
  | .sshl f => some (f, shiftLeft a k)
  | .sshr f => some (f, shiftRight a k)
  | .ssar f => some (f, shiftArith a k)
  | .smin f => some (f, if a.sle b then a else b)
  | .smax f => some (f, if a.sle b then b else a)
  | .sminn f => some (f, if a.ule b then a else b)
  | .smaxn f => some (f, if a.ule b then b else a)
  | .sset f => some (f, if condTable f.fn.toNat a b then 1 else 0)
  | .ssel f => some (f, if d = 0 then b else a)
  | .smov f => some (f, a)
  | .sli f => some (f, (f.imm.signExtend 64).truncate w)
  | .spopc f => some (f, BitVec.ofNat w (setCount a))
  | .sclz f => some (f, BitVec.ofNat w (zerosAbove a))
  | .sctz f => some (f, BitVec.ofNat w (zerosBelow a))
  | .sfns f => some (f, BitVec.ofNat w (nthSet a k))
  | .sbrev f => some (f, a.reverse)
  | .sext f => some (f, extendTable f.fn.toNat a)
  | .sbfx f => some (f, extractField a (b.toNat % 64) (min (b.toNat / 256 % 64) w) (f.fn == 1))
  | .sbfi f => some (f, insertField d a (b.toNat % 64) (min (b.toNat / 256 % 64) w))
  | _ => none

/-- The quotient and remainder of R126. -/
def divideTable {w : Nat} (i : Instr) (a b : BitVec w) : Option (SF × BitVec w) :=
  match i with
  | .sdiv f => some (f, if b = 0 then BitVec.allOnes w else if f.fn = 0 then a.sdiv b else a / b)
  | .srem f => some (f, if b = 0 then a else if f.fn = 0 then a.srem b else a % b)
  | _ => none

/-- An element as an integer, and an integer as an element: the nearest that the type holds under SAT, else the low bits (R60, R61). -/
def elementInt {w : Nat} (sgn : Bool) (a : BitVec w) : Int := if sgn then a.toInt else a.toNat
def elementFit {w : Nat} (sgn sat : Bool) (v : Int) : BitVec w :=
  let lo : Int := if sgn then -(2 ^ (w - 1) : Nat) else 0
  let hi : Int := if sgn then (2 ^ (w - 1) : Nat) - 1 else (2 ^ w : Nat) - 1
  BitVec.ofInt w (if sat then max lo (min hi v) else v)

/-- The element-by-element integer words: fields, number of sources, and whether the element types stop at 7 (R150, R153, R157). -/
def elementShape (i : Instr) : Option (V3 × Nat × Bool) :=
  match i with
  | .vadd f => some (f, 2, true)
  | .vsub f => some (f, 2, true)
  | .vmul f => some (f, 2, true)
  | .vmulh f => some (f, 2, true)
  | .vmad f => some (f, 3, true)
  | .vmin f => some (f, 2, true)
  | .vmax f => some (f, 2, true)
  | .vabs f => some (f, 1, true)
  | .vneg f => some (f, 1, true)
  | .vand f => some (f, 2, false)
  | .vor f => some (f, 2, false)
  | .vxor f => some (f, 2, false)
  | .vandn f => some (f, 2, false)
  | .vnot f => some (f, 1, false)
  | .vshl f => some (f, 2, false)
  | .vshr f => some (f, 2, false)
  | .vsar f => some (f, 2, false)
  | .vrot f => some (f, 2, false)
  | .vpopc f => some (f, 1, false)
  | .vclz f => some (f, 1, false)
  | .vctz f => some (f, 1, false)
  | .vfns f => some (f, 2, false)
  | .vbrev f => some (f, 1, false)
  | .vmov f => some (f, 1, false)
  | _ => none

/-- The result element of R150, R153 and R157. -/
def elementTable {w : Nat} (i : Instr) (sgn sat : Bool) (a b c : BitVec w) : BitVec w :=
  let x := elementInt sgn a
  let y := elementInt sgn b
  match i with
  | .vadd _ => elementFit sgn sat (x + y)
  | .vsub _ => elementFit sgn sat (x - y)
  | .vmul _ => elementFit sgn sat (x * y)
  | .vmulh _ => BitVec.ofInt w (x * y / (2 : Int) ^ w)
  | .vmad _ => elementFit sgn sat (x * y + elementInt sgn c)
  | .vmin _ => if x ≤ y then a else b
  | .vmax _ => if x ≤ y then b else a
  | .vabs _ => elementFit sgn sat x.natAbs
  | .vneg _ => elementFit sgn sat (-x)
  | .vand _ => a &&& b
  | .vor _ => a ||| b
  | .vxor _ => a ^^^ b
  | .vandn _ => a &&& ~~~ b
  | .vnot _ => ~~~ a
  | .vshl _ => shiftLeft a b.toNat
  | .vshr _ => shiftRight a b.toNat
  | .vsar _ => shiftArith a b.toNat
  | .vrot _ => a.rotateLeft b.toNat
  | .vpopc _ => BitVec.ofNat w (setCount a)
  | .vclz _ => BitVec.ofNat w (zerosAbove a)
  | .vctz _ => BitVec.ofNat w (zerosBelow a)
  | .vfns _ => BitVec.ofNat w (nthSet a b.toNat)
  | .vbrev _ => a.reverse
  | _ => a

/-- The floating-point words whose result is one rounded value or one chosen element: fields and number of sources (R167, R169, R170). -/
def floatShape (i : Instr) : Option (V3 × Nat) :=
  match i with
  | .fadd f => some (f, 2)
  | .fsub f => some (f, 2)
  | .fmul f => some (f, 2)
  | .ffma f => some (f, 3)
  | .ffms f => some (f, 3)
  | .fnma f => some (f, 3)
  | .fmin f => some (f, 2)
  | .fmax f => some (f, 2)
  | .fabs f => some (f, 1)
  | .fneg f => some (f, 1)
  | _ => none

/-- The result element of R167, R169 and R170, of three operand elements: exact, then rounded once. -/
def floatTable (i : Instr) (fp : Fp) (ftz : Bool) (mode a b c : Nat) : Nat :=
  let x := fp.read ftz a
  let y := fp.read ftz b
  let z := fp.read ftz c
  match i with
  | .fadd _ => fp.write ftz mode (x.add y mode)
  | .fsub _ => fp.write ftz mode (x.add y.negate mode)
  | .fmul _ => fp.write ftz mode (x.mul y)
  | .ffma _ => fp.write ftz mode ((x.mul y).add z mode)
  | .ffms _ => fp.write ftz mode ((x.mul y).add z.negate mode)
  | .fnma _ => fp.write ftz mode ((x.mul y).negate.add z mode)
  | .fmin _ => minMax fp false (fp.flush ftz a) (fp.flush ftz b)
  | .fmax _ => minMax fp true (fp.flush ftz a) (fp.flush ftz b)
  | .fabs _ => a % 2 ^ (fp.width - 1)
  | _ => if a / 2 ^ (fp.width - 1) % 2 = 1 then a % 2 ^ (fp.width - 1) else a % 2 ^ (fp.width - 1) + 2 ^ (fp.width - 1)

/-- The special-function words and their function numbers (R179). -/
def specialShape (i : Instr) : Option (V2I × Nat) :=
  match i with
  | .frcp f => some (f, 0)
  | .frsqrt f => some (f, 1)
  | .fsqrt f => some (f, 2)
  | .fexp2 f => some (f, 3)
  | .flog2 f => some (f, 4)
  | .fsinpi f => some (f, 5)
  | .fcospi f => some (f, 6)
  | .ftanh f => some (f, 7)
  | _ => none

/-! ## Memory words -/

/-- What the manual says of an instruction that accesses global memory: its vector registers, its path, its checks, the lanes it accesses, and the
flight that it launches (R184 to R192, R197 to R204). -/
structure GlobalRow where
  mark : Bool
  vectors : List Nat
  path : Nat
  since : State → Nat
  access : AccessKind
  align : Nat
  size : Nat
  unit : Nat
  lanes : List (Nat × DWord)
  may : Nat → Bool
  kind : FlightKind
  strong : Nat
  acquire : Nat
  release : Nat
  op : PartOp
  data : Nat → Nat → List Byte
  dests : List Dest

/-- The vector registers of a format-M word: data registers, then the address register or pair. -/
def memVectors (f : MF) (data : Nat) (global : Bool) : List Nat :=
  (List.range data).map (f.data.toNat + ·) ++
  (if f.addr = 0 then [] else if global && f.sbase == 0 then [f.addr.toNat, f.addr.toNat + 1] else [f.addr.toNat])

/-- The scope at which ORD makes an access strong, and the one at which it makes it an acquire or a release; 0 for none (R95). -/
def strongScope (o : MemOrd) : Nat := match o with | .plain => 0 | .strong sc _ => scopeNo sc
def pairedScope (o : MemOrd) : Nat := match o with | .strong sc true => scopeNo sc | _ => 0

/-- The instructions that load, store and change global memory at an address of a register, and their rows. -/
def globalTable (i : Instr) (c : Ctx) : Option GlobalRow :=
  let vector (f : MF) (regs path : Nat) (k : AccessKind) (align size unit : Nat) (off : Int) (routed : Bool) (kind : FlightKind) (op : PartOp)
      (data : Nat → Nat → List Byte) (dests : List Dest) : GlobalRow :=
    { mark := f.mark, vectors := memVectors f regs true, path := path,
      since := fun u => if path = 1 then 0 else addressTime u c f (addrSrc f true routed), access := k, align := align, size := size, unit := unit,
      lanes := activeAddrs c (globalAddrs c f off routed), may := has c.writes, kind := kind, strong := strongScope f.ord,
      acquire := if path = 1 then 0 else pairedScope f.ord, release := if path = 0 then 0 else pairedScope f.ord, op := op, data := data, dests := dests }
  let scalar (f : MF) (path : Nat) (k : AccessKind) (off : Int) (kind : FlightKind) (op : PartOp) (data : List Byte) (dests : List Dest) : GlobalRow :=
    let n := widthBytes f.width
    { mark := f.mark, vectors := [], path := path, since := fun u => if path = 0 then addressTime u c f [] else 0, access := k, align := n, size := n, unit := n, lanes := [(127, scalarAddr c f off)], may := fun _ => true,
      kind := kind, strong := strongScope f.ord, acquire := if path = 0 then pairedScope f.ord else 0, release := if path = 0 then 0 else pairedScope f.ord, op := op,
      data := fun _ _ => data, dests := dests }
  match i with
  | .vld f => some (vector f (widthRegs f.width) 0 .load (widthAlign f.width) (widthBytes f.width) (widthUnit f.width) (off16 f) true (.load (widthBytes f.width))
      .read (fun _ _ => []) (dataDests c f (widthRegs f.width)))
  | .vst f => some (vector f (widthRegs f.width) 1 .store (widthAlign f.width) (widthBytes f.width) (widthUnit f.width) (off16 f) false .store .write
      (fun l b => slice ((dataBytes c f (widthRegs f.width) (widthBytes f.width)).getD l []) b (widthUnit f.width)) [])
  | .atom f =>
    let n := widthBytes f.width
    let k := if f.offset.toNat % 32 = 1 then 2 else 1
    some (vector f (widthRegs f.width * k) 2 .atomic n n n 0 false (.atomic n) (.atomic (f.offset.toNat % 32) n)
      (fun l _ => (dataBytes c f (widthRegs f.width * k) (n * k)).getD l []) (if f.offset.getLsbD 5 then dataDests c f (widthRegs f.width) else []))
  | .atomv f =>
    let n := widthBytes f.width
    some (vector f 8 2 .atomic 32 32 n 0 false (.atomic n) (.atomic (f.offset.toNat % 32) n)
      (fun l b => slice ((dataBytes c f 8 32).getD l []) b n) (if f.offset.getLsbD 5 then dataDests c f 8 else []))
  | .sld f => some (scalar f 0 .load (off16 f) (.load (widthBytes f.width)) .read [] (scalarDests c f.data.toNat (f.width == .d)))
  | .sst f => some (scalar f 1 .store (off16 f) .store .write (bytesOf (widthBytes f.width) (c.scalar (f.width == .d) f.data.toNat)) [])
  | .lres f => some (scalar f 0 .load 0 (.load (widthBytes f.width)) .reserve [] (scalarDests c f.data.toNat (f.width == .d)))
  | .scond f => some (scalar f 2 .store 0 .cond .condWrite (bytesOf (widthBytes f.width) (c.scalar (f.width == .d) f.data.toNat))
      (scalarDests c f.data.toNat (f.width == .d)))
  | .satom f =>
    let n := if f.pair then 8 else 4
    some { mark := f.mark, vectors := [], path := 2, since := fun _ => 0, access := .atomic, align := n, size := n, unit := n, lanes := [(127, BitVec.ofNat 64 (c.pair f.sa.toNat))],
           may := fun _ => true, kind := .atomic n, strong := f.imm.toNat / 32 % 8,
           acquire := if f.imm.getLsbD 8 then f.imm.toNat / 32 % 8 else 0, release := if f.imm.getLsbD 8 then f.imm.toNat / 32 % 8 else 0,
           op := .atomic (f.imm.toNat % 32) n, data := fun _ _ => satomData c f, dests := if f.sd = 0 then [] else scalarDests c f.sd.toNat f.pair }
  | .ctadd f =>
    if !f.pair then none
    else some { mark := f.mark, vectors := [], path := 2, since := fun _ => 0, access := .counterAdd, align := 8, size := 8, unit := 8,
                lanes := [(127, BitVec.ofNat 64 (c.pair f.sa.toNat))], may := fun _ => true, kind := .counter, strong := f.fn.toNat, acquire := 0,
                release := f.fn.toNat, op := .counterAdd, data := fun _ _ => bytesOf 8 (counterB c f), dests := counterDests c f }
  | .ctread f =>
    if !f.pair then none
    else some { mark := f.mark, vectors := [], path := 2, since := fun _ => 0, access := .counterRead, align := 8, size := 8, unit := 8,
                lanes := [(127, BitVec.ofNat 64 (c.pair f.sa.toNat))], may := fun _ => true, kind := .counter, strong := f.fn.toNat, acquire := 0,
                release := 0, op := .counterRead, data := fun _ _ => [], dests := counterDests c f }
  | _ => none

/-- The full/empty words that park (R195). -/
def fullShape (i : Instr) : Option (FullOp × MF) :=
  match i with
  | .ldfe f => some (.ldfe, f)
  | .ldff f => some (.ldff, f)
  | .stfe f => some (.stfe, f)
  | _ => none

/-- Whether an access writes, for translation and the D bit (R359). -/
def accessWrites (k : AccessKind) : Bool := k == .store || k == .atomic || k == .counterAdd

/-- The scratchpad words: vector registers, path, the bytes of each lane, whether each lane stores, the bytes it stores, and its destinations
(R191, R193). -/
structure ScratchRow where
  fields : MF
  vectors : List Nat
  path : Nat
  routed : Bool
  stores : Bool
  kind : FlightKind
  dests : List Dest

def scratchTable (i : Instr) (c : Ctx) : Option ScratchRow :=
  match i with
  | .vlds f => some { fields := f, vectors := memVectors f (widthRegs f.width) false, path := 0, routed := true, stores := false, kind := .load (widthBytes f.width),
                      dests := dataDests c f (widthRegs f.width) }
  | .vsts f => some { fields := f, vectors := memVectors f (widthRegs f.width) false, path := 1, routed := false, stores := true, kind := .store, dests := [] }
  | _ => none

/-! ## Events -/

/-- The capture `k` of a column `q`, numbered `c`, and its workgroup. -/
def Capturing (s : State) (c : Nat) (q : Column) (k : Capture) (w : Workgroup) : Prop := (c, q) ∈ s.columns ∧ q.capture = some k ∧ wgFind s k.wg = some w

/-- The messages that a controller takes, by their events (R378). -/
def messageTable (i : Instr) : Option (Nat × Nat) :=
  match i with
  | .gets id => some (id, 4)
  | .getm id => some (id, 5)
  | .putm id => some (id, 6)
  | .inv id => some (id, 8)
  | .fwds id => some (id, 9)
  | .fwdm id => some (id, 10)
  | .data id => some (id, 11)
  | .ack id => some (id, 12)
  | .wbdata id => some (id, 14)
  | .putack id => some (id, 15)
  | _ => none

/-- The mailbox runs a command with its length and payload, and the package is not held in reset. -/
def Asked (s : State) (opc len : Nat) (b : List Byte) : Prop :=
  s.mailbox.busy = true ∧ s.mailbox.runOpc = opc ∧ s.mailbox.runLen = len ∧ s.mailbox.runPayload = b ∧ s.inReset = false

/-! ## Numbers -/

/-- A finite value as a rational number. -/
def Val.rational (v : Val) : Rat := mkRat v.signedNum v.denom

/-- Element `e` of a lane's number, and the number of a source in a lane. -/
def element (w v e : Nat) : BitVec w := BitVec.ofNat w (v / 2 ^ (w * e))
def sourceAt (c : Ctx) (a : Src) (l : Nat) : Nat := (c.take a).getD l 0

end Sys2Proof.Machine
end

