-- ==== Sys2Proof/Certificates/Slice0/Obligations.lean ====
section
/-! DEFINITION. The statements for the provers: what the manual's rules say of the model. Each docstring names the rules. -/

open Sys2Proof Sys2Proof.Machine

/-! ## Encoding, decoding, and the step -/

/-- R87 to R105: Every well-formed instruction decodes from its own word, with every operand. -/
def Obligations.EncodeThenDecode : Prop :=  ∀ i w, i.wellFormed = true → encode i = some w → decode w = .ok i

/-- R91, R103: A word decodes to an instruction only if it is that instruction's own encoding, so no bit of it is ignored. -/
def Obligations.DecodeReadsEveryBit : Prop :=  ∀ w i, decode w = .ok i → i.wellFormed = true ∧ encode i = some w

/-- R87 to R99: Words that the manual writes out bit by bit decode to the instructions that they stand for: `sset s7, s3, 10, lt`; `sadd s4:s5, s4:s5,
-8`; `loop 4`; `vxor v3, v3, v1.rot(1) !`; `vbfi`; `mandn`; a marked `fadd` that holds B and rotates A; `vld.w` with acquire; `atom.w`; `fence.dev
sc`; an `mma` with Z; and `trap 42`. -/
def Obligations.WrittenWordsDecode : Prop :=  decode 0x09070C020000000A = .ok (.sset { mark := false, sd := 7, sa := 3, sb := 0, pair := false, fn := 2, imm := 10 }) ∧
  decode 0x00841008FFFFFFF8 = .ok (.sadd { mark := false, sd := 4, sa := 4, sb := 0, pair := true, fn := 0, imm := 0xFFFFFFF8 }) ∧
  decode 0x2280000400000001 = .ok (.loop { mark := false, sa := 0, cond := 0, aux := 4, offset := 1 }) ∧
  decode 0x45C060C080002100 = .ok (.vxor { mark := true, hold := .none, d := 3, a := 3, b := 1, c := 0, ra := .identity, rb := .rot32 1, rc := .identity }) ∧
  decode 0x4C0081C000000104 = .ok (.vbfi { mark := false, hold := .none, d := 4, a := 7, b := 0, ra := .identity, rb := .identity, imm := 0x104 }) ∧
  decode 0x31BDF6C000000000 = .ok (.mandn { mark := false, sd := 61, sa := 61, sb := 44, pair := false, fn := 0, imm := 0 }) ∧
  decode 0x7060E24100510000 = .ok (.fadd { mark := true, hold := .b, d := 7, a := 9, b := 2, c := 0, ra := .rot96 17, rb := .identity, rc := .identity }) ∧
  decode 0xA800A084002B0010 =
    .ok (.vld { mark := false, hold := .none, data := 5, addr := 2, sbase := 4, rt := .identity, width := .w, ord := .strong .dev true, offset := 16 }) ∧
  decode 0xC800C0CA002A0020 =
    .ok (.atom { mark := false, hold := .none, data := 6, addr := 3, sbase := 10, rt := .identity, width := .w, ord := .strong .dev false, offset := 32 }) ∧
  decode 0xD800000500000003 = .ok (.fence { mark := false, sd := 0, sa := 0, sb := 0, pair := false, fn := 5, imm := 3 }) ∧
  decode 0xE21C422062000000 = .ok (.mma { mark := false, u := false, na := true, z := true, fa := 8, fb := 8, acc := 2, abase := 16, sbr := 12, nc := 2 }) ∧
  decode 0xF00000000000002A = .ok (.trap { mark := false, sd := 0, sa := 0, sb := 0, pair := false, fn := 0, imm := 42 })

/-- R88, R103: The step of a split that fetches a word is the meaning of the instruction that the word decodes to, in the state that the fetch leaves;
the meaning itself moves the program counter on. -/
def Obligations.StepRunsTheDecodedWord : Prop :=  ∀ s x c s1 w i, s.issue = some x → ctxOf s x = some c → fetchWord s c = (s1, .word w) → decode w = .ok i → step s = exec i s1

/-- R100: An opcode that is not assigned raises a precise illegal-instruction trap, whatever the rest of the word holds; TRAPVAL gets the word (R105).
-/
def Obligations.UnassignedOpcodesTrap : Prop :=  ∀ s x c s1 w, s.issue = some x → ctxOf s x = some c → fetchWord s c = (s1, .word w) →
    (let op := w.toNat / 2 ^ 55
     op = 0x000 ∨ op = 0x1FF ∨ (0x01F ≤ op ∧ op ≤ 0x03F) ∨ (0x04B ≤ op ∧ op ≤ 0x05F) ∨ (0x06C ≤ op ∧ op ≤ 0x07F) ∨ (0x0A4 ≤ op ∧ op ≤ 0x0DF) ∨
     (0x0F1 ≤ op ∧ op ≤ 0x11F) ∨ (0x128 ≤ op ∧ op ≤ 0x12F) ∨ (0x13D ≤ op ∧ op ≤ 0x14F) ∨ (0x15E ≤ op ∧ op ≤ 0x18F) ∨ (0x199 ≤ op ∧ op ≤ 0x1AF) ∨
     (0x1B6 ≤ op ∧ op ≤ 0x1BF) ∨ (0x1CD ≤ op ∧ op ≤ 0x1DF) ∨ (0x1ED ≤ op ∧ op ≤ 0x1FE)) →
    step s = .next (preciseTrap s1 c 1 0 127 w)

/-! ## Reset, invariants, hard-wired registers -/

/-- R57, R302, R366, R368, R418: What the manual states of the device after reset: SEQ counters at 1, the trapeze's thresholds, the remote ways, the
bypass count, and the droop registers. The device after reset meets the invariants: its memory is in canonical form and no flight is in the air. That
unlisted bytes read zero is the model's choice (log 1). -/
def Obligations.ResetState : Prop :=
  (∀ n, (columnOf State.reset n).seq = 1 ∧ (columnOf State.reset n).thHi = 0x17C ∧ (columnOf State.reset n).thLo = 0x154 ∧
    dwellWord (columnOf State.reset n) = 2 ^ 31 + 0x1388 ∧ (towerOf State.reset n).rsh = 2 ∧ (towerOf State.reset n).pinbyp = 0 ∧
    drthWord (columnOf State.reset n) = 2 ^ 31 + 8 ∧ (coreOf State.reset n).bank = none) ∧
  (memoryOk State.reset ∧ FlightsFresh State.reset)

/-- Every step keeps the memory in its canonical form: keys rise, and no listed byte is the one that an unlisted address reads as. -/
def Obligations.StepKeepsMemoryCanonical : Prop := ∀ s t, memoryOk s → step s = .next t → memoryOk t

/-- Every step keeps the numbers of flights below the next one to be given. The numbers are the model's own (log 2). -/
def Obligations.StepKeepsFlightsFresh : Prop := ∀ s t, FlightsFresh s → step s = .next t → FlightsFresh t

/-- R32, R34: s0 reads zero and p0 reads all ones in every state; writes to them are discarded; a pair at s0 reads with a zero low half. -/
def Obligations.HardwiredRegisters : Prop :=  (∀ c : Ctx, c.s 0 = 0 ∧ c.pr 0 = BitVec.allOnes 96 ∧ c.pair 0 % 2 ^ 32 = 0) ∧
  (∀ s x core mask v, putReg s x core (.s 0) mask v = s ∧ putReg s x core (.p 0) mask v = s) ∧
  (∀ s x, (ctxOf s x).isSome = true → held s x (.s 0) = some (.word 0) ∧ held s x (.p 0) = some (.mask (BitVec.allOnes 96)))

/-! ## The checks before a word runs -/

/-- R7, R59, R101: An `rdsys` or `wrsys` of a number that the table of R58 does not list is an illegal instruction. `rett`, `pbset`, `pswap` and
`tlbinv` outside supervisor mode raise a privilege trap, and so does `wrsys` to a supervisor register outside supervisor mode, to a register that is
only read, and `rdsys` or `wrsys` of IS44 to IS59 outside handler mode; nothing but the trap happens. TRAPVAL gets the word (R105). -/
def Obligations.PrivilegeTraps : Prop :=  (∀ s x c s1 (w : DWord), s.issue = some x → ctxOf s x = some c → fetchWord s c = (s1, .word w) →
    w.toNat / 2 ^ 55 = 0x1E2 ∨ w.toNat / 2 ^ 55 = 0x1E3 →
    (let n := w.toNat % 2 ^ 32
     ¬ (n = 0x001 ∨ n = 0x002 ∨ (0x010 ≤ n ∧ n ≤ 0x012) ∨ (0x020 ≤ n ∧ n ≤ 0x02F) ∨ n = 0x030 ∨ n = 0x031 ∨ (0x038 ≤ n ∧ n ≤ 0x03F) ∨
        (0x040 ≤ n ∧ n ≤ 0x045) ∨ n = 0x050 ∨ n = 0x060 ∨ n = 0x061)) →
    step s = .next (preciseTrap s1 c 1 0 127 w)) ∧
  (∀ s c i, Issues s c i →
    ((c.super = false ∧ ((∃ f, i = .rett f) ∨ (∃ f, i = .pbsetRng f) ∨ (∃ f, i = .pbsetProt f) ∨ (∃ f, i = .pswap f) ∨
       (∃ f, i = .tlbinvPage f) ∨ (∃ f, i = .tlbinvSpace f) ∨ (∃ f, i = .tlbinvAll f) ∨ (∃ f, i = .thRegisterWrite f ∧ f.imm ∈ [0x040, 0x041, 0x042]) ∨
       (∃ f, i = .rwayfWrite f ∧ f.imm = 0x060) ∨ (∃ f, i = .wrsys f ∧ f.imm ∈ [0x010, 0x011, 0x012, 0x050]))) ∨
     (∃ f, i = .wrsys f ∧ f.imm ∈ [0x002, 0x030, 0x038, 0x039, 0x03A, 0x03B, 0x03C, 0x03D, 0x03E, 0x03F, 0x043, 0x044, 0x045, 0x061]) ∨
     (c.handler = false ∧ ((∃ f, i = .wrsys f ∧ 0x020 ≤ f.imm.toNat ∧ f.imm.toNat ≤ 0x02F) ∨ (∃ f, i = .rdsys f ∧ 0x020 ≤ f.imm.toNat ∧ f.imm.toNat ≤ 0x02F)))) →
    Traps i s c 2 0 127 (wordOf i))

/-- R97, R103, R105, R147: An element-by-element word with a vector register that the launch does not declare raises a register-index trap; TRAPVAL
gets the first offending number, from the destination down. An integer word under a floating-point or undefined element type, and a pair that the
element type makes of an odd register, raise an illegal-instruction trap with the word in TRAPVAL. -/
def Obligations.OperandChecksTrap : Prop :=
  (∀ s c i f n io, elementShape i = some (f, n, io) → Issues s c i →
    ∀ before m after, [f.d.toNat, f.a.toNat, f.b.toNat, f.c.toNat].take (n + 1) = before ++ m :: after → VectorsIn c before → ¬ VectorsIn c [m] →
      Traps i s c 3 0 127 (BitVec.ofNat 64 m)) ∧
  (∀ s c i f n io, elementShape i = some (f, n, io) → Issues s c i → VectorsIn c ([f.d.toNat, f.a.toNat, f.b.toNat, f.c.toNat].take (n + 1)) →
    (c.et > (if io then 7 else 11) ∨ ¬ EvenIfWide c ([f.d.toNat, f.a.toNat, f.b.toNat, f.c.toNat].take (n + 1))) →
    Traps i s c 1 0 127 (wordOf i))

/-! ## Traps and the handler -/

/-- R241, R243 to R245: A precise trap outside handler mode, with a handler and a free bank: TRAPCAUSE, TRAPPC and TRAPVAL are written, the group is
in handler mode with a cleared shadow bank and no hold entries, the split goes on at the handler, its MODE and scalars and every other register stay,
and memory stays. -/
def Obligations.TrapEntersHandler : Prop :=  ∀ s c code detail lane value, issuing s = some c → c.g.handler = none → (s.debugger = false ∨ code ≠ 12) → handlerOf s c.r ≠ 0 → c.core.bank = none →
    ∃ p g, splitFind (preciseTrap s c code detail lane value) c.x = some p ∧ groupFind (preciseTrap s c code detail lane value) (groupOf c.x) = some g ∧
      p.trapCause = BitVec.ofNat 32 (code + 2 ^ 8 * detail + 2 ^ 24 * lane) ∧ p.trapPc = c.p.pc ∧ p.trapVal = value ∧
      p.pc = BitVec.ofNat 64 (handlerOf s c.r) ∧ p.state = .running ∧ p.mode = c.p.mode ∧ p.scalars = c.p.scalars ∧
      g.handler = some c.x.slot ∧ g.hold = [] ∧ g.vregs = c.g.vregs ∧ g.preds = c.g.preds ∧ g.xregs = c.g.xregs ∧ g.acc = c.g.acc ∧
      (coreOf (preciseTrap s c code detail lane value) c.w.core).bank = some c.x ∧
      (∀ k, held (preciseTrap s c code detail lane value) c.x (.ks k) = some (.word 0)) ∧
      (∀ k, held (preciseTrap s c code detail lane value) c.x (.k k) = some (.lanes [])) ∧
      (∀ y, y ≠ c.x → splitFind (preciseTrap s c code detail lane value) y = splitFind s y) ∧
      (∀ a, Memory.read (preciseTrap s c code detail lane value).mem a = Memory.read s.mem a)

/-- R40, R190, R241, R352, R460: A trap raised in handler mode, or with a handler address of zero, is posted to the region's fault queue as a record of
KIND 9 with the code, the detail, the trapping address, the value, the lane and the split, ahead of the record of KIND 8 of the halt, and the group
halts: where it holds no other trap and no home owes it an answer, at once. A trap that finds the bank of its core in use parks its split, and the group
waits for the bank behind those that wait already. -/
def Obligations.TrapNotTaken : Prop :=
  (∀ s c code detail lane value, issuing s = some c → (s.debugger = false ∨ code ≠ 12) → code < 256 → detail < 256 → lane < 128 → c.x.slot < 4 →
    (c.g.handler ≠ none ∨ handlerOf s c.r = 0) → placeHandle c.w c.x.grp < 2 ^ 32 → (∀ q ∈ c.g.splits, q.undelivered = []) →
    (∀ f ∈ s.flights, groupOf f.x = groupOf c.x → f.answered = true) →
    ∃ t g r bs report, preciseTrap s c code detail lane value = t ∧ groupFind t (groupOf c.x) = some g ∧ g.halted = true ∧ g.handler = none ∧
      (∀ q ∈ g.splits, q.live = true → q.state = .halted) ∧ regionFind t c.w.region = some r ∧ r.fqWaiting = c.r.fqWaiting ++ [bs, report] ∧
      bs.length = 32 ∧ numAt bs 4 1 = code ∧ numAt bs 5 1 = 9 ∧ numAt bs 6 1 = detail ∧
      numAt bs 7 1 = (if c.g.handler.isSome then 2 else 0) ∧ numAt bs 8 8 = c.p.pc.toNat ∧ numAt bs 16 8 = value.toNat ∧ numAt bs 24 1 = lane ∧
      numAt bs 25 1 = c.x.slot ∧ report.length = 32 ∧ numAt report 5 1 = 8 ∧ numAt report 0 4 = placeHandle c.w c.x.grp ∧ t.issue = none ∧
      (∀ y r, (∀ k, r ≠ .k k ∧ r ≠ .ks k) → held t y r = held s y r) ∧
      (c.r.launches = [] → ∀ a, Memory.read t.mem a = Memory.read s.mem a)) ∧
  (∀ s c code detail lane value, issuing s = some c → c.g.handler = none → (s.debugger = false ∨ code ≠ 12) → handlerOf s c.r ≠ 0 →
    c.core.bank ≠ none →
    ∃ p t, splitFind (preciseTrap s c code detail lane value) c.x = some p ∧ p.state = .parked (.bank t) (cycleOf s c) ∧ p.pc = c.p.pc ∧
      t.code = code ∧ t.detail = detail ∧ t.lane = lane ∧ t.value = value ∧ t.pc = c.p.pc ∧ t.async = false ∧
      (coreOf (preciseTrap s c code detail lane value) c.w.core).waiters = c.core.waiters ++ [c.x] ∧
      (coreOf (preciseTrap s c code detail lane value) c.w.core).bank = c.core.bank ∧
      KeepsRegs s (preciseTrap s c code detail lane value) c.x [])

/-- R247, R248: `trap` and `brkp` take a precise trap with their immediate in TRAPVAL. `rett` in handler mode resumes at TRAPPC, or at TRAPVAL after
an asynchronous trap; the group leaves handler mode, the bank is free where no other group waits for it, loop levels and registers stay, and memory
stays. Outside handler mode it is illegal in supervisor mode, and a misaligned address traps (R88). -/
def Obligations.TrapAndReturnWords : Prop :=
  (∀ s c i, Issues s c i →
    (∀ f, i = .trap f → Traps i s c 11 0 127 (f.imm.zeroExtend 64)) ∧ (∀ f, i = .brkp f → Traps i s c 12 0 127 (f.imm.zeroExtend 64))) ∧
  (∀ s c f, Issues s c (.rett f) → c.super = true →
    let back := if c.p.trapCause.getLsbD 31 then c.p.trapVal else c.p.trapPc
    (c.handler = false → Traps (.rett f) s c 1 0 127 (wordOf (.rett f))) ∧
    (c.handler = true → back.toNat % 8 ≠ 0 → Traps (.rett f) s c 4 0 127 back) ∧
    (c.handler = true → back.toNat % 8 = 0 → (∀ y ∈ c.core.waiters, groupOf y ≠ groupOf c.x) → ∃ t p g, exec (.rett f) s = .next t ∧ splitFind t c.x = some p ∧ groupFind t (groupOf c.x) = some g ∧
      p.pc = back ∧ p.loops = c.p.loops ∧ p.scalars = c.p.scalars ∧ p.mode = c.p.mode ∧ g.handler = none ∧ g.vregs = c.g.vregs ∧ g.preds = c.g.preds ∧
      (c.core.waiters = [] → (coreOf t c.w.core).bank = none) ∧ t.issue = none ∧ (∀ a, Memory.read t.mem a = Memory.read s.mem a)))

/-! ## Control -/

/-- R88, R135, R136: The update of the loop levels at a word: nothing where the innermost level ends elsewhere; a count that is not yet zero branches
to the start; a level whose count has run out is retired, and a remaining level that ends at the same word is counted down in the same way. `loop`
opens an innermost level of its count, from the next word to its end; with a count of zero it acts as a word at its end would on completing; a third
level, and an end outside the enclosing body, are illegal. A `ret` or `jr` to an address that is not a multiple of 8 raises a misalignment trap at
itself with that address in TRAPVAL and LANE 127; a control word at the end address of a live level is illegal, with the word in TRAPVAL. -/
def Obligations.LoopLevels : Prop :=
  (∀ pc : DWord, loopUpdate [] pc = ([], pc + 8) ∧
    (∀ l rest, l.last ≠ pc → loopUpdate (l :: rest) pc = (l :: rest, pc + 8)) ∧
    (∀ l rest, l.last = pc → l.count ≥ 2 → loopUpdate (l :: rest) pc = ({ l with count := l.count - 1 } :: rest, l.start)) ∧
    (∀ l, l.last = pc → l.count = 1 → loopUpdate [l] pc = ([], pc + 8)) ∧
    (∀ l o rest, l.last = pc → l.count = 1 → o.last ≠ pc → loopUpdate (l :: o :: rest) pc = (o :: rest, pc + 8)) ∧
    (∀ l o rest, l.last = pc → l.count = 1 → o.last = pc → o.count ≥ 2 →
      loopUpdate (l :: o :: rest) pc = ({ o with count := o.count - 1 } :: rest, o.start)) ∧
    (∀ l o rest, l.last = pc → l.count = 1 → o.last = pc → o.count = 1 → loopUpdate (l :: o :: rest) pc = (rest, pc + 8))) ∧
  (∀ s c f, Issues s c (.loop f) → InBody c →
    let count := if f.sa = 0 then f.aux.toNat else (c.s f.sa.toNat).toNat
    let last := targetOf c f
    let room := c.p.loops = [] ∨ ∃ l, c.p.loops = [l] ∧ l.start.toNat ≤ last.toNat ∧ last.toNat ≤ l.last.toNat
    (room → count ≠ 0 → ∃ t, exec (.loop f) s = .next t ∧
      RanTo s t c [] [] (c.p.pc + 8) ({ count := count, start := c.p.pc + 8, last := last } :: c.p.loops)) ∧
    (room → count = 0 → ∃ t, exec (.loop f) s = .next t ∧ RanTo s t c [] [] (loopUpdate c.p.loops last).2 (loopUpdate c.p.loops last).1) ∧
    (¬ room → Traps (.loop f) s c 1 0 127 (wordOf (.loop f)))) ∧
  (∀ s c i, Issues s c i →
    (∀ f, i = .ret f → InBody c → c.pair f.sa.toNat % 8 ≠ 0 → Traps i s c 4 0 127 (BitVec.ofNat 64 (c.pair f.sa.toNat))) ∧
    (∀ f, i = .jr f → InBody c → c.pair f.sa.toNat % 8 ≠ 0 → Traps i s c 4 0 127 (BitVec.ofInt 64 (c.pair f.sa.toNat + 8 * f.offset.toInt))) ∧
    ((∃ f, i = .br f ∨ i = .bc f ∨ i = .call f ∨ i = .ret f ∨ i = .jr f ∨ i = .loop f ∨ i = .split f ∨ i = .join f ∨ i = .bzm f ∨ i = .bnzm f ∨ i = .exit f) →
      ¬ InBody c → Traps i s c 1 0 127 (wordOf i)))

/-- R88, R129 to R133: `br`, `bc`, `bzm`, `bnzm` and `jr` go to their target where their condition holds, leaving the loop levels whose bodies they
leave, and else to the next word; `call` writes the address of the next word to its pair, and `ret` goes to its pair's address, with no level retired.
None changes another register or memory. After a taken branch the split's next word issues no earlier than the second cycle after it. -/
def Obligations.BranchesTransferControl : Prop :=
  (∀ s c i, Issues s c i → InBody c →
    let goto (f : BF) : DWord := targetOf c f
    let mask (f : BF) : Mask := if f.sa = 0 then c.active else c.triple f.sa.toNat &&& c.alive
    let b (f : BF) : BitVec 32 := if f.aux.getLsbD 11 then c.s (f.aux.extractLsb' 0 6).toNat else (f.aux.extractLsb' 0 11).signExtend 32
    (∀ f, i = .br f → ∃ t, exec i s = .next t ∧ RanTo s t c [] [] (goto f) (loopLeave c.p.loops c.p.pc (goto f))) ∧
    (∀ f, i = .bc f → ∃ t, exec i s = .next t ∧
      (if condTable f.cond.toNat (c.s f.sa.toNat) (b f) then RanTo s t c [] [] (goto f) (loopLeave c.p.loops c.p.pc (goto f)) else Ran s t c [] [])) ∧
    (∀ f, i = .bzm f → ∃ t, exec i s = .next t ∧ (if mask f = 0 then RanTo s t c [] [] (goto f) (loopLeave c.p.loops c.p.pc (goto f)) else Ran s t c [] [])) ∧
    (∀ f, i = .bnzm f → ∃ t, exec i s = .next t ∧ (if mask f = 0 then Ran s t c [] [] else RanTo s t c [] [] (goto f) (loopLeave c.p.loops c.p.pc (goto f)))) ∧
    (∀ f, i = .call f → ∃ t, exec i s = .next t ∧ ScalarGets t c true f.sa.toNat (c.p.pc + 8).toNat ∧ RanTo s t c (scalarRegs c true f.sa.toNat) [] (goto f) c.p.loops) ∧
    (∀ f, i = .ret f → c.pair f.sa.toNat % 8 = 0 → ∃ t, exec i s = .next t ∧ RanTo s t c [] [] (BitVec.ofNat 64 (c.pair f.sa.toNat)) c.p.loops) ∧
    (∀ f, i = .jr f → c.pair f.sa.toNat % 8 = 0 → ∃ t, exec i s = .next t ∧
      (let target := BitVec.ofInt 64 (c.pair f.sa.toNat + 8 * f.offset.toInt); RanTo s t c [] [] target (loopLeave c.p.loops c.p.pc target)))) ∧
  (∀ s c f, Issues s c (.br f) → InBody c → ∃ t, exec (.br f) s = .next t ∧ (splitFind t c.x).map (fun p => p.resumeAt) = some (cycleOf s c + 2))

/-- R138, R139: `split` with no lane to take falls through, and with no lane to leave branches, each with a NONE token; with both, a free slot and a
free record it divides: the new split owns the taken lanes, runs at the target with their triple, and the old one owns and runs the others. -/
def Obligations.SplitDivides : Prop :=  ∀ s c f, Issues s c (.split f) → InBody c →
    let pm := c.pr (f.aux.toNat % 8)
    let n := f.sa.toNat
    let target := targetOf c f
    let token := [sref c n, sref c (n + 1), sref c (n + 2), sref c (n + 3)]
    (c.active &&& pm = 0 → ∃ t, exec (.split f) s = .next t ∧ ScalarGets t c false n 0x40000000 ∧ TripleGets t c (n + 1) 0 ∧ Ran s t c token []) ∧
    (c.active &&& pm ≠ 0 → c.active &&& ~~~ pm = 0 → ∃ t, exec (.split f) s = .next t ∧ ScalarGets t c false n 0x40000000 ∧ TripleGets t c (n + 1) 0 ∧
      RanTo s t c token [] target (loopLeave c.p.loops c.p.pc target)) ∧
    (c.active &&& pm ≠ 0 → c.active &&& ~~~ pm ≠ 0 → c.p.live = true → ∀ slot rec_, freeSlot c.g = some slot → freeRecord c.g = some rec_ →
      ∃ t old new g, exec (.split f) s = .next t ∧ splitFind t c.x = some old ∧ splitFind t { c.x with slot := slot } = some new ∧
        groupFind t (groupOf c.x) = some g ∧
        new.own = c.active &&& pm ∧ new.live = true ∧ new.pc = target ∧ new.triple = c.active &&& pm ∧ new.mode = c.p.mode ∧
        old.own = c.p.own &&& ~~~ (c.active &&& pm) ∧ old.pc = c.p.pc + 8 ∧ old.triple = c.active &&& ~~~ pm ∧ old.mode = c.p.mode ∧
        g.joins.length = c.g.joins.length + 1 ∧ g.vregs = c.g.vregs ∧ g.preds = c.g.preds ∧ (∀ a, Memory.read t.mem a = Memory.read s.mem a))

/-- R141: `join` of a NONE token falls through; of a deferred token it runs the other side at the token's address with the token's mask; of a
returning token it ends with both masks; the first to arrive of a hardware token parks until the other comes; and the second merges: the lowest slot
goes on and owns both splits' lanes, and the other slot is free. -/
def Obligations.JoinMeets : Prop :=  ∀ s c f, Issues s c (.join f) → InBody c →
    let n := f.sa.toNat
    let kind := (c.s n).toNat / 2 ^ 30
    (kind = 1 → ∃ t, exec (.join f) s = .next t ∧ Ran s t c [] []) ∧
    (kind = 0 → n + 3 < 61 → ∃ t p, exec (.join f) s = .next t ∧ splitFind t c.x = some p ∧ p.triple = c.triple (n + 1) ∧
      p.pc = BitVec.ofNat 64 (c.p.pc.toNat / 2 ^ 33 * 2 ^ 33 + (c.s n).toNat % 2 ^ 30 * 8) ∧ p.own = c.p.own) ∧
    (kind = 3 → n + 3 < 61 → ∃ t p, exec (.join f) s = .next t ∧ splitFind t c.x = some p ∧
      p.triple = (c.triple 61 ||| c.triple (n + 1)) ∧ p.own = c.p.own ∧ ScalarGets t c false n 0x40000000) ∧
    (kind = 2 → ∀ j, c.g.joins = [j] → j.record = (c.s n).toNat / 2 ^ 8 % 4 → j.gen = (c.s n).toNat / 2 ^ 10 % 64 → j.newSlot ≠ j.oldSlot →
      c.x.slot = j.newSlot ∨ c.x.slot = j.oldSlot → answersDue s c.x = false → c.p.pending = [] → j.newEnded = false → j.oldEnded = false →
      (j.newDone = false → j.oldDone = false → ∃ t p, exec (.join f) s = .next t ∧ splitFind t c.x = some p ∧
        p.state = .parked (.join j.record n) (cycleOf s c) ∧ p.own = c.p.own) ∧
      (∀ other q, (c.x.slot = j.newSlot ∧ j.newDone = false ∧ j.oldDone = true ∧ other = j.oldSlot) ∨
          (c.x.slot = j.oldSlot ∧ j.oldDone = false ∧ j.newDone = true ∧ other = j.newSlot) → splitFind s { c.x with slot := other } = some q →
        ∃ t p e, exec (.join f) s = .next t ∧ splitFind t { c.x with slot := min c.x.slot other } = some p ∧
          splitFind t { c.x with slot := max c.x.slot other } = some e ∧ p.own = q.own ||| c.p.own ∧ p.state = .running ∧ e.live = false))

/-- R134: `exit` adds the active lanes to those that have exited; a split that still owns another lane goes on at the next word, and a split that owns
none ends; with every lane of the group gone the group ends. -/
def Obligations.ExitEndsLanes : Prop :=  ∀ s c f, Issues s c (.exit f) → InBody c →
    (c.active = 0 → ∃ t, exec (.exit f) s = .next t ∧ Ran s t c [] []) ∧
    (c.active ≠ 0 → answersDue s c.x = false → c.p.pending = [] →
      ∃ t p g, exec (.exit f) s = .next t ∧ splitFind t c.x = some p ∧ groupFind t (groupOf c.x) = some g ∧ g.exited = c.g.exited ||| c.active ∧
        (c.p.own &&& ~~~ (c.g.exited ||| c.active) ≠ 0 → p.pc = (loopUpdate c.p.loops c.p.pc).2 ∧ p.live = c.p.live ∧ p.own = c.p.own) ∧
        (c.p.own &&& ~~~ (c.g.exited ||| c.active) = 0 →
          (∀ j ∈ c.g.joins, (j.newDone = true → j.newSlot ≠ c.x.slot) ∧ (j.oldDone = true → j.oldSlot ≠ c.x.slot)) → p.live = false ∧ p.own = 0) ∧
        (c.g.exited ||| c.active = BitVec.allOnes 96 → g.ended = true) ∧ (c.g.exited ||| c.active ≠ BitVec.allOnes 96 → g.ended = c.g.ended) ∧
        (∀ a, Memory.read t.mem a = Memory.read s.mem a))

/-! ## Scalars, masks, predicates, state words -/

/-- R50, R125 to R127: Each scalar word but the divisions completes, and writes its row's result over W bits to SD or the pair; nothing else changes.
`sdiv` and `srem` complete with a later result: the quotient rounded toward zero, and what is left; all ones, and a, for a zero divisor. No register
changes yet. -/
def Obligations.ScalarResults : Prop :=
  (∀ s c i (f : SF), Issues s c i →
    let w := if f.pair then 64 else 32
    let b := if f.sb = 0 then (f.imm.signExtend 64).toNat else c.scalar f.pair f.sb.toNat
    ∀ v, scalarTable i (BitVec.ofNat w (c.scalar f.pair f.sa.toNat)) (BitVec.ofNat w b) (BitVec.ofNat w (c.scalar f.pair f.sd.toNat)) = some (f, v) →
    ∃ t, exec i s = .next t ∧ ScalarGets t c f.pair f.sd.toNat v.toNat ∧ Ran s t c (scalarRegs c f.pair f.sd.toNat) []) ∧
  (∀ s c i (f : SF), Issues s c i →
    let w := if f.pair then 64 else 32
    let b := if f.sb = 0 then (f.imm.signExtend 64).toNat else c.scalar f.pair f.sb.toNat
    ∀ v, divideTable i (BitVec.ofNat w (c.scalar f.pair f.sa.toNat)) (BitVec.ofNat w b) = some (f, v) →
    ∃ t, exec i s = .next t ∧ Ran s t c [] [later s c (destScalars c f.pair f.sd.toNat v.toNat) 0])

/-- R36, R41, R102, R128, R145, R146, R215: `srdt` writes TIME as the word issues, `rmode` writes MODE, and `nop` writes nothing. `mode` and `xbnd`
write MODE and XBND, and change nothing else; a value that the register may not hold is an illegal instruction, with the rejected value of MODE, or
the `xbnd` word, in TRAPVAL. -/
def Obligations.StateWords : Prop :=
  (∀ s c,
    (∀ f, Issues s c (.srdt f) → ∃ t, exec (.srdt f) s = .next t ∧ ScalarGets t c f.pair f.sd.toNat (timeOf s) ∧ Ran s t c (scalarRegs c f.pair f.sd.toNat) []) ∧
    (∀ f, Issues s c (.rmode f) → ∃ t, exec (.rmode f) s = .next t ∧ ScalarGets t c f.pair f.sd.toNat c.p.mode.toNat ∧ Ran s t c (scalarRegs c f.pair f.sd.toNat) []) ∧
    (∀ f, Issues s c (.nop f) → ∃ t, exec (.nop f) s = .next t ∧ Ran s t c [] [])) ∧
  (∀ s c,
    (∀ f, Issues s c (.mode f) →
      let b : BitVec 32 := if f.sb = 0 then f.imm else c.s f.sb.toNat
      let k := c.s f.sa.toNat
      let v : BitVec 32 := if f.fn = 0 then b else (b &&& k) ||| (c.p.mode.truncate 32 &&& ~~~ k)
      (v >>> 14 = 0 → (v &&& 15).toNat < 12 → ∃ t, exec (.mode f) s = .next t ∧
        Ran (modSplit s c.x (fun p => { p with mode := v.zeroExtend 64 })) t c [] []) ∧
      (v >>> 14 ≠ 0 ∨ 12 ≤ (v &&& 15).toNat → Traps (.mode f) s c 1 0 127 (v.zeroExtend 64))) ∧
    (∀ f, Issues s c (.xbnd f) →
      let b : BitVec 32 := if f.sb = 0 then f.imm else c.s f.sb.toNat
      (b >>> 15 = 0 → b.getLsbD 7 = false → ∃ t, exec (.xbnd f) s = .next t ∧ Ran (modSplit s c.x (fun p => { p with xbnd := b })) t c [] []) ∧
      (b >>> 15 ≠ 0 ∨ b.getLsbD 7 = true → Traps (.xbnd f) s c 1 0 127 (wordOf (.xbnd f)))))

/-- R34, R144, R145, R212, R213: Each mask word and `vballot` completes and writes its triple, and each count and vote completes and writes its
scalar; nothing else changes. Each word that writes a predicate completes and writes the bits of the active lanes whose guard holds; p0 discards them.
-/
def Obligations.MaskWords : Prop :=
  (∀ s c i, Issues s c i →
    (∀ f m, maskTable i c (c.triple f.sa.toNat) (if f.sb = 0 then f.imm ++ f.imm ++ f.imm else c.triple f.sb.toNat) = some (f, m) →
      ∃ t, exec i s = .next t ∧ TripleGets t c f.sd.toNat m ∧ Ran s t c (tripleRegs c f.sd.toNat) []) ∧
    (∀ f n, laneCountTable i c = some (f, n) →
      ∃ t, exec i s = .next t ∧ ScalarGets t c false f.sd.toNat n ∧ Ran s t c (scalarRegs c false f.sd.toNat) [])) ∧
  (∀ s c i f b, Issues s c i → (∀ l, l < 96 → predicateTable i c l = some (f, b l)) →
    ∃ t, exec i s = .next t ∧ PredicateGets t c (f.sd.toNat % 8) c.writes b ∧ Ran s t c [.p (f.sd.toNat % 8)] [])

/-! ## Vector words -/

/-- R24, R31, R147, R150, R153, R157: Each element-by-element integer word completes under an element type it takes, and writes to each active lane
whose guard holds the table's result of every element; other lanes, registers and memory keep their values. -/
def Obligations.VectorElementResults : Prop :=  ∀ s c i f n io, elementShape i = some (f, n, io) → Issues s c i →
    let regs := [f.d.toNat, f.a.toNat, f.b.toNat, f.c.toNat].take (n + 1)
    let wide := etWide c.et
    let w := etWidth c.et
    VectorsIn c regs → c.et ≤ (if io then 7 else 11) → EvenIfWide c regs →
    ∃ t r, exec i s = .next t ∧ LanesGet t c wide f.d.toNat c.writes r ∧ Ran s t c (vectorRegs c wide f.d.toNat) [] ∧
      ∀ l, l < 96 → ∀ e, e < etCount c.et →
        (element w (r l) e : BitVec w) = elementTable i (etSigned c.et) c.sat (element w (sourceAt c { reg := f.a.toNat, route := f.ra, wide := wide } l) e)
          (element w (sourceAt c { reg := f.b.toNat, route := f.rb, wide := wide } l) e)
          (element w (sourceAt c { reg := f.c.toNat, route := f.rc, wide := wide } l) e)

/-- R151, R152, R154, R158 to R160: `vaddi` adds its immediate to every element, `vmovi` writes it to the lane, and `vbfx` and `vbfi` extract and
insert a field of every element, from the immediate or from the lane's register B. `vmulw` writes the exact products to a pair; `vcvt` moves one
element to another integer type, `vpack` narrows elements of twice the width, both to the nearest value under SAT, and `vunpk` widens half of the
elements. -/
def Obligations.VectorFieldAndWidthResults : Prop :=
  (∀ s c,
    let wide := etWide c.et
    let w := etWidth c.et
    let k (imm : BitVec 32) : Nat := if c.et = 2 then (imm.signExtend 64).toNat else if c.et = 9 then imm.toNat * 2 ^ 32 else imm.toNat
    (∀ f, Issues s c (.vaddi f) → VectorsIn c [f.d.toNat, f.a.toNat] → c.et ≤ 7 → EvenIfWide c [f.d.toNat, f.a.toNat] →
      ∃ t r, exec (.vaddi f) s = .next t ∧ LanesGet t c wide f.d.toNat c.writes r ∧ Ran s t c (vectorRegs c wide f.d.toNat) [] ∧
        ∀ l, l < 96 → ∀ e, e < etCount c.et → (element w (r l) e : BitVec w) =
          elementFit (etSigned c.et) c.sat (elementInt (etSigned c.et) (element w (sourceAt c { reg := f.a.toNat, route := f.ra, wide := wide } l) e) +
            elementInt (etSigned c.et) (element w (k f.imm) e))) ∧
    (∀ f, Issues s c (.vmovi f) → VectorsIn c [f.d.toNat] → c.et ≤ 11 → EvenIfWide c [f.d.toNat] →
      ∃ t, exec (.vmovi f) s = .next t ∧ LanesGet t c wide f.d.toNat c.writes (fun _ => k f.imm) ∧ Ran s t c (vectorRegs c wide f.d.toNat) []) ∧
    (∀ i f, i = .vbfx f ∨ i = .vbfi f → Issues s c i → VectorsIn c ([f.d.toNat, f.a.toNat] ++ (if f.imm.getLsbD 14 then [f.b.toNat] else [])) →
      c.et ≤ 11 → EvenIfWide c [f.d.toNat, f.a.toNat] →
      ∃ t r, exec i s = .next t ∧ LanesGet t c wide f.d.toNat c.writes r ∧ Ran s t c (vectorRegs c wide f.d.toNat) [] ∧
        ∀ l, l < 96 → ∀ e, e < etCount c.et →
          let b := sourceAt c { reg := f.b.toNat, route := f.rb } l
          let pos := if f.imm.getLsbD 14 then b % 64 else f.imm.toNat % 64
          let wid := min (if f.imm.getLsbD 14 then b / 256 % 64 else f.imm.toNat / 64 % 128) w
          let a : BitVec w := element w (sourceAt c { reg := f.a.toNat, route := f.ra, wide := wide } l) e
          let d : BitVec w := element w (sourceAt c { reg := f.d.toNat, wide := wide } l) e
          (element w (r l) e : BitVec w) = if i = .vbfx f then extractField a pos wid (f.imm.getLsbD 13) else insertField d a pos wid)) ∧
  (∀ s c,
    let wide := etWide c.et
    let w := etWidth c.et
    let sgn := etSigned c.et
    (∀ f, Issues s c (.vmulw f) → VectorsIn c [f.d.toNat, f.a.toNat, f.b.toNat] → c.et ≤ 7 → wide = false →
      ∃ t r, exec (.vmulw f) s = .next t ∧ LanesGet t c true f.d.toNat c.writes r ∧ Ran s t c (vectorRegs c true f.d.toNat) [] ∧
        ∀ l, l < 96 → ∀ e, e < etCount c.et → (element (2 * w) (r l) e : BitVec (2 * w)) =
          BitVec.ofInt (2 * w) (elementInt sgn (element w (sourceAt c { reg := f.a.toNat, route := f.ra } l) e : BitVec w) *
            elementInt sgn (element w (sourceAt c { reg := f.b.toNat, route := f.rb } l) e : BitVec w))) ∧
    (∀ f, Issues s c (.vcvt f) → VectorsIn c [f.d.toNat, f.a.toNat] → c.et ≤ 7 → f.imm.toNat / 64 % 4 < etCount c.et → EvenIfWide c [f.d.toNat] →
      let from_ := f.imm.toNat % 16
      let v (l : Nat) : BitVec (etWidth from_) := element _ (sourceAt c { reg := f.a.toNat, route := f.ra, wide := etWide from_ } l) (f.imm.toNat / 16 % 4)
      ∃ t r, exec (.vcvt f) s = .next t ∧ LanesGet t c wide f.d.toNat c.writes r ∧ Ran s t c (vectorRegs c wide f.d.toNat) [] ∧
        ∀ l, l < 96 → ∀ e, e < etCount c.et → (element w (r l) e : BitVec w) =
          if e = f.imm.toNat / 64 % 4 then elementFit sgn c.sat (elementInt (etSigned from_) (v l)) else element w (sourceAt c { reg := f.d.toNat } l) e) ∧
    (∀ f, Issues s c (.vpack f) → VectorsIn c [f.d.toNat, f.a.toNat, f.b.toNat] → 4 ≤ c.et → c.et ≤ 7 →
      ∃ t r, exec (.vpack f) s = .next t ∧ LanesGet t c false f.d.toNat c.writes r ∧ Ran s t c (vectorRegs c false f.d.toNat) [] ∧
        ∀ l, l < 96 → ∀ e, e < etCount c.et → (element w (r l) e : BitVec w) =
          let half := etCount c.et / 2
          let src := if e < half then sourceAt c { reg := f.a.toNat, route := f.ra } l else sourceAt c { reg := f.b.toNat, route := f.rb } l
          elementFit sgn c.sat (elementInt (!f.imm.getLsbD 0) (element (2 * w) src (e % half) : BitVec (2 * w)))) ∧
    (∀ f, Issues s c (.vunpk f) → VectorsIn c [f.d.toNat, f.a.toNat] → c.et ∈ [0, 1, 4, 5] →
      ∃ t r, exec (.vunpk f) s = .next t ∧ LanesGet t c false f.d.toNat c.writes r ∧ Ran s t c (vectorRegs c false f.d.toNat) [] ∧
        ∀ l, l < 96 → ∀ e, e < etCount c.et → (element w (r l) e : BitVec w) =
          BitVec.ofInt w (elementInt (!f.imm.getLsbD 1)
            (element (w / 2) (sourceAt c { reg := f.a.toNat, route := f.ra } l) (etCount c.et * (f.imm.toNat % 2) + e) : BitVec (w / 2)))))

/-- R155, R156, R171, R172: `vcmp` and `fcmp` compare one element per lane, and `fclass` tests its class, into a predicate, set, ANDed or ORed; `vsel`
takes A where its predicate holds and B elsewhere. -/
def Obligations.CompareAndSelectResults : Prop :=  ∀ s c,
    let wide := etWide c.et
    let w := etWidth c.et
    let comb (code : Nat) (old new : Bool) : Bool := if code = 0 then new else if code = 1 then old && new else old || new
    (∀ f, Issues s c (.vcmp f) → VectorsIn c [f.a.toNat, f.b.toNat] → c.et ≤ 7 → f.imm.toNat / 16 % 4 < etCount c.et → EvenIfWide c [f.a.toNat, f.b.toNat] →
      ∃ t, exec (.vcmp f) s = .next t ∧ Ran s t c [.p (f.d.toNat % 8)] [] ∧ PredicateGets t c (f.d.toNat % 8) c.writes (fun l =>
        comb (f.imm.toNat / 64 % 4) (has (c.pr (f.d.toNat % 8)) l) (condTable (f.imm.toNat % 16)
          (element w (sourceAt c { reg := f.a.toNat, route := f.ra, wide := wide } l) (f.imm.toNat / 16 % 4))
          (element w (sourceAt c { reg := f.b.toNat, route := f.rb, wide := wide } l) (f.imm.toNat / 16 % 4))))) ∧
    (∀ f, Issues s c (.fcmp f) → VectorsIn c [f.a.toNat, f.b.toNat] → 8 ≤ c.et → c.et ≤ 11 → f.imm.toNat / 16 % 4 < etCount c.et →
      EvenIfWide c [f.a.toNat, f.b.toNat] →
      ∃ t, exec (.fcmp f) s = .next t ∧ Ran s t c [.p (f.d.toNat % 8)] [] ∧ PredicateGets t c (f.d.toNat % 8) c.writes (fun l =>
        comb (f.imm.toNat / 64 % 4) (has (c.pr (f.d.toNat % 8)) l) (fcondHolds (f.imm.toNat % 16)
          (c.fl (elem w (sourceAt c { reg := f.a.toNat, route := f.ra, wide := wide } l) (f.imm.toNat / 16 % 4)))
          (c.fl (elem w (sourceAt c { reg := f.b.toNat, route := f.rb, wide := wide } l) (f.imm.toNat / 16 % 4)))))) ∧
    (∀ f, Issues s c (.fclass f) → VectorsIn c [f.a.toNat] → 8 ≤ c.et → c.et ≤ 11 → f.imm.toNat / 4096 % 2 < etCount c.et → EvenIfWide c [f.a.toNat] →
      ∃ t, exec (.fclass f) s = .next t ∧ Ran s t c [.p (f.d.toNat % 8)] [] ∧ PredicateGets t c (f.d.toNat % 8) c.writes (fun l =>
        comb (f.imm.toNat / 8192 % 4) (has (c.pr (f.d.toNat % 8)) l)
          (f.imm.getLsbD (classOf (fpOf c.et) (elem w (sourceAt c { reg := f.a.toNat, route := f.ra, wide := wide } l) (f.imm.toNat / 4096 % 2)))))) ∧
    (∀ f, Issues s c (.vsel f) → VectorsIn c [f.d.toNat, f.a.toNat, f.b.toNat] → c.et ≤ 11 → EvenIfWide c [f.d.toNat, f.a.toNat, f.b.toNat] →
      ∃ t, exec (.vsel f) s = .next t ∧ Ran s t c (vectorRegs c wide f.d.toNat) [] ∧ LanesGet t c wide f.d.toNat c.writes (fun l =>
        if has (c.pr (f.imm.toNat % 8)) l then sourceAt c { reg := f.a.toNat, route := f.ra, wide := wide } l
        else sourceAt c { reg := f.b.toNat, route := f.rb, wide := wide } l))

/-- R36, R37, R161, R162, R214: `vbcs` writes a scalar, or a pair, to every active lane whose guard holds; `vrdl` reads one lane into a scalar, or a
pair, zero for a lane it may not read, whatever is active. `rdx` and `wrx` read and write the register that each lane's index names, where every
active lane's lies within XBND and the launch's registers, and else trap with the lowest such lane and its number; `xset` and `xget` move halves of
lanes to and from an index register. -/
def Obligations.LaneAndIndexWords : Prop :=
  (∀ s c,
    let wide := etWide c.et
    (∀ f, Issues s c (.vbcs f) → VectorsIn c [f.d.toNat] → c.et ≤ 11 → EvenIfWide c [f.d.toNat, f.a.toNat % 64] →
      ∃ t, exec (.vbcs f) s = .next t ∧ Ran s t c (vectorRegs c wide f.d.toNat) [] ∧ LanesGet t c wide f.d.toNat c.writes (fun _ => c.scalar wide (f.a.toNat % 64))) ∧
    (∀ f, Issues s c (.vrdl f) → VectorsIn c [f.a.toNat] → c.et ≤ 11 → EvenIfWide c [f.d.toNat % 64, f.a.toNat] →
      let n := if f.imm.getLsbD 14 then (c.s (f.imm.toNat % 64)).toNat else f.imm.toNat % 128
      let readable := n < 96 ∧ has c.p.own n = true ∧ has c.g.exited n = false ∧ (has c.active n = true ∨ c.rall = true)
      ∃ t v, exec (.vrdl f) s = .next t ∧ Ran s t c (scalarRegs c wide (f.d.toNat % 64)) [] ∧ ScalarGets t c wide (f.d.toNat % 64) v ∧
        (readable → v = sourceAt c { reg := f.a.toNat, wide := wide } n) ∧ (¬ readable → v = 0))) ∧
  (∀ s c,
    let n (x imm l : Nat) : Nat := (lane (c.xr x) l).toNat % 65536 + imm
    let out (m : Nat) : Prop := m < c.p.xbnd.toNat % 128 ∨ c.p.xbnd.toNat / 256 % 128 < m ∨ c.vcnt ≤ m
    let inside (x imm : Nat) : Prop := ∀ l, l < 96 → has c.active l = true → ¬ out (n x imm l)
    let first (x imm l : Nat) : Prop := l < 96 ∧ has c.active l = true ∧ out (n x imm l) ∧ ∀ k, k < l → has c.active k = true → ¬ out (n x imm k)
    (∀ f, Issues s c (.rdx f) → VectorsIn c [f.d.toNat] → inside (f.a.toNat % 8) (f.imm.toNat % 128) →
      ∃ t, exec (.rdx f) s = .next t ∧ Ran s t c [vref c f.d.toNat] [] ∧
        VectorGets t c f.d.toNat c.writes (fun l => lane (readLanes c (.v (n (f.a.toNat % 8) (f.imm.toNat % 128) l))) l)) ∧
    (∀ f l, Issues s c (.rdx f) → VectorsIn c [f.d.toNat] → first (f.a.toNat % 8) (f.imm.toNat % 128) l →
      Traps (.rdx f) s c 3 0 l (BitVec.ofNat 64 (n (f.a.toNat % 8) (f.imm.toNat % 128) l))) ∧
    (∀ f, Issues s c (.wrx f) → VectorsIn c [f.a.toNat] → inside (f.d.toNat % 8) (f.imm.toNat % 128) →
      ∃ t, exec (.wrx f) s = .next t ∧ (∀ m, m < 128 → ∃ v, held t c.x (.v m) = some (.lanes v) ∧ ∀ l, l < 96 → lane v l =
          if has c.writes l = true ∧ n (f.d.toNat % 8) (f.imm.toNat % 128) l = m then BitVec.ofNat 32 (sourceAt c { reg := f.a.toNat, route := f.ra } l)
          else lane (Table.get c.g.vregs m []) l) ∧ Ran s t c ((List.range 128).map RegRef.v) []) ∧
    (∀ f l, Issues s c (.wrx f) → VectorsIn c [f.a.toNat] → first (f.d.toNat % 8) (f.imm.toNat % 128) l →
      Traps (.wrx f) s c 3 0 l (BitVec.ofNat 64 (n (f.d.toNat % 8) (f.imm.toNat % 128) l))) ∧
    (∀ f, Issues s c (.xset f) → VectorsIn c [f.a.toNat] → ∃ t v, exec (.xset f) s = .next t ∧ Ran s t c [.x (f.d.toNat % 8)] [] ∧
      held t c.x (.x (f.d.toNat % 8)) = some (.lanes v) ∧ ∀ l, l < 96 → lane v l =
        if has c.writes l then BitVec.ofNat 32 (sourceAt c { reg := f.a.toNat, route := f.ra } l / 2 ^ (16 * (f.imm.toNat % 2)) % 65536)
        else lane (Table.get c.g.xregs (f.d.toNat % 8) []) l) ∧
    (∀ f, Issues s c (.xget f) → VectorsIn c [f.d.toNat] → ∃ t, exec (.xget f) s = .next t ∧ Ran s t c [vref c f.d.toNat] [] ∧
      VectorGets t c f.d.toNat c.writes (fun l => let h : BitVec 16 := (lane (c.xr (f.a.toNat % 8)) l).truncate 16
        if f.imm.getLsbD 0 then h.signExtend 32 else h.zeroExtend 32)))

/-! ## Floating point -/

/-- R165 to R170: Each floating-point arithmetic word completes under a floating-point element type and writes to each active lane whose guard holds
the table's result of every element: the exact value, rounded once under MODE; `fdot2` adds two products of fp16 elements to an fp32 lane. -/
def Obligations.FloatElementResults : Prop :=  ∀ s c i,
    let wide := etWide c.et
    let w := etWidth c.et
    (∀ f n, floatShape i = some (f, n) → Issues s c i → VectorsIn c ([f.d.toNat, f.a.toNat, f.b.toNat, f.c.toNat].take (n + 1)) → 8 ≤ c.et → c.et ≤ 11 →
      EvenIfWide c ([f.d.toNat, f.a.toNat, f.b.toNat, f.c.toNat].take (n + 1)) →
      ∃ t r, exec i s = .next t ∧ LanesGet t c wide f.d.toNat c.writes r ∧ Ran s t c (vectorRegs c wide f.d.toNat) [] ∧
        ∀ l, l < 96 → ∀ e, e < etCount c.et → elem w (r l) e =
          floatTable i (fpOf c.et) c.ftz c.rnd (elem w (sourceAt c { reg := f.a.toNat, route := f.ra, wide := wide } l) e)
            (elem w (sourceAt c { reg := f.b.toNat, route := f.rb, wide := wide } l) e)
            (elem w (sourceAt c { reg := f.c.toNat, route := f.rc, wide := wide } l) e) % 2 ^ w) ∧
    (∀ f, i = .fdot2 f → Issues s c i → VectorsIn c [f.d.toNat, f.a.toNat, f.b.toNat, f.c.toNat] → c.et = 10 →
      let half (a l e : Nat) (rt : Route) : Val := fp16.read c.ftz (sourceAt c { reg := a, route := rt } l / 2 ^ (16 * e) % 2 ^ 16)
      ∃ t, exec i s = .next t ∧ Ran s t c [vref c f.d.toNat] [] ∧ VectorGets t c f.d.toNat c.writes (fun l => BitVec.ofNat 32
        (fp32.write c.ftz c.rnd (Val.sum [(half f.a.toNat l 0 f.ra).mul (half f.b.toNat l 0 f.rb), (half f.a.toNat l 1 f.ra).mul (half f.b.toNat l 1 f.rb),
          fp32.read c.ftz (sourceAt c { reg := f.c.toNat, route := f.rc } l)] c.rnd))))

/-- R173 to R178: `frnd` rounds every element to an integral value, and `fcvt` converts one element between types, an integer to the nearest that its
type holds, under MODE's rounding or the word's own. `fcvtt` replaces one element of a format-table string in each lane that it writes, and leaves the
string's other bits and every other lane, and `fcvtf` decodes one, each scaled by the lane's half of the scale operand. No other register changes. -/
def Obligations.FloatConversionResults : Prop :=
  (∀ s c,
    let wide := etWide c.et
    let w := etWidth c.et
    (∀ f, Issues s c (.frnd f) → VectorsIn c [f.d.toNat, f.a.toNat] → 8 ≤ c.et → c.et ≤ 11 → EvenIfWide c [f.d.toNat, f.a.toNat] →
      let mode := if f.imm.getLsbD 2 then f.imm.toNat % 4 else c.rnd
      ∃ t r, exec (.frnd f) s = .next t ∧ LanesGet t c wide f.d.toNat c.writes r ∧ Ran s t c (vectorRegs c wide f.d.toNat) [] ∧
        ∀ l, l < 96 → ∀ e, e < etCount c.et → elem w (r l) e =
          (fpOf c.et).flush c.ftz (toIntegral (fpOf c.et) mode ((fpOf c.et).read c.ftz (elem w (sourceAt c { reg := f.a.toNat, route := f.ra, wide := wide } l) e))) % 2 ^ w) ∧
    (∀ f, Issues s c (.fcvt f) → VectorsIn c [f.d.toNat, f.a.toNat] → c.et ≤ 11 → (8 ≤ c.et ∨ 8 ≤ f.imm.toNat % 16) → f.imm.toNat / 64 % 4 < etCount c.et →
      EvenIfWide c [f.d.toNat] →
      let from_ := f.imm.toNat % 16
      let mode := if f.imm.getLsbD 10 then f.imm.toNat / 256 % 4 else c.rnd
      let v (l : Nat) : Val := typedVal from_ c.ftz (elem (etWidth from_) (sourceAt c { reg := f.a.toNat, route := f.ra, wide := etWide from_ } l) (f.imm.toNat / 16 % 4))
      ∃ t r, exec (.fcvt f) s = .next t ∧ LanesGet t c wide f.d.toNat c.writes r ∧ Ran s t c (vectorRegs c wide f.d.toNat) [] ∧
        ∀ l, l < 96 → ∀ e, e < etCount c.et → elem w (r l) e =
          if e = f.imm.toNat / 64 % 4 then typedBits c.et c.ftz mode (v l) % 2 ^ w else elem w (sourceAt c { reg := f.d.toNat } l) e)) ∧
  (∀ s c f,
    let e := Entry.ofBits (formatEntry s c (f.imm.toNat % 16))
    let k := f.imm.toNat / 16 % 16
    let sel := f.imm.toNat / 256 % 2
    let wide := etWide c.et
    let sk := (c.s (f.b.toNat % 64)).toNat
    let string (v : Nat → Nat → Nat) (l : Nat) (regs : List Nat) : Nat := ((List.range regs.length).map (fun j => v (regs.getD j 0) l * 2 ^ (32 * j))).sum
    (Issues s c (.fcvtt f) → VectorsIn c [f.d.toNat, f.a.toNat] → 8 ≤ c.et → c.et ≤ 11 → (sel = 0 ∨ etCount c.et = 2) → EvenIfWide c [f.a.toNat] →
      k ≤ maxK e.width → (∀ n ∈ stringRegs f.d.toNat e.width k, n < 128) → VectorsIn c (stringRegs f.d.toNat e.width k) →
      let regs := stringRegs f.d.toNat e.width k
      let bit := k * e.width % 32
      let old (l : Nat) : Nat := string (fun n l => (lane (imageLanes (regNow c (vref c n))) l).toNat) l regs
      let code (l : Nat) : Nat := e.encode c.rnd c.ftz
        (((fpOf c.et).read c.ftz (elem (etWidth c.et) (sourceAt c { reg := f.a.toNat, route := f.ra, wide := wide } l) sel)).div (laneScale e sk l))
      ∃ t, exec (.fcvtt f) s = .next t ∧ Ran s t c (regs.map (vref c)) [] ∧
        ∀ j, j < regs.length → VectorGets t c (regs.getD j 0) c.writes (fun l =>
          BitVec.ofNat 32 ((old l - old l / 2 ^ bit % 2 ^ e.width * 2 ^ bit + code l * 2 ^ bit) / 2 ^ (32 * j)))) ∧
    (Issues s c (.fcvtf f) → VectorsIn c [f.d.toNat, f.a.toNat] → 8 ≤ c.et → c.et ≤ 11 → (sel = 0 ∨ etCount c.et = 2) → EvenIfWide c [f.d.toNat] →
      k ≤ maxK e.width → (∀ n ∈ stringRegs f.a.toNat e.width k, n < 128) → VectorsIn c (stringRegs f.a.toNat e.width k) →
      ∃ t r, exec (.fcvtf f) s = .next t ∧ Ran s t c (vectorRegs c wide f.d.toNat) [] ∧ LanesGet t c wide f.d.toNat c.writes r ∧
        ∀ l, l < 96 → elem (etWidth c.et) (r l) (if etCount c.et = 2 then sel else 0) =
          (fpOf c.et).write c.ftz c.rnd ((e.flushVal c.ftz (e.dec (string (fun n l => sourceAt c { reg := n, route := f.ra } l) l (stringRegs f.a.toNat e.width k) /
            2 ^ (k * e.width % 32) % 2 ^ e.width))).mul (laneScale e sk l)) % 2 ^ etWidth c.et ∧
          (etCount c.et = 2 → elem (etWidth c.et) (r l) (1 - sel) = elem (etWidth c.et) (sourceAt c { reg := f.d.toNat } l) (1 - sel))))

/-- R64, R65, R167: Sums and products of finite values are exact. Rounding to nearest: in each format of R62, where the rounded value is finite no
finite value of the format is nearer to the exact one. Rounding toward zero: the rounded magnitude is not above the exact one, and no finite value of
the format lies between them. -/
def Obligations.RoundingRules : Prop :=
  (∀ (a b : Bool) (n m : Nat) (d e : Nat) mode, 0 < d → 0 < e →
    ((Val.fin a n d).add (Val.fin b m e) mode).rational = (Val.fin a n d).rational + (Val.fin b m e).rational ∧
    ((Val.fin a n d).mul (Val.fin b m e)).rational = (Val.fin a n d).rational * (Val.fin b m e).rational) ∧
  (∀ f ∈ [fp64, fp32, fp16, bf16], ∀ (neg : Bool) (n d : Nat), 0 < d → ∀ bn bnum bden, f.value (f.encode 0 (.fin neg n d)) = .fin bn bnum bden →
    ∀ code qn qnum qden, code < 2 ^ f.width → f.value code = .fin qn qnum qden →
      |(Val.fin bn bnum bden).rational - (Val.fin neg n d).rational| ≤ |(Val.fin qn qnum qden).rational - (Val.fin neg n d).rational|) ∧
  (∀ f ∈ [fp64, fp32, fp16, bf16], ∀ (neg : Bool) (n d : Nat), 0 < d → ∃ bnum bden, f.value (f.encode 1 (.fin neg n d)) = .fin neg bnum bden ∧
    mkRat bnum bden ≤ mkRat n d ∧
    ∀ code qn qnum qden, code < 2 ^ f.width → f.value code = .fin qn qnum qden → mkRat qnum qden ≤ mkRat n d → mkRat qnum qden ≤ mkRat bnum bden)

/-- R50, R85, R179, R181: Each special-function word completes under fp32, fp16 and bf16 with a later result for the lanes it writes, of every element
the function's value in the element's format. Which value within the bound is returned is a free value (log 58). -/
def Obligations.SpecialFunctionResults : Prop :=  ∀ s c i f fn, specialShape i = some (f, fn) → Issues s c i → VectorsIn c [f.d.toNat, f.a.toNat] → c.core.special.length < 4 →
    (c.et = 8 ∨ c.et = 10 ∨ c.et = 11) →
    ∃ t fl v, exec i s = .next t ∧ Ran s t c [] [fl] ∧ fl.id = s.nextId ∧ fl.x = c.x ∧ fl.written = false ∧ fl.parts = [] ∧
      fl.dests = numberedDests c.x [destOf (vref c f.d.toNat) c.writes (.lanes v)] ∧ cycleOf s c + (if c.et = 8 then 12 else 24) ≤ fl.readyAt ∧
      (coreOf t c.w.core).special = c.core.special ++ [s.nextId] ∧
      ∀ l, l < 96 → ∀ e, e < etCount c.et → elem (etWidth c.et) (lane v l).toNat e =
        specialElem fn c.et c.rnd c.ftz (elem (etWidth c.et) (sourceAt c { reg := f.a.toNat, route := f.ra } l) e) % 2 ^ etWidth c.et

/-! ## Memory words -/

/-- R184 to R194, R198 to R205, R265, R268, R269: Each word that loads, stores or changes global memory completes where the checks of every lane pass and
the leaf entries take their A and D bits, and launches its flight: one access for each unit of each lane that it accesses, at the physical address of
the lane's page, with the row's operation, bytes, scopes of order and destinations. The registers are written later. -/
def Obligations.GlobalMemoryWordsLaunch : Prop :=  ∀ s c i row s1 seen, globalTable i c = some row → Issues s c i → VectorsIn c row.vectors → PathRoom c row.path →
    checkGlobal s c row.access row.align row.size row.unit row.lanes = .ok s1 seen →
    let mine := seen.filter (fun q => row.may q.lane)
    ∀ s2, touchAll s1 c (accessWrites row.access) mine = some s2 →
    ∃ u, (u = s2 ∨ ∃ srcs kept, u = vectorIssue s2 c srcs kept 1) ∧
      exec i s = .next (settle (launchFlight u c { Flight.new u c row.kind with
        path := some row.path, since := row.since s2, strong := row.strong, acquire := row.acquire, release := row.release,
        parts := mine.map (fun q => globalUnit s2 q row.op (row.data q.lane q.base)), dests := row.dests }) c row.mark .next)

/-- R45, R186, R187, R191, R193, R256, R362: A lane whose address is not aligned traps before any access, the lowest lane deciding; a check that fails
traps with the lane and its address; a page that is not present parks the split at the word with a record for the driver. A scratchpad lane that is
not aligned, lies outside the allocation, or, for `vstm`, outside the mirrored window, traps before any lane stores. -/
def Obligations.MemoryWordsTrap : Prop :=
  (∀ s c i row, globalTable i c = some row → Issues s c i → VectorsIn c row.vectors → PathRoom c row.path →
    (∀ before l va after, row.lanes = before ++ (l, va) :: after → (∀ e ∈ before, e.2.toNat % row.align = 0) → va.toNat % row.align ≠ 0 →
      Traps i s c 4 0 l va) ∧
    (∀ code detail l va, checkGlobal s c row.access row.align row.size row.unit row.lanes = .trap code detail l va → Traps i s c code detail l va) ∧
    (∀ s1 l va, checkGlobal s c row.access row.align row.size row.unit row.lanes = .absent s1 l va →
      exec i s = .next (parkAt (queueRecord s1 c.w.region (recordPage c.w c.x.grp false va c.p.pc l (accessCode row.access))) c
        (.pageFault false va l (accessCode row.access) none)))) ∧
  (∀ s c i f (routed mirrored : Bool), (i = .vlds f ∧ routed = true ∧ mirrored = false) ∨ (i = .vsts f ∧ routed = false ∧ mirrored = false) ∨
      (i = .vstm f ∧ routed = false ∧ mirrored = true) → Issues s c i → VectorsIn c (memVectors f (widthRegs f.width) false) →
    PathRoom c (if mirrored then 5 else if routed then 0 else 1) →
    let n := widthBytes f.width
    let lanes := activeAddrs c (scratchAddrs c f routed)
    (∀ before l va after, lanes = before ++ (l, va) :: after → (∀ e ∈ before, e.2.toNat % widthAlign f.width = 0) → va.toNat % widthAlign f.width ≠ 0 →
      Traps i s c 4 0 l va) ∧
    ((∀ e ∈ lanes, e.2.toNat % widthAlign f.width = 0) → ∀ before l va after, lanes = before ++ (l, va) :: after →
      let outside (a : DWord) : Prop := c.w.fields.spad < a.toNat + n
      let beside (a : DWord) : Prop := mirrored = true ∧ ¬ (c.w.fields.wbase ≤ a.toNat ∧ a.toNat + n ≤ c.w.fields.wbase + c.w.fields.wsize)
      (∀ e ∈ before, ¬ outside e.2 ∧ ¬ beside e.2) → (outside va → Traps i s c 5 1 l va) ∧ (¬ outside va → beside va → Traps i s c 5 2 l va)))

/-- R191, R193, R194, R197, R341: `vlds` and `vsts` complete where every active lane is aligned and inside the allocation; no register and no byte of
global memory changes at once, and of the scratchpad only bytes that the lanes store to, each keeping its old value until its lane's access is
performed. `vstm` completes where every active lane is aligned and inside the allocation and the window, and launches a store to every resident member
of its mirror set; no byte is written before a member's acknowledgement. `cwb` and `cinv` complete where the checks pass and launch one access for
each lane's line; `vpf` completes and changes nothing. -/
def Obligations.ScratchpadAndLineWords : Prop :=
  (∀ s c i row, FlightsFresh s → scratchTable i c = some row → Issues s c i → VectorsIn c row.vectors → PathRoom c row.path →
    let n := widthBytes row.fields.width
    let lanes := activeAddrs c (scratchAddrs c row.fields row.routed)
    (∀ e ∈ lanes, e.2.toNat % widthAlign row.fields.width = 0 ∧ e.2.toNat + n ≤ c.w.fields.spad) →
    ∃ t, exec i s = .next t ∧ KeepsRegs s t c.x [] ∧ (∀ a, Memory.read t.mem a = Memory.read s.mem a) ∧
      (splitFind t c.x).map (fun p => p.pc) = some (loopUpdate c.p.loops c.p.pc).2 ∧
      ∀ id v w, wgFind s id = some v → wgFind t id = some w → ∀ o,
        (id = c.x.wg ∧ row.stores = true ∧ ∃ e ∈ lanes, has c.writes e.1 = true ∧ e.2.toNat ≤ o ∧ o < e.2.toNat + n) ∨ scratchByte w o = scratchByte v o) ∧
  (∀ s c f, Issues s c (.vstm f) → VectorsIn c (memVectors f (widthRegs f.width) false) → PathRoom c 5 →
    let n := widthBytes f.width
    let lanes := activeAddrs c (scratchAddrs c f false)
    (∀ e ∈ lanes, e.2.toNat % widthAlign f.width = 0 ∧ e.2.toNat + n ≤ c.w.fields.spad ∧ c.w.fields.wbase ≤ e.2.toNat ∧
      e.2.toNat + n ≤ c.w.fields.wbase + c.w.fields.wsize) →
    ∃ u fl, exec (.vstm f) s = .next (settle (launchFlight u c fl) c f.mark .next) ∧ KeepsRegs s u c.x [] ∧ u.rest = s.rest ∧ fl.kind = .mirror ∧
      fl.path = some 5 ∧ fl.dests = [] ∧
      fl.parts.map (fun p => (p.lane, p.place, p.size, p.op, p.data)) = (mirrorSet s c.w).flatMap (fun m =>
        (lanes.filter (fun e => has c.writes e.1)).map (fun e =>
          (e.1, Place.mirror m.column e.2.toNat, n, PartOp.write, (dataBytes c f (widthRegs f.width) n).getD e.1 [])))) ∧
  (∀ s c,
    (∀ i f op, (i = .cwb f ∧ op = .writeBack) ∨ (i = .cinv f ∧ op = .drop) → Issues s c i → VectorsIn c (memVectors f 0 true) → PathRoom c 1 →
      ∀ s1 seen s2, checkGlobal s c .load 1 1 1 (activeAddrs c (globalAddrs c f (off16 f) true)) = .ok s1 seen →
      touchAll s1 c false (seen.filter (fun q => has c.writes q.lane)) = some s2 →
      ∃ srcs kept fl, exec i s = .next (settle (launchFlight (vectorIssue s2 c srcs kept 1) c fl) c f.mark .next) ∧ fl.kind = .line ∧ fl.path = some 1 ∧
        fl.dests = [] ∧
        fl.parts.map (fun p => (p.lane, p.op, p.size)) = (seen.filter (fun q => has c.writes q.lane)).map (fun q => (q.lane, op, 128)) ∧
        ∀ (k : Nat) (p : Part) (q : Seen), fl.parts[k]? = some p → (seen.filter (fun q => has c.writes q.lane))[k]? = some q →
          ∃ pa, (globalUnit s2 q op []).place = .global pa ∧ p.place = .global (pa / 128 * 128)) ∧
    (∀ f, Issues s c (.vpf f) → VectorsIn c (memVectors f 0 true) → ∃ t, exec (.vpf f) s = .next t ∧ Ran s t c [] []))

/-- R189, R194 to R196, R428: `ldfe`, `ldff` and `stfe` park while a lane is still to perform, with each lane's word and datum as they stood at issue, and
complete when none is left: a load's words are then its result, for the lanes that performed. A lane performs when its word is in the state it needs and
what comes before it is performed: a load takes the word, and `ldfe` empties it; a store writes its word and fills it. Poison ends the instruction with
its trap pending and no lane of its destination to be written. `feset` launches one access for each lane, which sets the state of the lane's word. -/
def Obligations.FullEmptyWords : Prop :=
  (∀ s c i op f, fullShape i = some (op, f) → FlightsFresh s → Issues s c i → VectorsIn c (memVectors f 1 false) → PathRoom c op.path →
    (∀ e ∈ activeAddrs c (scratchAddrs c f (op != .stfe)), e.2.toNat % 4 = 0 ∧ e.2.toNat + 4 ≤ c.w.fields.spad) →
    (fullTodo c op f ≠ [] → ∃ t p, exec i s = .next t ∧ splitFind t c.x = some p ∧ p.pc = c.p.pc ∧
      p.state = .parked (.fullEmpty op ((fullTodo c op f).map (fun e =>
        { lane := e.1, off := e.2.toNat,
          data := BitVec.ofNat 32 (if op = .stfe then sourceAt c { reg := f.data.toNat, route := f.rt } e.1 else 0) }))) (cycleOf s c) ∧
      KeepsRegs s t c.x [] ∧ t.issue = none ∧ t.flights = s.flights ∧ ∀ a, Memory.read t.mem a = Memory.read s.mem a) ∧
    (fullTodo c op f = [] → ∃ t g, exec i s = .next t ∧ groupFind t (groupOf c.x) = some g ∧ Table.get g.skip c.x.slot 0 = 0 ∧ Table.get g.taken c.x.slot [] = [] ∧
      (splitFind t c.x).map (fun p => p.pc) = some (loopUpdate c.p.loops c.p.pc).2 ∧ KeepsRegs s t c.x [] ∧ t.issue = none ∧
      (∀ a, Memory.read t.mem a = Memory.read s.mem a) ∧
      (op ≠ .stfe → (∃ e ∈ takenWords c, e.1 < 96) → ∃ fl m v, fl ∈ t.flights ∧ fl.id = s.nextId ∧ fl.x = c.x ∧ fl.path = some 0 ∧ fl.parts = [] ∧ fl.written = false ∧
        fl.dests = numberedDests c.x [destOf (vref c f.data.toNat) m (.lanes v)] ∧
        ∀ l, l < 96 → has m l = (takenWords c).any (fun e => e.1 == l) ∧ ∀ w, firstWith (fun e => e.1 == l) (takenWords c) = some (l, w) → lane v l = w))) ∧
  (∀ s c op lanes l since, ctxOf s c.x = some c → c.p.state = .parked (.fullEmpty op lanes) since →
    firstWith (fun e => e.lane == l.lane && !has (skipMask c) e.lane) lanes = some l → fullReady s c op lanes l = true →
    ∃ t w g p, exec (.fullEmptyLanePerform c.x l.lane) s = .next t ∧ wgFind t c.x.wg = some w ∧ groupFind t (groupOf c.x) = some g ∧ splitFind t c.x = some p ∧
      KeepsRegs s t c.x [] ∧ (∀ a, Memory.read t.mem a = Memory.read s.mem a) ∧ p.pc = c.p.pc ∧ p.state = c.p.state ∧
      (∀ o, (op ≠ .stfe ∨ scratchBad c.w l.off 4 = true ∨ o < l.off ∨ l.off + 4 ≤ o) → scratchByte w o = scratchByte c.w o) ∧
      (∀ k, k ≠ l.off / 4 → w.full.contains k = c.w.full.contains k) ∧
      (scratchBad c.w l.off 4 = false → Table.get g.skip c.x.slot 0 = skipMask c ||| BitVec.ofNat 96 (2 ^ l.lane) ∧ p.pending = c.p.pending ∧
        (op = .stfe → scratchRead w l.off 4 = bytesOf 4 l.data.toNat ∧ wordFull w l.off = true) ∧
        (op ≠ .stfe → wordFull w l.off = (op == .ldff) ∧
          Table.get g.taken c.x.slot [] = takenWords c ++ [(l.lane, BitVec.ofNat 32 (numOf (scratchRead c.w l.off 4)))])) ∧
      (scratchBad c.w l.off 4 = true → Table.get g.skip c.x.slot 0 = BitVec.allOnes 96 ∧ Table.get g.taken c.x.slot [] = [] ∧
        ∃ tr, p.pending = c.p.pending ++ [tr] ∧ tr.code = 6 ∧ tr.lane = l.lane ∧ tr.pc = c.p.pc ∧ tr.async = true)) ∧
  (∀ s c f, FlightsFresh s → Issues s c (.feset f) → VectorsIn c (memVectors f 0 false) → PathRoom c 1 →
    let lanes := activeAddrs c (scratchAddrs c f true)
    (∀ e ∈ lanes, e.2.toNat % 4 = 0 ∧ e.2.toNat + 4 ≤ c.w.fields.spad) →
    ∃ srcs kept fl t w, exec (.feset f) s = .next t ∧ t = settle (launchFlight (vectorIssue s c srcs kept 1) c fl) c f.mark .next ∧ fl.path = some 1 ∧ fl.dests = [] ∧
      fl.parts.map (fun p => (p.lane, p.place, p.op)) =
        (lanes.filter (fun e => has c.writes e.1)).map (fun e => (e.1, Place.scratch e.2.toNat, PartOp.setFull (f.data == 1))) ∧
      (splitFind t c.x).map (fun p => p.pc) = some (loopUpdate c.p.loops c.p.pc).2 ∧ wgFind t c.x.wg = some w ∧ KeepsRegs s t c.x [] ∧
      (∀ a, Memory.read t.mem a = Memory.read s.mem a) ∧ (∀ o, scratchByte w o = scratchByte c.w o) ∧
      ∀ k, w.full.contains k = c.w.full.contains k ∨
        ((∃ e ∈ lanes, has c.writes e.1 = true ∧ e.2.toNat / 4 = k) ∧ w.full.contains k = (f.data == 1))) ∧
  (∀ s id f (k : Nat) (p : Part) o full w, flightFind s id = some f → (∀ q ∈ f.parts, ∃ b, q.place = .scratch b) → f.parts[k]? = some p → p.state = .queued → p.op = .setFull full → p.place = .scratch o → wgFind s f.x.wg = some w →
    partReady s f p = true → onceParts s f = [] → ∃ t v, exec (.accessCompletion id [k]) s = .next t ∧ wgFind t f.x.wg = some v ∧ wordFull v o = full ∧
      (∀ n, n ≠ o / 4 → v.full.contains n = w.full.contains n) ∧ (∀ b, scratchByte v b = scratchByte w b) ∧
      ∀ a, Memory.read t.mem a = Memory.read s.mem a)

/-- R50, R189, R194, R204, R205, R269, R428: `ctadd` and `ctread` of a counter in the scratchpad complete where it is aligned and inside the allocation, and
launch their access at their scope, `ctadd` as a release; no register and no byte of global memory changes at once, and no byte of the scratchpad but
the counter's, which `ctadd` alone changes. `ctwait` waits for what comes before it in program order; then it completes as an acquire with the value
that it observed where the counter is at least b, parks where it is less, and goes on with a pending trap where the counter is poisoned. -/
def Obligations.CounterWords : Prop :=
  (∀ s c i f, i = .ctadd f ∨ i = .ctread f → f.pair = false → FlightsFresh s → Issues s c i → PathRoom c 2 →
    let va := (c.s f.sa.toNat).toNat
    let b := if f.sb = 0 then f.imm.toNat else (c.s f.sb.toNat).toNat
    va % 8 = 0 → va + 8 ≤ c.w.fields.spad →
    ∃ t, exec i s = .next t ∧ t = settle (launchFlight s c { Flight.new s c .counter with
        path := some 2, since := 0, strong := f.fn.toNat, release := if i = .ctadd f then f.fn.toNat else 0, dests := if f.sd = 0 then [] else scalarDests c f.sd.toNat true,
        parts := [scratchUnit 127 0 8 va (if i = .ctadd f then .counterAdd else .counterRead) (if i = .ctadd f then bytesOf 8 b else [])] }) c f.mark .next ∧
      KeepsRegs s t c.x [] ∧ (∀ a, Memory.read t.mem a = Memory.read s.mem a) ∧
      (splitFind t c.x).map (fun p => p.pc) = some (loopUpdate c.p.loops c.p.pc).2 ∧
      ∀ id v w, wgFind s id = some v → wgFind t id = some w → ∀ o,
        (id = c.x.wg ∧ i = .ctadd f ∧ va ≤ o ∧ o < va + 8) ∨ scratchByte w o = scratchByte v o) ∧
  (∀ s c f, Issues s c (.ctwait f) →
    let b := if f.sb = 0 then f.imm.toNat else c.scalar f.pair f.sb.toNat
    let dests := destScalars c true f.sd.toNat
    (f.pair = false →
      let va := (c.s f.sa.toNat).toNat
      let v := numOf (scratchRead c.w va 8)
      let part := scratchUnit 127 0 8 va .counterRead []
      va % 8 = 0 → va + 8 ≤ c.w.fields.spad →
      (counterTurn s c f part = false → exec (.ctwait f) s = .next (endIssue s)) ∧
      (counterTurn s c f part = true → scratchBad c.w va 8 = true → exec (.ctwait f) s = .next (settle (poisonedPark s c 127) c f.mark .next)) ∧
      (counterTurn s c f part = true → scratchBad c.w va 8 = false → v < b → exec (.ctwait f) s = .next (parkAt s c .counter)) ∧
      (counterTurn s c f part = true → scratchBad c.w va 8 = false → b ≤ v → ∃ t p, exec (.ctwait f) s = .next t ∧
        Ran (counterAcquire s c f) t c [] (if f.sd = 0 then [] else [later (counterAcquire s c f) c (dests v) 0]) ∧ splitFind t c.x = some p ∧
        ∀ k, 1 ≤ k → k ≤ f.fn.toNat → k ≤ 6 → stampOf s ≤ floorOf p.floors k)) ∧
    (f.pair = true → ∀ s1 u s2 s3 v bad, checkGlobal s c .counterRead 8 8 8 [(127, BitVec.ofNat 64 (c.pair f.sa.toNat))] = .ok s1 [u] →
      touchAll s1 c false [u] = some s2 → counterTurn s2 c f (globalUnit s2 u .counterRead []) = true →
      counterNow s2 c (globalUnit s2 u .counterRead []) = some (s3, v, bad) →
      (bad = true → exec (.ctwait f) s = .next (settle (poisonedPark s3 c 127) c f.mark .next)) ∧
      (bad = false → v < b → exec (.ctwait f) s = .next (parkAt s3 c .counter)) ∧
      (bad = false → b ≤ v → exec (.ctwait f) s = .next (settle (if f.sd = 0 then counterAcquire s3 c f
        else laterResult (counterAcquire s3 c f) c (dests v) 0) c f.mark .next))))

/-- R198, R199, R204, R205: The new value of each atomic operation over the integers of its width. An add to a counter saturates at 2^64 − 1, and
reports an overflow exactly when the sum exceeds it. -/
def Obligations.AtomicOperations : Prop :=
  (∀ (n : Nat) (old b b' : BitVec (8 * n)), n ∈ [2, 4, 8] →
    let new (op : Nat) : Nat := atomicNew op n old.toNat b.toNat b'.toNat
    new 0 = b.toNat ∧ new 1 = (if old = b then b' else old).toNat ∧ new 2 = (old + b).toNat ∧ new 3 = (old &&& b).toNat ∧ new 4 = (old ||| b).toNat ∧
    new 5 = (old ^^^ b).toNat ∧ new 6 = (if old.sle b then old else b).toNat ∧ new 7 = (if old.sle b then b else old).toNat ∧
    new 8 = (if old.ule b then old else b).toNat ∧ new 9 = (if old.ule b then b else old).toNat) ∧
  (∀ old b : Nat, (counterSum old b).1 ≤ 2 ^ 64 - 1 ∧ (old + b ≤ 2 ^ 64 - 1 → counterSum old b = (old + b, false)) ∧
    (2 ^ 64 - 1 < old + b → counterSum old b = (2 ^ 64 - 1, true)))

/-- R5, R191, R385, R386, R391: A write at the home puts its bytes at consecutive addresses, the first at the lowest, and changes no other byte of
memory. Bytes that a column stores in a line it holds are the ones that it then reads there, they are marked dirty, other bytes of the line keep their
values and marks, and home memory keeps its bytes. -/
def Obligations.StoredBytesAreRead : Prop :=
  (∀ s a bs key b,
    Memory.read (homeWrite s a bs key).mem b = if a ≤ b ∧ b < a + bs.length then bs.getD (b - a) 0 else Memory.read s.mem b) ∧
  (∀ s t bs st c, lineFind s (.col t.col) t.line = some c → c.data.length = 128 → t.off + bs.length ≤ 128 → t.size = bs.length →
    ∃ d, lineFind (storeInLine s t bs st) (.col t.col) t.line = some d ∧ slice d.data t.off t.size = bs ∧ d.state = st ∧
      (∀ k, k < 128 → d.dirty.getLsbD k = (c.dirty.getLsbD k || (t.off ≤ k && k < t.off + bs.length))) ∧
      (∀ k, k < t.off ∨ t.off + bs.length ≤ k → d.data.getD k 0 = c.data.getD k 0) ∧
      (∀ a, Memory.read (storeInLine s t bs st).mem a = Memory.read s.mem a))

/-- R50, R138, R189, R194: A later result whose accesses are performed and whose latency is over is written: each destination register, a scalar in the
slot that it belongs to, holds the result in the lanes that have not exited, and no other register and no byte of memory changes. -/
def Obligations.LaterResultIsWritten : Prop :=  ∀ s id f d c, flightFind s id = some f → resultDue s f = true → f.dests = [d] → d.clobbered = 0 → f.kind ≠ .clock →
    ctxOf s (d.owner f) = some c →
    (∀ n, d.reg = .v n → ∃ t v, exec (.variableLatencyResult id) s = .next t ∧ KeepsRegs s t (d.owner f) [.v n] ∧ held t (d.owner f) (.v n) = some (.lanes v) ∧
      (∀ a, Memory.read t.mem a = Memory.read s.mem a) ∧
      ∀ l, l < 96 → lane v l = if has d.mask l && !has c.g.exited l then lane (imageLanes (f.result d)) l else lane (Table.get c.g.vregs n []) l) ∧
    (∀ n, d.reg = .s n → n ≠ 0 → has d.mask 0 = true → ∃ t, exec (.variableLatencyResult id) s = .next t ∧ KeepsRegs s t (d.owner f) [.s n] ∧
      held t (d.owner f) (.s n) = some (.word (imageWord (f.result d))) ∧ ∀ a, Memory.read t.mem a = Memory.read s.mem a)

/-! ## Synchronisation, engines, the matrix unit -/

/-- R206 to R209, R250, R254, R269, R271: `bar` parks its split until every group of the workgroup has arrived, and then every split that waits goes on and
sees what its workgroup has performed; `fence` stands behind every earlier access of its split, makes the earlier strong loads acquires and the later
strong stores releases as its kind says, and changes nothing else; `xfence` completes once the counters that it waits for have fallen and no line is
left to write back; `wait` completes when its path counter is no more than b, and else parks; a `tlbinv` completes once its removal is over; `tsr` waits
for the split's earlier results and then reads TIME. -/
def Obligations.SynchronisationWords : Prop :=  ∀ s c,
    (∀ f, Issues s c (.bar f) → c.p.live = true →
      let arrived : Prop := ∀ k g, c.w.groups[k]? = some g → g.ended = true ∨
        ∀ m q, g.splits[m]? = some q → q.live = false ∨ (k = c.x.grp ∧ m = c.x.slot) ∨ q.inBar = true
      ∃ t p, exec (.bar f) s = .next t ∧ splitFind t c.x = some p ∧ p.pc = (loopUpdate c.p.loops c.p.pc).2 ∧ KeepsRegs s t c.x [] ∧ t.issue = none ∧
        { t with wgs := [], draw := 0 } = { s with wgs := [], draw := 0, issue := none } ∧ (∀ id, id ≠ c.x.wg → wgFind t id = wgFind s id) ∧
        (¬ arrived → p.state = .parked .bar (cycleOf s c) ∧ ∀ y, y ≠ c.x → splitFind t y = splitFind s y) ∧
        (arrived → p.state = .running ∧ (∀ k, k = 1 ∨ k = 2 → stampOf s ≤ floorOf p.floors k) ∧
          ∀ y q, y.wg = c.x.wg → y ≠ c.x → splitFind s y = some q → ∃ r, splitFind t y = some r ∧ r.pc = q.pc ∧ r.scalars = q.scalars ∧
            (q.inBar = false → r = q) ∧ (∀ since, q.state = .parked .bar since → r.state = .running) ∧ (q.inBar = true → r.inBar = false))) ∧
    (∀ f, Issues s c (.fence f) →
      let kind := f.imm.toNat % 4
      let scope := f.fn.toNat
      ∃ t p, exec (.fence f) s = .next t ∧ splitFind t c.x = some p ∧ p.pc = (loopUpdate c.p.loops c.p.pc).2 ∧ KeepsRegs s t c.x [] ∧
        { t with wgs := [], flights := [], draw := 0 } = { s with wgs := [], flights := [], draw := 0, issue := none } ∧
        (∀ y, y ≠ c.x → splitFind t y = splitFind s y) ∧
        t.flights.map (fun g => { g with acquire := 0 }) = s.flights.map (fun g => { g with acquire := 0 }) ∧
        (∀ h ∈ c.p.hist, h.open_ s = true → ∃ i ∈ p.hist, i.flight = h.flight ∧ ∃ e ∈ i.fences, e.1 = kind ∧ scope ≤ e.2) ∧
        (kind ≠ 2 → (∀ k, 1 ≤ k → k ≤ scope → k ≤ 6 → floorOf c.p.sfloors k ≤ floorOf p.floors k) ∧
          ∀ h ∈ c.p.hist, h.open_ s = true → ∀ g ∈ s.flights, g.id = h.flight → g.parts.any (fun q => q.op.loads && strongOf g q != 0) = true →
            ∃ u ∈ t.flights, u.id = g.id ∧ min scope g.strong ≤ u.acquire) ∧
        (kind ≠ 1 → scope ≤ p.relFence) ∧ (kind = 3 → ∀ k, 1 ≤ k → k ≤ scope → k ≤ 6 → stampOf s ≤ floorOf p.floors k)) ∧
    (∀ f, Issues s c (.xfence f) → c.p.wait = .none →
      let before := f.imm.toNat % 64
      let lines := linesHome s c.w.column before (f.imm.toNat / 256 % 64)
      ((∀ k, k < 6 → f.imm.getLsbD k = true → pathOf c.g k = 0) → lines = [] → ∃ t, exec (.xfence f) s = .next t ∧ Ran { s with past := t.past } t c [] [] ∧
        t.past.map (fun e => (e.id, e.part, e.addr, e.old)) = s.past.map (fun e => (e.id, e.part, e.addr, e.old))) ∧
      ((∃ k, k < 6 ∧ f.imm.getLsbD k = true ∧ pathOf c.g k ≠ 0) → exec (.xfence f) s = .next (endIssue (modSplit s c.x (fun p => { p with
        wait := .xfence ((pathsOf before).map (fun k => (k, pathOf c.g k))) lines, boundary := false }))))) ∧
    (∀ f, Issues s c (.wait f) →
      let b := if f.sb = 0 then f.imm.toNat else (c.s f.sb.toNat).toNat
      (pathOf c.g f.fn.toNat ≤ b → ∃ t, exec (.wait f) s = .next t ∧ Ran s t c [] []) ∧
      (b < pathOf c.g f.fn.toNat → exec (.wait f) s = .next (parkAt s c .path))) ∧
    (∀ i f, i = .tlbinvPage f ∨ i = .tlbinvSpace f ∨ i = .tlbinvAll f → Issues s c i → c.super = true → c.p.wait = .tlbinv true →
      ∃ t, exec i s = .next t ∧ Ran s t c [] []) ∧
    (∀ f, Issues s c (.tsr f) →
      (resultsWritten s c.p = true → ∃ t, exec (.tsr f) s = .next t ∧ ScalarGets t c true f.sd.toNat (timeOf s) ∧ Ran s t c (scalarRegs c true f.sd.toNat) []) ∧
      (resultsWritten s c.p = false → exec (.tsr f) s = .next (endIssue (modSplit s c.x (fun p => { p with wait := .results })))))

/-- R210, R211: `ftest` and `fcancel` return a future's code later, and `fwait` does for a future that is done or cancelled; an unknown handle has
code 7; `fwait` parks on a pending future and traps on a partial or a faulted one, with the handle in TRAPVAL; `fcancel` makes a partial or faulted
future cancelled at once, and asks the engine of a pending one to stop; no register changes at once. -/
def Obligations.FutureWords : Prop :=  ∀ s c i f, i = .fwait f ∨ i = .ftest f ∨ i = .fcancel f → Issues s c i →
    let h := c.s f.sa.toNat
    let code := handleCode c.g h
    (i = .fwait f → code = 0 → exec i s = .next (parkAt s c .future)) ∧
    (i = .fwait f → code = 2 ∨ code = 3 → Traps i s c 7 code 127 (h.zeroExtend 64)) ∧
    ((i = .fwait f ∧ (code = 1 ∨ code = 4 ∨ code = 7)) ∨ i = .ftest f ∨ i = .fcancel f →
      ∃ t fl, exec i s = .next t ∧ KeepsRegs s t c.x [] ∧ t.flights = s.flights ++ [fl] ∧ fl.dests = numberedDests c.x (destScalar c f.sd.toNat code) ∧ fl.x = c.x ∧ fl.parts = [] ∧
        (∀ a, Memory.read t.mem a = Memory.read s.mem a) ∧ (splitFind t c.x).map (fun p => p.pc) = some (loopUpdate c.p.loops c.p.pc).2 ∧
        (i = .fcancel f → code = 0 → ∀ k ∈ t.copies, k.g = groupOf c.x → k.handle = h → k.settled = true ∨ k.cancel = true) ∧
        (i ≠ .fcancel f → 1 ≤ code → code ≤ 4 → ∀ g, groupFind t (groupOf c.x) = some g → ∀ u ∈ g.futures, u.handle = h → u.outstanding = false) ∧
        (i = .fcancel f → code = 2 ∨ code = 3 → ∀ g, groupFind t (groupOf c.x) = some g → ∀ u ∈ g.futures, u.handle = h → u.state = .cancelled))

/-- R55, R56, R219, R222, R223, R225: `cp`, `cpg` and `cpmc` complete where the path and the futures have room: a copy of the group starts, with its
record's place, or `cpg`'s one element for each lane, fixed at issue; its handle, of path 3 or 4, the placement's SEQ and the next serial, goes to SD;
its future is pending and outstanding, and Path(cp) rises by one. `cpretry` returns the future's code; a partial copy's future is pending again, its
failed units and no others are to be moved again, and Path(cp) rises. -/
def Obligations.CopyWordsStart : Prop :=
  (∀ s c i f, (i = .cp f ∨ (i = .cpg f ∧ VectorsIn c [f.flags.toNat % 128, f.flags.toNat % 128 + 1]) ∨
      (i = .cpmc f ∧ indexFault c (mxIndex s c (followWord f.flags)) = none)) →
    Issues s c i → PathRoom c 3 → FutureRoom c →
    let path := if i = .cpmc f then 4 else 3
    let h := BitVec.ofNat 32 (path * 2 ^ 28 + c.w.seq * 2 ^ 16 + c.g.nextSerial)
    let inner : Bool := if i = .cpmc f then f.flags.getLsbD 30 else f.flags.getLsbD 0
    ∃ t g k, exec i s = .next t ∧ groupFind t (groupOf c.x) = some g ∧ ScalarGets t c false f.sd.toNat h.toNat ∧ KeepsRegs s t c.x (scalarRegs c false f.sd.toNat) ∧
      g.paths = modAt c.g.paths 3 (· + 1) ∧ { handle := h, state := .pending, outstanding := true } ∈ g.futures ∧
      g.nextSerial = (if c.g.nextSerial = 0xFFFF then 1 else c.g.nextSerial + 1) ∧
      t.copies = s.copies ++ [k] ∧ k.g = groupOf c.x ∧ k.handle = h ∧ k.kind = (if i = .cp f then 0 else if i = .cpg f then 2 else 1) ∧
      k.out = (i ≠ .cpmc f ∧ f.eop = 1) ∧ k.settled = false ∧ k.cancel = false ∧ k.privileged = c.super ∧
      k.counter = (if i = .cpmc f ∨ f.sb = 0 then none else some (BitVec.ofNat 64 (c.pair f.sb.toNat))) ∧
      (i ≠ .cpg f → k.ready = false ∧ k.recordAt = some (if inner then (.scratch (c.s f.sa.toNat).toNat, 0) else (.global 0, BitVec.ofNat 64 (c.pair f.sa.toNat)))) ∧
      (i = .cpg f → k.recordAt = none ∧ k.bits = 8 * 2 ^ (f.flags.toNat / 2 ^ 8 % 8) ∧ k.pad = f.flags.getLsbD 11 ∧ k.units.map (fun u => (u.lane, u.first, u.elements)) =
        (lanesOf c.writes).map (fun l =>
          let a := sourceAt c { reg := f.flags.toNat % 128, wide := true } l
          (l, a, [(8 * a, 8 * (((c.s f.sa.toNat).toNat + l * 2 ^ (f.flags.toNat / 2 ^ 8 % 8)) % 2 ^ 32))]))) ∧
      t.flights = s.flights ∧ t.commands = s.commands ∧ t.issue = none ∧ (∀ a, Memory.read t.mem a = Memory.read s.mem a) ∧
      (splitFind t c.x).map (fun p => p.pc) = some (loopUpdate c.p.loops c.p.pc).2) ∧
  (∀ s c f, Issues s c (.cpretry f) →
    let h := c.s f.sa.toNat
    let code := handleCode c.g h
    (code ≠ 2 → ∃ t, exec (.cpretry f) s = .next t ∧ ScalarGets t c false f.sd.toNat code ∧ Ran s t c (scalarRegs c false f.sd.toNat) []) ∧
    (code = 2 → PathRoom c 3 → ∃ t g, exec (.cpretry f) s = .next t ∧ groupFind t (groupOf c.x) = some g ∧
      ScalarGets t c false f.sd.toNat 2 ∧ KeepsRegs s t c.x (scalarRegs c false f.sd.toNat) ∧ g.paths = modAt c.g.paths 3 (· + 1) ∧
      (∀ u ∈ g.futures, u.handle = h → u.state = .pending) ∧ t.flights = s.flights ∧ t.issue = none ∧ (∀ a, Memory.read t.mem a = Memory.read s.mem a) ∧
      ∀ k ∈ s.copies,
        (k.g = groupOf c.x → k.handle = h → ∃ n ∈ t.copies, n.id = k.id ∧ n.handle = h ∧ n.settled = false ∧ n.recordAt = k.recordAt ∧
          n.units = k.units.map (fun u => if u.state = 2 then { u with moved := [], state := 0, cause := 0, addr := 0 } else u)) ∧
        (¬ (k.g = groupOf c.x ∧ k.handle = h) → k ∈ t.copies)))

/-- R228, R229, R231, R233, R234: `mma`, `accld`, `accst` and `acczero` complete where the path and the queue have room: their command, with the operands
fixed at issue, stands last in the core's queue, and Path(mx) rises by one; an A tile that the latch holds comes from the latch, and any other from its
registers; `accld` and `accst` with SD other than 0 give a handle of path 4, whose future is pending. A row in the scratchpad has to be aligned and inside the
allocation, and one in global memory to pass the checks. No register of a file but SD and no accumulator changes yet. -/
def Obligations.MatrixWordsQueue : Prop :=  ∀ s c i, Issues s c i → PathRoom c 4 → MatrixRoom s c →
    (∀ f, i = .mma f → indexFault c (mxIndex s c f) = none →
      let regs := tileNames f (Entry.ofBits (formatEntry s c f.fa.toNat)).width
      ∃ t g m rows, exec i s = .next t ∧ groupFind t (groupOf c.x) = some g ∧ t.commands = s.commands ++ [m] ∧ m.g = groupOf c.x ∧ m.core = c.w.core ∧
        m.op = .mma f (c.s f.sbr.toNat).toNat (formatEntry s c f.fa.toNat) (formatEntry s c f.fb.toNat) c.writes rows ∧
        (∀ held, latchHit c.g c.x.slot f = some held → rows = held) ∧ (latchHit c.g c.x.slot f = none → rows = regs.map c.v) ∧
        m.started = false ∧ m.handle = none ∧ g.paths = modAt c.g.paths 4 (· + 1) ∧ g.acc = c.g.acc ∧ g.aLatch = latchAfter c.g c.x.slot f c.active rows ∧
        t.flights = s.flights ∧ t.copies = s.copies ∧ t.issue = none ∧ KeepsRegs s t c.x [] ∧ (∀ a, Memory.read t.mem a = Memory.read s.mem a) ∧
        (splitFind t c.x).map (fun p => p.pc) = some (loopUpdate c.p.loops c.p.pc).2) ∧
    (∀ f, i = .acczero f → f.flags.toNat % 8 < c.tiles → ∃ t g m, exec i s = .next t ∧ groupFind t (groupOf c.x) = some g ∧ t.commands = s.commands ++ [m] ∧
      m.g = groupOf c.x ∧ m.core = c.w.core ∧ m.op = .acczero (f.flags.toNat % 8) c.writes ∧ m.started = false ∧ m.handle = none ∧
      g.paths = modAt c.g.paths 4 (· + 1) ∧ g.acc = c.g.acc ∧ t.flights = s.flights ∧ t.copies = s.copies ∧ t.issue = none ∧ KeepsRegs s t c.x [] ∧
      (∀ a, Memory.read t.mem a = Memory.read s.mem a) ∧ (splitFind t c.x).map (fun p => p.pc) = some (loopUpdate c.p.loops c.p.pc).2) ∧
    (∀ f out, (i = .accld f ∧ out = false) ∨ (i = .accst f ∧ out = true) → f.flags.toNat % 8 < c.tiles → (f.sd ≠ 0 → FutureRoom c) →
      let tile := f.flags.toNat % 8
      let fmt := f.flags.toNat / 16 % 4
      let row := 64 * accSize fmt
      let pitch := if f.sb = 0 then row else (c.s f.sb.toNat).toNat
      let h := BitVec.ofNat 32 (4 * 2 ^ 28 + c.w.seq * 2 ^ 16 + c.g.nextSerial)
      let Queued (t : State) (parts : List Part) : Prop := ∃ g m, groupFind t (groupOf c.x) = some g ∧ t.commands = s.commands ++ [m] ∧ m.g = groupOf c.x ∧
        m.core = c.w.core ∧ m.op = (if out then .accst tile fmt c.writes parts else .accld tile fmt c.writes parts) ∧ m.started = false ∧
        m.handle = (if f.sd = 0 then none else some h) ∧ (f.sd ≠ 0 → ScalarGets t c false f.sd.toNat h.toNat ∧ { handle := h, state := .pending, outstanding := true } ∈ g.futures) ∧
        g.paths = modAt c.g.paths 4 (· + 1) ∧ g.acc = c.g.acc ∧ t.flights = s.flights ∧ t.copies = s.copies ∧ t.issue = none ∧
        KeepsRegs s t c.x (scalarRegs c false f.sd.toNat) ∧ (splitFind t c.x).map (fun p => p.pc) = some (loopUpdate c.p.loops c.p.pc).2
      (f.flags.getLsbD 3 = true →
        let addr (l : Nat) : Nat := ((c.s f.sa.toNat).toNat + l * pitch) % 2 ^ 32
        (∀ l, l < 96 → has c.active l = true → addr l % 32 = 0 ∧ addr l + row ≤ c.w.fields.spad) →
        ∃ t parts, exec i s = .next t ∧ Queued t parts ∧ t.mem = s.mem ∧
          parts.map (fun p => (p.lane, p.base)) = (lanesOf c.writes).flatMap (fun l => (List.range (row / 32)).map (fun k => (l, 32 * k))) ∧
          ∀ p ∈ parts, p.size = 32 ∧ p.place = .scratch (addr p.lane + p.base)) ∧
      (f.flags.getLsbD 3 = false → ∀ s1 seen s2,
        checkGlobal s c (if out then .store else .load) 32 row 32 ((lanesOf c.active).map (fun l => (l, BitVec.ofNat 64 ((c.pair f.sa.toNat + l * pitch) % 2 ^ 64)))) = .ok s1 seen →
        touchAll s1 c out (seen.filter (fun u => has c.writes u.lane)) = some s2 →
        ∃ t, exec i s = .next t ∧ t.mem = s2.mem ∧
          Queued t ((seen.filter (fun u => has c.writes u.lane)).map (fun u => globalUnit s2 u (if out then .write else .read) []))))

/-- R81, R82, R230 to R235: The next command of a core starts once its read is over and the unit is free in a half of the cycle; it occupies the unit for
the half cycles of its width and columns and is done 12 cycles after the last cycle of those, and an `mma` fetches its B as it starts. A command that is
over takes effect on its group's accumulators, the first of its group first: `acczero` makes its rows zero and clean; `mma` gives each element of its rows
the rounded sum of what it fetched, and a failed fetch keeps the elements and poisons the rows; `accld` gives its rows the elements loaded; Path(mx)
falls, no other row changes, and `acczero` and `mma` change no byte of memory. -/
def Obligations.MatrixCommandsRun : Prop :=  (∀ s m, cmdFind s m.id = some m → m.started = false → m.cancel = false → ((matrixQueue s m.core).head?.map (fun q => q.id)) = some m.id →
    m.readyAt ≤ coreCycle s m.core → (coreOf s m.core).mxFree ≤ 2 * coreCycle s m.core + 1 →
    ∃ t n half, exec (.matrixCommandStart m.id) s = .next t ∧ cmdFind t m.id = some n ∧ n.started = true ∧ n.op = m.op ∧ t.mem = s.mem ∧ t.wgs = s.wgs ∧
      (coreOf t m.core).mxFree = max (2 * coreCycle s m.core) (coreOf s m.core).mxFree + half ∧
      n.doneAt = (if half = 0 then coreCycle s m.core else ((coreOf t m.core).mxFree - 1) / 2) + 12 ∧
      (∀ f shape fa fb rows a, m.op = .mma f shape fa fb rows a →
        let w := max (Entry.ofBits fa).width (Entry.ofBits fb).width
        half = (if w = 4 then 9 else if w = 16 then 72 else 18) * 2 ^ f.nc.toNat ∧
        ∀ v, wgFind s m.g.wg = some v → match fetchB s (m.view.reader v.column 4) v shape (mxN f) (Entry.ofBits fa) (Entry.ofBits fb) with
          | .ok got => n.cause = 0 ∧ n.fetched = got
          | .error e => n.cause = e)) ∧
  (∀ s m g tile rows, cmdFind s m.id = some m → m.started = true → m.cancel = false → m.doneAt ≤ coreCycle s m.core → firstOfGroup s m = true →
    groupFind s m.g = some g → g.residence = .core → m.op = .acczero tile rows →
    ∃ t h, exec (.matrixCommandComplete m.id) s = .next t ∧ groupFind t m.g = some h ∧ cmdFind t m.id = none ∧ h.paths = modAt g.paths 4 (· - 1) ∧ h.vregs = g.vregs ∧
      (∀ k i j, i < 96 → j < 64 → accAt h k i j = if k = tile ∧ has rows i = true then 0 else accAt g k i j) ∧
      (∀ k i, i < 96 → accPoisoned h k i = (accPoisoned g k i && !(k == tile && has rows i))) ∧ t.mem = s.mem) ∧
  (∀ s m g f shape fa fb rows a, cmdFind s m.id = some m → m.started = true → m.cancel = false → m.doneAt ≤ coreCycle s m.core → firstOfGroup s m = true →
    groupFind s m.g = some g → g.residence = .core → m.op = .mma f shape fa fb rows a →
    let last := lastFetch s m
    let spans (k : Nat) : Bool := k == f.acc.toNat || (f.nc == 3 && k == f.acc.toNat + 1)
    ∃ t h, exec (.matrixCommandComplete m.id) s = .next t ∧ groupFind t m.g = some h ∧ cmdFind t m.id = none ∧ h.paths = modAt g.paths 4 (· - 1) ∧ h.vregs = g.vregs ∧
      t.mem = s.mem ∧
      (last.cause = 0 → (∀ k i j, i < 96 → j < 64 → accAt h k i j =
        (let col := j + 64 * (k - f.acc.toNat)
         let p := mxProduct f (Entry.ofBits fa) (Entry.ofBits fb) a last.fetched i col
         if spans k = true ∧ has rows i = true ∧ col < mxN f then
           (if f.z then fp32.encode 0 p else fp32.encode 0 ((fp32.value (accAt g k i j)).add p 0)) % 2 ^ 32
         else accAt g k i j)) ∧
        ∀ k i, i < 96 → accPoisoned h k i = (accPoisoned g k i && !(f.z && decide (64 ≤ mxN f) && spans k && has rows i))) ∧
      (last.cause ≠ 0 → h.acc = g.acc ∧ ∀ k i, i < 96 → accPoisoned h k i = (accPoisoned g k i || (spans k && has rows i)))) ∧
  (∀ s m w g tile fmt rows parts, cmdFind s m.id = some m → m.started = true → m.cancel = false → m.doneAt ≤ coreCycle s m.core → firstOfGroup s m = true →
    wgFind s m.g.wg = some w → groupFind s m.g = some g → g.residence = .core → m.op = .accld tile fmt rows parts →
    let got (i : Nat) : List Byte := (parts.filter (fun p => p.lane == i)).flatMap (fun p => (accPart s (m.view.reader w.column 4) w p).1)
    ∃ t h, exec (.matrixCommandComplete m.id) s = .next t ∧ groupFind t m.g = some h ∧ cmdFind t m.id = none ∧ h.paths = modAt g.paths 4 (· - 1) ∧ h.vregs = g.vregs ∧
      ∀ k i j, i < 96 → j < 64 → accAt h k i j =
        if k = tile ∧ has rows i = true then accLoad fmt (numAt (got i) (accSize fmt * j) (accSize fmt)) % 2 ^ 32 else accAt g k i j)

/-- R236 to R239, R369: `fmtset` traps on an entry that is not valid; else it writes the entry of its region's table at once, which its own split reads from then
on, and raises Path(st) until its completion; `fmtget` reads an entry; `rhold` answers 0 for a range it may not take, and else registers it and answers its
handle; `rdemote` and `rdrop` answer 1 for a handle that the region does not hold; `rdrop` frees one that it does; `rdemote` answers 2 for a higher
priority, and else lowers it, and with EVICT drops the tensor's lines from its slices, but for pinned ones. -/
def Obligations.FormatAndResidencyWords : Prop :=  ∀ s c,
    (∀ f, Issues s c (.fmtset f) → PathRoom c 1 →
      let n := f.flags.toNat % 16
      let v := (c.s f.sa.toNat).toNat
      let new := if f.flags.getLsbD 4 = true then defaultEntry n else BitVec.ofNat 16 v
      (f.flags.getLsbD 4 = false → 2 ^ 16 ≤ v ∨ (Entry.ofBits (BitVec.ofNat 16 v)).valid = false → Traps (.fmtset f) s c 1 0 127 (wordOf (.fmtset f))) ∧
      (f.flags.getLsbD 4 = true ∨ (v < 2 ^ 16 ∧ (Entry.ofBits (BitVec.ofNat 16 v)).valid = true) →
        ∃ t r g fl d, exec (.fmtset f) s = .next t ∧ regionFind t c.r.id = some r ∧ r.formats = modAt c.r.formats n (fun _ => new) ∧
          groupFind t (groupOf c.x) = some g ∧ g.paths = modAt c.g.paths 1 (· + 1) ∧ t.flights = s.flights ++ [fl] ∧ fl.path = some 1 ∧ fl.dests = [] ∧
          ctxOf t c.x = some d ∧ (n < c.r.formats.length → formatEntry t d n = new) ∧ KeepsRegs s t c.x [] ∧ t.mem = s.mem ∧ t.issue = none ∧
          d.p.pc = (loopUpdate c.p.loops c.p.pc).2)) ∧
    (∀ s id f r k old, flightFind s id = some f → f.kind = .format r k old → f.written = false → ∃ t, exec (.fmtsetCompletion id) s = .next t ∧ t.regions = s.regions ∧
      t.mem = s.mem) ∧
    (∀ f, Issues s c (.fmtget f) → ∃ t, exec (.fmtget f) s = .next t ∧ ScalarGets t c false f.sd.toNat (formatEntry s c (f.flags.toNat % 16)).toNat ∧
      Ran s t c (scalarRegs c false f.sd.toNat) []) ∧
    (∀ f, Issues s c (.rhold f) →
      let base := c.pair f.sa.toNat
      let size := c.pair f.sb.toNat
      let tower := c.w.column / 48
      let fits : Prop := base % 128 = 0 ∧ size % 128 = 0 ∧ 128 ≤ size ∧ size ≤ 2 ^ 26 ∧ handleBudget s c.r.id = true
      (¬ fits ∨ freeHandle (towerOf s tower) = none → ∃ t, exec (.rhold f) s = .next t ∧ Ran s t c [] [later s c (destScalar c f.sd.toNat 0) 0]) ∧
      (fits → ∀ k, freeHandle (towerOf s tower) = some k → ∃ t fl h, exec (.rhold f) s = .next t ∧ t.flights = s.flights ++ [fl] ∧
          Table.find (towerOf t tower).handles k = some h ∧ h.used = true ∧ h.region = c.r.id ∧ h.space = c.r.space ∧ h.base = BitVec.ofNat 64 base ∧
          h.size = size ∧ h.prio = f.flags.toNat % 8 ∧ h.evicted = false ∧ 1 ≤ h.gen ∧ (∀ j, j ≠ k → Table.find (towerOf t tower).handles j = Table.find (towerOf s tower).handles j) ∧
          fl.dests = numberedDests c.x (destScalar c f.sd.toNat (h.gen * 2 ^ 24 + tower * 2 ^ 8 + k)) ∧ KeepsRegs s t c.x [] ∧ t.mem = s.mem ∧ t.issue = none ∧
          (splitFind t c.x).map (fun p => p.pc) = some (loopUpdate c.p.loops c.p.pc).2)) ∧
    (∀ i f, i = .rdemote f ∨ i = .rdrop f → Issues s c i → knownHandle s c.r.id (c.s f.sa.toNat) = none →
      ∃ t, exec i s = .next t ∧ Ran s t c [] [later s c (destScalar c f.sd.toNat 1) 0]) ∧
    (∀ f t0 k r, Issues s c (.rdrop f) → knownHandle s c.r.id (c.s f.sa.toNat) = some (t0, k, r) →
      ∃ t fl, exec (.rdrop f) s = .next t ∧ Table.find (towerOf t t0).handles k = some { r with used := false } ∧ t.flights = s.flights ++ [fl] ∧
        fl.dests = numberedDests c.x (destScalar c f.sd.toNat 0) ∧ KeepsRegs s t c.x [] ∧ t.mem = s.mem ∧ t.issue = none ∧
        (splitFind t c.x).map (fun p => p.pc) = some (loopUpdate c.p.loops c.p.pc).2) ∧
    (∀ f t0 k r, Issues s c (.rdemote f) → knownHandle s c.r.id (c.s f.sa.toNat) = some (t0, k, r) →
      let prio := f.flags.toNat % 8
      (r.prio < prio → ∃ t, exec (.rdemote f) s = .next t ∧ Ran s t c [] [later s c (destScalar c f.sd.toNat 2) 0]) ∧
      (prio ≤ r.prio → ∃ t fl, exec (.rdemote f) s = .next t ∧ fl ∈ t.flights ∧ fl.id = s.nextId ∧ fl.dests = numberedDests c.x (destScalar c f.sd.toNat 0) ∧
        KeepsRegs s t c.x [] ∧ t.issue = none ∧ (splitFind t c.x).map (fun p => p.pc) = some (loopUpdate c.p.loops c.p.pc).2 ∧
        (f.flags.getLsbD 3 = false → Table.find (towerOf t t0).handles k = some { r with prio := prio } ∧ t.flights = s.flights ++ [fl] ∧ t.mem = s.mem ∧ t.lines = s.lines) ∧
        (f.flags.getLsbD 3 = true → Table.find (towerOf t t0).handles k = some { r with prio := prio, evicted := true } ∧
          ∀ e ∈ (towerOf t t0).slices, e.pinned = true ∨ ¬ (e.space = r.space ∧ r.base.toNat ≤ e.va.toNat ∧ e.va.toNat < r.base.toNat + r.size))))

/-! ## System words -/

/-- R58, R59, R249, R412: `rdsys` writes a register of the split or the workgroup at once, and one of the column, the tower or the device later. -/
def Obligations.SystemRegisterReads : Prop :=  ∀ s c f, Issues s c (.rdsys f) →
    (∀ v, ((f.imm = 0x001 ∧ v = c.p.xbnd.toNat) ∨
        (f.imm = 0x002 ∧ v = c.w.slot * 2 ^ 16 + c.w.column / 48 * 2 ^ 8 + c.w.column % 48 * 4 + c.w.layer) ∨
        (f.imm = 0x010 ∧ v = c.p.trapCause.toNat) ∨ (f.imm = 0x011 ∧ v = c.p.trapPc.toNat) ∨ (f.imm = 0x012 ∧ v = c.p.trapVal.toNat) ∨
        (c.handler = true ∧ 0x020 ≤ f.imm.toNat ∧ f.imm.toNat ≤ 0x02F ∧ v = (readWord c (.s (f.imm.toNat + 12))).toNat) ∨
        (f.imm = 0x043 ∧ v = c.w.migcnt.toNat) ∨ (f.imm = 0x044 ∧ v = c.w.migcyc.toNat) ∨ (f.imm = 0x045 ∧ v = c.w.migdefer.toNat)) →
      ∃ t, exec (.rdsys f) s = .next t ∧ ScalarGets t c f.pair f.sd.toNat v ∧ Ran s t c (scalarRegs c f.pair f.sd.toNat) []) ∧
    (∀ v, ((f.imm = 0x031 ∧ v = (if s.timeFree then 1 else 0) + 2 * (if s.timeLoss then 1 else 0) + 4 * (if s.timeRet then 1 else 0)) ∨
        (0x038 ≤ f.imm.toNat ∧ f.imm.toNat ≤ 0x03F ∧ v = (match s.xlat[f.imm.toNat - 0x038]? with
          | some (on, l) => (if on then 2 ^ 31 else 0) + l.toNat
          | none => 0)) ∨
        (f.imm = 0x040 ∧ v = (columnOf s c.w.column).thHi.toNat) ∨ (f.imm = 0x041 ∧ v = (columnOf s c.w.column).thLo.toNat) ∨
        (f.imm = 0x042 ∧ v = (if (columnOf s c.w.column).thEn then 2 ^ 31 else 0) + (columnOf s c.w.column).thDwell.toNat) ∨
        (f.imm = 0x050 ∧ v = (if (columnOf s c.w.column).drEn then 2 ^ 31 else 0) + (columnOf s c.w.column).drAlarms * 2 ^ 16 + (columnOf s c.w.column).drTh.toNat) ∨
        (f.imm = 0x060 ∧ v = (towerOf s (c.w.column / 48)).rsh.toNat) ∨ (f.imm = 0x061 ∧ v = (towerOf s (c.w.column / 48)).pinbyp.toNat)) →
      ∃ t, exec (.rdsys f) s = .next t ∧ Ran s t c [] [later s c (destScalars c f.pair f.sd.toNat v) 0]) ∧
    (f.imm = 0x030 → ∃ t fl, exec (.rdsys f) s = .next t ∧ Ran s t c [] [fl] ∧ fl.kind = .clock ∧ fl.dests = numberedDests c.x (destScalars c f.pair f.sd.toNat (timeOf s)))

/-- R8, R36, R59, R243, R245, R249, R302, R303, R366, R415, R418: Each write of a system register, in the mode that it needs and with its reserved bits
clear, writes that register and changes nothing else: XBND, the trap registers, IS44 to IS59, DRTH but its ALARMS, RWAYF, TIMESTAT; a write of a
threshold goes to the column and restarts its cores' dwell runs, and one that turns the trapeze off leaves no core hot and no capture that has not begun
to move. A reserved bit that is set traps. -/
def Obligations.SystemRegisterWrites : Prop :=  ∀ s c,
    let low (f : SF) : BitVec 32 := BitVec.ofNat 32 (c.scalar f.pair f.sa.toNat)
    let all (f : SF) : DWord := BitVec.ofNat 64 (c.scalar f.pair f.sa.toNat)
    (∀ f, Issues s c (.wrsys f) → c.scalar f.pair f.sa.toNat < (if f.imm = 0x011 ∨ f.imm = 0x012 then 2 ^ 64 else 2 ^ 32) →
      (f.imm = 0x001 → (low f) >>> 15 = 0 → (low f).getLsbD 7 = false → ∃ t, exec (.wrsys f) s = .next t ∧ Ran (modSplit s c.x (fun p => { p with xbnd := low f })) t c [] []) ∧
      (c.super = true → f.imm = 0x010 → (low f).extractLsb' 16 8 = 0 →
        ∃ t, exec (.wrsys f) s = .next t ∧ Ran (modSplit s c.x (fun p => { p with trapCause := low f })) t c [] []) ∧
      (c.super = true → f.imm = 0x011 → (all f).extractLsb' 0 3 = 0 →
        ∃ t, exec (.wrsys f) s = .next t ∧ Ran (modSplit s c.x (fun p => { p with trapPc := all f })) t c [] []) ∧
      (c.super = true → f.imm = 0x012 → ∃ t, exec (.wrsys f) s = .next t ∧ Ran (modSplit s c.x (fun p => { p with trapVal := all f })) t c [] []) ∧
      (c.handler = true → 0x020 ≤ f.imm.toNat → f.imm.toNat ≤ 0x02F → ∃ t, exec (.wrsys f) s = .next t ∧
        held t c.x (.s (f.imm.toNat + 12)) = some (.word (low f)) ∧ Ran s t c [.s (f.imm.toNat + 12)] []) ∧
      (c.super = true → f.imm = 0x050 → (low f).extractLsb' 5 11 = 0 → (low f).extractLsb' 16 15 = 0 → ∃ t, exec (.wrsys f) s = .next t ∧
        Ran (modColumn s c.w.column (fun k => { k with drEn := (low f).getLsbD 31, drTh := (low f).extractLsb' 0 5 })) t c [] [])) ∧
    (∀ f, Issues s c (.rwayfWrite f) → f.imm = 0x060 → c.super = true → c.scalar f.pair f.sa.toNat ≤ 8 → ∃ t, exec (.rwayfWrite f) s = .next t ∧
      Ran (modTower s (c.w.column / 48) (fun k => { k with rsh := BitVec.ofNat 4 (c.scalar f.pair f.sa.toNat) })) t c [] []) ∧
    (∀ f, Issues s c (.timestatWrite f) → f.imm = 0x031 → c.scalar f.pair f.sa.toNat < 8 → s.lossAt ≠ some (timeOf s) → s.returnAt ≠ some (timeOf s) →
      ∃ t, exec (.timestatWrite f) s = .next t ∧
        Ran { s with timeLoss := s.timeLoss && !(low f).getLsbD 1, timeRet := s.timeRet && !(low f).getLsbD 2 } t c [] []) ∧
    (∀ f, Issues s c (.thRegisterWrite f) → c.super = true → ∀ k : Column,
      (f.imm = 0x040 ∧ c.scalar f.pair f.sa.toNat < 2 ^ 10 ∧ k = { columnOf s c.w.column with thHi := BitVec.ofNat 10 (c.scalar f.pair f.sa.toNat) }) ∨
        (f.imm = 0x041 ∧ c.scalar f.pair f.sa.toNat < 2 ^ 10 ∧ k = { columnOf s c.w.column with thLo := BitVec.ofNat 10 (c.scalar f.pair f.sa.toNat) }) ∨
        (f.imm = 0x042 ∧ c.scalar f.pair f.sa.toNat < 2 ^ 32 ∧ (low f).extractLsb' 24 7 = 0 ∧
          k = { columnOf s c.w.column with thEn := (low f).getLsbD 31, thDwell := (low f).extractLsb' 0 24 }) →
      let off : Bool := !k.thEn || decide (k.thHi.toNat ≤ k.thLo.toNat)
      ∃ t, exec (.thRegisterWrite f) s = .next t ∧ KeepsRegs s t c.x [] ∧ t.mem = s.mem ∧ t.flights = s.flights ∧ t.issue = none ∧
        (splitFind t c.x).map (fun p => p.pc) = some (loopUpdate c.p.loops c.p.pc).2 ∧
        (∀ n ∈ coresOf c.w.column, (coreOf t n).above = [] ∧ (coreOf t n).hot = ((coreOf s n).hot && !off)) ∧
        (off = false → columnOf t c.w.column = k) ∧
        (off = true → { columnOf t c.w.column with capture := none, busFree := 0 } = { k with capture := none, busFree := 0 } ∧
          ∀ cap, (columnOf t c.w.column).capture = some cap → cap.moveTill.isSome = true)) ∧
    (∀ f i v, (i = .wrsys f ∨ i = .thRegisterWrite f ∨ i = .timestatWrite f ∨ i = .rwayfWrite f) → Issues s c i → v = c.scalar f.pair f.sa.toNat →
      ((f.imm = 0x001 ∧ (v / 2 ^ 15 ≠ 0 ∨ v / 2 ^ 7 % 2 = 1)) ∨ (f.imm = 0x031 ∧ 8 ≤ v) ∨
        (c.super = true ∧ ((f.imm = 0x010 ∧ v / 2 ^ 16 % 2 ^ 8 ≠ 0) ∨ (f.imm = 0x011 ∧ v % 8 ≠ 0) ∨ ((f.imm = 0x040 ∨ f.imm = 0x041) ∧ 2 ^ 10 ≤ v) ∨
          (f.imm = 0x042 ∧ v / 2 ^ 24 % 2 ^ 7 ≠ 0) ∨ (f.imm = 0x050 ∧ v / 2 ^ 5 % 2 ^ 11 ≠ 0) ∨ (f.imm = 0x060 ∧ 8 < v)))) →
      Traps i s c 1 0 127 (wordOf i))

/-- R251 to R255, R371, R376: `pbget` reads an entry's word or a slot's status; `hpost` without a queue answers 2 later, and else launches its event, a release
at system scope; a `launch` outside the region's subtree, or into a full list, answers 0 later, and else, its checks passed, launches its append, a release
at device scope; a `tlbinv` waits at its word; `pswap` answers 2 for an operand that names no leaf, 1 for pages of two sizes, 3 for a page that is being
swapped, and else starts the swap; a `pbset` launches with the bytes of its descriptor or image, and with no access where it empties a slot or names one
that takes no image. -/
def Obligations.DeviceServiceWords : Prop :=  ∀ s c,
    (∀ f, Issues s c (.pbgetRng f) → ∃ t, exec (.pbgetRng f) s = .next t ∧ Ran s t c (scalarRegs c true f.sd.toNat) [] ∧
      (let e := Table.get s.playbill (f.imm.toNat % 64) .zero
       ScalarGets t c true f.sd.toNat ((match f.imm.toNat / 64 % 4 with | 0 => e.word0 | 1 => e.word1 | 2 => e.word2 | _ => e.word3) : DWord).toNat)) ∧
    (∀ f, Issues s c (.pbgetProt f) → ∃ t, exec (.pbgetProt f) s = .next t ∧ Ran s t c (scalarRegs c true f.sd.toNat) [] ∧
      (f.imm.toNat % 64 < 16 → ScalarGets t c true f.sd.toNat (slotStatus s (f.imm.toNat % 64)))) ∧
    (∀ f, Issues s c (.hpost f) → PathRoom c 2 →
      (c.r.hevq = 0 → ∃ t, exec (.hpost f) s = .next t ∧ Ran s t c [] [later s c (destScalar c f.sd.toNat 2) 0]) ∧
      (c.r.hevq ≠ 0 → ∃ fl p, exec (.hpost f) s = .next (settle (launchFlight s c fl) c f.mark .next) ∧ fl.kind = .post c.r.id ∧ fl.path = some 2 ∧ fl.strong = 6 ∧ fl.release = 6 ∧ fl.dests = scalarDests c f.sd.toNat false ∧
        fl.parts = [p] ∧ p.op = .hostEvent ∧ numAt p.data 0 8 = c.pair f.sa.toNat % 2 ^ 64 ∧ numAt p.data 8 2 = f.imm.toNat % 2 ^ 16 ∧ numAt p.data 10 2 = c.w.column % 2 ^ 16)) ∧
    (∀ f, Issues s c (.launch f) → PathRoom c 2 →
      let answer0 : Prop := ∃ t, exec (.launch f) s = .next t ∧ Ran s t c [] [later s c (destScalar c f.sd.toNat 0) 0]
      (launchTarget s c (c.pair f.sb.toNat) = none → answer0) ∧
      (∀ q n, launchTarget s c (c.pair f.sb.toNat) = some q → appended s q = some n →
        (q.llsize ≤ n - q.ldone → answer0) ∧
        (n - q.ldone < q.llsize →
          (∀ code detail l va, checkGlobal s c .load 128 128 128 [(127, BitVec.ofNat 64 (c.pair f.sa.toNat))] = .trap code detail l va →
            Traps (.launch f) s c code detail l va) ∧
          (∀ s1 s2 s3 s4 s5 s6 u v k,
            checkGlobal s c .load 128 128 128 [(127, BitVec.ofNat 64 (c.pair f.sa.toNat))] = .ok s1 [u] → touchAll s1 c false [u] = some s2 →
            checkGlobal s2 c .store 128 128 128 [(127, BitVec.ofNat 64 (q.llist + 128 * (n % q.llsize)))] = .ok s3 [v] → touchAll s3 c true [v] = some s4 →
            checkGlobal s4 c .counterAdd 8 8 8 [(127, BitVec.ofNat 64 q.lctr)] = .ok s5 [k] → touchAll s5 c true [k] = some s6 →
            ∃ fl p, exec (.launch f) s = .next (settle (launchFlight s6 c fl) c f.mark .next) ∧ fl.kind = .launch q.id ∧ fl.path = some 2 ∧ fl.strong = 5 ∧
              fl.release = 5 ∧ fl.parts = [p] ∧ p.op = .append ∧ p.place = (globalUnit s6 k .append []).place ∧ fl.dests = scalarDests c f.sd.toNat false)))) ∧
    (∀ i f, i = .tlbinvPage f ∨ i = .tlbinvSpace f ∨ i = .tlbinvAll f → Issues s c i → c.super = true → c.p.wait = .none →
      exec i s = .next (endIssue (modSplit s c.x (fun p => { p with wait := .tlbinv false })))) ∧
    (∀ f, Issues s c (.pswap f) → c.super = true →
      let answer (n : Nat) : Prop := ∃ t, exec (.pswap f) s = .next t ∧ Ran s t c [] [later s c (destScalar c f.sd.toNat n) 0]
      (swapEntry s (c.pair f.sa.toNat) = none ∨ swapEntry s (c.pair f.sb.toNat) = none → answer 2) ∧
      (∀ fa fb na nb ea eb, swapEntry s (c.pair f.sa.toNat) = some (fa, na, ea) → swapEntry s (c.pair f.sb.toNat) = some (fb, nb, eb) →
        let busy : Prop := ∃ w ∈ s.swaps, w.frameA = fa ∨ w.frameA = fb ∨ w.frameB = fa ∨ w.frameB = fb
        (na ≠ nb → answer 1) ∧ (na = nb → busy → answer 3) ∧
        (na = nb → ¬ busy →
          ∃ t w fl, exec (.pswap f) s = .next t ∧ t.swaps = s.swaps ++ [w] ∧ w.pteA = c.pair f.sa.toNat ∧ w.pteB = c.pair f.sb.toNat ∧ w.frameA = fa ∧ w.frameB = fb ∧
            w.chunks = 2 ^ (na - 12) ∧ w.next = 0 ∧ t.flights = s.flights ++ [fl] ∧ w.flight = fl.id ∧ fl.dests = numberedDests c.x (openScalar c f.sd.toNat) ∧
            KeepsRegs s t c.x [] ∧ t.mem = s.mem ∧ t.issue = none ∧ (splitFind t c.x).map (fun p => p.pc) = some (loopUpdate c.p.loops c.p.pc).2))) ∧
    (∀ f, Issues s c (.pbsetProt f) → c.super = true → (c.pair f.sa.toNat = 0 ∨ ¬ (7 ≤ f.imm.toNat ∧ f.imm.toNat < 16)) →
      ∃ fl, exec (.pbsetProt f) s = .next (settle (launchFlight s c fl) c f.mark .next) ∧ fl.kind = .playbill f.imm.toNat true ∧ fl.parts = [] ∧
        fl.dests = openScalar c f.sd.toNat) ∧
    (∀ i f (image : Bool), (i = .pbsetRng f ∧ image = false) ∨ (i = .pbsetProt f ∧ image = true ∧ c.pair f.sa.toNat ≠ 0 ∧ 7 ≤ f.imm.toNat ∧ f.imm.toNat < 16) →
      Issues s c i → c.super = true → ∀ s1 seen s2,
      checkGlobal s c .load 8 (if image then 2112 + 3376 else 32) 8 [(127, BitVec.ofNat 64 (c.pair f.sa.toNat))] = .ok s1 seen → touchAll s1 c false seen = some s2 →
      ∃ fl, exec i s = .next (settle (launchFlight s2 c fl) c f.mark .next) ∧ fl.kind = .playbill f.imm.toNat image ∧
        fl.dests = openScalar c f.sd.toNat ∧ fl.parts = seen.map (fun q => globalUnit s2 q .read []))

/-! ## Events -/

/-- R287, R289 to R291, R296, R298, R299, R412: The issue choice passes core after core of the package, and after the last one's word half a tick passes; the
split that it chooses lives on that core and is ready, is in the guard queue or comes before every ready split of the core, and where one is ready and the
cycle is free one is chosen; a split whose word's page is not present parks and takes no slot; no register changes. A split passed over 63 times enters the
guard queue of its core. A group that may be demoted becomes eligible; a group whose demotion is over stands in the canopy; the first pending recall of a core
starts where its space fits, and takes 960 cycles to its data; a recall that is over leaves the group in its core, and loses the workgroup where its state was
struck. -/
def Obligations.IssueAndDemotion : Prop :=
  (∀ s : State,
    (s.booted = true → s.inReset = false → s.issue = none → s.turn < 768 →
      let col := columnOf s (s.turn / 4)
      let u := (splitsOn s s.turn).foldl parkUnfetched s
      let free : Prop := col.issueBarred = false ∧ (coreOf s s.turn).claimed ≠ some col.cycle
      ∃ t, exec .issueCycle s = .next t ∧ t.turn = s.turn + 1 ∧ t.now = s.now ∧ (∀ y r, held t y r = held s y r) ∧ (u = s → t.mem = s.mem) ∧
        (¬ free → t.issue = none) ∧ (free → (∃ y ∈ splitsOn s s.turn, splitReady u y = true) → t.issue.isSome = true) ∧
        (∀ x, t.issue = some x → x ∈ splitsOn s s.turn ∧ splitReady u x = true ∧
          (x ∈ (coreOf s s.turn).guard ∨ ∀ y ∈ splitsOn s s.turn, splitReady u y = true → keyBefore (issueKey t x) (issueKey t y) = true))) ∧
    (s.booted = true → s.inReset = false → s.issue = none → 768 ≤ s.turn →
      ∃ t, exec .issueCycle s = .next t ∧ t.turn = 0 ∧ t.now = s.now + 1 ∧ t.issue = none ∧ t.mem = s.mem ∧ (∀ y r, held t y r = held s y r)) ∧
    (∀ n x, n < 768 → x ∈ splitsOn s n → (splitFind s x).map (fun p => p.pass) = some 63 → x ∉ (coreOf s n).guard →
      ∃ m y, y ∈ splitsOn s m ∧ (splitFind s y).map (fun p => p.pass) = some 63 ∧ y ∉ (coreOf s m).guard ∧
        exec .guardQueueAppend s = .next (modCore s m (fun k => { k with guard := k.guard ++ [y] })))) ∧
  (∀ s : State,
    (∀ w ∈ s.wgs, ∀ (k : Nat) (g : Group), w.groups[k]? = some g → g.eligible = false → mayDemote s w k g = true →
      ∃ v m h, v ∈ s.wgs ∧ v.groups[m]? = some h ∧ mayDemote s v m h = true ∧
        exec .demotionEligible s = .next (modGroup s { wg := v.id, grp := m } (fun g => { g with eligible := true }))) ∧
    (∀ w ∈ s.wgs, ∀ (k : Nat) (g : Group) till, w.groups[k]? = some g → g.residence = .demoting till → till ≤ (columnOf s w.column).cycle →
      ∃ v m h end_ due, v ∈ s.wgs ∧ v.groups[m]? = some h ∧ h.residence = .demoting end_ ∧ end_ ≤ (columnOf s v.column).cycle ∧
        exec .demotionEnd s = .next (modGroup s { wg := v.id, grp := m } (fun g => { g with residence := .canopy due }))) ∧
    (∀ x w, wgFind s x.wg = some w → (pendingRecalls s w.core).head? = some x →
      ((coreSpace s w.core false).add { w.fields.space with groups := 0 }).fits = true →
      exec (.recallStart x) s = .next (modGroup s x (fun g => { g with residence := .recalling ((columnOf s w.column).cycle + 960) false }))) ∧
    (∀ w ∈ s.wgs, ∀ (k : Nat) (g : Group) till, w.groups[k]? = some g → g.residence = .recalling till true → till ≤ (columnOf s w.column).cycle →
      ∃ v m h t, v ∈ s.wgs ∧ v.groups[m]? = some h ∧ exec .recallEnd s = .next t ∧ (∀ a, Memory.read t.mem a = Memory.read s.mem a) ∧
        (wgFind s v.id = some v → ∃ u, groupFind t { wg := v.id, grp := m } = some u ∧ u.residence = .core ∧
          (h.canopyBad = false → u.eligible = false ∧ u.vregs = h.vregs ∧ u.acc = h.acc))))

/-- R301, R304 to R306, R309, R312: A core with a sensor above TH_HI for the dwell becomes hot, and one that reads below TH_LO stops being hot; the
trapeze captures a workgroup and holds it at its boundaries; the capture succeeds when the workgroup stands still, and its move takes the next free turn of
the bus, in a later cycle, for M / 512 cycles; a capture is abandoned after 2048 cycles, which leaves the workgroup alone for 2048 more; the move begins at
its turn, and after it the workgroup stands on the target core with MIGCNT one more. -/
def Obligations.TrapezeMoves : Prop :=  ∀ s : State,
    (∀ n k, (n, k) ∈ s.cores → hotDue s n = true → ∃ m, hotDue s m = true ∧ exec .coreBecomesHot s = .next (modCore s m (fun c => { c with hot := true }))) ∧
    (∀ n k, (n, k) ∈ s.cores → (coreOf s n).hot = true → (coreOf s n).reading < (columnOf s (n / 4)).thLo.toNat →
      ∃ m, (coreOf s m).hot = true ∧ (coreOf s m).reading < (columnOf s (m / 4)).thLo.toNat ∧
        exec .coreStopsBeingHot s = .next (modCore s m (fun c => { c with hot := false, above := [] }))) ∧
    (∀ c w n, c < 192 → captureChoice s c = some (w, n) → ∃ d v m, captureChoice s d = some (v, m) ∧ mayCapture v = true ∧
      exec .captureBegin s = .next (modWg (modColumn s d (fun k => { k with
        capture := some { wg := v.id, target := m, start := (columnOf s d).cycle, succeeded := none, moveFrom := 0, moveLen := 0, moveTill := none },
        lastSlot := Table.put k.lastSlot v.layer v.slot })) v.id (fun w => { w with hold := .capture }))) ∧
    (∀ c q k w, Capturing s c q k w → k.succeeded = none → w.hold = .capture → w.stopped = false → readyToMove s w = true →
      ∃ d p j v, Capturing s d p j v ∧ j.succeeded = none ∧ readyToMove s v = true ∧
        let len := ceilDiv (moveBytes v) 512
        exec .captureSuccess s = .next (modColumn s d (fun k => { k with
          capture := some { j with succeeded := some k.cycle, moveFrom := max (k.cycle + 1) k.busFree, moveLen := len }, busFree := max (k.cycle + 1) k.busFree + len }))) ∧
    (∀ c q k w, Capturing s c q k w → k.succeeded = none → k.start + 2048 ≤ q.cycle →
      ∃ d p j v, Capturing s d p j v ∧ j.succeeded = none ∧ j.start + 2048 ≤ p.cycle ∧ exec .captureAbandon s = .next (abandonCapture s d)) ∧
    (∀ c k w, (columnOf s c).capture = some k → k.moveTill = none → wgFind s k.wg = some w →
      (columnOf (abandonCapture s c) c).capture = none ∧ ∃ v, wgFind (abandonCapture s c) k.wg = some v ∧ v.hold = .none ∧
        v.excluded = some ((columnOf s c).cycle + 2048) ∧ (k.succeeded = none → v.groups = w.groups)) ∧
    (∀ w ∈ s.wgs, ∀ till, w.excluded = some till → till ≤ (columnOf s w.column).cycle →
      ∃ v ∈ s.wgs, exec .captureExclusionEnd s = .next (modWg s v.id (fun w => { w with excluded := none }))) ∧
    (∀ c q k w, Capturing s c q k w → k.moveTill = none → k.succeeded.isSome = true → k.moveFrom ≤ q.cycle → w.stopped = false →
      ∃ d p j v, Capturing s d p j v ∧ j.succeeded.isSome = true ∧ j.moveFrom ≤ p.cycle ∧ exec .moveBegin s = .next (modWg (modColumn s d (fun k => { k with
        capture := some { j with moveTill := some ((columnOf s d).cycle + j.moveLen) } })) v.id
          (fun w => { w with hold := .move, migdefer := addSat w.migdefer ((columnOf s d).cycle - j.start) }))) ∧
    (∀ c q k w till, Capturing s c q k w → k.moveTill = some till → till ≤ q.cycle →
      ∃ d p j v t u, Capturing s d p j v ∧ exec .moveEnd s = .next t ∧ wgFind t v.id = some u ∧ u.layer = j.target ∧ u.column = v.column ∧
        u.migcnt = addSat v.migcnt 1 ∧ u.migcyc = addSat v.migcyc j.moveLen ∧
        u.groups.map (fun g => (g.vregs, g.preds, g.acc)) = v.groups.map (fun g => (g.vregs, g.preds, g.acc)) ∧
        (∀ a, Memory.read t.mem a = Memory.read s.mem a))

/-- R50 to R53, R100, R142, R189, R194, R206, R242, R245, R254, R397: An access that is ready is presented; a home's trap becomes pending at its split; the wait
after a marked word ends with every shadow closed; a pending trap enters the handler with the word to resume at in TRAPVAL, and a `bar` or `join` that it
interrupts rests until the handler returns; a parked split whose condition holds runs again; a member acknowledges a `vstm` with its bytes in place; a
`tlbinv` removes what it names; an illegal word traps. -/
def Obligations.SplitEvents : Prop :=  ∀ s : State,
    (∀ id k s1, completePart s id k = some s1 → exec (.accessCompletion id [k]) s = .next { retireFlight s1 id with draw := s1.draw + 1 }) ∧
    (∀ id f, flightFind s id = some f → f.complete = true → (∀ e i, f.kind ≠ .playbill e i) → exec (.accessCompletion id []) s = .next (retireFlight s id)) ∧
    (∀ id f tr c, flightFind s id = some f → f.trap = some tr → ctxOf s f.x = some c → c.g.halted = false →
      ∃ t p, exec (.homeTrapAnswer id) s = .next t ∧ splitFind t f.x = some p ∧ p.pending = addPending c.p.pending tr ∧ p.pc = c.p.pc ∧
        KeepsRegs s t f.x [] ∧ ∀ a, Memory.read t.mem a = Memory.read s.mem a) ∧
    (∀ x p, splitFind s x = some p → p.live = true → p.markWait = true → resultsWritten s p = true → answersDue s x = false →
      ∃ t q, exec (.switchMarkerWaitEnd x) s = .next t ∧ splitFind t x = some q ∧ q = { p with markWait := false, boundary := true, shadows := [], await := [] } ∧
        (∀ y, y ≠ x → splitFind t y = splitFind s y) ∧ KeepsRegs s t x []) ∧
    (∀ x c tr, ctxOf s x = some c → trapDeliverable s x = true → c.p.pending = [tr] → handlerOf s c.r ≠ 0 → c.core.bank = none → (s.debugger = false ∨ tr.code ≠ 12) →
      ∃ t p g, exec (.asyncTrapDelivery x) s = .next t ∧ splitFind t x = some p ∧ groupFind t (groupOf x) = some g ∧
        p.trapCause = BitVec.ofNat 32 (tr.code + 2 ^ 8 * tr.detail + 2 ^ 24 * tr.lane + 2 ^ 31) ∧ p.trapPc = tr.pc ∧ p.trapVal = c.p.pc ∧
        p.pc = BitVec.ofNat 64 (handlerOf s c.r) ∧ p.state = .running ∧ p.pending = [] ∧ (∀ why since, c.p.state = .parked why since → p.resting = why.rests) ∧ p.scalars = c.p.scalars ∧ g.handler = some x.slot ∧ g.vregs = c.g.vregs ∧
        ∀ a, Memory.read t.mem a = Memory.read s.mem a) ∧
    (∀ x c, ctxOf s x = some c → c.p.live = true → heldParked s c = false → conditionMet s c = true →
      ∃ t p, exec (.parkConditionClears x) s = .next t ∧ splitFind t x = some p ∧ p = { c.p with state := .running } ∧ KeepsRegs s t x [] ∧
        ∀ a, Memory.read t.mem a = Memory.read s.mem a) ∧
    (∀ id f p n o m w, flightFind s id = some f → f.kind = .mirror → f.parts = [p] → p.place = .mirror n o → p.finished = false → mirrorFirst s f n = true →
      p.data.length = p.size → wgFind s f.x.wg = some w → firstWith (fun m => m.column == n) (mirrorSet s w) = some m → wgFind s m.id = some m → o + p.size ≤ m.fields.spad →
      ∃ t v, exec (.vstmMemberAck id n) s = .next t ∧ wgFind t m.id = some v ∧ scratchRead v o p.size = p.data ∧
        ∀ a, Memory.read t.mem a = Memory.read s.mem a) ∧
    (∀ x c form f, ctxOf s x = some c → c.p.wait = .tlbinv false → (peek s c).bind tlbForm = some (form, f) → s.flights = [] → s.commands = [] →
      ∃ t p, exec (.tlbinvComplete x) s = .next t ∧ splitFind t x = some p ∧ p.wait = .tlbinv true ∧ p.pc = c.p.pc ∧ KeepsRegs s t x [] ∧
        (∀ n, ∀ e ∈ (columnOf t n).tlb ++ (towerOf t n).tlb, form ≠ 2 ∧ (form = 1 → e.space ≠ c.r.space) ∧
          (form = 0 → e.space = c.r.space → e.hits c.r.space (BitVec.ofNat 64 (c.pair f.sa.toNat)) = false)) ∧
        ∀ a, Memory.read t.mem a = Memory.read s.mem a) ∧
    (∀ c word, issuing s = some c → c.p.refused = none → Traps (.illegalOpcodeWord word) s c 1 0 127 word)

/-- R211, R219, R224, R354, R370, R371, R392: An engine reads a record and moves words of its units, and the copy settles after the last; a follow-on
issues as a matrix command of its copy's future, ahead of its core's splits; a cancelled copy or command stops; a walk's leaf is marked and cached; access
counts halve every 2^20 ticks; a chunk may ask for migration again; a swap exchanges one chunk at a time; a conversion ends with its new entry in the
playbill. -/
def Obligations.EngineEvents : Prop :=  ∀ s : State,
    (∀ id k j s1, copyFind s id = some k → k.settled = false → k.landed = false → k.cancel = false → k.ready = true → moveUnit s id j = some s1 →
      exec (.copyCompletion id [j]) s = .next { settleCopy s1 id with draw := s1.draw + 1 }) ∧
    (∀ id k w r s1, copyFind s id = some k → k.settled = false → k.landed = false → k.cancel = false → k.ready = false → wgFind s k.g.wg = some w →
      regionFind s w.region = some r → beginCopy s w r k = some s1 → exec (.copyCompletion id []) s = .next (settleCopy s1 id)) ∧
    (∀ id k w g fl, copyFind s id = some k → wgFind s k.g.wg = some w → groupFind s k.g = some g → k.follow = some fl → k.landed = true → k.cancel = false →
      s.turn ≤ w.core → g.residence = .core → w.hold ≠ .move → moveIsNext s w = false → (coreOf s w.core).pipeFree ≤ coreCycle s w.core → (columnOf s w.column).issueBarred = false → pathOf g 4 < 255 →
      (matrixQueue s w.core).length < 8 →
      ∃ t u m rows, exec (.followOnMmaIssue id) s = .next t ∧ groupFind t k.g = some u ∧ (4 < g.paths.length → pathOf u 4 = pathOf g 4 + 1) ∧ u.vregs = g.vregs ∧ u.acc = g.acc ∧
        t.commands = s.commands ++ [m] ∧ m.g = k.g ∧ m.op = .mma fl.f fl.shape fl.fa fl.fb fl.rows rows ∧ m.handle = some k.handle ∧
        (∀ got, latchHit g fl.slot fl.f = some got → rows = got) ∧ (latchHit g fl.slot fl.f = none → rows = followTile s g fl) ∧
        ∀ a, Memory.read t.mem a = Memory.read s.mem a) ∧
    (∀ id k, copyFind s id = some k → k.cancel = true → k.settled = false → exec (.engineStopCancel id) s = .next { stopCopy s k with draw := s.draw + 1 }) ∧
    (∀ id m, copyFind s id = none → cmdFind s id = some m → m.cancel = true → firstOfGroup s m = true →
      exec (.engineStopCancel id) s = .next { stopCmd s m with draw := s.draw + 1 }) ∧
    (∀ column space va write s1 w, column < 192 → canonical va = true → walk s space va = some (s1, w) →
      ∀ s2, touchPage s1 column space va w write = some s2 → exec (.translationWalkComplete column space va write) s = .next s2) ∧
    (s.halvedAt < timeOf s / 2 ^ 20 → ∃ t, exec .accessCountHalving s = .next t ∧ t.halvedAt = s.halvedAt + 1 ∧
      ∀ n, ((Table.find t.chunks n).map (fun c => c.counts)) = (Table.find s.chunks n).map (fun c => c.counts.map (· / 2))) ∧
    (∀ n c, (n, c) ∈ s.chunks → c.quietTill ≠ 0 → c.quietTill ≤ timeOf s →
      ∃ m d, (m, d) ∈ s.chunks ∧ d.quietTill ≠ 0 ∧ d.quietTill ≤ timeOf s ∧
        exec .migrationHysteresisEnd s = .next (checkMigration { s with chunks := Table.put s.chunks m { d with quietTill := 0 } } m)) ∧
    (∀ id w, firstWith (fun w => w.id == id) s.swaps = some w → chunkQuiet s (w.frameA + 4096 * w.next) (w.frameB + 4096 * w.next) = true → w.next + 1 < w.chunks →
      w.frameA + 4096 * w.chunks ≤ w.frameB ∨ w.frameB + 4096 * w.chunks ≤ w.frameA → s.lines = [] →
      ∃ t, exec (.pswapChunkExchange id) s = .next t ∧
        (∀ k, k < 4096 → Memory.read t.mem (w.frameA + 4096 * w.next + k) = Memory.read s.mem (w.frameB + 4096 * w.next + k) ∧
          Memory.read t.mem (w.frameB + 4096 * w.next + k) = Memory.read s.mem (w.frameA + 4096 * w.next + k)) ∧
        (∀ a, (a < w.frameA + 4096 * w.next ∨ w.frameA + 4096 * w.next + 4096 ≤ a) → (a < w.frameB + 4096 * w.next ∨ w.frameB + 4096 * w.next + 4096 ≤ a) →
          Memory.read t.mem a = Memory.read s.mem a)) ∧
    (∀ c rest, s.conversions = c :: rest → s.flights = [] → s.msgs = [] → s.lines = [] → s.dirs = [] →
      ∃ t e, exec .conversionComplete s = .next t ∧ t.conversions = rest ∧ Table.find t.playbill c.entry = some e ∧ e.word0 = c.new.word0 ∧ e.word2 = c.new.word2 ∧
        e.word3 = c.new.word3 ∧ ∀ a, Memory.read t.mem a = Memory.read s.mem a)

/-- R45, R333, R335, R336, R339, R378, R387, R433: A record at the head of a list is taken in with its STATUS; a placement step places the first candidate that
can be placed; a wait that is longer than PBOUND expires; a complete workgroup presents REL to its column, and leaves its slot, and with the last one, once
HALO's replicas have merged what its columns pushed, its launch has STATUS 2; a fault record is posted where its queue has room; and a group starts with the
registers that its launch gives it. -/
def Obligations.RingmasterEvents : Prop :=  (∀ (s : State) before r after s1 b bad, s.regions = before ++ r :: after → (∀ q ∈ before, nextRecordOf s q = none) → nextRecordOf s r = some (s1, b, bad) →
    ∃ t, exec .launchRecordCheck s = .next t ∧
      (bad = false → recordInvalid r.nextRecord b = false → unplaceable s r (LaunchRec.ofBytes b) = false → t = admitRecord s1 r b 0) ∧
      (∀ status, (status = 3 ∧ (bad = true ∨ recordInvalid r.nextRecord b = true)) ∨
          (status = 4 ∧ bad = false ∧ recordInvalid r.nextRecord b = false ∧ unplaceable s r (LaunchRec.ofBytes b) = true) →
        t = finishLaunch (queueRecord (admitRecord s1 r b status) r.id (record226 (seqOf r.nextRecord) status 4 0 (r.recordAddr r.nextRecord) 0 0 0)) r.id r.nextRecord)) ∧
  (∀ (s : State) r l ms s2, s.booted = true → s.inReset = false → s.xlat.all (fun e => e.1) = true → candidates (pruneReserves (noteCandidates s)) = [(r, l, ms)] →
    placeMembers (pruneReserves (noteCandidates s)) r l ms = some s2 →
    ∃ t, exec .placementStep s = .next t ∧ t.wgs.length = s2.wgs.length ∧ t.draw = (notePlaced s2 r l).draw + 1) ∧
  (∀ (s : State) r l since, r ∈ s.regions → l ∈ r.launches → l.expired = false → l.since = some since → since + pboundOf s r < timeOf s →
    ∃ q k, q ∈ s.regions ∧ k ∈ q.launches ∧ k.expired = false ∧ exec .pboundExpiry s = .next (modLaunch s q.id k.id (fun l => { l with expired := true }))) ∧
  (∀ (s : State) wg w r l, wgFind s wg = some w → regionFind s w.region = some r → launchFind s w.region w.launch = some l → w.complete = true → w.hold ≠ .move →
    let last : Prop := l.finished.length + 1 = l.fields.nwg ∧ l.over = false
    ∀ s1, presentRel s w.column = some s1 →
      (last → haloDirty s w.column = true → exec (.workgroupCompletion wg) s = .next s1) ∧
      ((last → haloDirty s w.column = false ∧ ∀ c ∈ w.column :: l.ran.map (fun k => k.column), haloPushes s1 c = false) →
        ∃ t, exec (.workgroupCompletion wg) s = .next t ∧ wgFind t wg = none ∧ (∀ f ∈ t.flights, f.x.wg ≠ wg) ∧
          (last → (launchFind t w.region w.launch).map (fun k => k.status) = some 2))) ∧
  (∀ (s : State) before r after b more s1 raw poisoned s2 pa e e2, s.regions = before ++ r :: after → (∀ q ∈ before, q.fqWaiting = []) → r.fqWaiting = b :: more →
    regionFind s r.id = some r → answersWaited s r b = false → ringCounter s r.space r.fqctr = some (s1, raw, poisoned) → numOf raw - r.lowest < r.fqsize →
    ringAddr (ringWrite s1 r.space (r.fq + 32 * (numOf raw % r.fqsize)) b) r.space r.fqctr true = some (s2, pa, e) → counterAdd (passTokens s2 pa) pa 1 = some e2 →
    ∃ t q, exec .faultRecordPost s = .next t ∧ regionFind t r.id = some q ∧ q.fqWaiting = more) ∧
  (∀ f addr seq index grp res time, ∃ p, (startGroup f addr seq index grp none res time).splits = [p, .blank, .blank, .blank] ∧ p.pc = f.entry ∧ p.live = true ∧ p.own = BitVec.allOnes 96 ∧ p.mode = 0 ∧ p.floors = floorsAt time ∧
      (startGroup f addr seq index grp none res time).exited = ~~~ lanesInUse f grp ∧
      p.scalars = [(1, BitVec.ofNat 32 index), (2, BitVec.ofNat 32 grp), (3, BitVec.ofNat 32 f.groups), (4, f.args.extractLsb' 0 32), (5, f.args.extractLsb' 32 32),
        (6, addr.extractLsb' 0 32), (7, addr.extractLsb' 32 32), (8, BitVec.ofNat 32 seq), (9, 0), (61, (lanesInUse f grp).extractLsb' 0 32),
        (62, (lanesInUse f grp).extractLsb' 32 32), (63, (lanesInUse f grp).extractLsb' 64 32)] ∧
      ∀ l, l < 96 → lane (Table.get (startGroup f addr seq index grp none res time).vregs 0 []) l = BitVec.ofNat 32 (96 * grp + l) ∧
        lane (Table.get (startGroup f addr seq index grp none res time).vregs 1 []) l = BitVec.ofNat 32 l)

/-- R343, R345, R346, R348 to R350: A region takes up a command that is not refused: PREEMPT freezes the subtree, RESUME reads its blocks again, RETIRE
refuses later appends, KILL does so too and freezes it; a PREEMPT, a RETIRE or a KILL is done when its subtree is empty; a held or stopped workgroup
with nothing under way is discarded; a drain becomes a save at its deadline where its mirror set's images can be placed, and a save that had become a drain at a
later tick; a save writes its image once its column has published its lines, becomes a drain where the image can be placed nowhere, and then its slot is free; a
restore ends with the workgroup running. -/
def Obligations.PreemptionEvents : Prop :=  (∀ (s : State) id r s1 i b bad q, regionFind s id = some r → r.command = none → nextCommand s r = some (s1, i, b, bad) → commandTarget s1 r b bad = some q →
    (numAt b 0 1 = 1 → ∃ t, exec (.preempt id) s = .next t ∧ ∀ u ∈ t.regions, isDescendant s1 q.id u.id = true → u.frozen = true) ∧
    (numAt b 0 1 = 2 → ∀ s2, rereadAll s1 (subtree s1 q.id) = some s2 → exec (.resume id) s = .next (endCommand s2 r r.cdone 0 (numAt b 24 8))) ∧
    (numAt b 0 1 = 3 → ∃ t, exec (.retire id) s = .next t ∧ ∀ u ∈ t.regions, isDescendant s1 q.id u.id = true → u.retiring = true ∧ u.listEnd ≠ none) ∧
    (numAt b 0 1 = 4 → ∃ t, exec (.kill id) s = .next t ∧ ∀ u ∈ t.regions, isDescendant s1 q.id u.id = true → u.retiring = true ∧ u.listEnd ≠ none)) ∧
  (∀ (s : State) id r c, regionFind s id = some r → r.command = some c → nothingResident s c.target = true →
    (c.code = 1 → exec (.preempt id) s = .next (endCommand s r c.record 0 c.done.toNat)) ∧
    (c.code = 3 ∨ c.code = 4 → listsComplete s c.target = true →
      exec (if c.code = 3 then .retire id else .kill id) s = .next (retireSubtree (endCommand s r c.record 0 c.done.toNat) c.target))) ∧
  (∀ (s : State) before w after, s.wgs = before ++ w :: after → (∀ v ∈ before, v.hold ≠ .flush ∧ v.stopped = false) → w.lost = none → w.hold ≠ .move →
    (w.hold = .flush ∧ heldStill s w = true) ∨ w.stopped = true → s.copies = [] → pathsClear w = true →
    ∃ t, exec .flushDiscard s = .next t ∧ wgFind t w.id = none) ∧
  (∀ (s : State) w p, preemptWhere s (fun w p => p.kind == .drain && p.reverted.isNone && p.deadline == timeOf s && imagesFit s (draining s w false)) = some (w, p) →
    exec .drainToSave s = .next ((draining s w false).foldl (fun s v => startSave s v.id) s) ∧
    (w.fields.mset < 2 → draining s w false = [w] ∧ (w.hold = .none → wgFind s w.id = some w →
      ∃ v, wgFind (startSave s w.id) w.id = some v ∧ v.hold = .save ∧ v.preempt.map (fun p => p.kind) = some .save ∧
        v.groups.map (fun g => (g.vregs, g.preds, g.acc, g.splits)) = w.groups.map (fun g => (g.vregs, g.preds, g.acc, g.splits))))) ∧
  (∀ (s : State) w p, preemptWhere s (fun w p => p.kind == .drain && (match p.reverted with | some t => t < timeOf s | none => false) && imagesFit s (draining s w true)) = some (w, p) →
    exec .saveRetry s = .next ((draining s w true).foldl (fun s v => startSave s v.id) s)) ∧
  (∀ (s : State) wg w p s1, wgFind s wg = some w → w.preempt = some p → p.kind = .save → w.hold = .save → p.image = none → w.stopped = false → heldStill s w = true →
    pathsClear w = true → s.copies.any (fun k => k.g.wg == wg && !k.settled) = false → s.commands.any (fun m => m.g.wg == wg) = false →
    dirtyLines s w.column = [] → s.msgs.any (fun m => m.src == .col w.column && m.mask != 0) = false → presentRel s w.column = some s1 → haloPushes s1 w.column = false →
    (∀ at_, imagePlace s1 w = some at_ → exec (.saveImageWriteStart wg) s = .next (beginImage s1 w at_)) ∧
    (imagePlace s1 w = none → ∃ t v, exec (.saveImageWriteStart wg) s = .next t ∧ t.mem = s.mem ∧ wgFind t wg = some v ∧
      v.hold = .none ∧ v.preempt.map (fun p => (p.kind, p.reverted)) = some (.drain, some (timeOf s)))) ∧
  (∀ (s : State) w p tower till, preemptWhere s (fun _ p => p.kind == .save && (match p.image with | some (_, t) => t ≤ timeOf s | none => false)) = some (w, p) →
    p.image = some (.canopy tower, till) → (regionFind s w.region).isSome = true →
    ∃ t i, exec .saveImageComplete s = .next t ∧ wgFind t w.id = none ∧ t.images = s.images ++ [i] ∧ i.place = .canopy tower ∧ i.restoring = none ∧
      i.wg.groups.map (fun g => (g.vregs, g.preds, g.acc, g.splits)) = w.groups.map (fun g => (g.vregs, g.preds, g.acc, g.splits))) ∧
  (∀ (s : State) before i after w till, s.images = before ++ i :: after → (∀ j ∈ before, j.restoring = none) → i.restoring = some till → till ≤ timeOf s → wgFind s i.wg.id = some w →
    imageSpoilt s i = false → w.preempt = none →
    ∃ t v, exec .resumeRestoreComplete s = .next t ∧ wgFind t i.wg.id = some v ∧ v.hold = .none ∧ (∀ j ∈ t.images, j.id ≠ i.id) ∧
      v.groups.map (fun g => (g.vregs, g.preds, g.acc)) = w.groups.map (fun g => (g.vregs, g.preds, g.acc)))

/-- R379, R380, R385, R386: Each message that no earlier one of its channel stands before is taken where its controller does not stall; at the home a
message is one step of the home's table, and the memory line takes its bytes where the table says so; LAST is taken where a count has reached zero;
pushed bytes are merged in a copy that is valid. -/
def Obligations.CoherenceMessages : Prop :=  (∀ s i id ev m s1, messageTable i = some (id, ev) → msgFind s id = some m → m.event = ev → deliverable s m = true → pushOrder s m = true → deliver hFuel s m = some s1 →
    ∃ t, exec i s = .next t ∧ t.draw = s.draw + 1 ∧ ((∀ c, m.dst ≠ .col c) → t = { s1 with draw := s.draw + 1 })) ∧
  (∀ s id m s1, msgFind s id = some m → m.dst = .home → isHomeEvent m.event = true →
    homeStep (dropMsg s id) .home m.line (if m.event = 6 ∧ (dirAt s .home m.line).owner ≠ some m.src then 7 else m.event) m.src m.data m.mask m.poison = some s1 →
    deliver hFuel s m = some s1) ∧
  (∀ (s : State) d, d ∈ s.dirs → d.lastDue = true → ∃ e ∈ s.dirs, e.lastDue = true ∧ exec .last s = .next (takeLast s e.place e.line)) ∧
  (∀ s id m c, msgFind s id = some m → m.event = 16 → deliverable s m = true → pushOrder s m = true → m.part = none → (∀ k, m.dst ≠ .col k) →
    lineFind s m.dst m.line = some c → c.state = 1 →
    ∃ t d, exec (.pushMerge id) s = .next t ∧ lineFind t m.dst m.line = some d ∧ d.data = blend m.mask m.data c.data ∧ d.state = 1 ∧
      ∀ a, Memory.read t.mem a = Memory.read s.mem a)

/-- R280, R393, R403, R452: An access of the host that the decoder maps, whose slot holds a key, that touches no log area and no page under conversion, is
answered: a read with the bytes of the homes, as they stand where no write is still on its way to some reader, a write with nothing once its bytes are in
memory, a counter add with nothing, or an error where the counter is misaligned or poisoned. One without a key reads zeros as poison and writes nothing. One
outside the decoder does nothing. -/
def Obligations.HostAccesses : Prop :=
  (∀ s hpa len, hostPa s hpa len = none → (∀ tag cached, exec (.hostRead tag hpa len cached) s = .next s) ∧
    (∀ tag bytes, bytes.length = len → exec (.hostWrite tag hpa bytes) s = .next s) ∧ (∀ tag addend, len = 8 → exec (.hostCounterAdd tag hpa addend) s = .next s)) ∧
  (∀ s tag hpa len pa, hostPa s hpa len = some pa → hostKey s pa len = none →
    (∀ cached, exec (.hostRead tag hpa len cached) s = .next (answer s tag (List.replicate len 0) true)) ∧
    (∀ bytes, bytes.length = len → exec (.hostWrite tag hpa bytes) s = .next (answer s tag [] false)) ∧
    (∀ addend, len = 8 → exec (.hostCounterAdd tag hpa addend) s = .next (answer s tag [] false))) ∧
  (∀ s tag hpa len cached pa k s1 bs bad, hostPa s hpa len = some pa → hostKey s pa len = some k → stalledAny s pa len = false → outsideRead s 0 pa len k 3 = some (s1, bs, bad) →
    ∃ t, exec (.hostRead tag hpa len cached) s = .next t ∧ t.answers = s.answers ++ [{ tag := tag, bytes := bs, poison := !bad.isEmpty }] ∧ t.mem = s1.mem ∧
      (s1.past = [] → s1.oddBytes = [] → (∀ l, Table.find s1.lineKeys l = none ∨ Table.find s1.lineKeys l = some k) →
        bs = (List.range len).map (fun i => Memory.read t.mem (pa + i)))) ∧
  (∀ s tag hpa bytes pa k s1, hostPa s hpa bytes.length = some pa → hostKey s pa bytes.length = some k → stalledAny s pa bytes.length = false →
    outsideWrite s 0 pa bytes k 3 [] = some s1 →
    ∃ t, exec (.hostWrite tag hpa bytes) s = .next t ∧ t.answers = s.answers ++ [{ tag := tag, bytes := [], poison := false }] ∧ t.mem = s1.mem ∧
      (outsideRefused s pa bytes.length = false → ∀ i, i < bytes.length → Memory.read t.mem (pa + i) = bytes.getD i 0)) ∧
  (∀ s tag hpa addend pa k, hostPa s hpa 8 = some pa → hostKey s pa 8 = some k →
    (pa % 8 ≠ 0 → exec (.hostCounterAdd tag hpa addend) s = .next (answer s tag [] true)) ∧
    (∀ s1 ok, pa % 8 = 0 → stalledAny s pa 8 = false → outsideAdd s pa addend.toNat k 3 = some (s1, ok) →
      ∃ t, exec (.hostCounterAdd tag hpa addend) s = .next t ∧ t.answers = s.answers ++ [{ tag := tag, bytes := [], poison := !ok }] ∧ t.mem = s1.mem))

/-- R329, R354, R400, R403 to R406, R433: Each command of the host port with a valid payload has its effect and STATUS 0: ACTIVATE of a root makes its
region and its space; FAULT_ANSWER lets the split that waits for the record run again; MIGQ_SET, LINKQ_BIND, LINKQ_RESUME, INWIN_SET and HOSTKEY_SET
write their tables. -/
def Obligations.HostPortCommands : Prop :=  ∀ s b,
    (Asked s 0x01 24 b →
      let addr := numAt b 0 8
      let space := numAt b 8 2
      let root := numAt b 16 8
      let s0 := { s with spaces := Table.put s.spaces space root }
      addr % 512 = 0 → canonical (BitVec.ofNat 64 addr) = true → 1 ≤ space → space ≤ 4095 → numAt b 10 6 = 0 → root % 4096 = 0 → isBacked root = true →
      Table.find s.spaces space = none → ∀ s1 k, readBlock s0 space addr = some (s1, k, false) → numAt k 0 8 = 0 → regionAt s1 space addr = none →
      blockInvalid true k = false → counterMisplaced s1 space k = false → sharesQueue s1 space s1.nextId k = false →
      ∃ t r, exec .activate s = .next t ∧ t.regions = s1.regions ++ [r] ∧ r.addr = BitVec.ofNat 64 addr ∧ r.space = space ∧ r.parent = none ∧ r.depth = 1 ∧ r.block = k ∧
        Table.find t.spaces space = some root ∧ t.mailbox.status = 0 ∧ t.mailbox.busy = false) ∧
    (Asked s 0x10 24 b → ∀ r s1 raw poisoned,
      firstWith (fun r => r.space == numAt b 18 2 && r.fq == numAt b 0 8) s.regions = some r → numAt b 16 1 ≤ 1 → numAt b 17 1 = 0 → 1 ≤ numAt b 18 2 → numAt b 18 2 ≤ 4095 →
      numAt b 20 4 = 0 → ringCounter s (numAt b 18 2) r.fqctr = some (s1, raw, poisoned) → numAt b 8 8 < numOf raw → (∀ e ∈ r.answered, e.1 ≠ numAt b 8 8) →
      exec .faultAnswer s = .next (endMailbox (answerAll (modRegion s1 r.id (fun r => { r with answered := r.answered ++ [(numAt b 8 8, numAt b 16 1 == 1)] })) r.id (numAt b 8 8)
        (numAt b 16 1 == 1)) 0)) ∧
    (Asked s 0x11 24 b → numAt b 0 8 % 4096 = 0 → isBacked (numAt b 0 8) = true → powerUpTo (numAt b 8 4) 65536 = true → 16 ≤ numAt b 8 4 → numAt b 14 2 = 0 → numAt b 16 8 % 8 = 0 →
      isBacked (numAt b 16 8) = true →
      exec .migqSet s = .next (endMailbox { s with migq := some { base := numAt b 0 8, entries := numAt b 8 4, vector := numAt b 12 2, counter := numAt b 16 8 } } 0)) ∧
    (Asked s 0x20 32 b → ∀ r, numAt b 0 1 ≤ 15 → numAt b 1 1 ≤ 7 → numAt b 2 1 ≤ 16 → numAt b 3 5 = 0 → numAt b 16 8 % 64 = 0 → canonical (BitVec.ofNat 64 (numAt b 16 8)) = true →
      numAt b 24 8 % 8 = 0 → canonical (BitVec.ofNat 64 (numAt b 24 8)) = true → firstWith (fun r => r.addr.toNat == numAt b 8 8) s.regions = some r →
      onCtrPage s r.space (numAt b 24 8) = true → (queueOf s (numAt b 0 1) (numAt b 1 1)).active = [] →
      ∃ t, exec .linkqBind s = .next t ∧ queueOf t (numAt b 0 1) (numAt b 1 1) = { bound := true, region := r.id, ring := BitVec.ofNat 64 (numAt b 16 8), size := 2 ^ numAt b 2 1, doorbell := BitVec.ofNat 64 (numAt b 24 8), next := 0, active := [], halted := false } ∧ t.mailbox.status = 0 ∧ t.mailbox.busy = false) ∧
    (Asked s 0x21 8 b → numAt b 0 1 ≤ 15 → numAt b 1 1 ≤ 7 → numAt b 2 6 = 0 →
      ∃ t, exec .linkqResume s = .next t ∧ queueOf t (numAt b 0 1) (numAt b 1 1) = { queueOf s (numAt b 0 1) (numAt b 1 1) with halted := false } ∧ t.mailbox.status = 0) ∧
    (Asked s 0x22 24 b → numAt b 0 1 ≤ 31 → numAt b 1 1 / 8 % 16 = 0 → numAt b 2 2 ≤ 0xFFF → numAt b 4 2 ≤ 1023 → numAt b 6 2 = 0 → numAt b 8 8 % 4096 = 0 → isHbm (numAt b 8 8) = true →
      numAt b 16 8 % 4096 = 0 → isHbm (numAt b 16 8) = true → numAt b 8 8 ≤ numAt b 16 8 →
      ∃ t w, exec .inwinSet s = .next t ∧ Table.find t.windows (numAt b 0 1) = some w ∧ w.source = numAt b 2 2 ∧ w.key = numAt b 4 2 ∧ w.base = numAt b 8 8 ∧ w.limit = numAt b 16 8 ∧
        (w.read = true ↔ numAt b 1 1 % 2 = 1) ∧ (w.write = true ↔ numAt b 1 1 / 2 % 2 = 1) ∧ (w.counter = true ↔ numAt b 1 1 / 4 % 2 = 1) ∧ t.mailbox.status = 0) ∧
    (Asked s 0x30 16 b → numAt b 0 4 ≤ 2047 → 1 ≤ numAt b 4 4 → numAt b 4 4 ≤ 2048 - numAt b 0 4 → numAt b 8 2 ≤ 1023 → numAt b 10 6 = 0 →
      ∃ t, exec .hostkeySet s = .next t ∧ t.mailbox.status = 0 ∧
        ∀ g, Table.find t.hostKeys g = if numAt b 0 4 ≤ g ∧ g < numAt b 0 4 + numAt b 4 4 then some (numAt b 8 2) else Table.find s.hostKeys g)

/-- R424, R442, R444, R445, R447, R448, R451 to R453, R455: Each command of Sahong with a valid payload has its effect and STATUS 0: ATTEST and
EVLOG_READ write their signed bodies; KEK_SET, KEY_LOAD, KEY_CLEAR, LOG_RANGE, LOG_AREA and THRESH_SET write their tables; SCRUB clears a domain,
writes its stub and leaves none of its keys. An unwrap that fails leaves KEY_LOAD's slot as it was, with STATUS 2. -/
def Obligations.SahongCommands : Prop :=  ∀ s b,
    (Asked s 0x40 40 b → destBad (numAt b 32 8) = false → ∀ s1, homeStore s (numAt b 32 8) (signed512 (reportBody s (slice b 0 32))) = some s1 →
      exec .attest s = .next (endMailbox s1 0)) ∧
    (Asked s 0x41 1576 b → numAt b 0 2 ≤ 1023 → numAt b 2 6 = 0 →
      ∃ t, exec .kekSet s = .next t ∧ t.mailbox.status = 0 ∧ Table.find t.keks (numAt b 0 2) = some (Config.kemKek (slice b 8 1568) (numAt b 0 2)) ∧
        (∀ d, d ≠ numAt b 0 2 → Table.find t.keks d = Table.find s.keks d) ∧ t.keys = s.keys ∧ t.mem = s.mem) ∧
    (Asked s 0x42 80 b → numAt b 0 2 ≤ 1023 → numAt b 2 2 ≤ 1023 → numAt b 4 4 = 0 → (Table.find s.keys (numAt b 0 2) = none ∨ slotInUse s (numAt b 0 2) = false) →
      ∀ kek, Table.find s.keks (numAt b 2 2) = some kek →
      ∃ t, exec .keyLoad s = .next t ∧ t.mem = s.mem ∧
        (∀ key, Config.keyUnwrap kek (slice b 8 72) = some key → t.mailbox.status = 0 ∧ Table.find t.keys (numAt b 0 2) = some { domain := numAt b 2 2, key := key }) ∧
        (Config.keyUnwrap kek (slice b 8 72) = none → t = endMailbox s 2)) ∧
    (Asked s 0x43 8 b → numAt b 0 2 ≤ 1023 → numAt b 2 6 = 0 → slotInUse s (numAt b 0 2) = false →
      ∃ t, exec .keyClear s = .next t ∧ t.mailbox.status = 0 ∧ Table.find t.keys (numAt b 0 2) = none ∧ (∀ c ∈ t.lines, c.key ≠ numAt b 0 2) ∧ t.mem = s.mem) ∧
    (Asked s 0x44 (48 + 16 * numAt b 2 1) b → numAt b 2 1 ≤ 32 → numAt b 0 2 ≤ 1023 → numAt b 3 5 = 0 → destBad (numAt b 40 8) = false → (payloadRanges b).any rangeBad = false →
      (∀ r ∈ s.regions, domainOf s r ≠ numAt b 0 2) → ∀ s1 k, scrubDomain s (numAt b 0 2) (slice b 8 32) (numAt b 40 8) (payloadRanges b) = some (s1, k) →
      exec .scrub s = .next (endMailbox s1 0) ∧ Table.find s1.keks (numAt b 0 2) = none ∧ Table.find s1.canopyKeys (numAt b 0 2) = none) ∧
    (Asked s 0x48 24 b → numAt b 0 1 ≤ 3 → numAt b 1 1 ≤ 63 → numAt b 2 1 ≤ 1 → numAt b 3 5 = 0 → numAt b 8 8 % 4096 = 0 → numAt b 16 8 % 4096 = 0 → isBacked (numAt b 8 8) = true →
      isBacked (numAt b 16 8) = true → numAt b 8 8 ≤ numAt b 16 8 →
      ∃ t, exec .logRange s = .next t ∧ t.mailbox.status = 0 ∧ Table.find (towerOf t (numAt b 0 1)).logRanges (numAt b 1 1) =
        some { enabled := numAt b 2 1 == 1, base := numAt b 8 8, limit := numAt b 16 8 }) ∧
    (Asked s 0x49 32 b → numAt b 0 1 ≤ 3 → numAt b 1 7 = 0 → numAt b 8 8 % 4096 = 0 → numAt b 16 8 % 4096 = 0 → isBacked (numAt b 8 8) = true → 1 ≤ numAt b 16 8 →
      isBacked (numAt b 8 8 + numAt b 16 8 - 1) = true → numAt b 24 8 % 8 = 0 → isBacked (numAt b 24 8) = true →
      ∃ t, exec .logArea s = .next t ∧ t.mailbox.status = 0 ∧ (towerOf t (numAt b 0 1)).logArea = some (numAt b 8 8, numAt b 16 8, numAt b 24 8)) ∧
    (Asked s 0x60 8 b → 1 ≤ numAt b 0 1 → numAt b 0 1 ≤ 11 → 1 ≤ numAt b 1 1 → numAt b 2 6 = 0 →
      ∃ t, exec .threshSet s = .next t ∧ t.mailbox.status = 0 ∧ threshOf t (numAt b 0 1) = numAt b 1 1 ∧ (∀ c, c ≠ numAt b 0 1 → threshOf t c = threshOf s c)) ∧
    (Asked s 0x61 24 b → 1 ≤ numAt b 8 2 → numAt b 8 2 ≤ 128 → numAt b 10 6 = 0 → destBad (numAt b 16 8) = false →
      let recs := (s.events.filter (fun e => numAt b 0 8 ≤ numAt e 0 8)).take (numAt b 8 2)
      recs ≠ [] → ∀ s1, homeStore { s with draw := s.draw + 1 } (numAt b 16 8) (signed512 (recs.flatten ++ (bytesOf 2 1 ++ bytesOf 2 recs.length ++ bytesOf 4 0 ++
        bytesOf 8 Config.devId.toNat ++ slice (recs.headD []) 0 8 ++ bytesOf 8 (timeOf s) ++ bytesOf 32 0))) = some s1 → exec .evlogRead s = .next (endMailbox s1 0))

/-- R398, R399, R401, R402, R436 to R440: A good flit in order is delivered and acknowledged; idle, NAK and SLOTLOST flits have their effects; a NAK
and a SLOTLOST are repeated after 256 ticks; an entry that is lost is announced, and its replacement is sent; a retrain begins when it is due or asked
for, and a good one ends with nothing lost. A queue starts the next descriptor that its doorbell allows, and sends the next transaction of one that is
under way; the first descriptor of a queue finishes once everything is answered, and a failed one halts the queue. -/
def Obligations.LinkEvents : Prop :=
  ((∀ s link flit s1 s2, link ≤ 15 → (linkOf s link).up = true → flitGood flit = true → numAt flit 0 1 = 0 → (splitSlots 15 (slice flit 8 240)).isSome = true →
    numAt flit 1 1 = (linkOf s link).rxSeq → deliverFlit (takeHead s link flit) link flit = some s1 → deliverHeld 129 s1 link = some s2 →
    exec (.linkoSlottedFlit link flit) s = .next { respond s2 link with draw := s.draw + 1 } ∧ (linkOf s1 link).rxSeq = ((linkOf s link).rxSeq + 1) % 256) ∧
  (∀ s link flit, link ≤ 15 → (linkOf s link).up = true → flitGood flit = true → numAt flit 0 1 = 1 →
    (numAt flit 8 1 = 0 → exec (.linkoIdle link flit) s = .next (respond (takeHead s link flit) link)) ∧
    (numAt flit 8 1 = 1 → exec (.nak link flit) s = .next (respond (sahong (resendFrom (takeHead s link flit) link (numAt flit 9 1)) 5 10 255 link 0) link)) ∧
    (numAt flit 8 1 = 2 → (numAt flit 9 1 + 256 - (linkOf s link).rxSeq) % 256 < 128 →
      ∃ t, exec (.slotlost link flit) s = .next t ∧ (linkOf t link).slotlostRx = some (numAt flit 9 1)) ∧
    (numAt flit 8 1 = 3 → ∃ t, exec (.retrain link flit) s = .next t ∧ (linkOf t link).retrain = some (timeOf s))) ∧
  (∀ s link, link ≤ 15 → retrainDue (linkOf s link) (timeOf s) = true → ∃ t, exec (.retrain link []) s = .next t ∧ (linkOf t link).retrain = some (timeOf s)) ∧
  (∀ (s : State) link k q first last, (link, k) ∈ s.links → k.up = true → k.nak = some (q, first, last) → last + 256 ≤ timeOf s →
    ∃ other n, exec .nakRepeat s = .next (sendControl (modLink s other (fun k => { k with nak := k.nak.map (fun e => (e.1, e.2.1, timeOf s)) })) other 1 n)) ∧
  (∀ (s : State) link k w, (link, k) ∈ s.links → k.up = true → w ∈ k.window → w.firstSlotlost.isSome = true → w.lastSlotlost + 256 ≤ timeOf s →
    ∃ other n, exec .slotlostRepeat s = .next (sendControl (modLink s other (fun k => { k with window := k.window.map (fun w =>
      if w.seq = n then { w with lastSlotlost := timeOf s } else w) })) other 2 n)) ∧
  (∀ s link seq w, w ∈ (linkOf s link).window → w.seq = seq → w.lost = false →
    ∃ t, exec (.lostEntryDetect link seq) s = .next t ∧ t.mem = s.mem ∧ ∀ e ∈ (linkOf t link).window, e.seq = seq → e.lost = true) ∧
  (∀ s link seq w, firstWith (fun e => e.seq == seq && e.lost) (linkOf s link).window = some w → (linkOf s link).up = true →
    ∃ t, exec (.linkoReplacementSend link seq) s = .next t ∧ (linkOf t link).sent.length = (linkOf s link).sent.length + 1 ∧
      ∀ e ∈ (linkOf t link).window, e.seq = seq → e.lost = false) ∧
  (∀ s link, (linkOf s link).retrain.isSome = true →
    (∃ t, exec (.retrainComplete link true) s = .next t ∧ (linkOf t link).retrain = none ∧ (linkOf t link).retrains = 0 ∧ ∀ e ∈ (linkOf t link).window, e.lost = false) ∧
    ((linkOf s link).retrains < 2 → ∃ t, exec (.retrainComplete link false) s = .next t ∧ (linkOf t link).retrains = (linkOf s link).retrains + 1) ∧
    (2 ≤ (linkOf s link).retrains → ∃ t, exec (.retrainComplete link false) s = .next t ∧ (linkOf t link).down = true ∧ (linkOf t link).txns = []))) ∧
  (∀ s link q, link ≤ 15 → q ≤ 7 →
    (∀ i op, (i = .linkoOpWrite link q ∧ op = 1) ∨ (i = .linkoOpRead link q ∧ op = 2) ∨ (i = .linkoOpCounterAdd link q ∧ op = 3) →
      (∀ s1 d, (∀ e ∈ (queueOf s link q).active, e.issued = true) → nextDesc s link q = some (s1, d) → d.op = op →
        exec i s = .next (startDesc s1 link q d)) ∧
      (∀ d s1, firstWith (fun d => !d.issued) (queueOf s link q).active = some d → d.op = op → issueDesc s link q d = some s1 → exec i s = .next s1)) ∧
    (∀ d rest, (queueOf s link q).active = d :: rest → d.finished = true →
      ∃ t, exec (.linkoDescriptorComplete link q) s = .next t ∧ (queueOf t link q).active = rest ∧
        (queueOf t link q).halted = ((queueOf s link q).halted || d.status != 0)))

/-- R423 to R428, R430 to R432, R452: An array read meets no error, one that counts, or one that poisons what it struck; a unit whose count reaches
THRESH is lasting, and its spare takes its place; a workgroup whose control state is struck is lost and stops, and is discarded when nothing of it is
under way; the ringmaster's state is rebuilt; the log of a tower closes its interval, and a batch that waits is written when the ring has room. -/
def Obligations.ErrorEvents : Prop :=  ∀ s : State,
    (∀ u address, unitOk u = true →
      exec (.patrolRead u address .none) s = .next s ∧
      (u.code ≠ 8 → exec (.patrolRead u address .corrected) s = .next (countCorrection s u)) ∧
      (u.code = 1 → ∃ t, exec (.patrolRead u address .uncorrectable) s = .next t ∧ granuleOf address ∈ t.poison ∧ t.mem = s.mem) ∧
      (u.code = 9 ∨ u.code = 11 → exec (.patrolRead u address .uncorrectable) s = .next (countCorrection s u))) ∧
    (∀ r ∈ s.repairs, r.lasting = false → threshOf s r.unit.code ≤ r.times.length →
      ∃ t q v, exec .lastingUnit s = .next t ∧ q ∈ s.repairs ∧ q.lasting = false ∧ v ∈ t.repairs ∧ v.unit = q.unit ∧ v.lasting = true ∧
        (Table.get s.spares (bankKey q.unit) 0 < spareRows q.unit.code → v.sparing.isSome = true) ∧ (q.unit.code ≠ 3 → q.unit.code ≠ 4 → t.mem = s.mem)) ∧
    (∀ r ∈ s.repairs, ∀ till, r.sparing = some till → till ≤ timeOf s →
      ∃ q ∈ s.repairs, exec .spareCopyComplete s = .next (putRepair s { q with times := [], sparing := none, lasting := false })) ∧
    (∀ wg w k, wgFind s wg = some w → w.stopped = false → k = 5 ∨ k = 7 →
      ∃ t v, exec (.workgroupLost wg k) s = .next t ∧ wgFind t wg = some v ∧ v.lost = some k ∧ v.stopped = true ∧ t.mem = s.mem) ∧
    (∀ before w after k, s.wgs = before ++ w :: after → (∀ v ∈ before, v.lost = none) → w.lost = some k → wgDrained s w = true → s.copies = [] →
      ∃ t, exec .lostWorkgroupDispose s = .next t ∧ wgFind t w.id = none) ∧
    (s.booted = true → s.inReset = false → ∃ t, exec .ringmasterStateRebuild s = .next t ∧ t.reserves = [] ∧ t.draw = s.draw + 1 ∧
      ∀ r ∈ t.regions, r.command = none ∧ r.vpass = 0 ∧ r.cand = false) ∧
    (∀ k, k < 4 → s.booted = true → s.inReset = false → (towerOf s k).logInterval < timeOf s / 2 ^ 20 →
      ∃ n, n < 4 ∧ (towerOf s n).logInterval < timeOf s / 2 ^ 20 ∧ exec .admissionsBatch s = .next (closeInterval s n)) ∧
    (∀ k b rest s1, k < 4 → (∀ n, n < k → (towerOf s n).logWaiting = []) → (towerOf s k).logWaiting = b :: rest → writeBatch s k b = some s1 →
      ∃ t, exec .logBatchFlush s = .next t ∧ (towerOf t k).logWaiting = rest ∧ t.mem = s1.mem)

/-- R2, R3, R247, R370, R412, R414, R418 to R420, R454, R457, R458: The reference is lost and returns with its flags; an alarm counts, and its stretch and
halved window end; a column that is too hot issues in every second cycle until it has cooled, and at 120.0 degrees the package holds in reset with
every workgroup lost; a canopy refreshes; a reset ends the contents of HBM, every workgroup, region and key, and begins time at zero, while the bytes
of host memory stay; the debugger attaches, detaches, and reads and writes the shadow bank. -/
def Obligations.PackageEvents : Prop :=  ∀ s : State,
    (s.timeFree = false → ∃ t, exec .referenceLost s = .next t ∧ t.timeFree = true ∧ t.timeLoss = true ∧ t.timeRet = s.timeRet ∧ t.mem = s.mem ∧ t.wgs = s.wgs) ∧
    (s.timeFree = true → ∃ t, exec .referenceReturn s = .next t ∧ t.timeFree = false ∧ t.timeRet = true ∧ t.timeLoss = s.timeLoss ∧ t.mem = s.mem ∧ t.wgs = s.wgs) ∧
    (∀ c uv, c < 192 → ∃ t, exec (.droopAlarm c uv) s = .next t ∧ t.mem = s.mem ∧ t.wgs = s.wgs ∧
      ((columnOf s c).drEn = true → uv < 300000 + 4000 * (columnOf s c).drTh.toNat → (columnOf s c).phase ≠ .stretched → (columnOf s c).alarm = false →
        (columnOf t c).alarm = true ∧ (columnOf t c).drAlarms = min 0x7FFF ((columnOf s c).drAlarms + 1)) ∧
      ((columnOf s c).drEn = false ∨ 300000 + 4000 * (columnOf s c).drTh.toNat ≤ uv ∨ (columnOf s c).phase = .stretched → t = s)) ∧
    (∀ c, c < 192 → (columnOf s c).phase = .stretched → (columnOf s c).left = 0 → ∃ d, d < 192 ∧ (columnOf s d).phase = .stretched ∧ (columnOf s d).left = 0 ∧
      exec .stretchEnd s = .next (modColumn s d (fun k => { k with phase := .halved, left := 64 }))) ∧
    (∀ c, c < 192 → (columnOf s c).phase = .halved → (columnOf s c).left = 0 → ∃ d, d < 192 ∧ (columnOf s d).phase = .halved ∧ (columnOf s d).left = 0 ∧
      exec .halvedWindowEnd s = .next (modColumn s d (fun k => { k with phase := .usual }))) ∧
    (∀ n k since, (n, k) ∈ s.cores → k.overSince = some since → since + 1000 ≤ timeOf s → (columnOf s (n / 4)).overheat = false →
      ∃ t m, exec .overheatHalving s = .next t ∧ (columnOf s m).overheat = false ∧ (columnOf t m).overheat = true ∧ t.wgs = s.wgs ∧ t.mem = s.mem) ∧
    (∀ c k, (c, k) ∈ s.columns → k.overheat = true → (∀ n ∈ coresOf c, (coreOf s n).reading < 400) →
      ∃ d, (∀ n ∈ coresOf d, (coreOf s n).reading < 400) ∧ exec .overheatHalvingEnd s = .next (modColumn s d (fun k => { k with overheat := false }))) ∧
    (∀ n k, (n, k) ∈ s.cores → 480 ≤ k.reading → s.inReset = false →
      ∃ t, exec .overtempTrip s = .next t ∧ t.inReset = true ∧ t.issue = none ∧ (∀ w ∈ t.wgs, w.stopped = true ∧ w.lost.isSome = true) ∧ t.mem = s.mem) ∧
    (∀ k, k < 4 → (towerOf s k).refreshed + refreshPeriod s k ≤ timeOf s → ∃ n, n < 4 ∧ exec .canopyRefresh s = .next (modTower s n (fun q => { q with refreshed := timeOf s }))) ∧
    (∃ t, exec .deviceReset s = .next t ∧ t.booted = true ∧ t.mem = s.mem.filter (fun c => !isHbm c.1) ∧ t.now = 0 ∧ t.wgs = [] ∧ t.regions = [] ∧ t.keys = [] ∧ t.past = [] ∧ t.images = [] ∧ (t.inReset = !Config.firmwareVerifies) ∧
      ∀ n, columnOf t n = .reset ∧ coreOf t n = .reset ∧ towerOf t n = .reset) ∧
    (∃ t, exec (.debuggerAccess .attach) s = .next t ∧ t.debugger = true ∧ t.mem = s.mem ∧ t.wgs = s.wgs) ∧
    (s.debugger = true → ∀ core k v, core < 768 → k < 16 →
      ∃ t, exec (.debuggerAccess (.writeShadowScalar core k v)) s = .next t ∧ Table.find (coreOf t core).ksregs k = some v ∧ t.wgs = s.wgs ∧ t.mem = s.mem) ∧
    (s.debugger = false → ∀ r, r ≠ .attach → exec (.debuggerAccess r) s = .next s)
end

