-- ==== Sys2Proof/Laws/Encode.lean ====
section
/-! SUPPORT. The fields of a word that is put together from them: each format reads back what it wrote, and the opcode is its top nine bits. -/

namespace Sys2Proof

/-! ## Fields of a concatenation -/

theorem extract_low {v w : Nat} (x : BitVec v) (y : BitVec w) : (x ++ y).extractLsb' 0 w = y := by
  rw [BitVec.extractLsb'_append_eq_of_add_le (by omega), BitVec.extractLsb'_eq_self]

theorem extract_high {v w : Nat} (x : BitVec v) (y : BitVec w) (k n : Nat) (h : w ≤ k) : (x ++ y).extractLsb' k n = x.extractLsb' (k - w) n :=
  BitVec.extractLsb'_append_eq_of_le h

theorem bit_high {v w : Nat} (x : BitVec v) (y : BitVec w) (k : Nat) (h : w ≤ k) : (x ++ y).getLsbD k = x.getLsbD (k - w) := by
  rw [BitVec.getLsbD_append, if_neg (by omega)]

theorem bit_low {v : Nat} (x : BitVec v) (b : Bool) : (x ++ BitVec.ofBool b).getLsbD 0 = b := by
  rw [BitVec.getLsbD_append]; simp

/-! ## Codes -/

@[simp] theorem Route.ofBits_toBits (r : Route) : Route.ofBits r.toBits = some r := by
  cases r with
  | identity => decide
  | rot32 n => revert n; decide
  | rot96 n => revert n; decide
  | beatShift two => revert two; decide
  | bcast32 n => revert n; decide
  | bcast96 n => revert n; decide
  | butterfly n => revert n; decide
  | indexed m x => revert x; cases m <;> decide

@[simp] theorem Hold.ofBits_toBits (h : Hold) : Hold.ofBits h.toBits = h := by cases h <;> decide
@[simp] theorem Width.ofBits_toBits (w : Width) : Width.ofBits w.toBits = some w := by cases w <;> decide
@[simp] theorem MemOrd.ofBits_toBits (m : MemOrd) : MemOrd.ofBits m.toBits = some m := by
  cases m with
  | plain => decide
  | strong sc acq => revert acq; cases sc <;> decide

/-! ## Formats -/

/-! ### Format V3 -/

@[simp] theorem V3.opcodeOf_toWord (op : BitVec 9) (f : V3) : opcodeOf (f.toWord op) = op := by
  unfold opcodeOf V3.toWord
  rw [extract_high _ _ _ _ (by decide), extract_high _ _ _ _ (by decide), extract_high _ _ _ _ (by decide), extract_high _ _ _ _ (by decide), extract_high _ _ _ _ (by decide), extract_high _ _ _ _ (by decide), extract_high _ _ _ _ (by decide), extract_high _ _ _ _ (by decide), extract_high _ _ _ _ (by decide)]
  exact BitVec.extractLsb'_eq_self

theorem V3.toWord_mark (op : BitVec 9) (f : V3) : (f.toWord op)[54] = f.mark := by
  rw [← BitVec.getLsbD_eq_getElem]
  unfold V3.toWord
  rw [bit_high _ _ _ (by decide), bit_high _ _ _ (by decide), bit_high _ _ _ (by decide), bit_high _ _ _ (by decide), bit_high _ _ _ (by decide), bit_high _ _ _ (by decide), bit_high _ _ _ (by decide), bit_high _ _ _ (by decide)]
  exact bit_low _ _

theorem V3.toWord_hold (op : BitVec 9) (f : V3) : (f.toWord op).extractLsb' 52 2 = f.hold.toBits := by
  unfold V3.toWord
  rw [extract_high _ _ _ _ (by decide), extract_high _ _ _ _ (by decide), extract_high _ _ _ _ (by decide), extract_high _ _ _ _ (by decide), extract_high _ _ _ _ (by decide), extract_high _ _ _ _ (by decide), extract_high _ _ _ _ (by decide)]
  exact extract_low _ _

theorem V3.toWord_d (op : BitVec 9) (f : V3) : (f.toWord op).extractLsb' 45 7 = f.d := by
  unfold V3.toWord
  rw [extract_high _ _ _ _ (by decide), extract_high _ _ _ _ (by decide), extract_high _ _ _ _ (by decide), extract_high _ _ _ _ (by decide), extract_high _ _ _ _ (by decide), extract_high _ _ _ _ (by decide)]
  exact extract_low _ _

theorem V3.toWord_a (op : BitVec 9) (f : V3) : (f.toWord op).extractLsb' 38 7 = f.a := by
  unfold V3.toWord
  rw [extract_high _ _ _ _ (by decide), extract_high _ _ _ _ (by decide), extract_high _ _ _ _ (by decide), extract_high _ _ _ _ (by decide), extract_high _ _ _ _ (by decide)]
  exact extract_low _ _

theorem V3.toWord_b (op : BitVec 9) (f : V3) : (f.toWord op).extractLsb' 31 7 = f.b := by
  unfold V3.toWord
  rw [extract_high _ _ _ _ (by decide), extract_high _ _ _ _ (by decide), extract_high _ _ _ _ (by decide), extract_high _ _ _ _ (by decide)]
  exact extract_low _ _

theorem V3.toWord_c (op : BitVec 9) (f : V3) : (f.toWord op).extractLsb' 24 7 = f.c := by
  unfold V3.toWord
  rw [extract_high _ _ _ _ (by decide), extract_high _ _ _ _ (by decide), extract_high _ _ _ _ (by decide)]
  exact extract_low _ _

theorem V3.toWord_ra (op : BitVec 9) (f : V3) : (f.toWord op).extractLsb' 16 8 = f.ra.toBits := by
  unfold V3.toWord
  rw [extract_high _ _ _ _ (by decide), extract_high _ _ _ _ (by decide)]
  exact extract_low _ _

theorem V3.toWord_rb (op : BitVec 9) (f : V3) : (f.toWord op).extractLsb' 8 8 = f.rb.toBits := by
  unfold V3.toWord
  rw [extract_high _ _ _ _ (by decide)]
  exact extract_low _ _

theorem V3.toWord_rc (op : BitVec 9) (f : V3) : (f.toWord op).extractLsb' 0 8 = f.rc.toBits := by
  unfold V3.toWord
  exact extract_low _ _

/-- The fields of a V3 word read back. -/
@[simp] theorem V3.ofWord_toWord (op : BitVec 9) (f : V3) : V3.ofWord (f.toWord op) = some f := by
  simp [V3.ofWord, V3.toWord_mark, V3.toWord_hold, V3.toWord_d, V3.toWord_a, V3.toWord_b, V3.toWord_c, V3.toWord_ra, V3.toWord_rb, V3.toWord_rc]

/-! ### Format V2I -/

@[simp] theorem V2I.opcodeOf_toWord (op : BitVec 9) (f : V2I) : opcodeOf (f.toWord op) = op := by
  unfold opcodeOf V2I.toWord
  rw [extract_high _ _ _ _ (by decide), extract_high _ _ _ _ (by decide), extract_high _ _ _ _ (by decide), extract_high _ _ _ _ (by decide), extract_high _ _ _ _ (by decide), extract_high _ _ _ _ (by decide), extract_high _ _ _ _ (by decide), extract_high _ _ _ _ (by decide)]
  exact BitVec.extractLsb'_eq_self

theorem V2I.toWord_mark (op : BitVec 9) (f : V2I) : (f.toWord op)[54] = f.mark := by
  rw [← BitVec.getLsbD_eq_getElem]
  unfold V2I.toWord
  rw [bit_high _ _ _ (by decide), bit_high _ _ _ (by decide), bit_high _ _ _ (by decide), bit_high _ _ _ (by decide), bit_high _ _ _ (by decide), bit_high _ _ _ (by decide), bit_high _ _ _ (by decide)]
  exact bit_low _ _

theorem V2I.toWord_hold (op : BitVec 9) (f : V2I) : (f.toWord op).extractLsb' 52 2 = f.hold.toBits := by
  unfold V2I.toWord
  rw [extract_high _ _ _ _ (by decide), extract_high _ _ _ _ (by decide), extract_high _ _ _ _ (by decide), extract_high _ _ _ _ (by decide), extract_high _ _ _ _ (by decide), extract_high _ _ _ _ (by decide)]
  exact extract_low _ _

theorem V2I.toWord_d (op : BitVec 9) (f : V2I) : (f.toWord op).extractLsb' 45 7 = f.d := by
  unfold V2I.toWord
  rw [extract_high _ _ _ _ (by decide), extract_high _ _ _ _ (by decide), extract_high _ _ _ _ (by decide), extract_high _ _ _ _ (by decide), extract_high _ _ _ _ (by decide)]
  exact extract_low _ _

theorem V2I.toWord_a (op : BitVec 9) (f : V2I) : (f.toWord op).extractLsb' 38 7 = f.a := by
  unfold V2I.toWord
  rw [extract_high _ _ _ _ (by decide), extract_high _ _ _ _ (by decide), extract_high _ _ _ _ (by decide), extract_high _ _ _ _ (by decide)]
  exact extract_low _ _

theorem V2I.toWord_b (op : BitVec 9) (f : V2I) : (f.toWord op).extractLsb' 31 7 = f.b := by
  unfold V2I.toWord
  rw [extract_high _ _ _ _ (by decide), extract_high _ _ _ _ (by decide), extract_high _ _ _ _ (by decide)]
  exact extract_low _ _

theorem V2I.toWord_ra (op : BitVec 9) (f : V2I) : (f.toWord op).extractLsb' 23 8 = f.ra.toBits := by
  unfold V2I.toWord
  rw [extract_high _ _ _ _ (by decide), extract_high _ _ _ _ (by decide)]
  exact extract_low _ _

theorem V2I.toWord_rb (op : BitVec 9) (f : V2I) : (f.toWord op).extractLsb' 15 8 = f.rb.toBits := by
  unfold V2I.toWord
  rw [extract_high _ _ _ _ (by decide)]
  exact extract_low _ _

theorem V2I.toWord_imm (op : BitVec 9) (f : V2I) : (f.toWord op).extractLsb' 0 15 = f.imm := by
  unfold V2I.toWord
  exact extract_low _ _

/-- The fields of a V2I word read back. -/
@[simp] theorem V2I.ofWord_toWord (op : BitVec 9) (f : V2I) : V2I.ofWord (f.toWord op) = some f := by
  simp [V2I.ofWord, V2I.toWord_mark, V2I.toWord_hold, V2I.toWord_d, V2I.toWord_a, V2I.toWord_b, V2I.toWord_ra, V2I.toWord_rb, V2I.toWord_imm]

/-! ### Format VI -/

@[simp] theorem VI.opcodeOf_toWord (op : BitVec 9) (f : VI) : opcodeOf (f.toWord op) = op := by
  unfold opcodeOf VI.toWord
  rw [extract_high _ _ _ _ (by decide), extract_high _ _ _ _ (by decide), extract_high _ _ _ _ (by decide), extract_high _ _ _ _ (by decide), extract_high _ _ _ _ (by decide)]
  exact BitVec.extractLsb'_eq_self

theorem VI.toWord_mark (op : BitVec 9) (f : VI) : (f.toWord op)[54] = f.mark := by
  rw [← BitVec.getLsbD_eq_getElem]
  unfold VI.toWord
  rw [bit_high _ _ _ (by decide), bit_high _ _ _ (by decide), bit_high _ _ _ (by decide), bit_high _ _ _ (by decide)]
  exact bit_low _ _

theorem VI.toWord_d (op : BitVec 9) (f : VI) : (f.toWord op).extractLsb' 47 7 = f.d := by
  unfold VI.toWord
  rw [extract_high _ _ _ _ (by decide), extract_high _ _ _ _ (by decide), extract_high _ _ _ _ (by decide)]
  exact extract_low _ _

theorem VI.toWord_a (op : BitVec 9) (f : VI) : (f.toWord op).extractLsb' 40 7 = f.a := by
  unfold VI.toWord
  rw [extract_high _ _ _ _ (by decide), extract_high _ _ _ _ (by decide)]
  exact extract_low _ _

theorem VI.toWord_ra (op : BitVec 9) (f : VI) : (f.toWord op).extractLsb' 32 8 = f.ra.toBits := by
  unfold VI.toWord
  rw [extract_high _ _ _ _ (by decide)]
  exact extract_low _ _

theorem VI.toWord_imm (op : BitVec 9) (f : VI) : (f.toWord op).extractLsb' 0 32 = f.imm := by
  unfold VI.toWord
  exact extract_low _ _

/-- The fields of a VI word read back. -/
@[simp] theorem VI.ofWord_toWord (op : BitVec 9) (f : VI) : VI.ofWord (f.toWord op) = some f := by
  simp [VI.ofWord, VI.toWord_mark, VI.toWord_d, VI.toWord_a, VI.toWord_ra, VI.toWord_imm]

/-! ### Format SF -/

@[simp] theorem SF.opcodeOf_toWord (op : BitVec 9) (f : SF) : opcodeOf (f.toWord op) = op := by
  unfold opcodeOf SF.toWord
  rw [extract_high _ _ _ _ (by decide), extract_high _ _ _ _ (by decide), extract_high _ _ _ _ (by decide), extract_high _ _ _ _ (by decide), extract_high _ _ _ _ (by decide), extract_high _ _ _ _ (by decide), extract_high _ _ _ _ (by decide)]
  exact BitVec.extractLsb'_eq_self

theorem SF.toWord_mark (op : BitVec 9) (f : SF) : (f.toWord op)[54] = f.mark := by
  rw [← BitVec.getLsbD_eq_getElem]
  unfold SF.toWord
  rw [bit_high _ _ _ (by decide), bit_high _ _ _ (by decide), bit_high _ _ _ (by decide), bit_high _ _ _ (by decide), bit_high _ _ _ (by decide), bit_high _ _ _ (by decide)]
  exact bit_low _ _

theorem SF.toWord_sd (op : BitVec 9) (f : SF) : (f.toWord op).extractLsb' 48 6 = f.sd := by
  unfold SF.toWord
  rw [extract_high _ _ _ _ (by decide), extract_high _ _ _ _ (by decide), extract_high _ _ _ _ (by decide), extract_high _ _ _ _ (by decide), extract_high _ _ _ _ (by decide)]
  exact extract_low _ _

theorem SF.toWord_sa (op : BitVec 9) (f : SF) : (f.toWord op).extractLsb' 42 6 = f.sa := by
  unfold SF.toWord
  rw [extract_high _ _ _ _ (by decide), extract_high _ _ _ _ (by decide), extract_high _ _ _ _ (by decide), extract_high _ _ _ _ (by decide)]
  exact extract_low _ _

theorem SF.toWord_sb (op : BitVec 9) (f : SF) : (f.toWord op).extractLsb' 36 6 = f.sb := by
  unfold SF.toWord
  rw [extract_high _ _ _ _ (by decide), extract_high _ _ _ _ (by decide), extract_high _ _ _ _ (by decide)]
  exact extract_low _ _

theorem SF.toWord_pair (op : BitVec 9) (f : SF) : (f.toWord op)[35] = f.pair := by
  rw [← BitVec.getLsbD_eq_getElem]
  unfold SF.toWord
  rw [bit_high _ _ _ (by decide), bit_high _ _ _ (by decide)]
  exact bit_low _ _

theorem SF.toWord_fn (op : BitVec 9) (f : SF) : (f.toWord op).extractLsb' 32 3 = f.fn := by
  unfold SF.toWord
  rw [extract_high _ _ _ _ (by decide)]
  exact extract_low _ _

theorem SF.toWord_imm (op : BitVec 9) (f : SF) : (f.toWord op).extractLsb' 0 32 = f.imm := by
  unfold SF.toWord
  exact extract_low _ _

/-- The fields of a SF word read back. -/
@[simp] theorem SF.ofWord_toWord (op : BitVec 9) (f : SF) : SF.ofWord (f.toWord op) = f := by
  simp [SF.ofWord, SF.toWord_mark, SF.toWord_sd, SF.toWord_sa, SF.toWord_sb, SF.toWord_pair, SF.toWord_fn, SF.toWord_imm]

/-! ### Format BF -/

@[simp] theorem BF.opcodeOf_toWord (op : BitVec 9) (f : BF) : opcodeOf (f.toWord op) = op := by
  unfold opcodeOf BF.toWord
  rw [extract_high _ _ _ _ (by decide), extract_high _ _ _ _ (by decide), extract_high _ _ _ _ (by decide), extract_high _ _ _ _ (by decide), extract_high _ _ _ _ (by decide)]
  exact BitVec.extractLsb'_eq_self

theorem BF.toWord_mark (op : BitVec 9) (f : BF) : (f.toWord op)[54] = f.mark := by
  rw [← BitVec.getLsbD_eq_getElem]
  unfold BF.toWord
  rw [bit_high _ _ _ (by decide), bit_high _ _ _ (by decide), bit_high _ _ _ (by decide), bit_high _ _ _ (by decide)]
  exact bit_low _ _

theorem BF.toWord_sa (op : BitVec 9) (f : BF) : (f.toWord op).extractLsb' 48 6 = f.sa := by
  unfold BF.toWord
  rw [extract_high _ _ _ _ (by decide), extract_high _ _ _ _ (by decide), extract_high _ _ _ _ (by decide)]
  exact extract_low _ _

theorem BF.toWord_cond (op : BitVec 9) (f : BF) : (f.toWord op).extractLsb' 44 4 = f.cond := by
  unfold BF.toWord
  rw [extract_high _ _ _ _ (by decide), extract_high _ _ _ _ (by decide)]
  exact extract_low _ _

theorem BF.toWord_aux (op : BitVec 9) (f : BF) : (f.toWord op).extractLsb' 32 12 = f.aux := by
  unfold BF.toWord
  rw [extract_high _ _ _ _ (by decide)]
  exact extract_low _ _

theorem BF.toWord_offset (op : BitVec 9) (f : BF) : (f.toWord op).extractLsb' 0 32 = f.offset := by
  unfold BF.toWord
  exact extract_low _ _

/-- The fields of a BF word read back. -/
@[simp] theorem BF.ofWord_toWord (op : BitVec 9) (f : BF) : BF.ofWord (f.toWord op) = f := by
  simp [BF.ofWord, BF.toWord_mark, BF.toWord_sa, BF.toWord_cond, BF.toWord_aux, BF.toWord_offset]

/-! ### Format MF -/

@[simp] theorem MF.opcodeOf_toWord (op : BitVec 9) (f : MF) : opcodeOf (f.toWord op) = op := by
  unfold opcodeOf MF.toWord
  rw [extract_high _ _ _ _ (by decide), extract_high _ _ _ _ (by decide), extract_high _ _ _ _ (by decide), extract_high _ _ _ _ (by decide), extract_high _ _ _ _ (by decide), extract_high _ _ _ _ (by decide), extract_high _ _ _ _ (by decide), extract_high _ _ _ _ (by decide), extract_high _ _ _ _ (by decide)]
  exact BitVec.extractLsb'_eq_self

theorem MF.toWord_mark (op : BitVec 9) (f : MF) : (f.toWord op)[54] = f.mark := by
  rw [← BitVec.getLsbD_eq_getElem]
  unfold MF.toWord
  rw [bit_high _ _ _ (by decide), bit_high _ _ _ (by decide), bit_high _ _ _ (by decide), bit_high _ _ _ (by decide), bit_high _ _ _ (by decide), bit_high _ _ _ (by decide), bit_high _ _ _ (by decide), bit_high _ _ _ (by decide)]
  exact bit_low _ _

theorem MF.toWord_hold (op : BitVec 9) (f : MF) : (f.toWord op).extractLsb' 52 2 = f.hold.toBits := by
  unfold MF.toWord
  rw [extract_high _ _ _ _ (by decide), extract_high _ _ _ _ (by decide), extract_high _ _ _ _ (by decide), extract_high _ _ _ _ (by decide), extract_high _ _ _ _ (by decide), extract_high _ _ _ _ (by decide), extract_high _ _ _ _ (by decide)]
  exact extract_low _ _

theorem MF.toWord_data (op : BitVec 9) (f : MF) : (f.toWord op).extractLsb' 45 7 = f.data := by
  unfold MF.toWord
  rw [extract_high _ _ _ _ (by decide), extract_high _ _ _ _ (by decide), extract_high _ _ _ _ (by decide), extract_high _ _ _ _ (by decide), extract_high _ _ _ _ (by decide), extract_high _ _ _ _ (by decide)]
  exact extract_low _ _

theorem MF.toWord_addr (op : BitVec 9) (f : MF) : (f.toWord op).extractLsb' 38 7 = f.addr := by
  unfold MF.toWord
  rw [extract_high _ _ _ _ (by decide), extract_high _ _ _ _ (by decide), extract_high _ _ _ _ (by decide), extract_high _ _ _ _ (by decide), extract_high _ _ _ _ (by decide)]
  exact extract_low _ _

theorem MF.toWord_sbase (op : BitVec 9) (f : MF) : (f.toWord op).extractLsb' 32 6 = f.sbase := by
  unfold MF.toWord
  rw [extract_high _ _ _ _ (by decide), extract_high _ _ _ _ (by decide), extract_high _ _ _ _ (by decide), extract_high _ _ _ _ (by decide)]
  exact extract_low _ _

theorem MF.toWord_rt (op : BitVec 9) (f : MF) : (f.toWord op).extractLsb' 24 8 = f.rt.toBits := by
  unfold MF.toWord
  rw [extract_high _ _ _ _ (by decide), extract_high _ _ _ _ (by decide), extract_high _ _ _ _ (by decide)]
  exact extract_low _ _

theorem MF.toWord_width (op : BitVec 9) (f : MF) : (f.toWord op).extractLsb' 20 4 = f.width.toBits := by
  unfold MF.toWord
  rw [extract_high _ _ _ _ (by decide), extract_high _ _ _ _ (by decide)]
  exact extract_low _ _

theorem MF.toWord_ord (op : BitVec 9) (f : MF) : (f.toWord op).extractLsb' 16 4 = f.ord.toBits := by
  unfold MF.toWord
  rw [extract_high _ _ _ _ (by decide)]
  exact extract_low _ _

theorem MF.toWord_offset (op : BitVec 9) (f : MF) : (f.toWord op).extractLsb' 0 16 = f.offset := by
  unfold MF.toWord
  exact extract_low _ _

/-- The fields of a MF word read back. -/
@[simp] theorem MF.ofWord_toWord (op : BitVec 9) (f : MF) : MF.ofWord (f.toWord op) = some f := by
  simp [MF.ofWord, MF.toWord_mark, MF.toWord_hold, MF.toWord_data, MF.toWord_addr, MF.toWord_sbase, MF.toWord_rt, MF.toWord_width, MF.toWord_ord, MF.toWord_offset]

/-! ### Format EF -/

@[simp] theorem EF.opcodeOf_toWord (op : BitVec 9) (f : EF) : opcodeOf (f.toWord op) = op := by
  unfold opcodeOf EF.toWord
  rw [extract_high _ _ _ _ (by decide), extract_high _ _ _ _ (by decide), extract_high _ _ _ _ (by decide), extract_high _ _ _ _ (by decide), extract_high _ _ _ _ (by decide), extract_high _ _ _ _ (by decide)]
  exact BitVec.extractLsb'_eq_self

theorem EF.toWord_mark (op : BitVec 9) (f : EF) : (f.toWord op)[54] = f.mark := by
  rw [← BitVec.getLsbD_eq_getElem]
  unfold EF.toWord
  rw [bit_high _ _ _ (by decide), bit_high _ _ _ (by decide), bit_high _ _ _ (by decide), bit_high _ _ _ (by decide), bit_high _ _ _ (by decide)]
  exact bit_low _ _

theorem EF.toWord_sd (op : BitVec 9) (f : EF) : (f.toWord op).extractLsb' 48 6 = f.sd := by
  unfold EF.toWord
  rw [extract_high _ _ _ _ (by decide), extract_high _ _ _ _ (by decide), extract_high _ _ _ _ (by decide), extract_high _ _ _ _ (by decide)]
  exact extract_low _ _

theorem EF.toWord_sa (op : BitVec 9) (f : EF) : (f.toWord op).extractLsb' 42 6 = f.sa := by
  unfold EF.toWord
  rw [extract_high _ _ _ _ (by decide), extract_high _ _ _ _ (by decide), extract_high _ _ _ _ (by decide)]
  exact extract_low _ _

theorem EF.toWord_sb (op : BitVec 9) (f : EF) : (f.toWord op).extractLsb' 36 6 = f.sb := by
  unfold EF.toWord
  rw [extract_high _ _ _ _ (by decide), extract_high _ _ _ _ (by decide)]
  exact extract_low _ _

theorem EF.toWord_eop (op : BitVec 9) (f : EF) : (f.toWord op).extractLsb' 32 4 = f.eop := by
  unfold EF.toWord
  rw [extract_high _ _ _ _ (by decide)]
  exact extract_low _ _

theorem EF.toWord_flags (op : BitVec 9) (f : EF) : (f.toWord op).extractLsb' 0 32 = f.flags := by
  unfold EF.toWord
  exact extract_low _ _

/-- The fields of a EF word read back. -/
@[simp] theorem EF.ofWord_toWord (op : BitVec 9) (f : EF) : EF.ofWord (f.toWord op) = f := by
  simp [EF.ofWord, EF.toWord_mark, EF.toWord_sd, EF.toWord_sa, EF.toWord_sb, EF.toWord_eop, EF.toWord_flags]

/-! ### Format X -/

@[simp] theorem XF.opcodeOf_toWord (op : BitVec 9) (f : XF) : opcodeOf (f.toWord op) = op := by
  unfold opcodeOf XF.toWord
  rw [extract_high _ _ _ _ (by decide), extract_high _ _ _ _ (by decide), extract_high _ _ _ _ (by decide)]
  exact BitVec.extractLsb'_eq_self

theorem XF.toWord_low (op : BitVec 9) (f : XF) : (f.toWord op).extractLsb' 0 24 = 0 := by
  unfold XF.toWord
  exact extract_low _ _

theorem XF.toWord_fields (op : BitVec 9) (f : XF) : (f.toWord op).extractLsb' 24 30 = f.toFields := by
  unfold XF.toWord
  rw [extract_high _ _ _ _ (by decide)]
  exact extract_low _ _

theorem XF.toWord_mark (op : BitVec 9) (f : XF) : (f.toWord op)[54] = f.mark := by
  rw [← BitVec.getLsbD_eq_getElem]
  unfold XF.toWord
  rw [bit_high _ _ _ (by decide), bit_high _ _ _ (by decide)]
  exact bit_low _ _

theorem XF.toFields_u (f : XF) : f.toFields[29] = f.u := by
  rw [← BitVec.getLsbD_eq_getElem]
  unfold XF.toFields
  rw [bit_high _ _ _ (by decide), bit_high _ _ _ (by decide), bit_high _ _ _ (by decide), bit_high _ _ _ (by decide), bit_high _ _ _ (by decide), bit_high _ _ _ (by decide), bit_high _ _ _ (by decide), bit_high _ _ _ (by decide)]
  simp

theorem XF.toFields_na (f : XF) : f.toFields[28] = f.na := by
  rw [← BitVec.getLsbD_eq_getElem]
  unfold XF.toFields
  rw [bit_high _ _ _ (by decide), bit_high _ _ _ (by decide), bit_high _ _ _ (by decide), bit_high _ _ _ (by decide), bit_high _ _ _ (by decide), bit_high _ _ _ (by decide), bit_high _ _ _ (by decide)]
  exact bit_low _ _

theorem XF.toFields_z (f : XF) : f.toFields[27] = f.z := by
  rw [← BitVec.getLsbD_eq_getElem]
  unfold XF.toFields
  rw [bit_high _ _ _ (by decide), bit_high _ _ _ (by decide), bit_high _ _ _ (by decide), bit_high _ _ _ (by decide), bit_high _ _ _ (by decide), bit_high _ _ _ (by decide)]
  exact bit_low _ _

theorem XF.toFields_fa (f : XF) : f.toFields.extractLsb' 23 4 = f.fa := by
  unfold XF.toFields
  rw [extract_high _ _ _ _ (by decide), extract_high _ _ _ _ (by decide), extract_high _ _ _ _ (by decide), extract_high _ _ _ _ (by decide), extract_high _ _ _ _ (by decide)]
  exact extract_low _ _

theorem XF.toFields_fb (f : XF) : f.toFields.extractLsb' 19 4 = f.fb := by
  unfold XF.toFields
  rw [extract_high _ _ _ _ (by decide), extract_high _ _ _ _ (by decide), extract_high _ _ _ _ (by decide), extract_high _ _ _ _ (by decide)]
  exact extract_low _ _

theorem XF.toFields_acc (f : XF) : f.toFields.extractLsb' 16 3 = f.acc := by
  unfold XF.toFields
  rw [extract_high _ _ _ _ (by decide), extract_high _ _ _ _ (by decide), extract_high _ _ _ _ (by decide)]
  exact extract_low _ _

theorem XF.toFields_abase (f : XF) : f.toFields.extractLsb' 9 7 = f.abase := by
  unfold XF.toFields
  rw [extract_high _ _ _ _ (by decide), extract_high _ _ _ _ (by decide)]
  exact extract_low _ _

theorem XF.toFields_sbr (f : XF) : f.toFields.extractLsb' 3 6 = f.sbr := by
  unfold XF.toFields
  rw [extract_high _ _ _ _ (by decide)]
  exact extract_low _ _

theorem XF.toFields_nc (f : XF) : f.toFields.extractLsb' 0 3 = f.nc := by
  unfold XF.toFields
  exact extract_low _ _

/-- The fields of an X word read back. -/
@[simp] theorem XF.ofFields_toFields (m : Bool) (f : XF) : XF.ofFields m f.toFields = { f with mark := m } := by
  simp [XF.ofFields, XF.toFields_u, XF.toFields_na, XF.toFields_z, XF.toFields_fa, XF.toFields_fb, XF.toFields_acc, XF.toFields_abase, XF.toFields_sbr, XF.toFields_nc]

@[simp] theorem XF.ofWord_toWord (op : BitVec 9) (f : XF) : XF.ofWord (f.toWord op) = some f := by
  simp [XF.ofWord, XF.toWord_low, XF.toWord_fields, XF.toWord_mark]

end Sys2Proof
end

