-- ==== Sys2Proof/Laws/State.lean ====
section
/-! SUPPORT. One lemma for each field and each update of the state that leaves it, and for what an update puts. -/

namespace Sys2Proof.Machine

/-! ## `modRegion` -/

@[simp] theorem modRegion_regions (s : State) (id : Nat) (f : Region → Region) : (modRegion s id f).regions = s.regions.map (fun r => if r.id = id then f r else r) := rfl
@[simp] theorem modRegion_now (s : State) (id : Nat) (f : Region → Region) : (modRegion s id f).now = s.now := rfl
@[simp] theorem modRegion_turn (s : State) (id : Nat) (f : Region → Region) : (modRegion s id f).turn = s.turn := rfl
@[simp] theorem modRegion_draw (s : State) (id : Nat) (f : Region → Region) : (modRegion s id f).draw = s.draw := rfl
@[simp] theorem modRegion_nextId (s : State) (id : Nat) (f : Region → Region) : (modRegion s id f).nextId = s.nextId := rfl
@[simp] theorem modRegion_issue (s : State) (id : Nat) (f : Region → Region) : (modRegion s id f).issue = s.issue := rfl
@[simp] theorem modRegion_agenda (s : State) (id : Nat) (f : Region → Region) : (modRegion s id f).agenda = s.agenda := rfl
@[simp] theorem modRegion_inReset (s : State) (id : Nat) (f : Region → Region) : (modRegion s id f).inReset = s.inReset := rfl
@[simp] theorem modRegion_booted (s : State) (id : Nat) (f : Region → Region) : (modRegion s id f).booted = s.booted := rfl
@[simp] theorem modRegion_timeFree (s : State) (id : Nat) (f : Region → Region) : (modRegion s id f).timeFree = s.timeFree := rfl
@[simp] theorem modRegion_timeLoss (s : State) (id : Nat) (f : Region → Region) : (modRegion s id f).timeLoss = s.timeLoss := rfl
@[simp] theorem modRegion_timeRet (s : State) (id : Nat) (f : Region → Region) : (modRegion s id f).timeRet = s.timeRet := rfl
@[simp] theorem modRegion_lossAt (s : State) (id : Nat) (f : Region → Region) : (modRegion s id f).lossAt = s.lossAt := rfl
@[simp] theorem modRegion_returnAt (s : State) (id : Nat) (f : Region → Region) : (modRegion s id f).returnAt = s.returnAt := rfl
@[simp] theorem modRegion_bootFailed (s : State) (id : Nat) (f : Region → Region) : (modRegion s id f).bootFailed = s.bootFailed := rfl
@[simp] theorem modRegion_xlat (s : State) (id : Nat) (f : Region → Region) : (modRegion s id f).xlat = s.xlat := rfl
@[simp] theorem modRegion_mem (s : State) (id : Nat) (f : Region → Region) : (modRegion s id f).mem = s.mem := rfl
@[simp] theorem modRegion_lineKeys (s : State) (id : Nat) (f : Region → Region) : (modRegion s id f).lineKeys = s.lineKeys := rfl
@[simp] theorem modRegion_oddBytes (s : State) (id : Nat) (f : Region → Region) : (modRegion s id f).oddBytes = s.oddBytes := rfl
@[simp] theorem modRegion_poison (s : State) (id : Nat) (f : Region → Region) : (modRegion s id f).poison = s.poison := rfl
@[simp] theorem modRegion_towers (s : State) (id : Nat) (f : Region → Region) : (modRegion s id f).towers = s.towers := rfl
@[simp] theorem modRegion_columns (s : State) (id : Nat) (f : Region → Region) : (modRegion s id f).columns = s.columns := rfl
@[simp] theorem modRegion_cores (s : State) (id : Nat) (f : Region → Region) : (modRegion s id f).cores = s.cores := rfl
@[simp] theorem modRegion_chunks (s : State) (id : Nat) (f : Region → Region) : (modRegion s id f).chunks = s.chunks := rfl
@[simp] theorem modRegion_halvedAt (s : State) (id : Nat) (f : Region → Region) : (modRegion s id f).halvedAt = s.halvedAt := rfl
@[simp] theorem modRegion_wgs (s : State) (id : Nat) (f : Region → Region) : (modRegion s id f).wgs = s.wgs := rfl
@[simp] theorem modRegion_images (s : State) (id : Nat) (f : Region → Region) : (modRegion s id f).images = s.images := rfl
@[simp] theorem modRegion_reserves (s : State) (id : Nat) (f : Region → Region) : (modRegion s id f).reserves = s.reserves := rfl
@[simp] theorem modRegion_spaces (s : State) (id : Nat) (f : Region → Region) : (modRegion s id f).spaces = s.spaces := rfl
@[simp] theorem modRegion_flights (s : State) (id : Nat) (f : Region → Region) : (modRegion s id f).flights = s.flights := rfl
@[simp] theorem modRegion_past (s : State) (id : Nat) (f : Region → Region) : (modRegion s id f).past = s.past := rfl
@[simp] theorem modRegion_former (s : State) (id : Nat) (f : Region → Region) : (modRegion s id f).former = s.former := rfl
@[simp] theorem modRegion_copies (s : State) (id : Nat) (f : Region → Region) : (modRegion s id f).copies = s.copies := rfl
@[simp] theorem modRegion_commands (s : State) (id : Nat) (f : Region → Region) : (modRegion s id f).commands = s.commands := rfl
@[simp] theorem modRegion_lines (s : State) (id : Nat) (f : Region → Region) : (modRegion s id f).lines = s.lines := rfl
@[simp] theorem modRegion_dirs (s : State) (id : Nat) (f : Region → Region) : (modRegion s id f).dirs = s.dirs := rfl
@[simp] theorem modRegion_msgs (s : State) (id : Nat) (f : Region → Region) : (modRegion s id f).msgs = s.msgs := rfl
@[simp] theorem modRegion_playbill (s : State) (id : Nat) (f : Region → Region) : (modRegion s id f).playbill = s.playbill := rfl
@[simp] theorem modRegion_images7 (s : State) (id : Nat) (f : Region → Region) : (modRegion s id f).images7 = s.images7 := rfl
@[simp] theorem modRegion_conversions (s : State) (id : Nat) (f : Region → Region) : (modRegion s id f).conversions = s.conversions := rfl
@[simp] theorem modRegion_swaps (s : State) (id : Nat) (f : Region → Region) : (modRegion s id f).swaps = s.swaps := rfl
@[simp] theorem modRegion_links (s : State) (id : Nat) (f : Region → Region) : (modRegion s id f).links = s.links := rfl
@[simp] theorem modRegion_windows (s : State) (id : Nat) (f : Region → Region) : (modRegion s id f).windows = s.windows := rfl
@[simp] theorem modRegion_device (s : State) (id : Nat) (f : Region → Region) : (modRegion s id f).device = s.device := rfl
@[simp] theorem modRegion_hostBase (s : State) (id : Nat) (f : Region → Region) : (modRegion s id f).hostBase = s.hostBase := rfl
@[simp] theorem modRegion_hostKeys (s : State) (id : Nat) (f : Region → Region) : (modRegion s id f).hostKeys = s.hostKeys := rfl
@[simp] theorem modRegion_mailbox (s : State) (id : Nat) (f : Region → Region) : (modRegion s id f).mailbox = s.mailbox := rfl
@[simp] theorem modRegion_migq (s : State) (id : Nat) (f : Region → Region) : (modRegion s id f).migq = s.migq := rfl
@[simp] theorem modRegion_signals (s : State) (id : Nat) (f : Region → Region) : (modRegion s id f).signals = s.signals := rfl
@[simp] theorem modRegion_answers (s : State) (id : Nat) (f : Region → Region) : (modRegion s id f).answers = s.answers := rfl
@[simp] theorem modRegion_debugger (s : State) (id : Nat) (f : Region → Region) : (modRegion s id f).debugger = s.debugger := rfl
@[simp] theorem modRegion_keys (s : State) (id : Nat) (f : Region → Region) : (modRegion s id f).keys = s.keys := rfl
@[simp] theorem modRegion_formerKeys (s : State) (id : Nat) (f : Region → Region) : (modRegion s id f).formerKeys = s.formerKeys := rfl
@[simp] theorem modRegion_keks (s : State) (id : Nat) (f : Region → Region) : (modRegion s id f).keks = s.keks := rfl
@[simp] theorem modRegion_canopyKeys (s : State) (id : Nat) (f : Region → Region) : (modRegion s id f).canopyKeys = s.canopyKeys := rfl
@[simp] theorem modRegion_marks (s : State) (id : Nat) (f : Region → Region) : (modRegion s id f).marks = s.marks := rfl
@[simp] theorem modRegion_thresh (s : State) (id : Nat) (f : Region → Region) : (modRegion s id f).thresh = s.thresh := rfl
@[simp] theorem modRegion_repairs (s : State) (id : Nat) (f : Region → Region) : (modRegion s id f).repairs = s.repairs := rfl
@[simp] theorem modRegion_spares (s : State) (id : Nat) (f : Region → Region) : (modRegion s id f).spares = s.spares := rfl
@[simp] theorem modRegion_disabledWays (s : State) (id : Nat) (f : Region → Region) : (modRegion s id f).disabledWays = s.disabledWays := rfl
@[simp] theorem modRegion_events (s : State) (id : Nat) (f : Region → Region) : (modRegion s id f).events = s.events := rfl
@[simp] theorem modRegion_eventIndex (s : State) (id : Nat) (f : Region → Region) : (modRegion s id f).eventIndex = s.eventIndex := rfl

/-! ## `modWg` -/

@[simp] theorem modWg_wgs (s : State) (id : Nat) (f : Workgroup → Workgroup) : (modWg s id f).wgs = s.wgs.map (fun w => if w.id = id then f w else w) := rfl
@[simp] theorem modWg_now (s : State) (id : Nat) (f : Workgroup → Workgroup) : (modWg s id f).now = s.now := rfl
@[simp] theorem modWg_turn (s : State) (id : Nat) (f : Workgroup → Workgroup) : (modWg s id f).turn = s.turn := rfl
@[simp] theorem modWg_draw (s : State) (id : Nat) (f : Workgroup → Workgroup) : (modWg s id f).draw = s.draw := rfl
@[simp] theorem modWg_nextId (s : State) (id : Nat) (f : Workgroup → Workgroup) : (modWg s id f).nextId = s.nextId := rfl
@[simp] theorem modWg_issue (s : State) (id : Nat) (f : Workgroup → Workgroup) : (modWg s id f).issue = s.issue := rfl
@[simp] theorem modWg_agenda (s : State) (id : Nat) (f : Workgroup → Workgroup) : (modWg s id f).agenda = s.agenda := rfl
@[simp] theorem modWg_inReset (s : State) (id : Nat) (f : Workgroup → Workgroup) : (modWg s id f).inReset = s.inReset := rfl
@[simp] theorem modWg_booted (s : State) (id : Nat) (f : Workgroup → Workgroup) : (modWg s id f).booted = s.booted := rfl
@[simp] theorem modWg_timeFree (s : State) (id : Nat) (f : Workgroup → Workgroup) : (modWg s id f).timeFree = s.timeFree := rfl
@[simp] theorem modWg_timeLoss (s : State) (id : Nat) (f : Workgroup → Workgroup) : (modWg s id f).timeLoss = s.timeLoss := rfl
@[simp] theorem modWg_timeRet (s : State) (id : Nat) (f : Workgroup → Workgroup) : (modWg s id f).timeRet = s.timeRet := rfl
@[simp] theorem modWg_lossAt (s : State) (id : Nat) (f : Workgroup → Workgroup) : (modWg s id f).lossAt = s.lossAt := rfl
@[simp] theorem modWg_returnAt (s : State) (id : Nat) (f : Workgroup → Workgroup) : (modWg s id f).returnAt = s.returnAt := rfl
@[simp] theorem modWg_bootFailed (s : State) (id : Nat) (f : Workgroup → Workgroup) : (modWg s id f).bootFailed = s.bootFailed := rfl
@[simp] theorem modWg_xlat (s : State) (id : Nat) (f : Workgroup → Workgroup) : (modWg s id f).xlat = s.xlat := rfl
@[simp] theorem modWg_mem (s : State) (id : Nat) (f : Workgroup → Workgroup) : (modWg s id f).mem = s.mem := rfl
@[simp] theorem modWg_lineKeys (s : State) (id : Nat) (f : Workgroup → Workgroup) : (modWg s id f).lineKeys = s.lineKeys := rfl
@[simp] theorem modWg_oddBytes (s : State) (id : Nat) (f : Workgroup → Workgroup) : (modWg s id f).oddBytes = s.oddBytes := rfl
@[simp] theorem modWg_poison (s : State) (id : Nat) (f : Workgroup → Workgroup) : (modWg s id f).poison = s.poison := rfl
@[simp] theorem modWg_towers (s : State) (id : Nat) (f : Workgroup → Workgroup) : (modWg s id f).towers = s.towers := rfl
@[simp] theorem modWg_columns (s : State) (id : Nat) (f : Workgroup → Workgroup) : (modWg s id f).columns = s.columns := rfl
@[simp] theorem modWg_cores (s : State) (id : Nat) (f : Workgroup → Workgroup) : (modWg s id f).cores = s.cores := rfl
@[simp] theorem modWg_chunks (s : State) (id : Nat) (f : Workgroup → Workgroup) : (modWg s id f).chunks = s.chunks := rfl
@[simp] theorem modWg_halvedAt (s : State) (id : Nat) (f : Workgroup → Workgroup) : (modWg s id f).halvedAt = s.halvedAt := rfl
@[simp] theorem modWg_images (s : State) (id : Nat) (f : Workgroup → Workgroup) : (modWg s id f).images = s.images := rfl
@[simp] theorem modWg_reserves (s : State) (id : Nat) (f : Workgroup → Workgroup) : (modWg s id f).reserves = s.reserves := rfl
@[simp] theorem modWg_spaces (s : State) (id : Nat) (f : Workgroup → Workgroup) : (modWg s id f).spaces = s.spaces := rfl
@[simp] theorem modWg_regions (s : State) (id : Nat) (f : Workgroup → Workgroup) : (modWg s id f).regions = s.regions := rfl
@[simp] theorem modWg_flights (s : State) (id : Nat) (f : Workgroup → Workgroup) : (modWg s id f).flights = s.flights := rfl
@[simp] theorem modWg_past (s : State) (id : Nat) (f : Workgroup → Workgroup) : (modWg s id f).past = s.past := rfl
@[simp] theorem modWg_former (s : State) (id : Nat) (f : Workgroup → Workgroup) : (modWg s id f).former = s.former := rfl
@[simp] theorem modWg_copies (s : State) (id : Nat) (f : Workgroup → Workgroup) : (modWg s id f).copies = s.copies := rfl
@[simp] theorem modWg_commands (s : State) (id : Nat) (f : Workgroup → Workgroup) : (modWg s id f).commands = s.commands := rfl
@[simp] theorem modWg_lines (s : State) (id : Nat) (f : Workgroup → Workgroup) : (modWg s id f).lines = s.lines := rfl
@[simp] theorem modWg_dirs (s : State) (id : Nat) (f : Workgroup → Workgroup) : (modWg s id f).dirs = s.dirs := rfl
@[simp] theorem modWg_msgs (s : State) (id : Nat) (f : Workgroup → Workgroup) : (modWg s id f).msgs = s.msgs := rfl
@[simp] theorem modWg_playbill (s : State) (id : Nat) (f : Workgroup → Workgroup) : (modWg s id f).playbill = s.playbill := rfl
@[simp] theorem modWg_images7 (s : State) (id : Nat) (f : Workgroup → Workgroup) : (modWg s id f).images7 = s.images7 := rfl
@[simp] theorem modWg_conversions (s : State) (id : Nat) (f : Workgroup → Workgroup) : (modWg s id f).conversions = s.conversions := rfl
@[simp] theorem modWg_swaps (s : State) (id : Nat) (f : Workgroup → Workgroup) : (modWg s id f).swaps = s.swaps := rfl
@[simp] theorem modWg_links (s : State) (id : Nat) (f : Workgroup → Workgroup) : (modWg s id f).links = s.links := rfl
@[simp] theorem modWg_windows (s : State) (id : Nat) (f : Workgroup → Workgroup) : (modWg s id f).windows = s.windows := rfl
@[simp] theorem modWg_device (s : State) (id : Nat) (f : Workgroup → Workgroup) : (modWg s id f).device = s.device := rfl
@[simp] theorem modWg_hostBase (s : State) (id : Nat) (f : Workgroup → Workgroup) : (modWg s id f).hostBase = s.hostBase := rfl
@[simp] theorem modWg_hostKeys (s : State) (id : Nat) (f : Workgroup → Workgroup) : (modWg s id f).hostKeys = s.hostKeys := rfl
@[simp] theorem modWg_mailbox (s : State) (id : Nat) (f : Workgroup → Workgroup) : (modWg s id f).mailbox = s.mailbox := rfl
@[simp] theorem modWg_migq (s : State) (id : Nat) (f : Workgroup → Workgroup) : (modWg s id f).migq = s.migq := rfl
@[simp] theorem modWg_signals (s : State) (id : Nat) (f : Workgroup → Workgroup) : (modWg s id f).signals = s.signals := rfl
@[simp] theorem modWg_answers (s : State) (id : Nat) (f : Workgroup → Workgroup) : (modWg s id f).answers = s.answers := rfl
@[simp] theorem modWg_debugger (s : State) (id : Nat) (f : Workgroup → Workgroup) : (modWg s id f).debugger = s.debugger := rfl
@[simp] theorem modWg_keys (s : State) (id : Nat) (f : Workgroup → Workgroup) : (modWg s id f).keys = s.keys := rfl
@[simp] theorem modWg_formerKeys (s : State) (id : Nat) (f : Workgroup → Workgroup) : (modWg s id f).formerKeys = s.formerKeys := rfl
@[simp] theorem modWg_keks (s : State) (id : Nat) (f : Workgroup → Workgroup) : (modWg s id f).keks = s.keks := rfl
@[simp] theorem modWg_canopyKeys (s : State) (id : Nat) (f : Workgroup → Workgroup) : (modWg s id f).canopyKeys = s.canopyKeys := rfl
@[simp] theorem modWg_marks (s : State) (id : Nat) (f : Workgroup → Workgroup) : (modWg s id f).marks = s.marks := rfl
@[simp] theorem modWg_thresh (s : State) (id : Nat) (f : Workgroup → Workgroup) : (modWg s id f).thresh = s.thresh := rfl
@[simp] theorem modWg_repairs (s : State) (id : Nat) (f : Workgroup → Workgroup) : (modWg s id f).repairs = s.repairs := rfl
@[simp] theorem modWg_spares (s : State) (id : Nat) (f : Workgroup → Workgroup) : (modWg s id f).spares = s.spares := rfl
@[simp] theorem modWg_disabledWays (s : State) (id : Nat) (f : Workgroup → Workgroup) : (modWg s id f).disabledWays = s.disabledWays := rfl
@[simp] theorem modWg_events (s : State) (id : Nat) (f : Workgroup → Workgroup) : (modWg s id f).events = s.events := rfl
@[simp] theorem modWg_eventIndex (s : State) (id : Nat) (f : Workgroup → Workgroup) : (modWg s id f).eventIndex = s.eventIndex := rfl

/-! ## `modGroup` -/

@[simp] theorem modGroup_now (s : State) (g : GroupId) (f : Group → Group) : (modGroup s g f).now = s.now := rfl
@[simp] theorem modGroup_turn (s : State) (g : GroupId) (f : Group → Group) : (modGroup s g f).turn = s.turn := rfl
@[simp] theorem modGroup_draw (s : State) (g : GroupId) (f : Group → Group) : (modGroup s g f).draw = s.draw := rfl
@[simp] theorem modGroup_nextId (s : State) (g : GroupId) (f : Group → Group) : (modGroup s g f).nextId = s.nextId := rfl
@[simp] theorem modGroup_issue (s : State) (g : GroupId) (f : Group → Group) : (modGroup s g f).issue = s.issue := rfl
@[simp] theorem modGroup_agenda (s : State) (g : GroupId) (f : Group → Group) : (modGroup s g f).agenda = s.agenda := rfl
@[simp] theorem modGroup_inReset (s : State) (g : GroupId) (f : Group → Group) : (modGroup s g f).inReset = s.inReset := rfl
@[simp] theorem modGroup_booted (s : State) (g : GroupId) (f : Group → Group) : (modGroup s g f).booted = s.booted := rfl
@[simp] theorem modGroup_timeFree (s : State) (g : GroupId) (f : Group → Group) : (modGroup s g f).timeFree = s.timeFree := rfl
@[simp] theorem modGroup_timeLoss (s : State) (g : GroupId) (f : Group → Group) : (modGroup s g f).timeLoss = s.timeLoss := rfl
@[simp] theorem modGroup_timeRet (s : State) (g : GroupId) (f : Group → Group) : (modGroup s g f).timeRet = s.timeRet := rfl
@[simp] theorem modGroup_lossAt (s : State) (g : GroupId) (f : Group → Group) : (modGroup s g f).lossAt = s.lossAt := rfl
@[simp] theorem modGroup_returnAt (s : State) (g : GroupId) (f : Group → Group) : (modGroup s g f).returnAt = s.returnAt := rfl
@[simp] theorem modGroup_bootFailed (s : State) (g : GroupId) (f : Group → Group) : (modGroup s g f).bootFailed = s.bootFailed := rfl
@[simp] theorem modGroup_xlat (s : State) (g : GroupId) (f : Group → Group) : (modGroup s g f).xlat = s.xlat := rfl
@[simp] theorem modGroup_mem (s : State) (g : GroupId) (f : Group → Group) : (modGroup s g f).mem = s.mem := rfl
@[simp] theorem modGroup_lineKeys (s : State) (g : GroupId) (f : Group → Group) : (modGroup s g f).lineKeys = s.lineKeys := rfl
@[simp] theorem modGroup_oddBytes (s : State) (g : GroupId) (f : Group → Group) : (modGroup s g f).oddBytes = s.oddBytes := rfl
@[simp] theorem modGroup_poison (s : State) (g : GroupId) (f : Group → Group) : (modGroup s g f).poison = s.poison := rfl
@[simp] theorem modGroup_towers (s : State) (g : GroupId) (f : Group → Group) : (modGroup s g f).towers = s.towers := rfl
@[simp] theorem modGroup_columns (s : State) (g : GroupId) (f : Group → Group) : (modGroup s g f).columns = s.columns := rfl
@[simp] theorem modGroup_cores (s : State) (g : GroupId) (f : Group → Group) : (modGroup s g f).cores = s.cores := rfl
@[simp] theorem modGroup_chunks (s : State) (g : GroupId) (f : Group → Group) : (modGroup s g f).chunks = s.chunks := rfl
@[simp] theorem modGroup_halvedAt (s : State) (g : GroupId) (f : Group → Group) : (modGroup s g f).halvedAt = s.halvedAt := rfl
@[simp] theorem modGroup_images (s : State) (g : GroupId) (f : Group → Group) : (modGroup s g f).images = s.images := rfl
@[simp] theorem modGroup_reserves (s : State) (g : GroupId) (f : Group → Group) : (modGroup s g f).reserves = s.reserves := rfl
@[simp] theorem modGroup_spaces (s : State) (g : GroupId) (f : Group → Group) : (modGroup s g f).spaces = s.spaces := rfl
@[simp] theorem modGroup_regions (s : State) (g : GroupId) (f : Group → Group) : (modGroup s g f).regions = s.regions := rfl
@[simp] theorem modGroup_flights (s : State) (g : GroupId) (f : Group → Group) : (modGroup s g f).flights = s.flights := rfl
@[simp] theorem modGroup_past (s : State) (g : GroupId) (f : Group → Group) : (modGroup s g f).past = s.past := rfl
@[simp] theorem modGroup_former (s : State) (g : GroupId) (f : Group → Group) : (modGroup s g f).former = s.former := rfl
@[simp] theorem modGroup_copies (s : State) (g : GroupId) (f : Group → Group) : (modGroup s g f).copies = s.copies := rfl
@[simp] theorem modGroup_commands (s : State) (g : GroupId) (f : Group → Group) : (modGroup s g f).commands = s.commands := rfl
@[simp] theorem modGroup_lines (s : State) (g : GroupId) (f : Group → Group) : (modGroup s g f).lines = s.lines := rfl
@[simp] theorem modGroup_dirs (s : State) (g : GroupId) (f : Group → Group) : (modGroup s g f).dirs = s.dirs := rfl
@[simp] theorem modGroup_msgs (s : State) (g : GroupId) (f : Group → Group) : (modGroup s g f).msgs = s.msgs := rfl
@[simp] theorem modGroup_playbill (s : State) (g : GroupId) (f : Group → Group) : (modGroup s g f).playbill = s.playbill := rfl
@[simp] theorem modGroup_images7 (s : State) (g : GroupId) (f : Group → Group) : (modGroup s g f).images7 = s.images7 := rfl
@[simp] theorem modGroup_conversions (s : State) (g : GroupId) (f : Group → Group) : (modGroup s g f).conversions = s.conversions := rfl
@[simp] theorem modGroup_swaps (s : State) (g : GroupId) (f : Group → Group) : (modGroup s g f).swaps = s.swaps := rfl
@[simp] theorem modGroup_links (s : State) (g : GroupId) (f : Group → Group) : (modGroup s g f).links = s.links := rfl
@[simp] theorem modGroup_windows (s : State) (g : GroupId) (f : Group → Group) : (modGroup s g f).windows = s.windows := rfl
@[simp] theorem modGroup_device (s : State) (g : GroupId) (f : Group → Group) : (modGroup s g f).device = s.device := rfl
@[simp] theorem modGroup_hostBase (s : State) (g : GroupId) (f : Group → Group) : (modGroup s g f).hostBase = s.hostBase := rfl
@[simp] theorem modGroup_hostKeys (s : State) (g : GroupId) (f : Group → Group) : (modGroup s g f).hostKeys = s.hostKeys := rfl
@[simp] theorem modGroup_mailbox (s : State) (g : GroupId) (f : Group → Group) : (modGroup s g f).mailbox = s.mailbox := rfl
@[simp] theorem modGroup_migq (s : State) (g : GroupId) (f : Group → Group) : (modGroup s g f).migq = s.migq := rfl
@[simp] theorem modGroup_signals (s : State) (g : GroupId) (f : Group → Group) : (modGroup s g f).signals = s.signals := rfl
@[simp] theorem modGroup_answers (s : State) (g : GroupId) (f : Group → Group) : (modGroup s g f).answers = s.answers := rfl
@[simp] theorem modGroup_debugger (s : State) (g : GroupId) (f : Group → Group) : (modGroup s g f).debugger = s.debugger := rfl
@[simp] theorem modGroup_keys (s : State) (g : GroupId) (f : Group → Group) : (modGroup s g f).keys = s.keys := rfl
@[simp] theorem modGroup_formerKeys (s : State) (g : GroupId) (f : Group → Group) : (modGroup s g f).formerKeys = s.formerKeys := rfl
@[simp] theorem modGroup_keks (s : State) (g : GroupId) (f : Group → Group) : (modGroup s g f).keks = s.keks := rfl
@[simp] theorem modGroup_canopyKeys (s : State) (g : GroupId) (f : Group → Group) : (modGroup s g f).canopyKeys = s.canopyKeys := rfl
@[simp] theorem modGroup_marks (s : State) (g : GroupId) (f : Group → Group) : (modGroup s g f).marks = s.marks := rfl
@[simp] theorem modGroup_thresh (s : State) (g : GroupId) (f : Group → Group) : (modGroup s g f).thresh = s.thresh := rfl
@[simp] theorem modGroup_repairs (s : State) (g : GroupId) (f : Group → Group) : (modGroup s g f).repairs = s.repairs := rfl
@[simp] theorem modGroup_spares (s : State) (g : GroupId) (f : Group → Group) : (modGroup s g f).spares = s.spares := rfl
@[simp] theorem modGroup_disabledWays (s : State) (g : GroupId) (f : Group → Group) : (modGroup s g f).disabledWays = s.disabledWays := rfl
@[simp] theorem modGroup_events (s : State) (g : GroupId) (f : Group → Group) : (modGroup s g f).events = s.events := rfl
@[simp] theorem modGroup_eventIndex (s : State) (g : GroupId) (f : Group → Group) : (modGroup s g f).eventIndex = s.eventIndex := rfl

/-! ## `modSplit` -/

@[simp] theorem modSplit_now (s : State) (x : SplitId) (f : Split → Split) : (modSplit s x f).now = s.now := rfl
@[simp] theorem modSplit_turn (s : State) (x : SplitId) (f : Split → Split) : (modSplit s x f).turn = s.turn := rfl
@[simp] theorem modSplit_draw (s : State) (x : SplitId) (f : Split → Split) : (modSplit s x f).draw = s.draw := rfl
@[simp] theorem modSplit_nextId (s : State) (x : SplitId) (f : Split → Split) : (modSplit s x f).nextId = s.nextId := rfl
@[simp] theorem modSplit_issue (s : State) (x : SplitId) (f : Split → Split) : (modSplit s x f).issue = s.issue := rfl
@[simp] theorem modSplit_agenda (s : State) (x : SplitId) (f : Split → Split) : (modSplit s x f).agenda = s.agenda := rfl
@[simp] theorem modSplit_inReset (s : State) (x : SplitId) (f : Split → Split) : (modSplit s x f).inReset = s.inReset := rfl
@[simp] theorem modSplit_booted (s : State) (x : SplitId) (f : Split → Split) : (modSplit s x f).booted = s.booted := rfl
@[simp] theorem modSplit_timeFree (s : State) (x : SplitId) (f : Split → Split) : (modSplit s x f).timeFree = s.timeFree := rfl
@[simp] theorem modSplit_timeLoss (s : State) (x : SplitId) (f : Split → Split) : (modSplit s x f).timeLoss = s.timeLoss := rfl
@[simp] theorem modSplit_timeRet (s : State) (x : SplitId) (f : Split → Split) : (modSplit s x f).timeRet = s.timeRet := rfl
@[simp] theorem modSplit_lossAt (s : State) (x : SplitId) (f : Split → Split) : (modSplit s x f).lossAt = s.lossAt := rfl
@[simp] theorem modSplit_returnAt (s : State) (x : SplitId) (f : Split → Split) : (modSplit s x f).returnAt = s.returnAt := rfl
@[simp] theorem modSplit_bootFailed (s : State) (x : SplitId) (f : Split → Split) : (modSplit s x f).bootFailed = s.bootFailed := rfl
@[simp] theorem modSplit_xlat (s : State) (x : SplitId) (f : Split → Split) : (modSplit s x f).xlat = s.xlat := rfl
@[simp] theorem modSplit_mem (s : State) (x : SplitId) (f : Split → Split) : (modSplit s x f).mem = s.mem := rfl
@[simp] theorem modSplit_lineKeys (s : State) (x : SplitId) (f : Split → Split) : (modSplit s x f).lineKeys = s.lineKeys := rfl
@[simp] theorem modSplit_oddBytes (s : State) (x : SplitId) (f : Split → Split) : (modSplit s x f).oddBytes = s.oddBytes := rfl
@[simp] theorem modSplit_poison (s : State) (x : SplitId) (f : Split → Split) : (modSplit s x f).poison = s.poison := rfl
@[simp] theorem modSplit_towers (s : State) (x : SplitId) (f : Split → Split) : (modSplit s x f).towers = s.towers := rfl
@[simp] theorem modSplit_columns (s : State) (x : SplitId) (f : Split → Split) : (modSplit s x f).columns = s.columns := rfl
@[simp] theorem modSplit_cores (s : State) (x : SplitId) (f : Split → Split) : (modSplit s x f).cores = s.cores := rfl
@[simp] theorem modSplit_chunks (s : State) (x : SplitId) (f : Split → Split) : (modSplit s x f).chunks = s.chunks := rfl
@[simp] theorem modSplit_halvedAt (s : State) (x : SplitId) (f : Split → Split) : (modSplit s x f).halvedAt = s.halvedAt := rfl
@[simp] theorem modSplit_images (s : State) (x : SplitId) (f : Split → Split) : (modSplit s x f).images = s.images := rfl
@[simp] theorem modSplit_reserves (s : State) (x : SplitId) (f : Split → Split) : (modSplit s x f).reserves = s.reserves := rfl
@[simp] theorem modSplit_spaces (s : State) (x : SplitId) (f : Split → Split) : (modSplit s x f).spaces = s.spaces := rfl
@[simp] theorem modSplit_regions (s : State) (x : SplitId) (f : Split → Split) : (modSplit s x f).regions = s.regions := rfl
@[simp] theorem modSplit_flights (s : State) (x : SplitId) (f : Split → Split) : (modSplit s x f).flights = s.flights := rfl
@[simp] theorem modSplit_past (s : State) (x : SplitId) (f : Split → Split) : (modSplit s x f).past = s.past := rfl
@[simp] theorem modSplit_former (s : State) (x : SplitId) (f : Split → Split) : (modSplit s x f).former = s.former := rfl
@[simp] theorem modSplit_copies (s : State) (x : SplitId) (f : Split → Split) : (modSplit s x f).copies = s.copies := rfl
@[simp] theorem modSplit_commands (s : State) (x : SplitId) (f : Split → Split) : (modSplit s x f).commands = s.commands := rfl
@[simp] theorem modSplit_lines (s : State) (x : SplitId) (f : Split → Split) : (modSplit s x f).lines = s.lines := rfl
@[simp] theorem modSplit_dirs (s : State) (x : SplitId) (f : Split → Split) : (modSplit s x f).dirs = s.dirs := rfl
@[simp] theorem modSplit_msgs (s : State) (x : SplitId) (f : Split → Split) : (modSplit s x f).msgs = s.msgs := rfl
@[simp] theorem modSplit_playbill (s : State) (x : SplitId) (f : Split → Split) : (modSplit s x f).playbill = s.playbill := rfl
@[simp] theorem modSplit_images7 (s : State) (x : SplitId) (f : Split → Split) : (modSplit s x f).images7 = s.images7 := rfl
@[simp] theorem modSplit_conversions (s : State) (x : SplitId) (f : Split → Split) : (modSplit s x f).conversions = s.conversions := rfl
@[simp] theorem modSplit_swaps (s : State) (x : SplitId) (f : Split → Split) : (modSplit s x f).swaps = s.swaps := rfl
@[simp] theorem modSplit_links (s : State) (x : SplitId) (f : Split → Split) : (modSplit s x f).links = s.links := rfl
@[simp] theorem modSplit_windows (s : State) (x : SplitId) (f : Split → Split) : (modSplit s x f).windows = s.windows := rfl
@[simp] theorem modSplit_device (s : State) (x : SplitId) (f : Split → Split) : (modSplit s x f).device = s.device := rfl
@[simp] theorem modSplit_hostBase (s : State) (x : SplitId) (f : Split → Split) : (modSplit s x f).hostBase = s.hostBase := rfl
@[simp] theorem modSplit_hostKeys (s : State) (x : SplitId) (f : Split → Split) : (modSplit s x f).hostKeys = s.hostKeys := rfl
@[simp] theorem modSplit_mailbox (s : State) (x : SplitId) (f : Split → Split) : (modSplit s x f).mailbox = s.mailbox := rfl
@[simp] theorem modSplit_migq (s : State) (x : SplitId) (f : Split → Split) : (modSplit s x f).migq = s.migq := rfl
@[simp] theorem modSplit_signals (s : State) (x : SplitId) (f : Split → Split) : (modSplit s x f).signals = s.signals := rfl
@[simp] theorem modSplit_answers (s : State) (x : SplitId) (f : Split → Split) : (modSplit s x f).answers = s.answers := rfl
@[simp] theorem modSplit_debugger (s : State) (x : SplitId) (f : Split → Split) : (modSplit s x f).debugger = s.debugger := rfl
@[simp] theorem modSplit_keys (s : State) (x : SplitId) (f : Split → Split) : (modSplit s x f).keys = s.keys := rfl
@[simp] theorem modSplit_formerKeys (s : State) (x : SplitId) (f : Split → Split) : (modSplit s x f).formerKeys = s.formerKeys := rfl
@[simp] theorem modSplit_keks (s : State) (x : SplitId) (f : Split → Split) : (modSplit s x f).keks = s.keks := rfl
@[simp] theorem modSplit_canopyKeys (s : State) (x : SplitId) (f : Split → Split) : (modSplit s x f).canopyKeys = s.canopyKeys := rfl
@[simp] theorem modSplit_marks (s : State) (x : SplitId) (f : Split → Split) : (modSplit s x f).marks = s.marks := rfl
@[simp] theorem modSplit_thresh (s : State) (x : SplitId) (f : Split → Split) : (modSplit s x f).thresh = s.thresh := rfl
@[simp] theorem modSplit_repairs (s : State) (x : SplitId) (f : Split → Split) : (modSplit s x f).repairs = s.repairs := rfl
@[simp] theorem modSplit_spares (s : State) (x : SplitId) (f : Split → Split) : (modSplit s x f).spares = s.spares := rfl
@[simp] theorem modSplit_disabledWays (s : State) (x : SplitId) (f : Split → Split) : (modSplit s x f).disabledWays = s.disabledWays := rfl
@[simp] theorem modSplit_events (s : State) (x : SplitId) (f : Split → Split) : (modSplit s x f).events = s.events := rfl
@[simp] theorem modSplit_eventIndex (s : State) (x : SplitId) (f : Split → Split) : (modSplit s x f).eventIndex = s.eventIndex := rfl

/-! ## `modCore` -/

@[simp] theorem modCore_cores (s : State) (n : Nat) (f : Core → Core) : (modCore s n f).cores = Table.modify s.cores n .reset f := rfl
@[simp] theorem modCore_now (s : State) (n : Nat) (f : Core → Core) : (modCore s n f).now = s.now := rfl
@[simp] theorem modCore_turn (s : State) (n : Nat) (f : Core → Core) : (modCore s n f).turn = s.turn := rfl
@[simp] theorem modCore_draw (s : State) (n : Nat) (f : Core → Core) : (modCore s n f).draw = s.draw := rfl
@[simp] theorem modCore_nextId (s : State) (n : Nat) (f : Core → Core) : (modCore s n f).nextId = s.nextId := rfl
@[simp] theorem modCore_issue (s : State) (n : Nat) (f : Core → Core) : (modCore s n f).issue = s.issue := rfl
@[simp] theorem modCore_agenda (s : State) (n : Nat) (f : Core → Core) : (modCore s n f).agenda = s.agenda := rfl
@[simp] theorem modCore_inReset (s : State) (n : Nat) (f : Core → Core) : (modCore s n f).inReset = s.inReset := rfl
@[simp] theorem modCore_booted (s : State) (n : Nat) (f : Core → Core) : (modCore s n f).booted = s.booted := rfl
@[simp] theorem modCore_timeFree (s : State) (n : Nat) (f : Core → Core) : (modCore s n f).timeFree = s.timeFree := rfl
@[simp] theorem modCore_timeLoss (s : State) (n : Nat) (f : Core → Core) : (modCore s n f).timeLoss = s.timeLoss := rfl
@[simp] theorem modCore_timeRet (s : State) (n : Nat) (f : Core → Core) : (modCore s n f).timeRet = s.timeRet := rfl
@[simp] theorem modCore_lossAt (s : State) (n : Nat) (f : Core → Core) : (modCore s n f).lossAt = s.lossAt := rfl
@[simp] theorem modCore_returnAt (s : State) (n : Nat) (f : Core → Core) : (modCore s n f).returnAt = s.returnAt := rfl
@[simp] theorem modCore_bootFailed (s : State) (n : Nat) (f : Core → Core) : (modCore s n f).bootFailed = s.bootFailed := rfl
@[simp] theorem modCore_xlat (s : State) (n : Nat) (f : Core → Core) : (modCore s n f).xlat = s.xlat := rfl
@[simp] theorem modCore_mem (s : State) (n : Nat) (f : Core → Core) : (modCore s n f).mem = s.mem := rfl
@[simp] theorem modCore_lineKeys (s : State) (n : Nat) (f : Core → Core) : (modCore s n f).lineKeys = s.lineKeys := rfl
@[simp] theorem modCore_oddBytes (s : State) (n : Nat) (f : Core → Core) : (modCore s n f).oddBytes = s.oddBytes := rfl
@[simp] theorem modCore_poison (s : State) (n : Nat) (f : Core → Core) : (modCore s n f).poison = s.poison := rfl
@[simp] theorem modCore_towers (s : State) (n : Nat) (f : Core → Core) : (modCore s n f).towers = s.towers := rfl
@[simp] theorem modCore_columns (s : State) (n : Nat) (f : Core → Core) : (modCore s n f).columns = s.columns := rfl
@[simp] theorem modCore_chunks (s : State) (n : Nat) (f : Core → Core) : (modCore s n f).chunks = s.chunks := rfl
@[simp] theorem modCore_halvedAt (s : State) (n : Nat) (f : Core → Core) : (modCore s n f).halvedAt = s.halvedAt := rfl
@[simp] theorem modCore_wgs (s : State) (n : Nat) (f : Core → Core) : (modCore s n f).wgs = s.wgs := rfl
@[simp] theorem modCore_images (s : State) (n : Nat) (f : Core → Core) : (modCore s n f).images = s.images := rfl
@[simp] theorem modCore_reserves (s : State) (n : Nat) (f : Core → Core) : (modCore s n f).reserves = s.reserves := rfl
@[simp] theorem modCore_spaces (s : State) (n : Nat) (f : Core → Core) : (modCore s n f).spaces = s.spaces := rfl
@[simp] theorem modCore_regions (s : State) (n : Nat) (f : Core → Core) : (modCore s n f).regions = s.regions := rfl
@[simp] theorem modCore_flights (s : State) (n : Nat) (f : Core → Core) : (modCore s n f).flights = s.flights := rfl
@[simp] theorem modCore_past (s : State) (n : Nat) (f : Core → Core) : (modCore s n f).past = s.past := rfl
@[simp] theorem modCore_former (s : State) (n : Nat) (f : Core → Core) : (modCore s n f).former = s.former := rfl
@[simp] theorem modCore_copies (s : State) (n : Nat) (f : Core → Core) : (modCore s n f).copies = s.copies := rfl
@[simp] theorem modCore_commands (s : State) (n : Nat) (f : Core → Core) : (modCore s n f).commands = s.commands := rfl
@[simp] theorem modCore_lines (s : State) (n : Nat) (f : Core → Core) : (modCore s n f).lines = s.lines := rfl
@[simp] theorem modCore_dirs (s : State) (n : Nat) (f : Core → Core) : (modCore s n f).dirs = s.dirs := rfl
@[simp] theorem modCore_msgs (s : State) (n : Nat) (f : Core → Core) : (modCore s n f).msgs = s.msgs := rfl
@[simp] theorem modCore_playbill (s : State) (n : Nat) (f : Core → Core) : (modCore s n f).playbill = s.playbill := rfl
@[simp] theorem modCore_images7 (s : State) (n : Nat) (f : Core → Core) : (modCore s n f).images7 = s.images7 := rfl
@[simp] theorem modCore_conversions (s : State) (n : Nat) (f : Core → Core) : (modCore s n f).conversions = s.conversions := rfl
@[simp] theorem modCore_swaps (s : State) (n : Nat) (f : Core → Core) : (modCore s n f).swaps = s.swaps := rfl
@[simp] theorem modCore_links (s : State) (n : Nat) (f : Core → Core) : (modCore s n f).links = s.links := rfl
@[simp] theorem modCore_windows (s : State) (n : Nat) (f : Core → Core) : (modCore s n f).windows = s.windows := rfl
@[simp] theorem modCore_device (s : State) (n : Nat) (f : Core → Core) : (modCore s n f).device = s.device := rfl
@[simp] theorem modCore_hostBase (s : State) (n : Nat) (f : Core → Core) : (modCore s n f).hostBase = s.hostBase := rfl
@[simp] theorem modCore_hostKeys (s : State) (n : Nat) (f : Core → Core) : (modCore s n f).hostKeys = s.hostKeys := rfl
@[simp] theorem modCore_mailbox (s : State) (n : Nat) (f : Core → Core) : (modCore s n f).mailbox = s.mailbox := rfl
@[simp] theorem modCore_migq (s : State) (n : Nat) (f : Core → Core) : (modCore s n f).migq = s.migq := rfl
@[simp] theorem modCore_signals (s : State) (n : Nat) (f : Core → Core) : (modCore s n f).signals = s.signals := rfl
@[simp] theorem modCore_answers (s : State) (n : Nat) (f : Core → Core) : (modCore s n f).answers = s.answers := rfl
@[simp] theorem modCore_debugger (s : State) (n : Nat) (f : Core → Core) : (modCore s n f).debugger = s.debugger := rfl
@[simp] theorem modCore_keys (s : State) (n : Nat) (f : Core → Core) : (modCore s n f).keys = s.keys := rfl
@[simp] theorem modCore_formerKeys (s : State) (n : Nat) (f : Core → Core) : (modCore s n f).formerKeys = s.formerKeys := rfl
@[simp] theorem modCore_keks (s : State) (n : Nat) (f : Core → Core) : (modCore s n f).keks = s.keks := rfl
@[simp] theorem modCore_canopyKeys (s : State) (n : Nat) (f : Core → Core) : (modCore s n f).canopyKeys = s.canopyKeys := rfl
@[simp] theorem modCore_marks (s : State) (n : Nat) (f : Core → Core) : (modCore s n f).marks = s.marks := rfl
@[simp] theorem modCore_thresh (s : State) (n : Nat) (f : Core → Core) : (modCore s n f).thresh = s.thresh := rfl
@[simp] theorem modCore_repairs (s : State) (n : Nat) (f : Core → Core) : (modCore s n f).repairs = s.repairs := rfl
@[simp] theorem modCore_spares (s : State) (n : Nat) (f : Core → Core) : (modCore s n f).spares = s.spares := rfl
@[simp] theorem modCore_disabledWays (s : State) (n : Nat) (f : Core → Core) : (modCore s n f).disabledWays = s.disabledWays := rfl
@[simp] theorem modCore_events (s : State) (n : Nat) (f : Core → Core) : (modCore s n f).events = s.events := rfl
@[simp] theorem modCore_eventIndex (s : State) (n : Nat) (f : Core → Core) : (modCore s n f).eventIndex = s.eventIndex := rfl

/-! ## `modColumn` -/

@[simp] theorem modColumn_columns (s : State) (n : Nat) (f : Column → Column) : (modColumn s n f).columns = Table.modify s.columns n .reset f := rfl
@[simp] theorem modColumn_now (s : State) (n : Nat) (f : Column → Column) : (modColumn s n f).now = s.now := rfl
@[simp] theorem modColumn_turn (s : State) (n : Nat) (f : Column → Column) : (modColumn s n f).turn = s.turn := rfl
@[simp] theorem modColumn_draw (s : State) (n : Nat) (f : Column → Column) : (modColumn s n f).draw = s.draw := rfl
@[simp] theorem modColumn_nextId (s : State) (n : Nat) (f : Column → Column) : (modColumn s n f).nextId = s.nextId := rfl
@[simp] theorem modColumn_issue (s : State) (n : Nat) (f : Column → Column) : (modColumn s n f).issue = s.issue := rfl
@[simp] theorem modColumn_agenda (s : State) (n : Nat) (f : Column → Column) : (modColumn s n f).agenda = s.agenda := rfl
@[simp] theorem modColumn_inReset (s : State) (n : Nat) (f : Column → Column) : (modColumn s n f).inReset = s.inReset := rfl
@[simp] theorem modColumn_booted (s : State) (n : Nat) (f : Column → Column) : (modColumn s n f).booted = s.booted := rfl
@[simp] theorem modColumn_timeFree (s : State) (n : Nat) (f : Column → Column) : (modColumn s n f).timeFree = s.timeFree := rfl
@[simp] theorem modColumn_timeLoss (s : State) (n : Nat) (f : Column → Column) : (modColumn s n f).timeLoss = s.timeLoss := rfl
@[simp] theorem modColumn_timeRet (s : State) (n : Nat) (f : Column → Column) : (modColumn s n f).timeRet = s.timeRet := rfl
@[simp] theorem modColumn_lossAt (s : State) (n : Nat) (f : Column → Column) : (modColumn s n f).lossAt = s.lossAt := rfl
@[simp] theorem modColumn_returnAt (s : State) (n : Nat) (f : Column → Column) : (modColumn s n f).returnAt = s.returnAt := rfl
@[simp] theorem modColumn_bootFailed (s : State) (n : Nat) (f : Column → Column) : (modColumn s n f).bootFailed = s.bootFailed := rfl
@[simp] theorem modColumn_xlat (s : State) (n : Nat) (f : Column → Column) : (modColumn s n f).xlat = s.xlat := rfl
@[simp] theorem modColumn_mem (s : State) (n : Nat) (f : Column → Column) : (modColumn s n f).mem = s.mem := rfl
@[simp] theorem modColumn_lineKeys (s : State) (n : Nat) (f : Column → Column) : (modColumn s n f).lineKeys = s.lineKeys := rfl
@[simp] theorem modColumn_oddBytes (s : State) (n : Nat) (f : Column → Column) : (modColumn s n f).oddBytes = s.oddBytes := rfl
@[simp] theorem modColumn_poison (s : State) (n : Nat) (f : Column → Column) : (modColumn s n f).poison = s.poison := rfl
@[simp] theorem modColumn_towers (s : State) (n : Nat) (f : Column → Column) : (modColumn s n f).towers = s.towers := rfl
@[simp] theorem modColumn_cores (s : State) (n : Nat) (f : Column → Column) : (modColumn s n f).cores = s.cores := rfl
@[simp] theorem modColumn_chunks (s : State) (n : Nat) (f : Column → Column) : (modColumn s n f).chunks = s.chunks := rfl
@[simp] theorem modColumn_halvedAt (s : State) (n : Nat) (f : Column → Column) : (modColumn s n f).halvedAt = s.halvedAt := rfl
@[simp] theorem modColumn_wgs (s : State) (n : Nat) (f : Column → Column) : (modColumn s n f).wgs = s.wgs := rfl
@[simp] theorem modColumn_images (s : State) (n : Nat) (f : Column → Column) : (modColumn s n f).images = s.images := rfl
@[simp] theorem modColumn_reserves (s : State) (n : Nat) (f : Column → Column) : (modColumn s n f).reserves = s.reserves := rfl
@[simp] theorem modColumn_spaces (s : State) (n : Nat) (f : Column → Column) : (modColumn s n f).spaces = s.spaces := rfl
@[simp] theorem modColumn_regions (s : State) (n : Nat) (f : Column → Column) : (modColumn s n f).regions = s.regions := rfl
@[simp] theorem modColumn_flights (s : State) (n : Nat) (f : Column → Column) : (modColumn s n f).flights = s.flights := rfl
@[simp] theorem modColumn_past (s : State) (n : Nat) (f : Column → Column) : (modColumn s n f).past = s.past := rfl
@[simp] theorem modColumn_former (s : State) (n : Nat) (f : Column → Column) : (modColumn s n f).former = s.former := rfl
@[simp] theorem modColumn_copies (s : State) (n : Nat) (f : Column → Column) : (modColumn s n f).copies = s.copies := rfl
@[simp] theorem modColumn_commands (s : State) (n : Nat) (f : Column → Column) : (modColumn s n f).commands = s.commands := rfl
@[simp] theorem modColumn_lines (s : State) (n : Nat) (f : Column → Column) : (modColumn s n f).lines = s.lines := rfl
@[simp] theorem modColumn_dirs (s : State) (n : Nat) (f : Column → Column) : (modColumn s n f).dirs = s.dirs := rfl
@[simp] theorem modColumn_msgs (s : State) (n : Nat) (f : Column → Column) : (modColumn s n f).msgs = s.msgs := rfl
@[simp] theorem modColumn_playbill (s : State) (n : Nat) (f : Column → Column) : (modColumn s n f).playbill = s.playbill := rfl
@[simp] theorem modColumn_images7 (s : State) (n : Nat) (f : Column → Column) : (modColumn s n f).images7 = s.images7 := rfl
@[simp] theorem modColumn_conversions (s : State) (n : Nat) (f : Column → Column) : (modColumn s n f).conversions = s.conversions := rfl
@[simp] theorem modColumn_swaps (s : State) (n : Nat) (f : Column → Column) : (modColumn s n f).swaps = s.swaps := rfl
@[simp] theorem modColumn_links (s : State) (n : Nat) (f : Column → Column) : (modColumn s n f).links = s.links := rfl
@[simp] theorem modColumn_windows (s : State) (n : Nat) (f : Column → Column) : (modColumn s n f).windows = s.windows := rfl
@[simp] theorem modColumn_device (s : State) (n : Nat) (f : Column → Column) : (modColumn s n f).device = s.device := rfl
@[simp] theorem modColumn_hostBase (s : State) (n : Nat) (f : Column → Column) : (modColumn s n f).hostBase = s.hostBase := rfl
@[simp] theorem modColumn_hostKeys (s : State) (n : Nat) (f : Column → Column) : (modColumn s n f).hostKeys = s.hostKeys := rfl
@[simp] theorem modColumn_mailbox (s : State) (n : Nat) (f : Column → Column) : (modColumn s n f).mailbox = s.mailbox := rfl
@[simp] theorem modColumn_migq (s : State) (n : Nat) (f : Column → Column) : (modColumn s n f).migq = s.migq := rfl
@[simp] theorem modColumn_signals (s : State) (n : Nat) (f : Column → Column) : (modColumn s n f).signals = s.signals := rfl
@[simp] theorem modColumn_answers (s : State) (n : Nat) (f : Column → Column) : (modColumn s n f).answers = s.answers := rfl
@[simp] theorem modColumn_debugger (s : State) (n : Nat) (f : Column → Column) : (modColumn s n f).debugger = s.debugger := rfl
@[simp] theorem modColumn_keys (s : State) (n : Nat) (f : Column → Column) : (modColumn s n f).keys = s.keys := rfl
@[simp] theorem modColumn_formerKeys (s : State) (n : Nat) (f : Column → Column) : (modColumn s n f).formerKeys = s.formerKeys := rfl
@[simp] theorem modColumn_keks (s : State) (n : Nat) (f : Column → Column) : (modColumn s n f).keks = s.keks := rfl
@[simp] theorem modColumn_canopyKeys (s : State) (n : Nat) (f : Column → Column) : (modColumn s n f).canopyKeys = s.canopyKeys := rfl
@[simp] theorem modColumn_marks (s : State) (n : Nat) (f : Column → Column) : (modColumn s n f).marks = s.marks := rfl
@[simp] theorem modColumn_thresh (s : State) (n : Nat) (f : Column → Column) : (modColumn s n f).thresh = s.thresh := rfl
@[simp] theorem modColumn_repairs (s : State) (n : Nat) (f : Column → Column) : (modColumn s n f).repairs = s.repairs := rfl
@[simp] theorem modColumn_spares (s : State) (n : Nat) (f : Column → Column) : (modColumn s n f).spares = s.spares := rfl
@[simp] theorem modColumn_disabledWays (s : State) (n : Nat) (f : Column → Column) : (modColumn s n f).disabledWays = s.disabledWays := rfl
@[simp] theorem modColumn_events (s : State) (n : Nat) (f : Column → Column) : (modColumn s n f).events = s.events := rfl
@[simp] theorem modColumn_eventIndex (s : State) (n : Nat) (f : Column → Column) : (modColumn s n f).eventIndex = s.eventIndex := rfl

/-! ## `modTower` -/

@[simp] theorem modTower_towers (s : State) (n : Nat) (f : Tower → Tower) : (modTower s n f).towers = Table.modify s.towers n .reset f := rfl
@[simp] theorem modTower_now (s : State) (n : Nat) (f : Tower → Tower) : (modTower s n f).now = s.now := rfl
@[simp] theorem modTower_turn (s : State) (n : Nat) (f : Tower → Tower) : (modTower s n f).turn = s.turn := rfl
@[simp] theorem modTower_draw (s : State) (n : Nat) (f : Tower → Tower) : (modTower s n f).draw = s.draw := rfl
@[simp] theorem modTower_nextId (s : State) (n : Nat) (f : Tower → Tower) : (modTower s n f).nextId = s.nextId := rfl
@[simp] theorem modTower_issue (s : State) (n : Nat) (f : Tower → Tower) : (modTower s n f).issue = s.issue := rfl
@[simp] theorem modTower_agenda (s : State) (n : Nat) (f : Tower → Tower) : (modTower s n f).agenda = s.agenda := rfl
@[simp] theorem modTower_inReset (s : State) (n : Nat) (f : Tower → Tower) : (modTower s n f).inReset = s.inReset := rfl
@[simp] theorem modTower_booted (s : State) (n : Nat) (f : Tower → Tower) : (modTower s n f).booted = s.booted := rfl
@[simp] theorem modTower_timeFree (s : State) (n : Nat) (f : Tower → Tower) : (modTower s n f).timeFree = s.timeFree := rfl
@[simp] theorem modTower_timeLoss (s : State) (n : Nat) (f : Tower → Tower) : (modTower s n f).timeLoss = s.timeLoss := rfl
@[simp] theorem modTower_timeRet (s : State) (n : Nat) (f : Tower → Tower) : (modTower s n f).timeRet = s.timeRet := rfl
@[simp] theorem modTower_lossAt (s : State) (n : Nat) (f : Tower → Tower) : (modTower s n f).lossAt = s.lossAt := rfl
@[simp] theorem modTower_returnAt (s : State) (n : Nat) (f : Tower → Tower) : (modTower s n f).returnAt = s.returnAt := rfl
@[simp] theorem modTower_bootFailed (s : State) (n : Nat) (f : Tower → Tower) : (modTower s n f).bootFailed = s.bootFailed := rfl
@[simp] theorem modTower_xlat (s : State) (n : Nat) (f : Tower → Tower) : (modTower s n f).xlat = s.xlat := rfl
@[simp] theorem modTower_mem (s : State) (n : Nat) (f : Tower → Tower) : (modTower s n f).mem = s.mem := rfl
@[simp] theorem modTower_lineKeys (s : State) (n : Nat) (f : Tower → Tower) : (modTower s n f).lineKeys = s.lineKeys := rfl
@[simp] theorem modTower_oddBytes (s : State) (n : Nat) (f : Tower → Tower) : (modTower s n f).oddBytes = s.oddBytes := rfl
@[simp] theorem modTower_poison (s : State) (n : Nat) (f : Tower → Tower) : (modTower s n f).poison = s.poison := rfl
@[simp] theorem modTower_columns (s : State) (n : Nat) (f : Tower → Tower) : (modTower s n f).columns = s.columns := rfl
@[simp] theorem modTower_cores (s : State) (n : Nat) (f : Tower → Tower) : (modTower s n f).cores = s.cores := rfl
@[simp] theorem modTower_chunks (s : State) (n : Nat) (f : Tower → Tower) : (modTower s n f).chunks = s.chunks := rfl
@[simp] theorem modTower_halvedAt (s : State) (n : Nat) (f : Tower → Tower) : (modTower s n f).halvedAt = s.halvedAt := rfl
@[simp] theorem modTower_wgs (s : State) (n : Nat) (f : Tower → Tower) : (modTower s n f).wgs = s.wgs := rfl
@[simp] theorem modTower_images (s : State) (n : Nat) (f : Tower → Tower) : (modTower s n f).images = s.images := rfl
@[simp] theorem modTower_reserves (s : State) (n : Nat) (f : Tower → Tower) : (modTower s n f).reserves = s.reserves := rfl
@[simp] theorem modTower_spaces (s : State) (n : Nat) (f : Tower → Tower) : (modTower s n f).spaces = s.spaces := rfl
@[simp] theorem modTower_regions (s : State) (n : Nat) (f : Tower → Tower) : (modTower s n f).regions = s.regions := rfl
@[simp] theorem modTower_flights (s : State) (n : Nat) (f : Tower → Tower) : (modTower s n f).flights = s.flights := rfl
@[simp] theorem modTower_past (s : State) (n : Nat) (f : Tower → Tower) : (modTower s n f).past = s.past := rfl
@[simp] theorem modTower_former (s : State) (n : Nat) (f : Tower → Tower) : (modTower s n f).former = s.former := rfl
@[simp] theorem modTower_copies (s : State) (n : Nat) (f : Tower → Tower) : (modTower s n f).copies = s.copies := rfl
@[simp] theorem modTower_commands (s : State) (n : Nat) (f : Tower → Tower) : (modTower s n f).commands = s.commands := rfl
@[simp] theorem modTower_lines (s : State) (n : Nat) (f : Tower → Tower) : (modTower s n f).lines = s.lines := rfl
@[simp] theorem modTower_dirs (s : State) (n : Nat) (f : Tower → Tower) : (modTower s n f).dirs = s.dirs := rfl
@[simp] theorem modTower_msgs (s : State) (n : Nat) (f : Tower → Tower) : (modTower s n f).msgs = s.msgs := rfl
@[simp] theorem modTower_playbill (s : State) (n : Nat) (f : Tower → Tower) : (modTower s n f).playbill = s.playbill := rfl
@[simp] theorem modTower_images7 (s : State) (n : Nat) (f : Tower → Tower) : (modTower s n f).images7 = s.images7 := rfl
@[simp] theorem modTower_conversions (s : State) (n : Nat) (f : Tower → Tower) : (modTower s n f).conversions = s.conversions := rfl
@[simp] theorem modTower_swaps (s : State) (n : Nat) (f : Tower → Tower) : (modTower s n f).swaps = s.swaps := rfl
@[simp] theorem modTower_links (s : State) (n : Nat) (f : Tower → Tower) : (modTower s n f).links = s.links := rfl
@[simp] theorem modTower_windows (s : State) (n : Nat) (f : Tower → Tower) : (modTower s n f).windows = s.windows := rfl
@[simp] theorem modTower_device (s : State) (n : Nat) (f : Tower → Tower) : (modTower s n f).device = s.device := rfl
@[simp] theorem modTower_hostBase (s : State) (n : Nat) (f : Tower → Tower) : (modTower s n f).hostBase = s.hostBase := rfl
@[simp] theorem modTower_hostKeys (s : State) (n : Nat) (f : Tower → Tower) : (modTower s n f).hostKeys = s.hostKeys := rfl
@[simp] theorem modTower_mailbox (s : State) (n : Nat) (f : Tower → Tower) : (modTower s n f).mailbox = s.mailbox := rfl
@[simp] theorem modTower_migq (s : State) (n : Nat) (f : Tower → Tower) : (modTower s n f).migq = s.migq := rfl
@[simp] theorem modTower_signals (s : State) (n : Nat) (f : Tower → Tower) : (modTower s n f).signals = s.signals := rfl
@[simp] theorem modTower_answers (s : State) (n : Nat) (f : Tower → Tower) : (modTower s n f).answers = s.answers := rfl
@[simp] theorem modTower_debugger (s : State) (n : Nat) (f : Tower → Tower) : (modTower s n f).debugger = s.debugger := rfl
@[simp] theorem modTower_keys (s : State) (n : Nat) (f : Tower → Tower) : (modTower s n f).keys = s.keys := rfl
@[simp] theorem modTower_formerKeys (s : State) (n : Nat) (f : Tower → Tower) : (modTower s n f).formerKeys = s.formerKeys := rfl
@[simp] theorem modTower_keks (s : State) (n : Nat) (f : Tower → Tower) : (modTower s n f).keks = s.keks := rfl
@[simp] theorem modTower_canopyKeys (s : State) (n : Nat) (f : Tower → Tower) : (modTower s n f).canopyKeys = s.canopyKeys := rfl
@[simp] theorem modTower_marks (s : State) (n : Nat) (f : Tower → Tower) : (modTower s n f).marks = s.marks := rfl
@[simp] theorem modTower_thresh (s : State) (n : Nat) (f : Tower → Tower) : (modTower s n f).thresh = s.thresh := rfl
@[simp] theorem modTower_repairs (s : State) (n : Nat) (f : Tower → Tower) : (modTower s n f).repairs = s.repairs := rfl
@[simp] theorem modTower_spares (s : State) (n : Nat) (f : Tower → Tower) : (modTower s n f).spares = s.spares := rfl
@[simp] theorem modTower_disabledWays (s : State) (n : Nat) (f : Tower → Tower) : (modTower s n f).disabledWays = s.disabledWays := rfl
@[simp] theorem modTower_events (s : State) (n : Nat) (f : Tower → Tower) : (modTower s n f).events = s.events := rfl
@[simp] theorem modTower_eventIndex (s : State) (n : Nat) (f : Tower → Tower) : (modTower s n f).eventIndex = s.eventIndex := rfl

/-! ## `modFlight` -/

@[simp] theorem modFlight_flights (s : State) (id : Nat) (f : Flight → Flight) : (modFlight s id f).flights = s.flights.map (fun g => if g.id = id then f g else g) := rfl
@[simp] theorem modFlight_now (s : State) (id : Nat) (f : Flight → Flight) : (modFlight s id f).now = s.now := rfl
@[simp] theorem modFlight_turn (s : State) (id : Nat) (f : Flight → Flight) : (modFlight s id f).turn = s.turn := rfl
@[simp] theorem modFlight_draw (s : State) (id : Nat) (f : Flight → Flight) : (modFlight s id f).draw = s.draw := rfl
@[simp] theorem modFlight_nextId (s : State) (id : Nat) (f : Flight → Flight) : (modFlight s id f).nextId = s.nextId := rfl
@[simp] theorem modFlight_issue (s : State) (id : Nat) (f : Flight → Flight) : (modFlight s id f).issue = s.issue := rfl
@[simp] theorem modFlight_agenda (s : State) (id : Nat) (f : Flight → Flight) : (modFlight s id f).agenda = s.agenda := rfl
@[simp] theorem modFlight_inReset (s : State) (id : Nat) (f : Flight → Flight) : (modFlight s id f).inReset = s.inReset := rfl
@[simp] theorem modFlight_booted (s : State) (id : Nat) (f : Flight → Flight) : (modFlight s id f).booted = s.booted := rfl
@[simp] theorem modFlight_timeFree (s : State) (id : Nat) (f : Flight → Flight) : (modFlight s id f).timeFree = s.timeFree := rfl
@[simp] theorem modFlight_timeLoss (s : State) (id : Nat) (f : Flight → Flight) : (modFlight s id f).timeLoss = s.timeLoss := rfl
@[simp] theorem modFlight_timeRet (s : State) (id : Nat) (f : Flight → Flight) : (modFlight s id f).timeRet = s.timeRet := rfl
@[simp] theorem modFlight_lossAt (s : State) (id : Nat) (f : Flight → Flight) : (modFlight s id f).lossAt = s.lossAt := rfl
@[simp] theorem modFlight_returnAt (s : State) (id : Nat) (f : Flight → Flight) : (modFlight s id f).returnAt = s.returnAt := rfl
@[simp] theorem modFlight_bootFailed (s : State) (id : Nat) (f : Flight → Flight) : (modFlight s id f).bootFailed = s.bootFailed := rfl
@[simp] theorem modFlight_xlat (s : State) (id : Nat) (f : Flight → Flight) : (modFlight s id f).xlat = s.xlat := rfl
@[simp] theorem modFlight_mem (s : State) (id : Nat) (f : Flight → Flight) : (modFlight s id f).mem = s.mem := rfl
@[simp] theorem modFlight_lineKeys (s : State) (id : Nat) (f : Flight → Flight) : (modFlight s id f).lineKeys = s.lineKeys := rfl
@[simp] theorem modFlight_oddBytes (s : State) (id : Nat) (f : Flight → Flight) : (modFlight s id f).oddBytes = s.oddBytes := rfl
@[simp] theorem modFlight_poison (s : State) (id : Nat) (f : Flight → Flight) : (modFlight s id f).poison = s.poison := rfl
@[simp] theorem modFlight_towers (s : State) (id : Nat) (f : Flight → Flight) : (modFlight s id f).towers = s.towers := rfl
@[simp] theorem modFlight_columns (s : State) (id : Nat) (f : Flight → Flight) : (modFlight s id f).columns = s.columns := rfl
@[simp] theorem modFlight_cores (s : State) (id : Nat) (f : Flight → Flight) : (modFlight s id f).cores = s.cores := rfl
@[simp] theorem modFlight_chunks (s : State) (id : Nat) (f : Flight → Flight) : (modFlight s id f).chunks = s.chunks := rfl
@[simp] theorem modFlight_halvedAt (s : State) (id : Nat) (f : Flight → Flight) : (modFlight s id f).halvedAt = s.halvedAt := rfl
@[simp] theorem modFlight_wgs (s : State) (id : Nat) (f : Flight → Flight) : (modFlight s id f).wgs = s.wgs := rfl
@[simp] theorem modFlight_images (s : State) (id : Nat) (f : Flight → Flight) : (modFlight s id f).images = s.images := rfl
@[simp] theorem modFlight_reserves (s : State) (id : Nat) (f : Flight → Flight) : (modFlight s id f).reserves = s.reserves := rfl
@[simp] theorem modFlight_spaces (s : State) (id : Nat) (f : Flight → Flight) : (modFlight s id f).spaces = s.spaces := rfl
@[simp] theorem modFlight_regions (s : State) (id : Nat) (f : Flight → Flight) : (modFlight s id f).regions = s.regions := rfl
@[simp] theorem modFlight_past (s : State) (id : Nat) (f : Flight → Flight) : (modFlight s id f).past = s.past := rfl
@[simp] theorem modFlight_former (s : State) (id : Nat) (f : Flight → Flight) : (modFlight s id f).former = s.former := rfl
@[simp] theorem modFlight_copies (s : State) (id : Nat) (f : Flight → Flight) : (modFlight s id f).copies = s.copies := rfl
@[simp] theorem modFlight_commands (s : State) (id : Nat) (f : Flight → Flight) : (modFlight s id f).commands = s.commands := rfl
@[simp] theorem modFlight_lines (s : State) (id : Nat) (f : Flight → Flight) : (modFlight s id f).lines = s.lines := rfl
@[simp] theorem modFlight_dirs (s : State) (id : Nat) (f : Flight → Flight) : (modFlight s id f).dirs = s.dirs := rfl
@[simp] theorem modFlight_msgs (s : State) (id : Nat) (f : Flight → Flight) : (modFlight s id f).msgs = s.msgs := rfl
@[simp] theorem modFlight_playbill (s : State) (id : Nat) (f : Flight → Flight) : (modFlight s id f).playbill = s.playbill := rfl
@[simp] theorem modFlight_images7 (s : State) (id : Nat) (f : Flight → Flight) : (modFlight s id f).images7 = s.images7 := rfl
@[simp] theorem modFlight_conversions (s : State) (id : Nat) (f : Flight → Flight) : (modFlight s id f).conversions = s.conversions := rfl
@[simp] theorem modFlight_swaps (s : State) (id : Nat) (f : Flight → Flight) : (modFlight s id f).swaps = s.swaps := rfl
@[simp] theorem modFlight_links (s : State) (id : Nat) (f : Flight → Flight) : (modFlight s id f).links = s.links := rfl
@[simp] theorem modFlight_windows (s : State) (id : Nat) (f : Flight → Flight) : (modFlight s id f).windows = s.windows := rfl
@[simp] theorem modFlight_device (s : State) (id : Nat) (f : Flight → Flight) : (modFlight s id f).device = s.device := rfl
@[simp] theorem modFlight_hostBase (s : State) (id : Nat) (f : Flight → Flight) : (modFlight s id f).hostBase = s.hostBase := rfl
@[simp] theorem modFlight_hostKeys (s : State) (id : Nat) (f : Flight → Flight) : (modFlight s id f).hostKeys = s.hostKeys := rfl
@[simp] theorem modFlight_mailbox (s : State) (id : Nat) (f : Flight → Flight) : (modFlight s id f).mailbox = s.mailbox := rfl
@[simp] theorem modFlight_migq (s : State) (id : Nat) (f : Flight → Flight) : (modFlight s id f).migq = s.migq := rfl
@[simp] theorem modFlight_signals (s : State) (id : Nat) (f : Flight → Flight) : (modFlight s id f).signals = s.signals := rfl
@[simp] theorem modFlight_answers (s : State) (id : Nat) (f : Flight → Flight) : (modFlight s id f).answers = s.answers := rfl
@[simp] theorem modFlight_debugger (s : State) (id : Nat) (f : Flight → Flight) : (modFlight s id f).debugger = s.debugger := rfl
@[simp] theorem modFlight_keys (s : State) (id : Nat) (f : Flight → Flight) : (modFlight s id f).keys = s.keys := rfl
@[simp] theorem modFlight_formerKeys (s : State) (id : Nat) (f : Flight → Flight) : (modFlight s id f).formerKeys = s.formerKeys := rfl
@[simp] theorem modFlight_keks (s : State) (id : Nat) (f : Flight → Flight) : (modFlight s id f).keks = s.keks := rfl
@[simp] theorem modFlight_canopyKeys (s : State) (id : Nat) (f : Flight → Flight) : (modFlight s id f).canopyKeys = s.canopyKeys := rfl
@[simp] theorem modFlight_marks (s : State) (id : Nat) (f : Flight → Flight) : (modFlight s id f).marks = s.marks := rfl
@[simp] theorem modFlight_thresh (s : State) (id : Nat) (f : Flight → Flight) : (modFlight s id f).thresh = s.thresh := rfl
@[simp] theorem modFlight_repairs (s : State) (id : Nat) (f : Flight → Flight) : (modFlight s id f).repairs = s.repairs := rfl
@[simp] theorem modFlight_spares (s : State) (id : Nat) (f : Flight → Flight) : (modFlight s id f).spares = s.spares := rfl
@[simp] theorem modFlight_disabledWays (s : State) (id : Nat) (f : Flight → Flight) : (modFlight s id f).disabledWays = s.disabledWays := rfl
@[simp] theorem modFlight_events (s : State) (id : Nat) (f : Flight → Flight) : (modFlight s id f).events = s.events := rfl
@[simp] theorem modFlight_eventIndex (s : State) (id : Nat) (f : Flight → Flight) : (modFlight s id f).eventIndex = s.eventIndex := rfl

/-! ## `dropFlight` -/

@[simp] theorem dropFlight_flights (s : State) (id : Nat) : (dropFlight s id).flights = s.flights.filter (fun g => g.id != id) := rfl
@[simp] theorem dropFlight_now (s : State) (id : Nat) : (dropFlight s id).now = s.now := rfl
@[simp] theorem dropFlight_turn (s : State) (id : Nat) : (dropFlight s id).turn = s.turn := rfl
@[simp] theorem dropFlight_draw (s : State) (id : Nat) : (dropFlight s id).draw = s.draw := rfl
@[simp] theorem dropFlight_nextId (s : State) (id : Nat) : (dropFlight s id).nextId = s.nextId := rfl
@[simp] theorem dropFlight_issue (s : State) (id : Nat) : (dropFlight s id).issue = s.issue := rfl
@[simp] theorem dropFlight_agenda (s : State) (id : Nat) : (dropFlight s id).agenda = s.agenda := rfl
@[simp] theorem dropFlight_inReset (s : State) (id : Nat) : (dropFlight s id).inReset = s.inReset := rfl
@[simp] theorem dropFlight_booted (s : State) (id : Nat) : (dropFlight s id).booted = s.booted := rfl
@[simp] theorem dropFlight_timeFree (s : State) (id : Nat) : (dropFlight s id).timeFree = s.timeFree := rfl
@[simp] theorem dropFlight_timeLoss (s : State) (id : Nat) : (dropFlight s id).timeLoss = s.timeLoss := rfl
@[simp] theorem dropFlight_timeRet (s : State) (id : Nat) : (dropFlight s id).timeRet = s.timeRet := rfl
@[simp] theorem dropFlight_lossAt (s : State) (id : Nat) : (dropFlight s id).lossAt = s.lossAt := rfl
@[simp] theorem dropFlight_returnAt (s : State) (id : Nat) : (dropFlight s id).returnAt = s.returnAt := rfl
@[simp] theorem dropFlight_bootFailed (s : State) (id : Nat) : (dropFlight s id).bootFailed = s.bootFailed := rfl
@[simp] theorem dropFlight_xlat (s : State) (id : Nat) : (dropFlight s id).xlat = s.xlat := rfl
@[simp] theorem dropFlight_mem (s : State) (id : Nat) : (dropFlight s id).mem = s.mem := rfl
@[simp] theorem dropFlight_lineKeys (s : State) (id : Nat) : (dropFlight s id).lineKeys = s.lineKeys := rfl
@[simp] theorem dropFlight_oddBytes (s : State) (id : Nat) : (dropFlight s id).oddBytes = s.oddBytes := rfl
@[simp] theorem dropFlight_poison (s : State) (id : Nat) : (dropFlight s id).poison = s.poison := rfl
@[simp] theorem dropFlight_towers (s : State) (id : Nat) : (dropFlight s id).towers = s.towers := rfl
@[simp] theorem dropFlight_columns (s : State) (id : Nat) : (dropFlight s id).columns = s.columns := rfl
@[simp] theorem dropFlight_cores (s : State) (id : Nat) : (dropFlight s id).cores = s.cores := rfl
@[simp] theorem dropFlight_chunks (s : State) (id : Nat) : (dropFlight s id).chunks = s.chunks := rfl
@[simp] theorem dropFlight_halvedAt (s : State) (id : Nat) : (dropFlight s id).halvedAt = s.halvedAt := rfl
@[simp] theorem dropFlight_wgs (s : State) (id : Nat) : (dropFlight s id).wgs = s.wgs := rfl
@[simp] theorem dropFlight_images (s : State) (id : Nat) : (dropFlight s id).images = s.images := rfl
@[simp] theorem dropFlight_reserves (s : State) (id : Nat) : (dropFlight s id).reserves = s.reserves := rfl
@[simp] theorem dropFlight_spaces (s : State) (id : Nat) : (dropFlight s id).spaces = s.spaces := rfl
@[simp] theorem dropFlight_regions (s : State) (id : Nat) : (dropFlight s id).regions = s.regions := rfl
@[simp] theorem dropFlight_past (s : State) (id : Nat) : (dropFlight s id).past = s.past := rfl
@[simp] theorem dropFlight_former (s : State) (id : Nat) : (dropFlight s id).former = s.former := rfl
@[simp] theorem dropFlight_copies (s : State) (id : Nat) : (dropFlight s id).copies = s.copies := rfl
@[simp] theorem dropFlight_commands (s : State) (id : Nat) : (dropFlight s id).commands = s.commands := rfl
@[simp] theorem dropFlight_lines (s : State) (id : Nat) : (dropFlight s id).lines = s.lines := rfl
@[simp] theorem dropFlight_dirs (s : State) (id : Nat) : (dropFlight s id).dirs = s.dirs := rfl
@[simp] theorem dropFlight_msgs (s : State) (id : Nat) : (dropFlight s id).msgs = s.msgs := rfl
@[simp] theorem dropFlight_playbill (s : State) (id : Nat) : (dropFlight s id).playbill = s.playbill := rfl
@[simp] theorem dropFlight_images7 (s : State) (id : Nat) : (dropFlight s id).images7 = s.images7 := rfl
@[simp] theorem dropFlight_conversions (s : State) (id : Nat) : (dropFlight s id).conversions = s.conversions := rfl
@[simp] theorem dropFlight_swaps (s : State) (id : Nat) : (dropFlight s id).swaps = s.swaps := rfl
@[simp] theorem dropFlight_links (s : State) (id : Nat) : (dropFlight s id).links = s.links := rfl
@[simp] theorem dropFlight_windows (s : State) (id : Nat) : (dropFlight s id).windows = s.windows := rfl
@[simp] theorem dropFlight_device (s : State) (id : Nat) : (dropFlight s id).device = s.device := rfl
@[simp] theorem dropFlight_hostBase (s : State) (id : Nat) : (dropFlight s id).hostBase = s.hostBase := rfl
@[simp] theorem dropFlight_hostKeys (s : State) (id : Nat) : (dropFlight s id).hostKeys = s.hostKeys := rfl
@[simp] theorem dropFlight_mailbox (s : State) (id : Nat) : (dropFlight s id).mailbox = s.mailbox := rfl
@[simp] theorem dropFlight_migq (s : State) (id : Nat) : (dropFlight s id).migq = s.migq := rfl
@[simp] theorem dropFlight_signals (s : State) (id : Nat) : (dropFlight s id).signals = s.signals := rfl
@[simp] theorem dropFlight_answers (s : State) (id : Nat) : (dropFlight s id).answers = s.answers := rfl
@[simp] theorem dropFlight_debugger (s : State) (id : Nat) : (dropFlight s id).debugger = s.debugger := rfl
@[simp] theorem dropFlight_keys (s : State) (id : Nat) : (dropFlight s id).keys = s.keys := rfl
@[simp] theorem dropFlight_formerKeys (s : State) (id : Nat) : (dropFlight s id).formerKeys = s.formerKeys := rfl
@[simp] theorem dropFlight_keks (s : State) (id : Nat) : (dropFlight s id).keks = s.keks := rfl
@[simp] theorem dropFlight_canopyKeys (s : State) (id : Nat) : (dropFlight s id).canopyKeys = s.canopyKeys := rfl
@[simp] theorem dropFlight_marks (s : State) (id : Nat) : (dropFlight s id).marks = s.marks := rfl
@[simp] theorem dropFlight_thresh (s : State) (id : Nat) : (dropFlight s id).thresh = s.thresh := rfl
@[simp] theorem dropFlight_repairs (s : State) (id : Nat) : (dropFlight s id).repairs = s.repairs := rfl
@[simp] theorem dropFlight_spares (s : State) (id : Nat) : (dropFlight s id).spares = s.spares := rfl
@[simp] theorem dropFlight_disabledWays (s : State) (id : Nat) : (dropFlight s id).disabledWays = s.disabledWays := rfl
@[simp] theorem dropFlight_events (s : State) (id : Nat) : (dropFlight s id).events = s.events := rfl
@[simp] theorem dropFlight_eventIndex (s : State) (id : Nat) : (dropFlight s id).eventIndex = s.eventIndex := rfl

/-! ## `memWrite` -/

@[simp] theorem memWrite_mem (s : State) (a : Nat) (bs : List Byte) : (memWrite s a bs).mem = Memory.writeN s.mem a bs := rfl
@[simp] theorem memWrite_now (s : State) (a : Nat) (bs : List Byte) : (memWrite s a bs).now = s.now := rfl
@[simp] theorem memWrite_turn (s : State) (a : Nat) (bs : List Byte) : (memWrite s a bs).turn = s.turn := rfl
@[simp] theorem memWrite_draw (s : State) (a : Nat) (bs : List Byte) : (memWrite s a bs).draw = s.draw := rfl
@[simp] theorem memWrite_nextId (s : State) (a : Nat) (bs : List Byte) : (memWrite s a bs).nextId = s.nextId := rfl
@[simp] theorem memWrite_issue (s : State) (a : Nat) (bs : List Byte) : (memWrite s a bs).issue = s.issue := rfl
@[simp] theorem memWrite_agenda (s : State) (a : Nat) (bs : List Byte) : (memWrite s a bs).agenda = s.agenda := rfl
@[simp] theorem memWrite_inReset (s : State) (a : Nat) (bs : List Byte) : (memWrite s a bs).inReset = s.inReset := rfl
@[simp] theorem memWrite_booted (s : State) (a : Nat) (bs : List Byte) : (memWrite s a bs).booted = s.booted := rfl
@[simp] theorem memWrite_timeFree (s : State) (a : Nat) (bs : List Byte) : (memWrite s a bs).timeFree = s.timeFree := rfl
@[simp] theorem memWrite_timeLoss (s : State) (a : Nat) (bs : List Byte) : (memWrite s a bs).timeLoss = s.timeLoss := rfl
@[simp] theorem memWrite_timeRet (s : State) (a : Nat) (bs : List Byte) : (memWrite s a bs).timeRet = s.timeRet := rfl
@[simp] theorem memWrite_lossAt (s : State) (a : Nat) (bs : List Byte) : (memWrite s a bs).lossAt = s.lossAt := rfl
@[simp] theorem memWrite_returnAt (s : State) (a : Nat) (bs : List Byte) : (memWrite s a bs).returnAt = s.returnAt := rfl
@[simp] theorem memWrite_bootFailed (s : State) (a : Nat) (bs : List Byte) : (memWrite s a bs).bootFailed = s.bootFailed := rfl
@[simp] theorem memWrite_xlat (s : State) (a : Nat) (bs : List Byte) : (memWrite s a bs).xlat = s.xlat := rfl
@[simp] theorem memWrite_lineKeys (s : State) (a : Nat) (bs : List Byte) : (memWrite s a bs).lineKeys = s.lineKeys := rfl
@[simp] theorem memWrite_oddBytes (s : State) (a : Nat) (bs : List Byte) : (memWrite s a bs).oddBytes = s.oddBytes := rfl
@[simp] theorem memWrite_poison (s : State) (a : Nat) (bs : List Byte) : (memWrite s a bs).poison = s.poison := rfl
@[simp] theorem memWrite_towers (s : State) (a : Nat) (bs : List Byte) : (memWrite s a bs).towers = s.towers := rfl
@[simp] theorem memWrite_columns (s : State) (a : Nat) (bs : List Byte) : (memWrite s a bs).columns = s.columns := rfl
@[simp] theorem memWrite_cores (s : State) (a : Nat) (bs : List Byte) : (memWrite s a bs).cores = s.cores := rfl
@[simp] theorem memWrite_chunks (s : State) (a : Nat) (bs : List Byte) : (memWrite s a bs).chunks = s.chunks := rfl
@[simp] theorem memWrite_halvedAt (s : State) (a : Nat) (bs : List Byte) : (memWrite s a bs).halvedAt = s.halvedAt := rfl
@[simp] theorem memWrite_wgs (s : State) (a : Nat) (bs : List Byte) : (memWrite s a bs).wgs = s.wgs := rfl
@[simp] theorem memWrite_images (s : State) (a : Nat) (bs : List Byte) : (memWrite s a bs).images = s.images := rfl
@[simp] theorem memWrite_reserves (s : State) (a : Nat) (bs : List Byte) : (memWrite s a bs).reserves = s.reserves := rfl
@[simp] theorem memWrite_spaces (s : State) (a : Nat) (bs : List Byte) : (memWrite s a bs).spaces = s.spaces := rfl
@[simp] theorem memWrite_regions (s : State) (a : Nat) (bs : List Byte) : (memWrite s a bs).regions = s.regions := rfl
@[simp] theorem memWrite_flights (s : State) (a : Nat) (bs : List Byte) : (memWrite s a bs).flights = s.flights := rfl
@[simp] theorem memWrite_past (s : State) (a : Nat) (bs : List Byte) : (memWrite s a bs).past = s.past := rfl
@[simp] theorem memWrite_former (s : State) (a : Nat) (bs : List Byte) : (memWrite s a bs).former = s.former := rfl
@[simp] theorem memWrite_copies (s : State) (a : Nat) (bs : List Byte) : (memWrite s a bs).copies = s.copies := rfl
@[simp] theorem memWrite_commands (s : State) (a : Nat) (bs : List Byte) : (memWrite s a bs).commands = s.commands := rfl
@[simp] theorem memWrite_lines (s : State) (a : Nat) (bs : List Byte) : (memWrite s a bs).lines = s.lines := rfl
@[simp] theorem memWrite_dirs (s : State) (a : Nat) (bs : List Byte) : (memWrite s a bs).dirs = s.dirs := rfl
@[simp] theorem memWrite_msgs (s : State) (a : Nat) (bs : List Byte) : (memWrite s a bs).msgs = s.msgs := rfl
@[simp] theorem memWrite_playbill (s : State) (a : Nat) (bs : List Byte) : (memWrite s a bs).playbill = s.playbill := rfl
@[simp] theorem memWrite_images7 (s : State) (a : Nat) (bs : List Byte) : (memWrite s a bs).images7 = s.images7 := rfl
@[simp] theorem memWrite_conversions (s : State) (a : Nat) (bs : List Byte) : (memWrite s a bs).conversions = s.conversions := rfl
@[simp] theorem memWrite_swaps (s : State) (a : Nat) (bs : List Byte) : (memWrite s a bs).swaps = s.swaps := rfl
@[simp] theorem memWrite_links (s : State) (a : Nat) (bs : List Byte) : (memWrite s a bs).links = s.links := rfl
@[simp] theorem memWrite_windows (s : State) (a : Nat) (bs : List Byte) : (memWrite s a bs).windows = s.windows := rfl
@[simp] theorem memWrite_device (s : State) (a : Nat) (bs : List Byte) : (memWrite s a bs).device = s.device := rfl
@[simp] theorem memWrite_hostBase (s : State) (a : Nat) (bs : List Byte) : (memWrite s a bs).hostBase = s.hostBase := rfl
@[simp] theorem memWrite_hostKeys (s : State) (a : Nat) (bs : List Byte) : (memWrite s a bs).hostKeys = s.hostKeys := rfl
@[simp] theorem memWrite_mailbox (s : State) (a : Nat) (bs : List Byte) : (memWrite s a bs).mailbox = s.mailbox := rfl
@[simp] theorem memWrite_migq (s : State) (a : Nat) (bs : List Byte) : (memWrite s a bs).migq = s.migq := rfl
@[simp] theorem memWrite_signals (s : State) (a : Nat) (bs : List Byte) : (memWrite s a bs).signals = s.signals := rfl
@[simp] theorem memWrite_answers (s : State) (a : Nat) (bs : List Byte) : (memWrite s a bs).answers = s.answers := rfl
@[simp] theorem memWrite_debugger (s : State) (a : Nat) (bs : List Byte) : (memWrite s a bs).debugger = s.debugger := rfl
@[simp] theorem memWrite_keys (s : State) (a : Nat) (bs : List Byte) : (memWrite s a bs).keys = s.keys := rfl
@[simp] theorem memWrite_formerKeys (s : State) (a : Nat) (bs : List Byte) : (memWrite s a bs).formerKeys = s.formerKeys := rfl
@[simp] theorem memWrite_keks (s : State) (a : Nat) (bs : List Byte) : (memWrite s a bs).keks = s.keks := rfl
@[simp] theorem memWrite_canopyKeys (s : State) (a : Nat) (bs : List Byte) : (memWrite s a bs).canopyKeys = s.canopyKeys := rfl
@[simp] theorem memWrite_marks (s : State) (a : Nat) (bs : List Byte) : (memWrite s a bs).marks = s.marks := rfl
@[simp] theorem memWrite_thresh (s : State) (a : Nat) (bs : List Byte) : (memWrite s a bs).thresh = s.thresh := rfl
@[simp] theorem memWrite_repairs (s : State) (a : Nat) (bs : List Byte) : (memWrite s a bs).repairs = s.repairs := rfl
@[simp] theorem memWrite_spares (s : State) (a : Nat) (bs : List Byte) : (memWrite s a bs).spares = s.spares := rfl
@[simp] theorem memWrite_disabledWays (s : State) (a : Nat) (bs : List Byte) : (memWrite s a bs).disabledWays = s.disabledWays := rfl
@[simp] theorem memWrite_events (s : State) (a : Nat) (bs : List Byte) : (memWrite s a bs).events = s.events := rfl
@[simp] theorem memWrite_eventIndex (s : State) (a : Nat) (bs : List Byte) : (memWrite s a bs).eventIndex = s.eventIndex := rfl

/-! ## `clearPoison` -/

@[simp] theorem clearPoison_now (s : State) (gs : List Nat) : (clearPoison s gs).now = s.now := rfl
@[simp] theorem clearPoison_turn (s : State) (gs : List Nat) : (clearPoison s gs).turn = s.turn := rfl
@[simp] theorem clearPoison_draw (s : State) (gs : List Nat) : (clearPoison s gs).draw = s.draw := rfl
@[simp] theorem clearPoison_nextId (s : State) (gs : List Nat) : (clearPoison s gs).nextId = s.nextId := rfl
@[simp] theorem clearPoison_issue (s : State) (gs : List Nat) : (clearPoison s gs).issue = s.issue := rfl
@[simp] theorem clearPoison_agenda (s : State) (gs : List Nat) : (clearPoison s gs).agenda = s.agenda := rfl
@[simp] theorem clearPoison_inReset (s : State) (gs : List Nat) : (clearPoison s gs).inReset = s.inReset := rfl
@[simp] theorem clearPoison_booted (s : State) (gs : List Nat) : (clearPoison s gs).booted = s.booted := rfl
@[simp] theorem clearPoison_timeFree (s : State) (gs : List Nat) : (clearPoison s gs).timeFree = s.timeFree := rfl
@[simp] theorem clearPoison_timeLoss (s : State) (gs : List Nat) : (clearPoison s gs).timeLoss = s.timeLoss := rfl
@[simp] theorem clearPoison_timeRet (s : State) (gs : List Nat) : (clearPoison s gs).timeRet = s.timeRet := rfl
@[simp] theorem clearPoison_lossAt (s : State) (gs : List Nat) : (clearPoison s gs).lossAt = s.lossAt := rfl
@[simp] theorem clearPoison_returnAt (s : State) (gs : List Nat) : (clearPoison s gs).returnAt = s.returnAt := rfl
@[simp] theorem clearPoison_bootFailed (s : State) (gs : List Nat) : (clearPoison s gs).bootFailed = s.bootFailed := rfl
@[simp] theorem clearPoison_xlat (s : State) (gs : List Nat) : (clearPoison s gs).xlat = s.xlat := rfl
@[simp] theorem clearPoison_mem (s : State) (gs : List Nat) : (clearPoison s gs).mem = s.mem := rfl
@[simp] theorem clearPoison_lineKeys (s : State) (gs : List Nat) : (clearPoison s gs).lineKeys = s.lineKeys := rfl
@[simp] theorem clearPoison_oddBytes (s : State) (gs : List Nat) : (clearPoison s gs).oddBytes = s.oddBytes := rfl
@[simp] theorem clearPoison_towers (s : State) (gs : List Nat) : (clearPoison s gs).towers = s.towers := rfl
@[simp] theorem clearPoison_columns (s : State) (gs : List Nat) : (clearPoison s gs).columns = s.columns := rfl
@[simp] theorem clearPoison_cores (s : State) (gs : List Nat) : (clearPoison s gs).cores = s.cores := rfl
@[simp] theorem clearPoison_chunks (s : State) (gs : List Nat) : (clearPoison s gs).chunks = s.chunks := rfl
@[simp] theorem clearPoison_halvedAt (s : State) (gs : List Nat) : (clearPoison s gs).halvedAt = s.halvedAt := rfl
@[simp] theorem clearPoison_wgs (s : State) (gs : List Nat) : (clearPoison s gs).wgs = s.wgs := rfl
@[simp] theorem clearPoison_images (s : State) (gs : List Nat) : (clearPoison s gs).images = s.images := rfl
@[simp] theorem clearPoison_reserves (s : State) (gs : List Nat) : (clearPoison s gs).reserves = s.reserves := rfl
@[simp] theorem clearPoison_spaces (s : State) (gs : List Nat) : (clearPoison s gs).spaces = s.spaces := rfl
@[simp] theorem clearPoison_regions (s : State) (gs : List Nat) : (clearPoison s gs).regions = s.regions := rfl
@[simp] theorem clearPoison_flights (s : State) (gs : List Nat) : (clearPoison s gs).flights = s.flights := rfl
@[simp] theorem clearPoison_past (s : State) (gs : List Nat) : (clearPoison s gs).past = s.past := rfl
@[simp] theorem clearPoison_former (s : State) (gs : List Nat) : (clearPoison s gs).former = s.former := rfl
@[simp] theorem clearPoison_copies (s : State) (gs : List Nat) : (clearPoison s gs).copies = s.copies := rfl
@[simp] theorem clearPoison_commands (s : State) (gs : List Nat) : (clearPoison s gs).commands = s.commands := rfl
@[simp] theorem clearPoison_lines (s : State) (gs : List Nat) : (clearPoison s gs).lines = s.lines := rfl
@[simp] theorem clearPoison_dirs (s : State) (gs : List Nat) : (clearPoison s gs).dirs = s.dirs := rfl
@[simp] theorem clearPoison_msgs (s : State) (gs : List Nat) : (clearPoison s gs).msgs = s.msgs := rfl
@[simp] theorem clearPoison_playbill (s : State) (gs : List Nat) : (clearPoison s gs).playbill = s.playbill := rfl
@[simp] theorem clearPoison_images7 (s : State) (gs : List Nat) : (clearPoison s gs).images7 = s.images7 := rfl
@[simp] theorem clearPoison_conversions (s : State) (gs : List Nat) : (clearPoison s gs).conversions = s.conversions := rfl
@[simp] theorem clearPoison_swaps (s : State) (gs : List Nat) : (clearPoison s gs).swaps = s.swaps := rfl
@[simp] theorem clearPoison_links (s : State) (gs : List Nat) : (clearPoison s gs).links = s.links := rfl
@[simp] theorem clearPoison_windows (s : State) (gs : List Nat) : (clearPoison s gs).windows = s.windows := rfl
@[simp] theorem clearPoison_device (s : State) (gs : List Nat) : (clearPoison s gs).device = s.device := rfl
@[simp] theorem clearPoison_hostBase (s : State) (gs : List Nat) : (clearPoison s gs).hostBase = s.hostBase := rfl
@[simp] theorem clearPoison_hostKeys (s : State) (gs : List Nat) : (clearPoison s gs).hostKeys = s.hostKeys := rfl
@[simp] theorem clearPoison_mailbox (s : State) (gs : List Nat) : (clearPoison s gs).mailbox = s.mailbox := rfl
@[simp] theorem clearPoison_migq (s : State) (gs : List Nat) : (clearPoison s gs).migq = s.migq := rfl
@[simp] theorem clearPoison_signals (s : State) (gs : List Nat) : (clearPoison s gs).signals = s.signals := rfl
@[simp] theorem clearPoison_answers (s : State) (gs : List Nat) : (clearPoison s gs).answers = s.answers := rfl
@[simp] theorem clearPoison_debugger (s : State) (gs : List Nat) : (clearPoison s gs).debugger = s.debugger := rfl
@[simp] theorem clearPoison_keys (s : State) (gs : List Nat) : (clearPoison s gs).keys = s.keys := rfl
@[simp] theorem clearPoison_formerKeys (s : State) (gs : List Nat) : (clearPoison s gs).formerKeys = s.formerKeys := rfl
@[simp] theorem clearPoison_keks (s : State) (gs : List Nat) : (clearPoison s gs).keks = s.keks := rfl
@[simp] theorem clearPoison_canopyKeys (s : State) (gs : List Nat) : (clearPoison s gs).canopyKeys = s.canopyKeys := rfl
@[simp] theorem clearPoison_marks (s : State) (gs : List Nat) : (clearPoison s gs).marks = s.marks := rfl
@[simp] theorem clearPoison_thresh (s : State) (gs : List Nat) : (clearPoison s gs).thresh = s.thresh := rfl
@[simp] theorem clearPoison_repairs (s : State) (gs : List Nat) : (clearPoison s gs).repairs = s.repairs := rfl
@[simp] theorem clearPoison_spares (s : State) (gs : List Nat) : (clearPoison s gs).spares = s.spares := rfl
@[simp] theorem clearPoison_disabledWays (s : State) (gs : List Nat) : (clearPoison s gs).disabledWays = s.disabledWays := rfl
@[simp] theorem clearPoison_events (s : State) (gs : List Nat) : (clearPoison s gs).events = s.events := rfl
@[simp] theorem clearPoison_eventIndex (s : State) (gs : List Nat) : (clearPoison s gs).eventIndex = s.eventIndex := rfl

/-! ## `markPoison` -/

@[simp] theorem markPoison_now (s : State) (gs : List Nat) : (markPoison s gs).now = s.now := rfl
@[simp] theorem markPoison_turn (s : State) (gs : List Nat) : (markPoison s gs).turn = s.turn := rfl
@[simp] theorem markPoison_draw (s : State) (gs : List Nat) : (markPoison s gs).draw = s.draw := rfl
@[simp] theorem markPoison_nextId (s : State) (gs : List Nat) : (markPoison s gs).nextId = s.nextId := rfl
@[simp] theorem markPoison_issue (s : State) (gs : List Nat) : (markPoison s gs).issue = s.issue := rfl
@[simp] theorem markPoison_agenda (s : State) (gs : List Nat) : (markPoison s gs).agenda = s.agenda := rfl
@[simp] theorem markPoison_inReset (s : State) (gs : List Nat) : (markPoison s gs).inReset = s.inReset := rfl
@[simp] theorem markPoison_booted (s : State) (gs : List Nat) : (markPoison s gs).booted = s.booted := rfl
@[simp] theorem markPoison_timeFree (s : State) (gs : List Nat) : (markPoison s gs).timeFree = s.timeFree := rfl
@[simp] theorem markPoison_timeLoss (s : State) (gs : List Nat) : (markPoison s gs).timeLoss = s.timeLoss := rfl
@[simp] theorem markPoison_timeRet (s : State) (gs : List Nat) : (markPoison s gs).timeRet = s.timeRet := rfl
@[simp] theorem markPoison_lossAt (s : State) (gs : List Nat) : (markPoison s gs).lossAt = s.lossAt := rfl
@[simp] theorem markPoison_returnAt (s : State) (gs : List Nat) : (markPoison s gs).returnAt = s.returnAt := rfl
@[simp] theorem markPoison_bootFailed (s : State) (gs : List Nat) : (markPoison s gs).bootFailed = s.bootFailed := rfl
@[simp] theorem markPoison_xlat (s : State) (gs : List Nat) : (markPoison s gs).xlat = s.xlat := rfl
@[simp] theorem markPoison_mem (s : State) (gs : List Nat) : (markPoison s gs).mem = s.mem := rfl
@[simp] theorem markPoison_lineKeys (s : State) (gs : List Nat) : (markPoison s gs).lineKeys = s.lineKeys := rfl
@[simp] theorem markPoison_oddBytes (s : State) (gs : List Nat) : (markPoison s gs).oddBytes = s.oddBytes := rfl
@[simp] theorem markPoison_towers (s : State) (gs : List Nat) : (markPoison s gs).towers = s.towers := rfl
@[simp] theorem markPoison_columns (s : State) (gs : List Nat) : (markPoison s gs).columns = s.columns := rfl
@[simp] theorem markPoison_cores (s : State) (gs : List Nat) : (markPoison s gs).cores = s.cores := rfl
@[simp] theorem markPoison_chunks (s : State) (gs : List Nat) : (markPoison s gs).chunks = s.chunks := rfl
@[simp] theorem markPoison_halvedAt (s : State) (gs : List Nat) : (markPoison s gs).halvedAt = s.halvedAt := rfl
@[simp] theorem markPoison_wgs (s : State) (gs : List Nat) : (markPoison s gs).wgs = s.wgs := rfl
@[simp] theorem markPoison_images (s : State) (gs : List Nat) : (markPoison s gs).images = s.images := rfl
@[simp] theorem markPoison_reserves (s : State) (gs : List Nat) : (markPoison s gs).reserves = s.reserves := rfl
@[simp] theorem markPoison_spaces (s : State) (gs : List Nat) : (markPoison s gs).spaces = s.spaces := rfl
@[simp] theorem markPoison_regions (s : State) (gs : List Nat) : (markPoison s gs).regions = s.regions := rfl
@[simp] theorem markPoison_flights (s : State) (gs : List Nat) : (markPoison s gs).flights = s.flights := rfl
@[simp] theorem markPoison_past (s : State) (gs : List Nat) : (markPoison s gs).past = s.past := rfl
@[simp] theorem markPoison_former (s : State) (gs : List Nat) : (markPoison s gs).former = s.former := rfl
@[simp] theorem markPoison_copies (s : State) (gs : List Nat) : (markPoison s gs).copies = s.copies := rfl
@[simp] theorem markPoison_commands (s : State) (gs : List Nat) : (markPoison s gs).commands = s.commands := rfl
@[simp] theorem markPoison_lines (s : State) (gs : List Nat) : (markPoison s gs).lines = s.lines := rfl
@[simp] theorem markPoison_dirs (s : State) (gs : List Nat) : (markPoison s gs).dirs = s.dirs := rfl
@[simp] theorem markPoison_msgs (s : State) (gs : List Nat) : (markPoison s gs).msgs = s.msgs := rfl
@[simp] theorem markPoison_playbill (s : State) (gs : List Nat) : (markPoison s gs).playbill = s.playbill := rfl
@[simp] theorem markPoison_images7 (s : State) (gs : List Nat) : (markPoison s gs).images7 = s.images7 := rfl
@[simp] theorem markPoison_conversions (s : State) (gs : List Nat) : (markPoison s gs).conversions = s.conversions := rfl
@[simp] theorem markPoison_swaps (s : State) (gs : List Nat) : (markPoison s gs).swaps = s.swaps := rfl
@[simp] theorem markPoison_links (s : State) (gs : List Nat) : (markPoison s gs).links = s.links := rfl
@[simp] theorem markPoison_windows (s : State) (gs : List Nat) : (markPoison s gs).windows = s.windows := rfl
@[simp] theorem markPoison_device (s : State) (gs : List Nat) : (markPoison s gs).device = s.device := rfl
@[simp] theorem markPoison_hostBase (s : State) (gs : List Nat) : (markPoison s gs).hostBase = s.hostBase := rfl
@[simp] theorem markPoison_hostKeys (s : State) (gs : List Nat) : (markPoison s gs).hostKeys = s.hostKeys := rfl
@[simp] theorem markPoison_mailbox (s : State) (gs : List Nat) : (markPoison s gs).mailbox = s.mailbox := rfl
@[simp] theorem markPoison_migq (s : State) (gs : List Nat) : (markPoison s gs).migq = s.migq := rfl
@[simp] theorem markPoison_signals (s : State) (gs : List Nat) : (markPoison s gs).signals = s.signals := rfl
@[simp] theorem markPoison_answers (s : State) (gs : List Nat) : (markPoison s gs).answers = s.answers := rfl
@[simp] theorem markPoison_debugger (s : State) (gs : List Nat) : (markPoison s gs).debugger = s.debugger := rfl
@[simp] theorem markPoison_keys (s : State) (gs : List Nat) : (markPoison s gs).keys = s.keys := rfl
@[simp] theorem markPoison_formerKeys (s : State) (gs : List Nat) : (markPoison s gs).formerKeys = s.formerKeys := rfl
@[simp] theorem markPoison_keks (s : State) (gs : List Nat) : (markPoison s gs).keks = s.keks := rfl
@[simp] theorem markPoison_canopyKeys (s : State) (gs : List Nat) : (markPoison s gs).canopyKeys = s.canopyKeys := rfl
@[simp] theorem markPoison_marks (s : State) (gs : List Nat) : (markPoison s gs).marks = s.marks := rfl
@[simp] theorem markPoison_thresh (s : State) (gs : List Nat) : (markPoison s gs).thresh = s.thresh := rfl
@[simp] theorem markPoison_repairs (s : State) (gs : List Nat) : (markPoison s gs).repairs = s.repairs := rfl
@[simp] theorem markPoison_spares (s : State) (gs : List Nat) : (markPoison s gs).spares = s.spares := rfl
@[simp] theorem markPoison_disabledWays (s : State) (gs : List Nat) : (markPoison s gs).disabledWays = s.disabledWays := rfl
@[simp] theorem markPoison_events (s : State) (gs : List Nat) : (markPoison s gs).events = s.events := rfl
@[simp] theorem markPoison_eventIndex (s : State) (gs : List Nat) : (markPoison s gs).eventIndex = s.eventIndex := rfl

/-! ## `clobber` -/

@[simp] theorem clobber_now (s : State) (x : SplitId) (r : RegRef) (m : Mask) : (clobber s x r m).now = s.now := rfl
@[simp] theorem clobber_turn (s : State) (x : SplitId) (r : RegRef) (m : Mask) : (clobber s x r m).turn = s.turn := rfl
@[simp] theorem clobber_draw (s : State) (x : SplitId) (r : RegRef) (m : Mask) : (clobber s x r m).draw = s.draw := rfl
@[simp] theorem clobber_nextId (s : State) (x : SplitId) (r : RegRef) (m : Mask) : (clobber s x r m).nextId = s.nextId := rfl
@[simp] theorem clobber_issue (s : State) (x : SplitId) (r : RegRef) (m : Mask) : (clobber s x r m).issue = s.issue := rfl
@[simp] theorem clobber_agenda (s : State) (x : SplitId) (r : RegRef) (m : Mask) : (clobber s x r m).agenda = s.agenda := rfl
@[simp] theorem clobber_inReset (s : State) (x : SplitId) (r : RegRef) (m : Mask) : (clobber s x r m).inReset = s.inReset := rfl
@[simp] theorem clobber_booted (s : State) (x : SplitId) (r : RegRef) (m : Mask) : (clobber s x r m).booted = s.booted := rfl
@[simp] theorem clobber_timeFree (s : State) (x : SplitId) (r : RegRef) (m : Mask) : (clobber s x r m).timeFree = s.timeFree := rfl
@[simp] theorem clobber_timeLoss (s : State) (x : SplitId) (r : RegRef) (m : Mask) : (clobber s x r m).timeLoss = s.timeLoss := rfl
@[simp] theorem clobber_timeRet (s : State) (x : SplitId) (r : RegRef) (m : Mask) : (clobber s x r m).timeRet = s.timeRet := rfl
@[simp] theorem clobber_lossAt (s : State) (x : SplitId) (r : RegRef) (m : Mask) : (clobber s x r m).lossAt = s.lossAt := rfl
@[simp] theorem clobber_returnAt (s : State) (x : SplitId) (r : RegRef) (m : Mask) : (clobber s x r m).returnAt = s.returnAt := rfl
@[simp] theorem clobber_bootFailed (s : State) (x : SplitId) (r : RegRef) (m : Mask) : (clobber s x r m).bootFailed = s.bootFailed := rfl
@[simp] theorem clobber_xlat (s : State) (x : SplitId) (r : RegRef) (m : Mask) : (clobber s x r m).xlat = s.xlat := rfl
@[simp] theorem clobber_mem (s : State) (x : SplitId) (r : RegRef) (m : Mask) : (clobber s x r m).mem = s.mem := rfl
@[simp] theorem clobber_lineKeys (s : State) (x : SplitId) (r : RegRef) (m : Mask) : (clobber s x r m).lineKeys = s.lineKeys := rfl
@[simp] theorem clobber_oddBytes (s : State) (x : SplitId) (r : RegRef) (m : Mask) : (clobber s x r m).oddBytes = s.oddBytes := rfl
@[simp] theorem clobber_poison (s : State) (x : SplitId) (r : RegRef) (m : Mask) : (clobber s x r m).poison = s.poison := rfl
@[simp] theorem clobber_towers (s : State) (x : SplitId) (r : RegRef) (m : Mask) : (clobber s x r m).towers = s.towers := rfl
@[simp] theorem clobber_columns (s : State) (x : SplitId) (r : RegRef) (m : Mask) : (clobber s x r m).columns = s.columns := rfl
@[simp] theorem clobber_cores (s : State) (x : SplitId) (r : RegRef) (m : Mask) : (clobber s x r m).cores = s.cores := rfl
@[simp] theorem clobber_chunks (s : State) (x : SplitId) (r : RegRef) (m : Mask) : (clobber s x r m).chunks = s.chunks := rfl
@[simp] theorem clobber_halvedAt (s : State) (x : SplitId) (r : RegRef) (m : Mask) : (clobber s x r m).halvedAt = s.halvedAt := rfl
@[simp] theorem clobber_wgs (s : State) (x : SplitId) (r : RegRef) (m : Mask) : (clobber s x r m).wgs = s.wgs := rfl
@[simp] theorem clobber_images (s : State) (x : SplitId) (r : RegRef) (m : Mask) : (clobber s x r m).images = s.images := rfl
@[simp] theorem clobber_reserves (s : State) (x : SplitId) (r : RegRef) (m : Mask) : (clobber s x r m).reserves = s.reserves := rfl
@[simp] theorem clobber_spaces (s : State) (x : SplitId) (r : RegRef) (m : Mask) : (clobber s x r m).spaces = s.spaces := rfl
@[simp] theorem clobber_regions (s : State) (x : SplitId) (r : RegRef) (m : Mask) : (clobber s x r m).regions = s.regions := rfl
@[simp] theorem clobber_past (s : State) (x : SplitId) (r : RegRef) (m : Mask) : (clobber s x r m).past = s.past := rfl
@[simp] theorem clobber_former (s : State) (x : SplitId) (r : RegRef) (m : Mask) : (clobber s x r m).former = s.former := rfl
@[simp] theorem clobber_copies (s : State) (x : SplitId) (r : RegRef) (m : Mask) : (clobber s x r m).copies = s.copies := rfl
@[simp] theorem clobber_commands (s : State) (x : SplitId) (r : RegRef) (m : Mask) : (clobber s x r m).commands = s.commands := rfl
@[simp] theorem clobber_lines (s : State) (x : SplitId) (r : RegRef) (m : Mask) : (clobber s x r m).lines = s.lines := rfl
@[simp] theorem clobber_dirs (s : State) (x : SplitId) (r : RegRef) (m : Mask) : (clobber s x r m).dirs = s.dirs := rfl
@[simp] theorem clobber_msgs (s : State) (x : SplitId) (r : RegRef) (m : Mask) : (clobber s x r m).msgs = s.msgs := rfl
@[simp] theorem clobber_playbill (s : State) (x : SplitId) (r : RegRef) (m : Mask) : (clobber s x r m).playbill = s.playbill := rfl
@[simp] theorem clobber_images7 (s : State) (x : SplitId) (r : RegRef) (m : Mask) : (clobber s x r m).images7 = s.images7 := rfl
@[simp] theorem clobber_conversions (s : State) (x : SplitId) (r : RegRef) (m : Mask) : (clobber s x r m).conversions = s.conversions := rfl
@[simp] theorem clobber_swaps (s : State) (x : SplitId) (r : RegRef) (m : Mask) : (clobber s x r m).swaps = s.swaps := rfl
@[simp] theorem clobber_links (s : State) (x : SplitId) (r : RegRef) (m : Mask) : (clobber s x r m).links = s.links := rfl
@[simp] theorem clobber_windows (s : State) (x : SplitId) (r : RegRef) (m : Mask) : (clobber s x r m).windows = s.windows := rfl
@[simp] theorem clobber_device (s : State) (x : SplitId) (r : RegRef) (m : Mask) : (clobber s x r m).device = s.device := rfl
@[simp] theorem clobber_hostBase (s : State) (x : SplitId) (r : RegRef) (m : Mask) : (clobber s x r m).hostBase = s.hostBase := rfl
@[simp] theorem clobber_hostKeys (s : State) (x : SplitId) (r : RegRef) (m : Mask) : (clobber s x r m).hostKeys = s.hostKeys := rfl
@[simp] theorem clobber_mailbox (s : State) (x : SplitId) (r : RegRef) (m : Mask) : (clobber s x r m).mailbox = s.mailbox := rfl
@[simp] theorem clobber_migq (s : State) (x : SplitId) (r : RegRef) (m : Mask) : (clobber s x r m).migq = s.migq := rfl
@[simp] theorem clobber_signals (s : State) (x : SplitId) (r : RegRef) (m : Mask) : (clobber s x r m).signals = s.signals := rfl
@[simp] theorem clobber_answers (s : State) (x : SplitId) (r : RegRef) (m : Mask) : (clobber s x r m).answers = s.answers := rfl
@[simp] theorem clobber_debugger (s : State) (x : SplitId) (r : RegRef) (m : Mask) : (clobber s x r m).debugger = s.debugger := rfl
@[simp] theorem clobber_keys (s : State) (x : SplitId) (r : RegRef) (m : Mask) : (clobber s x r m).keys = s.keys := rfl
@[simp] theorem clobber_formerKeys (s : State) (x : SplitId) (r : RegRef) (m : Mask) : (clobber s x r m).formerKeys = s.formerKeys := rfl
@[simp] theorem clobber_keks (s : State) (x : SplitId) (r : RegRef) (m : Mask) : (clobber s x r m).keks = s.keks := rfl
@[simp] theorem clobber_canopyKeys (s : State) (x : SplitId) (r : RegRef) (m : Mask) : (clobber s x r m).canopyKeys = s.canopyKeys := rfl
@[simp] theorem clobber_marks (s : State) (x : SplitId) (r : RegRef) (m : Mask) : (clobber s x r m).marks = s.marks := rfl
@[simp] theorem clobber_thresh (s : State) (x : SplitId) (r : RegRef) (m : Mask) : (clobber s x r m).thresh = s.thresh := rfl
@[simp] theorem clobber_repairs (s : State) (x : SplitId) (r : RegRef) (m : Mask) : (clobber s x r m).repairs = s.repairs := rfl
@[simp] theorem clobber_spares (s : State) (x : SplitId) (r : RegRef) (m : Mask) : (clobber s x r m).spares = s.spares := rfl
@[simp] theorem clobber_disabledWays (s : State) (x : SplitId) (r : RegRef) (m : Mask) : (clobber s x r m).disabledWays = s.disabledWays := rfl
@[simp] theorem clobber_events (s : State) (x : SplitId) (r : RegRef) (m : Mask) : (clobber s x r m).events = s.events := rfl
@[simp] theorem clobber_eventIndex (s : State) (x : SplitId) (r : RegRef) (m : Mask) : (clobber s x r m).eventIndex = s.eventIndex := rfl

/-! ## `openShadow` -/

@[simp] theorem openShadow_now (s : State) (x : SplitId) (sh : Shadow) : (openShadow s x sh).now = s.now := rfl
@[simp] theorem openShadow_turn (s : State) (x : SplitId) (sh : Shadow) : (openShadow s x sh).turn = s.turn := rfl
@[simp] theorem openShadow_draw (s : State) (x : SplitId) (sh : Shadow) : (openShadow s x sh).draw = s.draw := rfl
@[simp] theorem openShadow_nextId (s : State) (x : SplitId) (sh : Shadow) : (openShadow s x sh).nextId = s.nextId := rfl
@[simp] theorem openShadow_issue (s : State) (x : SplitId) (sh : Shadow) : (openShadow s x sh).issue = s.issue := rfl
@[simp] theorem openShadow_agenda (s : State) (x : SplitId) (sh : Shadow) : (openShadow s x sh).agenda = s.agenda := rfl
@[simp] theorem openShadow_inReset (s : State) (x : SplitId) (sh : Shadow) : (openShadow s x sh).inReset = s.inReset := rfl
@[simp] theorem openShadow_booted (s : State) (x : SplitId) (sh : Shadow) : (openShadow s x sh).booted = s.booted := rfl
@[simp] theorem openShadow_timeFree (s : State) (x : SplitId) (sh : Shadow) : (openShadow s x sh).timeFree = s.timeFree := rfl
@[simp] theorem openShadow_timeLoss (s : State) (x : SplitId) (sh : Shadow) : (openShadow s x sh).timeLoss = s.timeLoss := rfl
@[simp] theorem openShadow_timeRet (s : State) (x : SplitId) (sh : Shadow) : (openShadow s x sh).timeRet = s.timeRet := rfl
@[simp] theorem openShadow_lossAt (s : State) (x : SplitId) (sh : Shadow) : (openShadow s x sh).lossAt = s.lossAt := rfl
@[simp] theorem openShadow_returnAt (s : State) (x : SplitId) (sh : Shadow) : (openShadow s x sh).returnAt = s.returnAt := rfl
@[simp] theorem openShadow_bootFailed (s : State) (x : SplitId) (sh : Shadow) : (openShadow s x sh).bootFailed = s.bootFailed := rfl
@[simp] theorem openShadow_xlat (s : State) (x : SplitId) (sh : Shadow) : (openShadow s x sh).xlat = s.xlat := rfl
@[simp] theorem openShadow_mem (s : State) (x : SplitId) (sh : Shadow) : (openShadow s x sh).mem = s.mem := rfl
@[simp] theorem openShadow_lineKeys (s : State) (x : SplitId) (sh : Shadow) : (openShadow s x sh).lineKeys = s.lineKeys := rfl
@[simp] theorem openShadow_oddBytes (s : State) (x : SplitId) (sh : Shadow) : (openShadow s x sh).oddBytes = s.oddBytes := rfl
@[simp] theorem openShadow_poison (s : State) (x : SplitId) (sh : Shadow) : (openShadow s x sh).poison = s.poison := rfl
@[simp] theorem openShadow_towers (s : State) (x : SplitId) (sh : Shadow) : (openShadow s x sh).towers = s.towers := rfl
@[simp] theorem openShadow_columns (s : State) (x : SplitId) (sh : Shadow) : (openShadow s x sh).columns = s.columns := rfl
@[simp] theorem openShadow_cores (s : State) (x : SplitId) (sh : Shadow) : (openShadow s x sh).cores = s.cores := rfl
@[simp] theorem openShadow_chunks (s : State) (x : SplitId) (sh : Shadow) : (openShadow s x sh).chunks = s.chunks := rfl
@[simp] theorem openShadow_halvedAt (s : State) (x : SplitId) (sh : Shadow) : (openShadow s x sh).halvedAt = s.halvedAt := rfl
@[simp] theorem openShadow_images (s : State) (x : SplitId) (sh : Shadow) : (openShadow s x sh).images = s.images := rfl
@[simp] theorem openShadow_reserves (s : State) (x : SplitId) (sh : Shadow) : (openShadow s x sh).reserves = s.reserves := rfl
@[simp] theorem openShadow_spaces (s : State) (x : SplitId) (sh : Shadow) : (openShadow s x sh).spaces = s.spaces := rfl
@[simp] theorem openShadow_regions (s : State) (x : SplitId) (sh : Shadow) : (openShadow s x sh).regions = s.regions := rfl
@[simp] theorem openShadow_flights (s : State) (x : SplitId) (sh : Shadow) : (openShadow s x sh).flights = s.flights := rfl
@[simp] theorem openShadow_past (s : State) (x : SplitId) (sh : Shadow) : (openShadow s x sh).past = s.past := rfl
@[simp] theorem openShadow_former (s : State) (x : SplitId) (sh : Shadow) : (openShadow s x sh).former = s.former := rfl
@[simp] theorem openShadow_copies (s : State) (x : SplitId) (sh : Shadow) : (openShadow s x sh).copies = s.copies := rfl
@[simp] theorem openShadow_commands (s : State) (x : SplitId) (sh : Shadow) : (openShadow s x sh).commands = s.commands := rfl
@[simp] theorem openShadow_lines (s : State) (x : SplitId) (sh : Shadow) : (openShadow s x sh).lines = s.lines := rfl
@[simp] theorem openShadow_dirs (s : State) (x : SplitId) (sh : Shadow) : (openShadow s x sh).dirs = s.dirs := rfl
@[simp] theorem openShadow_msgs (s : State) (x : SplitId) (sh : Shadow) : (openShadow s x sh).msgs = s.msgs := rfl
@[simp] theorem openShadow_playbill (s : State) (x : SplitId) (sh : Shadow) : (openShadow s x sh).playbill = s.playbill := rfl
@[simp] theorem openShadow_images7 (s : State) (x : SplitId) (sh : Shadow) : (openShadow s x sh).images7 = s.images7 := rfl
@[simp] theorem openShadow_conversions (s : State) (x : SplitId) (sh : Shadow) : (openShadow s x sh).conversions = s.conversions := rfl
@[simp] theorem openShadow_swaps (s : State) (x : SplitId) (sh : Shadow) : (openShadow s x sh).swaps = s.swaps := rfl
@[simp] theorem openShadow_links (s : State) (x : SplitId) (sh : Shadow) : (openShadow s x sh).links = s.links := rfl
@[simp] theorem openShadow_windows (s : State) (x : SplitId) (sh : Shadow) : (openShadow s x sh).windows = s.windows := rfl
@[simp] theorem openShadow_device (s : State) (x : SplitId) (sh : Shadow) : (openShadow s x sh).device = s.device := rfl
@[simp] theorem openShadow_hostBase (s : State) (x : SplitId) (sh : Shadow) : (openShadow s x sh).hostBase = s.hostBase := rfl
@[simp] theorem openShadow_hostKeys (s : State) (x : SplitId) (sh : Shadow) : (openShadow s x sh).hostKeys = s.hostKeys := rfl
@[simp] theorem openShadow_mailbox (s : State) (x : SplitId) (sh : Shadow) : (openShadow s x sh).mailbox = s.mailbox := rfl
@[simp] theorem openShadow_migq (s : State) (x : SplitId) (sh : Shadow) : (openShadow s x sh).migq = s.migq := rfl
@[simp] theorem openShadow_signals (s : State) (x : SplitId) (sh : Shadow) : (openShadow s x sh).signals = s.signals := rfl
@[simp] theorem openShadow_answers (s : State) (x : SplitId) (sh : Shadow) : (openShadow s x sh).answers = s.answers := rfl
@[simp] theorem openShadow_debugger (s : State) (x : SplitId) (sh : Shadow) : (openShadow s x sh).debugger = s.debugger := rfl
@[simp] theorem openShadow_keys (s : State) (x : SplitId) (sh : Shadow) : (openShadow s x sh).keys = s.keys := rfl
@[simp] theorem openShadow_formerKeys (s : State) (x : SplitId) (sh : Shadow) : (openShadow s x sh).formerKeys = s.formerKeys := rfl
@[simp] theorem openShadow_keks (s : State) (x : SplitId) (sh : Shadow) : (openShadow s x sh).keks = s.keks := rfl
@[simp] theorem openShadow_canopyKeys (s : State) (x : SplitId) (sh : Shadow) : (openShadow s x sh).canopyKeys = s.canopyKeys := rfl
@[simp] theorem openShadow_marks (s : State) (x : SplitId) (sh : Shadow) : (openShadow s x sh).marks = s.marks := rfl
@[simp] theorem openShadow_thresh (s : State) (x : SplitId) (sh : Shadow) : (openShadow s x sh).thresh = s.thresh := rfl
@[simp] theorem openShadow_repairs (s : State) (x : SplitId) (sh : Shadow) : (openShadow s x sh).repairs = s.repairs := rfl
@[simp] theorem openShadow_spares (s : State) (x : SplitId) (sh : Shadow) : (openShadow s x sh).spares = s.spares := rfl
@[simp] theorem openShadow_disabledWays (s : State) (x : SplitId) (sh : Shadow) : (openShadow s x sh).disabledWays = s.disabledWays := rfl
@[simp] theorem openShadow_events (s : State) (x : SplitId) (sh : Shadow) : (openShadow s x sh).events = s.events := rfl
@[simp] theorem openShadow_eventIndex (s : State) (x : SplitId) (sh : Shadow) : (openShadow s x sh).eventIndex = s.eventIndex := rfl

/-! ## `lowerPath` -/

@[simp] theorem lowerPath_now (s : State) (g : GroupId) (n : Nat) : (lowerPath s g n).now = s.now := rfl
@[simp] theorem lowerPath_turn (s : State) (g : GroupId) (n : Nat) : (lowerPath s g n).turn = s.turn := rfl
@[simp] theorem lowerPath_draw (s : State) (g : GroupId) (n : Nat) : (lowerPath s g n).draw = s.draw := rfl
@[simp] theorem lowerPath_nextId (s : State) (g : GroupId) (n : Nat) : (lowerPath s g n).nextId = s.nextId := rfl
@[simp] theorem lowerPath_issue (s : State) (g : GroupId) (n : Nat) : (lowerPath s g n).issue = s.issue := rfl
@[simp] theorem lowerPath_agenda (s : State) (g : GroupId) (n : Nat) : (lowerPath s g n).agenda = s.agenda := rfl
@[simp] theorem lowerPath_inReset (s : State) (g : GroupId) (n : Nat) : (lowerPath s g n).inReset = s.inReset := rfl
@[simp] theorem lowerPath_booted (s : State) (g : GroupId) (n : Nat) : (lowerPath s g n).booted = s.booted := rfl
@[simp] theorem lowerPath_timeFree (s : State) (g : GroupId) (n : Nat) : (lowerPath s g n).timeFree = s.timeFree := rfl
@[simp] theorem lowerPath_timeLoss (s : State) (g : GroupId) (n : Nat) : (lowerPath s g n).timeLoss = s.timeLoss := rfl
@[simp] theorem lowerPath_timeRet (s : State) (g : GroupId) (n : Nat) : (lowerPath s g n).timeRet = s.timeRet := rfl
@[simp] theorem lowerPath_lossAt (s : State) (g : GroupId) (n : Nat) : (lowerPath s g n).lossAt = s.lossAt := rfl
@[simp] theorem lowerPath_returnAt (s : State) (g : GroupId) (n : Nat) : (lowerPath s g n).returnAt = s.returnAt := rfl
@[simp] theorem lowerPath_bootFailed (s : State) (g : GroupId) (n : Nat) : (lowerPath s g n).bootFailed = s.bootFailed := rfl
@[simp] theorem lowerPath_xlat (s : State) (g : GroupId) (n : Nat) : (lowerPath s g n).xlat = s.xlat := rfl
@[simp] theorem lowerPath_mem (s : State) (g : GroupId) (n : Nat) : (lowerPath s g n).mem = s.mem := rfl
@[simp] theorem lowerPath_lineKeys (s : State) (g : GroupId) (n : Nat) : (lowerPath s g n).lineKeys = s.lineKeys := rfl
@[simp] theorem lowerPath_oddBytes (s : State) (g : GroupId) (n : Nat) : (lowerPath s g n).oddBytes = s.oddBytes := rfl
@[simp] theorem lowerPath_poison (s : State) (g : GroupId) (n : Nat) : (lowerPath s g n).poison = s.poison := rfl
@[simp] theorem lowerPath_towers (s : State) (g : GroupId) (n : Nat) : (lowerPath s g n).towers = s.towers := rfl
@[simp] theorem lowerPath_columns (s : State) (g : GroupId) (n : Nat) : (lowerPath s g n).columns = s.columns := rfl
@[simp] theorem lowerPath_cores (s : State) (g : GroupId) (n : Nat) : (lowerPath s g n).cores = s.cores := rfl
@[simp] theorem lowerPath_chunks (s : State) (g : GroupId) (n : Nat) : (lowerPath s g n).chunks = s.chunks := rfl
@[simp] theorem lowerPath_halvedAt (s : State) (g : GroupId) (n : Nat) : (lowerPath s g n).halvedAt = s.halvedAt := rfl
@[simp] theorem lowerPath_images (s : State) (g : GroupId) (n : Nat) : (lowerPath s g n).images = s.images := rfl
@[simp] theorem lowerPath_reserves (s : State) (g : GroupId) (n : Nat) : (lowerPath s g n).reserves = s.reserves := rfl
@[simp] theorem lowerPath_spaces (s : State) (g : GroupId) (n : Nat) : (lowerPath s g n).spaces = s.spaces := rfl
@[simp] theorem lowerPath_regions (s : State) (g : GroupId) (n : Nat) : (lowerPath s g n).regions = s.regions := rfl
@[simp] theorem lowerPath_flights (s : State) (g : GroupId) (n : Nat) : (lowerPath s g n).flights = s.flights := rfl
@[simp] theorem lowerPath_past (s : State) (g : GroupId) (n : Nat) : (lowerPath s g n).past = s.past := rfl
@[simp] theorem lowerPath_former (s : State) (g : GroupId) (n : Nat) : (lowerPath s g n).former = s.former := rfl
@[simp] theorem lowerPath_copies (s : State) (g : GroupId) (n : Nat) : (lowerPath s g n).copies = s.copies := rfl
@[simp] theorem lowerPath_commands (s : State) (g : GroupId) (n : Nat) : (lowerPath s g n).commands = s.commands := rfl
@[simp] theorem lowerPath_lines (s : State) (g : GroupId) (n : Nat) : (lowerPath s g n).lines = s.lines := rfl
@[simp] theorem lowerPath_dirs (s : State) (g : GroupId) (n : Nat) : (lowerPath s g n).dirs = s.dirs := rfl
@[simp] theorem lowerPath_msgs (s : State) (g : GroupId) (n : Nat) : (lowerPath s g n).msgs = s.msgs := rfl
@[simp] theorem lowerPath_playbill (s : State) (g : GroupId) (n : Nat) : (lowerPath s g n).playbill = s.playbill := rfl
@[simp] theorem lowerPath_images7 (s : State) (g : GroupId) (n : Nat) : (lowerPath s g n).images7 = s.images7 := rfl
@[simp] theorem lowerPath_conversions (s : State) (g : GroupId) (n : Nat) : (lowerPath s g n).conversions = s.conversions := rfl
@[simp] theorem lowerPath_swaps (s : State) (g : GroupId) (n : Nat) : (lowerPath s g n).swaps = s.swaps := rfl
@[simp] theorem lowerPath_links (s : State) (g : GroupId) (n : Nat) : (lowerPath s g n).links = s.links := rfl
@[simp] theorem lowerPath_windows (s : State) (g : GroupId) (n : Nat) : (lowerPath s g n).windows = s.windows := rfl
@[simp] theorem lowerPath_device (s : State) (g : GroupId) (n : Nat) : (lowerPath s g n).device = s.device := rfl
@[simp] theorem lowerPath_hostBase (s : State) (g : GroupId) (n : Nat) : (lowerPath s g n).hostBase = s.hostBase := rfl
@[simp] theorem lowerPath_hostKeys (s : State) (g : GroupId) (n : Nat) : (lowerPath s g n).hostKeys = s.hostKeys := rfl
@[simp] theorem lowerPath_mailbox (s : State) (g : GroupId) (n : Nat) : (lowerPath s g n).mailbox = s.mailbox := rfl
@[simp] theorem lowerPath_migq (s : State) (g : GroupId) (n : Nat) : (lowerPath s g n).migq = s.migq := rfl
@[simp] theorem lowerPath_signals (s : State) (g : GroupId) (n : Nat) : (lowerPath s g n).signals = s.signals := rfl
@[simp] theorem lowerPath_answers (s : State) (g : GroupId) (n : Nat) : (lowerPath s g n).answers = s.answers := rfl
@[simp] theorem lowerPath_debugger (s : State) (g : GroupId) (n : Nat) : (lowerPath s g n).debugger = s.debugger := rfl
@[simp] theorem lowerPath_keys (s : State) (g : GroupId) (n : Nat) : (lowerPath s g n).keys = s.keys := rfl
@[simp] theorem lowerPath_formerKeys (s : State) (g : GroupId) (n : Nat) : (lowerPath s g n).formerKeys = s.formerKeys := rfl
@[simp] theorem lowerPath_keks (s : State) (g : GroupId) (n : Nat) : (lowerPath s g n).keks = s.keks := rfl
@[simp] theorem lowerPath_canopyKeys (s : State) (g : GroupId) (n : Nat) : (lowerPath s g n).canopyKeys = s.canopyKeys := rfl
@[simp] theorem lowerPath_marks (s : State) (g : GroupId) (n : Nat) : (lowerPath s g n).marks = s.marks := rfl
@[simp] theorem lowerPath_thresh (s : State) (g : GroupId) (n : Nat) : (lowerPath s g n).thresh = s.thresh := rfl
@[simp] theorem lowerPath_repairs (s : State) (g : GroupId) (n : Nat) : (lowerPath s g n).repairs = s.repairs := rfl
@[simp] theorem lowerPath_spares (s : State) (g : GroupId) (n : Nat) : (lowerPath s g n).spares = s.spares := rfl
@[simp] theorem lowerPath_disabledWays (s : State) (g : GroupId) (n : Nat) : (lowerPath s g n).disabledWays = s.disabledWays := rfl
@[simp] theorem lowerPath_events (s : State) (g : GroupId) (n : Nat) : (lowerPath s g n).events = s.events := rfl
@[simp] theorem lowerPath_eventIndex (s : State) (g : GroupId) (n : Nat) : (lowerPath s g n).eventIndex = s.eventIndex := rfl

/-! ## `raisePath` -/

@[simp] theorem raisePath_now (s : State) (g : GroupId) (n : Nat) : (raisePath s g n).now = s.now := rfl
@[simp] theorem raisePath_turn (s : State) (g : GroupId) (n : Nat) : (raisePath s g n).turn = s.turn := rfl
@[simp] theorem raisePath_draw (s : State) (g : GroupId) (n : Nat) : (raisePath s g n).draw = s.draw := rfl
@[simp] theorem raisePath_nextId (s : State) (g : GroupId) (n : Nat) : (raisePath s g n).nextId = s.nextId := rfl
@[simp] theorem raisePath_issue (s : State) (g : GroupId) (n : Nat) : (raisePath s g n).issue = s.issue := rfl
@[simp] theorem raisePath_agenda (s : State) (g : GroupId) (n : Nat) : (raisePath s g n).agenda = s.agenda := rfl
@[simp] theorem raisePath_inReset (s : State) (g : GroupId) (n : Nat) : (raisePath s g n).inReset = s.inReset := rfl
@[simp] theorem raisePath_booted (s : State) (g : GroupId) (n : Nat) : (raisePath s g n).booted = s.booted := rfl
@[simp] theorem raisePath_timeFree (s : State) (g : GroupId) (n : Nat) : (raisePath s g n).timeFree = s.timeFree := rfl
@[simp] theorem raisePath_timeLoss (s : State) (g : GroupId) (n : Nat) : (raisePath s g n).timeLoss = s.timeLoss := rfl
@[simp] theorem raisePath_timeRet (s : State) (g : GroupId) (n : Nat) : (raisePath s g n).timeRet = s.timeRet := rfl
@[simp] theorem raisePath_lossAt (s : State) (g : GroupId) (n : Nat) : (raisePath s g n).lossAt = s.lossAt := rfl
@[simp] theorem raisePath_returnAt (s : State) (g : GroupId) (n : Nat) : (raisePath s g n).returnAt = s.returnAt := rfl
@[simp] theorem raisePath_bootFailed (s : State) (g : GroupId) (n : Nat) : (raisePath s g n).bootFailed = s.bootFailed := rfl
@[simp] theorem raisePath_xlat (s : State) (g : GroupId) (n : Nat) : (raisePath s g n).xlat = s.xlat := rfl
@[simp] theorem raisePath_mem (s : State) (g : GroupId) (n : Nat) : (raisePath s g n).mem = s.mem := rfl
@[simp] theorem raisePath_lineKeys (s : State) (g : GroupId) (n : Nat) : (raisePath s g n).lineKeys = s.lineKeys := rfl
@[simp] theorem raisePath_oddBytes (s : State) (g : GroupId) (n : Nat) : (raisePath s g n).oddBytes = s.oddBytes := rfl
@[simp] theorem raisePath_poison (s : State) (g : GroupId) (n : Nat) : (raisePath s g n).poison = s.poison := rfl
@[simp] theorem raisePath_towers (s : State) (g : GroupId) (n : Nat) : (raisePath s g n).towers = s.towers := rfl
@[simp] theorem raisePath_columns (s : State) (g : GroupId) (n : Nat) : (raisePath s g n).columns = s.columns := rfl
@[simp] theorem raisePath_cores (s : State) (g : GroupId) (n : Nat) : (raisePath s g n).cores = s.cores := rfl
@[simp] theorem raisePath_chunks (s : State) (g : GroupId) (n : Nat) : (raisePath s g n).chunks = s.chunks := rfl
@[simp] theorem raisePath_halvedAt (s : State) (g : GroupId) (n : Nat) : (raisePath s g n).halvedAt = s.halvedAt := rfl
@[simp] theorem raisePath_images (s : State) (g : GroupId) (n : Nat) : (raisePath s g n).images = s.images := rfl
@[simp] theorem raisePath_reserves (s : State) (g : GroupId) (n : Nat) : (raisePath s g n).reserves = s.reserves := rfl
@[simp] theorem raisePath_spaces (s : State) (g : GroupId) (n : Nat) : (raisePath s g n).spaces = s.spaces := rfl
@[simp] theorem raisePath_regions (s : State) (g : GroupId) (n : Nat) : (raisePath s g n).regions = s.regions := rfl
@[simp] theorem raisePath_flights (s : State) (g : GroupId) (n : Nat) : (raisePath s g n).flights = s.flights := rfl
@[simp] theorem raisePath_past (s : State) (g : GroupId) (n : Nat) : (raisePath s g n).past = s.past := rfl
@[simp] theorem raisePath_former (s : State) (g : GroupId) (n : Nat) : (raisePath s g n).former = s.former := rfl
@[simp] theorem raisePath_copies (s : State) (g : GroupId) (n : Nat) : (raisePath s g n).copies = s.copies := rfl
@[simp] theorem raisePath_commands (s : State) (g : GroupId) (n : Nat) : (raisePath s g n).commands = s.commands := rfl
@[simp] theorem raisePath_lines (s : State) (g : GroupId) (n : Nat) : (raisePath s g n).lines = s.lines := rfl
@[simp] theorem raisePath_dirs (s : State) (g : GroupId) (n : Nat) : (raisePath s g n).dirs = s.dirs := rfl
@[simp] theorem raisePath_msgs (s : State) (g : GroupId) (n : Nat) : (raisePath s g n).msgs = s.msgs := rfl
@[simp] theorem raisePath_playbill (s : State) (g : GroupId) (n : Nat) : (raisePath s g n).playbill = s.playbill := rfl
@[simp] theorem raisePath_images7 (s : State) (g : GroupId) (n : Nat) : (raisePath s g n).images7 = s.images7 := rfl
@[simp] theorem raisePath_conversions (s : State) (g : GroupId) (n : Nat) : (raisePath s g n).conversions = s.conversions := rfl
@[simp] theorem raisePath_swaps (s : State) (g : GroupId) (n : Nat) : (raisePath s g n).swaps = s.swaps := rfl
@[simp] theorem raisePath_links (s : State) (g : GroupId) (n : Nat) : (raisePath s g n).links = s.links := rfl
@[simp] theorem raisePath_windows (s : State) (g : GroupId) (n : Nat) : (raisePath s g n).windows = s.windows := rfl
@[simp] theorem raisePath_device (s : State) (g : GroupId) (n : Nat) : (raisePath s g n).device = s.device := rfl
@[simp] theorem raisePath_hostBase (s : State) (g : GroupId) (n : Nat) : (raisePath s g n).hostBase = s.hostBase := rfl
@[simp] theorem raisePath_hostKeys (s : State) (g : GroupId) (n : Nat) : (raisePath s g n).hostKeys = s.hostKeys := rfl
@[simp] theorem raisePath_mailbox (s : State) (g : GroupId) (n : Nat) : (raisePath s g n).mailbox = s.mailbox := rfl
@[simp] theorem raisePath_migq (s : State) (g : GroupId) (n : Nat) : (raisePath s g n).migq = s.migq := rfl
@[simp] theorem raisePath_signals (s : State) (g : GroupId) (n : Nat) : (raisePath s g n).signals = s.signals := rfl
@[simp] theorem raisePath_answers (s : State) (g : GroupId) (n : Nat) : (raisePath s g n).answers = s.answers := rfl
@[simp] theorem raisePath_debugger (s : State) (g : GroupId) (n : Nat) : (raisePath s g n).debugger = s.debugger := rfl
@[simp] theorem raisePath_keys (s : State) (g : GroupId) (n : Nat) : (raisePath s g n).keys = s.keys := rfl
@[simp] theorem raisePath_formerKeys (s : State) (g : GroupId) (n : Nat) : (raisePath s g n).formerKeys = s.formerKeys := rfl
@[simp] theorem raisePath_keks (s : State) (g : GroupId) (n : Nat) : (raisePath s g n).keks = s.keks := rfl
@[simp] theorem raisePath_canopyKeys (s : State) (g : GroupId) (n : Nat) : (raisePath s g n).canopyKeys = s.canopyKeys := rfl
@[simp] theorem raisePath_marks (s : State) (g : GroupId) (n : Nat) : (raisePath s g n).marks = s.marks := rfl
@[simp] theorem raisePath_thresh (s : State) (g : GroupId) (n : Nat) : (raisePath s g n).thresh = s.thresh := rfl
@[simp] theorem raisePath_repairs (s : State) (g : GroupId) (n : Nat) : (raisePath s g n).repairs = s.repairs := rfl
@[simp] theorem raisePath_spares (s : State) (g : GroupId) (n : Nat) : (raisePath s g n).spares = s.spares := rfl
@[simp] theorem raisePath_disabledWays (s : State) (g : GroupId) (n : Nat) : (raisePath s g n).disabledWays = s.disabledWays := rfl
@[simp] theorem raisePath_events (s : State) (g : GroupId) (n : Nat) : (raisePath s g n).events = s.events := rfl
@[simp] theorem raisePath_eventIndex (s : State) (g : GroupId) (n : Nat) : (raisePath s g n).eventIndex = s.eventIndex := rfl

/-! ## `endIssue` -/

@[simp] theorem endIssue_issue (s : State) : (endIssue s).issue = none := rfl
@[simp] theorem endIssue_now (s : State) : (endIssue s).now = s.now := rfl
@[simp] theorem endIssue_turn (s : State) : (endIssue s).turn = s.turn := rfl
@[simp] theorem endIssue_nextId (s : State) : (endIssue s).nextId = s.nextId := rfl
@[simp] theorem endIssue_agenda (s : State) : (endIssue s).agenda = s.agenda := rfl
@[simp] theorem endIssue_inReset (s : State) : (endIssue s).inReset = s.inReset := rfl
@[simp] theorem endIssue_booted (s : State) : (endIssue s).booted = s.booted := rfl
@[simp] theorem endIssue_timeFree (s : State) : (endIssue s).timeFree = s.timeFree := rfl
@[simp] theorem endIssue_timeLoss (s : State) : (endIssue s).timeLoss = s.timeLoss := rfl
@[simp] theorem endIssue_timeRet (s : State) : (endIssue s).timeRet = s.timeRet := rfl
@[simp] theorem endIssue_lossAt (s : State) : (endIssue s).lossAt = s.lossAt := rfl
@[simp] theorem endIssue_returnAt (s : State) : (endIssue s).returnAt = s.returnAt := rfl
@[simp] theorem endIssue_bootFailed (s : State) : (endIssue s).bootFailed = s.bootFailed := rfl
@[simp] theorem endIssue_xlat (s : State) : (endIssue s).xlat = s.xlat := rfl
@[simp] theorem endIssue_mem (s : State) : (endIssue s).mem = s.mem := rfl
@[simp] theorem endIssue_lineKeys (s : State) : (endIssue s).lineKeys = s.lineKeys := rfl
@[simp] theorem endIssue_oddBytes (s : State) : (endIssue s).oddBytes = s.oddBytes := rfl
@[simp] theorem endIssue_poison (s : State) : (endIssue s).poison = s.poison := rfl
@[simp] theorem endIssue_towers (s : State) : (endIssue s).towers = s.towers := rfl
@[simp] theorem endIssue_columns (s : State) : (endIssue s).columns = s.columns := rfl
@[simp] theorem endIssue_cores (s : State) : (endIssue s).cores = s.cores := rfl
@[simp] theorem endIssue_chunks (s : State) : (endIssue s).chunks = s.chunks := rfl
@[simp] theorem endIssue_halvedAt (s : State) : (endIssue s).halvedAt = s.halvedAt := rfl
@[simp] theorem endIssue_wgs (s : State) : (endIssue s).wgs = s.wgs := rfl
@[simp] theorem endIssue_images (s : State) : (endIssue s).images = s.images := rfl
@[simp] theorem endIssue_reserves (s : State) : (endIssue s).reserves = s.reserves := rfl
@[simp] theorem endIssue_spaces (s : State) : (endIssue s).spaces = s.spaces := rfl
@[simp] theorem endIssue_regions (s : State) : (endIssue s).regions = s.regions := rfl
@[simp] theorem endIssue_flights (s : State) : (endIssue s).flights = s.flights := rfl
@[simp] theorem endIssue_past (s : State) : (endIssue s).past = s.past := rfl
@[simp] theorem endIssue_former (s : State) : (endIssue s).former = s.former := rfl
@[simp] theorem endIssue_copies (s : State) : (endIssue s).copies = s.copies := rfl
@[simp] theorem endIssue_commands (s : State) : (endIssue s).commands = s.commands := rfl
@[simp] theorem endIssue_lines (s : State) : (endIssue s).lines = s.lines := rfl
@[simp] theorem endIssue_dirs (s : State) : (endIssue s).dirs = s.dirs := rfl
@[simp] theorem endIssue_msgs (s : State) : (endIssue s).msgs = s.msgs := rfl
@[simp] theorem endIssue_playbill (s : State) : (endIssue s).playbill = s.playbill := rfl
@[simp] theorem endIssue_images7 (s : State) : (endIssue s).images7 = s.images7 := rfl
@[simp] theorem endIssue_conversions (s : State) : (endIssue s).conversions = s.conversions := rfl
@[simp] theorem endIssue_swaps (s : State) : (endIssue s).swaps = s.swaps := rfl
@[simp] theorem endIssue_links (s : State) : (endIssue s).links = s.links := rfl
@[simp] theorem endIssue_windows (s : State) : (endIssue s).windows = s.windows := rfl
@[simp] theorem endIssue_device (s : State) : (endIssue s).device = s.device := rfl
@[simp] theorem endIssue_hostBase (s : State) : (endIssue s).hostBase = s.hostBase := rfl
@[simp] theorem endIssue_hostKeys (s : State) : (endIssue s).hostKeys = s.hostKeys := rfl
@[simp] theorem endIssue_mailbox (s : State) : (endIssue s).mailbox = s.mailbox := rfl
@[simp] theorem endIssue_migq (s : State) : (endIssue s).migq = s.migq := rfl
@[simp] theorem endIssue_signals (s : State) : (endIssue s).signals = s.signals := rfl
@[simp] theorem endIssue_answers (s : State) : (endIssue s).answers = s.answers := rfl
@[simp] theorem endIssue_debugger (s : State) : (endIssue s).debugger = s.debugger := rfl
@[simp] theorem endIssue_keys (s : State) : (endIssue s).keys = s.keys := rfl
@[simp] theorem endIssue_formerKeys (s : State) : (endIssue s).formerKeys = s.formerKeys := rfl
@[simp] theorem endIssue_keks (s : State) : (endIssue s).keks = s.keks := rfl
@[simp] theorem endIssue_canopyKeys (s : State) : (endIssue s).canopyKeys = s.canopyKeys := rfl
@[simp] theorem endIssue_marks (s : State) : (endIssue s).marks = s.marks := rfl
@[simp] theorem endIssue_thresh (s : State) : (endIssue s).thresh = s.thresh := rfl
@[simp] theorem endIssue_repairs (s : State) : (endIssue s).repairs = s.repairs := rfl
@[simp] theorem endIssue_spares (s : State) : (endIssue s).spares = s.spares := rfl
@[simp] theorem endIssue_disabledWays (s : State) : (endIssue s).disabledWays = s.disabledWays := rfl
@[simp] theorem endIssue_events (s : State) : (endIssue s).events = s.events := rfl
@[simp] theorem endIssue_eventIndex (s : State) : (endIssue s).eventIndex = s.eventIndex := rfl

/-! ## `addFlight` -/

@[simp] theorem addFlight_now (s : State) (f : Flight) : (addFlight s f).now = s.now := rfl
@[simp] theorem addFlight_turn (s : State) (f : Flight) : (addFlight s f).turn = s.turn := rfl
@[simp] theorem addFlight_draw (s : State) (f : Flight) : (addFlight s f).draw = s.draw := rfl
@[simp] theorem addFlight_issue (s : State) (f : Flight) : (addFlight s f).issue = s.issue := rfl
@[simp] theorem addFlight_agenda (s : State) (f : Flight) : (addFlight s f).agenda = s.agenda := rfl
@[simp] theorem addFlight_inReset (s : State) (f : Flight) : (addFlight s f).inReset = s.inReset := rfl
@[simp] theorem addFlight_booted (s : State) (f : Flight) : (addFlight s f).booted = s.booted := rfl
@[simp] theorem addFlight_timeFree (s : State) (f : Flight) : (addFlight s f).timeFree = s.timeFree := rfl
@[simp] theorem addFlight_timeLoss (s : State) (f : Flight) : (addFlight s f).timeLoss = s.timeLoss := rfl
@[simp] theorem addFlight_timeRet (s : State) (f : Flight) : (addFlight s f).timeRet = s.timeRet := rfl
@[simp] theorem addFlight_lossAt (s : State) (f : Flight) : (addFlight s f).lossAt = s.lossAt := rfl
@[simp] theorem addFlight_returnAt (s : State) (f : Flight) : (addFlight s f).returnAt = s.returnAt := rfl
@[simp] theorem addFlight_bootFailed (s : State) (f : Flight) : (addFlight s f).bootFailed = s.bootFailed := rfl
@[simp] theorem addFlight_xlat (s : State) (f : Flight) : (addFlight s f).xlat = s.xlat := rfl
@[simp] theorem addFlight_mem (s : State) (f : Flight) : (addFlight s f).mem = s.mem := rfl
@[simp] theorem addFlight_lineKeys (s : State) (f : Flight) : (addFlight s f).lineKeys = s.lineKeys := rfl
@[simp] theorem addFlight_oddBytes (s : State) (f : Flight) : (addFlight s f).oddBytes = s.oddBytes := rfl
@[simp] theorem addFlight_poison (s : State) (f : Flight) : (addFlight s f).poison = s.poison := rfl
@[simp] theorem addFlight_towers (s : State) (f : Flight) : (addFlight s f).towers = s.towers := rfl
@[simp] theorem addFlight_columns (s : State) (f : Flight) : (addFlight s f).columns = s.columns := rfl
@[simp] theorem addFlight_cores (s : State) (f : Flight) : (addFlight s f).cores = s.cores := rfl
@[simp] theorem addFlight_chunks (s : State) (f : Flight) : (addFlight s f).chunks = s.chunks := rfl
@[simp] theorem addFlight_halvedAt (s : State) (f : Flight) : (addFlight s f).halvedAt = s.halvedAt := rfl
@[simp] theorem addFlight_images (s : State) (f : Flight) : (addFlight s f).images = s.images := rfl
@[simp] theorem addFlight_reserves (s : State) (f : Flight) : (addFlight s f).reserves = s.reserves := rfl
@[simp] theorem addFlight_spaces (s : State) (f : Flight) : (addFlight s f).spaces = s.spaces := rfl
@[simp] theorem addFlight_regions (s : State) (f : Flight) : (addFlight s f).regions = s.regions := rfl
@[simp] theorem addFlight_past (s : State) (f : Flight) : (addFlight s f).past = s.past := rfl
@[simp] theorem addFlight_former (s : State) (f : Flight) : (addFlight s f).former = s.former := rfl
@[simp] theorem addFlight_copies (s : State) (f : Flight) : (addFlight s f).copies = s.copies := rfl
@[simp] theorem addFlight_commands (s : State) (f : Flight) : (addFlight s f).commands = s.commands := rfl
@[simp] theorem addFlight_lines (s : State) (f : Flight) : (addFlight s f).lines = s.lines := rfl
@[simp] theorem addFlight_dirs (s : State) (f : Flight) : (addFlight s f).dirs = s.dirs := rfl
@[simp] theorem addFlight_msgs (s : State) (f : Flight) : (addFlight s f).msgs = s.msgs := rfl
@[simp] theorem addFlight_playbill (s : State) (f : Flight) : (addFlight s f).playbill = s.playbill := rfl
@[simp] theorem addFlight_images7 (s : State) (f : Flight) : (addFlight s f).images7 = s.images7 := rfl
@[simp] theorem addFlight_conversions (s : State) (f : Flight) : (addFlight s f).conversions = s.conversions := rfl
@[simp] theorem addFlight_swaps (s : State) (f : Flight) : (addFlight s f).swaps = s.swaps := rfl
@[simp] theorem addFlight_links (s : State) (f : Flight) : (addFlight s f).links = s.links := rfl
@[simp] theorem addFlight_windows (s : State) (f : Flight) : (addFlight s f).windows = s.windows := rfl
@[simp] theorem addFlight_device (s : State) (f : Flight) : (addFlight s f).device = s.device := rfl
@[simp] theorem addFlight_hostBase (s : State) (f : Flight) : (addFlight s f).hostBase = s.hostBase := rfl
@[simp] theorem addFlight_hostKeys (s : State) (f : Flight) : (addFlight s f).hostKeys = s.hostKeys := rfl
@[simp] theorem addFlight_mailbox (s : State) (f : Flight) : (addFlight s f).mailbox = s.mailbox := rfl
@[simp] theorem addFlight_migq (s : State) (f : Flight) : (addFlight s f).migq = s.migq := rfl
@[simp] theorem addFlight_signals (s : State) (f : Flight) : (addFlight s f).signals = s.signals := rfl
@[simp] theorem addFlight_answers (s : State) (f : Flight) : (addFlight s f).answers = s.answers := rfl
@[simp] theorem addFlight_debugger (s : State) (f : Flight) : (addFlight s f).debugger = s.debugger := rfl
@[simp] theorem addFlight_keys (s : State) (f : Flight) : (addFlight s f).keys = s.keys := rfl
@[simp] theorem addFlight_formerKeys (s : State) (f : Flight) : (addFlight s f).formerKeys = s.formerKeys := rfl
@[simp] theorem addFlight_keks (s : State) (f : Flight) : (addFlight s f).keks = s.keks := rfl
@[simp] theorem addFlight_canopyKeys (s : State) (f : Flight) : (addFlight s f).canopyKeys = s.canopyKeys := rfl
@[simp] theorem addFlight_marks (s : State) (f : Flight) : (addFlight s f).marks = s.marks := rfl
@[simp] theorem addFlight_thresh (s : State) (f : Flight) : (addFlight s f).thresh = s.thresh := rfl
@[simp] theorem addFlight_repairs (s : State) (f : Flight) : (addFlight s f).repairs = s.repairs := rfl
@[simp] theorem addFlight_spares (s : State) (f : Flight) : (addFlight s f).spares = s.spares := rfl
@[simp] theorem addFlight_disabledWays (s : State) (f : Flight) : (addFlight s f).disabledWays = s.disabledWays := rfl
@[simp] theorem addFlight_events (s : State) (f : Flight) : (addFlight s f).events = s.events := rfl
@[simp] theorem addFlight_eventIndex (s : State) (f : Flight) : (addFlight s f).eventIndex = s.eventIndex := rfl

/-! ## `settle` -/

@[simp] theorem settle_issue (s : State) (c : Ctx) (mark : Bool) (go : Go) : (settle s c mark go).issue = none := rfl
@[simp] theorem settle_now (s : State) (c : Ctx) (mark : Bool) (go : Go) : (settle s c mark go).now = s.now := rfl
@[simp] theorem settle_turn (s : State) (c : Ctx) (mark : Bool) (go : Go) : (settle s c mark go).turn = s.turn := rfl
@[simp] theorem settle_nextId (s : State) (c : Ctx) (mark : Bool) (go : Go) : (settle s c mark go).nextId = s.nextId := rfl
@[simp] theorem settle_agenda (s : State) (c : Ctx) (mark : Bool) (go : Go) : (settle s c mark go).agenda = s.agenda := rfl
@[simp] theorem settle_inReset (s : State) (c : Ctx) (mark : Bool) (go : Go) : (settle s c mark go).inReset = s.inReset := rfl
@[simp] theorem settle_booted (s : State) (c : Ctx) (mark : Bool) (go : Go) : (settle s c mark go).booted = s.booted := rfl
@[simp] theorem settle_timeFree (s : State) (c : Ctx) (mark : Bool) (go : Go) : (settle s c mark go).timeFree = s.timeFree := rfl
@[simp] theorem settle_timeLoss (s : State) (c : Ctx) (mark : Bool) (go : Go) : (settle s c mark go).timeLoss = s.timeLoss := rfl
@[simp] theorem settle_timeRet (s : State) (c : Ctx) (mark : Bool) (go : Go) : (settle s c mark go).timeRet = s.timeRet := rfl
@[simp] theorem settle_lossAt (s : State) (c : Ctx) (mark : Bool) (go : Go) : (settle s c mark go).lossAt = s.lossAt := rfl
@[simp] theorem settle_returnAt (s : State) (c : Ctx) (mark : Bool) (go : Go) : (settle s c mark go).returnAt = s.returnAt := rfl
@[simp] theorem settle_bootFailed (s : State) (c : Ctx) (mark : Bool) (go : Go) : (settle s c mark go).bootFailed = s.bootFailed := rfl
@[simp] theorem settle_xlat (s : State) (c : Ctx) (mark : Bool) (go : Go) : (settle s c mark go).xlat = s.xlat := rfl
@[simp] theorem settle_mem (s : State) (c : Ctx) (mark : Bool) (go : Go) : (settle s c mark go).mem = s.mem := rfl
@[simp] theorem settle_lineKeys (s : State) (c : Ctx) (mark : Bool) (go : Go) : (settle s c mark go).lineKeys = s.lineKeys := rfl
@[simp] theorem settle_oddBytes (s : State) (c : Ctx) (mark : Bool) (go : Go) : (settle s c mark go).oddBytes = s.oddBytes := rfl
@[simp] theorem settle_poison (s : State) (c : Ctx) (mark : Bool) (go : Go) : (settle s c mark go).poison = s.poison := rfl
@[simp] theorem settle_towers (s : State) (c : Ctx) (mark : Bool) (go : Go) : (settle s c mark go).towers = s.towers := rfl
@[simp] theorem settle_columns (s : State) (c : Ctx) (mark : Bool) (go : Go) : (settle s c mark go).columns = s.columns := rfl
@[simp] theorem settle_cores (s : State) (c : Ctx) (mark : Bool) (go : Go) : (settle s c mark go).cores = s.cores := rfl
@[simp] theorem settle_chunks (s : State) (c : Ctx) (mark : Bool) (go : Go) : (settle s c mark go).chunks = s.chunks := rfl
@[simp] theorem settle_halvedAt (s : State) (c : Ctx) (mark : Bool) (go : Go) : (settle s c mark go).halvedAt = s.halvedAt := rfl
@[simp] theorem settle_images (s : State) (c : Ctx) (mark : Bool) (go : Go) : (settle s c mark go).images = s.images := rfl
@[simp] theorem settle_reserves (s : State) (c : Ctx) (mark : Bool) (go : Go) : (settle s c mark go).reserves = s.reserves := rfl
@[simp] theorem settle_spaces (s : State) (c : Ctx) (mark : Bool) (go : Go) : (settle s c mark go).spaces = s.spaces := rfl
@[simp] theorem settle_regions (s : State) (c : Ctx) (mark : Bool) (go : Go) : (settle s c mark go).regions = s.regions := rfl
@[simp] theorem settle_flights (s : State) (c : Ctx) (mark : Bool) (go : Go) : (settle s c mark go).flights = s.flights := rfl
@[simp] theorem settle_past (s : State) (c : Ctx) (mark : Bool) (go : Go) : (settle s c mark go).past = s.past := rfl
@[simp] theorem settle_former (s : State) (c : Ctx) (mark : Bool) (go : Go) : (settle s c mark go).former = s.former := rfl
@[simp] theorem settle_copies (s : State) (c : Ctx) (mark : Bool) (go : Go) : (settle s c mark go).copies = s.copies := rfl
@[simp] theorem settle_commands (s : State) (c : Ctx) (mark : Bool) (go : Go) : (settle s c mark go).commands = s.commands := rfl
@[simp] theorem settle_lines (s : State) (c : Ctx) (mark : Bool) (go : Go) : (settle s c mark go).lines = s.lines := rfl
@[simp] theorem settle_dirs (s : State) (c : Ctx) (mark : Bool) (go : Go) : (settle s c mark go).dirs = s.dirs := rfl
@[simp] theorem settle_msgs (s : State) (c : Ctx) (mark : Bool) (go : Go) : (settle s c mark go).msgs = s.msgs := rfl
@[simp] theorem settle_playbill (s : State) (c : Ctx) (mark : Bool) (go : Go) : (settle s c mark go).playbill = s.playbill := rfl
@[simp] theorem settle_images7 (s : State) (c : Ctx) (mark : Bool) (go : Go) : (settle s c mark go).images7 = s.images7 := rfl
@[simp] theorem settle_conversions (s : State) (c : Ctx) (mark : Bool) (go : Go) : (settle s c mark go).conversions = s.conversions := rfl
@[simp] theorem settle_swaps (s : State) (c : Ctx) (mark : Bool) (go : Go) : (settle s c mark go).swaps = s.swaps := rfl
@[simp] theorem settle_links (s : State) (c : Ctx) (mark : Bool) (go : Go) : (settle s c mark go).links = s.links := rfl
@[simp] theorem settle_windows (s : State) (c : Ctx) (mark : Bool) (go : Go) : (settle s c mark go).windows = s.windows := rfl
@[simp] theorem settle_device (s : State) (c : Ctx) (mark : Bool) (go : Go) : (settle s c mark go).device = s.device := rfl
@[simp] theorem settle_hostBase (s : State) (c : Ctx) (mark : Bool) (go : Go) : (settle s c mark go).hostBase = s.hostBase := rfl
@[simp] theorem settle_hostKeys (s : State) (c : Ctx) (mark : Bool) (go : Go) : (settle s c mark go).hostKeys = s.hostKeys := rfl
@[simp] theorem settle_mailbox (s : State) (c : Ctx) (mark : Bool) (go : Go) : (settle s c mark go).mailbox = s.mailbox := rfl
@[simp] theorem settle_migq (s : State) (c : Ctx) (mark : Bool) (go : Go) : (settle s c mark go).migq = s.migq := rfl
@[simp] theorem settle_signals (s : State) (c : Ctx) (mark : Bool) (go : Go) : (settle s c mark go).signals = s.signals := rfl
@[simp] theorem settle_answers (s : State) (c : Ctx) (mark : Bool) (go : Go) : (settle s c mark go).answers = s.answers := rfl
@[simp] theorem settle_debugger (s : State) (c : Ctx) (mark : Bool) (go : Go) : (settle s c mark go).debugger = s.debugger := rfl
@[simp] theorem settle_keys (s : State) (c : Ctx) (mark : Bool) (go : Go) : (settle s c mark go).keys = s.keys := rfl
@[simp] theorem settle_formerKeys (s : State) (c : Ctx) (mark : Bool) (go : Go) : (settle s c mark go).formerKeys = s.formerKeys := rfl
@[simp] theorem settle_keks (s : State) (c : Ctx) (mark : Bool) (go : Go) : (settle s c mark go).keks = s.keks := rfl
@[simp] theorem settle_canopyKeys (s : State) (c : Ctx) (mark : Bool) (go : Go) : (settle s c mark go).canopyKeys = s.canopyKeys := rfl
@[simp] theorem settle_marks (s : State) (c : Ctx) (mark : Bool) (go : Go) : (settle s c mark go).marks = s.marks := rfl
@[simp] theorem settle_thresh (s : State) (c : Ctx) (mark : Bool) (go : Go) : (settle s c mark go).thresh = s.thresh := rfl
@[simp] theorem settle_repairs (s : State) (c : Ctx) (mark : Bool) (go : Go) : (settle s c mark go).repairs = s.repairs := rfl
@[simp] theorem settle_spares (s : State) (c : Ctx) (mark : Bool) (go : Go) : (settle s c mark go).spares = s.spares := rfl
@[simp] theorem settle_disabledWays (s : State) (c : Ctx) (mark : Bool) (go : Go) : (settle s c mark go).disabledWays = s.disabledWays := rfl
@[simp] theorem settle_events (s : State) (c : Ctx) (mark : Bool) (go : Go) : (settle s c mark go).events = s.events := rfl
@[simp] theorem settle_eventIndex (s : State) (c : Ctx) (mark : Bool) (go : Go) : (settle s c mark go).eventIndex = s.eventIndex := rfl

/-! ## `parkAt` -/

@[simp] theorem parkAt_issue (s : State) (c : Ctx) (why : ParkReason) : (parkAt s c why).issue = none := rfl
@[simp] theorem parkAt_now (s : State) (c : Ctx) (why : ParkReason) : (parkAt s c why).now = s.now := rfl
@[simp] theorem parkAt_turn (s : State) (c : Ctx) (why : ParkReason) : (parkAt s c why).turn = s.turn := rfl
@[simp] theorem parkAt_nextId (s : State) (c : Ctx) (why : ParkReason) : (parkAt s c why).nextId = s.nextId := rfl
@[simp] theorem parkAt_agenda (s : State) (c : Ctx) (why : ParkReason) : (parkAt s c why).agenda = s.agenda := rfl
@[simp] theorem parkAt_inReset (s : State) (c : Ctx) (why : ParkReason) : (parkAt s c why).inReset = s.inReset := rfl
@[simp] theorem parkAt_booted (s : State) (c : Ctx) (why : ParkReason) : (parkAt s c why).booted = s.booted := rfl
@[simp] theorem parkAt_timeFree (s : State) (c : Ctx) (why : ParkReason) : (parkAt s c why).timeFree = s.timeFree := rfl
@[simp] theorem parkAt_timeLoss (s : State) (c : Ctx) (why : ParkReason) : (parkAt s c why).timeLoss = s.timeLoss := rfl
@[simp] theorem parkAt_timeRet (s : State) (c : Ctx) (why : ParkReason) : (parkAt s c why).timeRet = s.timeRet := rfl
@[simp] theorem parkAt_lossAt (s : State) (c : Ctx) (why : ParkReason) : (parkAt s c why).lossAt = s.lossAt := rfl
@[simp] theorem parkAt_returnAt (s : State) (c : Ctx) (why : ParkReason) : (parkAt s c why).returnAt = s.returnAt := rfl
@[simp] theorem parkAt_bootFailed (s : State) (c : Ctx) (why : ParkReason) : (parkAt s c why).bootFailed = s.bootFailed := rfl
@[simp] theorem parkAt_xlat (s : State) (c : Ctx) (why : ParkReason) : (parkAt s c why).xlat = s.xlat := rfl
@[simp] theorem parkAt_mem (s : State) (c : Ctx) (why : ParkReason) : (parkAt s c why).mem = s.mem := rfl
@[simp] theorem parkAt_lineKeys (s : State) (c : Ctx) (why : ParkReason) : (parkAt s c why).lineKeys = s.lineKeys := rfl
@[simp] theorem parkAt_oddBytes (s : State) (c : Ctx) (why : ParkReason) : (parkAt s c why).oddBytes = s.oddBytes := rfl
@[simp] theorem parkAt_poison (s : State) (c : Ctx) (why : ParkReason) : (parkAt s c why).poison = s.poison := rfl
@[simp] theorem parkAt_towers (s : State) (c : Ctx) (why : ParkReason) : (parkAt s c why).towers = s.towers := rfl
@[simp] theorem parkAt_columns (s : State) (c : Ctx) (why : ParkReason) : (parkAt s c why).columns = s.columns := rfl
@[simp] theorem parkAt_chunks (s : State) (c : Ctx) (why : ParkReason) : (parkAt s c why).chunks = s.chunks := rfl
@[simp] theorem parkAt_halvedAt (s : State) (c : Ctx) (why : ParkReason) : (parkAt s c why).halvedAt = s.halvedAt := rfl
@[simp] theorem parkAt_images (s : State) (c : Ctx) (why : ParkReason) : (parkAt s c why).images = s.images := rfl
@[simp] theorem parkAt_reserves (s : State) (c : Ctx) (why : ParkReason) : (parkAt s c why).reserves = s.reserves := rfl
@[simp] theorem parkAt_spaces (s : State) (c : Ctx) (why : ParkReason) : (parkAt s c why).spaces = s.spaces := rfl
@[simp] theorem parkAt_regions (s : State) (c : Ctx) (why : ParkReason) : (parkAt s c why).regions = s.regions := rfl
@[simp] theorem parkAt_flights (s : State) (c : Ctx) (why : ParkReason) : (parkAt s c why).flights = s.flights := rfl
@[simp] theorem parkAt_past (s : State) (c : Ctx) (why : ParkReason) : (parkAt s c why).past = s.past := rfl
@[simp] theorem parkAt_former (s : State) (c : Ctx) (why : ParkReason) : (parkAt s c why).former = s.former := rfl
@[simp] theorem parkAt_copies (s : State) (c : Ctx) (why : ParkReason) : (parkAt s c why).copies = s.copies := rfl
@[simp] theorem parkAt_commands (s : State) (c : Ctx) (why : ParkReason) : (parkAt s c why).commands = s.commands := rfl
@[simp] theorem parkAt_lines (s : State) (c : Ctx) (why : ParkReason) : (parkAt s c why).lines = s.lines := rfl
@[simp] theorem parkAt_dirs (s : State) (c : Ctx) (why : ParkReason) : (parkAt s c why).dirs = s.dirs := rfl
@[simp] theorem parkAt_msgs (s : State) (c : Ctx) (why : ParkReason) : (parkAt s c why).msgs = s.msgs := rfl
@[simp] theorem parkAt_playbill (s : State) (c : Ctx) (why : ParkReason) : (parkAt s c why).playbill = s.playbill := rfl
@[simp] theorem parkAt_images7 (s : State) (c : Ctx) (why : ParkReason) : (parkAt s c why).images7 = s.images7 := rfl
@[simp] theorem parkAt_conversions (s : State) (c : Ctx) (why : ParkReason) : (parkAt s c why).conversions = s.conversions := rfl
@[simp] theorem parkAt_swaps (s : State) (c : Ctx) (why : ParkReason) : (parkAt s c why).swaps = s.swaps := rfl
@[simp] theorem parkAt_links (s : State) (c : Ctx) (why : ParkReason) : (parkAt s c why).links = s.links := rfl
@[simp] theorem parkAt_windows (s : State) (c : Ctx) (why : ParkReason) : (parkAt s c why).windows = s.windows := rfl
@[simp] theorem parkAt_device (s : State) (c : Ctx) (why : ParkReason) : (parkAt s c why).device = s.device := rfl
@[simp] theorem parkAt_hostBase (s : State) (c : Ctx) (why : ParkReason) : (parkAt s c why).hostBase = s.hostBase := rfl
@[simp] theorem parkAt_hostKeys (s : State) (c : Ctx) (why : ParkReason) : (parkAt s c why).hostKeys = s.hostKeys := rfl
@[simp] theorem parkAt_mailbox (s : State) (c : Ctx) (why : ParkReason) : (parkAt s c why).mailbox = s.mailbox := rfl
@[simp] theorem parkAt_migq (s : State) (c : Ctx) (why : ParkReason) : (parkAt s c why).migq = s.migq := rfl
@[simp] theorem parkAt_signals (s : State) (c : Ctx) (why : ParkReason) : (parkAt s c why).signals = s.signals := rfl
@[simp] theorem parkAt_answers (s : State) (c : Ctx) (why : ParkReason) : (parkAt s c why).answers = s.answers := rfl
@[simp] theorem parkAt_debugger (s : State) (c : Ctx) (why : ParkReason) : (parkAt s c why).debugger = s.debugger := rfl
@[simp] theorem parkAt_keys (s : State) (c : Ctx) (why : ParkReason) : (parkAt s c why).keys = s.keys := rfl
@[simp] theorem parkAt_formerKeys (s : State) (c : Ctx) (why : ParkReason) : (parkAt s c why).formerKeys = s.formerKeys := rfl
@[simp] theorem parkAt_keks (s : State) (c : Ctx) (why : ParkReason) : (parkAt s c why).keks = s.keks := rfl
@[simp] theorem parkAt_canopyKeys (s : State) (c : Ctx) (why : ParkReason) : (parkAt s c why).canopyKeys = s.canopyKeys := rfl
@[simp] theorem parkAt_marks (s : State) (c : Ctx) (why : ParkReason) : (parkAt s c why).marks = s.marks := rfl
@[simp] theorem parkAt_thresh (s : State) (c : Ctx) (why : ParkReason) : (parkAt s c why).thresh = s.thresh := rfl
@[simp] theorem parkAt_repairs (s : State) (c : Ctx) (why : ParkReason) : (parkAt s c why).repairs = s.repairs := rfl
@[simp] theorem parkAt_spares (s : State) (c : Ctx) (why : ParkReason) : (parkAt s c why).spares = s.spares := rfl
@[simp] theorem parkAt_disabledWays (s : State) (c : Ctx) (why : ParkReason) : (parkAt s c why).disabledWays = s.disabledWays := rfl
@[simp] theorem parkAt_events (s : State) (c : Ctx) (why : ParkReason) : (parkAt s c why).events = s.events := rfl
@[simp] theorem parkAt_eventIndex (s : State) (c : Ctx) (why : ParkReason) : (parkAt s c why).eventIndex = s.eventIndex := rfl

@[simp] theorem addFlight_flights (s : State) (f : Flight) : (addFlight s f).flights =
    s.flights ++ [{ f with dests := ((List.range f.dests.length).zip f.dests).map (fun e => { e.2 with word := e.1, slot := f.x.slot }) }] := rfl
@[simp] theorem addFlight_nextId (s : State) (f : Flight) : (addFlight s f).nextId = s.nextId + 1 := rfl
@[simp] theorem endIssue_draw (s : State) : (endIssue s).draw = s.draw + 1 := rfl
@[simp] theorem settle_draw (s : State) (c : Ctx) (mark : Bool) (go : Go) : (settle s c mark go).draw = s.draw + 1 := rfl
@[simp] theorem parkAt_draw (s : State) (c : Ctx) (why : ParkReason) : (parkAt s c why).draw = s.draw + 1 := rfl

end Sys2Proof.Machine
end

