-- ==== Sys2Proof/Laws/Table.lean ====
section
/-! SUPPORT. Tables and lists: a read after a put, the canonical order, a change of one element. -/

namespace Sys2Proof.Machine

/-! ## Tables -/

@[simp] theorem Table.find_nil {α : Type} (k : Nat) : Table.find ([] : List (Nat × α)) k = none := rfl

/-- A key reads the value just put at it. -/
@[simp] theorem Table.find_put_same {α : Type} (t : List (Nat × α)) (k : Nat) (v : α) : Table.find (Table.put t k v) k = some v := by
  induction t with
  | nil => simp [Table.put, Table.find]
  | cons e r ih =>
    obtain ⟨j, w⟩ := e
    simp only [Table.put]
    split
    · simp [Table.find]
    · split <;> simp_all [Table.find]

/-- A put leaves every other key alone. -/
theorem Table.find_put_other {α : Type} (t : List (Nat × α)) (k j : Nat) (v : α) (h : j ≠ k) :
    Table.find (Table.put t k v) j = Table.find t j := by
  induction t with
  | nil => simp [Table.put, Table.find, h.symm]
  | cons e r ih =>
    obtain ⟨i, w⟩ := e
    simp only [Table.put]
    split
    · simp [Table.find, h.symm]
    · split
      · next hik => subst hik; simp [Table.find, h.symm]
      · simp [Table.find, ih]

theorem Table.find_put {α : Type} (t : List (Nat × α)) (k j : Nat) (v : α) :
    Table.find (Table.put t k v) j = if j = k then some v else Table.find t j := by
  split
  · next h => subst h; simp
  · next h => exact Table.find_put_other t k j v h

@[simp] theorem Table.get_put_same {α : Type} (t : List (Nat × α)) (k : Nat) (v d : α) : Table.get (Table.put t k v) k d = v := by
  simp [Table.get]

theorem Table.get_put {α : Type} (t : List (Nat × α)) (k j : Nat) (v d : α) :
    Table.get (Table.put t k v) j d = if j = k then v else Table.get t j d := by
  simp only [Table.get, Table.find_put]; split <;> rfl

/-- A dropped key is absent, and every other key stays. -/
theorem Table.find_drop {α : Type} (t : List (Nat × α)) (k j : Nat) :
    Table.find (Table.drop t k) j = if j = k then none else Table.find t j := by
  induction t with
  | nil => simp [Table.drop, Table.find]
  | cons e r ih =>
    obtain ⟨i, w⟩ := e
    simp only [Table.drop, List.filter_cons] at ih ⊢
    by_cases hik : i = k <;> by_cases hij : i = j <;> by_cases hjk : j = k <;> simp_all [Table.find]

theorem Table.get_drop {α : Type} (t : List (Nat × α)) (k j : Nat) (d : α) :
    Table.get (Table.drop t k) j d = if j = k then d else Table.get t j d := by
  simp only [Table.get, Table.find_drop]; split <;> rfl

theorem Table.get_modify {α : Type} (t : List (Nat × α)) (k j : Nat) (d : α) (f : α → α) :
    Table.get (Table.modify t k d f) j d = if j = k then f (Table.get t k d) else Table.get t j d := by
  simp [Table.modify, Table.get_put]

theorem Table.find_modify {α : Type} (t : List (Nat × α)) (k j : Nat) (d : α) (f : α → α) :
    Table.find (Table.modify t k d f) j = if j = k then some (f (Table.get t k d)) else Table.find t j := by
  simp [Table.modify, Table.find_put]

/-- The keys rise exactly when each lies below all that follow. -/
theorem Table.rising_iff {α : Type} (t : List (Nat × α)) : Table.rising t = true ↔ t.Pairwise (fun a b => a.1 < b.1) := by
  induction t with
  | nil => simp [Table.rising]
  | cons a r ih =>
    cases r with
    | nil => simp [Table.rising]
    | cons b s =>
      simp only [Table.rising, Bool.and_eq_true, decide_eq_true_eq, ih, List.pairwise_cons, List.mem_cons, forall_eq_or_imp]
      constructor
      · rintro ⟨h, h1, h2⟩
        exact ⟨⟨h, fun c hc => lt_trans h (h1 c hc)⟩, h1, h2⟩
      · rintro ⟨⟨h, -⟩, h1, h2⟩
        exact ⟨h, h1, h2⟩

theorem Table.mem_put {α : Type} {t : List (Nat × α)} {k : Nat} {v : α} {e : Nat × α} (h : e ∈ Table.put t k v) : e = (k, v) ∨ e ∈ t := by
  induction t with
  | nil => simpa [Table.put] using h
  | cons a r ih =>
    obtain ⟨j, w⟩ := a
    simp only [Table.put] at h
    split at h
    · simpa using h
    · split at h
      · rcases List.mem_cons.mp h with h | h
        · exact .inl h
        · exact .inr (List.mem_cons_of_mem _ h)
      · rcases List.mem_cons.mp h with h | h
        · exact .inr (h ▸ List.mem_cons_self)
        · rcases ih h with h | h
          · exact .inl h
          · exact .inr (List.mem_cons_of_mem _ h)

/-- A put keeps the keys rising. -/
theorem Table.rising_put {α : Type} (t : List (Nat × α)) (k : Nat) (v : α) (h : Table.rising t = true) : Table.rising (Table.put t k v) = true := by
  rw [Table.rising_iff] at h ⊢
  induction t with
  | nil => simp [Table.put]
  | cons a r ih =>
    obtain ⟨j, w⟩ := a
    rw [List.pairwise_cons] at h
    simp only [Table.put]
    split
    · next hkj =>
      rw [List.pairwise_cons]
      refine ⟨fun c hc => ?_, List.pairwise_cons.mpr h⟩
      rcases List.mem_cons.mp hc with rfl | hc
      · exact hkj
      · exact lt_trans hkj (h.1 c hc)
    · split
      · next hjk => subst hjk; exact List.pairwise_cons.mpr ⟨h.1, h.2⟩
      · next h1 h2 =>
        refine List.pairwise_cons.mpr ⟨fun c hc => ?_, ih h.2⟩
        rcases Table.mem_put hc with rfl | hc
        · exact Nat.lt_of_le_of_ne (Nat.le_of_not_lt h1) h2
        · exact h.1 c hc

/-- A drop keeps the keys rising. -/
theorem Table.rising_drop {α : Type} (t : List (Nat × α)) (k : Nat) (h : Table.rising t = true) : Table.rising (Table.drop t k) = true := by
  rw [Table.rising_iff] at h ⊢
  exact h.filter _

/-! ## Lists -/

theorem getElem?_modAt {α : Type} (l : List α) (k j : Nat) (f : α → α) :
    (modAt l k f)[j]? = if j = k then (l[j]?).map f else l[j]? := by
  induction l generalizing k j with
  | nil => simp [modAt]
  | cons a r ih =>
    cases k with
    | zero => cases j <;> simp [modAt]
    | succ k => cases j <;> simp [modAt, ih]

@[simp] theorem length_modAt {α : Type} (l : List α) (k : Nat) (f : α → α) : (modAt l k f).length = l.length := by
  induction l generalizing k with
  | nil => rfl
  | cons a r ih => cases k <;> simp [modAt, ih]

/-- A change that a map does not see is no change to the mapped list. -/
theorem map_modAt {α β : Type} (l : List α) (k : Nat) (f : α → α) (g : α → β) (h : ∀ a, g (f a) = g a) : (modAt l k f).map g = l.map g := by
  induction l generalizing k with
  | nil => rfl
  | cons a r ih => cases k <;> simp [modAt, h, ih]

theorem firstWith_mem {α : Type} {p : α → Bool} {l : List α} {a : α} (h : firstWith p l = some a) : a ∈ l ∧ p a = true := by
  induction l with
  | nil => simp [firstWith] at h
  | cons b r ih =>
    simp only [firstWith] at h
    split at h
    · next hb => cases h; exact ⟨List.mem_cons_self, hb⟩
    · exact ⟨List.mem_cons_of_mem _ (ih h).1, (ih h).2⟩

theorem firstWith_none {α : Type} {p : α → Bool} {l : List α} (h : firstWith p l = none) : ∀ a ∈ l, p a = false := by
  induction l with
  | nil => simp
  | cons b r ih =>
    simp only [firstWith] at h
    split at h
    · cases h
    · next hb => simpa using ⟨by simpa using hb, fun a ha => ih h a ha⟩

/-- A change that keeps what the test sees changes the element found, and no other. -/
theorem firstWith_map {α : Type} (p : α → Bool) (l : List α) (f : α → α) (h : ∀ a, p (f a) = p a) :
    firstWith p (l.map f) = (firstWith p l).map f := by
  induction l with
  | nil => rfl
  | cons a r ih => simp only [List.map_cons, firstWith, h]; split <;> simp [ih]

/-- A change of the elements with one key, which keeps their key, as a search by key sees it. -/
theorem firstWith_key {α : Type} (key : α → Nat) (l : List α) (id k : Nat) (f : α → α) (h : ∀ a, key (f a) = key a) :
    firstWith (fun a => key a == k) (l.map (fun a => if key a = id then f a else a)) =
      if k = id then (firstWith (fun a => key a == k) l).map f else firstWith (fun a => key a == k) l := by
  induction l with
  | nil => simp [firstWith]
  | cons a r ih =>
    simp only [List.map_cons, firstWith, ih]
    by_cases h1 : key a = id
    · by_cases h2 : key a = k
      · subst h1; simp [h, h2]
      · have h3 : ¬ k = id := fun e => h2 (h1.trans e.symm)
        simp [h1, h, h3, show ¬ id = k from fun e => h3 e.symm]
    · by_cases h2 : key a = k
      · subst h2; simp [h1]
      · simp [h1, h2]

/-! ## Lanes and masks -/

@[simp] theorem lane_ofLanes (f : Nat → Word) (l : Nat) (h : l < 96) : lane (ofLanes f) l = f l := by
  simp [lane, ofLanes, allLanes, List.getD, h]

theorem foldr_testBit (f : Nat → Bool) (n m : Nat) (l : Nat) :
    (((List.range' m n).foldr (fun k acc => (if f k then 1 else 0) + 2 * acc) 0).testBit l) = (decide (l < n) && f (m + l)) := by
  induction n generalizing m l with
  | zero => simp
  | succ n ih =>
    simp only [List.range'_succ, List.foldr_cons]
    cases l with
    | zero => by_cases h : f m <;> simp [h, Nat.testBit_zero]
    | succ l =>
      have : ∀ (b : Bool) (x : Nat), ((if b then 1 else 0) + 2 * x).testBit (l + 1) = x.testBit l := by
        intro b x
        rw [Nat.testBit_succ]
        congr 1
        cases b
        · simp
        · simp only [if_true]; omega
      rw [this, ih]
      simp [Nat.add_assoc, Nat.add_comm 1 l]

@[simp] theorem has_ofMask (f : Nat → Bool) (l : Nat) (h : l < 96) : has (ofMask f) l = f l := by
  have e : allLanes = List.range' 0 96 := by simp [allLanes, List.range_eq_range']
  rw [has, ofMask, BitVec.getLsbD_ofNat, e, foldr_testBit]
  simp [h]

theorem mem_lanesOf (m : Mask) (l : Nat) : l ∈ lanesOf m ↔ l < 96 ∧ has m l = true := by simp [lanesOf, allLanes]

@[simp] theorem length_bytesOf (n v : Nat) : (bytesOf n v).length = n := by
  induction n generalizing v with
  | zero => rfl
  | succ n ih => simp [bytesOf, ih]

/-- The bytes of a number hold it, modulo their width. -/
theorem numOf_bytesOf (n v : Nat) : numOf (bytesOf n v) = v % 256 ^ n := by
  induction n generalizing v with
  | zero => simp [bytesOf, numOf, Nat.mod_one]
  | succ n ih =>
    have h := ih (v / 256)
    simp only [bytesOf, numOf, List.foldr_cons] at h ⊢
    have e : 256 ^ (n + 1) = 256 * 256 ^ n := Nat.pow_succ'
    rw [h, BitVec.toNat_ofNat, e]
    exact (Nat.mod_mul).symm

end Sys2Proof.Machine
end

