-- ==== Sys2Proof/Laws/Find.lean ====
section
/-! SUPPORT. What is found after a change: workgroups, groups, splits, cores, columns, towers, regions, flights, and the context of a split. -/

namespace Sys2Proof.Machine

/-! ## Tables of the device -/

@[simp] theorem coreOf_modCore (s : State) (n k : Nat) (f : Core → Core) : coreOf (modCore s n f) k = if k = n then f (coreOf s n) else coreOf s k := by
  simp [coreOf, modCore, Table.get_modify]

@[simp] theorem columnOf_modColumn (s : State) (n k : Nat) (f : Column → Column) :
    columnOf (modColumn s n f) k = if k = n then f (columnOf s n) else columnOf s k := by simp [columnOf, modColumn, Table.get_modify]

@[simp] theorem towerOf_modTower (s : State) (n k : Nat) (f : Tower → Tower) :
    towerOf (modTower s n f) k = if k = n then f (towerOf s n) else towerOf s k := by simp [towerOf, modTower, Table.get_modify]

theorem coreOf_congr {s t : State} (h : t.cores = s.cores) (n : Nat) : coreOf t n = coreOf s n := by simp [coreOf, h]
theorem columnOf_congr {s t : State} (h : t.columns = s.columns) (n : Nat) : columnOf t n = columnOf s n := by simp [columnOf, h]
theorem towerOf_congr {s t : State} (h : t.towers = s.towers) (n : Nat) : towerOf t n = towerOf s n := by simp [towerOf, h]
theorem wgFind_congr {s t : State} (h : t.wgs = s.wgs) (id : Nat) : wgFind t id = wgFind s id := by simp [wgFind, h]
theorem regionFind_congr {s t : State} (h : t.regions = s.regions) (id : Nat) : regionFind t id = regionFind s id := by simp [regionFind, h]
theorem groupFind_congr {s t : State} (h : t.wgs = s.wgs) (g : GroupId) : groupFind t g = groupFind s g := by simp [groupFind, wgFind, h]
theorem splitFind_congr {s t : State} (h : t.wgs = s.wgs) (x : SplitId) : splitFind t x = splitFind s x := by simp [splitFind, groupFind, wgFind, h]
theorem flightFind_congr {s t : State} (h : t.flights = s.flights) (id : Nat) : flightFind t id = flightFind s id := by simp [flightFind, h]

/-! ## Lists of the device -/

theorem wgFind_modWg (s : State) (id k : Nat) (f : Workgroup → Workgroup) (h : ∀ w, (f w).id = w.id) :
    wgFind (modWg s id f) k = if k = id then (wgFind s k).map f else wgFind s k := firstWith_key Workgroup.id s.wgs id k f h

theorem regionFind_modRegion (s : State) (id k : Nat) (f : Region → Region) (h : ∀ r, (f r).id = r.id) :
    regionFind (modRegion s id f) k = if k = id then (regionFind s k).map f else regionFind s k := firstWith_key Region.id s.regions id k f h

theorem flightFind_modFlight (s : State) (id k : Nat) (f : Flight → Flight) (h : ∀ r, (f r).id = r.id) :
    flightFind (modFlight s id f) k = if k = id then (flightFind s k).map f else flightFind s k := firstWith_key Flight.id s.flights id k f h

theorem wgFind_modGroup (s : State) (g : GroupId) (k : Nat) (f : Group → Group) :
    wgFind (modGroup s g f) k = if k = g.wg then (wgFind s k).map (fun w => { w with groups := modAt w.groups g.grp f }) else wgFind s k :=
  wgFind_modWg s g.wg k _ (fun _ => rfl)

theorem groupFind_modGroup (s : State) (g h : GroupId) (f : Group → Group) :
    groupFind (modGroup s g f) h = if h = g then (groupFind s h).map f else groupFind s h := by
  obtain ⟨gw, gg⟩ := g
  obtain ⟨hw, hg⟩ := h
  simp only [groupFind, wgFind_modGroup, GroupId.mk.injEq]
  by_cases h1 : hw = gw
  · subst h1
    cases wgFind s hw with
    | none => simp
    | some w => by_cases h2 : hg = gg <;> simp [getElem?_modAt, h2]
  · simp [h1]

theorem splitFind_modSplit (s : State) (x y : SplitId) (f : Split → Split) :
    splitFind (modSplit s x f) y = if y = x then (splitFind s y).map f else splitFind s y := by
  obtain ⟨xw, xg, xs⟩ := x
  obtain ⟨yw, yg, ys⟩ := y
  simp only [splitFind, modSplit, groupFind_modGroup, groupOf, GroupId.mk.injEq, SplitId.mk.injEq]
  by_cases h1 : yw = xw ∧ yg = xg
  · obtain ⟨rfl, rfl⟩ := h1
    cases groupFind s { wg := yw, grp := yg } with
    | none => simp
    | some g => by_cases h2 : ys = xs <;> simp [getElem?_modAt, h2]
  · have : ¬ (yw = xw ∧ yg = xg ∧ ys = xs) := fun h => h1 ⟨h.1, h.2.1⟩
    simp [h1, this]

/-- A change of a group that keeps its splits changes no split. -/
theorem splitFind_modGroup (s : State) (g : GroupId) (y : SplitId) (f : Group → Group) (h : ∀ gr, (f gr).splits = gr.splits) :
    splitFind (modGroup s g f) y = splitFind s y := by
  simp only [splitFind, groupFind_modGroup]
  split
  · cases groupFind s (groupOf y) <;> simp [h]
  · rfl

@[simp] theorem wgFind_modCore (s : State) (n k : Nat) (f : Core → Core) : wgFind (modCore s n f) k = wgFind s k := rfl
@[simp] theorem groupFind_modCore (s : State) (n : Nat) (f : Core → Core) (g : GroupId) : groupFind (modCore s n f) g = groupFind s g := rfl
@[simp] theorem splitFind_modCore (s : State) (n : Nat) (f : Core → Core) (x : SplitId) : splitFind (modCore s n f) x = splitFind s x := rfl

/-! ## The context of a split -/

/-- The parts of a context are the records that the device holds. -/
theorem ctxOf_iff (s : State) (x : SplitId) (c : Ctx) :
    ctxOf s x = some c ↔ c.x = x ∧ wgFind s x.wg = some c.w ∧ c.w.groups[x.grp]? = some c.g ∧ regionFind s c.w.region = some c.r ∧
      c.g.splits[x.slot]? = some c.p ∧ c.core = coreOf s c.w.core ∧ c.draw = s.draw := by
  unfold ctxOf
  cases hw : wgFind s x.wg with
  | none => simp
  | some w =>
    simp only [Option.some.injEq]
    cases hg : w.groups[x.grp]? with
    | none =>
      constructor
      · intro h; simp at h
      · rintro ⟨-, rfl, h, -⟩; rw [hg] at h; cases h
    | some g =>
      cases hr : regionFind s w.region with
      | none =>
        constructor
        · intro h; simp at h
        · rintro ⟨-, rfl, -, h, -⟩; rw [hr] at h; cases h
      | some r =>
        cases hp : g.splits[x.slot]? with
        | none =>
          constructor
          · intro h; simp [hp] at h
          · rintro ⟨-, rfl, h, -, h2, -⟩; rw [hg] at h; cases h; rw [hp] at h2; cases h2
        | some p =>
          simp only [hp, Option.some.injEq]
          constructor
          · rintro rfl; exact ⟨rfl, rfl, hg, hr, hp, rfl, rfl⟩
          · obtain ⟨cx, cw, cg, cp, cr, ck, cd⟩ := c
            simp only
            rintro ⟨rfl, rfl, h1, h2, h3, h4, h5⟩
            rw [hg] at h1; cases h1
            rw [hp] at h3; cases h3
            rw [hr] at h2; cases h2
            rw [h4, h5]

theorem ctxOf_groupFind {s : State} {x : SplitId} {c : Ctx} (h : ctxOf s x = some c) : groupFind s (groupOf x) = some c.g := by
  obtain ⟨-, hw, hg, -⟩ := (ctxOf_iff s x c).mp h
  simp [groupFind, groupOf, hw, hg]

theorem ctxOf_splitFind {s : State} {x : SplitId} {c : Ctx} (h : ctxOf s x = some c) : splitFind s x = some c.p := by
  obtain ⟨-, -, -, -, hp, -⟩ := (ctxOf_iff s x c).mp h
  simp [splitFind, ctxOf_groupFind h, hp]

theorem ctxOf_x {s : State} {x : SplitId} {c : Ctx} (h : ctxOf s x = some c) : c.x = x := ((ctxOf_iff s x c).mp h).1

/-- The issuing split and its context. -/
theorem issuing_some {s : State} {c : Ctx} (h : issuing s = some c) : s.issue = some c.x ∧ ctxOf s c.x = some c := by
  unfold issuing at h
  cases hi : s.issue with
  | none => rw [hi] at h; cases h
  | some x =>
    rw [hi] at h
    have hx : ctxOf s x = some c := h
    rw [ctxOf_x hx]
    exact ⟨rfl, hx⟩

end Sys2Proof.Machine
end

