-- ==== Sys2Proof/Laws/Memory.lean ====
section
/-! SUPPORT. Memory: a read after a write, and that every operation keeps the canonical form. -/

namespace Sys2Proof.Machine

/-! ## One byte -/

/-- A byte reads as what was written to it; every other byte reads as before. -/
theorem Memory.read_write (m : List Host.Cell) (a b : Nat) (v : Byte) :
    Memory.read (Memory.write m a v) b = if b = a then v else Memory.read m b := by
  unfold Memory.read Memory.write
  split
  · next h => subst h; exact Table.get_drop m a b 0
  · exact Table.get_put m a b v 0

@[simp] theorem Memory.read_write_same (m : List Host.Cell) (a : Nat) (v : Byte) : Memory.read (Memory.write m a v) a = v := by
  simp [Memory.read_write]

theorem Memory.read_write_other (m : List Host.Cell) (a b : Nat) (v : Byte) (h : b ≠ a) :
    Memory.read (Memory.write m a v) b = Memory.read m b := by simp [Memory.read_write, h]

/-- A write of one byte keeps the canonical form. -/
theorem Memory.wf_write (m : List Host.Cell) (a : Nat) (v : Byte) (h : Memory.wf m = true) : Memory.wf (Memory.write m a v) = true := by
  simp only [Memory.wf, Bool.and_eq_true, List.all_eq_true] at h ⊢
  unfold Memory.write
  split
  · exact ⟨Table.rising_drop m a h.1, fun c hc => h.2 c (List.mem_of_mem_filter hc)⟩
  · next hv =>
    refine ⟨Table.rising_put m a v h.1, fun c hc => ?_⟩
    rcases Table.mem_put hc with rfl | hc
    · simpa using hv
    · exact h.2 c hc

/-! ## Byte strings -/

/-- A string is read where it was written; every other byte reads as before. -/
theorem Memory.read_writeN (m : List Host.Cell) (a : Nat) (bs : List Byte) (b : Nat) :
    Memory.read (Memory.writeN m a bs) b = if a ≤ b ∧ b < a + bs.length then bs.getD (b - a) 0 else Memory.read m b := by
  induction bs generalizing m a with
  | nil =>
    rw [if_neg (by simp only [List.length_nil]; omega)]
    rfl
  | cons v r ih =>
    rw [Memory.writeN, ih]
    by_cases h1 : b = a
    · subst h1; simp
    · by_cases h2 : a + 1 ≤ b ∧ b < a + 1 + r.length
      · have e : b - a = (b - (a + 1)) + 1 := by omega
        rw [if_pos h2, if_pos (by simp only [List.length_cons]; omega), e]; simp
      · rw [if_neg h2, if_neg (by simp only [List.length_cons]; omega), Memory.read_write_other _ _ _ _ h1]

theorem Memory.wf_writeN (m : List Host.Cell) (a : Nat) (bs : List Byte) (h : Memory.wf m = true) : Memory.wf (Memory.writeN m a bs) = true := by
  induction bs generalizing m a with
  | nil => exact h
  | cons v r ih => exact ih _ _ (Memory.wf_write m a v h)

/-- A memory write of the device keeps the canonical form. -/
theorem memWrite_wf (s : State) (a : Nat) (bs : List Byte) (h : Memory.wf s.mem = true) : Memory.wf (memWrite s a bs).mem = true :=
  Memory.wf_writeN s.mem a bs h

theorem memRead_length (s : State) (a n : Nat) : (memRead s a n).length = n := by simp [memRead, Memory.readN]

/-- A string of the device's memory reads as it was written. -/
theorem memRead_memWrite (s : State) (a : Nat) (bs : List Byte) : memRead (memWrite s a bs) a bs.length = bs := by
  apply List.ext_getElem
  · simp [memRead, Memory.readN]
  · intro i h1 h2
    simp [memRead, memWrite, Memory.readN, Memory.read_writeN, List.getD, h2]

/-! ## Canonical memories -/

theorem Table.find_of_lt {α : Type} (t : List (Nat × α)) (k : Nat) (h : ∀ e ∈ t, k < e.1) : Table.find t k = none := by
  induction t with
  | nil => rfl
  | cons e r ih =>
    obtain ⟨j, w⟩ := e
    have hj : k < j := h (j, w) List.mem_cons_self
    simp only [Table.find, if_neg (show ¬ j = k by omega)]
    exact ih (fun e he => h e (List.mem_cons_of_mem _ he))

/-- Two canonical memories that read alike are the same data. -/
theorem Memory.eq_of_read (m n : List Host.Cell) (hm : Memory.wf m = true) (hn : Memory.wf n = true) (h : ∀ a, Memory.read m a = Memory.read n a) :
    m = n := by
  induction m generalizing n with
  | nil =>
    cases n with
    | nil => rfl
    | cons c r =>
      obtain ⟨k, v⟩ := c
      have h0 := h k
      simp only [Memory.wf, Bool.and_eq_true, List.all_eq_true] at hn
      have := hn.2 (k, v) List.mem_cons_self
      simp [Memory.read, Table.get, Table.find] at h0 this
      exact absurd h0.symm this
  | cons c r ih =>
    obtain ⟨k, v⟩ := c
    simp only [Memory.wf, Bool.and_eq_true, List.all_eq_true] at hm hn
    have hp := (Table.rising_iff _).mp hm.1
    have hv : v ≠ 0 := by simpa using hm.2 (k, v) List.mem_cons_self
    rw [List.pairwise_cons] at hp
    cases n with
    | nil =>
      have h0 := h k
      simp [Memory.read, Table.get, Table.find] at h0
      exact absurd h0 hv
    | cons d q =>
      obtain ⟨j, w⟩ := d
      have hq := (Table.rising_iff _).mp hn.1
      have hw : w ≠ 0 := by simpa using hn.2 (j, w) List.mem_cons_self
      rw [List.pairwise_cons] at hq
      have hkj : k = j := by
        rcases lt_trichotomy k j with hlt | heq | hgt
        · have h0 := h k
          simp only [Memory.read, Table.get, Table.find, if_neg (show ¬ j = k by omega),
            Table.find_of_lt q k (fun e he => lt_trans hlt (hq.1 e he)), Option.getD_none] at h0
          exact absurd h0 hv
        · exact heq
        · have h0 := h j
          simp only [Memory.read, Table.get, Table.find, if_neg (show ¬ k = j by omega),
            Table.find_of_lt r j (fun e he => lt_trans hgt (hp.1 e he)), Option.getD_none] at h0
          exact absurd h0.symm hw
      subst hkj
      have hvw : v = w := by simpa [Memory.read, Table.get, Table.find] using h k
      subst hvw
      congr 1
      refine ih q ?_ ?_ (fun a => ?_)
      · simp only [Memory.wf, Bool.and_eq_true, List.all_eq_true]
        exact ⟨(Table.rising_iff r).mpr hp.2, fun c hc => hm.2 c (List.mem_cons_of_mem _ hc)⟩
      · simp only [Memory.wf, Bool.and_eq_true, List.all_eq_true]
        exact ⟨(Table.rising_iff q).mpr hq.2, fun c hc => hn.2 c (List.mem_cons_of_mem _ hc)⟩
      · by_cases hk : k = a
        · subst hk
          simp [Memory.read, Table.get, Table.find_of_lt r k hp.1, Table.find_of_lt q k hq.1]
        · have h0 := h a
          simpa only [Memory.read, Table.get, Table.find, if_neg hk] using h0

/-- Reset memory is canonical. -/
theorem reset_memory : Memory.wf State.reset.mem = true := rfl

end Sys2Proof.Machine
end

