-- ==== Sys2Proof/Laws/PerInstr.lean ====
section
/-! SUPPORT. Family `Opcode`: the word of a well-formed instruction has an opcode that R100 assigns, unless the instruction is an illegal word;
one lemma for each constructor. -/

namespace Sys2Proof.Laws.Opcode

/-- The instruction stands for a word of an opcode that is not assigned. -/
def illegalWord : Instr → Bool
  | .illegalOpcodeWord _ => true
  | _ => false

/-- An instruction that has a word has one whose opcode is assigned, unless it is an illegal word. -/
def Statement (i : Instr) : Prop := ∀ w, encode i = some w → i.wellFormed = true → illegalOpcode (opcodeOf w).toNat = illegalWord i

theorem of_word {i : Instr} {v : DWord} {op : BitVec 9} (he : encode i = some v) (hi : illegalWord i = false) (ho : opcodeOf v = op)
    (hop : illegalOpcode op.toNat = false) : Statement i := by
  intro w hw _
  rw [he] at hw
  cases hw
  rw [ho, hop, hi]

theorem of_event {i : Instr} (he : encode i = none) : Statement i := by
  intro w hw
  rw [he] at hw
  cases hw

theorem sadd (f : SF) : Statement (.sadd f) := of_word rfl rfl (f.opcodeOf_toWord _) (by decide)
theorem ssub (f : SF) : Statement (.ssub f) := of_word rfl rfl (f.opcodeOf_toWord _) (by decide)
theorem smul (f : SF) : Statement (.smul f) := of_word rfl rfl (f.opcodeOf_toWord _) (by decide)
theorem smulh (f : SF) : Statement (.smulh f) := of_word rfl rfl (f.opcodeOf_toWord _) (by decide)
theorem sdiv (f : SF) : Statement (.sdiv f) := of_word rfl rfl (f.opcodeOf_toWord _) (by decide)
theorem srem (f : SF) : Statement (.srem f) := of_word rfl rfl (f.opcodeOf_toWord _) (by decide)
theorem sand (f : SF) : Statement (.sand f) := of_word rfl rfl (f.opcodeOf_toWord _) (by decide)
theorem sor (f : SF) : Statement (.sor f) := of_word rfl rfl (f.opcodeOf_toWord _) (by decide)
theorem sxor (f : SF) : Statement (.sxor f) := of_word rfl rfl (f.opcodeOf_toWord _) (by decide)
theorem sandn (f : SF) : Statement (.sandn f) := of_word rfl rfl (f.opcodeOf_toWord _) (by decide)
theorem sshl (f : SF) : Statement (.sshl f) := of_word rfl rfl (f.opcodeOf_toWord _) (by decide)
theorem sshr (f : SF) : Statement (.sshr f) := of_word rfl rfl (f.opcodeOf_toWord _) (by decide)
theorem ssar (f : SF) : Statement (.ssar f) := of_word rfl rfl (f.opcodeOf_toWord _) (by decide)
theorem smin (f : SF) : Statement (.smin f) := of_word rfl rfl (f.opcodeOf_toWord _) (by decide)
theorem smax (f : SF) : Statement (.smax f) := of_word rfl rfl (f.opcodeOf_toWord _) (by decide)
theorem sminn (f : SF) : Statement (.sminn f) := of_word rfl rfl (f.opcodeOf_toWord _) (by decide)
theorem smaxn (f : SF) : Statement (.smaxn f) := of_word rfl rfl (f.opcodeOf_toWord _) (by decide)
theorem sset (f : SF) : Statement (.sset f) := of_word rfl rfl (f.opcodeOf_toWord _) (by decide)
theorem ssel (f : SF) : Statement (.ssel f) := of_word rfl rfl (f.opcodeOf_toWord _) (by decide)
theorem smov (f : SF) : Statement (.smov f) := of_word rfl rfl (f.opcodeOf_toWord _) (by decide)
theorem sli (f : SF) : Statement (.sli f) := of_word rfl rfl (f.opcodeOf_toWord _) (by decide)
theorem spopc (f : SF) : Statement (.spopc f) := of_word rfl rfl (f.opcodeOf_toWord _) (by decide)
theorem sclz (f : SF) : Statement (.sclz f) := of_word rfl rfl (f.opcodeOf_toWord _) (by decide)
theorem sctz (f : SF) : Statement (.sctz f) := of_word rfl rfl (f.opcodeOf_toWord _) (by decide)
theorem sfns (f : SF) : Statement (.sfns f) := of_word rfl rfl (f.opcodeOf_toWord _) (by decide)
theorem sbrev (f : SF) : Statement (.sbrev f) := of_word rfl rfl (f.opcodeOf_toWord _) (by decide)
theorem sext (f : SF) : Statement (.sext f) := of_word rfl rfl (f.opcodeOf_toWord _) (by decide)
theorem sbfx (f : SF) : Statement (.sbfx f) := of_word rfl rfl (f.opcodeOf_toWord _) (by decide)
theorem sbfi (f : SF) : Statement (.sbfi f) := of_word rfl rfl (f.opcodeOf_toWord _) (by decide)
theorem srdt (f : SF) : Statement (.srdt f) := of_word rfl rfl (f.opcodeOf_toWord _) (by decide)
theorem br (f : BF) : Statement (.br f) := of_word rfl rfl (f.opcodeOf_toWord _) (by decide)
theorem bc (f : BF) : Statement (.bc f) := of_word rfl rfl (f.opcodeOf_toWord _) (by decide)
theorem call (f : BF) : Statement (.call f) := of_word rfl rfl (f.opcodeOf_toWord _) (by decide)
theorem ret (f : BF) : Statement (.ret f) := of_word rfl rfl (f.opcodeOf_toWord _) (by decide)
theorem jr (f : BF) : Statement (.jr f) := of_word rfl rfl (f.opcodeOf_toWord _) (by decide)
theorem loop (f : BF) : Statement (.loop f) := of_word rfl rfl (f.opcodeOf_toWord _) (by decide)
theorem split (f : BF) : Statement (.split f) := of_word rfl rfl (f.opcodeOf_toWord _) (by decide)
theorem join (f : BF) : Statement (.join f) := of_word rfl rfl (f.opcodeOf_toWord _) (by decide)
theorem bzm (f : BF) : Statement (.bzm f) := of_word rfl rfl (f.opcodeOf_toWord _) (by decide)
theorem bnzm (f : BF) : Statement (.bnzm f) := of_word rfl rfl (f.opcodeOf_toWord _) (by decide)
theorem exit (f : BF) : Statement (.exit f) := of_word rfl rfl (f.opcodeOf_toWord _) (by decide)
theorem mset (f : SF) : Statement (.mset f) := of_word rfl rfl (f.opcodeOf_toWord _) (by decide)
theorem mand (f : SF) : Statement (.mand f) := of_word rfl rfl (f.opcodeOf_toWord _) (by decide)
theorem mor (f : SF) : Statement (.mor f) := of_word rfl rfl (f.opcodeOf_toWord _) (by decide)
theorem mandn (f : SF) : Statement (.mandn f) := of_word rfl rfl (f.opcodeOf_toWord _) (by decide)
theorem mxor (f : SF) : Statement (.mxor f) := of_word rfl rfl (f.opcodeOf_toWord _) (by decide)
theorem mnot (f : SF) : Statement (.mnot f) := of_word rfl rfl (f.opcodeOf_toWord _) (by decide)
theorem mcnt (f : SF) : Statement (.mcnt f) := of_word rfl rfl (f.opcodeOf_toWord _) (by decide)
theorem mfirst (f : SF) : Statement (.mfirst f) := of_word rfl rfl (f.opcodeOf_toWord _) (by decide)
theorem mfromp (f : SF) : Statement (.mfromp f) := of_word rfl rfl (f.opcodeOf_toWord _) (by decide)
theorem mtop (f : SF) : Statement (.mtop f) := of_word rfl rfl (f.opcodeOf_toWord _) (by decide)
theorem mode (f : SF) : Statement (.mode f) := of_word rfl rfl (f.opcodeOf_toWord _) (by decide)
theorem rmode (f : SF) : Statement (.rmode f) := of_word rfl rfl (f.opcodeOf_toWord _) (by decide)
theorem vadd (f : V3) : Statement (.vadd f) := of_word rfl rfl (f.opcodeOf_toWord _) (by decide)
theorem vsub (f : V3) : Statement (.vsub f) := of_word rfl rfl (f.opcodeOf_toWord _) (by decide)
theorem vmul (f : V3) : Statement (.vmul f) := of_word rfl rfl (f.opcodeOf_toWord _) (by decide)
theorem vmulh (f : V3) : Statement (.vmulh f) := of_word rfl rfl (f.opcodeOf_toWord _) (by decide)
theorem vmad (f : V3) : Statement (.vmad f) := of_word rfl rfl (f.opcodeOf_toWord _) (by decide)
theorem vmin (f : V3) : Statement (.vmin f) := of_word rfl rfl (f.opcodeOf_toWord _) (by decide)
theorem vmax (f : V3) : Statement (.vmax f) := of_word rfl rfl (f.opcodeOf_toWord _) (by decide)
theorem vabs (f : V3) : Statement (.vabs f) := of_word rfl rfl (f.opcodeOf_toWord _) (by decide)
theorem vneg (f : V3) : Statement (.vneg f) := of_word rfl rfl (f.opcodeOf_toWord _) (by decide)
theorem vand (f : V3) : Statement (.vand f) := of_word rfl rfl (f.opcodeOf_toWord _) (by decide)
theorem vor (f : V3) : Statement (.vor f) := of_word rfl rfl (f.opcodeOf_toWord _) (by decide)
theorem vxor (f : V3) : Statement (.vxor f) := of_word rfl rfl (f.opcodeOf_toWord _) (by decide)
theorem vandn (f : V3) : Statement (.vandn f) := of_word rfl rfl (f.opcodeOf_toWord _) (by decide)
theorem vnot (f : V3) : Statement (.vnot f) := of_word rfl rfl (f.opcodeOf_toWord _) (by decide)
theorem vshl (f : V3) : Statement (.vshl f) := of_word rfl rfl (f.opcodeOf_toWord _) (by decide)
theorem vshr (f : V3) : Statement (.vshr f) := of_word rfl rfl (f.opcodeOf_toWord _) (by decide)
theorem vsar (f : V3) : Statement (.vsar f) := of_word rfl rfl (f.opcodeOf_toWord _) (by decide)
theorem vrot (f : V3) : Statement (.vrot f) := of_word rfl rfl (f.opcodeOf_toWord _) (by decide)
theorem vpopc (f : V3) : Statement (.vpopc f) := of_word rfl rfl (f.opcodeOf_toWord _) (by decide)
theorem vclz (f : V3) : Statement (.vclz f) := of_word rfl rfl (f.opcodeOf_toWord _) (by decide)
theorem vctz (f : V3) : Statement (.vctz f) := of_word rfl rfl (f.opcodeOf_toWord _) (by decide)
theorem vfns (f : V3) : Statement (.vfns f) := of_word rfl rfl (f.opcodeOf_toWord _) (by decide)
theorem vbrev (f : V3) : Statement (.vbrev f) := of_word rfl rfl (f.opcodeOf_toWord _) (by decide)
theorem vbfx (f : V2I) : Statement (.vbfx f) := of_word rfl rfl (f.opcodeOf_toWord _) (by decide)
theorem vbfi (f : V2I) : Statement (.vbfi f) := of_word rfl rfl (f.opcodeOf_toWord _) (by decide)
theorem vcmp (f : V2I) : Statement (.vcmp f) := of_word rfl rfl (f.opcodeOf_toWord _) (by decide)
theorem vsel (f : V2I) : Statement (.vsel f) := of_word rfl rfl (f.opcodeOf_toWord _) (by decide)
theorem vmov (f : V3) : Statement (.vmov f) := of_word rfl rfl (f.opcodeOf_toWord _) (by decide)
theorem vmovi (f : VI) : Statement (.vmovi f) := of_word rfl rfl (f.opcodeOf_toWord _) (by decide)
theorem vaddi (f : VI) : Statement (.vaddi f) := of_word rfl rfl (f.opcodeOf_toWord _) (by decide)
theorem vcvt (f : V2I) : Statement (.vcvt f) := of_word rfl rfl (f.opcodeOf_toWord _) (by decide)
theorem vpack (f : V2I) : Statement (.vpack f) := of_word rfl rfl (f.opcodeOf_toWord _) (by decide)
theorem vunpk (f : V2I) : Statement (.vunpk f) := of_word rfl rfl (f.opcodeOf_toWord _) (by decide)
theorem vmulw (f : V3) : Statement (.vmulw f) := of_word rfl rfl (f.opcodeOf_toWord _) (by decide)
theorem vbcs (f : V2I) : Statement (.vbcs f) := of_word rfl rfl (f.opcodeOf_toWord _) (by decide)
theorem vrdl (f : V2I) : Statement (.vrdl f) := of_word rfl rfl (f.opcodeOf_toWord _) (by decide)
theorem fadd (f : V3) : Statement (.fadd f) := of_word rfl rfl (f.opcodeOf_toWord _) (by decide)
theorem fsub (f : V3) : Statement (.fsub f) := of_word rfl rfl (f.opcodeOf_toWord _) (by decide)
theorem fmul (f : V3) : Statement (.fmul f) := of_word rfl rfl (f.opcodeOf_toWord _) (by decide)
theorem ffma (f : V3) : Statement (.ffma f) := of_word rfl rfl (f.opcodeOf_toWord _) (by decide)
theorem ffms (f : V3) : Statement (.ffms f) := of_word rfl rfl (f.opcodeOf_toWord _) (by decide)
theorem fnma (f : V3) : Statement (.fnma f) := of_word rfl rfl (f.opcodeOf_toWord _) (by decide)
theorem fmin (f : V3) : Statement (.fmin f) := of_word rfl rfl (f.opcodeOf_toWord _) (by decide)
theorem fmax (f : V3) : Statement (.fmax f) := of_word rfl rfl (f.opcodeOf_toWord _) (by decide)
theorem fabs (f : V3) : Statement (.fabs f) := of_word rfl rfl (f.opcodeOf_toWord _) (by decide)
theorem fneg (f : V3) : Statement (.fneg f) := of_word rfl rfl (f.opcodeOf_toWord _) (by decide)
theorem fcmp (f : V2I) : Statement (.fcmp f) := of_word rfl rfl (f.opcodeOf_toWord _) (by decide)
theorem fclass (f : V2I) : Statement (.fclass f) := of_word rfl rfl (f.opcodeOf_toWord _) (by decide)
theorem frnd (f : V2I) : Statement (.frnd f) := of_word rfl rfl (f.opcodeOf_toWord _) (by decide)
theorem fcvt (f : V2I) : Statement (.fcvt f) := of_word rfl rfl (f.opcodeOf_toWord _) (by decide)
theorem fcvtt (f : V2I) : Statement (.fcvtt f) := of_word rfl rfl (f.opcodeOf_toWord _) (by decide)
theorem fcvtf (f : V2I) : Statement (.fcvtf f) := of_word rfl rfl (f.opcodeOf_toWord _) (by decide)
theorem fdot2 (f : V3) : Statement (.fdot2 f) := of_word rfl rfl (f.opcodeOf_toWord _) (by decide)
theorem frcp (f : V2I) : Statement (.frcp f) := of_word rfl rfl (f.opcodeOf_toWord _) (by decide)
theorem frsqrt (f : V2I) : Statement (.frsqrt f) := of_word rfl rfl (f.opcodeOf_toWord _) (by decide)
theorem fsqrt (f : V2I) : Statement (.fsqrt f) := of_word rfl rfl (f.opcodeOf_toWord _) (by decide)
theorem fexp2 (f : V2I) : Statement (.fexp2 f) := of_word rfl rfl (f.opcodeOf_toWord _) (by decide)
theorem flog2 (f : V2I) : Statement (.flog2 f) := of_word rfl rfl (f.opcodeOf_toWord _) (by decide)
theorem fsinpi (f : V2I) : Statement (.fsinpi f) := of_word rfl rfl (f.opcodeOf_toWord _) (by decide)
theorem fcospi (f : V2I) : Statement (.fcospi f) := of_word rfl rfl (f.opcodeOf_toWord _) (by decide)
theorem ftanh (f : V2I) : Statement (.ftanh f) := of_word rfl rfl (f.opcodeOf_toWord _) (by decide)
theorem vany (f : SF) : Statement (.vany f) := of_word rfl rfl (f.opcodeOf_toWord _) (by decide)
theorem vall (f : SF) : Statement (.vall f) := of_word rfl rfl (f.opcodeOf_toWord _) (by decide)
theorem vballot (f : SF) : Statement (.vballot f) := of_word rfl rfl (f.opcodeOf_toWord _) (by decide)
theorem vcount (f : SF) : Statement (.vcount f) := of_word rfl rfl (f.opcodeOf_toWord _) (by decide)
theorem pand (f : SF) : Statement (.pand f) := of_word rfl rfl (f.opcodeOf_toWord _) (by decide)
theorem por (f : SF) : Statement (.por f) := of_word rfl rfl (f.opcodeOf_toWord _) (by decide)
theorem pxor (f : SF) : Statement (.pxor f) := of_word rfl rfl (f.opcodeOf_toWord _) (by decide)
theorem pnot (f : SF) : Statement (.pnot f) := of_word rfl rfl (f.opcodeOf_toWord _) (by decide)
theorem rdx (f : V2I) : Statement (.rdx f) := of_word rfl rfl (f.opcodeOf_toWord _) (by decide)
theorem wrx (f : V2I) : Statement (.wrx f) := of_word rfl rfl (f.opcodeOf_toWord _) (by decide)
theorem xset (f : V2I) : Statement (.xset f) := of_word rfl rfl (f.opcodeOf_toWord _) (by decide)
theorem xget (f : V2I) : Statement (.xget f) := of_word rfl rfl (f.opcodeOf_toWord _) (by decide)
theorem xbnd (f : SF) : Statement (.xbnd f) := of_word rfl rfl (f.opcodeOf_toWord _) (by decide)
theorem vld (f : MF) : Statement (.vld f) := of_word rfl rfl (f.opcodeOf_toWord _) (by decide)
theorem vst (f : MF) : Statement (.vst f) := of_word rfl rfl (f.opcodeOf_toWord _) (by decide)
theorem vlds (f : MF) : Statement (.vlds f) := of_word rfl rfl (f.opcodeOf_toWord _) (by decide)
theorem vsts (f : MF) : Statement (.vsts f) := of_word rfl rfl (f.opcodeOf_toWord _) (by decide)
theorem sld (f : MF) : Statement (.sld f) := of_word rfl rfl (f.opcodeOf_toWord _) (by decide)
theorem sst (f : MF) : Statement (.sst f) := of_word rfl rfl (f.opcodeOf_toWord _) (by decide)
theorem vstm (f : MF) : Statement (.vstm f) := of_word rfl rfl (f.opcodeOf_toWord _) (by decide)
theorem ldfe (f : MF) : Statement (.ldfe f) := of_word rfl rfl (f.opcodeOf_toWord _) (by decide)
theorem ldff (f : MF) : Statement (.ldff f) := of_word rfl rfl (f.opcodeOf_toWord _) (by decide)
theorem stfe (f : MF) : Statement (.stfe f) := of_word rfl rfl (f.opcodeOf_toWord _) (by decide)
theorem feset (f : MF) : Statement (.feset f) := of_word rfl rfl (f.opcodeOf_toWord _) (by decide)
theorem fullEmptyLanePerform (x : SplitId) (lane : Nat) : Statement (.fullEmptyLanePerform x lane) := of_event rfl
theorem vpf (f : MF) : Statement (.vpf f) := of_word rfl rfl (f.opcodeOf_toWord _) (by decide)
theorem cwb (f : MF) : Statement (.cwb f) := of_word rfl rfl (f.opcodeOf_toWord _) (by decide)
theorem cinv (f : MF) : Statement (.cinv f) := of_word rfl rfl (f.opcodeOf_toWord _) (by decide)
theorem atom (f : MF) : Statement (.atom f) := of_word rfl rfl (f.opcodeOf_toWord _) (by decide)
theorem satom (f : SF) : Statement (.satom f) := of_word rfl rfl (f.opcodeOf_toWord _) (by decide)
theorem atomv (f : MF) : Statement (.atomv f) := of_word rfl rfl (f.opcodeOf_toWord _) (by decide)
theorem lres (f : MF) : Statement (.lres f) := of_word rfl rfl (f.opcodeOf_toWord _) (by decide)
theorem scond (f : MF) : Statement (.scond f) := of_word rfl rfl (f.opcodeOf_toWord _) (by decide)
theorem ctadd (f : SF) : Statement (.ctadd f) := of_word rfl rfl (f.opcodeOf_toWord _) (by decide)
theorem ctwait (f : SF) : Statement (.ctwait f) := of_word rfl rfl (f.opcodeOf_toWord _) (by decide)
theorem ctread (f : SF) : Statement (.ctread f) := of_word rfl rfl (f.opcodeOf_toWord _) (by decide)
theorem bar (f : SF) : Statement (.bar f) := of_word rfl rfl (f.opcodeOf_toWord _) (by decide)
theorem fence (f : SF) : Statement (.fence f) := of_word rfl rfl (f.opcodeOf_toWord _) (by decide)
theorem xfence (f : SF) : Statement (.xfence f) := of_word rfl rfl (f.opcodeOf_toWord _) (by decide)
theorem wait (f : SF) : Statement (.wait f) := of_word rfl rfl (f.opcodeOf_toWord _) (by decide)
theorem fwait (f : SF) : Statement (.fwait f) := of_word rfl rfl (f.opcodeOf_toWord _) (by decide)
theorem ftest (f : SF) : Statement (.ftest f) := of_word rfl rfl (f.opcodeOf_toWord _) (by decide)
theorem fcancel (f : SF) : Statement (.fcancel f) := of_word rfl rfl (f.opcodeOf_toWord _) (by decide)
theorem engineStopCancel (id : Nat) : Statement (.engineStopCancel id) := of_event rfl
theorem cp (f : EF) : Statement (.cp f) := of_word rfl rfl (f.opcodeOf_toWord _) (by decide)
theorem cpmc (f : EF) : Statement (.cpmc f) := of_word rfl rfl (f.opcodeOf_toWord _) (by decide)
theorem cpg (f : EF) : Statement (.cpg f) := of_word rfl rfl (f.opcodeOf_toWord _) (by decide)
theorem cpretry (f : EF) : Statement (.cpretry f) := of_word rfl rfl (f.opcodeOf_toWord _) (by decide)
theorem copyCompletion (id : Nat) (units : List Nat) : Statement (.copyCompletion id units) := of_event rfl
theorem followOnMmaIssue (id : Nat) : Statement (.followOnMmaIssue id) := of_event rfl
theorem mma (f : XF) : Statement (.mma f) := of_word rfl rfl (f.opcodeOf_toWord _) (by decide)
theorem matrixCommandStart (id : Nat) : Statement (.matrixCommandStart id) := of_event rfl
theorem matrixCommandComplete (id : Nat) : Statement (.matrixCommandComplete id) := of_event rfl
theorem accld (f : EF) : Statement (.accld f) := of_word rfl rfl (f.opcodeOf_toWord _) (by decide)
theorem accst (f : EF) : Statement (.accst f) := of_word rfl rfl (f.opcodeOf_toWord _) (by decide)
theorem acczero (f : EF) : Statement (.acczero f) := of_word rfl rfl (f.opcodeOf_toWord _) (by decide)
theorem fmtset (f : EF) : Statement (.fmtset f) := of_word rfl rfl (f.opcodeOf_toWord _) (by decide)
theorem fmtsetCompletion (id : Nat) : Statement (.fmtsetCompletion id) := of_event rfl
theorem fmtget (f : EF) : Statement (.fmtget f) := of_word rfl rfl (f.opcodeOf_toWord _) (by decide)
theorem rhold (f : EF) : Statement (.rhold f) := of_word rfl rfl (f.opcodeOf_toWord _) (by decide)
theorem rdemote (f : EF) : Statement (.rdemote f) := of_word rfl rfl (f.opcodeOf_toWord _) (by decide)
theorem rdrop (f : EF) : Statement (.rdrop f) := of_word rfl rfl (f.opcodeOf_toWord _) (by decide)
theorem trap (f : SF) : Statement (.trap f) := of_word rfl rfl (f.opcodeOf_toWord _) (by decide)
theorem rett (f : SF) : Statement (.rett f) := of_word rfl rfl (f.opcodeOf_toWord _) (by decide)
theorem asyncTrapDelivery (x : SplitId) : Statement (.asyncTrapDelivery x) := of_event rfl
theorem homeTrapAnswer (id : Nat) : Statement (.homeTrapAnswer id) := of_event rfl
theorem rdsys (f : SF) : Statement (.rdsys f) := of_word rfl rfl (f.opcodeOf_toWord _) (by decide)
theorem wrsys (f : SF) : Statement (.wrsys f) := of_word rfl rfl (f.opcodeOf_toWord _) (by decide)
theorem thRegisterWrite (f : SF) : Statement (.thRegisterWrite f) := of_word rfl rfl (f.opcodeOf_toWord _) (by decide)
theorem timestatWrite (f : SF) : Statement (.timestatWrite f) := of_word rfl rfl (f.opcodeOf_toWord _) (by decide)
theorem rwayfWrite (f : SF) : Statement (.rwayfWrite f) := of_word rfl rfl (f.opcodeOf_toWord _) (by decide)
theorem tsr (f : SF) : Statement (.tsr f) := of_word rfl rfl (f.opcodeOf_toWord _) (by decide)
theorem launch (f : SF) : Statement (.launch f) := of_word rfl rfl (f.opcodeOf_toWord _) (by decide)
theorem brkp (f : SF) : Statement (.brkp f) := of_word rfl rfl (f.opcodeOf_toWord _) (by decide)
theorem pbsetRng (f : SF) : Statement (.pbsetRng f) := of_word rfl rfl (f.opcodeOf_toWord _) (by decide)
theorem pbsetProt (f : SF) : Statement (.pbsetProt f) := of_word rfl rfl (f.opcodeOf_toWord _) (by decide)
theorem pbgetRng (f : SF) : Statement (.pbgetRng f) := of_word rfl rfl (f.opcodeOf_toWord _) (by decide)
theorem pbgetProt (f : SF) : Statement (.pbgetProt f) := of_word rfl rfl (f.opcodeOf_toWord _) (by decide)
theorem pswap (f : SF) : Statement (.pswap f) := of_word rfl rfl (f.opcodeOf_toWord _) (by decide)
theorem pswapChunkExchange (id : Nat) : Statement (.pswapChunkExchange id) := of_event rfl
theorem tlbinvPage (f : SF) : Statement (.tlbinvPage f) := of_word rfl rfl (f.opcodeOf_toWord _) (by decide)
theorem tlbinvSpace (f : SF) : Statement (.tlbinvSpace f) := of_word rfl rfl (f.opcodeOf_toWord _) (by decide)
theorem tlbinvAll (f : SF) : Statement (.tlbinvAll f) := of_word rfl rfl (f.opcodeOf_toWord _) (by decide)
theorem tlbinvComplete (x : SplitId) : Statement (.tlbinvComplete x) := of_event rfl
theorem nop (f : SF) : Statement (.nop f) := of_word rfl rfl (f.opcodeOf_toWord _) (by decide)
theorem hpost (f : SF) : Statement (.hpost f) := of_word rfl rfl (f.opcodeOf_toWord _) (by decide)
theorem variableLatencyResult (id : Nat) : Statement (.variableLatencyResult id) := of_event rfl
theorem accessCompletion (id : Nat) (parts : List Nat) : Statement (.accessCompletion id parts) := of_event rfl
theorem vstmMemberAck (id : Nat) (column : Nat) : Statement (.vstmMemberAck id column) := of_event rfl
theorem switchMarkerWaitEnd (x : SplitId) : Statement (.switchMarkerWaitEnd x) := of_event rfl
theorem parkConditionClears (x : SplitId) : Statement (.parkConditionClears x) := of_event rfl
theorem recallStart (x : GroupId) : Statement (.recallStart x) := of_event rfl
theorem saveImageWriteStart (wg : Nat) : Statement (.saveImageWriteStart wg) := of_event rfl
theorem workgroupCompletion (wg : Nat) : Statement (.workgroupCompletion wg) := of_event rfl
theorem preempt (region : Nat) : Statement (.preempt region) := of_event rfl
theorem resume (region : Nat) : Statement (.resume region) := of_event rfl
theorem retire (region : Nat) : Statement (.retire region) := of_event rfl
theorem kill (region : Nat) : Statement (.kill region) := of_event rfl
theorem workgroupLost (wg : Nat) (structure_ : Nat) : Statement (.workgroupLost wg structure_) := of_event rfl
theorem translationWalkComplete (column space : Nat) (va : DWord) (write : Bool) : Statement (.translationWalkComplete column space va write) := of_event rfl
theorem gets (id : Nat) : Statement (.gets id) := of_event rfl
theorem getm (id : Nat) : Statement (.getm id) := of_event rfl
theorem putm (id : Nat) : Statement (.putm id) := of_event rfl
theorem inv (id : Nat) : Statement (.inv id) := of_event rfl
theorem fwds (id : Nat) : Statement (.fwds id) := of_event rfl
theorem fwdm (id : Nat) : Statement (.fwdm id) := of_event rfl
theorem data (id : Nat) : Statement (.data id) := of_event rfl
theorem ack (id : Nat) : Statement (.ack id) := of_event rfl
theorem wbdata (id : Nat) : Statement (.wbdata id) := of_event rfl
theorem putack (id : Nat) : Statement (.putack id) := of_event rfl
theorem hostRead (tag : Nat) (hpa : Nat) (len : Nat) (cached : Bool) : Statement (.hostRead tag hpa len cached) := of_event rfl
theorem hostWrite (tag : Nat) (hpa : Nat) (bytes : List Byte) : Statement (.hostWrite tag hpa bytes) := of_event rfl
theorem hostCounterAdd (tag : Nat) (hpa : Nat) (addend : DWord) : Statement (.hostCounterAdd tag hpa addend) := of_event rfl
theorem linkoSlottedFlit (link : Nat) (flit : List Byte) : Statement (.linkoSlottedFlit link flit) := of_event rfl
theorem linkoIdle (link : Nat) (flit : List Byte) : Statement (.linkoIdle link flit) := of_event rfl
theorem nak (link : Nat) (flit : List Byte) : Statement (.nak link flit) := of_event rfl
theorem slotlost (link : Nat) (flit : List Byte) : Statement (.slotlost link flit) := of_event rfl
theorem lostEntryDetect (link : Nat) (seq : Nat) : Statement (.lostEntryDetect link seq) := of_event rfl
theorem linkoReplacementSend (link : Nat) (seq : Nat) : Statement (.linkoReplacementSend link seq) := of_event rfl
theorem retrain (link : Nat) (flit : List Byte) : Statement (.retrain link flit) := of_event rfl
theorem retrainComplete (link : Nat) (ok : Bool) : Statement (.retrainComplete link ok) := of_event rfl
theorem linkoOpWrite (link queue : Nat) : Statement (.linkoOpWrite link queue) := of_event rfl
theorem linkoOpRead (link queue : Nat) : Statement (.linkoOpRead link queue) := of_event rfl
theorem linkoOpCounterAdd (link queue : Nat) : Statement (.linkoOpCounterAdd link queue) := of_event rfl
theorem linkoDescriptorComplete (link queue : Nat) : Statement (.linkoDescriptorComplete link queue) := of_event rfl
theorem patrolRead (unit : RepairUnit) (address : Nat) (error : ArrayError) : Statement (.patrolRead unit address error) := of_event rfl
theorem droopAlarm (column : Nat) (microvolts : Nat) : Statement (.droopAlarm column microvolts) := of_event rfl
theorem illegalOpcodeWord (word : DWord) : Statement (.illegalOpcodeWord word) := by
  intro w hw h
  cases hw
  have e : (opcodeOf word).toNat = word.toNat / 2 ^ 55 := by
    have := word.isLt
    simp only [opcodeOf, BitVec.extractLsb'_toNat, Nat.shiftRight_eq_div_pow]
    omega
  rw [e]
  exact h

theorem debuggerAccess (request : DebugRequest) : Statement (.debuggerAccess request) := of_event rfl
theorem pushMerge (id : Nat) : Statement (.pushMerge id) := of_event rfl
theorem conversionComplete : Statement .conversionComplete := of_event rfl
theorem faultRecordPost : Statement .faultRecordPost := of_event rfl
theorem issueCycle : Statement .issueCycle := of_event rfl
theorem guardQueueAppend : Statement .guardQueueAppend := of_event rfl
theorem demotionEligible : Statement .demotionEligible := of_event rfl
theorem demotionEnd : Statement .demotionEnd := of_event rfl
theorem recallEnd : Statement .recallEnd := of_event rfl
theorem coreBecomesHot : Statement .coreBecomesHot := of_event rfl
theorem captureBegin : Statement .captureBegin := of_event rfl
theorem captureSuccess : Statement .captureSuccess := of_event rfl
theorem captureAbandon : Statement .captureAbandon := of_event rfl
theorem captureExclusionEnd : Statement .captureExclusionEnd := of_event rfl
theorem moveBegin : Statement .moveBegin := of_event rfl
theorem moveEnd : Statement .moveEnd := of_event rfl
theorem launchRecordCheck : Statement .launchRecordCheck := of_event rfl
theorem placementStep : Statement .placementStep := of_event rfl
theorem pboundExpiry : Statement .pboundExpiry := of_event rfl
theorem flushDiscard : Statement .flushDiscard := of_event rfl
theorem drainToSave : Statement .drainToSave := of_event rfl
theorem saveRetry : Statement .saveRetry := of_event rfl
theorem saveImageComplete : Statement .saveImageComplete := of_event rfl
theorem resumeRestoreComplete : Statement .resumeRestoreComplete := of_event rfl
theorem lostWorkgroupDispose : Statement .lostWorkgroupDispose := of_event rfl
theorem ringmasterStateRebuild : Statement .ringmasterStateRebuild := of_event rfl
theorem accessCountHalving : Statement .accessCountHalving := of_event rfl
theorem migrationHysteresisEnd : Statement .migrationHysteresisEnd := of_event rfl
theorem last : Statement .last := of_event rfl
theorem nakRepeat : Statement .nakRepeat := of_event rfl
theorem slotlostRepeat : Statement .slotlostRepeat := of_event rfl
theorem activate : Statement .activate := of_event rfl
theorem faultAnswer : Statement .faultAnswer := of_event rfl
theorem migqSet : Statement .migqSet := of_event rfl
theorem linkqBind : Statement .linkqBind := of_event rfl
theorem linkqResume : Statement .linkqResume := of_event rfl
theorem inwinSet : Statement .inwinSet := of_event rfl
theorem hostkeySet : Statement .hostkeySet := of_event rfl
theorem attest : Statement .attest := of_event rfl
theorem kekSet : Statement .kekSet := of_event rfl
theorem keyLoad : Statement .keyLoad := of_event rfl
theorem keyClear : Statement .keyClear := of_event rfl
theorem scrub : Statement .scrub := of_event rfl
theorem logRange : Statement .logRange := of_event rfl
theorem logArea : Statement .logArea := of_event rfl
theorem threshSet : Statement .threshSet := of_event rfl
theorem evlogRead : Statement .evlogRead := of_event rfl
theorem admissionsBatch : Statement .admissionsBatch := of_event rfl
theorem logBatchFlush : Statement .logBatchFlush := of_event rfl
theorem lastingUnit : Statement .lastingUnit := of_event rfl
theorem spareCopyComplete : Statement .spareCopyComplete := of_event rfl
theorem referenceLost : Statement .referenceLost := of_event rfl
theorem referenceReturn : Statement .referenceReturn := of_event rfl
theorem stretchEnd : Statement .stretchEnd := of_event rfl
theorem halvedWindowEnd : Statement .halvedWindowEnd := of_event rfl
theorem overheatHalving : Statement .overheatHalving := of_event rfl
theorem overtempTrip : Statement .overtempTrip := of_event rfl
theorem canopyRefresh : Statement .canopyRefresh := of_event rfl
theorem deviceReset : Statement .deviceReset := of_event rfl
theorem coreStopsBeingHot : Statement .coreStopsBeingHot := of_event rfl
theorem overheatHalvingEnd : Statement .overheatHalvingEnd := of_event rfl

end Sys2Proof.Laws.Opcode
end

