-- ==== Sys2Proof/Laws/Registers.lean ====
section
/-! SUPPORT. What the writes of registers do, said once: the value that the register then holds, and that nothing else changes. -/

namespace Sys2Proof.Machine

/-! ## The device up to what a word may write -/

@[simp] theorem Workgroup.rest_id (w : Workgroup) : w.rest.id = w.id := rfl
@[simp] theorem Workgroup.rest_core (w : Workgroup) : w.rest.core = w.core := rfl
@[simp] theorem Workgroup.rest_region (w : Workgroup) : w.rest.region = w.region := rfl

theorem State.rest_wgs {s t : State} (h : t.rest = s.rest) : t.wgs.map Workgroup.rest = s.wgs.map Workgroup.rest := congrArg State.wgs h
theorem State.rest_mem {s t : State} (h : t.rest = s.rest) : t.mem = s.mem := (congrArg State.mem h : t.rest.mem = s.rest.mem)
theorem State.rest_regions {s t : State} (h : t.rest = s.rest) : t.regions = s.regions := (congrArg State.regions h : t.rest.regions = s.rest.regions)
theorem State.rest_columns {s t : State} (h : t.rest = s.rest) : t.columns = s.columns := (congrArg State.columns h : t.rest.columns = s.rest.columns)

theorem wgFind_rest {s t : State} (h : t.rest = s.rest) (id : Nat) : (wgFind t id).map Workgroup.rest = (wgFind s id).map Workgroup.rest := by
  have e : ∀ u : State, (wgFind u id).map Workgroup.rest = firstWith (fun w => w.id == id) (u.wgs.map Workgroup.rest) := by
    intro u; rw [firstWith_map (fun w : Workgroup => w.id == id) u.wgs Workgroup.rest (fun _ => rfl)]; rfl
  rw [e, e, State.rest_wgs h]

/-- Which registers are one storage does not change. -/
theorem sameStore_rest {s t : State} (h : t.rest = s.rest) (x y : SplitId) (r : RegRef) : SameStore t x y r ↔ SameStore s x y r := by
  have e : ∀ id, (wgFind t id).map Workgroup.core = (wgFind s id).map Workgroup.core := by
    intro id
    have := congrArg (Option.map Workgroup.core) (wgFind_rest h id)
    simpa [Option.map_map, Function.comp_def] using this
  cases r <;> simp [SameStore, e]

/-! ## What a word's own writes do -/

/-- The registers `rs` of split `x` may have changed, with its shadows and the accounting of its issue, and nothing else: what a word does to the
device before it has issued. -/
structure Wrote (s t : State) (x : SplitId) (rs : List RegRef) : Prop where
  rest : t.rest = s.rest
  cores : ∀ n, (coreOf t n).rest = (coreOf s n).rest
  others : ∀ y, y ≠ x → splitFind t y = splitFind s y
  regs : KeepsRegs s t x rs
  flights : t.flights.map Flight.rest = s.flights.map Flight.rest
  place : (splitFind t x).map (fun p => (p.pc, p.loops, p.await)) = (splitFind s x).map (fun p => (p.pc, p.loops, p.await))
  nextId : t.nextId = s.nextId
  draw : t.draw = s.draw

theorem Wrote.refl (s : State) (x : SplitId) (rs : List RegRef) : Wrote s s x rs :=
  ⟨rfl, fun _ => rfl, fun _ _ => rfl, fun _ _ _ => rfl, rfl, rfl, rfl, rfl⟩

theorem Wrote.trans {s t u : State} {x : SplitId} {a b : List RegRef} (h : Wrote s t x a) (k : Wrote t u x b) : Wrote s u x (a ++ b) where
  rest := k.rest.trans h.rest
  cores n := (k.cores n).trans (h.cores n)
  others y hy := (k.others y hy).trans (h.others y hy)
  regs y r hr := by
    refine (k.regs y r fun hk => hr ⟨List.mem_append_right _ hk.1, (sameStore_rest h.rest x y r).mp hk.2⟩).trans (h.regs y r fun hk => hr ⟨List.mem_append_left _ hk.1, hk.2⟩)
  flights := k.flights.trans h.flights
  place := k.place.trans h.place
  nextId := k.nextId.trans h.nextId
  draw := k.draw.trans h.draw

theorem Wrote.mono {s t : State} {x : SplitId} {a b : List RegRef} (h : Wrote s t x a) (k : ∀ r ∈ a, r ∈ b) : Wrote s t x b :=
  { h with regs := fun y r hr => h.regs y r fun hk => hr ⟨k r hk.1, hk.2⟩ }

/-! ## Changes of a group or a split that a word may make -/

theorem map_modWg_rest (s : State) (id : Nat) (f : Workgroup → Workgroup) (h : ∀ w, (f w).rest = w.rest) :
    (modWg s id f).wgs.map Workgroup.rest = s.wgs.map Workgroup.rest := by
  simp only [modWg_wgs, List.map_map]
  apply List.map_congr_left
  intro w _
  simp only [Function.comp]
  split <;> simp [h]

theorem modGroup_rest (s : State) (g : GroupId) (f : Group → Group) (h : ∀ gr, (f gr).rest = gr.rest) : (modGroup s g f).rest = s.rest := by
  have e : (modGroup s g f).wgs.map Workgroup.rest = s.wgs.map Workgroup.rest :=
    map_modWg_rest s g.wg _ (fun w => by simp only [Workgroup.rest, map_modAt _ _ f Group.rest h])
  simp only [State.rest, e]; rfl

theorem modSplit_rest (s : State) (x : SplitId) (f : Split → Split) (h : ∀ p, (f p).rest = p.rest) : (modSplit s x f).rest = s.rest :=
  modGroup_rest s _ _ (fun gr => by simp only [Group.rest, map_modAt _ _ f Split.rest h])

/-- A register as a split's group, its own scalars and its core hold it. -/
def regIn (g : Group) (p : Split) (k : Core) (r : RegRef) : Image :=
  match r with
  | .v n => .lanes (Table.get g.vregs n [])
  | .s n => .word (if n = 0 then 0 else Table.get p.scalars n 0)
  | .p n => .mask (if n = 0 then BitVec.allOnes 96 else Table.get g.preds n 0)
  | .x n => .lanes (Table.get g.xregs n [])
  | .k n => .lanes (Table.get k.kregs n [])
  | .ks n => .word (Table.get k.ksregs n 0)

theorem regNow_eq (c : Ctx) (r : RegRef) : regNow c r = regIn c.g c.p c.core r := by cases r <;> rfl

/-- What a split holds, from its group, its split and its core. -/
theorem held_eq (s : State) (y : SplitId) (r : RegRef) :
    held s y r = (wgFind s y.wg).bind (fun w => (w.groups[y.grp]?).bind (fun g => (g.splits[y.slot]?).bind (fun p =>
      (regionFind s w.region).map (fun _ => regIn g p (coreOf s w.core) r)))) := by
  unfold held ctxOf
  cases wgFind s y.wg with
  | none => rfl
  | some w =>
    simp only [Option.bind_some]
    cases w.groups[y.grp]? with
    | none => rfl
    | some g =>
      cases regionFind s w.region with
      | none => simp
      | some rg =>
        simp only [Option.bind_some, Option.map_some]
        cases hp : g.splits[y.slot]? with
        | none => rfl
        | some p => simp [regNow_eq]

/-- The value that a split holds depends on its workgroup, its region and its core. -/
theorem held_congr {s t : State} {y : SplitId} (r : RegRef) (hw : wgFind t y.wg = wgFind s y.wg) (hr : t.regions = s.regions)
    (hk : ∀ w, wgFind s y.wg = some w → (∀ n, r ≠ .k n) ∧ (∀ n, r ≠ .ks n) ∨ coreOf t w.core = coreOf s w.core) : held t y r = held s y r := by
  rw [held_eq, held_eq, hw]
  cases h : wgFind s y.wg with
  | none => rfl
  | some w =>
    simp only [Option.bind_some, regionFind, hr]
    rcases hk w h with ⟨h1, h2⟩ | h1
    · congr; funext g; congr; funext p; congr; funext _
      cases r <;> first | rfl | exact absurd rfl (h1 _) | exact absurd rfl (h2 _)
    · simp [h1]

theorem held_modGroup (s : State) (g : GroupId) (f : Group → Group) (y : SplitId) (r : RegRef) :
    held (modGroup s g f) y r = (wgFind s y.wg).bind (fun w => (w.groups[y.grp]?).bind (fun gr =>
      ((if groupOf y = g then f gr else gr).splits[y.slot]?).bind (fun p =>
        (regionFind s w.region).map (fun _ => regIn (if groupOf y = g then f gr else gr) p (coreOf s w.core) r)))) := by
  rw [held_eq, wgFind_modGroup]
  obtain ⟨gw, gg⟩ := g
  simp only [groupOf, GroupId.mk.injEq]
  by_cases h1 : y.wg = gw
  · cases wgFind s y.wg with
    | none => simp
    | some w =>
      by_cases h2 : y.grp = gg
      · simp only [h1, h2, and_self, if_true, Option.map_some, Option.bind_some, getElem?_modAt]
        cases w.groups[gg]? <;> rfl
      · simp only [h1, h2, and_false, if_false, if_true, Option.map_some, Option.bind_some, getElem?_modAt]; rfl
  · simp only [h1, false_and, if_false]; rfl

theorem held_modCore (s : State) (n : Nat) (f : Core → Core) (y : SplitId) (r : RegRef) :
    held (modCore s n f) y r = (wgFind s y.wg).bind (fun w => (w.groups[y.grp]?).bind (fun gr => (gr.splits[y.slot]?).bind (fun p =>
        (regionFind s w.region).map (fun _ => regIn gr p (if w.core = n then f (coreOf s n) else coreOf s w.core) r)))) := by
  rw [held_eq]; simp only [wgFind_modCore, coreOf_modCore]; rfl

/-- A change of a group that a register does not see. -/
theorem held_modGroup_same (s : State) (g : GroupId) (f : Group → Group) (y : SplitId) (r : RegRef)
    (h : groupOf y = g → ∀ (gr : Group) k, ((f gr).splits[y.slot]?).map (fun p => regIn (f gr) p k r) = (gr.splits[y.slot]?).map (fun p => regIn gr p k r)) :
    held (modGroup s g f) y r = held s y r := by
  rw [held_modGroup, held_eq]
  by_cases hy : groupOf y = g
  · simp only [if_pos hy]
    congr; funext w; congr; funext gr
    have e := h hy gr (coreOf s w.core)
    cases h1 : (f gr).splits[y.slot]? <;> cases h2 : gr.splits[y.slot]? <;> simp_all
  · simp only [if_neg hy]

/-- A change of a core that a register does not see. -/
theorem held_modCore_same (s : State) (n : Nat) (f : Core → Core) (y : SplitId) (r : RegRef)
    (h : ∀ w, wgFind s y.wg = some w → w.core = n → ∀ g p, regIn g p (f (coreOf s n)) r = regIn g p (coreOf s n) r) :
    held (modCore s n f) y r = held s y r := by
  rw [held_modCore, held_eq]
  cases hw : wgFind s y.wg with
  | none => rfl
  | some w =>
    simp only [Option.bind_some]
    by_cases hn : w.core = n
    · subst hn; simp only [if_true, h w hw rfl]
    · simp only [if_neg hn]

/-! ## The writes -/

theorem Wrote.modGroup_same (s : State) (x : SplitId) (rs : List RegRef) (f : Group → Group) (h : ∀ gr, (f gr).rest = gr.rest)
    (hs : ∀ gr, (f gr).splits = gr.splits) (hr : ∀ r, r ∉ rs → ∀ g p k, regIn (f g) p k r = regIn g p k r) (hk : ∀ r ∈ rs, ∀ n, r ≠ .s n ∧ r ≠ .k n ∧ r ≠ .ks n) :
    Wrote s (modGroup s (groupOf x) f) x rs where
  rest := modGroup_rest s _ f h
  cores _ := rfl
  others y _ := splitFind_modGroup s _ y f hs
  regs y r hn := by
    apply held_modGroup_same
    intro hy gr k
    rw [hs]
    by_cases hm : r ∈ rs
    · exfalso
      apply hn
      refine ⟨hm, ?_⟩
      obtain h1 := hk r hm
      cases r <;> first | exact hy | exact absurd rfl (h1 _).1 | exact absurd rfl (h1 _).2.1 | exact absurd rfl (h1 _).2.2
    · simp [hr r hm]
  flights := rfl
  place := by rw [splitFind_modGroup s _ x f hs]
  nextId := rfl
  draw := rfl

theorem Wrote.modSplit_same (s : State) (x : SplitId) (rs : List RegRef) (f : Split → Split) (h : ∀ p, (f p).rest = p.rest)
    (hp : ∀ p, ((f p).pc, (f p).loops, (f p).await) = (p.pc, p.loops, p.await)) (hr : ∀ r, r ∉ rs → ∀ g p k, regIn g (f p) k r = regIn g p k r)
    (hk : ∀ r ∈ rs, ∃ n, r = .s n) : Wrote s (modSplit s x f) x rs where
  rest := modSplit_rest s x f h
  cores _ := rfl
  others y hy := by rw [splitFind_modSplit, if_neg hy]
  regs y r hn := by
    apply held_modGroup_same
    intro hy gr k
    have e : ∀ p, regIn { gr with splits := modAt gr.splits x.slot f } p k r = regIn gr p k r := by intro p; cases r <;> rfl
    simp only [getElem?_modAt, e]
    by_cases hs : y.slot = x.slot
    · have hxy : y = x := by
        obtain ⟨yw, yg, ys⟩ := y; obtain ⟨xw, xg, xs⟩ := x
        simp only [groupOf, GroupId.mk.injEq] at hy; simp_all
      subst hxy
      by_cases hm : r ∈ rs
      · obtain ⟨n, rfl⟩ := hk r hm
        exact absurd ⟨hm, rfl⟩ hn
      · cases gr.splits[y.slot]? <;> simp [hr r hm]
    · simp only [if_neg hs]
  flights := rfl
  place := by
    rw [splitFind_modSplit, if_pos rfl]
    cases splitFind s x with
    | none => rfl
    | some p => simp [hp]
  nextId := rfl
  draw := rfl

/-- A shadow changes no register's newest value. -/
theorem wrote_openShadow (s : State) (x : SplitId) (sh : Shadow) : Wrote s (openShadow s x sh) x [] :=
  Wrote.modSplit_same s x [] _ (fun _ => rfl) (fun _ => rfl) (fun r _ g p k => by cases r <;> rfl) (by simp)

theorem wrote_clobber (s : State) (x : SplitId) (r : RegRef) (m : Mask) : Wrote s (clobber s x r m) x [] where
  rest := rfl
  cores _ := rfl
  others _ _ := rfl
  regs _ _ _ := rfl
  flights := by
    simp only [clobber, List.map_map]
    apply List.map_congr_left
    intro f _
    simp only [Function.comp]
    split
    · rfl
    · simp only [Flight.rest, List.map_map]
      congr 1
      apply List.map_congr_left
      intro d _
      simp only [Function.comp]
      split <;> rfl
  place := rfl
  nextId := rfl
  draw := rfl

theorem wrote_modCore (s : State) (x : SplitId) (n : Nat) (rs : List RegRef) (f : Core → Core) (h : ∀ k, (f k).rest = k.rest)
    (hx : (wgFind s x.wg).map Workgroup.core = some n) (hr : ∀ r, r ∉ rs → ∀ g p k, regIn g p (f k) r = regIn g p k r)
    (hk : ∀ r ∈ rs, (∃ m, r = .k m) ∨ ∃ m, r = .ks m) : Wrote s (modCore s n f) x rs where
  rest := rfl
  cores m := by rw [coreOf_modCore]; split <;> simp_all
  others _ _ := rfl
  regs y r hn := by
    apply held_modCore_same
    intro w hw hwn g p
    by_cases hm : r ∈ rs
    · exfalso
      apply hn
      refine ⟨hm, ?_⟩
      rcases hk r hm with ⟨m, rfl⟩ | ⟨m, rfl⟩ <;> simp [SameStore, hw, hwn, hx]
    · exact hr r hm g p _
  flights := rfl
  place := rfl
  nextId := rfl
  draw := rfl

/-- A register of a split is written, and nothing else changes. -/
theorem wrote_putReg (s : State) (x : SplitId) (n : Nat) (r : RegRef) (m : Mask) (v : Image) (hx : (wgFind s x.wg).map Workgroup.core = some n) :
    Wrote s (putReg s x n r m v) x [r] := by
  cases r with
  | v k =>
    refine Wrote.modGroup_same s x _ _ (fun _ => rfl) (fun _ => rfl) ?_ (by simp)
    intro r hr g p c
    cases r <;> first | rfl | skip
    simp only [List.mem_singleton, RegRef.v.injEq] at hr
    simp [regIn, Table.get_put, hr]
  | x k =>
    refine Wrote.modGroup_same s x _ _ (fun _ => rfl) (fun _ => rfl) ?_ (by simp)
    intro r hr g p c
    cases r <;> first | rfl | skip
    simp only [List.mem_singleton, RegRef.x.injEq] at hr
    simp [regIn, Table.get_put, hr]
  | p k =>
    simp only [putReg]
    split
    · exact Wrote.refl s x _
    refine Wrote.modGroup_same s x _ _ (fun _ => rfl) (fun _ => rfl) ?_ (by simp)
    intro r hr g p c
    cases r <;> first | rfl | skip
    simp only [List.mem_singleton, RegRef.p.injEq] at hr
    simp [regIn, Table.get_put, hr]
  | s k =>
    simp only [putReg]
    split
    · exact Wrote.refl s x _
    refine Wrote.modSplit_same s x _ _ (fun _ => rfl) (fun _ => rfl) ?_ (by simp)
    intro r hr g p c
    cases r <;> first | rfl | skip
    simp only [List.mem_singleton, RegRef.s.injEq] at hr
    simp [regIn, Table.get_put, hr]
  | k j =>
    have h1 : Wrote s (modCore s n (fun k => { k with kregs := Table.put k.kregs j (mergeLanes m (imageLanes v) (Table.get k.kregs j [])) })) x [.k j] := by
      refine wrote_modCore s x n _ _ (fun _ => rfl) hx ?_ (by simp)
      intro r hr g p c
      cases r <;> first | rfl | skip
      simp only [List.mem_singleton, RegRef.k.injEq] at hr
      simp [regIn, Table.get_put, hr]
    have h2 := Wrote.modGroup_same (modCore s n (fun k => { k with kregs := Table.put k.kregs j (mergeLanes m (imageLanes v) (Table.get k.kregs j [])) })) x []
      (fun g => { g with hold := freeHeld g.hold (.k j) m }) (fun _ => rfl) (fun _ => rfl) (fun r _ g p k => by cases r <;> rfl) (by simp)
    exact (h1.trans h2).mono (by simp)
  | ks j =>
    refine wrote_modCore s x n _ _ (fun _ => rfl) hx ?_ (by simp)
    intro r hr g p c
    cases r <;> first | rfl | skip
    simp only [List.mem_singleton, RegRef.ks.injEq] at hr
    simp [regIn, Table.get_put, hr]

/-! ## The value written -/

/-- What a register holds after a write in the lanes of a mask. -/
def putImage (r : RegRef) (m : Mask) (new old : Image) : Image :=
  match r with
  | .p n => if n = 0 then old else .mask ((imageMask new &&& m) ||| (imageMask old &&& ~~~ m))
  | .s n => if n = 0 then old else .word (imageWord new)
  | .ks _ => .word (imageWord new)
  | _ => .lanes (mergeLanes m (imageLanes new) (imageLanes old))

theorem ctxOf_core {s : State} {x : SplitId} {c : Ctx} (h : ctxOf s x = some c) : (wgFind s x.wg).map Workgroup.core = some c.w.core := by
  simp [((ctxOf_iff s x c).mp h).2.1]

theorem held_ctx {s : State} {x : SplitId} {c : Ctx} (h : ctxOf s x = some c) (r : RegRef) : held s x r = some (regNow c r) := by simp [held, h]

theorem held_putReg {s : State} {x : SplitId} {c : Ctx} (h : ctxOf s x = some c) (r : RegRef) (m : Mask) (v : Image) :
    held (putReg s x c.w.core r m v) x r = some (putImage r m v (regNow c r)) := by
  obtain ⟨-, hw, hg, hr, hp, hk, -⟩ := (ctxOf_iff s x c).mp h
  cases r with
  | v n => simp [putReg, held_modGroup, hw, hg, hp, hr, regIn, putImage, regNow, imageLanes]
  | x n => simp [putReg, held_modGroup, hw, hg, hp, hr, regIn, putImage, regNow, imageLanes]
  | p n =>
    by_cases hn : n = 0
    · subst hn; simp [putReg, putImage, held_ctx h, regNow]
    · simp [putReg, hn, held_modGroup, hw, hg, hp, hr, regIn, putImage, regNow, imageMask]
  | s n =>
    by_cases hn : n = 0
    · subst hn; simp [putReg, putImage, held_ctx h, regNow]
    · simp [putReg, hn, modSplit, held_modGroup, hw, hg, hp, hr, regIn, putImage, getElem?_modAt]
  | k n =>
    have e : ∀ f, regionFind (modCore s c.w.core f) c.w.region = some c.r := fun f => hr
    simp [putReg, held_modGroup, hw, hg, hp, e, hk, regIn, putImage, regNow, imageLanes]
  | ks n => simp [putReg, held_modCore, hw, hg, hp, hr, regIn, putImage]

/-- Contexts before and after a word's own writes. -/
theorem Wrote.ctx {s t : State} {x : SplitId} {rs : List RegRef} (h : Wrote s t x rs) {c : Ctx} (hc : ctxOf s x = some c) :
    ∃ d, ctxOf t x = some d ∧ d.w.core = c.w.core ∧ d.x = c.x ∧ d.w.column = c.w.column ∧ ∀ r, r ∉ rs → regNow d r = regNow c r := by
  obtain ⟨-, hw, hg, hr, hp, -, -⟩ := (ctxOf_iff s x c).mp hc
  have hs := ctxOf_splitFind hc
  have e1 := wgFind_rest h.rest x.wg
  rw [hw] at e1
  obtain ⟨w, hw', e2⟩ : ∃ w, wgFind t x.wg = some w ∧ w.rest = c.w.rest := by
    cases hh : wgFind t x.wg with
    | none => rw [hh] at e1; cases e1
    | some w => rw [hh] at e1; exact ⟨w, rfl, by simpa using e1⟩
  have hreg : regionFind t w.region = some c.r := by
    rw [show w.region = c.w.region from (congrArg Workgroup.region e2 : w.rest.region = c.w.rest.region), regionFind, State.rest_regions h.rest]; exact hr
  have hpl := h.place
  rw [hs] at hpl
  obtain ⟨p, hp'⟩ : ∃ p, splitFind t x = some p := by
    cases hh : splitFind t x with
    | none => rw [hh] at hpl; cases hpl
    | some p => exact ⟨p, rfl⟩
  obtain ⟨g, hg', hp''⟩ : ∃ g, w.groups[x.grp]? = some g ∧ g.splits[x.slot]? = some p := by
    simp only [splitFind, groupFind, groupOf, hw', Option.bind_some] at hp'
    cases hh : w.groups[x.grp]? with
    | none => rw [hh] at hp'; cases hp'
    | some g => rw [hh] at hp'; exact ⟨g, rfl, hp'⟩
  have hd : ctxOf t x = some { x := x, w := w, g := g, p := p, r := c.r, core := coreOf t w.core, draw := t.draw } :=
    (ctxOf_iff t x _).mpr ⟨rfl, hw', hg', hreg, hp'', rfl, rfl⟩
  refine ⟨_, hd, (congrArg Workgroup.core e2 : w.rest.core = c.w.rest.core), (ctxOf_x hc).symm,
    (congrArg Workgroup.column e2 : w.rest.column = c.w.rest.column), ?_⟩
  intro r hn
  have := h.regs x r (fun hk => hn hk.1)
  rw [held_ctx hd, held_ctx hc] at this
  exact Option.some.inj this

/-- A word writes a register: the register holds its value, and nothing else changes. The context `c` is the word's own, `d` that of the moment. -/
theorem wrote_writeReg {s : State} {c d : Ctx} (h : ctxOf s c.x = some d) (hcore : d.w.core = c.w.core) (r : RegRef) (m : Mask) (v : Image) (shadow : Nat) :
    Wrote s (writeReg s c r m v shadow) c.x [r] ∧ held (writeReg s c r m v shadow) c.x r = some (putImage r m v (regNow d r)) := by
  unfold writeReg
  extract_lets k late s0 s1
  have h0 : Wrote s s0 c.x [] := Wrote.modSplit_same s c.x [] _ (fun _ => rfl) (fun _ => rfl) (fun r _ g p k => by cases r <;> rfl) (by simp)
  have h1 : Wrote s s1 c.x [] := by
    simp only [s1]; split
    · exact h0
    · exact h0.trans (wrote_openShadow s0 c.x _)
  obtain ⟨e, he, hcore', -, -, hreg⟩ := h1.ctx h
  have hc : e.w.core = c.w.core := hcore'.trans hcore
  have h2 := wrote_putReg s1 c.x c.w.core r m v (hc ▸ ctxOf_core he)
  have h3 := wrote_clobber (putReg s1 c.x c.w.core r m v) c.x r m
  refine ⟨((h1.trans h2).trans h3).mono (by simp), ?_⟩
  have e := held_putReg he r m v
  rw [hc, hreg r (by simp)] at e
  exact e

/-! ## Named writes -/

theorem putImage_sref (c : Ctx) (n : Nat) (v : Word) (hn : n ≠ 0) (m : Mask) (old : Image) : putImage (sref c n) m (.word v) old = .word v := by
  unfold sref; split <;> simp [putImage, imageWord, hn]

theorem sref_ne (c : Ctx) (n k : Nat) (h : n ≠ k) : sref c n ≠ sref c k := by
  unfold sref; split <;> split <;> (simp_all; try omega)

/-- A scalar is written; s0 discards it (R32). -/
theorem wrote_writeS {s : State} {c d : Ctx} (h : ctxOf s c.x = some d) (hcore : d.w.core = c.w.core) (n v shadow : Nat) :
    Wrote s (writeS s c n v shadow) c.x [sref c n] ∧
      (n ≠ 0 → held (writeS s c n v shadow) c.x (sref c n) = some (.word (BitVec.ofNat 32 v))) := by
  unfold writeS
  split
  · next h0 => exact ⟨Wrote.refl s _ _, fun hn => absurd h0 hn⟩
  · next hn =>
    obtain ⟨h1, h2⟩ := wrote_writeReg h hcore (sref c n) 1 (.word (BitVec.ofNat 32 v)) shadow
    exact ⟨h1, fun _ => by rw [h2, putImage_sref c n _ hn]⟩

/-- A scalar or a pair is written. -/
theorem wrote_writeScalar {s : State} {c : Ctx} (h : ctxOf s c.x = some c) (pair : Bool) (n v : Nat) :
    Wrote s (writeScalar s c pair n v) c.x (scalarRegs c pair n) ∧ ScalarGets (writeScalar s c pair n v) c pair n v := by
  unfold writeScalar
  cases pair with
  | false =>
    obtain ⟨h1, h2⟩ := wrote_writeS h rfl n v 0
    exact ⟨h1, h2, by simp⟩
  | true =>
    obtain ⟨h1, h2⟩ := wrote_writeS h rfl n v 0
    obtain ⟨d, hd, hcore, -, -, -⟩ := h1.ctx h
    obtain ⟨h3, h4⟩ := wrote_writeS hd hcore (n + 1) (v / 2 ^ 32) 0
    refine ⟨(h1.trans h3).mono (by simp [scalarRegs]), fun hn => ?_, fun _ => h4 (by omega)⟩
    exact (h3.regs c.x (sref c n) (fun hk => sref_ne c n (n + 1) (by omega) (by simpa using hk.1))).trans (h2 hn)

/-- A mask is written to three scalars (R144). -/
theorem wrote_writeTriple {s : State} {c : Ctx} (h : ctxOf s c.x = some c) (n : Nat) (m : Mask) :
    Wrote s (writeTriple s c n m) c.x (tripleRegs c n) ∧ TripleGets (writeTriple s c n m) c n m := by
  unfold writeTriple
  obtain ⟨h1, h2⟩ := wrote_writeS h rfl n m.toNat 0
  obtain ⟨d, hd, hcore, -, -, -⟩ := h1.ctx h
  obtain ⟨h3, h4⟩ := wrote_writeS hd hcore (n + 1) (m.toNat / 2 ^ 32) 0
  obtain ⟨e, he, hcore', -, -, -⟩ := (h1.trans h3).ctx h
  obtain ⟨h5, h6⟩ := wrote_writeS he hcore' (n + 2) (m.toNat / 2 ^ 64) 0
  have w : ∀ k, BitVec.ofNat 32 (m.toNat / 2 ^ k) = m.extractLsb' k 32 := by
    intro k; apply BitVec.eq_of_toNat_eq; simp [BitVec.extractLsb'_toNat, Nat.shiftRight_eq_div_pow]
  have other : ∀ (u : State) k j, k ≠ j → ¬ (sref c k ∈ [sref c j] ∧ SameStore u c.x c.x (sref c k)) := by
    intro u k j hkj hk; exact sref_ne c k j hkj (by simpa using hk.1)
  refine ⟨((h1.trans h3).trans h5).mono (by simp [tripleRegs]), fun hn => ?_, ?_, ?_⟩
  · rw [h5.regs c.x _ (other _ n (n + 2) (by omega)), h3.regs c.x _ (other _ n (n + 1) (by omega)), h2 hn]
    have := w 0
    simp only [pow_zero, Nat.div_one] at this
    rw [this]
  · rw [h5.regs c.x _ (other _ (n + 1) (n + 2) (by omega)), h4 (by omega), w 32]
  · rw [h6 (by omega), w 64]

/-- Lanes of a vector register are written (R24, R31). -/
theorem wrote_writeV {s : State} {c d : Ctx} (h : ctxOf s c.x = some d) (hcore : d.w.core = c.w.core) (n : Nat) (m : Mask) (v : Lanes) (shadow : Nat) :
    Wrote s (writeV s c n m v shadow) c.x [vref c n] ∧
      held (writeV s c n m v shadow) c.x (vref c n) = some (.lanes (mergeLanes m v (imageLanes (regNow d (vref c n))))) := by
  unfold writeV
  obtain ⟨h1, h2⟩ := wrote_writeReg h hcore (vref c n) m (.lanes v) shadow
  refine ⟨h1, h2.trans ?_⟩
  unfold vref; split <;> simp [putImage, imageLanes]

/-- Predicate bits are written; p0 discards them (R34). -/
theorem wrote_writeP {s : State} {c d : Ctx} (h : ctxOf s c.x = some d) (hcore : d.w.core = c.w.core) (n : Nat) (m v : Mask) (shadow : Nat) :
    Wrote s (writeP s c n m v shadow) c.x [.p n] ∧
      (n ≠ 0 → held (writeP s c n m v shadow) c.x (.p n) = some (.mask ((v &&& m) ||| (Table.get d.g.preds n 0 &&& ~~~ m)))) := by
  unfold writeP
  split
  · next h0 => exact ⟨Wrote.refl s _ _, fun hn => absurd h0 hn⟩
  · next hn =>
    obtain ⟨h1, h2⟩ := wrote_writeReg h hcore (.p n) m (.mask v) shadow
    exact ⟨h1, fun _ => by rw [h2]; simp [putImage, regNow, hn, imageMask]⟩

theorem lane_mergeLanes (m : Mask) (new old : Lanes) (l : Nat) (h : l < 96) :
    lane (mergeLanes m new old) l = if has m l then lane new l else lane old l := by simp [mergeLanes, h]

end Sys2Proof.Machine
end

