-- ==== Sys2Proof/Laws/Words.lean ====
section
/-! SUPPORT. What the run of a word does, said once: the checks it passes, and the state that is left once it has issued. -/

namespace Sys2Proof.Machine

/-! ## The checks -/

/-- A word that may run and finds room does what its body says. -/
theorem runWord_next {s : State} {c : Ctx} {i : Instr} (h : Issues s c i) (f : Ctx → Form) (body : State → Ctx → Act) (hi : (f c).instr = i)
    (hp : privOk c (f c).priv = true) (hx : indexFault c (f c).checks = none) (hr : roomFor c (f c).needs = true)
    (hm : (f c).needs.matrix = true → MatrixRoom s c) : runWord s f body = .next (finish s c (f c).mark (body s c)) := by
  obtain ⟨h1, h2, h3⟩ := h
  have hd : decodeTrap c (f c) = none := by simp [decodeTrap, hi, h3, hp, hx]
  have hq : ((f c).needs.matrix && decide (8 ≤ (matrixQueue s c.w.core).length)) = false := by
    cases hn : (f c).needs.matrix with
    | false => rfl
    | true => simpa [MatrixRoom] using hm hn
  simp [runWord, h1, h2, hd, hr, hq]

/-- A word outside its privilege traps (R59, R101). -/
theorem runWord_privilege {s : State} {c : Ctx} {i : Instr} (h : Issues s c i) (f : Ctx → Form) (body : State → Ctx → Act) (hi : (f c).instr = i)
    (hp : privOk c (f c).priv = false) : runWord s f body = .next (preciseTrap s c 2 0 127 (wordOf i)) := by
  obtain ⟨h1, h2, h3⟩ := h
  simp [runWord, h1, h2, decodeTrap, hi, h3, hp]

/-- A word with a register that the launch does not declare traps (R97). -/
theorem runWord_index {s : State} {c : Ctx} {i : Instr} (h : Issues s c i) (f : Ctx → Form) (body : State → Ctx → Act) (hi : (f c).instr = i)
    (hp : privOk c (f c).priv = true) {n : Nat} (hx : indexFault c (f c).checks = some n) :
    runWord s f body = .next (preciseTrap s c 3 0 127 (BitVec.ofNat 64 (n % 128))) := by
  obtain ⟨h1, h2, h3⟩ := h
  simp [runWord, h1, h2, decodeTrap, hi, h3, hp, hx]

/-- Registers that the launch declares pass the check. -/
theorem indexFault_vecs {c : Ctx} (ns : List Nat) (h : VectorsIn c ns) : indexFault c (ns.map IndexCheck.vec) = none := by
  induction ns with
  | nil => rfl
  | cons n r ih =>
    have hn := h n List.mem_cons_self
    have hr := ih (fun m hm => h m (List.mem_cons_of_mem _ hm))
    simp only [List.map_cons, indexFault, hr, ite_eq_right_iff, reduceCtorEq]
    intro hc
    exfalso
    simp only [Bool.and_eq_true, decide_eq_true_eq, Bool.not_eq_true', Bool.and_eq_false_iff, decide_eq_false_iff_not] at hc
    rcases hn with hn | ⟨ha, hb, hd⟩
    · omega
    · rcases hc.2 with (h1 | h1) | h1
      · rw [ha] at h1; cases h1
      · exact h1 hb
      · exact h1 hd

/-- The first register that the launch does not declare is the one reported. -/
theorem indexFault_first {c : Ctx} (before after : List Nat) (n : Nat) (h : VectorsIn c before) (hn : ¬ VectorsIn c [n]) :
    indexFault c ((before ++ n :: after).map IndexCheck.vec) = some n := by
  induction before with
  | nil =>
    simp only [List.nil_append, List.map_cons, indexFault]
    rw [if_pos]
    simp only [VectorsIn, List.mem_singleton, forall_eq, not_or, not_lt] at hn
    obtain ⟨h1, h2⟩ := hn
    by_cases h3 : c.handler = true <;> by_cases h4 : 120 ≤ n <;> by_cases h5 : n ≤ 127 <;> simp_all
  | cons m r ih =>
    have e := indexFault_vecs [m] (c := c) (fun k hk => h k (by simp_all))
    simp only [List.map_cons, List.map_nil, indexFault, ite_eq_right_iff, reduceCtorEq, imp_false, Bool.not_eq_true] at e
    simp only [List.cons_append, List.map_cons, indexFault]
    rw [if_neg (by rw [e]; exact Bool.false_ne_true)]
    exact ih (fun k hk => h k (List.mem_cons_of_mem _ hk))

/-! ## A word has issued -/

/-- The loop levels and the address at which a word goes on. -/
def goesTo (c : Ctx) (go : Go) : List LoopLevel × DWord :=
  match go with
  | .next => loopUpdate c.p.loops c.p.pc
  | .jump t _ => (c.p.loops, t)

theorem held_endIssue (s : State) (y : SplitId) (r : RegRef) : held (endIssue s) y r = held s y r := by rw [held_eq, held_eq]; rfl

/-- The registers that a word wrote read the same once it has issued. -/
theorem held_settle (u : State) (c : Ctx) (mark : Bool) (go : Go) (y : SplitId) (r : RegRef) : held (settle u c mark go) y r = held u y r := by
  refine (held_endIssue _ y r).trans (held_modGroup_same u (groupOf c.x) _ y r ?_)
  intro _ gr k
  rw [getElem?_modAt]
  split <;> cases gr.splits[y.slot]? with
  | none => rfl
  | some p => cases r <;> rfl

/-- A word that has written registers and put flights in the air issues: nothing but them has changed. -/
theorem ranTo_settle {s u : State} {c : Ctx} {rs : List RegRef} (hc : ctxOf s c.x = some c) (h : Wrote s u c.x rs) (mark : Bool) (go : Go) :
    RanTo s (settle u c mark go) c rs [] (goesTo c go).2 (goesTo c go).1 := by
  have hr : (settle u c mark go).rest = u.rest := by
    have := modSplit_rest u c.x (fun p => advance p c.p.pc mark go (columnOf u c.w.column).cycle) (fun _ => rfl)
    simpa [settle, endIssue, State.rest] using this
  have hsp := ctxOf_splitFind hc
  refine ⟨hr.trans h.rest, h.cores, fun y hy => ?_, fun y r hn => ?_, fun a => ?_, ?_, rfl, ?_⟩
  · exact (show splitFind (settle u c mark go) y = splitFind u y from (splitFind_modSplit u c.x y _).trans (if_neg hy)).trans (h.others y hy)
  · exact (held_settle u c mark go y r).trans (h.regs y r hn)
  · rw [show (settle u c mark go).mem = u.mem from rfl, State.rest_mem h.rest]
  · rw [List.append_nil]; exact h.flights
  · have e := h.place
    rw [hsp] at e
    rw [show splitFind (settle u c mark go) c.x = _ from (splitFind_modSplit u c.x c.x _).trans (if_pos rfl)]
    cases hp : splitFind u c.x with
    | none => rw [hp] at e; cases e
    | some p =>
      rw [hp] at e
      simp only [Option.map_some, Option.some.injEq, Prod.mk.injEq] at e
      obtain ⟨-, e2, e3⟩ := e
      cases go <;> simp [advance, goesTo, e2, e3]

/-- A later result is in the air, and nothing else has changed. -/
theorem ranTo_later {s u : State} {c : Ctx} {rs : List RegRef} (hc : ctxOf s c.x = some c) (h : Wrote s u c.x rs) (mark : Bool) (go : Go)
    (dests : List Dest) (readyAt : Nat) (hd : ∀ d ∈ dests, d.clobbered = 0) :
    RanTo s (settle (laterResult u c dests readyAt) c mark go) c rs [later s c dests readyAt] (goesTo c go).2 (goesTo c go).1 := by
  have hs := ctxOf_splitFind hc
  set f : Flight := { Flight.new u c .value with dests := numberedDests c.x dests, readyAt := readyAt } with hf
  have hfl : f = later s c dests readyAt := by simp [hf, later, Flight.new, h.nextId, stampOf, h.draw]
  have h1 : RanTo s (settle u c mark go) c rs [] (goesTo c go).2 (goesTo c go).1 := ranTo_settle hc h mark go
  obtain ⟨a1, a2, a3, a4, a5, a6, -, a8⟩ := h1
  have hw : (laterResult u c dests readyAt).wgs = (modSplit u c.x (fun p => { p with await := p.await ++ [u.nextId] })).wgs := rfl
  have hr : (settle (laterResult u c dests readyAt) c mark go).rest = u.rest := by
    have e1 := modSplit_rest (modSplit u c.x (fun p => { p with await := p.await ++ [u.nextId] })) c.x
      (fun p => advance p c.p.pc mark go (columnOf u c.w.column).cycle) (fun _ => rfl)
    have e2 := modSplit_rest u c.x (fun p => { p with await := p.await ++ [u.nextId] }) (fun _ => rfl)
    have e3 := State.rest_wgs (e1.trans e2)
    have e4 : (settle (laterResult u c dests readyAt) c mark go).wgs.map Workgroup.rest = u.wgs.map Workgroup.rest := e3
    simp only [State.rest, e4]; rfl
  refine ⟨hr.trans h.rest, h.cores, fun y hy => ?_, fun y r hn => ?_, fun a => ?_, ?_, rfl, ?_⟩
  · have e1 : splitFind (settle (laterResult u c dests readyAt) c mark go) y = splitFind (laterResult u c dests readyAt) y :=
      (splitFind_modSplit _ c.x y _).trans (if_neg hy)
    have e2 : splitFind (laterResult u c dests readyAt) y = splitFind u y :=
      (splitFind_congr hw y).trans ((splitFind_modSplit u c.x y _).trans (if_neg hy))
    exact e1.trans (e2.trans (h.others y hy))
  · rw [held_settle]
    refine Eq.trans ?_ (h.regs y r hn)
    refine Eq.trans (?_ : _ = held (modSplit u c.x (fun p => { p with await := p.await ++ [u.nextId] })) y r) ?_
    · exact held_congr r (wgFind_congr hw _) rfl (fun w _ => .inr rfl)
    · refine held_modGroup_same u (groupOf c.x) _ y r ?_
      intro _ gr k
      rw [getElem?_modAt]
      split <;> cases gr.splits[y.slot]? with
      | none => rfl
      | some p => cases r <;> rfl
  · rw [show (settle (laterResult u c dests readyAt) c mark go).mem = u.mem from rfl, State.rest_mem h.rest]
  · have e : (settle (laterResult u c dests readyAt) c mark go).flights = u.flights ++ [f] := rfl
    have e2 : f.rest = f := by
      have : f.dests.map (fun d => { d with clobbered := 0 }) = f.dests := by
        conv_rhs => rw [← List.map_id f.dests]
        apply List.map_congr_left
        intro d hdm
        obtain ⟨⟨k, e⟩, hz, rfl⟩ := List.mem_map.mp (show d ∈ numberedDests c.x dests from hdm)
        have := hd e (List.of_mem_zip hz).2
        cases e; simp_all
      unfold Flight.rest; rw [this]
    rw [e, List.map_append, h.flights, List.map_singleton, e2, hfl]
  · have e := h.place
    rw [hs] at e
    have e1 : splitFind (settle (laterResult u c dests readyAt) c mark go) c.x = ((splitFind u c.x).map (fun p => { p with await := p.await ++ [u.nextId] })).map
        (fun p => advance p c.p.pc mark go (columnOf u c.w.column).cycle) := by
      refine ((splitFind_modSplit _ c.x c.x _).trans (if_pos rfl)).trans ?_
      rw [splitFind_congr hw, splitFind_modSplit, if_pos rfl]; rfl
    rw [e1]
    cases hp : splitFind u c.x with
    | none => rw [hp] at e; cases e
    | some p =>
      rw [hp] at e
      simp only [Option.map_some, Option.some.injEq, Prod.mk.injEq] at e
      obtain ⟨-, e2, e3⟩ := e
      cases go <;> simp [advance, goesTo, e2, e3, later, Flight.new, h.nextId]

/-! ## The vector pipe -/

/-- A vector word's reads change only the hold latch and the accounting of the pipe. -/
theorem wrote_vectorIssue {s : State} {c : Ctx} (hc : ctxOf s c.x = some c) (srcs : List Src) (hold : List Nat) (windows : Nat) :
    Wrote s (vectorIssue s c srcs hold windows) c.x [] := by
  have key : ∀ kept busy lag, Wrote s (modCore (modGroup s (groupOf c.x) (fun g => { g with hold := kept })) c.w.core (fun k => { k with pipeFree := busy, lag := lag })) c.x [] := by
    intro kept busy lag
    have h1 := Wrote.modGroup_same s c.x [] (fun g => { g with hold := kept }) (fun _ => rfl) (fun _ => rfl) (fun r _ g p k => by cases r <;> rfl) (by simp)
    obtain ⟨d, hd, hcore, -, -, -⟩ := h1.ctx hc
    have h2 := wrote_modCore _ c.x c.w.core [] (fun k => { k with pipeFree := busy, lag := lag }) (fun _ => rfl) (hcore ▸ ctxOf_core hd)
      (fun r _ g p k => by cases r <;> rfl) (by simp)
    exact (h1.trans h2).mono (by simp)
  exact key _ _ _

/-- 96 values are written to a vector register or pair. -/
theorem wrote_writeVals {s u : State} {c : Ctx} (hc : ctxOf s c.x = some c) (h : Wrote s u c.x []) (d : Nat) (wide : Bool) (vals : List Nat) (shadow : Nat)
    (hl : vals.length = 96) : Wrote s (writeVals u c d wide vals shadow) c.x (vectorRegs c wide d) ∧
      LanesGet (writeVals u c d wide vals shadow) c wide d c.writes (fun l => vals.getD l 0) := by
  obtain ⟨e, he, hcore, -, -, hreg⟩ := h.ctx hc
  obtain ⟨h1, h2⟩ := wrote_writeV he hcore d c.writes (vals.map (BitVec.ofNat 32)) shadow
  have hne : ∀ k, vref c k ≠ vref c (k + 1) := by intro k; unfold vref; split <;> split <;> (simp_all; try omega)
  have hlane : ∀ (g : Nat → Nat) l, l < 96 → lane (vals.map (fun v => BitVec.ofNat 32 (g v))) l = BitVec.ofNat 32 (g (vals.getD l 0)) := by
    intro g l hl2
    simp [lane, List.getD, hl, hl2]
  rw [hreg _ (by simp)] at h2
  have hv : VectorGets (writeV u c d c.writes (vals.map (BitVec.ofNat 32)) shadow) c d c.writes (fun l => BitVec.ofNat 32 (vals.getD l 0)) := by
    refine ⟨_, h2, fun l hl2 => ?_⟩
    rw [lane_mergeLanes _ _ _ l hl2, hlane (fun v => v) l hl2]
  unfold writeVals
  cases wide with
  | false => exact ⟨(h.trans h1).mono (by simp [vectorRegs]), hv, by simp⟩
  | true =>
    obtain ⟨e2, he2, hcore2, -, -, hreg2⟩ := (h.trans h1).ctx hc
    obtain ⟨h3, h4⟩ := wrote_writeV he2 hcore2 (d + 1) c.writes (vals.map (fun v => BitVec.ofNat 32 (v / 2 ^ 32))) shadow
    refine ⟨((h.trans h1).trans h3).mono (by simp [vectorRegs]), ?_, fun _ => ?_⟩
    · obtain ⟨v, hv1, hv2⟩ := hv
      exact ⟨v, (h3.regs c.x _ (fun hk => hne d (by simpa using hk.1))).trans hv1, hv2⟩
    · refine ⟨_, h4, fun l hl2 => ?_⟩
      rw [lane_mergeLanes _ _ _ l hl2, hlane (fun v => v / 2 ^ 32) l hl2, hreg2 _ (by simpa using (hne d).symm)]

@[simp] theorem length_lanewise (c : Ctx) (srcs : List Src) (f : List Nat → Nat) : (lanewise c srcs f).length = 96 := by simp [lanewise, allLanes]

/-- A result of a lane is the function of the sources in the lane. -/
theorem lanewise_getD (c : Ctx) (srcs : List Src) (f : List Nat → Nat) (l : Nat) (h : l < 96) :
    (lanewise c srcs f).getD l 0 = f (srcs.map (fun a => sourceAt c a l)) := by
  simp [lanewise, allLanes, List.getD, h, sourceAt, Function.comp_def]

/-- What a value says of the state in which it is written stays true once the word has issued. -/
theorem scalarGets_settle {u : State} {c : Ctx} {pair : Bool} {n v : Nat} (h : ScalarGets u c pair n v) (mark : Bool) (go : Go) :
    ScalarGets (settle u c mark go) c pair n v := ⟨fun hn => (held_settle u c mark go _ _).trans (h.1 hn), fun hp => (held_settle u c mark go _ _).trans (h.2 hp)⟩

theorem tripleGets_settle {u : State} {c : Ctx} {n : Nat} {m : Mask} (h : TripleGets u c n m) (mark : Bool) (go : Go) :
    TripleGets (settle u c mark go) c n m :=
  ⟨fun hn => (held_settle u c mark go _ _).trans (h.1 hn), (held_settle u c mark go _ _).trans h.2.1, (held_settle u c mark go _ _).trans h.2.2⟩

theorem lanesGet_settle {u : State} {c : Ctx} {wide : Bool} {n : Nat} {m : Mask} {new : Nat → Nat} (h : LanesGet u c wide n m new) (mark : Bool) (go : Go) :
    LanesGet (settle u c mark go) c wide n m new := by
  obtain ⟨⟨v, h1, h2⟩, h3⟩ := h
  refine ⟨⟨v, (held_settle u c mark go _ _).trans h1, h2⟩, fun hw => ?_⟩
  obtain ⟨w, h4, h5⟩ := h3 hw
  exact ⟨w, (held_settle u c mark go _ _).trans h4, h5⟩

/-! ## Families of words -/

@[simp] theorem roomFor_none (c : Ctx) : roomFor c {} = true := by simp [roomFor]

/-- A word of no needs that writes a scalar or a pair. -/
theorem scalarWord_result {s : State} {c : Ctx} {i : Instr} (f : SF) (r : State → Ctx → Nat) (h : Issues s c i) :
    ∃ t, scalarWord i f r s = .next t ∧ ScalarGets t c f.pair f.sd.toNat (r s c) ∧ Ran s t c (scalarRegs c f.pair f.sd.toNat) [] := by
  have hc := (issuing_some h.1).2
  obtain ⟨h1, h2⟩ := wrote_writeScalar hc f.pair f.sd.toNat (r s c)
  exact ⟨_, runWord_next h _ _ rfl rfl rfl (roomFor_none c) (by simp [sForm]), scalarGets_settle h2 _ _, ranTo_settle hc h1 _ _⟩

theorem destScalars_clobbered (c : Ctx) (pair : Bool) (n v : Nat) : ∀ d ∈ destScalars c pair n v, d.clobbered = 0 := by
  intro d hd
  unfold destScalars destScalar at hd
  cases pair <;> simp only [if_true, Bool.false_eq_true, if_false, List.mem_append] at hd
  · split at hd
    · simp at hd
    · simp only [List.mem_singleton] at hd; subst hd; rfl
  · rcases hd with hd | hd <;> split at hd
    · simp at hd
    · simp only [List.mem_singleton] at hd; subst hd; rfl
    · simp at hd
    · simp only [List.mem_singleton] at hd; subst hd; rfl

/-- A word of no needs whose scalar result arrives later (R50). -/
theorem laterScalarWord_result {s : State} {c : Ctx} {i : Instr} (f : SF) (r : Ctx → Nat) (h : Issues s c i) :
    ∃ t, laterScalarWord i f r s = .next t ∧ Ran s t c [] [later s c (destScalars c f.pair f.sd.toNat (r c)) 0] := by
  have hc := (issuing_some h.1).2
  exact ⟨_, runWord_next h _ _ rfl rfl rfl (roomFor_none c) (by simp [sForm]), ranTo_later hc (Wrote.refl s _ _) _ _ _ _ (destScalars_clobbered c _ _ _)⟩

/-- A word of no needs that writes a triple. -/
theorem maskWord_result {s : State} {c : Ctx} {i : Instr} (f : SF) (r : Ctx → Mask) (h : Issues s c i) :
    ∃ t, maskWord i f r s = .next t ∧ TripleGets t c f.sd.toNat (r c) ∧ Ran s t c (tripleRegs c f.sd.toNat) [] := by
  have hc := (issuing_some h.1).2
  obtain ⟨h1, h2⟩ := wrote_writeTriple hc f.sd.toNat (r c)
  exact ⟨_, runWord_next h _ _ rfl rfl rfl (roomFor_none c) (by simp [sForm]), tripleGets_settle h2 _ _, ranTo_settle hc h1 _ _⟩

/-- A word of no needs that writes one scalar. -/
theorem countWord_result {s : State} {c : Ctx} {i : Instr} (f : SF) (r : Ctx → Nat) (h : Issues s c i) :
    ∃ t, countWord i f r s = .next t ∧ ScalarGets t c false f.sd.toNat (r c) ∧ Ran s t c (scalarRegs c false f.sd.toNat) [] := by
  have hc := (issuing_some h.1).2
  obtain ⟨h1, h2⟩ := wrote_writeS hc rfl f.sd.toNat (r c) 0
  exact ⟨_, runWord_next h _ _ rfl rfl rfl (roomFor_none c) (by simp [sForm]),
    scalarGets_settle (show ScalarGets _ c false f.sd.toNat (r c) from ⟨h2, by simp⟩) _ _, ranTo_settle hc h1 _ _⟩

/-- A lane-by-lane word writes its function of the sources' lanes, where nothing stops it. -/
theorem vectorOp_result {s : State} {c : Ctx} (hc : ctxOf s c.x = some c) (srcs : List Src) (hold : Hold) (windows base d : Nat) (wide : Bool)
    (f : List Nat → Nat) (mark : Bool) :
    ∃ t, finish s c mark (vectorOp s c srcs hold windows base d wide f) = t ∧
      LanesGet t c wide d c.writes (fun l => (lanewise c srcs f).getD l 0) ∧ Ran s t c (vectorRegs c wide d) [] := by
  obtain ⟨h1, h2⟩ := wrote_writeVals hc (wrote_vectorIssue hc srcs (heldSource hold srcs) windows) d wide (lanewise c srcs f)
    (shadowFor c base srcs) (length_lanewise c srcs f)
  exact ⟨_, rfl, lanesGet_settle h2 _ _, ranTo_settle hc h1 _ _⟩

end Sys2Proof.Machine
end

