-- ==== Sys2Proof/Tests/Slice0.lean ====
section
/-! SUPPORT. Small checks of the model by hand-made cases: ill-formed terms are refused, words written out bit by bit decode, and each hypothesis of a statement is met
by a concrete state. -/

namespace Sys2Proof.Tests

open Sys2Proof Sys2Proof.Machine

set_option maxRecDepth 20000
set_option Elab.async false

/-! ## Format records of zeros -/

def s0 : SF := { mark := false, sd := 0, sa := 0, sb := 0, pair := false, fn := 0, imm := 0 }
def b0 : BF := { mark := false, sa := 0, cond := 0, aux := 0, offset := 0 }
def v3 : V3 := { mark := false, hold := .none, d := 0, a := 0, b := 0, c := 0, ra := .identity, rb := .identity, rc := .identity }
def v2 : V2I := { mark := false, hold := .none, d := 0, a := 0, b := 0, ra := .identity, rb := .identity, imm := 0 }
def vi0 : VI := { mark := false, d := 0, a := 0, ra := .identity, imm := 0 }
def m0 : MF := { mark := false, hold := .none, data := 0, addr := 0, sbase := 0, rt := .identity, width := .b, ord := .plain, offset := 0 }
def e0 : EF := { mark := false, sd := 0, sa := 0, sb := 0, eop := 0, flags := 0 }
def x0 : XF := { mark := false, u := false, na := false, z := false, fa := 0, fb := 0, acc := 0, abase := 0, sbr := 0, nc := 0 }


/-! ## Well-formed and ill-formed terms (R90 to R99, R103) -/

def legal_1 : List Instr :=
  [.sadd { s0 with sb := 3 }, .smulh { s0 with fn := 1 }, .sset { s0 with fn := 7 }, .smov { s0 with sa := 4 }, .sext { s0 with fn := 4 },
   .sli { s0 with imm := 9 }, .srdt { s0 with sd := 2 }, .mset { s0 with sd := 61 }, .mand { s0 with sd := 1, sa := 61, imm := 5 },
   .mnot { s0 with sd := 1, sa := 1 }, .mcnt { s0 with sa := 61 }, .mfromp { s0 with sd := 1, sa := 7 }, .mtop { s0 with sd := 7, sa := 1 },
   .mode { s0 with fn := 1, sa := 3, imm := 8 }, .rmode { s0 with pair := true, sd := 2 }, .vany { s0 with sa := 7 }, .vballot { s0 with sd := 61 },
   .pand { s0 with sd := 7, sa := 7, sb := 7 }, .pnot { s0 with sa := 7 }, .xbnd { s0 with imm := 9 }, .satom { s0 with sa := 2, imm := 44 },
   .ctadd { s0 with fn := 2, sa := 3 }, .ctread { s0 with fn := 1 }, .bar { s0 with mark := true }, .fence { s0 with fn := 6, imm := 3 },
   .xfence { s0 with fn := 1, imm := 0x13F }, .wait { s0 with fn := 5, imm := 9 }, .fwait { s0 with sd := 1, sa := 2 },
   .trap { s0 with imm := 0xFFFF }, .rdsys { s0 with imm := 0x43 }, .wrsys { s0 with pair := true, sa := 2, imm := 0x12 },
   .thRegisterWrite { s0 with imm := 0x42 }, .timestatWrite { s0 with imm := 0x31 }, .rwayfWrite { s0 with imm := 0x60 },
   .tsr { s0 with pair := true, sd := 62 }, .launch { s0 with sd := 1, sa := 2, sb := 4 }, .pbsetRng { s0 with sa := 2, imm := 63 },
   .pbsetProt { s0 with fn := 1, sa := 2 }, .pbgetRng { s0 with pair := true, sd := 2, imm := 255 },
   .pbgetProt { s0 with pair := true, sd := 2, fn := 1, imm := 63 }, .tlbinvPage { s0 with sa := 2 }, .tlbinvSpace { s0 with fn := 1 },
   .tlbinvAll { s0 with fn := 2 }, .hpost { s0 with sd := 1, sa := 2, imm := 0xFFFF }, .br { b0 with offset := 7 },
   .bc { b0 with cond := 9, aux := 0x7FF }, .call { b0 with sa := 62 }, .ret { b0 with sa := 2 }, .loop { b0 with aux := 4, offset := 1 },
   .split { b0 with sa := 57, aux := 7 }, .join { b0 with sa := 57 }, .bzm { b0 with sa := 61 }, .exit { b0 with mark := true },
   .vmov { v3 with ra := .indexed .ixb 1 }, .vadd { v3 with hold := .b, b := 4, rb := .rot32 9 }, .vmad { v3 with hold := .c, c := 3 },
   .vabs { v3 with hold := .a }, .vbfx { v2 with imm := 0x2000 }, .vbfi { v2 with imm := 0x4000, b := 3 }, .vcmp { v2 with d := 7, imm := 0xB9 }]
def legal_2 : List Instr :=
  [.vsel { v2 with imm := 7 }, .vcvt { v2 with imm := 0x14, a := 1 }, .vpack { v2 with imm := 1 }, .vunpk { v2 with imm := 3 },
   .vbcs { v2 with a := 63 }, .vrdl { v2 with imm := 0x4005, d := 63 }, .fcmp { v2 with imm := 8 }, .fclass { v2 with imm := 0x53FF },
   .frnd { v2 with imm := 7 }, .fcvt { v2 with imm := 0x79B }, .fcvtt { v2 with b := 63, imm := 0x1FF }, .frcp { v2 with a := 3 },
   .rdx { v2 with a := 7, imm := 127 }, .wrx { v2 with d := 7 }, .xset { v2 with d := 7, imm := 1 }, .xget { v2 with a := 7, imm := 1 },
   .vmovi { vi0 with imm := 7 }, .vld { m0 with width := .q, data := 4, addr := 2, rt := .rot32 1, hold := .b },
   .vst { m0 with width := .d, hold := .a, data := 2 }, .vlds { m0 with ord := .strong .wg true, addr := 1 }, .vsts { m0 with sbase := 3 },
   .vstm { m0 with hold := .a }, .sld { m0 with data := 63, sbase := 2 }, .ldfe { m0 with width := .w }, .stfe { m0 with width := .w, hold := .a },
   .feset { m0 with width := .w, data := 1 }, .vpf { m0 with data := 1 }, .cwb { m0 with addr := 2 },
   .atom { m0 with width := .d, data := 4, offset := 0x21 }, .atomv { m0 with width := .h, data := 8, offset := 13 },
   .lres { m0 with width := .w, sbase := 2 }, .cp { e0 with sd := 1, sa := 2, eop := 1, sb := 2, flags := 0x18 },
   .cpmc { e0 with sd := 1, sa := 2, flags := 3 }, .cpg { e0 with sd := 1, flags := 0x402 }, .cpretry { e0 with sd := 1, sa := 2 },
   .accld { e0 with sa := 3, flags := 0x2F }, .acczero { e0 with flags := 7 }, .fmtset { e0 with sa := 1, flags := 15 },
   .fmtget { e0 with sd := 1, flags := 15 }, .rhold { e0 with sd := 1, sa := 2, sb := 4, flags := 7 }, .rdemote { e0 with flags := 15 },
   .mma { x0 with acc := 2, nc := 3 }]
theorem test_wellFormed_1 : ∀ i ∈ legal_1, i.wellFormed = true := by decide
theorem test_wellFormed_2 : ∀ i ∈ legal_2, i.wellFormed = true := by decide
def illFormed_1 : List Instr :=
  [.sadd { s0 with sb := 3, imm := 1 }, .sadd { s0 with fn := 1 }, .sadd { s0 with pair := true, sd := 3 }, .sadd { s0 with pair := true, sa := 5 },
   .sadd { s0 with pair := true, sb := 7 }, .smulh { s0 with fn := 2 }, .sset { s0 with sb := 1, imm := 7 }, .smov { s0 with sb := 1 },
   .smov { s0 with imm := 1 }, .smov { s0 with fn := 1 }, .smov { s0 with pair := true, sd := 9 }, .sext { s0 with fn := 2 },
   .sext { s0 with fn := 5 }, .sext { s0 with fn := 6 }, .sext { s0 with pair := true, fn := 6 }, .sli { s0 with sa := 1 }, .sli { s0 with sb := 1 },
   .sli { s0 with fn := 1 }, .sli { s0 with pair := true, sd := 1 }, .srdt { s0 with sa := 1 }, .srdt { s0 with imm := 1 }, .mset { s0 with sd := 0 },
   .mset { s0 with sd := 62 }, .mset { s0 with sa := 1 }, .mset { s0 with sb := 1 }, .mset { s0 with imm := 1 },
   .mset { s0 with pair := true, sd := 2 }, .mset { s0 with fn := 1, sd := 1 }, .mand { s0 with sd := 0, sa := 1 },
   .mand { s0 with sd := 1, sa := 62 }, .mand { s0 with sd := 1, sa := 1, sb := 62 }, .mand { s0 with sd := 1, sa := 1, sb := 2, imm := 1 },
   .mnot { s0 with sd := 1 }, .mnot { s0 with sd := 1, sa := 1, sb := 1 }, .mnot { s0 with sd := 1, sa := 1, imm := 1 }, .mcnt { s0 with sa := 0 },
   .mcnt { s0 with sa := 1, sb := 1 }, .mcnt { s0 with sa := 1, imm := 1 }, .mfromp { s0 with sd := 1, sa := 8 }, .mfromp { s0 with sa := 1 },
   .mfromp { s0 with sd := 1, imm := 1 }, .mtop { s0 with sd := 8, sa := 1 }, .mtop { s0 with sa := 62 }, .mtop { s0 with sa := 1, sb := 1 },
   .mode { s0 with sa := 3 }, .mode { s0 with fn := 1 }, .mode { s0 with fn := 2, sa := 1 }, .mode { s0 with sd := 1 },
   .mode { s0 with pair := true }, .mode { s0 with sb := 1, imm := 1 }, .rmode { s0 with pair := true, sd := 3 }, .rmode { s0 with fn := 1 },
   .rmode { s0 with sa := 1 }, .rmode { s0 with sb := 1 }, .rmode { s0 with imm := 1 }, .vany { s0 with sa := 8 }, .vany { s0 with sb := 1 },
   .vany { s0 with imm := 1 }, .vany { s0 with fn := 1 }, .vballot { s0 with sd := 62 }]
def illFormed_2 : List Instr :=
  [.vballot { s0 with sd := 0 }, .pand { s0 with sd := 8 }, .pand { s0 with sa := 8 }, .pand { s0 with sb := 8 }, .pand { s0 with imm := 1 },
   .pand { s0 with pair := true }, .pnot { s0 with sb := 1 }, .xbnd { s0 with sd := 1 }, .xbnd { s0 with sa := 1 },
   .xbnd { s0 with sb := 1, imm := 1 }, .xbnd { s0 with fn := 1 }, .satom { s0 with sa := 1, imm := 44 }, .satom { s0 with fn := 1 },
   .satom { s0 with imm := 13 }, .satom { s0 with imm := 0xE0 }, .satom { s0 with imm := 0x100 }, .satom { s0 with imm := 0x200 },
   .satom { s0 with sb := 63, imm := 1 }, .satom { s0 with pair := true, sd := 1 }, .satom { s0 with pair := true, sb := 3 },
   .satom { s0 with pair := true, sb := 6, imm := 1 }, .ctadd { s0 with fn := 0 }, .ctadd { s0 with fn := 7 }, .ctadd { s0 with fn := 3 },
   .ctadd { s0 with fn := 1, sd := 3 }, .ctadd { s0 with fn := 1, pair := true, sa := 3 }, .ctadd { s0 with fn := 1, pair := true, sb := 3 },
   .ctadd { s0 with fn := 1, sb := 2, imm := 1 }, .ctread { s0 with fn := 1, sb := 2 }, .ctread { s0 with fn := 1, imm := 2 },
   .bar { s0 with sd := 1 }, .bar { s0 with sa := 1 }, .bar { s0 with sb := 1 }, .bar { s0 with fn := 1 }, .bar { s0 with pair := true },
   .bar { s0 with imm := 1 }, .fence { s0 with fn := 0 }, .fence { s0 with fn := 7 }, .fence { s0 with fn := 1, imm := 4 },
   .fence { s0 with fn := 1, sd := 1 }, .fence { s0 with fn := 1, sa := 1 }, .fence { s0 with fn := 1, sb := 1 },
   .fence { s0 with fn := 1, pair := true }, .xfence { s0 with fn := 0, imm := 0x101 }, .xfence { s0 with fn := 7, imm := 0x101 },
   .xfence { s0 with fn := 1, imm := 0x100 }, .xfence { s0 with fn := 1, imm := 1 }, .xfence { s0 with fn := 1, imm := 0x141 },
   .xfence { s0 with fn := 1, imm := 0x4101 }, .xfence { s0 with fn := 1, imm := 0x101, sd := 1 }, .wait { s0 with fn := 6 },
   .wait { s0 with sd := 1 }, .wait { s0 with sa := 1 }, .wait { s0 with sb := 1, imm := 1 }, .wait { s0 with pair := true },
   .fwait { s0 with sb := 1 }, .fwait { s0 with imm := 1 }, .fwait { s0 with fn := 1 }, .trap { s0 with imm := 0x10000 }, .trap { s0 with sd := 1 }]
def illFormed_3 : List Instr :=
  [.trap { s0 with sa := 1 }, .trap { s0 with sb := 1 }, .trap { s0 with fn := 1 }, .rdsys { s0 with imm := 0x03 }, .rdsys { s0 with imm := 0x46 },
   .rdsys { s0 with imm := 0x11 }, .rdsys { s0 with pair := true, sd := 2, imm := 0x10 }, .rdsys { s0 with pair := true, sd := 3, imm := 0x11 },
   .rdsys { s0 with pair := true, imm := 0x11 }, .rdsys { s0 with fn := 1, imm := 1 }, .rdsys { s0 with sa := 1, imm := 1 },
   .rdsys { s0 with sb := 1, imm := 1 }, .rdsys { s0 with imm := 0x1001 }, .wrsys { s0 with imm := 0x40 }, .wrsys { s0 with imm := 0x31 },
   .wrsys { s0 with imm := 0x60 }, .wrsys { s0 with pair := true, sa := 3, imm := 0x12 }, .wrsys { s0 with sd := 1, imm := 1 },
   .wrsys { s0 with sb := 1, imm := 1 }, .wrsys { s0 with fn := 1, imm := 1 }, .thRegisterWrite { s0 with imm := 0x43 },
   .timestatWrite { s0 with imm := 0x30 }, .rwayfWrite { s0 with imm := 0x61 }, .tsr { s0 with sd := 2 }, .tsr { s0 with pair := true },
   .tsr { s0 with pair := true, sd := 3 }, .tsr { s0 with pair := true, sd := 2, fn := 1 }, .tsr { s0 with pair := true, sd := 2, sa := 1 },
   .tsr { s0 with pair := true, sd := 2, sb := 1 }, .tsr { s0 with pair := true, sd := 2, imm := 1 }, .launch { s0 with sa := 0, sb := 4 },
   .launch { s0 with sa := 2, sb := 5 }, .launch { s0 with sa := 2, sb := 4, imm := 1 }, .launch { s0 with sa := 2, sb := 4, fn := 1 },
   .pbsetRng { s0 with sa := 2, imm := 64 }, .pbsetRng { s0 with sa := 3 }, .pbsetRng { s0 with fn := 1, sa := 2 },
   .pbsetRng { s0 with sa := 2, sb := 1 }, .pbsetRng { s0 with pair := true, sa := 2 }, .pbsetProt { s0 with fn := 0, sa := 2 },
   .pbgetRng { s0 with sd := 2 }, .pbgetRng { s0 with pair := true, sd := 2, imm := 256 }, .pbgetRng { s0 with pair := true, sd := 2, fn := 1 },
   .pbgetRng { s0 with pair := true, sd := 2, sa := 1 }, .pbgetProt { s0 with pair := true, sd := 2, fn := 1, imm := 64 },
   .tlbinvPage { s0 with sa := 3 }, .tlbinvPage { s0 with sa := 2, sd := 1 }, .tlbinvPage { s0 with sa := 2, sb := 1 },
   .tlbinvPage { s0 with sa := 2, imm := 1 }, .tlbinvPage { s0 with sa := 2, pair := true }, .tlbinvSpace { s0 with fn := 1, sa := 2 },
   .tlbinvAll { s0 with fn := 1 }, .hpost { s0 with sa := 2, imm := 0x10000 }, .hpost { s0 with sa := 1 }, .hpost { s0 with sa := 2, sb := 1 },
   .hpost { s0 with sa := 2, fn := 1 }, .br { b0 with sa := 1 }, .br { b0 with cond := 1 }, .br { b0 with aux := 1 }, .bc { b0 with cond := 10 }]
def illFormed_4 : List Instr :=
  [.bc { b0 with aux := 0x840 }, .call { b0 with sa := 0 }, .call { b0 with sa := 3 }, .call { b0 with sa := 2, cond := 1 },
   .call { b0 with sa := 2, aux := 1 }, .ret { b0 with sa := 2, offset := 1 }, .loop { b0 with cond := 1 }, .loop { b0 with sa := 1, aux := 1 },
   .loop { b0 with offset := 0x80000000 }, .split { b0 with sa := 0 }, .split { b0 with sa := 58 }, .split { b0 with sa := 1, cond := 1 },
   .split { b0 with sa := 1, aux := 8 }, .join { b0 with sa := 58 }, .join { b0 with sa := 1, cond := 1 }, .join { b0 with sa := 1, aux := 1 },
   .join { b0 with sa := 1, offset := 1 }, .bzm { b0 with sa := 62 }, .bzm { b0 with cond := 1 }, .bzm { b0 with aux := 1 },
   .exit { b0 with offset := 1 }, .exit { b0 with sa := 1 }, .vmov { v3 with b := 1 }, .vmov { v3 with rc := .rot32 0 }, .vadd { v3 with hold := .c },
   .vadd { v3 with c := 1 }, .vadd { v3 with rc := .rot32 1 }, .vabs { v3 with hold := .b }, .vabs { v3 with b := 1 },
   .vabs { v3 with rb := .rot96 0 }, .vbfx { v2 with b := 1 }, .vbfx { v2 with imm := 0x4001 }, .vbfi { v2 with imm := 0x2000 },
   .vbfi { v2 with imm := 0x6000 }, .vcmp { v2 with d := 8 }, .vcmp { v2 with imm := 0x100 }, .vcmp { v2 with imm := 0xC0 },
   .vcmp { v2 with imm := 10 }, .vcmp { v2 with hold := .c }, .vsel { v2 with imm := 8 }, .vcvt { v2 with imm := 8 },
   .vcvt { v2 with imm := 0x14, b := 1 }, .vcvt { v2 with imm := 0x24 }, .vcvt { v2 with imm := 2, a := 1 }, .vcvt { v2 with imm := 0x100 },
   .vpack { v2 with imm := 2 }, .vunpk { v2 with imm := 4 }, .vunpk { v2 with b := 1 }, .vbcs { v2 with a := 64 }, .vbcs { v2 with hold := .a },
   .vbcs { v2 with b := 1 }, .vbcs { v2 with imm := 1 }, .vbcs { v2 with ra := .rot32 0 }, .vrdl { v2 with d := 64 },
   .vrdl { v2 with ra := .rot32 0 }, .vrdl { v2 with imm := 0x80 }, .vrdl { v2 with imm := 0x4040 }, .fcmp { v2 with imm := 7 },
   .fcmp { v2 with imm := 9 }, .fcmp { v2 with imm := 0xC0 }]
def illFormed_5 : List Instr :=
  [.fcmp { v2 with d := 8 }, .fclass { v2 with imm := 0x400 }, .fclass { v2 with imm := 0x6000 }, .fclass { v2 with d := 8 },
   .frnd { v2 with imm := 8 }, .frnd { v2 with b := 1 }, .fcvt { v2 with imm := 12 }, .fcvt { v2 with imm := 0x800 },
   .fcvt { v2 with imm := 9, a := 1 }, .fcvt { v2 with imm := 0x1B, b := 1 }, .fcvtt { v2 with b := 64 }, .fcvtt { v2 with imm := 0x200 },
   .fcvtt { v2 with hold := .b }, .fcvtt { v2 with rb := .rot32 0 }, .frcp { v2 with imm := 1 }, .frcp { v2 with b := 1 },
   .frcp { v2 with hold := .b }, .rdx { v2 with a := 8 }, .rdx { v2 with imm := 128 }, .rdx { v2 with hold := .a }, .rdx { v2 with ra := .rot32 0 },
   .wrx { v2 with d := 8 }, .wrx { v2 with imm := 128 }, .xset { v2 with d := 8 }, .xset { v2 with imm := 2 }, .xget { v2 with a := 8 },
   .xget { v2 with imm := 2 }, .xget { v2 with hold := .a }, .vmovi { vi0 with a := 1 }, .vmovi { vi0 with ra := .rot32 0 },
   .vld { m0 with hold := .a }, .vld { m0 with hold := .b }, .vld { m0 with sbase := 3 }, .vld { m0 with addr := 3 },
   .vld { m0 with width := .d, data := 3 }, .vld { m0 with width := .q, data := 6 }, .vld { m0 with rt := .rot32 1 },
   .vld { m0 with hold := .c, addr := 2 }, .vst { m0 with width := .q, hold := .a }, .vlds { m0 with ord := .strong .col false },
   .vlds { m0 with width := .d, data := 1 }, .vsts { m0 with ord := .strong .sys false }, .vstm { m0 with ord := .strong .g false },
   .sld { m0 with data := 64 }, .sld { m0 with width := .q }, .sld { m0 with width := .d, data := 3 }, .sld { m0 with sbase := 1 },
   .sld { m0 with addr := 1 }, .sld { m0 with hold := .b }, .sld { m0 with rt := .rot32 0 }, .ldfe { m0 with width := .b },
   .ldfe { m0 with width := .w, ord := .strong .wg false }, .ldfe { m0 with width := .w, hold := .a }, .stfe { m0 with width := .h },
   .feset { m0 with width := .w, data := 2 }, .vpf { m0 with data := 2 }, .vpf { m0 with width := .h }, .vpf { m0 with ord := .strong .g false },
   .cwb { m0 with data := 1 }, .atom { m0 with width := .h }]
def illFormed_6 : List Instr :=
  [.atom { m0 with width := .w, offset := 0x40 }, .atom { m0 with width := .w, offset := 13 }, .atom { m0 with width := .d, data := 2, offset := 1 },
   .atomv { m0 with width := .h, data := 4, offset := 2 }, .atomv { m0 with width := .w, offset := 1 }, .atomv { m0 with width := .w, offset := 13 },
   .atomv { m0 with width := .b, offset := 2 }, .lres { m0 with width := .w }, .lres { m0 with width := .w, sbase := 2, offset := 1 },
   .lres { m0 with width := .h, sbase := 2 }, .lres { m0 with width := .d, sbase := 2, data := 1 },
   .lres { m0 with width := .w, sbase := 2, data := 64 }, .cp { e0 with sa := 2 }, .cp { e0 with sd := 1, sa := 3 },
   .cp { e0 with sd := 1, sa := 2, eop := 2 }, .cp { e0 with sd := 1, sa := 2, flags := 4 }, .cp { e0 with sd := 1, sa := 2, sb := 2 },
   .cp { e0 with sd := 1, sa := 2, sb := 3, flags := 4 }, .cp { e0 with sd := 1, sa := 2, flags := 2 },
   .cp { e0 with sd := 1, sa := 2, flags := 0x20 }, .cpmc { e0 with sd := 1, sa := 2, sb := 2 }, .cpmc { e0 with sd := 1, sa := 2, eop := 1 },
   .cpmc { e0 with sd := 1, sa := 2, flags := 4 }, .cpmc { e0 with sd := 1, sa := 2, flags := 0x10003 },
   .cpmc { e0 with sd := 1, sa := 2, flags := 0x80000000 }, .cpmc { e0 with sa := 2 }, .cpg { e0 with sd := 1, flags := 0x500 },
   .cpg { e0 with sd := 1, flags := 0x80 }, .cpg { e0 with sd := 1, flags := 1 }, .cpg { e0 with sd := 1, flags := 0x8000 },
   .cpg { e0 with sd := 1, eop := 2 }, .cpg { e0 with sd := 1, sb := 2 }, .cpretry { e0 with sb := 1 }, .cpretry { e0 with eop := 1 },
   .cpretry { e0 with flags := 1 }, .accld { e0 with sa := 3 }, .accld { e0 with sa := 2, flags := 0x30 }, .accld { e0 with sa := 2, flags := 0x40 },
   .accld { e0 with sa := 2, eop := 1 }, .acczero { e0 with flags := 8 }, .acczero { e0 with sd := 1 }, .acczero { e0 with sa := 1 },
   .acczero { e0 with sb := 1 }, .acczero { e0 with eop := 1 }, .fmtset { e0 with sa := 1, flags := 16 }, .fmtset { e0 with flags := 32 },
   .fmtset { e0 with sd := 1 }, .fmtset { e0 with sb := 1 }, .fmtget { e0 with flags := 16 }, .fmtget { e0 with sa := 1 },
   .rhold { e0 with sa := 2, sb := 4 }, .rhold { e0 with sd := 1, sa := 3, sb := 4 }, .rhold { e0 with sd := 1, sa := 2 },
   .rhold { e0 with sd := 1, sa := 2, sb := 4, flags := 8 }, .rdemote { e0 with flags := 16 }, .rdemote { e0 with sb := 1 },
   .rdemote { e0 with eop := 1 }, .mma { x0 with acc := 1, nc := 3 }, .mma { x0 with nc := 4 }]
theorem test_illFormed_1 : ∀ i ∈ illFormed_1, i.wellFormed = false := by decide
theorem test_illFormed_2 : ∀ i ∈ illFormed_2, i.wellFormed = false := by decide
theorem test_illFormed_3 : ∀ i ∈ illFormed_3, i.wellFormed = false := by decide
theorem test_illFormed_4 : ∀ i ∈ illFormed_4, i.wellFormed = false := by decide
theorem test_illFormed_5 : ∀ i ∈ illFormed_5, i.wellFormed = false := by decide
theorem test_illFormed_6 : ∀ i ∈ illFormed_6, i.wellFormed = false := by decide

/-! ## Words written out from the encodings of R90 to R99 -/

def words_scalar_1 : List (DWord × Instr) :=
  [(0x00D42008FAA6FD62, .sadd { mark := true, sd := 20, sa := 8, sb := 0, pair := true, fn := 0, imm := 4205247842 }),
   (0x010DEC0090EDF1F5, .ssub { mark := false, sd := 13, sa := 59, sb := 0, pair := false, fn := 0, imm := 2431513077 }),
   (0x01F6E0007F8B90A3, .smul { mark := true, sd := 54, sa := 56, sb := 0, pair := false, fn := 0, imm := 2139852963 }),
   (0x021FDC01ADC7241C, .smulh { mark := false, sd := 31, sa := 55, sb := 0, pair := false, fn := 1, imm := 2915509276 }),
   (0x02F11C0165CBE1D2, .sdiv { mark := true, sd := 49, sa := 7, sb := 0, pair := false, fn := 1, imm := 1707860434 }),
   (0x0365D40107AD1368, .srem { mark := true, sd := 37, sa := 53, sb := 0, pair := false, fn := 1, imm := 128783208 }),
   (0x03A6E400592E5101, .sand { mark := false, sd := 38, sa := 57, sb := 0, pair := false, fn := 0, imm := 1496207617 }),
   (0x0414D400610E6310, .sor { mark := false, sd := 20, sa := 53, sb := 0, pair := false, fn := 0, imm := 1628332816 }),
   (0x04A2C800BFCEF0F7, .sxor { mark := false, sd := 34, sa := 50, sb := 0, pair := false, fn := 0, imm := 3218010359 }),
   (0x0516400021BF1368, .sandn { mark := false, sd := 22, sa := 16, sb := 0, pair := false, fn := 0, imm := 566170472 }),
   (0x05B4E0000D8F2C24, .sshl { mark := false, sd := 52, sa := 56, sb := 0, pair := false, fn := 0, imm := 227486756 }),
   (0x0639E0001F8AA3E7, .sshr { mark := false, sd := 57, sa := 56, sb := 0, pair := false, fn := 0, imm := 529179623 }),
   (0x069D94000A86C85E, .ssar { mark := false, sd := 29, sa := 37, sb := 0, pair := false, fn := 0, imm := 176605278 }),
   (0x075B58002072DF22, .smin { mark := true, sd := 27, sa := 22, sb := 0, pair := false, fn := 0, imm := 544399138 }),
   (0x0780D400A25D4417, .smax { mark := false, sd := 0, sa := 53, sb := 0, pair := false, fn := 0, imm := 2724021271 }),
   (0x08556800D984FA25, .sminn { mark := true, sd := 21, sa := 26, sb := 0, pair := false, fn := 0, imm := 3649370661 }),
   (0x08BE900068454A01, .smaxn { mark := false, sd := 62, sa := 36, sb := 0, pair := false, fn := 0, imm := 1749371393 }),
   (0x09102C06D7FD79BD, .sset { mark := false, sd := 16, sa := 11, sb := 0, pair := false, fn := 6, imm := 3623713213 }),
   (0x09DB60008EE390FF, .ssel { mark := true, sd := 27, sa := 24, sb := 0, pair := false, fn := 0, imm := 2397278463 }),
   (0x0A3CE40000000000, .smov { mark := false, sd := 60, sa := 57, sb := 0, pair := false, fn := 0, imm := 0 })]
theorem test_decode_scalar_1 : ∀ e ∈ words_scalar_1, decode e.1 = .ok e.2 ∧ encode e.2 = some e.1 := by decide

def words_scalar_2 : List (DWord × Instr) :=
  [(0x0ABC000041A452E4, .sli { mark := false, sd := 60, sa := 0, sb := 0, pair := false, fn := 0, imm := 1101288164 }),
   (0x0B2ED40000000000, .spopc { mark := false, sd := 46, sa := 53, sb := 0, pair := false, fn := 0, imm := 0 }),
   (0x0BB6140000000000, .sclz { mark := false, sd := 54, sa := 5, sb := 0, pair := false, fn := 0, imm := 0 }),
   (0x0C36540000000000, .sctz { mark := false, sd := 54, sa := 21, sb := 0, pair := false, fn := 0, imm := 0 }),
   (0x0CE470008F2FEBB7, .sfns { mark := true, sd := 36, sa := 28, sb := 0, pair := false, fn := 0, imm := 2402282423 }),
   (0x0D5AA40000000000, .sbrev { mark := true, sd := 26, sa := 41, sb := 0, pair := false, fn := 0, imm := 0 }),
   (0x0DE9DC0000000000, .sext { mark := true, sd := 41, sa := 55, sb := 0, pair := false, fn := 0, imm := 0 }),
   (0x0E4DF8007E8325FD, .sbfx { mark := true, sd := 13, sa := 62, sb := 0, pair := false, fn := 0, imm := 2122524157 }),
   (0x0EFEF008C399EC04, .sbfi { mark := true, sd := 62, sa := 60, sb := 0, pair := true, fn := 0, imm := 3281644548 }),
   (0x0F2E000000000000, .srdt { mark := false, sd := 46, sa := 0, sb := 0, pair := false, fn := 0, imm := 0 }),
   (0x09070C020000000A, .sset { mark := false, sd := 7, sa := 3, sb := 0, pair := false, fn := 2, imm := 10 }),
   (0x00841008FFFFFFF8, .sadd { mark := false, sd := 4, sa := 4, sb := 0, pair := true, fn := 0, imm := 4294967288 })]
theorem test_decode_scalar_2 : ∀ e ∈ words_scalar_2, decode e.1 = .ok e.2 ∧ encode e.2 = some e.1 := by decide

def words_control : List (DWord × Instr) :=
  [(0x20000000240E0886, .br { mark := false, sa := 0, cond := 0, aux := 0, offset := 604899462 }),
   (0x20FF87398DF65FDF, .bc { mark := true, sa := 63, cond := 8, aux := 1849, offset := 2381733855 }),
   (0x213000001DB89408, .call { mark := false, sa := 48, cond := 0, aux := 0, offset := 498635784 }),
   (0x21AE000000000000, .ret { mark := false, sa := 46, cond := 0, aux := 0, offset := 0 }),
   (0x222A00005CA22414, .jr { mark := false, sa := 42, cond := 0, aux := 0, offset := 1554129940 }),
   (0x22C002B46DA3C9FE, .loop { mark := true, sa := 0, cond := 0, aux := 692, offset := 1839450622 }),
   (0x235E00069064B5DC, .split { mark := true, sa := 30, cond := 0, aux := 6, offset := 2422519260 }),
   (0x23AE000000000000, .join { mark := false, sa := 46, cond := 0, aux := 0, offset := 0 }),
   (0x240E000021205144, .bzm { mark := false, sa := 14, cond := 0, aux := 0, offset := 555766084 }),
   (0x2499000058A11421, .bnzm { mark := false, sa := 25, cond := 0, aux := 0, offset := 1486951457 }),
   (0x2500000000000000, .exit { mark := false, sa := 0, cond := 0, aux := 0, offset := 0 }),
   (0x2280000400000001, .loop { mark := false, sa := 0, cond := 0, aux := 4, offset := 1 }),
   (0x2314000300000007, .split { mark := false, sa := 20, cond := 0, aux := 3, offset := 7 })]
theorem test_decode_control : ∀ e ∈ words_control, decode e.1 = .ok e.2 ∧ encode e.2 = some e.1 := by decide

def words_mask : List (DWord × Instr) :=
  [(0x302E000000000000, .mset { mark := false, sd := 46, sa := 0, sb := 0, pair := false, fn := 0, imm := 0 }),
   (0x30B3200052F71173, .mand { mark := false, sd := 51, sa := 8, sb := 0, pair := false, fn := 0, imm := 1391923571 }),
   (0x310260007D2AB1D7, .mor { mark := false, sd := 2, sa := 24, sb := 0, pair := false, fn := 0, imm := 2099950039 }),
   (0x31AC340031EEAA29, .mandn { mark := false, sd := 44, sa := 13, sb := 0, pair := false, fn := 0, imm := 837724713 }),
   (0x323CE00005C05517, .mxor { mark := false, sd := 60, sa := 56, sb := 0, pair := false, fn := 0, imm := 96490775 }),
   (0x32B2D40000000000, .mnot { mark := false, sd := 50, sa := 53, sb := 0, pair := false, fn := 0, imm := 0 }),
   (0x332ED00000000000, .mcnt { mark := false, sd := 46, sa := 52, sb := 0, pair := false, fn := 0, imm := 0 }),
   (0x33AAD00000000000, .mfirst { mark := false, sd := 42, sa := 52, sb := 0, pair := false, fn := 0, imm := 0 }),
   (0x343C040000000000, .mfromp { mark := false, sd := 60, sa := 1, sb := 0, pair := false, fn := 0, imm := 0 }),
   (0x3486C40000000000, .mtop { mark := false, sd := 6, sa := 49, sb := 0, pair := false, fn := 0, imm := 0 }),
   (0x35009401983AA014, .mode { mark := false, sd := 0, sa := 37, sb := 0, pair := false, fn := 1, imm := 2553978900 }),
   (0x35B6000000000000, .rmode { mark := false, sd := 54, sa := 0, sb := 0, pair := false, fn := 0, imm := 0 }),
   (0x31BDF6C000000000, .mandn { mark := false, sd := 61, sa := 61, sb := 44, pair := false, fn := 0, imm := 0 }),
   (0x3500000000000008, .mode { mark := false, sd := 0, sa := 0, sb := 0, pair := false, fn := 0, imm := 8 })]
theorem test_decode_mask : ∀ e ∈ words_mask, decode e.1 = .ok e.2 ∧ encode e.2 = some e.1 := by decide

def words_vector_1 : List (DWord × Instr) :=
  [(0x40663DBE00225800, .vadd { mark := true, hold := .b, d := 49, a := 118, b := 124, c := 0, ra := .rot32 2, rb := .rot96 24, rc := .identity }),
   (0x40EFF35300000000, .vsub { mark := true, hold := .b, d := 127, a := 77, b := 38, c := 0, ra := .identity, rb := .identity, rc := .identity }),
   (0x415F5EDF00255000, .vmul { mark := true, hold := .a, d := 122, a := 123, b := 62, c := 0, ra := .rot32 5, rb := .rot96 16, rc := .identity }),
   (0x41EEF65300595800, .vmulh { mark := true, hold := .b, d := 119, a := 89, b := 38, c := 0, ra := .rot96 25, rb := .rot96 24, rc := .identity }),
   (0x423EE39FED59EDCB, .vmad { mark := false, hold := .c, d := 119, a := 14, b := 63, c := 109, ra := .rot96 25, rb := .indexed .ixb 5, rc := .butterfly 11 }),
   (0x42AEE62D809C8400, .vmin { mark := false, hold := .b, d := 119, a := 24, b := 91, c := 0, ra := .bcast32 28, rb := .bcast32 4, rc := .identity }),
   (0x434FFF7A00000000, .vmax { mark := true, hold := .none, d := 127, a := 125, b := 116, c := 0, ra := .identity, rb := .identity, rc := .identity }),
   (0x438EC24000000000, .vabs { mark := false, hold := .none, d := 118, a := 9, b := 0, c := 0, ra := .identity, rb := .identity, rc := .identity }),
   (0x441A968000000000, .vneg { mark := false, hold := .a, d := 84, a := 90, b := 0, c := 0, ra := .identity, rb := .identity, rc := .identity }),
   (0x44DCB64F00002600, .vand { mark := true, hold := .a, d := 101, a := 89, b := 30, c := 0, ra := .identity, rb := .rot32 6, rc := .identity }),
   (0x4547F2C500249000, .vor { mark := true, hold := .none, d := 63, a := 75, b := 10, c := 0, ra := .rot32 4, rb := .bcast32 16, rc := .identity }),
   (0x45CDFF6B00202000, .vxor { mark := true, hold := .none, d := 111, a := 125, b := 86, c := 0, ra := .rot32 0, rb := .rot32 0, rc := .identity }),
   (0x4613BFD300002700, .vandn { mark := false, hold := .a, d := 29, a := 127, b := 38, c := 0, ra := .identity, rb := .rot32 7, rc := .identity }),
   (0x468CA74000000000, .vnot { mark := false, hold := .none, d := 101, a := 29, b := 0, c := 0, ra := .identity, rb := .identity, rc := .identity }),
   (0x476B7E4300454000, .vshl { mark := true, hold := .b, d := 91, a := 121, b := 6, c := 0, ra := .rot96 5, rb := .rot96 0, rc := .identity }),
   (0x47EFA1FF00008100, .vshr { mark := true, hold := .b, d := 125, a := 7, b := 126, c := 0, ra := .identity, rb := .bcast32 1, rc := .identity }),
   (0x482E564600AE4300, .vsar { mark := false, hold := .b, d := 114, a := 89, b := 12, c := 0, ra := .bcast96 14, rb := .rot96 3, rc := .identity }),
   (0x48EFE6DA00005800, .vrot { mark := true, hold := .b, d := 127, a := 27, b := 52, c := 0, ra := .identity, rb := .rot96 24, rc := .identity }),
   (0x4912C70000000000, .vpopc { mark := false, hold := .a, d := 22, a := 28, b := 0, c := 0, ra := .identity, rb := .identity, rc := .identity }),
   (0x4999B5C000000000, .vclz { mark := false, hold := .a, d := 77, a := 87, b := 0, c := 0, ra := .identity, rb := .identity, rc := .identity })]
theorem test_decode_vector_1 : ∀ e ∈ words_vector_1, decode e.1 = .ok e.2 ∧ encode e.2 = some e.1 := by decide

def words_vector_2 : List (DWord × Instr) :=
  [(0x4A1ED20000000000, .vctz { mark := false, hold := .a, d := 118, a := 72, b := 0, c := 0, ra := .identity, rb := .identity, rc := .identity }),
   (0x4A8DCDF300259300, .vfns { mark := false, hold := .none, d := 110, a := 55, b := 102, c := 0, ra := .rot32 5, rb := .bcast32 19, rc := .identity }),
   (0x4B562D0000000000, .vbrev { mark := true, hold := .a, d := 49, a := 52, b := 0, c := 0, ra := .identity, rb := .identity, rc := .identity }),
   (0x4BA0BFD900166000, .vbfx { mark := false, hold := .b, d := 5, a := 127, b := 50, ra := .identity, rb := .rot32 12, imm := 24576 }),
   (0x4C679FF800004000, .vbfi { mark := true, hold := .b, d := 60, a := 127, b := 112, ra := .identity, rb := .identity, imm := 16384 }),
   (0x4C80A614189A8004, .vcmp { mark := false, hold := .none, d := 5, a := 24, b := 40, ra := .rot32 17, rb := .rot32 21, imm := 4 }),
   (0x4D47C5BF00000003, .vsel { mark := true, hold := .none, d := 62, a := 22, b := 126, ra := .identity, rb := .identity, imm := 3 }),
   (0x4D9A950000000000, .vmov { mark := false, hold := .a, d := 84, a := 84, b := 0, c := 0, ra := .identity, rb := .identity, rc := .identity }),
   (0x4E288000603D0493, .vmovi { mark := false, d := 81, a := 0, ra := .identity, imm := 1614611603 }),
   (0x4EDE375BFDFFF835, .vaddi { mark := true, d := 60, a := 55, ra := .rot96 27, imm := 4261410869 }),
   (0x4F1BDA4000000000, .vcvt { mark := false, hold := .a, d := 94, a := 105, b := 0, ra := .identity, rb := .identity, imm := 0 }),
   (0x4FE9FFAF00000000, .vpack { mark := true, hold := .b, d := 79, a := 126, b := 94, ra := .identity, rb := .identity, imm := 0 }),
   (0x501E850000000002, .vunpk { mark := false, hold := .a, d := 116, a := 20, b := 0, ra := .identity, rb := .identity, imm := 2 }),
   (0x50D9DD1D00255800, .vmulw { mark := true, hold := .a, d := 78, a := 116, b := 58, c := 0, ra := .rot32 5, rb := .rot96 24, rc := .identity }),
   (0x510E868000000000, .vbcs { mark := false, hold := .none, d := 116, a := 26, b := 0, ra := .identity, rb := .identity, imm := 0 }),
   (0x51D35E8000000012, .vrdl { mark := true, hold := .a, d := 26, a := 122, b := 0, ra := .identity, rb := .identity, imm := 18 }),
   (0x4000408080000000, .vadd { mark := false, hold := .none, d := 2, a := 2, b := 1, c := 0, ra := .identity, rb := .identity, rc := .identity }),
   (0x45C060C080002100, .vxor { mark := true, hold := .none, d := 3, a := 3, b := 1, c := 0, ra := .identity, rb := .rot32 1, rc := .identity }),
   (0x4110820600000000, .vmul { mark := false, hold := .a, d := 4, a := 8, b := 12, c := 0, ra := .identity, rb := .identity, rc := .identity }),
   (0x4C0081C000000104, .vbfi { mark := false, hold := .none, d := 4, a := 7, b := 0, ra := .identity, rb := .identity, imm := 260 })]
theorem test_decode_vector_2 : ∀ e ∈ words_vector_2, decode e.1 = .ok e.2 ∧ encode e.2 = some e.1 := by decide

def words_vector_3 : List (DWord × Instr) :=
  [(0x4C80428580400099, .vcmp { mark := false, hold := .none, d := 2, a := 10, b := 11, ra := .identity, rb := .bcast32 0, imm := 153 }),
   (0x4D82C50000E90000, .vmov { mark := false, hold := .none, d := 22, a := 20, b := 0, c := 0, ra := .indexed .ixb 1, rb := .identity, rc := .identity }),
   (0x5102458000000000, .vbcs { mark := false, hold := .none, d := 18, a := 22, b := 0, ra := .identity, rb := .identity, imm := 0 })]
theorem test_decode_vector_3 : ∀ e ∈ words_vector_3, decode e.1 = .ok e.2 ∧ encode e.2 = some e.1 := by decide

def words_float_1 : List (DWord × Instr) :=
  [(0x704EDFBB00212400, .fadd { mark := true, hold := .none, d := 118, a := 126, b := 118, c := 0, ra := .rot32 1, rb := .rot32 4, rc := .identity }),
   (0x709AEDDB00842500, .fsub { mark := false, hold := .a, d := 87, a := 55, b := 54, c := 0, ra := .bcast32 4, rb := .rot32 5, rc := .identity }),
   (0x716FA3F300409400, .fmul { mark := true, hold := .b, d := 125, a := 15, b := 102, c := 0, ra := .rot96 0, rb := .bcast32 20, rc := .identity }),
   (0x71DE37FC7FF5DFDB, .ffma { mark := true, hold := .a, d := 113, a := 95, b := 120, c := 127, ra := .indexed .ixo 5, rb := .butterfly 31, rc := .butterfly 27 }),
   (0x7269FED57EB69BF6, .ffms { mark := true, hold := .b, d := 79, a := 123, b := 42, c := 126, ra := .bcast96 22, rb := .bcast32 27, rc := .indexed .ixo 6 }),
   (0x72FEF46FFFDFE24C, .fnma { mark := true, hold := .c, d := 119, a := 81, b := 95, c := 127, ra := .butterfly 31, rb := .indexed .ix 2, rc := .rot96 12 }),
   (0x736DC74300842700, .fmin { mark := true, hold := .b, d := 110, a := 29, b := 6, c := 0, ra := .bcast32 4, rb := .rot32 7, rc := .identity }),
   (0x73D7EAEF00000000, .fmax { mark := true, hold := .a, d := 63, a := 43, b := 94, c := 0, ra := .identity, rb := .identity, rc := .identity }),
   (0x741D130000000000, .fabs { mark := false, hold := .a, d := 104, a := 76, b := 0, c := 0, ra := .identity, rb := .identity, rc := .identity }),
   (0x749E470000000000, .fneg { mark := false, hold := .a, d := 114, a := 28, b := 0, c := 0, ra := .identity, rb := .identity, rc := .identity }),
   (0x7550C2ECE6778080, .fcmp { mark := true, hold := .a, d := 6, a := 11, b := 89, ra := .butterfly 12, rb := .indexed .ixb 7, imm := 128 }),
   (0x7580D70000000290, .fclass { mark := false, hold := .none, d := 6, a := 92, b := 0, ra := .identity, rb := .identity, imm := 656 }),
   (0x76042FC000000001, .frnd { mark := false, hold := .none, d := 33, a := 63, b := 0, ra := .identity, rb := .identity, imm := 1 }),
   (0x76D1EE80000002C2, .fcvt { mark := true, hold := .a, d := 15, a := 58, b := 0, ra := .identity, rb := .identity, imm := 706 }),
   (0x771FD38F00000092, .fcvtt { mark := false, hold := .a, d := 126, a := 78, b := 30, ra := .identity, rb := .identity, imm := 146 }),
   (0x77DFB589000000A3, .fcvtf { mark := true, hold := .a, d := 125, a := 86, b := 18, ra := .identity, rb := .identity, imm := 163 }),
   (0x787EEEBD7AF3CC56, .fdot2 { mark := true, hold := .c, d := 119, a := 58, b := 122, c := 122, ra := .indexed .ixo 3, rb := .butterfly 12, rc := .rot96 22 }),
   (0x9016E74000000000, .frcp { mark := false, hold := .a, d := 55, a := 29, b := 0, ra := .identity, rb := .identity, imm := 0 }),
   (0x90D5EF0000000000, .frsqrt { mark := true, hold := .a, d := 47, a := 60, b := 0, ra := .identity, rb := .identity, imm := 0 }),
   (0x911C560000000000, .fsqrt { mark := false, hold := .a, d := 98, a := 88, b := 0, ra := .identity, rb := .identity, imm := 0 })]
theorem test_decode_float_1 : ∀ e ∈ words_float_1, decode e.1 = .ok e.2 ∧ encode e.2 = some e.1 := by decide

def words_float_2 : List (DWord × Instr) :=
  [(0x9188DD4000000000, .fexp2 { mark := false, hold := .none, d := 70, a := 117, b := 0, ra := .identity, rb := .identity, imm := 0 }),
   (0x9211D14000000000, .flog2 { mark := false, hold := .a, d := 14, a := 69, b := 0, ra := .identity, rb := .identity, imm := 0 }),
   (0x928E90005C000000, .fsinpi { mark := false, hold := .none, d := 116, a := 64, b := 0, ra := .bcast96 24, rb := .identity, imm := 0 }),
   (0x93479C4000000000, .fcospi { mark := true, hold := .none, d := 60, a := 113, b := 0, ra := .identity, rb := .identity, imm := 0 }),
   (0x93CCD74000000000, .ftanh { mark := true, hold := .none, d := 102, a := 93, b := 0, ra := .identity, rb := .identity, imm := 0 }),
   (0x7060E24100510000, .fadd { mark := true, hold := .b, d := 7, a := 9, b := 2, c := 0, ra := .rot96 17, rb := .identity, rc := .identity }),
   (0x770140C380000059, .fcvtt { mark := false, hold := .none, d := 10, a := 3, b := 7, ra := .identity, rb := .identity, imm := 89 }),
   (0x9304C34000000000, .fcospi { mark := false, hold := .none, d := 38, a := 13, b := 0, ra := .identity, rb := .identity, imm := 0 }),
   (0x7182810294008300, .ffma { mark := false, hold := .none, d := 20, a := 4, b := 5, c := 20, ra := .identity, rb := .bcast32 3, rc := .identity }),
   (0x76C1224000000000, .fcvt { mark := true, hold := .none, d := 9, a := 9, b := 0, ra := .identity, rb := .identity, imm := 0 })]
theorem test_decode_float_2 : ∀ e ∈ words_float_2, decode e.1 = .ok e.2 ∧ encode e.2 = some e.1 := by decide

def words_lane : List (DWord × Instr) :=
  [(0x983D000000000000, .vany { mark := false, sd := 61, sa := 0, sb := 0, pair := false, fn := 0, imm := 0 }),
   (0x98AE040000000000, .vall { mark := false, sd := 46, sa := 1, sb := 0, pair := false, fn := 0, imm := 0 }),
   (0x990A140000000000, .vballot { mark := false, sd := 10, sa := 5, sb := 0, pair := false, fn := 0, imm := 0 }),
   (0x99AF000000000000, .vcount { mark := false, sd := 47, sa := 0, sb := 0, pair := false, fn := 0, imm := 0 }),
   (0x9A06044000000000, .pand { mark := false, sd := 6, sa := 1, sb := 4, pair := false, fn := 0, imm := 0 }),
   (0x9A84142000000000, .por { mark := false, sd := 4, sa := 5, sb := 2, pair := false, fn := 0, imm := 0 }),
   (0x9B06142000000000, .pxor { mark := false, sd := 6, sa := 5, sb := 2, pair := false, fn := 0, imm := 0 }),
   (0x9B86100000000000, .pnot { mark := false, sd := 6, sa := 4, sb := 0, pair := false, fn := 0, imm := 0 }),
   (0x9C0AC00000000020, .rdx { mark := false, hold := .none, d := 86, a := 0, b := 0, ra := .identity, rb := .identity, imm := 32 }),
   (0x9C8012405C000006, .wrx { mark := false, hold := .none, d := 0, a := 73, b := 0, ra := .bcast96 24, rb := .identity, imm := 6 }),
   (0x9D10170000000000, .xset { mark := false, hold := .a, d := 0, a := 92, b := 0, ra := .identity, rb := .identity, imm := 0 }),
   (0x9D8EC00000000000, .xget { mark := false, hold := .none, d := 118, a := 0, b := 0, ra := .identity, rb := .identity, imm := 0 }),
   (0x9E000000190290D0, .xbnd { mark := false, sd := 0, sa := 0, sb := 0, pair := false, fn := 0, imm := 419598544 }),
   (0x9D00228000000000, .xset { mark := false, hold := .none, d := 1, a := 10, b := 0, ra := .identity, rb := .identity, imm := 0 })]
theorem test_decode_lane : ∀ e ∈ words_lane, decode e.1 = .ok e.2 ∧ encode e.2 = some e.1 := by decide

def words_memory : List (DWord × Instr) :=
  [(0xA84D3FF4C325BCFF, .vld { mark := true, hold := .none, data := 105, addr := 127, sbase := 52, rt := .butterfly 3, width := .w, ord := .strong .wg true, offset := 48383 }),
   (0xA8AD317EE22B7377, .vst { mark := false, hold := .b, data := 105, addr := 69, sbase := 62, rt := .indexed .ix 2, width := .w, ord := .strong .dev true, offset := 29559 }),
   (0xA94FDD0FC70589FA, .vlds { mark := true, hold := .none, data := 126, addr := 116, sbase := 15, rt := .butterfly 7, width := .b, ord := .strong .wg true, offset := 35322 }),
   (0xA997DB0FB305B2FD, .vsts { mark := false, hold := .a, data := 62, addr := 108, sbase := 15, rt := .bcast96 19, width := .b, ord := .strong .wg true, offset := 45821 }),
   (0xAA06A000000600C4, .sld { mark := false, hold := .none, data := 53, addr := 0, sbase := 0, rt := .identity, width := .b, ord := .strong .col false, offset := 196 }),
   (0xAA86C01600000482, .sst { mark := false, hold := .none, data := 54, addr := 0, sbase := 22, rt := .identity, width := .b, ord := .plain, offset := 1154 }),
   (0xAB13FD5B26201EEF, .vstm { mark := false, hold := .a, data := 31, addr := 117, sbase := 27, rt := .rot32 6, width := .w, ord := .plain, offset := 7919 }),
   (0xABCAB3C38C20FE4F, .ldfe { mark := true, hold := .none, data := 85, addr := 79, sbase := 3, rt := .bcast32 12, width := .w, ord := .plain, offset := 65103 }),
   (0xAC4195B7E0201454, .ldff { mark := true, hold := .none, data := 12, addr := 86, sbase := 55, rt := .indexed .ix 0, width := .w, ord := .plain, offset := 5204 }),
   (0xACEFEBFFAB20A2B1, .stfe { mark := true, hold := .b, data := 127, addr := 47, sbase := 63, rt := .bcast96 11, width := .w, ord := .plain, offset := 41649 }),
   (0xAD200804422000C2, .feset { mark := false, hold := .b, data := 0, addr := 32, sbase := 4, rt := .rot96 2, width := .w, ord := .plain, offset := 194 }),
   (0xAD8004305D00508B, .vpf { mark := false, hold := .none, data := 0, addr := 16, sbase := 48, rt := .rot96 29, width := .b, ord := .plain, offset := 20619 }),
   (0xAE20123C41008008, .cwb { mark := false, hold := .b, data := 0, addr := 72, sbase := 60, rt := .rot96 1, width := .b, ord := .plain, offset := 32776 }),
   (0xAEA0140441006004, .cinv { mark := false, hold := .b, data := 0, addr := 80, sbase := 4, rt := .rot96 1, width := .b, ord := .plain, offset := 24580 }),
   (0xA800A084002B0010, .vld { mark := false, hold := .none, data := 5, addr := 2, sbase := 4, rt := .identity, width := .w, ord := .strong .dev true, offset := 16 }),
   (0xAA41400400300000, .sld { mark := true, hold := .none, data := 10, addr := 0, sbase := 4, rt := .identity, width := .d, ord := .plain, offset := 0 }),
   (0xA902834000300000, .vlds { mark := false, hold := .none, data := 20, addr := 13, sbase := 0, rt := .identity, width := .d, ord := .plain, offset := 0 })]
theorem test_decode_memory : ∀ e ∈ words_memory, decode e.1 = .ok e.2 ∧ encode e.2 = some e.1 := by decide

def words_atomic : List (DWord × Instr) :=
  [(0xC8643E1800240000, .atom { mark := true, hold := .b, data := 33, addr := 120, sbase := 24, rt := .identity, width := .w, ord := .strong .wg false, offset := 0 }),
   (0xC8FFF1E000000000, .satom { mark := true, sd := 63, sa := 60, sb := 30, pair := false, fn := 0, imm := 0 }),
   (0xC92E041000200004, .atomv { mark := false, hold := .b, data := 112, addr := 16, sbase := 16, rt := .identity, width := .w, ord := .plain, offset := 4 }),
   (0xC980802200300000, .lres { mark := false, hold := .none, data := 4, addr := 0, sbase := 34, rt := .identity, width := .d, ord := .plain, offset := 0 }),
   (0xCA02001000280000, .scond { mark := false, hold := .none, data := 16, addr := 0, sbase := 16, rt := .identity, width := .w, ord := .strong .twr false, offset := 0 }),
   (0xCAF8F80B20EEE482, .ctadd { mark := true, sd := 56, sa := 62, sb := 0, pair := true, fn := 3, imm := 552526978 }),
   (0xCB4E700EE87AA4E4, .ctwait { mark := true, sd := 14, sa := 28, sb := 0, pair := true, fn := 6, imm := 3900351716 }),
   (0xCBBC640200000000, .ctread { mark := false, sd := 60, sa := 25, sb := 0, pair := false, fn := 2, imm := 0 }),
   (0xCC00000000000000, .bar { mark := false, sd := 0, sa := 0, sb := 0, pair := false, fn := 0, imm := 0 }),
   (0xC800C0CA002A0020, .atom { mark := false, hold := .none, data := 6, addr := 3, sbase := 10, rt := .identity, width := .w, ord := .strong .dev false, offset := 32 }),
   (0xCB4049CD00000000, .ctwait { mark := true, sd := 0, sa := 18, sb := 28, pair := true, fn := 5, imm := 0 }),
   (0xCA80400D00000001, .ctadd { mark := false, sd := 0, sa := 16, sb := 0, pair := true, fn := 5, imm := 1 }),
   (0xCC40000000000000, .bar { mark := true, sd := 0, sa := 0, sb := 0, pair := false, fn := 0, imm := 0 })]
theorem test_decode_atomic : ∀ e ∈ words_atomic, decode e.1 = .ok e.2 ∧ encode e.2 = some e.1 := by decide

def words_sync : List (DWord × Instr) :=
  [(0xD800000200000000, .fence { mark := false, sd := 0, sa := 0, sb := 0, pair := false, fn := 2, imm := 0 }),
   (0xD880000500000802, .xfence { mark := false, sd := 0, sa := 0, sb := 0, pair := false, fn := 5, imm := 2050 }),
   (0xD9000000593A8024, .wait { mark := false, sd := 0, sa := 0, sb := 0, pair := false, fn := 0, imm := 1497006116 }),
   (0xD9B6D40000000000, .fwait { mark := false, sd := 54, sa := 53, sb := 0, pair := false, fn := 0, imm := 0 }),
   (0xDA38C40000000000, .ftest { mark := false, sd := 56, sa := 49, sb := 0, pair := false, fn := 0, imm := 0 }),
   (0xDA9C940000000000, .fcancel { mark := false, sd := 28, sa := 37, sb := 0, pair := false, fn := 0, imm := 0 }),
   (0xD800000500000003, .fence { mark := false, sd := 0, sa := 0, sb := 0, pair := false, fn := 5, imm := 3 })]
theorem test_decode_sync : ∀ e ∈ words_sync, decode e.1 = .ok e.2 ∧ encode e.2 = some e.1 := by decide

def words_engine : List (DWord × Instr) :=
  [(0xE020C2A000000014, .cp { mark := false, sd := 32, sa := 48, sb := 42, eop := 0, flags := 20 }),
   (0xE08E8000583C44D1, .cpmc { mark := false, sd := 14, sa := 32, sb := 0, eop := 0, flags := 1480344785 }),
   (0xE137DC6000005810, .cpg { mark := false, sd := 55, sa := 55, sb := 6, eop := 0, flags := 22544 }),
   (0xE1BCC40000000000, .cpretry { mark := false, sd := 60, sa := 49, sb := 0, eop := 0, flags := 0 }),
   (0xE27ED7F200000000, .mma { mark := true, u := true, na := true, z := true, fa := 13, fb := 10, acc := 7, abase := 121, sbr := 0, nc := 0 }),
   (0xE2FFF39000000002, .accld { mark := true, sd := 63, sa := 60, sb := 57, eop := 0, flags := 2 }),
   (0xE37A537000000022, .accst { mark := true, sd := 58, sa := 20, sb := 55, eop := 0, flags := 34 }),
   (0xE380000000000002, .acczero { mark := false, sd := 0, sa := 0, sb := 0, eop := 0, flags := 2 }),
   (0xE400C40000000000, .fmtset { mark := false, sd := 0, sa := 49, sb := 0, eop := 0, flags := 0 }),
   (0xE4B9000000000002, .fmtget { mark := false, sd := 57, sa := 0, sb := 0, eop := 0, flags := 2 }),
   (0xE57179E000000000, .rhold { mark := true, sd := 49, sa := 30, sb := 30, eop := 0, flags := 0 }),
   (0xE59CE00000000000, .rdemote { mark := false, sd := 28, sa := 56, sb := 0, eop := 0, flags := 0 }),
   (0xE63EA00000000000, .rdrop { mark := false, sd := 62, sa := 40, sb := 0, eop := 0, flags := 0 }),
   (0xE21C422062000000, .mma { mark := false, u := false, na := true, z := true, fa := 8, fb := 8, acc := 2, abase := 16, sbr := 12, nc := 2 })]
theorem test_decode_engine : ∀ e ∈ words_engine, decode e.1 = .ok e.2 ∧ encode e.2 = some e.1 := by decide

def words_system_1 : List (DWord × Instr) :=
  [(0xF000000000001144, .trap { mark := false, sd := 0, sa := 0, sb := 0, pair := false, fn := 0, imm := 4420 }),
   (0xF080000000000000, .rett { mark := false, sd := 0, sa := 0, sb := 0, pair := false, fn := 0, imm := 0 }),
   (0xF10E000000000010, .rdsys { mark := false, sd := 14, sa := 0, sb := 0, pair := false, fn := 0, imm := 16 }),
   (0xF180D00000000020, .wrsys { mark := false, sd := 0, sa := 52, sb := 0, pair := false, fn := 0, imm := 32 }),
   (0xF2B6DBC000000000, .launch { mark := false, sd := 54, sa := 54, sb := 60, pair := false, fn := 0, imm := 0 }),
   (0xF300000000004844, .brkp { mark := false, sd := 0, sa := 0, sb := 0, pair := false, fn := 0, imm := 18500 }),
   (0xF48AC32000000000, .pswap { mark := false, sd := 10, sa := 48, sb := 50, pair := false, fn := 0, imm := 0 }),
   (0xF580000000000000, .nop { mark := false, sd := 0, sa := 0, sb := 0, pair := false, fn := 0, imm := 0 }),
   (0xF677780000000722, .hpost { mark := true, sd := 55, sa := 30, sb := 0, pair := false, fn := 0, imm := 1826 }),
   (0xF3A6D80000000002, .pbsetRng { mark := false, sd := 38, sa := 54, sb := 0, pair := false, fn := 0, imm := 2 }),
   (0xF3B0E80100000000, .pbsetProt { mark := false, sd := 48, sa := 58, sb := 0, pair := false, fn := 1, imm := 0 }),
   (0xF500D00000000000, .tlbinvPage { mark := false, sd := 0, sa := 52, sb := 0, pair := false, fn := 0, imm := 0 }),
   (0xF500000100000000, .tlbinvSpace { mark := false, sd := 0, sa := 0, sb := 0, pair := false, fn := 1, imm := 0 }),
   (0xF500000200000000, .tlbinvAll { mark := false, sd := 0, sa := 0, sb := 0, pair := false, fn := 2, imm := 0 }),
   (0xF5C0000000000000, .nop { mark := true, sd := 0, sa := 0, sb := 0, pair := false, fn := 0, imm := 0 }),
   (0xF00000000000002A, .trap { mark := false, sd := 0, sa := 0, sb := 0, pair := false, fn := 0, imm := 42 }),
   (0xF10A000000000043, .rdsys { mark := false, sd := 10, sa := 0, sb := 0, pair := false, fn := 0, imm := 67 }),
   (0xF38950000000000C, .pbsetRng { mark := false, sd := 9, sa := 20, sb := 0, pair := false, fn := 0, imm := 12 }),
   (0xF24C000800000000, .tsr { mark := true, sd := 12, sa := 0, sb := 0, pair := true, fn := 0, imm := 0 }),
   (0xF180540000000042, .thRegisterWrite { mark := false, sd := 0, sa := 21, sb := 0, pair := false, fn := 0, imm := 66 })]
theorem test_decode_system_1 : ∀ e ∈ words_system_1, decode e.1 = .ok e.2 ∧ encode e.2 = some e.1 := by decide

def words_system_2 : List (DWord × Instr) :=
  [(0xF1C0240000000031, .timestatWrite { mark := true, sd := 0, sa := 9, sb := 0, pair := false, fn := 0, imm := 49 }),
   (0xF180F80000000060, .rwayfWrite { mark := false, sd := 0, sa := 62, sb := 0, pair := false, fn := 0, imm := 96 }),
   (0xF4260008000000BF, .pbgetRng { mark := false, sd := 38, sa := 0, sb := 0, pair := true, fn := 0, imm := 191 }),
   (0xF44200090000002F, .pbgetProt { mark := true, sd := 2, sa := 0, sb := 0, pair := true, fn := 1, imm := 47 })]
theorem test_decode_system_2 : ∀ e ∈ words_system_2, decode e.1 = .ok e.2 ∧ encode e.2 = some e.1 := by decide

def words_illegal : List (DWord × Instr) :=
  [(0xFFDA1F67FF6FFCEE, .illegalOpcodeWord 0xFFDA1F67FF6FFCEE)]
theorem test_decode_illegal : ∀ e ∈ words_illegal, decode e.1 = .ok e.2 ∧ encode e.2 = some e.1 := by decide

/-! ## Small states -/

/-- A device with one workgroup of one split, about to issue: workgroup 1, region 2, in supervisor mode, with no handler. -/
def base : State := State.reset.loaded
def me : SplitId := { wg := 1, grp := 0, slot := 0 }
def mine : GroupId := { wg := 1, grp := 0 }
def setSplit (s : State) (f : Split → Split) : State := modSplit s me f
def setGroup (s : State) (f : Group → Group) : State := modGroup s mine f
def setBlock (s : State) (k : Nat) (b : List Byte) : State := modRegion s 2 (fun r => { r with block := splice r.block k b })
def setFields (s : State) (f : LaunchRec → LaunchRec) : State := modWg s 1 (fun w => { w with fields := f w.fields })
def setS (s : State) (n v : Nat) : State := setSplit s (fun p => { p with scalars := Table.put p.scalars n (BitVec.ofNat 32 v) })
def setV (s : State) (n v : Nat) : State := setGroup s (fun g => { g with vregs := Table.put g.vregs n (ofLanes (fun _ => BitVec.ofNat 32 v)) })
def setP (s : State) (n : Nat) (m : Mask) : State := setGroup s (fun g => { g with preds := Table.put g.preds n m })
def setMode (s : State) (m : Nat) : State := setSplit s (fun p => { p with mode := BitVec.ofNat 64 m })
/-- In user mode; with a handler address; in handler mode; with lane 0 alone active; with one vector register. -/
def user : State := setBlock base 11 [0]
def handled : State := setBlock base 56 (bytesOf 8 0x8000)
def inHandler (s : State) : State := modCore (setGroup s (fun g => { g with handler := some 0 })) 0 (fun k => { k with bank := some me })
def oneLane (s : State) : State := setS (setS (setS s 61 1) 62 0) 63 0
def narrow (s : State) (n : Nat) : State := setFields s (fun f => { f with vcnt := n })

/-! ## What a witness says -/

/-- The split that issues would run the word, and its context and the state meet the hypotheses. -/
def meets (s : State) (i : Instr) (h : Ctx → Prop) [DecidablePred h] : Bool :=
  match issuing s with
  | some c => c.p.refused == none && i.wellFormed && decide (h c)
  | none => false

/-- A checked witness is a context that meets `Issues` and the hypotheses. -/
theorem meets_spec (s : State) (i : Instr) (h : Ctx → Prop) [DecidablePred h] (m : meets s i h = true) : ∃ c, Issues s c i ∧ h c := by
  unfold meets at m
  split at m
  · rename_i c hc
    simp only [Bool.and_eq_true, beq_iff_eq, decide_eq_true_eq] at m
    exact ⟨c, ⟨hc, m.1.1, m.1.2⟩, m.2⟩
  · exact absurd m (by simp)

/-- The split that issues fetches the word. -/
def fetches (s : State) (w : DWord) : Bool :=
  match ctxOf s me with
  | some c => s.issue == some me && (fetchWord s c).2 == .word w
  | none => false
theorem fetches_spec (s : State) (w : DWord) (m : fetches s w = true) : ∃ c s1, s.issue = some me ∧ ctxOf s me = some c ∧ fetchWord s c = (s1, .word w) := by
  unfold fetches at m
  split at m
  · rename_i c hc
    simp only [Bool.and_eq_true, beq_iff_eq] at m
    exact ⟨c, (fetchWord s c).1, m.1, hc, by rw [← m.2]⟩
  · exact absurd m (by simp)

def isNext (r : Result) : Bool :=
  match r with
  | .next _ => true
  | _ => false

/-- `VectorsIn`, `EvenIfWide`, `InBody` and `PathRoom`, spelt out so that they compute. -/
abbrev VIn (c : Ctx) (ns : List Nat) : Prop := ∀ n ∈ ns, n < c.vcnt ∨ (c.handler = true ∧ 120 ≤ n ∧ n ≤ 127)
abbrev VEven (c : Ctx) (ns : List Nat) : Prop := etWide c.et = true → ∀ n ∈ ns, n % 2 = 0
abbrev Inside (c : Ctx) : Prop := ∀ l ∈ c.p.loops, l.last ≠ c.p.pc
abbrev PRoom (c : Ctx) (k : Nat) : Prop := pathOf c.g k < 255
theorem vIn_is (c : Ctx) (ns : List Nat) : VIn c ns = VectorsIn c ns := rfl
theorem vEven_is (c : Ctx) (ns : List Nat) : VEven c ns = EvenIfWide c ns := rfl
theorem inside_is (c : Ctx) : Inside c = InBody c := rfl
theorem pRoom_is (c : Ctx) (k : Nat) : PRoom c k = PathRoom c k := rfl

/-! ## Witnesses: encoding, step, invariants, checks, traps -/

theorem witness_EncodeThenDecode : (Instr.sadd { s0 with sd := 5, sa := 5, imm := 0xFFFFFFFF }).wellFormed = true ∧
    encode (.sadd { s0 with sd := 5, sa := 5, imm := 0xFFFFFFFF }) = some 0x00851400FFFFFFFF := by decide +kernel
theorem witness_DecodeReadsEveryBit : decode 0x00851400FFFFFFFF = .ok (.sadd { s0 with sd := 5, sa := 5, imm := 0xFFFFFFFF }) := by decide +kernel
theorem witness_StepRunsTheDecodedWord : fetches (base.withFetchWord 64 0x00851400FFFFFFFF) 0x00851400FFFFFFFF = true := by decide +kernel
theorem witness_UnassignedOpcodesTrap :
    ∀ op ∈ [0x000, 0x1FF, 0x01F, 0x03F, 0x05F, 0x080 - 1, 0x0A4, 0x0DF, 0x0F1, 0x12F, 0x13D, 0x18F, 0x199, 0x1BF, 0x1CD, 0x1ED, 0x1FE],
      fetches (base.withFetchWord 64 (op * 2 ^ 55)) (BitVec.ofNat 64 (op * 2 ^ 55)) = true := by decide +kernel
theorem witness_StepKeepsMemoryCanonical : Memory.wf base.mem = true ∧ isNext (step base) = true ∧ isNext (step State.reset) = true := by decide +kernel
theorem witness_StepKeepsFlightsFresh : (∀ f ∈ base.flights, f.id < base.nextId) ∧ isNext (step base) = true := by decide +kernel
theorem witness_HardwiredRegisters : (ctxOf base me).isSome = true := by decide +kernel

theorem witness_PrivilegeTraps_unlisted :
    ∀ n ∈ [0, 0x003, 0x00F, 0x013, 0x01F, 0x032, 0x037, 0x046, 0x051, 0x062, 0x1001], ∀ op ∈ [0x1E2, 0x1E3],
      fetches (base.withFetchWord 64 (op * 2 ^ 55 + n)) (BitVec.ofNat 64 (op * 2 ^ 55 + n)) = true := by decide +kernel
theorem witness_PrivilegeTraps_user :
    ∀ i ∈ [Instr.rett { s0 with }, .pbsetRng { s0 with sa := 2 }, .pbsetProt { s0 with fn := 1, sa := 2 }, .pswap { s0 with sd := 1, sa := 2, sb := 4 },
      .tlbinvPage { s0 with sa := 2 }, .tlbinvSpace { s0 with fn := 1 }, .tlbinvAll { s0 with fn := 2 }, .thRegisterWrite { s0 with imm := 0x040 },
      .thRegisterWrite { s0 with imm := 0x042 }, .rwayfWrite { s0 with imm := 0x060 }, .wrsys { s0 with imm := 0x010 }, .wrsys { s0 with imm := 0x050 }],
      meets user i (fun c => c.super = false) = true := by decide +kernel
theorem witness_PrivilegeTraps_readOnly :
    [0x002, 0x030, 0x038, 0x03F, 0x043, 0x045, 0x061].all (fun n => meets base (.wrsys { s0 with sa := 2, imm := n, pair := n == 0x030 }) (fun _ => True)) = true := by decide +kernel
theorem witness_PrivilegeTraps_shadow : [0x020, 0x02F].all (fun n => meets base (.wrsys { s0 with imm := n }) (fun c => c.handler = false) &&
    meets base (.rdsys { s0 with imm := n }) (fun c => c.handler = false)) = true := by decide +kernel

theorem witness_OperandChecksTrap_index : elementShape (.vadd { v3 with d := 63, a := 64, b := 65 }) = some ({ v3 with d := 63, a := 64, b := 65 }, 2, true) ∧
    meets (narrow base 64) (.vadd { v3 with d := 63, a := 64, b := 65 }) (fun c => [63, 64, 65] = [63] ++ 64 :: [65] ∧ VIn c [63] ∧ ¬ VIn c [64]) = true := by
  decide +kernel
theorem witness_OperandChecksTrap_type : meets (setMode base 8) (.vadd v3) (fun c => VIn c [0, 0, 0] ∧ c.et > 7) = true ∧
    meets (setMode base 12) (.vand v3) (fun c => VIn c [0, 0, 0] ∧ c.et > 11) = true ∧
    meets (setMode base 2) (.vadd { v3 with d := 1 }) (fun c => VIn c [1, 0, 0] ∧ ¬ VEven c [1, 0, 0]) = true := by decide +kernel

theorem witness_TrapEntersHandler : meets handled (.nop s0) (fun c => c.g.handler = none ∧ (handled.debugger = false ∨ 12 ≠ 12) ∧ handlerOf handled c.r ≠ 0 ∧ c.core.bank = none) = true ∧
    meets { handled with debugger := true } (.nop s0) (fun c => c.g.handler = none ∧ handlerOf handled c.r ≠ 0 ∧ c.core.bank = none) = true := by decide +kernel
theorem witness_TrapNotTaken_posted :
    [base, inHandler handled].all (fun s => meets s (.nop s0) (fun c => s.debugger = false ∧ c.x.slot < 4 ∧ (c.g.handler ≠ none ∨ handlerOf s c.r = 0) ∧
      placeHandle c.w c.x.grp < 2 ^ 32 ∧ (∀ q ∈ c.g.splits, q.undelivered = []) ∧ s.flights = [] ∧ c.r.launches = [])) = true := by decide +kernel
theorem witness_TrapNotTaken_bank : meets (modCore handled 0 (fun k => { k with bank := some { wg := 9, grp := 0, slot := 0 } })) (.nop s0)
    (fun c => c.g.handler = none ∧ handled.debugger = false ∧ handlerOf handled c.r ≠ 0 ∧ c.core.bank ≠ none) = true := by decide +kernel
def backAt (s : State) (pc cause : Nat) : State := setSplit s (fun p => { p with trapPc := BitVec.ofNat 64 pc, trapVal := BitVec.ofNat 64 pc, trapCause := BitVec.ofNat 32 cause })
theorem witness_TrapAndReturnWords : meets base (.trap { s0 with imm := 0xFFFF }) (fun _ => True) = true ∧ meets base (.brkp s0) (fun _ => True) = true ∧
    meets base (.rett s0) (fun c => c.super = true ∧ c.handler = false) = true ∧
    meets (backAt (inHandler user) 0x4004 0) (.rett s0) (fun c => c.super = true ∧ c.handler = true ∧ c.p.trapPc.toNat % 8 ≠ 0) = true ∧
    meets (backAt (inHandler user) 0x4008 0x80000000) (.rett s0) (fun c => c.super = true ∧ c.handler = true ∧ c.p.trapCause.getLsbD 31 = true ∧
      c.p.trapVal.toNat % 8 = 0 ∧ (∀ y ∈ c.core.waiters, groupOf y ≠ groupOf c.x) ∧ c.core.waiters = []) = true := by decide +kernel

/-! ## Witnesses: control -/

def inLoops (ls : List LoopLevel) : State := setSplit base (fun p => { p with loops := ls })
def outer : LoopLevel := { count := 2, start := 0x4000, last := 0x4010 }
def inner : LoopLevel := { count := 1, start := 0x4000, last := 0x4008 }
theorem witness_LoopLevels_update : loopUpdate [outer] 0x4010 = ([{ outer with count := 1 }], 0x4000) ∧ loopUpdate [inner] 0x4008 = ([], 0x4010) ∧
    loopUpdate [inner, outer] 0x4008 = ([outer], 0x4010) ∧ loopUpdate [{ inner with last := 0x4010 }, outer] 0x4010 = ([{ outer with count := 1 }], 0x4000) ∧
    loopUpdate [{ inner with last := 0x4010 }, { outer with count := 1 }] 0x4010 = ([], 0x4018) ∧ loopUpdate [inner] 0x4000 = ([inner], 0x4008) := by decide +kernel
theorem witness_LoopLevels_loop :
    meets base (.loop { b0 with aux := 1, offset := 1 }) (fun c => Inside c ∧ c.p.loops = []) = true ∧
    meets (setS base 9 0) (.loop { b0 with sa := 9, offset := 1 }) (fun c => Inside c ∧ c.p.loops = [] ∧ c.s 9 = 0) = true ∧
    meets (inLoops [outer]) (.loop { b0 with aux := 1, offset := 1 }) (fun c => Inside c ∧ c.p.loops = [outer] ∧
      (targetOf c { b0 with aux := 1, offset := 1 }).toNat = outer.last.toNat) = true ∧
    meets (inLoops [outer]) (.loop { b0 with aux := 1, offset := 2 }) (fun c => Inside c ∧ c.p.loops = [outer] ∧
      outer.last.toNat < (targetOf c { b0 with aux := 1, offset := 2 }).toNat) = true ∧
    meets (inLoops [inner, outer]) (.loop { b0 with aux := 1 }) (fun c => Inside c ∧ c.p.loops.length = 2) = true := by decide +kernel
theorem witness_LoopLevels_traps :
    meets (setS base 2 4) (.ret { b0 with sa := 2 }) (fun c => Inside c ∧ c.pair 2 % 8 ≠ 0) = true ∧
    meets (setS base 2 4) (.jr { b0 with sa := 2 }) (fun c => Inside c ∧ c.pair 2 % 8 ≠ 0) = true ∧
    (∀ i ∈ [Instr.br b0, .bc b0, .call { b0 with sa := 2 }, .ret { b0 with sa := 2 }, .jr { b0 with sa := 2 }, .loop b0, .split { b0 with sa := 2 },
      .join { b0 with sa := 2 }, .bzm b0, .bnzm b0, .exit b0], meets (inLoops [{ outer with last := 0x4000 }]) i (fun c => ¬ Inside c) = true) := by decide +kernel
theorem witness_BranchesTransferControl :
    (∀ i ∈ [Instr.br { b0 with offset := 0x80000000 }, .bc { b0 with offset := 3 }, .bc { b0 with cond := 1 }, .bzm b0, .bnzm b0, .bzm { b0 with sa := 61 }, .call { b0 with sa := 2 }],
      meets base i (fun c => Inside c) = true) ∧
    (∀ i ∈ [Instr.ret { b0 with sa := 2 }, .jr { b0 with sa := 2, offset := 1 }], meets (setS base 2 8) i (fun c => Inside c ∧ c.pair 2 % 8 = 0) = true) := by decide +kernel
theorem witness_SplitDivides :
    meets base (.split { b0 with sa := 57, aux := 1 }) (fun c => Inside c ∧ c.active &&& c.pr 1 = 0) = true ∧
    meets base (.split { b0 with sa := 57 }) (fun c => Inside c ∧ c.active &&& c.pr 0 ≠ 0 ∧ c.active &&& ~~~ c.pr 0 = 0) = true ∧
    meets (setP base 7 1) (.split { b0 with sa := 57, aux := 7 }) (fun c => Inside c ∧ c.active &&& c.pr 7 ≠ 0 ∧ c.active &&& ~~~ c.pr 7 ≠ 0 ∧ c.p.live = true ∧
      freeSlot c.g = some 1 ∧ freeRecord c.g = some 0) = true := by decide +kernel

/-- Two splits of a division, the one at slot 0 with a token at s9: its kind, record 2 and generation 63. -/
def meet0 (kind : Nat) (first : Bool) : State :=
  let token := kind * 2 ^ 30 + 2 * 2 ^ 8 + 63 * 2 ^ 10
  setGroup (setS base 9 token) (fun g => { g with
    splits := (g.splits.take 1).map (fun p => { p with own := 0xFFFF }) ++ (g.splits.take 1).map (fun p => { p with own := ~~~ 0xFFFF }) ++ g.splits.drop 2,
    joins := [{ record := 2, gen := 63, age := 0, newSlot := 1, oldSlot := 0, newDone := !first, oldDone := false, newEnded := false, oldEnded := false, hist := [], floors := [], sfloors := [] }] })
theorem witness_JoinMeets : (∀ k ∈ [1, 0, 3], meets (meet0 k true) (.join { b0 with sa := 9 }) (fun c => Inside c ∧ (c.s 9).toNat / 2 ^ 30 = k ∧ 9 + 3 < 61) = true) ∧
    (∀ first ∈ [true, false], meets (meet0 2 first) (.join { b0 with sa := 9 }) (fun c => Inside c ∧ (c.s 9).toNat / 2 ^ 30 = 2 ∧ ∃ j ∈ c.g.joins, c.g.joins = [j] ∧
      j.record = (c.s 9).toNat / 2 ^ 8 % 4 ∧ j.gen = (c.s 9).toNat / 2 ^ 10 % 64 ∧ j.newSlot ≠ j.oldSlot ∧ c.x.slot = j.oldSlot ∧ answersDue (meet0 2 first) c.x = false ∧
      c.p.pending = [] ∧ j.newEnded = false ∧ j.oldEnded = false ∧ j.newDone = !first ∧ j.oldDone = false ∧
      (splitFind (meet0 2 first) { c.x with slot := j.newSlot }).isSome = true) = true) := by decide +kernel
theorem witness_ExitEndsLanes : meets (setS (oneLane base) 61 0) (.exit b0) (fun c => Inside c ∧ c.active = 0) = true ∧
    meets (oneLane base) (.exit b0) (fun c => Inside c ∧ c.active ≠ 0 ∧ answersDue base c.x = false ∧ c.p.pending = [] ∧ c.p.own &&& ~~~ (c.g.exited ||| c.active) ≠ 0 ∧
      c.g.exited ||| c.active ≠ BitVec.allOnes 96) = true ∧
    meets base (.exit b0) (fun c => Inside c ∧ c.active ≠ 0 ∧ c.p.own &&& ~~~ (c.g.exited ||| c.active) = 0 ∧ c.g.joins = [] ∧
      c.g.exited ||| c.active = BitVec.allOnes 96) = true := by decide +kernel

/-! ## Witnesses: scalars, masks, predicates, state words -/

def scalarWords (f : SF) : List Instr :=
  [.sadd f, .ssub f, .smul f, .smulh f, .sand f, .sor f, .sxor f, .sandn f, .sshl f, .sshr f, .ssar f, .smin f, .smax f, .sminn f, .smaxn f, .sset f, .ssel f,
   .sfns f, .sbfx f, .sbfi f]
def scalarMoves (f : SF) : List Instr := [.smov f, .spopc f, .sclz f, .sctz f, .sbrev f, .sext f]
theorem witness_ScalarResults :
    (∀ p ∈ [true, false], ∀ i ∈ scalarWords { s0 with sd := 62, sa := 62, sb := 62, pair := p } ++ scalarWords { s0 with imm := 0x80000000, pair := p } ++
      scalarMoves { s0 with sd := 62, sa := 62, pair := p } ++ [.sli { s0 with sd := 62, imm := 0x80000000, pair := p }],
      meets base i (fun c => (scalarTable i (BitVec.ofNat 64 (c.scalar p 62)) (0 : BitVec 64) 0).isSome = true) = true) ∧
    (∀ p ∈ [true, false], ∀ i ∈ [Instr.sdiv { s0 with sd := 2, pair := p }, .srem { s0 with sd := 2, pair := p }, .sdiv { s0 with sd := 2, sa := 4, imm := 0xFFFFFFFF, pair := p }],
      meets (setS base 4 0x80000000) i (fun _ => (divideTable i (0 : BitVec 64) 0).isSome = true) = true) := by decide +kernel
theorem witness_StateWords :
    (∀ i ∈ [Instr.srdt { s0 with sd := 2, pair := true }, .rmode { s0 with sd := 63 }, .nop s0], meets base i (fun _ => True) = true) ∧
    meets base (.mode { s0 with imm := 0x3FFB }) (fun _ => (0x3FFB : BitVec 32) >>> 14 = 0 ∧ ((0x3FFB : BitVec 32) &&& 15).toNat < 12) = true ∧
    meets base (.mode { s0 with imm := 0x4000 }) (fun _ => (0x4000 : BitVec 32) >>> 14 ≠ 0) = true ∧
    meets base (.mode { s0 with imm := 12 }) (fun _ => 12 ≤ ((12 : BitVec 32) &&& 15).toNat) = true ∧
    meets base (.mode { s0 with fn := 1, sa := 61, imm := 11 }) (fun c => (((11 : BitVec 32) &&& c.s 61) ||| (c.p.mode.truncate 32 &&& ~~~ c.s 61)) = 11) = true ∧
    meets base (.xbnd { s0 with imm := 0x7F7F }) (fun _ => (0x7F7F : BitVec 32) >>> 15 = 0 ∧ (0x7F7F : BitVec 32).getLsbD 7 = false) = true ∧
    meets base (.xbnd { s0 with imm := 0x8000 }) (fun _ => (0x8000 : BitVec 32) >>> 15 ≠ 0) = true ∧
    meets base (.xbnd { s0 with imm := 0x80 }) (fun _ => (0x80 : BitVec 32).getLsbD 7 = true) = true := by decide +kernel
theorem witness_MaskWords :
    (∀ i ∈ [Instr.mset { s0 with sd := 61 }, .mand { s0 with sd := 1, sa := 61, imm := 5 }, .mor { s0 with sd := 1, sa := 61, sb := 61 }, .mandn { s0 with sd := 1, sa := 61 },
      .mxor { s0 with sd := 1, sa := 61 }, .mnot { s0 with sd := 1, sa := 1 }, .mfromp { s0 with sd := 1, sa := 7 }, .vballot { s0 with sd := 1 }],
      meets base i (fun c => (maskTable i c 0 0).isSome = true) = true) ∧
    (∀ i ∈ [Instr.mcnt { s0 with sa := 61 }, .mfirst { s0 with sd := 3, sa := 1 }, .vany { s0 with sa := 7 }, .vall s0, .vcount s0],
      meets base i (fun c => (laneCountTable i c).isSome = true) = true) ∧
    (∀ i ∈ [Instr.mtop { s0 with sd := 7, sa := 61 }, .pand { s0 with sd := 7, sa := 7 }, .por s0, .pxor { s0 with sd := 1 }, .pnot { s0 with sd := 7 }],
      meets base i (fun c => allLanes.all (fun l => (predicateTable i c l).isSome) = true) = true) := by decide +kernel

/-! ## Witnesses: vector words -/

def v3Words2 (f : V3) : List Instr := [.vadd f, .vsub f, .vmul f, .vmulh f, .vmin f, .vmax f]
def v3Bits2 (f : V3) : List Instr := [.vand f, .vor f, .vxor f, .vandn f, .vshl f, .vshr f, .vsar f, .vrot f, .vfns f]
def v3Bits1 (f : V3) : List Instr := [.vnot f, .vpopc f, .vclz f, .vctz f, .vbrev f, .vmov f]
theorem witness_VectorElementResults :
    [0, 2, 7].all (fun e => (v3Words2 { v3 with d := 126, a := 126, b := 126 } ++ [Instr.vmad { v3 with d := 126, c := 126 }, .vabs { v3 with d := 126 }, .vneg v3]).all (fun i =>
      meets (setMode base e) i (fun c => (elementShape i).isSome = true ∧ VIn c [126, 0] ∧ c.et ≤ 7 ∧ VEven c [126, 0]))) = true ∧
    [3, 9, 11].all (fun e => (v3Bits2 { v3 with d := 126, b := 126 } ++ v3Bits1 { v3 with d := 126, a := 126 }).all (fun i =>
      meets (setMode base e) i (fun c => (elementShape i).isSome = true ∧ VIn c [126, 0] ∧ c.et ≤ 11 ∧ VEven c [126, 0]))) = true := by decide +kernel
theorem witness_VectorFieldAndWidthResults_fields :
    [2, 7].all (fun e => meets (setMode base e) (.vaddi { vi0 with d := 126, imm := 0x80000000 }) (fun c => VIn c [126, 0] ∧ c.et ≤ 7 ∧ VEven c [126, 0])) = true ∧
    [2, 9, 11].all (fun e => meets (setMode base e) (.vmovi { vi0 with d := 126 }) (fun c => VIn c [126] ∧ c.et ≤ 11 ∧ VEven c [126])) = true ∧
    [3, 11].all (fun e => [Instr.vbfx { v2 with d := 126, imm := 0x3FFF }, .vbfi { v2 with d := 126, b := 127, imm := 0x4000 }].all (fun i =>
      meets (setMode base e) i (fun c => VIn c [126, 0, 127] ∧ c.et ≤ 11 ∧ VEven c [126, 0]))) = true := by decide +kernel
theorem witness_VectorFieldAndWidthResults_widths :
    [0, 7].all (fun e => meets (setMode base e) (.vmulw { v3 with d := 126, a := 127 }) (fun c => VIn c [126, 127, 0] ∧ c.et ≤ 7 ∧ etWide c.et = false)) = true ∧
    meets (setMode base 7) (.vcvt { v2 with d := 127, imm := 0xC2 }) (fun c => VIn c [127, 0] ∧ c.et ≤ 7 ∧ 0xC2 / 64 % 4 < etCount c.et ∧ VEven c [127]) = true ∧
    meets (setMode base 3) (.vcvt { v2 with d := 126, imm := 0x10 + 4 }) (fun c => VIn c [126, 0] ∧ c.et ≤ 7 ∧ VEven c [126]) = true ∧
    [4, 7].all (fun e => meets (setMode base e) (.vpack { v2 with d := 127, imm := 1 }) (fun c => VIn c [127, 0, 0] ∧ 4 ≤ c.et ∧ c.et ≤ 7)) = true ∧
    [0, 1, 4, 5].all (fun e => meets (setMode base e) (.vunpk { v2 with d := 127, imm := 3 }) (fun c => VIn c [127, 0] ∧ c.et ∈ [0, 1, 4, 5])) = true := by decide +kernel
theorem witness_CompareAndSelectResults :
    meets (setMode base 7) (.vcmp { v2 with d := 7, imm := 0xB9 }) (fun c => VIn c [0, 0] ∧ c.et ≤ 7 ∧ 0xB9 / 16 % 4 < etCount c.et ∧ VEven c [0, 0]) = true ∧
    [8, 9].all (fun e => meets (setMode base e) (.fcmp { v2 with a := 126, imm := 8 }) (fun c => VIn c [126, 0] ∧ 8 ≤ c.et ∧ c.et ≤ 11 ∧ VEven c [126, 0])) = true ∧
    meets (setMode base 11) (.fcmp { v2 with imm := 0x18 }) (fun c => VIn c [0, 0] ∧ 8 ≤ c.et ∧ c.et ≤ 11 ∧ 0x18 / 16 % 4 < etCount c.et) = true ∧
    meets (setMode base 11) (.fclass { v2 with d := 7, imm := 0x53FF }) (fun c => VIn c [0] ∧ 8 ≤ c.et ∧ c.et ≤ 11 ∧ 0x53FF / 4096 % 2 < etCount c.et) = true ∧
    [2, 11].all (fun e => meets (setMode base e) (.vsel { v2 with d := 126, imm := 7 }) (fun c => VIn c [126, 0, 0] ∧ c.et ≤ 11 ∧ VEven c [126, 0, 0])) = true := by decide +kernel

def bound (lo hi : Nat) : State := setSplit base (fun p => { p with xbnd := BitVec.ofNat 32 (hi * 256 + lo) })
def xout (c : Ctx) (m : Nat) : Bool := m < c.p.xbnd.toNat % 128 || c.p.xbnd.toNat / 256 % 128 < m || c.vcnt ≤ m
def xnum (c : Ctx) (x imm l : Nat) : Nat := (lane (c.xr x) l).toNat % 65536 + imm
theorem witness_LaneAndIndexWords_lanes :
    [2, 11].all (fun e => meets (setMode base e) (.vbcs { v2 with d := 126, a := 62 }) (fun c => VIn c [126] ∧ c.et ≤ 11 ∧ VEven c [126, 62])) = true ∧
    meets base (.vrdl { v2 with d := 63, imm := 95 }) (fun c => VIn c [0] ∧ c.et ≤ 11 ∧ VEven c [63, 0] ∧ has c.p.own 95 = true ∧ has c.g.exited 95 = false ∧ has c.active 95 = true) = true ∧
    meets (oneLane (setMode base 0x2000)) (.vrdl { v2 with d := 63, imm := 95 }) (fun c => VIn c [0] ∧ VEven c [63, 0] ∧ has c.active 95 = false ∧ c.rall = true) = true ∧
    meets (oneLane base) (.vrdl { v2 with d := 63, imm := 1 }) (fun c => VIn c [0] ∧ VEven c [63, 0] ∧ has c.active 1 = false ∧ c.rall = false) = true ∧
    meets (setS base 63 96) (.vrdl { v2 with d := 63, imm := 0x403F }) (fun c => VIn c [0] ∧ VEven c [63, 0] ∧ ¬ (c.s 63).toNat < 96) = true := by decide +kernel
theorem witness_LaneAndIndexWords_index :
    meets base (.rdx { v2 with d := 127, imm := 127 }) (fun c => VIn c [127] ∧ allLanes.all (fun l => !has c.active l || !xout c (xnum c 0 127 l)) = true) = true ∧
    meets base (.wrx { v2 with a := 127, imm := 127 }) (fun c => VIn c [127] ∧ allLanes.all (fun l => !has c.active l || !xout c (xnum c 0 127 l)) = true) = true ∧
    meets (bound 5 127) (.rdx { v2 with d := 127, imm := 4 }) (fun c => VIn c [127] ∧ has c.active 0 = true ∧ xout c (xnum c 0 4 0) = true) = true ∧
    meets (bound 0 5) (.wrx { v2 with a := 127, imm := 6 }) (fun c => VIn c [127] ∧ has c.active 0 = true ∧ xout c (xnum c 0 6 0) = true) = true ∧
    meets (narrow base 64) (.wrx { v2 with a := 63, imm := 64 }) (fun c => VIn c [63] ∧ has c.active 0 = true ∧ xout c (xnum c 0 64 0) = true) = true ∧
    meets base (.xset { v2 with d := 7, a := 127, imm := 1 }) (fun c => VIn c [127]) = true ∧ meets base (.xget { v2 with d := 127, a := 7, imm := 1 }) (fun c => VIn c [127]) = true := by
  decide +kernel

/-! ## Witnesses: floating point -/

theorem witness_FloatElementResults :
    [8, 9, 11].all (fun e => [Instr.fadd { v3 with d := 126 }, .fsub v3, .fmul v3, .ffma { v3 with c := 126 }, .ffms v3, .fnma v3, .fmin v3, .fmax v3, .fabs v3, .fneg v3].all (fun i =>
      meets (setMode base e) i (fun c => (floatShape i).isSome = true ∧ VIn c [126, 0] ∧ 8 ≤ c.et ∧ c.et ≤ 11 ∧ VEven c [126, 0]))) = true ∧
    meets (setMode base 10) (.fdot2 { v3 with d := 127, c := 127 }) (fun c => VIn c [127, 0, 0, 127] ∧ c.et = 10) = true := by decide +kernel
theorem witness_FloatConversionResults_types :
    [8, 9, 11].all (fun e => meets (setMode base e) (.frnd { v2 with d := 126, imm := 7 }) (fun c => VIn c [126, 0] ∧ 8 ≤ c.et ∧ c.et ≤ 11 ∧ VEven c [126, 0])) = true ∧
    [0x05B, 0x742].all (fun k => meets (setMode base 11) (.fcvt { v2 with d := 127, imm := k }) (fun c => VIn c [127, 0] ∧ c.et ≤ 11 ∧ (8 ≤ c.et ∨ 8 ≤ k.toNat % 16) ∧
      k.toNat / 64 % 4 < etCount c.et ∧ VEven c [127])) = true ∧
    meets (setMode base 7) (.fcvt { v2 with d := 127, imm := 0xC8 }) (fun c => VIn c [127, 0] ∧ c.et ≤ 11 ∧ (8 ≤ c.et ∨ 8 ≤ 0xC8 % 16) ∧ 0xC8 / 64 % 4 < etCount c.et) = true := by decide +kernel
theorem witness_FloatConversionResults_strings :
    (List.range 16).all (fun n => [8, 11].all (fun e =>
      let imm (c : Ctx) := n + 16 * maxK (Entry.ofBits (formatEntry (setMode base e) c n)).width
      let regs (c : Ctx) := stringRegs 120 (Entry.ofBits (formatEntry (setMode base e) c n)).width (maxK (Entry.ofBits (formatEntry (setMode base e) c n)).width)
      let sel := if e = 11 then 256 else 0
      match issuing (setMode base e) with
      | none => false
      | some c0 =>
        meets (setMode base e) (.fcvtt { v2 with d := 120, b := 63, imm := BitVec.ofNat 15 (imm c0 + sel) }) (fun c => VIn c [120, 0] ∧ 8 ≤ c.et ∧ c.et ≤ 11 ∧ (sel = 0 ∨ etCount c.et = 2) ∧
          VEven c [0] ∧ (∀ n ∈ regs c, n < 128) ∧ VIn c (regs c)) &&
        meets (setMode base e) (.fcvtf { v2 with d := 0, a := 120, b := 63, imm := BitVec.ofNat 15 (imm c0 + sel) }) (fun c => VIn c [0, 120] ∧ 8 ≤ c.et ∧ c.et ≤ 11 ∧ (sel = 0 ∨ etCount c.et = 2) ∧
          VEven c [0] ∧ (∀ n ∈ regs c, n < 128) ∧ VIn c (regs c)))) = true := by decide +kernel
def finite (v : Val) : Bool :=
  match v with
  | .fin _ _ d => 0 < d
  | _ => false
theorem witness_RoundingRules : [fp64, fp32, fp16, bf16].all (fun f => [0, 1].all (fun mode =>
    finite (f.value (f.encode mode (.fin true 1 3))) && finite (f.value (f.encode mode (.fin false 65519 1))) && finite (f.value 1) && finite (f.value 0))) = true := by decide +kernel
theorem witness_SpecialFunctionResults : [8, 10, 11].all (fun e => [Instr.frcp { v2 with d := 127 }, .frsqrt v2, .fsqrt v2, .fexp2 v2, .flog2 v2, .fsinpi v2, .fcospi v2, .ftanh v2].all (fun i =>
    meets (modCore (setMode base e) 0 (fun k => { k with special := [7, 8, 9] })) i (fun c => (specialShape i).isSome = true ∧ VIn c [127, 0] ∧ c.core.special.length < 4 ∧ (c.et = 8 ∨ c.et = 10 ∨ c.et = 11)))) = true := by
  decide +kernel

/-! ## Witnesses: memory words -/

/-- Bytes of memory before the run: the leaf of the space's first gigabyte. -/
def leafed (s : State) (leaf : Nat) : State := { s with mem := Memory.writeN s.mem loadedTable (bytesOf 8 leaf) }
/-- The page is one of counters; is not there; may not be read by user mode; lane 0 alone is active. -/
def counterPage : State := leafed base 0xE1F
def absentPage : State := leafed base 0
def userPage : State := leafed user 0xC0F
def passes (v : Verdict) : Bool :=
  match v with
  | .ok _ _ => true
  | _ => false
def absents (v : Verdict) : Bool :=
  match v with
  | .absent _ _ _ => true
  | _ => false
def trapsAt (v : Verdict) (detail : Nat) : Bool :=
  match v with
  | .trap 5 d _ _ => d == detail
  | _ => false
def rowMeets (s : State) (i : Instr) (h : Ctx → GlobalRow → Bool) : Bool :=
  meets s i (fun c => (match globalTable i c with
    | some row => decide (VIn c row.vectors ∧ PRoom c row.path) && h c row
    | none => false) = true)
/-- The checks of a row pass, and the leaf entries of the lanes that access take their bits. -/
def goes (s : State) (c : Ctx) (row : GlobalRow) : Bool :=
  match checkGlobal s c row.access row.align row.size row.unit row.lanes with
  | .ok s1 seen => (touchAll s1 c (accessWrites row.access) (seen.filter (fun q => row.may q.lane))).isSome
  | _ => false
def verdict (s : State) (c : Ctx) (row : GlobalRow) : Verdict := checkGlobal s c row.access row.align row.size row.unit row.lanes
def globalWords : List Instr :=
  [.vld { m0 with width := .q, data := 124, addr := 122, ord := .strong .g true }, .vld m0, .vst { m0 with width := .d, data := 126, sbase := 4 },
   .atom { m0 with width := .d, data := 124, offset := 0x21 }, .atomv { m0 with width := .h, data := 120, offset := 0x22 }, .sld { m0 with data := 63, offset := 0x7FFF },
   .sst { m0 with width := .d, data := 62, sbase := 4 }, .lres { m0 with width := .w, sbase := 4 }, .scond { m0 with width := .d, data := 2, sbase := 4 },
   .satom { s0 with sa := 4, imm := 0x2C }, .satom { s0 with sd := 2, sa := 4, sb := 8, pair := true, imm := 0x121 }]
def counterWords : List Instr := [.ctadd { s0 with fn := 6, pair := true, sa := 4, sd := 2, imm := 0xFFFFFFFF }, .ctread { s0 with fn := 1, pair := true, sa := 4 }]
theorem witness_GlobalMemoryWordsLaunch :
    globalWords.all (fun i => rowMeets (oneLane base) i (fun c row => goes (oneLane base) c row)) = true ∧
    counterWords.all (fun i => rowMeets counterPage i (fun c row => goes counterPage c row)) = true := by decide +kernel
theorem witness_MemoryWordsTrap_global :
    rowMeets (setV (oneLane base) 2 1) (.vld { m0 with width := .w, addr := 2, data := 8 }) (fun _ row => match row.lanes with | e :: _ => e.2.toNat % row.align != 0 | [] => false) = true ∧
    rowMeets (setS base 2 7) (.sld { m0 with width := .d, sbase := 2, data := 4 }) (fun _ row => match row.lanes with | e :: _ => e.2.toNat % row.align != 0 | [] => false) = true ∧
    globalWords.all (fun i => rowMeets (oneLane userPage) i (fun c row => trapsAt (verdict (oneLane userPage) c row) 3)) = true ∧
    globalWords.all (fun i => rowMeets (oneLane absentPage) i (fun c row => absents (verdict (oneLane absentPage) c row))) = true ∧
    counterWords.all (fun i => rowMeets base i (fun c row => trapsAt (verdict base c row) 4)) = true := by decide +kernel

def scratchLanes (s : State) (f : MF) (routed : Bool) : List (Nat × DWord) :=
  match issuing s with
  | some c => activeAddrs c (scratchAddrs c f routed)
  | none => []
/-- A mirror set of two workgroups, in columns 0 and 1, with a window of 64 bytes at 128. -/
def mirrored : State :=
  let s := setFields base (fun f => { f with mset := 2, nwg := 2, wbase := 128, wsize := 64 })
  { s with wgs := s.wgs ++ s.wgs.map (fun w => { w with id := 9, column := 1, index := 1 }) }
theorem witness_MemoryWordsTrap_scratch :
    [Instr.vlds { m0 with width := .h, data := 127, offset := 1 }, .vsts { m0 with width := .h, offset := 1 }, .vstm { m0 with width := .h, offset := 1 }].all (fun i =>
      meets (oneLane mirrored) i (fun c => VIn c [127, 0] ∧ PRoom c 0 ∧ PRoom c 1 ∧ PRoom c 5)) = true ∧
    scratchLanes (oneLane mirrored) { m0 with width := .h, offset := 1 } true = [(0, 1)] ∧
    meets (oneLane base) (.vlds { m0 with width := .w, sbase := 9 }) (fun c => VIn c [0] ∧ PRoom c 0) = true ∧
    scratchLanes (setS (oneLane base) 9 65536) { m0 with width := .w, sbase := 9 } true = [(0, 65536)] ∧
    scratchLanes (oneLane mirrored) { m0 with width := .w, offset := 124 } false = [(0, 124)] ∧ scratchLanes (oneLane mirrored) { m0 with width := .w, offset := 192 } false = [(0, 192)] := by
  decide +kernel
theorem witness_ScratchpadAndLineWords_scratch :
    [Instr.vlds { m0 with width := .w, sbase := 9, data := 127 }, .vsts { m0 with width := .w, sbase := 9, data := 127 }].all (fun i =>
      meets (setS (oneLane base) 9 65532) i (fun c => (scratchTable i c).isSome = true ∧ VIn c [127] ∧ PRoom c 0 ∧ PRoom c 1)) = true ∧ (∀ f ∈ base.flights, f.id < base.nextId) ∧
    scratchLanes (setS (oneLane base) 9 65532) { m0 with width := .w, sbase := 9 } true = [(0, 65532)] ∧
    [128, 188].all (fun o => meets (setS (oneLane mirrored) 9 o) (.vstm { m0 with width := .w, sbase := 9 }) (fun c => VIn c [0] ∧ PRoom c 5 ∧
      (activeAddrs c (scratchAddrs c { m0 with width := .w, sbase := 9 } false)).all (fun e => e.2.toNat % 4 == 0 && c.w.fields.wbase ≤ e.2.toNat &&
        e.2.toNat + 4 ≤ c.w.fields.wbase + c.w.fields.wsize) = true ∧ (mirrorSet mirrored c.w).length = 2)) = true := by decide +kernel
theorem witness_ScratchpadAndLineWords_lines :
    [Instr.cwb { m0 with addr := 2 }, .cinv m0].all (fun i => meets (oneLane base) i (fun c => VIn c [2, 3] ∧ PRoom c 1)) = true ∧
    meets (oneLane base) (.cwb { m0 with addr := 2 }) (fun c => (match checkGlobal (oneLane base) c .load 1 1 1 (activeAddrs c (globalAddrs c { m0 with addr := 2 } 0 true)) with
      | .ok s1 seen => (touchAll s1 c false (seen.filter (fun q => has c.writes q.lane))).isSome
      | _ => false) = true) = true ∧
    meets base (.vpf { m0 with data := 1, addr := 126 }) (fun c => VIn c [126, 127]) = true := by decide +kernel

/-- Lane 0 alone is active and waits at the word `ldfe v2, [v0]` or `stfe`, with the word at 0 full or empty, its bytes listed, and poison or none. -/
def waitsFull (op : FullOp) (full bad : Bool) : State :=
  let s := modWg (oneLane base) 1 (fun w => { w with full := if full then [0] else [], scratch := [(0, 1), (1, 2), (2, 3), (3, 4)], scratchPoison := if bad then [0] else [] })
  setSplit s (fun p => { p with state := .parked (.fullEmpty op [{ lane := 0, off := 0, data := 7 }]) 0 })
def fullWord (op : FullOp) (f : MF) : Instr := match op with | .ldfe => .ldfe f | .ldff => .ldff f | .stfe => .stfe f
theorem witness_FullEmptyWords_issue :
    [FullOp.ldfe, .ldff, .stfe].all (fun op => meets (oneLane base) (fullWord op { m0 with width := .w, data := 127 }) (fun c =>
      (VIn c [127] ∧ PRoom c op.path ∧ (activeAddrs c (scratchAddrs c { m0 with width := .w, data := 127 } (op != .stfe))).all (fun e => e.2.toNat % 4 == 0 && e.2.toNat + 4 ≤ c.w.fields.spad) = true) ∧
      fullTodo c op { m0 with width := .w, data := 127 } ≠ [])) = true ∧
    [FullOp.ldfe, .ldff, .stfe].all (fun op => meets (setGroup (oneLane base) (fun g => { g with skip := [(0, 1)], taken := [(0, [(0, 5)])] })) (fullWord op { m0 with width := .w })
      (fun c => fullTodo c op { m0 with width := .w } = [] ∧ takenWords c = [(0, 5)])) = true ∧
    [0, 1].all (fun k => meets (oneLane base) (.feset { m0 with width := .w, data := k }) (fun c => VIn c [] ∧ PRoom c 1)) = true := by decide +kernel
theorem witness_FullEmptyWords_perform :
    [false, true].all (fun bad => [FullOp.ldfe, .ldff, .stfe].all (fun op =>
      let s := waitsFull op (op != .stfe) bad
      let l : FullLane := { lane := 0, off := 0, data := 7 }
      match ctxOf s me with
      | some c => c.p.state == .parked (.fullEmpty op [l]) 0 && firstWith (fun e => e.lane == l.lane && !has (skipMask c) e.lane) [l] == some l && fullReady s c op [l] l &&
          scratchBad c.w 0 4 == bad
      | none => false)) = true := by decide +kernel
/-- A `feset` of the word at 8 is under way. -/
def setting (full : Bool) : State :=
  match ctxOf base me with
  | some c => { base with nextId := 10, flights := [{ Flight.new { base with nextId := 9 } c .store with path := some 1, parts := [scratchUnit 0 0 4 8 (.setFull full) []] }] }
  | none => base
theorem witness_FullEmptyWords_set : [false, true].all (fun full =>
    match flightFind (setting full) 9 with
    | some f => f.parts.all (fun p => p.place == .scratch 8 && p.state == .queued && p.op == .setFull full && partReady (setting full) f p) && f.parts.length == 1 &&
        (onceParts (setting full) f).isEmpty && (wgFind (setting full) f.x.wg).isSome
    | none => false) = true := by decide +kernel

/-- A counter in the scratchpad at 8 holds 5. -/
def counts (bad : Bool) : State :=
  setS (modWg base 1 (fun w => { w with scratch := [(8, 5), (9, 0), (10, 0), (11, 0), (12, 0), (13, 0), (14, 0), (15, 0)], scratchPoison := if bad then [0] else [] })) 3 8
/-- A counter in global memory at 0x8000 holds 5. -/
def countsFar (bad : Bool) : State :=
  { setS (setS counterPage 2 0x8000) 3 0 with mem := Memory.writeN counterPage.mem 0x8000 (bytesOf 8 5), poison := if bad then [0x8000 / 32] else [] }
def far : SF := { s0 with fn := 6, pair := true, sa := 2 }
def farReads (s : State) (c : Ctx) (bad : Bool) : Bool :=
  match checkGlobal s c .counterRead 8 8 8 [(127, BitVec.ofNat 64 (c.pair 2))] with
  | .ok s1 [u] =>
    match touchAll s1 c false [u] with
    | some s2 => counterTurn s2 c far (globalUnit s2 u .counterRead []) && (match counterNow s2 c (globalUnit s2 u .counterRead []) with
      | some (_, v, b) => v == 5 && b == bad
      | none => false)
    | none => false
  | _ => false
theorem witness_CounterWords_launch : [Instr.ctadd { s0 with fn := 2, sa := 3, imm := 1 }, .ctread { s0 with fn := 1, sa := 3, sd := 2 }].all (fun i =>
    [0, 65528].all (fun va => meets (setS base 3 va) i (fun c => PRoom c 2 ∧ (c.s 3).toNat % 8 = 0 ∧ (c.s 3).toNat + 8 ≤ c.w.fields.spad))) = true := by decide +kernel
theorem witness_CounterWords_wait :
    [(true, 5), (false, 6), (false, 5)].all (fun e => meets (counts e.1) (.ctwait { s0 with fn := 1, sa := 3, imm := e.2 }) (fun c => counterTurn (counts e.1) c { s0 with fn := 1, sa := 3, imm := e.2 } (scratchUnit 127 0 8 8 .counterRead []) = true ∧
      scratchBad c.w 8 8 = e.1 ∧ numOf (scratchRead c.w 8 8) = 5)) = true ∧
    [(true, 5), (false, 6), (false, 5)].all (fun e => meets (countsFar e.1) (.ctwait { s0 with fn := 6, pair := true, sa := 2, imm := e.2 }) (fun c => farReads (countsFar e.1) c e.1 = true)) = true := by
  decide +kernel
/-- An earlier access stands before a fence of kind sc. -/
def fenced : State := setSplit (setS (setting true) 3 8) (fun p => { p with hist := [{ flight := 9, fences := [(3, 6)] }] })
theorem witness_CounterWords_turn : meets fenced (.ctwait { s0 with fn := 1, sa := 3 }) (fun c => (c.s 3).toNat = 8 ∧ 16 ≤ c.w.fields.spad ∧
    counterTurn fenced c { s0 with fn := 1, sa := 3 } (scratchUnit 127 0 8 8 .counterRead []) = false) = true := by decide +kernel
theorem witness_AtomicOperations : [2, 4, 8].all (fun n => atomicNew 9 n (2 ^ (8 * n) - 1) 0 0 == 2 ^ (8 * n) - 1) = true ∧ counterSum (2 ^ 64 - 1) 0 = (2 ^ 64 - 1, false) ∧
    counterSum (2 ^ 64 - 1) 1 = (2 ^ 64 - 1, true) := by decide +kernel

/-- A line that column 0 holds as its owner. -/
def ownLine : CacheLine := { agent := .col 0, line := 256, state := 3, data := List.replicate 128 7, dirty := 0, key := 0, pin := none, used := 0, poison := 0 }
theorem witness_StoredBytesAreRead : lineFind { base with lines := [ownLine] } (.col 0) 256 = some ownLine ∧ ownLine.data.length = 128 ∧ 124 + ([1, 2, 3, 4] : List Byte).length ≤ 128 := by
  decide +kernel
/-- A later result that is due, of a vector register and of a scalar. -/
def dueFlight (r : RegRef) (v : Image) : State :=
  match ctxOf base me with
  | some c => { base with nextId := 10, flights := [{ Flight.new { base with nextId := 9 } c .value with dests := [destOf r (if r = .s 5 then 1 else 0xF) v] }] }
  | none => base
theorem witness_LaterResultIsWritten : [(RegRef.v 127, Image.lanes [1, 2]), (.s 5, .word 7)].all (fun e => match flightFind (dueFlight e.1 e.2) 9 with
    | some f => resultDue (dueFlight e.1 e.2) f && f.dests.length == 1 && f.dests.all (fun d => d.clobbered == 0 && d.reg == e.1 && has d.mask 0) && f.kind == .value &&
        (ctxOf (dueFlight e.1 e.2) f.x).isSome
    | none => false) = true := by decide +kernel

/-! ## Witnesses: synchronisation, futures, engines, the matrix unit -/

def onPath (s : State) (k n : Nat) : State := setGroup s (fun g => { g with paths := modAt g.paths k (fun _ => n) })
def waiting (s : State) (w : Wait) : State := setSplit s (fun p => { p with wait := w })
/-- A second split lives and runs at slot 1. -/
def twoSplits : State := setGroup base (fun g => { g with splits := g.splits.take 1 ++ g.splits.take 1 ++ g.splits.drop 2 })
/-- A result of the split is still to come. -/
def late : State := setSplit (setting true) (fun p => { p with await := [9] })
theorem witness_SynchronisationWords :
    meets base (.bar { s0 with mark := true }) (fun c => c.p.live = true ∧ c.w.groups.length = 1 ∧ (c.g.splits.drop 1).all (fun p => !p.live) = true) = true ∧
    meets twoSplits (.bar s0) (fun c => c.p.live = true ∧ c.g.ended = false ∧ (c.g.splits[1]?.map (fun p => (p.live, p.inBar))) = some (true, false)) = true ∧
    meets base (.fence { s0 with fn := 6, imm := 3 }) (fun _ => True) = true ∧
    meets (onPath base 1 5) (.xfence { s0 with fn := 1, imm := 0x801 }) (fun c => c.p.wait = .none ∧ pathOf c.g 0 = 0 ∧ linesHome (onPath base 1 5) c.w.column 1 8 = []) = true ∧
    meets (onPath base 1 5) (.xfence { s0 with fn := 1, imm := 0x802 }) (fun c => c.p.wait = .none ∧ pathOf c.g 1 ≠ 0) = true ∧
    meets base (.xfence { s0 with fn := 6, imm := 0x13F }) (fun c => c.p.wait = .none ∧ linesHome base c.w.column 0x3F 1 = [] ∧ c.g.paths = [0, 0, 0, 0, 0, 0]) = true ∧
    meets (onPath base 5 9) (.wait { s0 with fn := 5, imm := 9 }) (fun c => pathOf c.g 5 ≤ 9) = true ∧
    meets (onPath base 5 9) (.wait { s0 with fn := 5, imm := 8 }) (fun c => 8 < pathOf c.g 5) = true ∧
    [Instr.tlbinvPage { s0 with sa := 4 }, .tlbinvSpace { s0 with fn := 1 }, .tlbinvAll { s0 with fn := 2 }].all (fun i => meets (waiting base (.tlbinv true)) i (fun c => c.super = true ∧ c.p.wait = .tlbinv true)) = true ∧
    meets base (.tsr { s0 with pair := true, sd := 62 }) (fun c => resultsWritten base c.p = true) = true ∧
    meets late (.tsr { s0 with pair := true, sd := 62 }) (fun c => resultsWritten late c.p = false) = true := by decide +kernel

/-- The group knows handle 0x30000001 in a state, and s9 holds it. -/
def future (st : FutState) (s : State) : State :=
  setS (setGroup s (fun g => { g with futures := [{ handle := 0x30000001, state := st, outstanding := true }] })) 9 0x30000001
theorem witness_FutureWords :
    [(FutState.pending, 0), (.done, 1), (.partial_, 2), (.faulted, 3), (.cancelled, 4)].all (fun e =>
      [Instr.fwait { s0 with sd := 1, sa := 9 }, .ftest { s0 with sd := 1, sa := 9 }, .fcancel { s0 with sd := 1, sa := 9 }].all (fun i =>
        meets (future e.1 base) i (fun c => handleCode c.g (c.s 9) = e.2))) = true ∧
    meets base (.fwait { s0 with sd := 1, sa := 9 }) (fun c => handleCode c.g (c.s 9) = 7) = true := by decide +kernel

def crowded : State := onPath (setGroup base (fun g => { g with futures := (List.range 63).map (fun k => { handle := BitVec.ofNat 32 k, state := .pending, outstanding := true }) })) 3 254
theorem witness_CopyWordsStart :
    meets crowded (.cp { e0 with sd := 1, sa := 2, eop := 1, sb := 2, flags := 0x18 }) (fun c => PRoom c 3 ∧ c.g.paths.length = 6 ∧ (c.g.futures.filter (fun f => f.outstanding)).length < 64) = true ∧
    meets crowded (.cpg { e0 with sd := 1, flags := 126 }) (fun c => VIn c [126, 127] ∧ PRoom c 3) = true ∧
    meets crowded (.cpmc { e0 with sd := 1, sa := 2, flags := 3 }) (fun c => PRoom c 3 ∧
      indexFault c (mxIndex crowded c (followWord 3)) = none) = true ∧
    [FutState.pending, .done, .faulted].all (fun st => meets (future st base) (.cpretry { e0 with sd := 1, sa := 9 }) (fun c => handleCode c.g (c.s 9) ≠ 2)) = true ∧
    meets (onPath (future .partial_ base) 3 254) (.cpretry { e0 with sd := 1, sa := 9 }) (fun c => handleCode c.g (c.s 9) = 2 ∧ PRoom c 3 ∧ c.g.paths.length = 6) = true := by decide +kernel

def command (id : Nat) (op : MxOp) (started : Bool) : MxCmd :=
  { id := id, g := mine, core := 0, pc := 0x4000, op := op, handle := none, readyAt := 0, started := started, doneAt := 0, fetched := [], cause := 0, cancel := false,
    view := { by_ := me, at_ := 0, floors := [], follows := none } }
def queued (n : Nat) (s : State) : State := { s with commands := (List.range n).map (fun k => command (100 + k) (.acczero 0 0) false) }
theorem witness_MatrixWordsQueue :
    [{ x0 with acc := 7, nc := 2 }, { x0 with acc := 6, nc := 3 }].all (fun f => meets (queued 7 (onPath base 4 254)) (.mma f) (fun c => PRoom c 4 ∧
      (matrixQueue (queued 7 base) c.w.core).length < 8 ∧ c.g.paths.length = 6 ∧
      indexFault c (mxIndex (queued 7 base) c f) = none ∧ latchHit c.g c.x.slot f = none)) = true ∧
    meets (setGroup base (fun g => { g with aLatch := some { slot := 0, abase := 0, fa := 0, rows := [[1]] } })) (.mma { x0 with u := true }) (fun c => PRoom c 4 ∧
      indexFault c (mxIndex base c { x0 with u := true }) = none ∧ latchHit c.g c.x.slot { x0 with u := true } = some [[1]]) = true ∧
    meets (queued 7 base) (.acczero { e0 with flags := 7 }) (fun c => PRoom c 4 ∧ c.g.paths.length = 6 ∧ 7 < c.tiles) = true ∧
    [Instr.accld { e0 with sd := 1, sa := 9, flags := 0x0F }, .accst { e0 with sd := 1, sa := 9, flags := 0x0F }].all (fun i => meets (setS (queued 7 base) 9 40960) i (fun c => PRoom c 4 ∧
      c.g.paths.length = 6 ∧ 7 < c.tiles ∧ c.g.futures = [] ∧
      allLanes.all (fun l => !has c.active l || (((c.s 9).toNat + l * 256) % 32 == 0 && (c.s 9).toNat + l * 256 + 256 ≤ c.w.fields.spad)) = true)) = true := by decide +kernel
theorem witness_MatrixWordsQueue_global : [(Instr.accld { e0 with sa := 4, flags := 0x07 }, AccessKind.load), (.accst { e0 with sa := 4, flags := 0x07 }, .store)].all (fun e =>
    meets (oneLane base) e.1 (fun c => PRoom c 4 ∧ 7 < c.tiles ∧
      (match checkGlobal (oneLane base) c e.2 32 64 32 ((lanesOf c.active).map (fun l => (l, BitVec.ofNat 64 ((c.pair 4 + l * 64) % 2 ^ 64)))) with
       | .ok s1 seen => (touchAll s1 c (e.2 == .store) (seen.filter (fun u => has c.writes u.lane))).isSome
       | _ => false) = true)) = true := by decide +kernel
def running (s : State) (op : MxOp) (started : Bool) (h : MxCmd → Bool) : Bool :=
  let s : State := { s with commands := [command 9 op started] }
  match cmdFind s 9 with
  | some m => m.started == started && !m.cancel && ((matrixQueue s m.core).head?.map (fun q => q.id)) == (if started then none else some m.id) && m.readyAt ≤ coreCycle s m.core &&
      (coreOf s m.core).mxFree ≤ 2 * coreCycle s m.core && m.doneAt ≤ coreCycle s m.core && firstOfGroup s m && (wgFind s m.g.wg).isSome &&
      ((groupFind s m.g).map (fun g => (g.paths.length, g.residence))) == some (6, .core) && h m
  | none => false
theorem witness_MatrixCommandsRun :
    [MxOp.acczero 7 1, .mma { x0 with acc := 7, nc := 2 } 0 0 0 1 [], .accld 7 2 1 [{ scratchUnit 0 0 32 0 .read [] with got := [] }]].all (fun op => [false, true].all (fun started =>
      running base op started (fun _ => true))) = true := by decide +kernel
/-- A record at 0: B at byte 1024, 48 deep and one wide; the other begins with no record. -/
def shaped : State := modWg base 1 (fun w => { w with scratch := (List.range 32).zip ([0, 4, 0, 0, 0, 0, 0, 0, 48, 0, 64, 0, 1, 0, 0, 0, 48] ++ List.replicate 15 0) })
def poisonedRecord : State := modWg shaped 1 (fun w => { w with scratchPoison := [0] })
theorem witness_MatrixCommandsRun_fetch : [(shaped, 0), (poisonedRecord, 4)].all (fun e => running e.1 (.mma x0 0 0x2900 0x2900 1 []) true (fun m =>
    m.cause == 0 && (match wgFind e.1 m.g.wg with
      | some v => (match fetchB e.1 (m.view.reader v.column 4) v 0 (mxN x0) (Entry.ofBits 0x2900) (Entry.ofBits 0x2900) with
        | .ok _ => e.2 == 0
        | .error n => e.2 == n)
      | none => false))) = true := by decide +kernel

/-- The tower holds handle 0 of the region, of priority 3 and generation 1, and s9 names it. -/
def handle1 : State := setS (modTower base 0 (fun t => { t with handles := [(0, { gen := 1, used := true, region := 2, space := 1, base := 0, size := 128, prio := 3, evicted := false })] })) 9 0x01000000
theorem witness_FormatAndResidencyWords_formats :
    meets (onPath (setS base 9 (defaultEntry 0).toNat) 1 254) (.fmtset { e0 with sa := 9, flags := 15 }) (fun c => PRoom c 1 ∧ c.g.paths.length = 6 ∧ (c.s 9).toNat < 2 ^ 16 ∧
      (Entry.ofBits (BitVec.ofNat 16 (c.s 9).toNat)).valid = true ∧ c.r.formats.length = 16) = true ∧
    meets base (.fmtset { e0 with flags := 31 }) (fun c => PRoom c 1 ∧ c.r.formats.length = 16) = true ∧
    meets (setS base 9 0x10000) (.fmtset { e0 with sa := 9 }) (fun c => PRoom c 1 ∧ 2 ^ 16 ≤ (c.s 9).toNat) = true ∧
    meets (setS base 9 0xFFFF) (.fmtset { e0 with sa := 9 }) (fun c => PRoom c 1 ∧ (Entry.ofBits (BitVec.ofNat 16 (c.s 9).toNat)).valid = false) = true ∧
    meets base (.fmtget { e0 with sd := 1, flags := 15 }) (fun _ => True) = true ∧
    (match ctxOf base me with
     | some c => [(0 : Nat)].all (fun k =>
        let s : State := { base with flights := [Flight.new base c (.format 2 k 0)] }
        match flightFind s base.nextId with | some f => f.kind == .format 2 0 0 && !f.written | none => false)
     | none => false) = true := by decide +kernel
theorem witness_FormatAndResidencyWords_residency :
    [(0, 0), (64, 128), (0, 64), (0, 2 ^ 26 + 128)].all (fun e => meets (setS (setS base 12 e.1) 10 e.2) (.rhold { e0 with sd := 1, sa := 12, sb := 10, flags := 7 }) (fun c =>
      c.pair 12 % 128 ≠ 0 ∨ c.pair 10 % 128 ≠ 0 ∨ c.pair 10 < 128 ∨ 2 ^ 26 < c.pair 10)) = true ∧
    [128, 2 ^ 26].all (fun n => meets (setBlock (setS base 10 n) 18 (bytesOf 2 1)) (.rhold { e0 with sd := 1, sa := 12, sb := 10, flags := 7 }) (fun c => c.pair 12 % 128 = 0 ∧ c.pair 10 % 128 = 0 ∧
      128 ≤ c.pair 10 ∧ c.pair 10 ≤ 2 ^ 26 ∧ handleBudget (setBlock (setS base 10 n) 18 (bytesOf 2 1)) c.r.id = true ∧ freeHandle (towerOf base 0) = some 0)) = true ∧
    [Instr.rdemote { e0 with sd := 1, sa := 9 }, .rdrop { e0 with sd := 1, sa := 9 }].all (fun i => meets base i (fun c => knownHandle base c.r.id (c.s 9) = none)) = true ∧
    [Instr.rdemote { e0 with sd := 1, sa := 9, flags := 4 }, .rdemote { e0 with sd := 1, sa := 9, flags := 3 }, .rdemote { e0 with sd := 1, sa := 9, flags := 11 }, .rdrop { e0 with sd := 1, sa := 9 }].all (fun i =>
      meets handle1 i (fun c => ((knownHandle handle1 c.r.id (c.s 9)).map (fun e => (e.1, e.2.1, e.2.2.prio))) = some (0, 0, 3))) = true := by decide +kernel

/-! ## Witnesses: system words -/

theorem witness_SystemRegisterReads :
    [0x001, 0x002, 0x010, 0x043, 0x044, 0x045, 0x031, 0x038, 0x03F, 0x040, 0x041, 0x042, 0x050, 0x060, 0x061].all (fun n => meets base (.rdsys { s0 with sd := 1, imm := n }) (fun _ => True)) = true ∧
    [0x011, 0x012, 0x030].all (fun n => meets base (.rdsys { s0 with sd := 62, pair := true, imm := n }) (fun _ => True)) = true ∧
    [0x020, 0x02F].all (fun n => meets (inHandler base) (.rdsys { s0 with sd := 1, imm := n }) (fun c => c.handler = true)) = true := by decide +kernel
theorem witness_SystemRegisterWrites :
    [(0x001, 0x7F7F), (0x010, 0xFF00FFFF), (0x050, 0x8000001F)].all (fun e => meets (setS base 9 e.2) (.wrsys { s0 with sa := 9, imm := BitVec.ofNat 32 e.1 }) (fun c => c.super = true ∧
      c.scalar false 9 = e.2 ∧ (e.1 = 0x001 → (BitVec.ofNat 32 e.2) >>> 15 = 0 ∧ (BitVec.ofNat 32 e.2).getLsbD 7 = false) ∧ (e.1 = 0x010 → (BitVec.ofNat 32 e.2).extractLsb' 16 8 = 0) ∧
      (e.1 = 0x050 → (BitVec.ofNat 32 e.2).extractLsb' 5 11 = 0 ∧ (BitVec.ofNat 32 e.2).extractLsb' 16 15 = 0))) = true ∧
    [0x011, 0x012].all (fun n => meets (setS base 10 0xFFFFFFF8) (.wrsys { s0 with pair := true, sa := 10, imm := n }) (fun c => c.super = true ∧
      (BitVec.ofNat 64 (c.scalar true 10)).extractLsb' 0 3 = 0)) = true ∧
    [0x020, 0x02F].all (fun n => meets (inHandler base) (.wrsys { s0 with sa := 9, imm := n }) (fun c => c.handler = true)) = true ∧
    meets (setS base 9 8) (.rwayfWrite { s0 with sa := 9, imm := 0x060 }) (fun c => c.super = true ∧ c.scalar false 9 ≤ 8) = true ∧
    meets (setS base 9 7) (.timestatWrite { s0 with sa := 9, imm := 0x031 }) (fun c => c.scalar false 9 < 8 ∧ base.lossAt ≠ some (timeOf base) ∧ base.returnAt ≠ some (timeOf base)) = true ∧
    [(0x040, 0x3FF), (0x041, 0), (0x042, 0x80FFFFFF)].all (fun e => meets (setS base 9 e.2) (.thRegisterWrite { s0 with sa := 9, imm := BitVec.ofNat 32 e.1 }) (fun c => c.super = true ∧
      c.scalar false 9 = e.2 ∧ (columnOf base c.w.column).thEn = true ∧ (columnOf base c.w.column).thLo.toNat < (columnOf base c.w.column).thHi.toNat ∧
      (e.1 = 0x041 → e.2 < (columnOf base c.w.column).thHi.toNat) ∧ (BitVec.ofNat 32 e.2).extractLsb' 24 7 = 0)) = true ∧
    [(0x040, 0), (0x041, 0x3FF), (0x042, 0x00FFFFFF)].all (fun e => meets (setS base 9 e.2) (.thRegisterWrite { s0 with sa := 9, imm := BitVec.ofNat 32 e.1 }) (fun c => c.super = true ∧
      c.scalar false 9 = e.2 ∧ (BitVec.ofNat 32 e.2).extractLsb' 24 7 = 0)) = true := by decide +kernel
theorem witness_SystemRegisterWrites_reserved :
    [(0x001, 0x8000), (0x001, 0x80), (0x010, 0x10000), (0x050, 0x20), (0x050, 0x10000)].all (fun e => meets (setS base 9 e.2) (.wrsys { s0 with sa := 9, imm := BitVec.ofNat 32 e.1 })
      (fun c => c.super = true ∧ c.scalar false 9 = e.2)) = true ∧
    meets (setS base 10 4) (.wrsys { s0 with pair := true, sa := 10, imm := 0x011 }) (fun c => c.super = true ∧ c.scalar true 10 % 8 ≠ 0) = true ∧
    [(0x040, 0x400), (0x041, 0x400), (0x042, 0x1000000)].all (fun e => meets (setS base 9 e.2) (.thRegisterWrite { s0 with sa := 9, imm := BitVec.ofNat 32 e.1 })
      (fun c => c.super = true ∧ c.scalar false 9 = e.2)) = true ∧
    meets (setS base 9 8) (.timestatWrite { s0 with sa := 9, imm := 0x031 }) (fun c => c.scalar false 9 = 8) = true ∧
    meets (setS base 9 9) (.rwayfWrite { s0 with sa := 9, imm := 0x060 }) (fun c => c.super = true ∧ c.scalar false 9 = 9) = true := by decide +kernel

/-- The second gigabyte maps the same memory as counters; the region's launch list has 16 places, of which 15 are taken. -/
def listed : State :=
  let s := setBlock base 192 (bytesOf 8 0x8000 ++ bytesOf 4 16 ++ bytesOf 4 0 ++ bytesOf 8 0x40009000)
  { s with mem := Memory.writeN (Memory.writeN s.mem (loadedTable + 8) (bytesOf 8 0xE1F)) 0x9000 (bytesOf 8 15) }
/-- The words of the space's table at 0x2000 and 0x2008 are the leaves of two gigabytes. -/
def leaves : State := setS (setS { base with mem := Memory.writeN base.mem 0x2008 (bytesOf 8 0x40000C1F) } 10 0x2000) 12 0x2008
/-- The target, and whether its list has room; and whether the three checks of an append pass in turn. -/
def launchRoom (s : State) (c : Ctx) (f : SF) : Option Bool :=
  (launchTarget s c (c.pair f.sb.toNat)).bind (fun q => (appended s q).map (fun n => decide (n - q.ldone < q.llsize)))
def launches (s : State) (c : Ctx) (f : SF) : Bool :=
  match launchTarget s c (c.pair f.sb.toNat) with
  | none => false
  | some q =>
    let n := (appended s q).getD 0
    let step (s : Option State) (k : AccessKind) (size : Nat) (a : Nat) : Option State := s.bind (fun s => match checkGlobal s c k size size size [(127, BitVec.ofNat 64 a)] with
      | .ok s1 [u] => touchAll s1 c (k == .store || k == .counterAdd) [u]
      | _ => none)
    launchRoom s c f == some true && (step (step (step (some s) .load 128 (c.pair f.sa.toNat)) .store 128 (q.llist + 128 * (n % q.llsize))) .counterAdd 8 q.lctr).isSome
/-- The list's last place is taken too. -/
def full : State := { listed with mem := Memory.writeN listed.mem 0x9000 (bytesOf 8 16) }
def trapsIn (v : Verdict) : Bool := match v with | .trap _ _ _ _ => true | _ => false
/-- A swap of the two frames is under way. -/
def swapping : State := { leaves with swaps := [{ flight := 5, pteA := 0, pteB := 0, frameA := 0, frameB := 0x80000000, chunks := 1, next := 0, id := 0, space := 1 }] }
theorem witness_DeviceServiceWords_reads :
    [0, 0xFF].all (fun k => meets base (.pbgetRng { s0 with pair := true, sd := 2, imm := k }) (fun _ => True)) = true ∧
    meets base (.pbgetProt { s0 with pair := true, sd := 2, fn := 1, imm := 15 }) (fun _ => 15 % 64 < 16) = true ∧
    meets (onPath base 2 254) (.hpost { s0 with sd := 1, sa := 4, imm := 0xFFFF }) (fun c => PRoom c 2 ∧ c.r.hevq = 0) = true ∧
    meets (setBlock base 280 [1]) (.hpost { s0 with sd := 1, sa := 4 }) (fun c => PRoom c 2 ∧ c.r.hevq ≠ 0) = true ∧
    meets base (.launch { s0 with sd := 1, sa := 4, sb := 8 }) (fun c => PRoom c 2 ∧ launchTarget base c (c.pair 8) = none) = true := by decide +kernel
theorem witness_DeviceServiceWords_launch :
    meets listed (.launch { s0 with sd := 1, sa := 4, sb := 6 }) (fun c => PRoom c 2 ∧ launches listed c { s0 with sd := 1, sa := 4, sb := 6 } = true) = true ∧
    meets full (.launch { s0 with sd := 1, sa := 4, sb := 6 }) (fun c => PRoom c 2 ∧ launchRoom full c { s0 with sd := 1, sa := 4, sb := 6 } = some false) = true ∧
    meets (setS listed 10 1) (.launch { s0 with sd := 1, sa := 10, sb := 6 }) (fun c => PRoom c 2 ∧ launchRoom listed c { s0 with sd := 1, sa := 10, sb := 6 } = some true ∧
      trapsIn (checkGlobal listed c .load 128 128 128 [(127, BitVec.ofNat 64 (c.pair 10))]) = true) = true := by decide +kernel
/-- Both operands of a swap name leaves of one size. -/
def swaps (s : State) (c : Ctx) (a b : Nat) : Bool := swapEntry s (c.pair a) == some (0, 30, 0xC1F) && swapEntry s (c.pair b) == some (0x40000000, 30, 0x40000C1F)
def reads8 (s : State) (c : Ctx) (a n : Nat) : Bool :=
  match checkGlobal s c .load 8 n 8 [(127, BitVec.ofNat 64 (c.pair a))] with
  | .ok s1 seen => (touchAll s1 c false seen).isSome
  | _ => false
theorem witness_DeviceServiceWords_swap :
    [Instr.tlbinvPage { s0 with sa := 4 }, .tlbinvSpace { s0 with fn := 1 }, .tlbinvAll { s0 with fn := 2 }].all (fun i => meets base i (fun c => c.super = true ∧ c.p.wait = .none)) = true ∧
    meets (setS base 10 4) (.pswap { s0 with sd := 1, sa := 10, sb := 10 }) (fun c => c.super = true ∧ (swapEntry (setS base 10 4) (c.pair 10)).isNone = true) = true ∧
    [leaves, swapping].all (fun s => meets s (.pswap { s0 with sd := 1, sa := 10, sb := 12 }) (fun c => c.super = true ∧ swaps s c 10 12 = true)) = true ∧
    leaves.swaps = [] ∧ swapping.swaps.map (fun w => (w.frameA, w.frameB)) = [(0, 0x80000000)] := by decide +kernel
theorem witness_DeviceServiceWords_sets :
    meets base (.pbsetProt { s0 with fn := 1, sa := 4, imm := 15 }) (fun c => c.super = true ∧ c.pair 4 = 0) = true ∧
    meets (setS base 10 0x3000) (.pbsetProt { s0 with fn := 1, sa := 10, imm := 6 }) (fun c => c.super = true ∧ c.pair 10 ≠ 0) = true ∧
    meets (setS base 10 0x3000) (.pbsetRng { s0 with sa := 10, imm := 63 }) (fun c => c.super = true ∧ reads8 (setS base 10 0x3000) c 10 32 = true) = true ∧
    meets (setS base 10 0x3000) (.pbsetProt { s0 with fn := 1, sa := 10, imm := 7 }) (fun c => c.super = true ∧ c.pair 10 ≠ 0) = true := by
  decide +kernel

/-! ## Witnesses: events of groups, splits and engines -/

def idle : State := { base with issue := none }
def after (s : State) (i : Instr) : State :=
  match exec i s with
  | .next t => t
  | _ => s
def cycleAt (s : State) (n : Nat) : State := modColumn s 0 (fun k => { k with cycle := n })
def residing (r : Residence) : State := cycleAt (setGroup idle (fun g => { g with residence := r })) 5
/-- A group of 16 registers, parked at a boundary for 2048 cycles, with room in the canopy for its bytes and no more. -/
def restful : State :=
  let s := setFields (setBlock idle 40 (bytesOf 8 (384 * 16 + 1632))) (fun f => { f with vcnt := 16, tiles := 0 })
  cycleAt (setSplit s (fun p => { p with state := .parked .bar 7, boundary := true })) 2055
theorem witness_IssueAndDemotion_issue :
    [0, 767, 768].all (fun n => let s := { idle with turn := n }; s.booted && !s.inReset && s.issue.isNone && !(columnOf s (n / 4)).issueBarred && (coreOf s n).claimed.isNone) = true ∧
    (splitsOn (setSplit idle (fun p => { p with pass := 63 })) 0 = [me] ∧ (splitFind (setSplit idle (fun p => { p with pass := 63 })) me).map (fun p => p.pass) = some 63 ∧
      (coreOf idle 0).guard = []) := by decide +kernel
theorem witness_IssueAndDemotion_demotion :
    (restful.wgs.all (fun w => (List.range w.groups.length).zip w.groups |>.all (fun e => !e.2.eligible && mayDemote restful w e.1 e.2)) = true ∧ restful.wgs.length = 1) ∧
    ((residing (.demoting 5)).wgs.all (fun w => w.groups.all (fun g => g.residence == .demoting 5 && 5 ≤ (columnOf (residing (.demoting 5)) w.column).cycle)) = true) ∧
    (match wgFind (residing (.canopy (some 0))) 1 with
     | some w => (pendingRecalls (residing (.canopy (some 0))) w.core).head? == some mine &&
         ((coreSpace (residing (.canopy (some 0))) w.core false).add { w.fields.space with groups := 0 }).fits
     | none => false) = true ∧
    ((residing (.recalling 5 true)).wgs.all (fun w => w.groups.all (fun g => g.residence == .recalling 5 true && !g.canopyBad && 5 ≤ (columnOf (residing (.recalling 5 true)) w.column).cycle)) = true) := by
  decide +kernel

/-- Core 0 has sensors at 95.25 degrees, above the threshold since the first tick, for the dwell. -/
def warm (code : Nat) (hot : Bool) : State := { modCore idle 0 (fun k => { k with sensors := [BitVec.ofNat 10 code], above := [some 0], hot := hot }) with now := 2 * 0x1388 }
def captured (k : Capture) (h : HoldKind) (cycle : Nat) : State :=
  let s := setSplit (cycleAt idle cycle) (fun p => { p with boundary := true })
  modWg (modColumn s 0 (fun c => { c with capture := some k })) 1 (fun w => { w with hold := h })
def cap (start : Nat) : Capture := { wg := 1, target := 1, start := start, succeeded := none, moveFrom := 0, moveLen := 0, moveTill := none }
def capturing (s : State) (p : Column → Capture → Workgroup → Bool) : Bool :=
  s.columns.any (fun e => match e.2.capture with
    | some k => (match wgFind s k.wg with | some w => p e.2 k w | none => false)
    | none => false)
theorem witness_TrapezeMoves_heat :
    ((warm 0x17D false).cores.any (fun e => hotDue (warm 0x17D false) e.1) = true) ∧
    ((warm 0x153 true).cores.any (fun e => (coreOf (warm 0x153 true) e.1).hot && (coreOf (warm 0x153 true) e.1).reading < (columnOf (warm 0x153 true) (e.1 / 4)).thLo.toNat) = true) ∧
    ((captureChoice (warm 0x17D true) 0).map (fun e => (e.1.id, e.2)) = some (1, 1)) := by decide +kernel
theorem witness_TrapezeMoves_capture :
    capturing (captured (cap 0) .capture 9) (fun _ k w => k.succeeded.isNone && w.hold == .capture && !w.stopped && readyToMove (captured (cap 0) .capture 9) w) = true ∧
    capturing (captured (cap 1) .capture 2049) (fun q k _ => k.succeeded.isNone && k.start + 2048 ≤ q.cycle) = true ∧
    (((columnOf (captured (cap 0) .capture 9) 0).capture.map (fun k => (k.moveTill, (wgFind (captured (cap 0) .capture 9) k.wg).isSome))) = some (none, true)) ∧
    ((modWg (cycleAt idle 7) 1 (fun w => { w with excluded := some 7 })).wgs.any (fun w => w.excluded == some 7) = true) ∧
    capturing (captured { cap 0 with succeeded := some 8, moveFrom := 9, moveLen := 4 } .capture 9) (fun q k w => k.moveTill.isNone && k.succeeded == some 8 && k.moveFrom ≤ q.cycle && !w.stopped) = true ∧
    capturing (captured { cap 0 with succeeded := some 8, moveTill := some 9 } .move 9) (fun q k _ => k.moveTill == some 9 && 9 ≤ q.cycle) = true := by decide +kernel

def trapInfo : TrapInfo := { code := 6, detail := 0, lane := 3, value := 0, pc := 0x4000, async := true, seq := 1 }
def flying (f : Flight → Flight) : State :=
  match ctxOf idle me with
  | some c => { idle with nextId := 10, flights := [f (Flight.new { idle with nextId := 9 } c .store)] }
  | none => idle
def parkedAt (i : Instr) (why : RunState) (s : State) : State :=
  match encode i with
  | some w => setSplit { s.withFetchWord 64 w.toNat with issue := none } (fun p => { p with state := why })
  | none => s
theorem witness_SplitEvents_accesses :
    (completePart (flying (fun f => { f with kind := .load 4, parts := [scratchUnit 0 0 4 0 .read []] })) 9 0).isSome = true ∧
    ((flightFind (flying (fun f => { f with written := true, answered := true })) 9).map (fun f => (f.complete, f.kind)) = some (true, .store)) ∧
    ((flightFind (flying (fun f => { f with trap := some trapInfo, answered := false })) 9).map (fun f => f.trap) = some (some trapInfo)) ∧
    ((ctxOf (flying (fun f => { f with trap := some trapInfo })) me).map (fun c => c.g.halted) = some false) ∧
    (let s := setSplit idle (fun p => { p with markWait := true })
     (splitFind s me).map (fun p => (p.live, p.markWait, resultsWritten s p, answersDue s me)) = some (true, true, true, false)) := by decide +kernel
theorem witness_SplitEvents_splits :
    (let s := setSplit { handled with issue := none } (fun p => { p with boundary := true, pending := [trapInfo] })
     trapDeliverable s me = true ∧ (ctxOf s me).map (fun c => (c.p.pending, handlerOf s c.r != 0, c.core.bank, s.debugger)) = some ([trapInfo], true, none, false)) ∧
    (let s := parkedAt (.wait s0) (.parked .path 0) base
     (ctxOf s me).map (fun c => (c.p.live, heldParked s c, conditionMet s c)) = some (true, false, true)) ∧
    [Instr.tlbinvPage { s0 with sa := 4 }, .tlbinvSpace { s0 with fn := 1 }, .tlbinvAll { s0 with fn := 2 }].all (fun i =>
      let s := setSplit (parkedAt i .running base) (fun p => { p with wait := .tlbinv false })
      match ctxOf s me with
      | some c => c.p.wait == .tlbinv false && ((peek s c).bind tlbForm).isSome && s.flights.isEmpty && s.commands.isEmpty
      | none => false) = true ∧
    ((issuing base).map (fun c => c.p.refused) = some none) := by decide +kernel
/-- A `vstm` of one lane on the way to both members. -/
def mirroring : State :=
  match ctxOf mirrored me with
  | some c => { mirrored with nextId := 10, flights := [{ Flight.new { mirrored with nextId := 9 } c .mirror with
      parts := [0, 1].map (fun n => { scratchUnit 0 0 4 188 .write [1, 2, 3, 4] with place := .mirror n 188 }) }] }
  | none => base
/-- The same once column 0 has acknowledged, as one part. -/
def mirroringLast : State := { mirroring with flights := mirroring.flights.map (fun f => { f with parts := f.parts.drop 1 }) }
theorem witness_SplitEvents_mirror :
    (match flightFind mirroringLast 9 with
     | some f => f.kind == .mirror && f.parts.length == 1 && f.parts.all (fun p => !p.finished && p.data.length == p.size && p.place == .mirror 1 188) && mirrorFirst mirroringLast f 1 &&
         (match wgFind mirroringLast f.x.wg with
          | some w => (firstWith (fun m => m.column == 1) (mirrorSet mirroringLast w)).map (fun m => decide (188 + 4 ≤ m.fields.spad) && m.id == 9) == some true
          | none => false)
     | none => false) = true := by decide +kernel

/-- A copy in of one byte, by a record at 0x3000; begun; and one with a follow-on that has landed. -/
def recorded : State :=
  setS (setS { base with mem := Memory.writeN base.mem 0x3000 (bytesOf 8 0x8000 ++ bytesOf 2 1 ++ bytesOf 2 1 ++ List.replicate 20 0) } 10 0x3000) 11 0
def copying : State := { after recorded (.cp { e0 with sd := 1, sa := 10 }) with issue := none }
def begun : State := after copying (.copyCompletion 3 [])
def landed : State :=
  let s := after recorded (.cpmc { e0 with sd := 1, sa := 10 })
  cycleAt { s with issue := none, copies := s.copies.map (fun k => { k with ready := true, landed := true }) } 50
theorem witness_EngineEvents_copies :
    ((copyFind copying 3).map (fun k => (k.settled, k.landed, k.cancel, k.ready)) = some (false, false, false, false) ∧
      (match copyFind copying 3, wgFind copying 1, regionFind copying 2 with | some k, some w, some r => (beginCopy copying w r k).isSome | _, _, _ => false) = true) ∧
    ((copyFind begun 3).map (fun k => (k.settled, k.landed, k.cancel, k.ready, k.units.length)) = some (false, false, false, true, 1) ∧ (moveUnit begun 3 0).isSome = true) ∧
    (match copyFind landed 3, wgFind landed 1, groupFind landed mine with
     | some k, some w, some g => k.follow.isSome && k.landed && !k.cancel && g.residence == .core && w.hold != .move && (coreOf landed w.core).pipeFree ≤ coreCycle landed w.core &&
         !(columnOf landed w.column).issueBarred && pathOf g 4 < 255 && landed.turn ≤ w.core && !moveIsNext landed w && (matrixQueue landed w.core).length < 8 && g.paths.length == 6
     | _, _, _ => false) = true ∧
    ((copyFind { begun with copies := begun.copies.map (fun k => { k with cancel := true }) } 3).map (fun k => (k.cancel, k.settled)) = some (true, false)) ∧
    (let s := { idle with commands := [{ command 9 (.acczero 0 1) false with cancel := true }] }
     copyFind s 9 = none ∧ (cmdFind s 9).map (fun m => (m.cancel, firstOfGroup s m)) = some (true, true)) := by decide +kernel
theorem witness_EngineEvents_pages :
    (191 < 192 ∧ canonical (0x3FFFFFFF : DWord) = true ∧ (walk idle 1 0x3FFFFFFF).isSome = true) ∧
    ({ idle with now := 2 * 2 ^ 20 }.halvedAt < timeOf { idle with now := 2 * 2 ^ 20 } / 2 ^ 20) ∧
    (let s := { idle with now := 2 * 7, chunks := [(4, { counts := [1, 2, 3, 4], quietTill := 7 })] }
     s.chunks.any (fun e => e.2.quietTill != 0 && e.2.quietTill ≤ timeOf s) = true) ∧
    (let w : PageSwap := { id := 5, flight := 6, pteA := 0x3000, pteB := 0x3008, frameA := 0x10000, frameB := 0x12000, chunks := 2, next := 0, space := 1 }
     let s := { idle with swaps := [w] }
     firstWith (fun w => w.id == 5) s.swaps = some w ∧ chunkQuiet s (w.frameA + 4096 * w.next) (w.frameB + 4096 * w.next) = true ∧ w.next + 1 < w.chunks ∧
       w.frameA + 4096 * w.chunks ≤ w.frameB ∧ s.lines = []) ∧
    (let c : Conversion := { entry := 63, new := { word0 := 0, word1 := 0, word2 := 0, word3 := 0 }, flight := 9, started := false }
     let s := { idle with conversions := [c] }
     s.conversions = c :: [] ∧ s.flights = [] ∧ s.msgs = [] ∧ s.lines = [] ∧ s.dirs = []) := by decide +kernel

/-! ## Witnesses: the ringmaster -/

/-- The root with COLS 1, the least REGB of a workgroup of 8 registers, POWER 1, PBOUND 1, and its rings of one entry each. -/
def rooted : List Byte :=
  let b := base.regions.head?.map (fun r => r.block)
  [(8, bytesOf 2 0), (14, bytesOf 2 1), (16, bytesOf 1 1), (24, bytesOf 8 3072), (40, bytesOf 8 (2 ^ 31)), (48, bytesOf 8 1), (192, bytesOf 8 0x8000), (200, bytesOf 4 1),
   (208, bytesOf 8 0x40009000), (216, bytesOf 8 0xA000), (224, bytesOf 4 1), (232, bytesOf 8 0x4000B000), (240, bytesOf 8 0xC000), (248, bytesOf 4 1), (256, bytesOf 8 0x4000D000)].foldl
    (fun b e => splice b e.1 e.2) (b.getD [])
def ringed : State :=
  { modRegion idle 2 (fun r => { r with block := rooted }) with mem := Memory.writeN (Memory.writeN idle.mem 0 rooted) (loadedTable + 8) (bytesOf 8 0xE1F), xlat := List.replicate 8 (true, 0), wgs := [] }
def poked (s : State) (a : Nat) (bs : List Byte) : State := { s with mem := Memory.writeN s.mem a bs }
/-- A launch record of one workgroup with so many lanes, and a counter of one. -/
def appendedOne (lanes : Nat) : State :=
  poked (poked ringed 0x8000 (bytesOf 8 0x4000 ++ bytesOf 8 0 ++ bytesOf 4 1 ++ bytesOf 2 lanes ++ bytesOf 1 1 ++ bytesOf 1 8 ++ List.replicate 104 0)) 0x9000 (bytesOf 8 1)
def headOfList (s : State) (p : List Byte → Bool → Region → Bool) : Bool :=
  match s.regions with
  | [r] => (match nextRecordOf s r with
    | some (_, b, bad) => p b bad r
    | none => false)
  | _ => false
theorem witness_RingmasterEvents_records :
    headOfList (appendedOne 96) (fun b bad r => !bad && !recordInvalid r.nextRecord b && !unplaceable (appendedOne 96) r (LaunchRec.ofBytes b)) = true ∧
    headOfList (appendedOne 97) (fun b bad r => !bad && recordInvalid r.nextRecord b) = true ∧
    headOfList { appendedOne 96 with poison := [0x8000 / 32] } (fun _ bad _ => bad) = true ∧
    (let s := modRegion (appendedOne 96) 2 (fun r => { r with block := splice r.block 24 (bytesOf 8 1) })
     headOfList s (fun b bad r => !bad && !recordInvalid r.nextRecord b && unplaceable s r (LaunchRec.ofBytes b))) = true := by decide +kernel
def listing : State := after (appendedOne 96) .launchRecordCheck
theorem witness_RingmasterEvents_placement : listing.booted = true ∧ listing.inReset = false ∧ listing.xlat.all (fun e => e.1) = true ∧
    (match candidates (pruneReserves (noteCandidates listing)) with
     | [(r, l, ms)] => (placeMembers (pruneReserves (noteCandidates listing)) r l ms).isSome
     | _ => false) = true := by decide +kernel
theorem witness_RingmasterEvents_pbound :
    (let s := { pruneReserves (noteCandidates listing) with now := 2 * 2 }
     s.regions.any (fun r => r.launches.any (fun l => !l.expired && l.since == some 0 && 0 + pboundOf s r < timeOf s))) = true := by decide +kernel
/-- A workgroup of launch 0, in the root of `ringed`. -/
def launched : State := { listing with wgs := idle.wgs }
/-- Column 0 holds a dirty line of a HALO range. -/
def haloed (s : State) : State :=
  { s with playbill := [(63, { word0 := 0x8501, word1 := 0x8000, word2 := 0, word3 := 0 })],
           lines := [{ agent := .col 0, line := 0x100, state := 1, data := List.replicate 128 7, dirty := 1, key := 0, pin := none, used := 0, poison := 0 }] }
def completing (s : State) (last : Bool) (dirty : Bool) : Bool :=
  match wgFind s 1 with
  | some w => (regionFind s w.region).isSome && w.complete && w.hold != .move &&
      (match launchFind s w.region w.launch, presentRel s w.column with
       | some l, some s1 => (l.finished.length + 1 == l.fields.nwg && !l.over) == last && haloDirty s w.column == dirty && !(w.column :: l.ran.map (fun k => k.column)).any (haloPushes s1)
       | _, _ => false)
  | none => false
theorem witness_RingmasterEvents_completion :
    (let s := setGroup launched (fun g => { g with ended := true })
     completing s true false && completing (haloed s) true true && completing { s with regions := s.regions.map (fun r => { r with launches := r.launches.map (fun l => { l with fields := { l.fields with nwg := 2 } }) }) } false false) = true := by
  decide +kernel
theorem witness_RingmasterEvents_faults :
    (let s := queueRecord ringed 2 (record226 0 1 7 1 0 0 0 0)
     match s.regions with
     | [r] => (match r.fqWaiting, ringCounter s r.space r.fqctr with
       | [b], some (s1, raw, _) => !answersWaited s r b && (regionFind s r.id == some r) && numOf raw - r.lowest < r.fqsize &&
         (match ringAddr (ringWrite s1 r.space (r.fq + 32 * (numOf raw % r.fqsize)) b) r.space r.fqctr true with
         | some (s2, pa, _) => (counterAdd (passTokens s2 pa) pa 1).isSome
         | none => false)
       | _, _ => false)
     | _ => false) = true := by decide +kernel

/-! ## Witnesses: commands of a region, flushes, drains, saves, restores -/

def commanded (code bound : Nat) : State :=
  poked (poked { ringed with wgs := idle.wgs } 0xA000 (bytesOf 1 code ++ List.replicate 7 0 ++ bytesOf 8 bound ++ List.replicate 16 0)) 0xB000 (bytesOf 8 1)
def named (s : State) (p : State → Region → List Byte → Bool) : Bool :=
  match regionFind s 2 with
  | some r => r.command.isNone && (match nextCommand s r with
    | some (s1, _, b, bad) => (match commandTarget s1 r b bad with
      | some q => p s1 q b
      | none => false)
    | none => false)
  | none => false
theorem witness_PreemptionEvents_commands :
    [1, 3, 4].all (fun n => named (commanded n (if n = 1 then 2 ^ 40 else 0)) (fun _ q b => numAt b 0 1 == n && q.id == 2)) = true ∧
    named (commanded 2 0) (fun s1 q b => numAt b 0 1 == 2 && (rereadAll s1 (subtree s1 q.id)).isSome) = true := by decide +kernel
def carrying (code : Nat) : State := modRegion { ringed with wgs := [] } 2 (fun r => { r with command := some { code := code, target := 2, done := 0, record := 0 } })
theorem witness_PreemptionEvents_done :
    [1, 3, 4].all (fun n => (regionFind (carrying n) 2).any (fun r => r.command.any (fun c => c.code == n && nothingResident (carrying n) c.target && listsComplete (carrying n) c.target))) = true := by
  decide +kernel
/-- The workgroup of `ringed`, at a boundary, with what a pre-emption has made of it. -/
def holding (h : HoldKind) (p : Option Preempt) : State :=
  modWg (setSplit { ringed with wgs := idle.wgs } (fun p => { p with boundary := true })) 1 (fun w => { w with hold := h, preempt := p, fields := { w.fields with vcnt := 8, tiles := 0, spad := 0 } })
def preempted (k : PreKind) (reverted : Option Nat) (image : Option (ImagePlace × Nat)) : Option Preempt :=
  some { kind := k, deadline := 0, forRegion := none, reverted := reverted, publish := none, image := image, rerun := true }
theorem witness_PreemptionEvents_discard :
    ((holding .flush none).wgs.any (fun w => w.lost.isNone && w.hold == .flush && heldStill (holding .flush none) w && pathsClear w) = true ∧ (holding .flush none).wgs.length = 1 ∧
      (holding .flush none).copies = []) ∧
    ((modWg base 1 (fun w => { w with stopped := true })).wgs.all (fun w => w.stopped && w.lost.isNone && w.hold != .move && pathsClear w) = true ∧ base.copies = []) := by decide +kernel
def picked (s : State) (f : Workgroup → Preempt → Bool) (g : Workgroup → Preempt → Bool) : Bool :=
  match preemptWhere s f with
  | some (w, p) => g w p
  | none => false
theorem witness_PreemptionEvents_drains :
    (let s := holding .none (preempted .drain none none)
     picked s (fun w p => p.kind == .drain && p.reverted.isNone && p.deadline == timeOf s && imagesFit s (draining s w false)) (fun w _ => w.fields.mset < 2 && w.hold == .none && (wgFind s w.id).isSome)) = true ∧
    (let s := { holding .none (preempted .drain (some 0) none) with now := 2 }
     picked s (fun w p => p.kind == .drain && (match p.reverted with | some t => t < timeOf s | none => false) && imagesFit s (draining s w true)) (fun _ _ => true)) = true := by decide +kernel
def saving (s : State) (placed : Bool) : Bool :=
  match wgFind s 1 with
  | some w => (match w.preempt, presentRel s w.column with
    | some p, some s1 => p.kind == .save && w.hold == .save && p.image.isNone && !w.stopped && heldStill s w && pathsClear w && !haloPushes s1 w.column && (imagePlace s1 w).isSome == placed
    | _, _ => false) && s.copies.isEmpty && s.commands.isEmpty && (dirtyLines s w.column).isEmpty && s.msgs.isEmpty
  | none => false
theorem witness_PreemptionEvents_saves :
    saving (holding .save (preempted .save none none)) true = true ∧
    saving (modRegion (holding .save (preempted .save none none)) 2 (fun r => { r with block := splice r.block 40 (bytesOf 8 0) })) false = true ∧
    (let s := holding .save (preempted .save none (some (.canopy 0, 0)))
     picked s (fun _ p => p.kind == .save && (match p.image with | some (_, t) => t ≤ timeOf s | none => false)) (fun w p => p.image == some (.canopy 0, 0) && (regionFind s w.region).isSome)) = true := by
  decide +kernel
def restored : State :=
  { holding .restore none with images := idle.wgs.map (fun w => { id := 7, wg := w, bytes := 4096, place := .canopy 0, seed := 7, saved := 0, restoring := some 0, bad := false }) }
theorem witness_PreemptionEvents_restores :
    (match restored.images with
     | [i] => i.restoring == some 0 && 0 ≤ timeOf restored && !imageSpoilt restored i && ((wgFind restored i.wg.id).map (fun w => w.preempt)) == some none
     | _ => false) = true := by decide +kernel

/-! ## Witnesses: coherence messages -/

/-- Line 256 in a column's cache, its directory line, and one message about it. -/
def talking (ev cache home : Nat) (dst : Agent) (own : Bool) : State :=
  { idle with
      nextId := 10,
      lines := if cache = 0 then [] else [{ CacheLine.new (.col 0) 256 with state := cache, dirty := if cache = 2 then 1 else 0 }],
      dirs := [{ DirLine.new .home 256 with state := home, owner := if own then some (.col 0) else none, sharers := if own then [] else [.col 0], count := 1, requester := some (.col 1) }],
      msgs := [{ id := 9, event := ev, src := if dst = .home then .col 0 else .home, dst := dst, line := 256, data := List.replicate 128 7, mask := 1, poison := 0, part := none }] }
def taken (i : Instr) (s : State) : Bool :=
  match messageTable i with
  | some (id, ev) => (match msgFind s id with
    | some m => m.event == ev && deliverable s m && pushOrder s m && (deliver hFuel s m).isSome
    | none => false)
  | none => false
theorem witness_CoherenceMessages_home :
    (taken (.gets 9) (talking 4 0 0 .home false) && taken (.getm 9) (talking 5 1 1 .home false) && taken (.putm 9) (talking 6 6 2 .home true) &&
      taken (.ack 9) (talking 12 0 3 .home false) && taken (.wbdata 9) (talking 14 1 4 .home true)) = true := by decide +kernel
theorem witness_CoherenceMessages_cache :
    (taken (.inv 9) (talking 8 1 3 (.col 0) false) && taken (.fwds 9) (talking 9 2 4 (.col 0) true) && taken (.fwdm 9) (talking 10 2 5 (.col 0) true) &&
      taken (.data 9) (talking 11 3 1 (.col 0) false) && taken (.putack 9) (talking 15 6 0 (.col 0) false)) = true := by decide +kernel
def homeTakes (s : State) : Bool :=
  match msgFind s 9 with
  | some m => m.dst == .home && isHomeEvent m.event &&
      (homeStep (dropMsg s 9) .home m.line (if m.event = 6 ∧ (dirAt s .home m.line).owner ≠ some m.src then 7 else m.event) m.src m.data m.mask m.poison).isSome
  | none => false
theorem witness_CoherenceMessages_steps :
    (homeTakes (talking 4 0 0 .home false) && homeTakes (talking 5 1 1 .home false) && homeTakes (talking 6 6 2 .home true) && homeTakes (talking 6 6 1 .home false) &&
      homeTakes (talking 12 0 3 .home false) && homeTakes (talking 14 1 4 .home true)) = true := by decide +kernel
theorem witness_CoherenceMessages_last : ({ idle with dirs := [{ DirLine.new .home 256 with state := 3, lastDue := true }] }.dirs.any (fun d => d.lastDue)) = true := by decide +kernel
theorem witness_CoherenceMessages_push :
    (let s := { talking 16 1 1 (.way 0) false with lines := [{ CacheLine.new (.way 0) 256 with state := 1 }] }
     match msgFind s 9 with
     | some m => m.event == 16 && deliverable s m && pushOrder s m && m.part.isNone && (lineFind s m.dst m.line).map (fun c => c.state) == some 1
     | none => false) = true := by decide +kernel

/-! ## Witnesses: the host -/

def hosted : State := { idle with hostBase := 0x10000 }
theorem witness_HostAccesses : hostPa hosted 0xFFFF 1 = none ∧ hostPa hosted (0x10000 + 0x20000000000) 1 = none ∧ hostPa hosted 0x10000 0 = none ∧
    [0, 0x8000, 0x1FFFFFFFFF8].all (fun pa => hostPa hosted (0x10000 + pa) 8 == some pa && hostKey hosted pa 8 == some 0 && pa % 8 == 0 && !stalledAny hosted pa 8 &&
      !outsideRefused hosted pa 8 && (outsideRead hosted 0 pa 8 0 3).isSome && (outsideWrite hosted 0 pa (bytesOf 8 5) 0 3 []).isSome && (outsideAdd hosted pa 5 0 3).isSome) = true ∧
    hosted.lineKeys = [] ∧ hosted.past = [] ∧ hosted.oddBytes = [] ∧
    hostPa hosted 0x10004 8 = some 4 ∧ hostKey hosted 4 8 = some 0 ∧
    (let s := { hosted with keys := [] }
     hostPa s 0x10000 8 = some 0 ∧ hostKey s 0 8 = none) := by decide +kernel

def asked (s : State) (opc : Nat) (b : List Byte) : State := { s with mailbox := { status := 0, busy := true, len := 0, opc := 0, payload := [], runLen := b.length, runOpc := opc, runPayload := b } }
/-- A command with its payload, and what is to hold of them. -/
def asks (s : State) (opc len : Nat) (b : List Byte) (p : State → Bool) : Bool := (asked s opc b).mailbox.runLen == len && !(asked s opc b).inReset && p (asked s opc b)
theorem asks_spec (s : State) (opc len : Nat) (b : List Byte) (p : State → Bool) (h : asks s opc len b p = true) : Asked (asked s opc b) opc len b ∧ p (asked s opc b) = true := by
  simp only [asks, Bool.and_eq_true, beq_iff_eq, Bool.not_eq_true'] at h
  exact ⟨⟨rfl, rfl, h.1.1, rfl, h.1.2⟩, h.2⟩

/-- The block of `ringed` stands at 0, and no space yet. -/
def unspaced : State := { ringed with spaces := [], regions := [] }
theorem witness_HostPortCommands_activate :
    asks unspaced 0x01 24 (bytesOf 8 0 ++ bytesOf 2 1 ++ bytesOf 6 0 ++ bytesOf 8 loadedRoot) (fun s =>
      loadedRoot % 4096 == 0 && isBacked loadedRoot && Table.find s.spaces 1 == none &&
      (match readBlock { s with spaces := Table.put s.spaces 1 loadedRoot } 1 0 with
       | some (s1, k, false) => numAt k 0 8 == 0 && (regionAt s1 1 0).isNone && !blockInvalid true k && !counterMisplaced s1 1 k && !sharesQueue s1 1 s1.nextId k
       | _ => false)) = true := by decide +kernel
theorem witness_HostPortCommands_faults :
    [0, 1].all (fun n => asks (poked ringed 0xD000 (bytesOf 8 1)) 0x10 24 (bytesOf 8 0xC000 ++ bytesOf 8 0 ++ bytesOf 2 n ++ bytesOf 2 1 ++ bytesOf 4 0) (fun s =>
      match firstWith (fun r => r.space == 1 && r.fq == 0xC000) s.regions with
      | some r => r.answered.isEmpty && (match ringCounter s 1 r.fqctr with
        | some (_, raw, _) => 0 < numOf raw
        | none => false)
      | none => false)) = true := by decide +kernel
theorem witness_HostPortCommands_queues :
    [16, 65536].all (fun n => asks idle 0x11 24 (bytesOf 8 0x100000 ++ bytesOf 4 n ++ bytesOf 2 3 ++ bytesOf 2 0 ++ bytesOf 8 0) (fun _ => isBacked 0x100000 && isBacked 0 && powerUpTo n 65536 && 16 ≤ n)) = true ∧
    ([(0, 0, 0), (15, 7, 16)].all (fun e => asks ringed 0x20 32 (bytesOf 1 e.1 ++ bytesOf 1 e.2.1 ++ bytesOf 1 e.2.2 ++ bytesOf 5 0 ++ bytesOf 8 0 ++ bytesOf 8 0x100000 ++ bytesOf 8 0x40009000) (fun s =>
       canonical 0x100000 && canonical 0x40009000 && (match firstWith (fun r => r.addr.toNat == 0) s.regions with
         | some r => onCtrPage s r.space 0x40009000 && (queueOf s e.1 e.2.1).active.isEmpty
         | none => false)))) = true ∧
    [(0, 0), (15, 7)].all (fun e => asks idle 0x21 8 (bytesOf 1 e.1 ++ bytesOf 1 e.2 ++ bytesOf 6 0) (fun _ => true)) = true := by decide +kernel
theorem witness_HostPortCommands_windows :
    [(0, 0, 0, 0), (31, 0x87, 0xFFF, 1023)].all (fun e => asks idle 0x22 24 (bytesOf 1 e.1 ++ bytesOf 1 e.2.1 ++ bytesOf 2 e.2.2.1 ++ bytesOf 2 e.2.2.2 ++ bytesOf 2 0 ++ bytesOf 8 0x1000 ++ bytesOf 8 0x1000)
      (fun _ => e.2.1 / 8 % 16 == 0 && isHbm 0x1000)) = true ∧
    [(0, 2048, 0), (2047, 1, 1023)].all (fun e => asks idle 0x30 16 (bytesOf 4 e.1 ++ bytesOf 4 e.2.1 ++ bytesOf 2 e.2.2 ++ bytesOf 6 0) (fun _ => e.2.1 ≤ 2048 - e.1)) = true := by decide +kernel

/-! ## Witnesses: Sahong -/

theorem witness_SahongCommands_attest :
    asks idle 0x40 40 (List.replicate 32 1 ++ bytesOf 8 0x100000) (fun s => !destBad 0x100000 && (homeStore s 0x100000 (signed512 (reportBody s (List.replicate 32 1)))).isSome) = true := by decide +kernel
theorem witness_SahongCommands_keys :
    [0, 1023].all (fun d => asks idle 0x41 1576 (bytesOf 2 d ++ bytesOf 6 0 ++ List.replicate 1568 1) (fun _ => true)) = true ∧
    [(0, 0), (1023, 1023)].all (fun e => asks { idle with keys := [], keks := [(0, 5), (1023, 5)] } 0x42 80 (bytesOf 2 e.1 ++ bytesOf 2 e.2 ++ bytesOf 4 0 ++ List.replicate 72 1) (fun s =>
      Table.find s.keys e.1 == none && Table.find s.keks e.2 == some 5)) = true ∧
    asks { idle with regions := [], keks := [(0, 5)] } 0x42 80 (bytesOf 2 0 ++ bytesOf 2 0 ++ bytesOf 4 0 ++ List.replicate 72 1) (fun s => (Table.find s.keys 0).isSome && !slotInUse s 0 && Table.find s.keks 0 == some 5) = true ∧
    [1, 1023].all (fun k => asks idle 0x43 8 (bytesOf 2 k ++ bytesOf 6 0) (fun s => !slotInUse s k)) = true := by decide +kernel
theorem witness_SahongCommands_scrub :
    [(0, []), (1, [(0x200000, 0x200000)])].all (fun (e : Nat × List (Nat × Nat)) =>
      let b := bytesOf 2 5 ++ bytesOf 1 e.1 ++ bytesOf 5 0 ++ List.replicate 32 1 ++ bytesOf 8 0x100000 ++ e.2.flatMap (fun r => bytesOf 8 r.1 ++ bytesOf 8 r.2)
      asks { idle with keys := [(7, { domain := 5, key := 1 })], keks := [(5, 1)] } 0x44 (48 + 16 * numAt b 2 1) b (fun s => !destBad 0x100000 && !(payloadRanges b).any rangeBad &&
        s.regions.all (fun r => domainOf s r != 5) && (scrubDomain s 5 (slice b 8 32) 0x100000 (payloadRanges b)).isSome)) = true := by decide +kernel
theorem witness_SahongCommands_logs :
    [(0, 0, 0), (3, 63, 1)].all (fun e => asks idle 0x48 24 (bytesOf 1 e.1 ++ bytesOf 1 e.2.1 ++ bytesOf 1 e.2.2 ++ bytesOf 5 0 ++ bytesOf 8 0x1000 ++ bytesOf 8 0x1000) (fun _ => isBacked 0x1000)) = true ∧
    [0, 3].all (fun t => asks idle 0x49 32 (bytesOf 1 t ++ bytesOf 7 0 ++ bytesOf 8 0x1000 ++ bytesOf 8 0x1000 ++ bytesOf 8 0x8000) (fun _ => isBacked 0x1000 && isBacked 0x1FFF && isBacked 0x8000)) = true ∧
    [(1, 1), (11, 255)].all (fun e => asks idle 0x60 8 (bytesOf 1 e.1 ++ bytesOf 1 e.2 ++ bytesOf 6 0) (fun _ => true)) = true := by decide +kernel
theorem witness_SahongCommands_events :
    asks (sahong idle 9 0 255 0 0) 0x61 24 (bytesOf 8 0 ++ bytesOf 2 128 ++ bytesOf 6 0 ++ bytesOf 8 0x100000) (fun s =>
      let recs := (s.events.filter (fun e => 0 ≤ numAt e 0 8)).take 128
      !recs.isEmpty && !destBad 0x100000 && (homeStore { s with draw := s.draw + 1 } 0x100000 (signed512 (recs.flatten ++ (bytesOf 2 1 ++ bytesOf 2 recs.length ++ bytesOf 4 0 ++
        bytesOf 8 Config.devId.toNat ++ slice (recs.headD []) 0 8 ++ bytesOf 8 (timeOf s) ++ bytesOf 32 0)))).isSome) = true := by decide +kernel

/-! ## Witnesses: links -/

/-- Link 0 as a test needs it, at tick 70000. -/
def linked (f : Link → Link) : State := modLink { idle with now := 2 * 70000 } 0 f
/-- A slotted flit with a write's acknowledgement, or with a read that no window takes. -/
def slotted (type : Nat) : List Byte := sealFlit (bytesOf 8 0 ++ transaction type 5 3 4 0x1000 0 0 [])
def control (ctype cseq : Nat) : List Byte := sealFlit (bytesOf 1 1 ++ bytesOf 7 0 ++ bytesOf 1 ctype ++ bytesOf 1 cseq)
theorem witness_LinkEvents_slotted :
    [0, 9, 1].all (fun type =>
      let s := linked id
      let flit := if type = 0 then sealFlit [] else slotted type
      (linkOf s 0).up && flitGood flit && numAt flit 0 1 == 0 && (splitSlots 15 (slice flit 8 240)).isSome && numAt flit 1 1 == (linkOf s 0).rxSeq &&
        ((deliverFlit (takeHead s 0 flit) 0 flit).bind (fun s1 => deliverHeld 129 s1 0)).isSome) = true := by decide +kernel
theorem witness_LinkEvents_control :
    [(0, 0), (1, 255), (2, 0), (2, 127), (3, 0)].all (fun e =>
      let flit := control e.1 e.2
      (linkOf (linked id) 0).up && flitGood flit && numAt flit 0 1 == 1 && numAt flit 8 1 == e.1 && (e.1 != 2 || (numAt flit 9 1 + 256 - (linkOf (linked id) 0).rxSeq) % 256 < 128)) = true := by
  decide +kernel
def entry (n : Nat) (lost : Bool) (since : Option Nat) : WindowEntry := { seq := n, flit := bytesOf 8 0, lost := lost, firstSlotlost := since, lastSlotlost := 0 }
theorem witness_LinkEvents_repeats :
    (let s := linked (fun k => { k with nak := some (3, 70000 - 65536, 70000 - 256) })
     retrainDue (linkOf s 0) (timeOf s) && s.links.any (fun e => e.2.up && (match e.2.nak with | some (_, _, last) => last + 256 ≤ timeOf s | none => false))) = true ∧
    (let s := linked (fun k => { k with window := [entry 4 true (some (70000 - 65536))] })
     retrainDue (linkOf s 0) (timeOf s) && s.links.any (fun e => e.2.up && e.2.window.any (fun w => w.firstSlotlost.isSome && w.lastSlotlost + 256 ≤ timeOf s))) = true ∧
    (let s := linked (fun k => { k with window := [entry 4 false none] })
     (linkOf s 0).window.any (fun w => w.seq == 4 && !w.lost)) = true ∧
    (let s := linked (fun k => { k with window := [entry 4 true (some 0)] })
     (firstWith (fun (e : WindowEntry) => e.seq == 4 && e.lost) (linkOf s 0).window).isSome && (linkOf s 0).up) = true ∧
    [0, 1, 2].all (fun n => (linkOf (linked (fun k => { k with retrain := some 0, retrains := n })) 0).retrain.isSome) = true := by decide +kernel
def describing (op : Nat) : List Byte := bytesOf 1 op ++ bytesOf 3 0 ++ bytesOf 4 (if op = 3 then 0 else 4) ++ bytesOf 8 (if op = 3 then 0 else 0x8000) ++ List.replicate 48 0
def belled (op : Nat) (active : List LinkDesc) (ls : List Nat) : State :=
  let s := poked (poked { ringed with now := 0 } 0xE000 (describing op)) 0xF000 (bytesOf 8 1)
  ls.foldl (fun s k => modQueue s k (k / 2) (fun _ => { bound := true, region := 2, ring := 0xE000, size := 1, doorbell := 0x4000F000, next := 0, active := active, halted := false })) s
theorem witness_LinkEvents_start :
    [1, 2, 3].all (fun op => [0, 15].all (fun k => match nextDesc (belled op [] [k]) k (k / 2) with
      | some (_, d) => d.op == op
      | none => false)) = true := by decide +kernel
theorem witness_LinkEvents_issue :
    [1, 2, 3].all (fun op => [0, 15].all (fun k =>
      let d : LinkDesc := { index := 0, bytes := describing op, sent := 0, outstanding := 0, status := 0 }
      let s := belled op [d] [k]
      firstWith (fun d => !d.issued) (queueOf s k (k / 2)).active == some d && d.op == op && (issueDesc s k (k / 2) d).isSome)) = true := by decide +kernel
theorem witness_LinkEvents_finish :
    [0, 2].all (fun status =>
      let d : LinkDesc := { index := 0, bytes := describing 1, sent := 4, outstanding := 0, status := status }
      (queueOf (belled 1 [d] [0]) 0 0).active == [d] && d.finished) = true := by decide +kernel

/-! ## Witnesses: errors -/

def unitOf (code : Nat) : RepairUnit := { code := code, tower := 0, index := 0 }
def counted (code n : Nat) (till : Option Nat) : State :=
  { idle with now := 2 * 9, repairs := [{ unit := unitOf code, times := List.replicate n 0, sparing := till, lasting := till.isSome }] }
theorem witness_ErrorEvents_units : (List.range 12).all (fun c => unitOk (unitOf c) == (1 ≤ c)) = true ∧ unitOk { code := 1, tower := 255, index := 0 } = true ∧
    (counted 1 8 none).repairs.all (fun r => !r.lasting && threshOf (counted 1 8 none) r.unit.code ≤ r.times.length) = true ∧
    (counted 1 8 none).repairs.length = 1 ∧ 0 < spareRows 1 ∧ (counted 1 8 none).spares = [] ∧
    (counted 1 8 (some 9)).repairs.all (fun r => r.sparing == some 9 && 9 ≤ timeOf (counted 1 8 (some 9))) = true := by decide +kernel
theorem witness_ErrorEvents_workgroups : ((wgFind idle 1).map (fun w => w.stopped) = some false) ∧
    (let s := modWg idle 1 (fun w => { w with lost := some 5, stopped := true })
     s.wgs.all (fun w => w.lost == some 5 && wgDrained s w) && s.wgs.length == 1 && s.copies.isEmpty) = true ∧ idle.booted = true ∧ idle.inReset = false := by decide +kernel
def logging : State := modTower { idle with now := 2 ^ 21 } 3 (fun t => { t with logArea := some (0x100000, 4096, 0x200000), logWaiting := [{ interval := 0, merged := 0, counts := [] }] })
theorem witness_ErrorEvents_logs : logging.booted = true ∧ logging.inReset = false ∧ (List.range 4).all (fun k => (towerOf logging k).logInterval < timeOf logging / 2 ^ 20) = true ∧
    (List.range 3).all (fun n => (towerOf logging n).logWaiting.isEmpty) = true ∧
    (match (towerOf logging 3).logWaiting with
     | b :: _ => (writeBatch logging 3 b).isSome
     | [] => false) = true := by decide +kernel

/-! ## Witnesses: the package -/

def phased (p : ClockPhase) : State := modColumn idle 191 (fun k => { k with phase := p, left := 0 })
def heated (code : Nat) (since : Option Nat) : State := { modCore idle 767 (fun k => { k with sensors := [BitVec.ofNat 10 code], overSince := since }) with now := 2 * 1000 }
theorem witness_PackageEvents_clock : idle.timeFree = false ∧ { idle with timeFree := true }.timeFree = true ∧
    (columnOf (phased .stretched) 191).phase = .stretched ∧ (columnOf (phased .stretched) 191).left = 0 ∧ (columnOf (phased .halved) 191).phase = .halved ∧
    (columnOf (phased .halved) 191).left = 0 ∧
    ((columnOf idle 191).drEn = true ∧ 331999 < 300000 + 4000 * (columnOf idle 191).drTh.toNat ∧ 300000 + 4000 * (columnOf idle 191).drTh.toNat ≤ 332000 ∧
      (columnOf idle 191).phase ≠ .stretched ∧ (columnOf idle 191).alarm = false) := by decide +kernel
theorem witness_PackageEvents_heat :
    (heated 420 (some 0)).cores.any (fun e => e.2.overSince == some 0 && 0 + 1000 ≤ timeOf (heated 420 (some 0)) && !(columnOf (heated 420 (some 0)) (e.1 / 4)).overheat) = true ∧
    (let s := modColumn (heated 399 none) 191 (fun k => { k with overheat := true })
     s.columns.any (fun e => e.2.overheat && (coresOf e.1).all (fun n => (coreOf s n).reading < 400))) = true ∧
    ((heated 480 none).cores.any (fun e => 480 ≤ e.2.reading) = true ∧ (heated 480 none).inReset = false) ∧
    (let s := { idle with now := 2 * 16000000 }
     (towerOf s 3).refreshed + refreshPeriod s 3 ≤ timeOf s) := by decide +kernel
theorem witness_PackageEvents_debugger : idle.debugger = false ∧ (after idle (.debuggerAccess .attach)).debugger = true := by decide +kernel

/-! ## Results from the worked examples of the manual -/

/-- Register v`n`, lane `l`, and scalar `n`, of the split at slot 0 after an instruction. -/
def vAfter (s : State) (i : Instr) (n l : Nat) : Option Word := (ctxOf (after s i) me).map (fun c => lane (Table.get c.g.vregs n []) l)
def sAfter (s : State) (i : Instr) (n : Nat) : Option Word := (ctxOf (after s i) me).map (fun c => Table.get c.p.scalars n 0)
def pcAfter (s : State) (i : Instr) : Option DWord := (ctxOf (after s i) me).map (fun c => c.p.pc)

/-- R61, its example of element-by-element addition with and without saturation. -/
theorem test_vadd_saturates : vAfter (setV (setV (setMode base (6 + 1024)) 2 0x0180FF7F) 3 0x01010101) (.vadd { v3 with d := 4, a := 2, b := 3 }) 4 0 = some 0x0281007F ∧
    vAfter (setV (setV (setMode base 6) 2 0x0180FF7F) 3 0x01010101) (.vadd { v3 with d := 4, a := 2, b := 3 }) 4 95 = some 0x02810080 := by decide +kernel
/-- R67, its example of the two flushes. -/
theorem test_fmul_flushes : vAfter (setV (setV (setMode base 8) 2 0x00800000) 3 0x3F400000) (.fmul { v3 with d := 4, a := 2, b := 3 }) 4 0 = some 0x00600000 ∧
    vAfter (setV (setV (setMode base (8 + 2048)) 2 0x00800000) 3 0x3F400000) (.fmul { v3 with d := 4, a := 2, b := 3 }) 4 0 = some 0 ∧
    vAfter (setV (setV (setMode base (8 + 2048)) 2 0x00600000) 3 0x40000000) (.fmul { v3 with d := 4, a := 2, b := 3 }) 4 0 = some 0 := by decide +kernel
/-- R159, the example of packing. -/
theorem test_vpack : vAfter (setV (setV (setMode base (6 + 1024)) 2 0x0190FF80) 3 0x80000041) (.vpack { v2 with d := 5, a := 2, b := 3 }) 5 0 = some 0x80417F80 ∧
    vAfter (setV (setV (setMode base 6) 2 0x0190FF80) 3 0x80000041) (.vpack { v2 with d := 5, a := 2, b := 3 }) 5 0 = some 0x00419080 := by decide +kernel
/-- R160, the example of unpacking. -/
theorem test_vunpk : vAfter (setV (setMode base 4) 5 0x80417F80) (.vunpk { v2 with d := 6, a := 5, imm := 1 }) 6 0 = some 0xFF800041 ∧
    vAfter (setV (setMode base 4) 5 0x80417F80) (.vunpk { v2 with d := 6, a := 5, imm := 3 }) 6 0 = some 0x00800041 := by decide +kernel
/-- R169: fmin orders −0 below +0 and passes by a NaN. -/
theorem test_fmin : vAfter (setV (setMode base 8) 2 0x80000000) (.fmin { v3 with d := 4, a := 3, b := 2 }) 4 0 = some 0x80000000 ∧
    vAfter (setV (setV (setMode base 8) 2 0x7FC00000) 3 0x40400000) (.fmax { v3 with d := 4, a := 2, b := 3 }) 4 0 = some 0x40400000 := by decide +kernel
/-- R125: a sum wraps; a write to s0 is discarded. -/
theorem test_scalar_corners : sAfter (setS base 5 0xFFFFFFFF) (.sadd { s0 with sd := 5, sa := 5, imm := 2 }) 5 = some 1 ∧
    sAfter base (.sadd { s0 with sd := 0, sa := 5, imm := 2 }) 0 = some 0 := by decide +kernel
/-- R135: the loop's body starts after it, ends at 0x120, and it counts 3. -/
theorem test_loop : pcAfter (setSplit base (fun p => { p with pc := 0x100 })) (.loop { b0 with aux := 3, offset := 3 }) = some 0x108 ∧
    (ctxOf (after (setSplit base (fun p => { p with pc := 0x100 })) (.loop { b0 with aux := 3, offset := 3 })) me).map (fun c => c.p.loops) =
      some [{ count := 3, start := 0x108, last := 0x120 }] := by decide +kernel
/-- R136, R137: the loop example's rows 4 and 7. -/
theorem test_loop_ends : loopUpdate [{ count := 2, start := 0x118, last := 0x120 }, { count := 3, start := 0x108, last := 0x120 }] 0x120 =
      ([{ count := 1, start := 0x118, last := 0x120 }, { count := 3, start := 0x108, last := 0x120 }], 0x118) ∧
    loopUpdate [{ count := 1, start := 0x118, last := 0x120 }, { count := 3, start := 0x108, last := 0x120 }] 0x120 =
      ([{ count := 2, start := 0x108, last := 0x120 }], 0x108) := by decide +kernel
/-- R65: the manual's roundings to fp16, nearest even and toward zero. -/
theorem test_rounding : (fpOf 10).write false 0 (.fin false 2049 1) = 0x6800 ∧ (fpOf 10).write false 0 (.fin false 2051 1) = 0x6802 ∧
    (fpOf 10).write false 1 (.fin false 2051 1) = 0x6801 ∧ (fpOf 10).write false 0 (.fin false 65519 1) = 0x7BFF ∧ (fpOf 10).write false 0 (.fin false 65520 1) = 0x7C00 ∧
    (fpOf 10).write false 1 (.fin false 65520 1) = 0x7BFF ∧ (fpOf 10).write false 2 (.fin false 65505 1) = 0x7C00 ∧ (fpOf 10).write false 2 (.fin true 65505 1) = 0xFBFF := by decide +kernel

end Sys2Proof.Tests
end

/-! ## Lines that a column holds: what a store leaves, and writes at the home -/

namespace Sys2Proof.Machine

/-- The line record for an agent and a line number is one of theirs. -/
theorem lineAt_key (s : State) (ag : Agent) (l : Nat) : (lineAt s ag l).agent = ag ∧ (lineAt s ag l).line = l := by
  unfold lineAt
  cases h : lineFind s ag l with
  | none => exact ⟨rfl, rfl⟩
  | some c => simpa using (firstWith_mem h).2

theorem lineAt_of_find {s : State} {ag : Agent} {l : Nat} {c : CacheLine} (h : lineFind s ag l = some c) : lineAt s ag l = c := by simp [lineAt, h]

theorem lineFind_congr {s t : State} (h : t.lines = s.lines) (ag : Agent) (l : Nat) : lineFind t ag l = lineFind s ag l := by simp [lineFind, h]

@[simp] theorem noteKey_mem (s : State) (l : Nat) (m : BitVec 128) (k : Option Nat) : (noteKey s l m k).mem = s.mem := by cases k <;> rfl
@[simp] theorem noteKey_lines (s : State) (l : Nat) (m : BitVec 128) (k : Option Nat) : (noteKey s l m k).lines = s.lines := by cases k <;> rfl
@[simp] theorem clearReservations_mem (s : State) (l : Nat) : (clearReservations s l).mem = s.mem := rfl
@[simp] theorem clearReservations_lines (s : State) (l : Nat) : (clearReservations s l).lines = s.lines := rfl

@[simp] theorem putLine_mem (s : State) (c : CacheLine) : (putLine s c).mem = s.mem := by
  unfold putLine; split
  · rfl
  · split <;> rfl

/-- A line in state 0 is no line: it is not found once it is put. -/
theorem lineFind_putLine_gone (s : State) (c : CacheLine) (h : c.state = 0) : lineFind (putLine s c) c.agent c.line = none := by
  rw [putLine, if_pos h]
  cases hf : lineFind (dropLine s c.agent c.line) c.agent c.line with
  | none => rfl
  | some d =>
    obtain ⟨hm, hd⟩ := firstWith_mem hf
    have hk : (!(d.agent == c.agent && d.line == c.line)) = true := (List.mem_filter.mp hm).2
    rw [hd] at hk
    cases hk

/-- A line that its agent holds is replaced by the one that is put. -/
theorem lineFind_putLine_held {s : State} {c d : CacheLine} (h : lineFind s c.agent c.line = some d) (hs : c.state ≠ 0) :
    lineFind (putLine s c) c.agent c.line = some c := by
  rw [putLine, if_neg hs, if_pos (by simp [h])]
  refine (firstWith_map _ s.lines _ ?_).trans ?_
  · intro e
    split
    · next he => simp [he]
    · rfl
  · rw [show firstWith _ s.lines = some d from h, Option.map_some, if_pos (firstWith_mem h).2]

/-- The line record that a store leaves. -/
def storedLine (s : State) (t : Target) (bs : List Byte) (state : Nat) : CacheLine :=
  let c := lineAt s (.col t.col) t.line
  { c with data := splice c.data t.off bs, dirty := c.dirty ||| byteMask t.off t.size, used := s.draw, state := state }

/-- After a store, the line is looked up as it is where the new record is put. -/
theorem lineFind_storeInLine (s : State) (t : Target) (bs : List Byte) (state : Nat) (ag : Agent) (l : Nat) :
    lineFind (storeInLine s t bs state) ag l = lineFind (putLine s (storedLine s t bs state)) ag l :=
  lineFind_congr ((noteKey_lines _ _ _ _).trans (clearReservations_lines _ _)) ag l

/-- A store that leaves its line in state 0 leaves the column no line. -/
theorem lineFind_storeInLine_gone (s : State) (t : Target) (bs : List Byte) : lineFind (storeInLine s t bs 0) (.col t.col) t.line = none := by
  obtain ⟨ha, hl⟩ := lineAt_key s (.col t.col) t.line
  have h := lineFind_putLine_gone s (storedLine s t bs 0) rfl
  rw [show (storedLine s t bs 0).agent = .col t.col from ha, show (storedLine s t bs 0).line = t.line from hl] at h
  exact (lineFind_storeInLine s t bs 0 _ _).trans h

/-- A store in a line that stays valid leaves the new record in its place. -/
theorem lineFind_storeInLine_held {s : State} {t : Target} {c : CacheLine} (bs : List Byte) {state : Nat} (h : lineFind s (.col t.col) t.line = some c)
    (hs : state ≠ 0) : lineFind (storeInLine s t bs state) (.col t.col) t.line = some (storedLine s t bs state) := by
  obtain ⟨ha, hl⟩ := lineAt_key s (.col t.col) t.line
  have hk : (storedLine s t bs state).agent = .col t.col ∧ (storedLine s t bs state).line = t.line := ⟨ha, hl⟩
  have e := lineFind_putLine_held (c := storedLine s t bs state) (by rw [hk.1, hk.2]; exact h) hs
  rw [hk.1, hk.2] at e
  exact (lineFind_storeInLine s t bs state _ _).trans e

/-! ### Bytes put into a string -/

theorem getD_splice_inside (bs new : List Byte) (k i : Nat) (hk : k ≤ bs.length) (hi : i < new.length) : (splice bs k new).getD (k + i) 0 = new.getD i 0 := by
  have e : (bs.take k).length = k := by simp [hk]
  rw [splice, List.append_assoc, List.getD_append_right _ _ _ _ (by omega), e, Nat.add_sub_cancel_left, List.getD_append _ _ _ _ hi]

theorem getD_splice_outside (bs new : List Byte) (k i : Nat) (hk : k ≤ bs.length) (hi : i < k ∨ k + new.length ≤ i) :
    (splice bs k new).getD i 0 = bs.getD i 0 := by
  have e : (bs.take k).length = k := by simp [hk]
  rw [splice, List.append_assoc]
  rcases hi with hi | hi
  · rw [List.getD_append _ _ _ _ (by omega)]
    simp [List.getD, hi]
  · rw [List.getD_append_right _ _ _ _ (by omega), List.getD_append_right _ _ _ _ (by omega), e]
    simp only [List.getD, List.getElem?_drop]
    congr 2
    omega

/-- The bytes put are the ones read back. -/
theorem slice_splice (bs new : List Byte) (k : Nat) (hk : k ≤ bs.length) : slice (splice bs k new) k new.length = new := by
  apply List.ext_getElem
  · simp [slice]
  · intro i h1 h2
    simpa [slice, List.getD, h2] using getD_splice_inside bs new k i hk h2

theorem getLsbD_byteMask (k n i : Nat) (hi : i < 128) : (byteMask k n).getLsbD i = (decide (k ≤ i) && decide (i < k + n)) := by
  rw [byteMask, BitVec.getLsbD_ofNat, Nat.testBit_mul_two_pow, Nat.testBit_two_pow_sub_one]
  by_cases h : k ≤ i
  · simp [h, hi]; omega
  · simp [h]

/-! ### Writes at the home -/

@[simp] theorem mergeCopy_mem (s : State) (ag : Agent) (l : Nat) (m : BitVec 128) (data : List Byte) : (mergeCopy s ag l m data).mem = s.mem := by
  unfold mergeCopy; split
  · split
    · exact putLine_mem _ _
    · rfl
  · rfl

@[simp] theorem lessPushing_mem (s : State) (part : Option (Nat × Nat)) : (lessPushing s part).mem = s.mem := by
  unfold lessPushing; split <;> rfl

/-- The pushes of UPDATE change copies and messages, not the home's memory. -/
@[simp] theorem pushNow_mem (s : State) (targets : List Agent) (l : Nat) (data : List Byte) (m : BitVec 128) : (pushNow s targets l data m).mem = s.mem := by
  unfold pushNow
  extract_lets due s1 s2
  have h1 : s1.mem = s.mem :=
    List.foldlRecOn (motive := fun u : State => u.mem = s.mem) due _ rfl (fun u hu m _ => by simpa [dropMsg] using hu)
  exact List.foldlRecOn (motive := fun u : State => u.mem = s.mem) targets _ h1 (fun u hu _ _ => (mergeCopy_mem u _ _ _ _).trans hu)

theorem homeWrite_mem (s : State) (a : Nat) (bs : List Byte) (key : Option Nat) : (homeWrite s a bs key).mem = Memory.writeN s.mem a bs := by
  have h0 : (homePut s a bs).mem = Memory.writeN s.mem a bs := by unfold homePut noteFormer; split <;> rfl
  refine List.foldlRecOn (motive := fun u : State => u.mem = Memory.writeN s.mem a bs) _ _ h0 (fun u hu l _ => ?_)
  dsimp only
  split <;> simpa using hu

/-- R5, R391: a write at the home puts its bytes at consecutive addresses and changes no other. -/
theorem read_homeWrite (s : State) (a : Nat) (bs : List Byte) (key : Option Nat) (b : Nat) :
    Memory.read (homeWrite s a bs key).mem b = if a ≤ b ∧ b < a + bs.length then bs.getD (b - a) 0 else Memory.read s.mem b := by
  rw [homeWrite_mem, Memory.read_writeN]

/-- R191, R385, R386: what O37 says of a column's store holds of every store that leaves its line in a valid state: the stored bytes are read back and
dirty, and the line's other bytes, their marks, and home memory stay. -/
theorem storeInLine_reads_back {s : State} {t : Target} {bs : List Byte} {st : Nat} {c : CacheLine} (h : lineFind s (.col t.col) t.line = some c)
    (hlen : c.data.length = 128) (hfit : t.off + bs.length ≤ 128) (hsize : t.size = bs.length) (hst : st ≠ 0) :
    ∃ d, lineFind (storeInLine s t bs st) (.col t.col) t.line = some d ∧ slice d.data t.off t.size = bs ∧ d.state = st ∧
      (∀ k, k < 128 → d.dirty.getLsbD k = (c.dirty.getLsbD k || (t.off ≤ k && k < t.off + bs.length))) ∧
      (∀ k, k < t.off ∨ t.off + bs.length ≤ k → d.data.getD k 0 = c.data.getD k 0) ∧
      (∀ a, Memory.read (storeInLine s t bs st).mem a = Memory.read s.mem a) := by
  have hoff : t.off ≤ c.data.length := by omega
  have hdata : (storedLine s t bs st).data = splice c.data t.off bs := by simp [storedLine, lineAt_of_find h]
  have hdirty : (storedLine s t bs st).dirty = c.dirty ||| byteMask t.off bs.length := by simp [storedLine, lineAt_of_find h, hsize]
  refine ⟨storedLine s t bs st, lineFind_storeInLine_held bs h hst, ?_, rfl, fun k hk => ?_, fun k hk => ?_, fun a => by simp [storeInLine]⟩
  · rw [hdata, hsize]; exact slice_splice c.data bs t.off hoff
  · rw [hdirty, BitVec.getLsbD_or, getLsbD_byteMask _ _ _ hk]
  · rw [hdata]; exact getD_splice_outside c.data bs t.off k hoff hk

/-! ### The store that leaves no line -/

/-- Column 0 holds line 0 as its owner. -/
def holdsLineZero : State := { State.reset with lines := [{ CacheLine.new (.col 0) 0 with state := 3 }] }

/-- The first byte of line 0, for column 0. -/
def firstByteOfLineZero : Target := { col := 0, line := 0, off := 0, size := 1, key := 0, home := 0, va := 0, space := 0 }

/-- Refutes O37: the statement lets the store leave its line in any state, and a line left in state 0 is dropped (`putLine`), so that column 0, which
stores one byte in the line it holds and leaves it in state 0, holds no line afterwards. The clause on home memory holds (`read_homeWrite`), and so does
the clause on a column's line when the state left is not 0 (`storeInLine_reads_back`). -/
theorem not_storedBytesAreRead : ¬ Obligations.StoredBytesAreRead := by
  rintro ⟨-, hcolumn⟩
  obtain ⟨d, hd, -⟩ := hcolumn holdsLineZero firstByteOfLineZero [1] 0 _ rfl rfl (by decide) rfl
  rw [lineFind_storeInLine_gone] at hd
  cases hd

end Sys2Proof.Machine

/-! ## System registers: the words that write them, and a capture that is abandoned -/

namespace Sys2Proof.Machine

/-! ### Bits of a word read as a number -/

/-- A field of a word that is zero is zero in the number. -/
theorem div_mod_eq_zero_of_extract {w v k n : Nat} (hv : v < 2 ^ w) (h : (BitVec.ofNat w v).extractLsb' k n = 0) : v / 2 ^ k % 2 ^ n = 0 := by
  have e := congrArg BitVec.toNat h
  simpa [BitVec.extractLsb'_toNat, Nat.shiftRight_eq_div_pow, Nat.mod_eq_of_lt hv] using e

theorem div_eq_zero_of_shift {w v k : Nat} (hv : v < 2 ^ w) (h : (BitVec.ofNat w v) >>> k = 0) : v / 2 ^ k = 0 := by
  have e := congrArg BitVec.toNat h
  rw [BitVec.toNat_ushiftRight, BitVec.toNat_ofNat, Nat.mod_eq_of_lt hv, Nat.shiftRight_eq_div_pow] at e
  exact e

theorem getLsbD_ofNat_eq {w v k : Nat} (hk : k < w) : (BitVec.ofNat w v).getLsbD k = (v / 2 ^ k % 2 == 1) := by
  rw [BitVec.getLsbD_ofNat, Nat.testBit_eq_decide_div_mod_eq]
  simp only [hk, decide_true, Bool.true_and]
  rfl

/-- The top bit of a 32-bit number. -/
theorem getLsbD_top {v : Nat} (hv : v < 2 ^ 32) : (BitVec.ofNat 32 v).getLsbD 31 = (v / 2 ^ 31 == 1) := by
  rw [getLsbD_ofNat_eq (by decide), Nat.mod_eq_of_lt (show v / 2 ^ 31 < 2 by omega)]

/-- The low field of a word is the number in fewer bits. -/
theorem extract_ofNat_low {w n v : Nat} (h : n ≤ w) : (BitVec.ofNat w v).extractLsb' 0 n = BitVec.ofNat n v := by
  apply BitVec.eq_of_toNat_eq
  simp [BitVec.extractLsb'_toNat, Nat.mod_mod_of_dvd _ (Nat.pow_dvd_pow 2 h)]

/-! ### The context after a change of its split, or of the device around it -/

/-- The context reads the workgroups, the regions, the cores and the draw. -/
theorem ctxOf_congr {s t : State} (hw : t.wgs = s.wgs) (hr : t.regions = s.regions) (hk : t.cores = s.cores) (hd : t.draw = s.draw) (x : SplitId) :
    ctxOf t x = ctxOf s x := by
  simp [ctxOf, wgFind, regionFind, coreOf, hw, hr, hk, hd]

/-- The device `u` has the split of `c` at the same place in the program, in the same column, with the same results open. -/
def SamePlace (u : State) (c : Ctx) : Prop :=
  ∃ d, ctxOf u c.x = some d ∧ d.w.column = c.w.column ∧ d.p.pc = c.p.pc ∧ d.p.loops = c.p.loops ∧ d.p.await = c.p.await

theorem samePlace_of_ctx {u : State} {c : Ctx} (h : ctxOf u c.x = some c) : SamePlace u c := ⟨c, h, rfl, rfl, rfl, rfl⟩

theorem samePlace_modSplit {s : State} {c : Ctx} (hc : ctxOf s c.x = some c) (f : Split → Split)
    (hf : (f c.p).pc = c.p.pc ∧ (f c.p).loops = c.p.loops ∧ (f c.p).await = c.p.await) : SamePlace (modSplit s c.x f) c := by
  obtain ⟨-, hw, hg, hr, hp, hk, hd⟩ := (ctxOf_iff s c.x c).mp hc
  let g : Group := { c.g with splits := modAt c.g.splits c.x.slot f }
  let w : Workgroup := { c.w with groups := modAt c.w.groups c.x.grp (fun g => { g with splits := modAt g.splits c.x.slot f }) }
  refine ⟨{ c with w := w, g := g, p := f c.p }, (ctxOf_iff _ _ _).mpr ⟨rfl, ?_, ?_, hr, ?_, hk, hd⟩, rfl, hf⟩
  · rw [modSplit, wgFind_modGroup, if_pos (by rfl), hw]; rfl
  · simp [w, g, getElem?_modAt, hg]
  · simp [g, getElem?_modAt, hp]

/-- A word that has changed the device, but not its own place, issues: nothing else changes. -/
theorem ran_settle {u : State} {c : Ctx} (h : SamePlace u c) (mark : Bool) : Ran u (settle u c mark .next) c [] [] := by
  obtain ⟨d, hd, hcol, hpc, hloops, hawait⟩ := h
  have hx : d.x = c.x := ctxOf_x hd
  have e : settle u d mark .next = settle u c mark .next := by simp only [settle, hx, hcol, hpc]
  have h1 := ranTo_settle (c := d) (hx ▸ hd) (Wrote.refl u d.x []) mark .next
  rw [e] at h1
  simpa only [Ran, RanTo, goesTo, hx, hpc, hloops, hawait] using h1

/-! ### The form of a `wrsys` -/

/-- The value that a `wrsys` writes, and its low 32 and 64 bits. -/
abbrev Ctx.value (c : Ctx) (f : SF) : Nat := c.scalar f.pair f.sa.toNat
abbrev Ctx.word32 (c : Ctx) (f : SF) : BitVec 32 := BitVec.ofNat 32 (c.value f)
abbrev Ctx.word64 (c : Ctx) (f : SF) : BitVec 64 := BitVec.ofNat 64 (c.value f)

/-- A `wrsys` in the mode that it needs, with its reserved bits clear, does what its register says. -/
theorem writeSys_next {s : State} {c : Ctx} {i : Instr} (h : Issues s c i) (f : SF) (body : State → Ctx → Nat → State)
    (hp : privOk c (sysPriv f.imm.toNat) = true) (hv : sysReserved f.imm.toNat (c.value f) = false) :
    writeSys i f s body = .next (settle (body s c (c.value f)) c f.mark .next) := by
  unfold writeSys
  rw [runWord_next h _ _ rfl hp rfl (roomFor_none c) (by simp [sForm])]
  simp [hv, finish, sForm]

/-- A `wrsys` with a reserved bit set is illegal (R8, R105). -/
theorem writeSys_reserved {s : State} {c : Ctx} {i : Instr} (h : Issues s c i) (f : SF) (body : State → Ctx → Nat → State)
    (hp : privOk c (sysPriv f.imm.toNat) = true) (hv : sysReserved f.imm.toNat (c.value f) = true) :
    writeSys i f s body = .next (preciseTrap s c 1 0 127 (wordOf i)) := by
  unfold writeSys
  rw [runWord_next h _ _ rfl hp rfl (roomFor_none c) (by simp [sForm])]
  simp [hv, finish, Act.illegal]

/-- A `wrsys` whose effect is the device `u`, which leaves the split where it is: nothing but that effect has happened. -/
theorem writeSys_ran {s : State} {c : Ctx} {i : Instr} (h : Issues s c i) (f : SF) (body : State → Ctx → Nat → State)
    (hp : privOk c (sysPriv f.imm.toNat) = true) (hv : sysReserved f.imm.toNat (c.value f) = false)
    {u : State} (hu : body s c (c.value f) = u) (hplace : SamePlace u c) :
    ∃ t, writeSys i f s body = .next t ∧ Ran u t c [] [] :=
  ⟨_, writeSys_next h f body hp hv, hu ▸ ran_settle (hu ▸ hplace) f.mark⟩

/-- A `wrsys` that changes a field of its own split. -/
theorem writeSys_split {s : State} {c : Ctx} {i : Instr} (h : Issues s c i) (f : SF) (body : State → Ctx → Nat → State)
    (hp : privOk c (sysPriv f.imm.toNat) = true) (hv : sysReserved f.imm.toNat (c.value f) = false) (g : Split → Split)
    (hg : (g c.p).pc = c.p.pc ∧ (g c.p).loops = c.p.loops ∧ (g c.p).await = c.p.await)
    (hu : body s c (c.value f) = modSplit s c.x g) : ∃ t, writeSys i f s body = .next t ∧ Ran (modSplit s c.x g) t c [] [] :=
  writeSys_ran h f body hp hv hu (samePlace_modSplit (issuing_some h.1).2 g hg)

/-- A `wrsys` that changes the device around its split: no workgroup, region or core. -/
theorem writeSys_around {s : State} {c : Ctx} {i : Instr} (h : Issues s c i) (f : SF) (body : State → Ctx → Nat → State)
    (hp : privOk c (sysPriv f.imm.toNat) = true) (hv : sysReserved f.imm.toNat (c.value f) = false) {u : State}
    (hu : body s c (c.value f) = u) (hw : u.wgs = s.wgs) (hr : u.regions = s.regions) (hk : u.cores = s.cores) (hd : u.draw = s.draw) :
    ∃ t, writeSys i f s body = .next t ∧ Ran u t c [] [] :=
  writeSys_ran h f body hp hv hu (samePlace_of_ctx ((ctxOf_congr hw hr hk hd c.x).trans (issuing_some h.1).2))

/-- The registers that are written in supervisor mode (R59). -/
abbrev superRegisters : List Nat := [0x010, 0x011, 0x012, 0x040, 0x041, 0x042, 0x050, 0x060]

theorem privOk_sysPriv_super {c : Ctx} {n : Nat} (hn : n ∈ superRegisters) (hs : c.super = true) : privOk c (sysPriv n) = true := by
  have e : sysPriv n = .super := by revert n; decide
  rw [e]; exact hs

/-- IS44 to IS59 are written in handler mode, and have no reserved bit. -/
theorem privOk_sysPriv_interrupted {c : Ctx} {n : Nat} (hn : isInterrupted n = true) (hh : c.handler = true) : privOk c (sysPriv n) = true := by
  have hne : ¬ (n = 0x001 ∨ n = 0x031) := by rintro (rfl | rfl) <;> cases hn
  rw [sysPriv, if_neg hne, if_pos hn]; exact hh

theorem sysReserved_interrupted {n : Nat} (v : Nat) (hn : 0x020 ≤ n ∧ n ≤ 0x02F) : sysReserved n v = false := by
  unfold sysReserved
  iterate 8 rw [if_neg (by omega)]

/-! ### Each register of `wrsys` -/

theorem exec_wrsys (f : SF) (s : State) : exec (.wrsys f) s = execWrsys f s := rfl
theorem exec_rwayfWrite (f : SF) (s : State) : exec (.rwayfWrite f) s = execRwayfWrite f s := rfl
theorem exec_timestatWrite (f : SF) (s : State) : exec (.timestatWrite f) s = execTimestatWrite f s := rfl
theorem exec_thRegisterWrite (f : SF) (s : State) : exec (.thRegisterWrite f) s = execThRegisterWrite f s := rfl

section
variable {s : State} {c : Ctx} {f : SF}

/-- R36: XBND. -/
theorem wrsys_xbnd (h : Issues s c (.wrsys f)) (hi : f.imm = 0x001) (hv : c.value f < 2 ^ 32)
    (hhigh : (c.word32 f) >>> 15 = 0) (hbit : (c.word32 f).getLsbD 7 = false) :
    ∃ t, exec (.wrsys f) s = .next t ∧ Ran (modSplit s c.x (fun p => { p with xbnd := c.word32 f })) t c [] [] := by
  have hn : f.imm.toNat = 0x001 := congrArg BitVec.toNat hi
  rw [exec_wrsys, execWrsys]
  have h15 := div_eq_zero_of_shift hv hhigh
  rw [getLsbD_ofNat_eq (by decide)] at hbit
  refine writeSys_split h f _ (by simp [hn, sysPriv, privOk]) ?_ _ ⟨rfl, rfl, rfl⟩ (by simp [hn])
  simp only [hn, sysReserved, xbndBad, if_true, h15]
  simpa using hbit

/-- R243, R245: the trap registers. -/
theorem wrsys_trapCause (h : Issues s c (.wrsys f)) (hs : c.super = true) (hi : f.imm = 0x010) (hv : c.value f < 2 ^ 32)
    (hres : (c.word32 f).extractLsb' 16 8 = 0) :
    ∃ t, exec (.wrsys f) s = .next t ∧ Ran (modSplit s c.x (fun p => { p with trapCause := c.word32 f })) t c [] [] := by
  have hn : f.imm.toNat = 0x010 := congrArg BitVec.toNat hi
  rw [exec_wrsys, execWrsys]
  exact writeSys_split h f _ (privOk_sysPriv_super (by simp [hn]) hs) (by simpa [hn, sysReserved] using div_mod_eq_zero_of_extract hv hres) _
    ⟨rfl, rfl, rfl⟩ (by simp [hn])

theorem wrsys_trapPc (h : Issues s c (.wrsys f)) (hs : c.super = true) (hi : f.imm = 0x011) (hv : c.value f < 2 ^ 64)
    (hres : (c.word64 f).extractLsb' 0 3 = 0) :
    ∃ t, exec (.wrsys f) s = .next t ∧ Ran (modSplit s c.x (fun p => { p with trapPc := c.word64 f })) t c [] [] := by
  have hn : f.imm.toNat = 0x011 := congrArg BitVec.toNat hi
  rw [exec_wrsys, execWrsys]
  exact writeSys_split h f _ (privOk_sysPriv_super (by simp [hn]) hs) (by simpa [hn, sysReserved] using div_mod_eq_zero_of_extract hv hres) _
    ⟨rfl, rfl, rfl⟩ (by simp [hn])

theorem wrsys_trapVal (h : Issues s c (.wrsys f)) (hs : c.super = true) (hi : f.imm = 0x012) :
    ∃ t, exec (.wrsys f) s = .next t ∧ Ran (modSplit s c.x (fun p => { p with trapVal := c.word64 f })) t c [] [] := by
  have hn : f.imm.toNat = 0x012 := congrArg BitVec.toNat hi
  rw [exec_wrsys, execWrsys]
  exact writeSys_split h f _ (privOk_sysPriv_super (by simp [hn]) hs) (by simp [hn, sysReserved]) _ ⟨rfl, rfl, rfl⟩ (by simp [hn])

/-- R249: a handler writes the interrupted split's own scalar. -/
theorem wrsys_interrupted (h : Issues s c (.wrsys f)) (hh : c.handler = true) (hlo : 0x020 ≤ f.imm.toNat) (hhi : f.imm.toNat ≤ 0x02F) :
    ∃ t, exec (.wrsys f) s = .next t ∧ held t c.x (.s (f.imm.toNat + 12)) = some (.word (c.word32 f)) ∧
      Ran s t c [.s (f.imm.toNat + 12)] [] := by
  have hc := (issuing_some h.1).2
  have hint : isInterrupted f.imm.toNat = true := by simp [isInterrupted, hlo, hhi]
  obtain ⟨hwrote, hheld⟩ := wrote_writeReg hc rfl (.s (f.imm.toNat + 12)) 1 (.word (c.word32 f)) 0
  have hexec : exec (.wrsys f) s =
      .next (settle (writeReg s c (.s (f.imm.toNat + 12)) 1 (.word (c.word32 f)) 0) c f.mark .next) := by
    rw [exec_wrsys, execWrsys]
    refine (writeSys_next h f _ (privOk_sysPriv_interrupted hint hh) (sysReserved_interrupted _ ⟨hlo, hhi⟩)).trans ?_
    rw [if_neg (by omega), if_neg (by omega), if_neg (by omega), if_neg (by omega), if_pos hint, show 44 + (f.imm.toNat - 0x020) = f.imm.toNat + 12 by omega]
  refine ⟨_, hexec, ?_, ranTo_settle hc hwrote f.mark .next⟩
  rw [held_settle, hheld]
  simp [putImage, imageWord]

/-- R418: DRTH but its ALARMS. -/
theorem wrsys_drth (h : Issues s c (.wrsys f)) (hs : c.super = true) (hi : f.imm = 0x050) (hv : c.value f < 2 ^ 32)
    (hres : (c.word32 f).extractLsb' 5 11 = 0) :
    ∃ t, exec (.wrsys f) s = .next t ∧ Ran (modColumn s c.w.column (fun k => { k with
      drEn := (c.word32 f).getLsbD 31, drTh := (c.word32 f).extractLsb' 0 5 })) t c [] [] := by
  have hn : f.imm.toNat = 0x050 := congrArg BitVec.toNat hi
  rw [exec_wrsys, execWrsys]
  refine writeSys_around h f _ (privOk_sysPriv_super (by simp [hn]) hs) (by simpa [hn, sysReserved] using div_mod_eq_zero_of_extract hv hres) ?_ rfl rfl rfl rfl
  rw [getLsbD_top hv, extract_ofNat_low (by decide)]
  simp [hn, isInterrupted]

/-- R366: RWAYF of the column's tower. -/
theorem rwayfWrite_ran (h : Issues s c (.rwayfWrite f)) (hi : f.imm = 0x060) (hs : c.super = true) (hv : c.value f ≤ 8) :
    ∃ t, exec (.rwayfWrite f) s = .next t ∧
      Ran (modTower s (c.w.column / 48) (fun k => { k with rsh := BitVec.ofNat 4 (c.value f) })) t c [] [] := by
  have hn : f.imm.toNat = 0x060 := congrArg BitVec.toNat hi
  rw [exec_rwayfWrite, execRwayfWrite]
  exact writeSys_around h f _ (privOk_sysPriv_super (by simp [hn]) hs) (by simpa [hn, sysReserved] using hv) (Eq.refl _) rfl rfl rfl rfl

/-- R415: TIMESTAT, away from the ticks in which its bits were set. -/
theorem timestatWrite_ran (h : Issues s c (.timestatWrite f)) (hi : f.imm = 0x031) (hv : c.value f < 8)
    (hloss : s.lossAt ≠ some (timeOf s)) (hret : s.returnAt ≠ some (timeOf s)) :
    ∃ t, exec (.timestatWrite f) s = .next t ∧
      Ran { s with timeLoss := s.timeLoss && !(c.word32 f).getLsbD 1,
                   timeRet := s.timeRet && !(c.word32 f).getLsbD 2 } t c [] [] := by
  have hn : f.imm.toNat = 0x031 := congrArg BitVec.toNat hi
  rw [exec_timestatWrite, execTimestatWrite]
  refine writeSys_around h f _ (by simp [hn, sysPriv, privOk]) (by simp [hn, sysReserved]; omega) ?_ rfl rfl rfl rfl
  have hbit : ∀ v k, (v / 2 ^ k % 2 == 0) = !(v / 2 ^ k % 2 == 1) := fun v k => by
    rcases Nat.mod_two_eq_zero_or_one (v / 2 ^ k) with e | e <;> rw [e] <;> rfl
  simp only [getLsbD_ofNat_eq (show 1 < 32 by decide), getLsbD_ofNat_eq (show 2 < 32 by decide), hbit, beq_false_of_ne hloss, beq_false_of_ne hret, Bool.or_false]

end

end Sys2Proof.Machine

/-! ## A capture that is abandoned, and thresholds that change -/

namespace Sys2Proof.Machine

/-! ### Workgroups but for where the trapeze has them -/

/-- A group wherever its registers are. -/
def Group.unplaced (g : Group) : Group := { g with residence := .core }

/-- A workgroup but for what the trapeze notes of it: its hold, its exclusion, its count of deferred cycles and where its groups are. -/
def Workgroup.uncaptured (w : Workgroup) : Workgroup :=
  { w with hold := .none, excluded := none, migdefer := 0, groups := w.groups.map Group.unplaced }

/-- Two devices whose workgroups differ in nothing but what the trapeze notes of them. -/
def SameUncaptured (s t : State) : Prop := t.wgs.map Workgroup.uncaptured = s.wgs.map Workgroup.uncaptured

theorem SameUncaptured.wgFind {s t : State} (h : SameUncaptured s t) (id : Nat) :
    (wgFind t id).map Workgroup.uncaptured = (wgFind s id).map Workgroup.uncaptured := by
  have e : ∀ u : State, (Machine.wgFind u id).map Workgroup.uncaptured = firstWith (fun w => w.id == id) (u.wgs.map Workgroup.uncaptured) := fun u =>
    (firstWith_map (fun w : Workgroup => w.id == id) u.wgs Workgroup.uncaptured (fun _ => rfl)).symm
  rw [e, e, h]

/-- A group of such devices is the same but for its place, and so are the region and the core of its workgroup. -/
theorem SameUncaptured.group {s t : State} (h : SameUncaptured s t) (id k : Nat) :
    (Machine.wgFind t id).bind (fun w => (w.groups[k]?).map (fun g => (w.region, w.core, g.unplaced))) =
      (Machine.wgFind s id).bind (fun w => (w.groups[k]?).map (fun g => (w.region, w.core, g.unplaced))) := by
  have e : ∀ o : Option Workgroup, o.bind (fun w => (w.groups[k]?).map (fun g => (w.region, w.core, g.unplaced))) =
      (o.map Workgroup.uncaptured).bind (fun w => (w.groups[k]?).map (fun g => (w.region, w.core, g))) := by
    intro o
    cases o with
    | none => rfl
    | some w =>
      simp only [Option.bind_some, Option.map_some, Workgroup.uncaptured, List.getElem?_map, Option.map_map]
      rfl
  rw [e, e, h.wgFind]

/-- A split is the same in such devices. -/
theorem SameUncaptured.splitFind {s t : State} (h : SameUncaptured s t) (x : SplitId) : splitFind t x = splitFind s x := by
  have e : ∀ u : State, Machine.splitFind u x =
      ((Machine.wgFind u x.wg).bind (fun w => (w.groups[x.grp]?).map (fun g => (w.region, w.core, g.unplaced)))).bind (fun v => v.2.2.splits[x.slot]?) := by
    intro u
    unfold Machine.splitFind groupFind groupOf
    cases Machine.wgFind u x.wg with
    | none => rfl
    | some w => cases hg : w.groups[x.grp]? <;> simp [hg, Group.unplaced]
  rw [e, e, h.group]

/-- A register holds the same in such devices. -/
theorem SameUncaptured.held {s t : State} (h : SameUncaptured s t) (hr : t.regions = s.regions) (hk : t.cores = s.cores) (x : SplitId) (r : RegRef) :
    held t x r = held s x r := by
  have e : ∀ u : State, Machine.held u x r =
      ((Machine.wgFind u x.wg).bind (fun w => (w.groups[x.grp]?).map (fun g => (w.region, w.core, g.unplaced)))).bind (fun v =>
        (v.2.2.splits[x.slot]?).bind (fun p => (regionFind u v.1).map (fun _ => regIn v.2.2 p (coreOf u v.2.1) r))) := by
    intro u
    rw [held_eq]
    cases Machine.wgFind u x.wg with
    | none => rfl
    | some w =>
      cases hg : w.groups[x.grp]? with
      | none => simp [hg]
      | some g =>
        have hin : ∀ p k, regIn g.unplaced p k r = regIn g p k r := fun p k => by cases r <;> rfl
        simp only [Option.bind_some, hg, Option.map_some, hin]
        rfl
  simp only [e, h.group, regionFind_congr hr, coreOf_congr hk]

theorem sameUncaptured_map (s t : State) (f : Workgroup → Workgroup) (ht : t.wgs = s.wgs.map f) (hf : ∀ w, (f w).uncaptured = w.uncaptured) :
    SameUncaptured s t := by
  simp only [SameUncaptured, ht, List.map_map]
  exact List.map_congr_left (fun w _ => hf w)

/-! ### A capture that is abandoned (R306) -/

theorem earlierOnBus_unplaced (after len : Nat) (g : Group) : (earlierOnBus after len g).unplaced = g.unplaced := rfl

/-- The bus gives up a turn: workgroups change only in where their groups are. -/
theorem freeBusTurn_wgs (s : State) (col : Nat) (cap : Capture) : SameUncaptured s (freeBusTurn s col cap) := by
  unfold freeBusTurn
  split
  · rfl
  · refine sameUncaptured_map _ _ _ rfl (fun w => ?_)
    split
    · simp only [Workgroup.uncaptured, List.map_map, Function.comp_def, earlierOnBus_unplaced]
    · rfl

/-- The bus gives up a turn: the column changes only in when its bus is free. -/
theorem columnOf_freeBusTurn (s : State) (col : Nat) (cap : Capture) :
    ∃ free, columnOf (freeBusTurn s col cap) col = { columnOf s col with busFree := free } := by
  unfold freeBusTurn
  split
  · exact ⟨_, rfl⟩
  · have h : columnOf (modColumn s col (fun k => { k with busFree := k.busFree - cap.moveLen })) col = _ :=
      (columnOf_modColumn s col col _).trans (if_pos rfl)
    exact ⟨_, h⟩

/-- The bus gives up a turn: nothing changes outside the workgroups and the columns. -/
theorem freeBusTurn_frame (s : State) (col : Nat) (cap : Capture) :
    (freeBusTurn s col cap).mem = s.mem ∧ (freeBusTurn s col cap).flights = s.flights ∧ (freeBusTurn s col cap).cores = s.cores ∧
      (freeBusTurn s col cap).regions = s.regions := by
  unfold freeBusTurn
  split <;> exact ⟨rfl, rfl, rfl, rfl⟩

/-- A column has no capture that has not begun to move. -/
def NoneWaits (s : State) (col : Nat) : Prop := ∀ cap, (columnOf s col).capture = some cap → cap.moveTill.isSome = true

/-- Without a capture that waits to move, nothing is abandoned. -/
theorem abandonCapture_none {s : State} {col : Nat} (h : NoneWaits s col) : abandonCapture s col = s := by
  cases hcap : (columnOf s col).capture with
  | none => simp only [abandonCapture, hcap]
  | some cap => simp only [abandonCapture, hcap, h cap hcap, if_true]

/-- A capture that waits to move ends, and its workgroup is released. -/
theorem abandonCapture_waiting {s : State} {col : Nat} {cap : Capture} (h : (columnOf s col).capture = some cap) (hm : cap.moveTill.isSome = false) :
    abandonCapture s col = modWg (modColumn (freeBusTurn s col cap) col (fun k => { k with capture := none })) cap.wg (fun w =>
      { w with hold := .none, excluded := some ((columnOf s col).cycle + 2048),
               migdefer := BitVec.ofNat 32 (min (w.migdefer.toNat + ((columnOf s col).cycle - cap.start)) 0xFFFFFFFF) }) := by
  simp only [abandonCapture, h, hm, Bool.false_eq_true, if_false]

/-- What an abandoned capture leaves: no capture of the column that waits to move, and nothing changed but what the trapeze notes of its
workgroups, the capture itself and when the bus is free. -/
theorem abandonCapture_frame (s : State) (col : Nat) :
    (abandonCapture s col).mem = s.mem ∧ (abandonCapture s col).flights = s.flights ∧ (abandonCapture s col).cores = s.cores ∧
      (abandonCapture s col).regions = s.regions ∧ SameUncaptured s (abandonCapture s col) ∧
      { columnOf (abandonCapture s col) col with capture := none, busFree := 0 } = { columnOf s col with capture := none, busFree := 0 } ∧
      NoneWaits (abandonCapture s col) col := by
  by_cases hnone : NoneWaits s col
  · rw [abandonCapture_none hnone]
    exact ⟨rfl, rfl, rfl, rfl, rfl, rfl, hnone⟩
  · simp only [NoneWaits, not_forall, Bool.not_eq_true] at hnone
    obtain ⟨cap, hcap, hmove⟩ := hnone
    rw [abandonCapture_waiting hcap hmove]
    obtain ⟨hmem, hfl, hk, hr⟩ := freeBusTurn_frame s col cap
    obtain ⟨free, hfree⟩ := columnOf_freeBusTurn s col cap
    have hcol : ∀ g, columnOf (modWg (modColumn (freeBusTurn s col cap) col (fun k => { k with capture := none })) cap.wg g) col =
        { columnOf s col with capture := none, busFree := free } := fun g => by
      rw [columnOf_congr (modWg_columns _ _ _), columnOf_modColumn, if_pos rfl, hfree]
    refine ⟨hmem, hfl, hk, hr, ?_, by rw [hcol], fun k h => by rw [hcol] at h; cases h⟩
    refine Eq.trans (sameUncaptured_map (freeBusTurn s col cap) _ _ (modWg_wgs _ _ _) (fun w => ?_)) (freeBusTurn_wgs s col cap)
    split <;> rfl

/-! ### Thresholds that change (R302, R303) -/

/-- A core whose dwell runs restart, and which is no longer hot where the trapeze is off. -/
def Core.restarted (off : Bool) (k : Core) : Core := { k with above := [], hot := k.hot && !off }

/-- The four cores of a column restart. -/
def restartCores (s : State) (col : Nat) (off : Bool) : State := (coresOf col).foldl (fun s n => modCore s n (Core.restarted off)) s

/-- A write of thresholds: the cores restart, and a capture is abandoned where the trapeze is off. -/
theorem thresholdsChanged_eq (s : State) (col : Nat) : thresholdsChanged s col =
    if (columnOf s col).trapezeOff then abandonCapture (restartCores s col (columnOf s col).trapezeOff) col
    else restartCores s col (columnOf s col).trapezeOff := rfl

theorem restartCores_frame (s : State) (col : Nat) (off : Bool) : (restartCores s col off).mem = s.mem ∧ (restartCores s col off).flights = s.flights ∧
    (restartCores s col off).wgs = s.wgs ∧ (restartCores s col off).columns = s.columns :=
  List.foldlRecOn (motive := fun u : State => u.mem = s.mem ∧ u.flights = s.flights ∧ u.wgs = s.wgs ∧ u.columns = s.columns) _ _ ⟨rfl, rfl, rfl, rfl⟩
    (fun _ hu _ _ => hu)

theorem held_restartCores (s : State) (col : Nat) (off : Bool) (y : SplitId) (r : RegRef) : held (restartCores s col off) y r = held s y r :=
  List.foldlRecOn (motive := fun u : State => held u y r = held s y r) _ _ rfl (fun u hu n _ =>
    (held_modCore_same u n _ y r (fun _ _ _ g p => by cases r <;> rfl)).trans hu)

theorem coreOf_restartCores (s : State) (col : Nat) (off : Bool) {n : Nat} (hn : n ∈ coresOf col) :
    coreOf (restartCores s col off) n = (coreOf s n).restarted off := by
  simp only [coresOf, List.mem_map, List.mem_range] at hn
  obtain ⟨j, hj, rfl⟩ := hn
  have e : coresOf col = [4 * col + 0, 4 * col + 1, 4 * col + 2, 4 * col + 3] := rfl
  simp only [restartCores, e, List.foldl_cons, List.foldl_nil, coreOf_modCore, Nat.add_left_cancel_iff]
  interval_cases j <;> rfl

/-- Where the split of a word stands once it has issued. -/
theorem splitFind_settle {u : State} {c : Ctx} {p : Split} (h : splitFind u c.x = some p) (hl : p.loops = c.p.loops) (mark : Bool) :
    (splitFind (settle u c mark .next) c.x).map (fun p => p.pc) = some (loopUpdate c.p.loops c.p.pc).2 := by
  have e : splitFind (settle u c mark .next) c.x = _ := (splitFind_modSplit u c.x c.x _).trans (if_pos rfl)
  rw [e, h]
  simp [advance, hl]

/-- A write of thresholds to the column of a word leaves every register, memory and every flight; the column's cores restart, and its capture, where the
trapeze is off, has begun to move. -/
theorem thresholdsChanged_frame (s : State) (col : Nat) {k : Column} (hk : columnOf s col = k) :
    (thresholdsChanged s col).mem = s.mem ∧ (thresholdsChanged s col).flights = s.flights ∧
      (∀ y r, held (thresholdsChanged s col) y r = held s y r) ∧ (∀ x, splitFind (thresholdsChanged s col) x = splitFind s x) ∧
      (∀ n ∈ coresOf col, coreOf (thresholdsChanged s col) n = (coreOf s n).restarted k.trapezeOff) ∧
      (k.trapezeOff = false → columnOf (thresholdsChanged s col) col = k) ∧
      (k.trapezeOff = true → { columnOf (thresholdsChanged s col) col with capture := none, busFree := 0 } = { k with capture := none, busFree := 0 } ∧
        NoneWaits (thresholdsChanged s col) col) := by
  obtain ⟨hmem, hfl, hwgs, hcols⟩ := restartCores_frame s col k.trapezeOff
  have hcol : columnOf (restartCores s col k.trapezeOff) col = k := (columnOf_congr hcols col).trans hk
  rw [thresholdsChanged_eq, hk]
  cases hoff : k.trapezeOff with
  | false =>
    rw [hoff] at hmem hfl hwgs hcol
    rw [if_neg Bool.false_ne_true]
    exact ⟨hmem, hfl, fun y r => held_restartCores s col false y r, fun x => splitFind_congr hwgs x, fun n hn => coreOf_restartCores s col false hn,
      fun _ => hcol, fun h => by cases h⟩
  | true =>
    rw [hoff] at hmem hfl hwgs hcol
    rw [if_pos rfl]
    obtain ⟨amem, afl, acores, aregions, awgs, acol, acap⟩ := abandonCapture_frame (restartCores s col true) col
    refine ⟨amem.trans hmem, afl.trans hfl, fun y r => ?_, fun x => ?_, fun n hn => ?_, fun h => absurd h (by decide), fun _ => ⟨?_, acap⟩⟩
    · exact (awgs.held aregions acores y r).trans (held_restartCores s col true y r)
    · exact (awgs.splitFind x).trans (splitFind_congr hwgs x)
    · exact (coreOf_congr acores n).trans (coreOf_restartCores s col true hn)
    · rw [acol, hcol]

end Sys2Proof.Machine

/-! ## O46: the writes of the system registers -/

namespace Sys2Proof.Machine

/-! ### The thresholds -/

/-- What a write of TH_HI, TH_LO or TH_DWELL puts in its column (R302). -/
def thresholdWritten (n v : Nat) (k : Column) : Column :=
  if n = 0x040 then { k with thHi := BitVec.ofNat 10 v }
  else if n = 0x041 then { k with thLo := BitVec.ofNat 10 v }
  else { k with thEn := v / 2 ^ 31 == 1, thDwell := BitVec.ofNat 24 v }

/-- A write of a threshold in supervisor mode, its reserved bits clear, goes to the column, and the column's cores and capture follow. -/
theorem exec_thRegisterWrite_next {s : State} {c : Ctx} {f : SF} (h : Issues s c (.thRegisterWrite f)) (hs : c.super = true)
    (hn : f.imm.toNat ∈ superRegisters) (hv : sysReserved f.imm.toNat (c.value f) = false) :
    exec (.thRegisterWrite f) s = .next (settle (thresholdsChanged (modColumn s c.w.column
      (thresholdWritten f.imm.toNat (c.value f))) c.w.column) c f.mark .next) := by
  rw [exec_thRegisterWrite, execThRegisterWrite]
  exact writeSys_next h f _ (privOk_sysPriv_super hn hs) hv

/-- Once a write of thresholds has issued, they stand in the column; every register, memory and every flight are as before; the column's cores restart,
and its capture, where the trapeze is off, has begun to move. -/
theorem thresholds_settled {s : State} {c : Ctx} (hc : ctxOf s c.x = some c) {g : Column → Column} {k : Column} (hk : g (columnOf s c.w.column) = k)
    (mark : Bool) {t : State} (ht : t = settle (thresholdsChanged (modColumn s c.w.column g) c.w.column) c mark .next) :
    KeepsRegs s t c.x [] ∧ t.mem = s.mem ∧ t.flights = s.flights ∧ t.issue = none ∧
      (splitFind t c.x).map (fun p => p.pc) = some (loopUpdate c.p.loops c.p.pc).2 ∧
      (∀ n ∈ coresOf c.w.column, coreOf t n = (coreOf s n).restarted k.trapezeOff) ∧ (k.trapezeOff = false → columnOf t c.w.column = k) ∧
      (k.trapezeOff = true → { columnOf t c.w.column with capture := none, busFree := 0 } = { k with capture := none, busFree := 0 } ∧ NoneWaits t c.w.column) := by
  subst ht
  have hcol : columnOf (modColumn s c.w.column g) c.w.column = k := by rw [columnOf_modColumn, if_pos rfl, hk]
  obtain ⟨hmem, hfl, hheld, hsplit, hcores, hon, hoff⟩ := thresholdsChanged_frame (modColumn s c.w.column g) c.w.column hcol
  refine ⟨fun y r _ => ?_, hmem, hfl, rfl, ?_, hcores, hon, hoff⟩
  · rw [held_settle, hheld]
    exact held_congr r rfl rfl (fun _ _ => .inr rfl)
  · exact splitFind_settle ((hsplit c.x).trans (ctxOf_splitFind hc)) rfl mark

/-- The values of TH_HI, TH_LO and TH_DWELL that a write may put, and what it puts. -/
theorem thresholdWritten_eq {f : SF} {v : Nat} {k0 k : Column}
    (h : (f.imm = 0x040 ∧ v < 2 ^ 10 ∧ k = { k0 with thHi := BitVec.ofNat 10 v }) ∨ (f.imm = 0x041 ∧ v < 2 ^ 10 ∧ k = { k0 with thLo := BitVec.ofNat 10 v }) ∨
      (f.imm = 0x042 ∧ v < 2 ^ 32 ∧ (BitVec.ofNat 32 v).extractLsb' 24 7 = 0 ∧
        k = { k0 with thEn := (BitVec.ofNat 32 v).getLsbD 31, thDwell := (BitVec.ofNat 32 v).extractLsb' 0 24 })) :
    f.imm.toNat ∈ superRegisters ∧ sysReserved f.imm.toNat v = false ∧ thresholdWritten f.imm.toNat v k0 = k := by
  rcases h with ⟨hi, hv, rfl⟩ | ⟨hi, hv, rfl⟩ | ⟨hi, hv, hres, rfl⟩
  · simpa [hi, sysReserved, thresholdWritten] using hv
  · simpa [hi, sysReserved, thresholdWritten] using hv
  · rw [getLsbD_top hv, extract_ofNat_low (by decide)]
    simpa [hi, sysReserved, thresholdWritten] using div_mod_eq_zero_of_extract hv hres

/-! ### Reserved bits -/

/-- The instruction is a `wrsys` of some register. -/
def IsWrsys (i : Instr) (f : SF) : Prop := i = .wrsys f ∨ i = .thRegisterWrite f ∨ i = .timestatWrite f ∨ i = .rwayfWrite f

/-- Every `wrsys` has the one form, whatever it writes. -/
theorem exec_isWrsys {i : Instr} {f : SF} (h : IsWrsys i f) (s : State) : ∃ body, exec i s = writeSys i f s body := by
  rcases h with rfl | rfl | rfl | rfl
  · rw [exec_wrsys, execWrsys]; exact ⟨_, rfl⟩
  · rw [exec_thRegisterWrite, execThRegisterWrite]; exact ⟨_, rfl⟩
  · rw [exec_timestatWrite, execTimestatWrite]; exact ⟨_, rfl⟩
  · rw [exec_rwayfWrite, execRwayfWrite]; exact ⟨_, rfl⟩

/-- A well-formed `wrsys` names a register of the width that PAIR says (R249). -/
theorem sysOk_of_isWrsys {i : Instr} {f : SF} (h : IsWrsys i f) (hw : i.wellFormed = true) : f.sysOk = true := by
  have e : wfWrsysAny f = true := by
    rcases h with rfl | rfl | rfl | rfl <;> exact (Bool.and_eq_true_iff.mp hw).1
  simp only [wfWrsysAny, Bool.and_eq_true] at e
  obtain ⟨⟨⟨⟨hok, -⟩, -⟩, -⟩, -⟩ := e
  exact hok

/-- XBND is written from one scalar. -/
theorem scalar_lt_of_xbnd {f : SF} (h : f.sysOk = true) (hi : f.imm = 0x001) (c : Ctx) : c.value f < 2 ^ 32 := by
  have hpair : f.pair = false := by
    cases hp : f.pair with
    | false => rfl
    | true => simp [SF.sysOk, hp, hi, sysReg64] at h
  rw [Ctx.value, hpair]
  exact (c.s f.sa.toNat).isLt

/-- A value with a reserved bit of its register set, in the mode that the register needs. -/
def ReservedSet (c : Ctx) (f : SF) (v : Nat) : Prop :=
  (f.imm = 0x001 ∧ (v / 2 ^ 15 ≠ 0 ∨ v / 2 ^ 7 % 2 = 1)) ∨ (f.imm = 0x031 ∧ 8 ≤ v) ∨
    (c.super = true ∧ ((f.imm = 0x010 ∧ v / 2 ^ 16 % 2 ^ 8 ≠ 0) ∨ (f.imm = 0x011 ∧ v % 8 ≠ 0) ∨ ((f.imm = 0x040 ∨ f.imm = 0x041) ∧ 2 ^ 10 ≤ v) ∨
      (f.imm = 0x042 ∧ v / 2 ^ 24 % 2 ^ 7 ≠ 0) ∨ (f.imm = 0x050 ∧ v / 2 ^ 5 % 2 ^ 11 ≠ 0) ∨ (f.imm = 0x060 ∧ 8 < v)))

/-- Such a value is refused where the register may be written: for XBND, a value of 32 bits. -/
theorem sysReserved_of_reservedSet {c : Ctx} {f : SF} {v : Nat} (h : ReservedSet c f v) (hv : f.imm = 0x001 → v < 2 ^ 32) :
    sysReserved f.imm.toNat v = true ∧ privOk c (sysPriv f.imm.toNat) = true := by
  rcases h with ⟨hi, hx⟩ | ⟨hi, hx⟩ | ⟨hs, hsuper⟩
  · have hlt := hv hi
    refine ⟨?_, by simp [hi, sysPriv, privOk]⟩
    have e : xbndBad v = true := by
      simp only [xbndBad, Bool.or_eq_true, bne_iff_ne]
      omega
    simpa [hi, sysReserved] using e
  · refine ⟨?_, by simp [hi, sysPriv, privOk]⟩
    have e : v / 8 ≠ 0 := by omega
    simpa [hi, sysReserved] using e
  · rcases hsuper with ⟨hi, hx⟩ | ⟨hi, hx⟩ | ⟨hi | hi, hx⟩ | ⟨hi, hx⟩ | ⟨hi, hx⟩ | ⟨hi, hx⟩ <;>
      refine ⟨?_, privOk_sysPriv_super (by simp [hi]) hs⟩ <;> simpa [hi, sysReserved] using hx

/-- R8, R105: a `wrsys` with a reserved bit set is an illegal instruction. -/
theorem wrsys_reserved_traps {s : State} {c : Ctx} {i : Instr} {f : SF} (hi : IsWrsys i f) (h : Issues s c i)
    (hset : ReservedSet c f (c.value f)) : Traps i s c 1 0 127 (wordOf i) := by
  obtain ⟨body, hbody⟩ := exec_isWrsys hi s
  have ⟨_, _, hwf⟩ := h
  obtain ⟨hres, hpriv⟩ := sysReserved_of_reservedSet hset (fun hx => scalar_lt_of_xbnd (sysOk_of_isWrsys hi hwf) hx c)
  exact hbody.trans (writeSys_reserved h f body hpriv hres)

/-- Settles O46, register by register: each write has the form of `writeSys`, and what it changes is a field of its split, of its column, tower or device. -/
theorem systemRegisterWrites : Obligations.SystemRegisterWrites := by
  intro s c low all
  refine ⟨fun f h hv => ⟨fun hi => ?_, fun hs hi => ?_, fun hs hi => ?_, fun hs hi => ?_, fun hh hlo hhi => ?_, fun hs hi hres _ => ?_⟩, fun f h hi hs hv => ?_,
    fun f h hi hv hloss hret => ?_, fun f h hs k hk => ?_, fun f i v hi h hv hset => ?_⟩
  · exact wrsys_xbnd h hi (by simpa [hi] using hv)
  · exact wrsys_trapCause h hs hi (by simpa [hi] using hv)
  · exact wrsys_trapPc h hs hi (by simpa [hi] using hv)
  · exact wrsys_trapVal h hs hi
  · exact wrsys_interrupted h hh hlo hhi
  · exact wrsys_drth h hs hi (by simpa [hi] using hv) hres
  · exact rwayfWrite_ran h hi hs hv
  · exact timestatWrite_ran h hi hv hloss hret
  · obtain ⟨hn, hres, hput⟩ := thresholdWritten_eq hk
    obtain ⟨hregs, hmem, hfl, hissue, hpc, hcores, hon, hoff⟩ := thresholds_settled (issuing_some h.1).2 hput f.mark rfl
    refine ⟨_, exec_thRegisterWrite_next h hs hn hres, hregs, hmem, hfl, hissue, hpc, fun n hn => ?_, hon, hoff⟩
    rw [hcores n hn]
    exact ⟨rfl, rfl⟩
  · subst hv
    exact wrsys_reserved_traps hi h hset

end Sys2Proof.Machine

/-! ## O60: events of the package -/

namespace Sys2Proof.Machine

/-- A search finds an element, where one passes its test. -/
theorem firstWith_of_mem {α : Type} {p : α → Bool} {l : List α} {a : α} (ha : a ∈ l) (hp : p a = true) :
    ∃ b, firstWith p l = some b ∧ b ∈ l ∧ p b = true := by
  cases h : firstWith p l with
  | none => rw [firstWith_none h a ha] at hp; cases hp
  | some b => exact ⟨b, rfl, firstWith_mem h⟩

/-- An event that takes the first element of a list to pass a test happens at one that passes. -/
theorem event_firstWith {α : Type} {name : String} {p : α → Bool} {l : List α} {f : α → State} {a : α} (ha : a ∈ l) (hp : p a = true) :
    ∃ b, (b ∈ l ∧ p b = true) ∧ event name ((firstWith p l).map f) = .next (f b) := by
  obtain ⟨b, hb, hm⟩ := firstWith_of_mem ha hp
  exact ⟨b, hm, by rw [hb]; rfl⟩

/-- Sahong's record of an event changes no column. -/
theorem columnOf_sahong (s : State) (type code tower unit count n : Nat) : columnOf (sahong s type code tower unit count) n = columnOf s n :=
  columnOf_congr (by unfold sahong; rfl) n

/-! ### The reference (R414) -/

theorem exec_referenceLost (s : State) (h : s.timeFree = false) :
    exec .referenceLost s = .next (sahong { s with timeFree := true, timeLoss := true, lossAt := some (timeOf s) } 9 0 255 0 0) := by
  change execReferenceLost s = _
  simp [execReferenceLost, event, h]

theorem exec_referenceReturn (s : State) (h : s.timeFree = true) :
    exec .referenceReturn s = .next (sahong { s with timeFree := false, timeRet := true, returnAt := some (timeOf s) } 10 0 255 0 0) := by
  change execReferenceReturn s = _
  simp [execReferenceReturn, event, h]

/-! ### Droop (R418 to R420) -/

/-- The supply of a column raises an alarm. -/
def alarms (k : Column) (uv : Nat) : Bool := k.drEn && droops k uv && k.phase != .stretched && !k.alarm

theorem exec_droopAlarm (s : State) {c : Nat} (uv : Nat) (hc : c < 192) : exec (.droopAlarm c uv) s =
    .next (if alarms (columnOf s c) uv then modColumn s c (fun k => { k with alarm := true, drAlarms := min 0x7FFF (k.drAlarms + 1) }) else s) := by
  change execDroopAlarm c uv s = _
  rw [execDroopAlarm, if_neg (by omega)]
  unfold alarms
  split <;> rfl

/-- A column whose clock phase has run out is found. -/
theorem phaseOut_some {s : State} {p : ClockPhase} {c : Nat} (hc : c < 192) (hp : (columnOf s c).phase = p) (hl : (columnOf s c).left = 0) :
    ∃ d, phaseOut s p = some d ∧ d < 192 ∧ (columnOf s d).phase = p ∧ (columnOf s d).left = 0 := by
  obtain ⟨d, hd, hm, ht⟩ := firstWith_of_mem (p := fun c => (columnOf s c).phase == p && (columnOf s c).left == 0) (List.mem_range.mpr hc) (by simp [hp, hl])
  simp only [Bool.and_eq_true, beq_iff_eq] at ht
  exact ⟨d, hd, List.mem_range.mp hm, ht⟩

theorem exec_stretchEnd {s : State} {d : Nat} (h : phaseOut s .stretched = some d) :
    exec .stretchEnd s = .next (modColumn s d (fun k => { k with phase := .halved, left := 64 })) := by
  rw [show exec .stretchEnd s = execStretchEnd s from rfl, execStretchEnd, h]; rfl

theorem exec_halvedWindowEnd {s : State} {d : Nat} (h : phaseOut s .halved = some d) :
    exec .halvedWindowEnd s = .next (modColumn s d (fun k => { k with phase := .usual })) := by
  rw [show exec .halvedWindowEnd s = execHalvedWindowEnd s from rfl, execHalvedWindowEnd, h]; rfl

/-! ### Thermal action and refresh (R457, R458) -/

/-- A core hot for 1000 ticks: the column of one such core is halved. -/
theorem exec_overheatHalving {s : State} {n since : Nat} {k : Core} (hm : (n, k) ∈ s.cores) (hs : k.overSince = some since) (ht : since + 1000 ≤ timeOf s)
    (ho : (columnOf s (n / 4)).overheat = false) :
    ∃ m, (columnOf s (m / 4)).overheat = false ∧
      exec .overheatHalving s = .next (sahong (modColumn s (m / 4) (fun k => { k with overheat := true })) 11 0 (m / 192) m 0) := by
  rw [show exec .overheatHalving s = execOverheatHalving s from rfl, execOverheatHalving]
  refine (event_firstWith hm ?_).elim (fun e he => ⟨e.1, ?_, he.2⟩)
  · simp [hs, ht, ho]
  · simpa using (Bool.and_eq_true_iff.mp he.1.2).1

/-- An overheated column that has cooled: one such column issues as before. -/
theorem exec_overheatHalvingEnd {s : State} {c : Nat} {k : Column} (hm : (c, k) ∈ s.columns) (ho : k.overheat = true)
    (hr : ∀ n ∈ coresOf c, (coreOf s n).reading < 400) :
    ∃ d, (∀ n ∈ coresOf d, (coreOf s n).reading < 400) ∧ exec .overheatHalvingEnd s = .next (modColumn s d (fun k => { k with overheat := false })) := by
  rw [show exec .overheatHalvingEnd s = execOverheatHalvingEnd s from rfl, execOverheatHalvingEnd]
  refine (event_firstWith hm ?_).elim (fun e he => ⟨e.1, ?_, he.2⟩)
  · simpa [ho] using hr
  · simpa using (Bool.and_eq_true_iff.mp he.1.2).2

/-- The device after an overtemperature trip at a core. -/
def tripped (s : State) (n : Nat) : State :=
  sahong { s with inReset := true, issue := none, wgs := s.wgs.map (fun w => { w with lost := some (w.lost.getD 0), stopped := true }) } 11 0 (n / 192) n 0

theorem exec_overtempTrip {s : State} {n : Nat} {k : Core} (hm : (n, k) ∈ s.cores) (hk : 480 ≤ k.reading) (hr : s.inReset = false) :
    ∃ m, exec .overtempTrip s = .next (tripped s m) := by
  rw [show exec .overtempTrip s = execOvertempTrip s from rfl, execOvertempTrip, hr, if_neg Bool.false_ne_true]
  exact (event_firstWith hm (by simpa using hk)).elim (fun e he => ⟨e.1, he.2⟩)

/-- Every workgroup of a device that has tripped is stopped and lost. -/
theorem tripped_lost (s : State) (n : Nat) : ∀ w ∈ (tripped s n).wgs, w.stopped = true ∧ w.lost.isSome = true := by
  intro w hw
  obtain ⟨v, -, rfl⟩ := List.mem_map.mp (show w ∈ s.wgs.map _ from hw)
  exact ⟨rfl, rfl⟩

theorem exec_canopyRefresh {s : State} {k : Nat} (hk : k < 4) (hd : (towerOf s k).refreshed + refreshPeriod s k ≤ timeOf s) :
    ∃ n, n < 4 ∧ exec .canopyRefresh s = .next (modTower s n (fun q => { q with refreshed := timeOf s })) := by
  rw [show exec .canopyRefresh s = execCanopyRefresh s from rfl, execCanopyRefresh]
  refine (event_firstWith (a := k) ?_ ?_).elim (fun n hn => ⟨n, ?_, hn.2⟩)
  · simp; omega
  · simpa using hd
  · have hmem := hn.1.1; simp at hmem; omega

/-! ### Reset (R454) -/

/-- What the device holds when it is released from reset, whether its firmware verifies or not. -/
structure Released (s t : State) : Prop where
  booted : t.booted = true
  mem : t.mem = s.mem.filter (fun c => !isHbm c.1)
  now : t.now = 0
  wgs : t.wgs = []
  regions : t.regions = []
  keys : t.keys = []
  past : t.past = []
  images : t.images = []
  inReset : t.inReset = !Config.firmwareVerifies
  columns : t.columns = []
  cores : t.cores = []
  towers : t.towers = []

/-- The keys that the slots give up leave memory as it is. -/
theorem foldl_forgetKey_mem (s : State) : (s.keys.foldl (fun s e => forgetKey s e.1 e.2.key) s).mem = s.mem :=
  List.foldlRecOn (motive := fun u : State => u.mem = s.mem) _ _ rfl (fun _ hu _ _ => hu)

theorem exec_deviceReset (s : State) : ∃ t, exec .deviceReset s = .next t ∧ Released s t := by
  change ∃ t, execDeviceReset s = .next t ∧ _
  refine ⟨_, rfl, ?_⟩
  have hmem := congrArg (List.filter (fun c : Host.Cell => !isHbm c.1)) (foldl_forgetKey_mem s)
  cases hv : Config.firmwareVerifies with
  | true => exact ⟨rfl, hmem, rfl, rfl, rfl, rfl, rfl, rfl, by rw [hv]; rfl, rfl, rfl, rfl⟩
  | false => exact ⟨rfl, hmem, rfl, rfl, rfl, rfl, rfl, rfl, by rw [hv]; rfl, rfl, rfl, rfl⟩

/-! ### The debugger (R247) -/

/-- A debugger that is attached, or attaches, has its request carried out. -/
theorem exec_debuggerAccess (s : State) (r : DebugRequest) (h : s.debugger = true ∨ r = .attach) : exec (.debuggerAccess r) s = .next (debugStep s r) := by
  change execDebuggerAccess r s = _
  rcases h with h | rfl
  · simp [execDebuggerAccess, event, h]
  · simp [execDebuggerAccess, event]

/-- Before it attaches, a debugger has no effect but to attach. -/
theorem exec_debuggerAccess_detached (s : State) (r : DebugRequest) (h : s.debugger = false) (hr : r ≠ .attach) :
    exec (.debuggerAccess r) s = .next s := by
  change execDebuggerAccess r s = _
  simp [execDebuggerAccess, event, h, hr]

/-- A debugger writes a shadow scalar. -/
theorem debugStep_writeShadowScalar (s : State) {core k : Nat} (v : Word) (hc : core < 768) (hk : k < 16) :
    debugStep s (.writeShadowScalar core k v) = modCore s core (fun c => { c with ksregs := Table.put c.ksregs k v }) := by
  simp [debugStep, hc, hk]

/-- Settles O60, event by event. -/
theorem packageEvents : Obligations.PackageEvents := by
  intro s
  refine ⟨fun h => ⟨_, exec_referenceLost s h, rfl, rfl, rfl, rfl, rfl⟩, fun h => ⟨_, exec_referenceReturn s h, rfl, rfl, rfl, rfl, rfl⟩,
    fun c uv hc => ⟨_, exec_droopAlarm s uv hc, ?_, ?_, fun hen huv hph hal => ?_, fun hno => ?_⟩, fun c hc hp hl => ?_, fun c hc hp hl => ?_,
    fun n k since hm hs ht ho => ?_, fun c k hm ho hr => exec_overheatHalvingEnd hm ho hr, fun n k hm hk hr => ?_, fun k hk hd => exec_canopyRefresh hk hd, ?_,
    ⟨_, exec_debuggerAccess s .attach (.inr rfl), rfl, rfl, rfl⟩, fun h core k v hc hk => ?_, fun h r hr => exec_debuggerAccess_detached s r h hr⟩
  · split <;> rfl
  · split <;> rfl
  · rw [if_pos (by simp [alarms, droops, hen, huv, hph, hal]), columnOf_modColumn, if_pos rfl]
    exact ⟨rfl, rfl⟩
  · refine if_neg ?_
    rcases hno with hen | huv | hph
    · simp [alarms, hen]
    · simp [alarms, droops, Nat.not_lt.mpr huv]
    · simp [alarms, hph]
  · obtain ⟨d, hd, hlt, hphase, hleft⟩ := phaseOut_some hc hp hl
    exact ⟨d, hlt, hphase, hleft, exec_stretchEnd hd⟩
  · obtain ⟨d, hd, hlt, hphase, hleft⟩ := phaseOut_some hc hp hl
    exact ⟨d, hlt, hphase, hleft, exec_halvedWindowEnd hd⟩
  · obtain ⟨m, hm, he⟩ := exec_overheatHalving hm hs ht ho
    refine ⟨_, m / 4, he, hm, ?_, rfl, rfl⟩
    rw [columnOf_sahong, columnOf_modColumn, if_pos rfl]
  · obtain ⟨m, he⟩ := exec_overtempTrip hm hk hr
    exact ⟨_, he, rfl, rfl, tripped_lost s m, rfl⟩
  · obtain ⟨t, he, ht⟩ := exec_deviceReset s
    refine ⟨t, he, ht.booted, ht.mem, ht.now, ht.wgs, ht.regions, ht.keys, ht.past, ht.images, ht.inReset, fun n => ?_⟩
    simp [columnOf, coreOf, towerOf, ht.columns, ht.cores, ht.towers, Table.get]
  · refine ⟨_, exec_debuggerAccess s _ (.inl h), ?_⟩
    rw [debugStep_writeShadowScalar s v hc hk]
    exact ⟨by simp, rfl, rfl⟩

end Sys2Proof.Machine

/-! ## Values of the formats: exact sums and products, and the magnitudes that a format holds -/

namespace Sys2Proof.Machine

/-! ### Finite values as rational numbers -/

/-- The sign of a value, as a factor. -/
def signOf (neg : Bool) : ℚ := if neg then -1 else 1

theorem signOf_bne (a b : Bool) : signOf (a != b) = signOf a * signOf b := by cases a <;> cases b <;> norm_num [signOf]

theorem rational_fin (neg : Bool) (n d : Nat) : (Val.fin neg n d).rational = signOf neg * ((n : ℚ) / d) := by
  cases neg <;> simp [Val.rational, Val.signedNum, Val.denom, signOf, Rat.mkRat_eq_div, neg_div]

/-- A value and its exact numerator: the sign goes with the numerator. -/
theorem rational_signed (r : Int) (d : Nat) : (Val.fin (decide (r < 0)) r.natAbs d).rational = (r : ℚ) / d := by
  have h : (Val.fin (decide (r < 0)) r.natAbs d).signedNum = r := by
    simp only [Val.signedNum, decide_eq_true_eq]
    split <;> omega
  rw [Val.rational, h, Rat.mkRat_eq_div]
  rfl

theorem sumFinite_pair (x y : Val) : Val.sumFinite [x, y] = (x.signedNum * y.denom + y.signedNum * x.denom, x.denom * y.denom) := by
  simp [Val.sumFinite]

/-- R64: the sum of two finite values is their exact sum. -/
theorem rational_add (a b : Bool) (n m d e mode : Nat) (hd : 0 < d) (he : 0 < e) :
    ((Val.fin a n d).add (Val.fin b m e) mode).rational = (Val.fin a n d).rational + (Val.fin b m e).rational := by
  have hsum : (Val.fin a n d).rational + (Val.fin b m e).rational =
      (((Val.fin a n d).signedNum * e + (Val.fin b m e).signedNum * d : Int) : ℚ) / ((d * e : Nat) : ℚ) := by
    have hd' : (d : ℚ) ≠ 0 := by positivity
    have he' : (e : ℚ) ≠ 0 := by positivity
    simp only [Val.rational, Val.denom, Rat.mkRat_eq_div]
    push_cast
    rw [div_add_div _ _ hd' he', mul_comm (d : ℚ) (((Val.fin b m e).signedNum : ℤ) : ℚ)]
  rw [hsum]
  simp only [Val.add, Val.sum, sumFinite_pair]
  rw [if_neg (by simp [Val.isNaN]), if_neg (by simp [Val.isInf])]
  split
  · next hzero =>
    simp only [Val.denom] at hzero
    rw [Val.zero, rational_fin, hzero]
    simp
  · exact rational_signed _ _

/-- R64: the product of two finite values is their exact product. -/
theorem rational_mul (a b : Bool) (n m d e : Nat) :
    ((Val.fin a n d).mul (Val.fin b m e)).rational = (Val.fin a n d).rational * (Val.fin b m e).rational := by
  simp only [Val.mul, rational_fin, signOf_bne, Nat.cast_mul, mul_div_mul_comm]
  ring

/-- A scaled integer is finite, and its magnitude is what it says. -/
theorem scaled_eq (neg : Bool) (m : Nat) (e : Int) : ∃ num den, Val.scaled neg m e = .fin neg num den ∧ (num : ℚ) / den = m * 2 ^ e := by
  unfold Val.scaled
  split
  · next h =>
    refine ⟨_, _, rfl, ?_⟩
    lift e to ℕ using h
    simp
  · next h =>
    refine ⟨_, _, rfl, ?_⟩
    obtain ⟨k, rfl⟩ : ∃ k : ℕ, e = -k := ⟨(-e).toNat, by omega⟩
    simp [zpow_neg, div_eq_mul_inv]

theorem magnitude_of_scaled {neg s : Bool} {m num den : Nat} {e : Int} (h : Val.scaled neg m e = .fin s num den) : (num : ℚ) / den = m * 2 ^ e := by
  obtain ⟨n, d, hs, hq⟩ := scaled_eq neg m e
  cases hs.symm.trans h
  exact hq

/-! ### The finite values of a format (R62) -/

/-- A format of R62: the exponent of all ones is kept for infinities and NaN, and every fraction of the exponent below it is finite. -/
structure Fp.Standard (f : Fp) : Prop where
  exp : f.topExp + 2 = 2 ^ f.expBits
  frac : f.topFrac + 1 = 2 ^ f.p
  width : f.width - 1 = f.p + f.expBits
  normal : 0 < f.topExp
  fraction : 0 < f.p

theorem standard_of_mem {f : Fp} (h : f ∈ [fp64, fp32, fp16, bf16]) : f.Standard := by
  simp only [List.mem_cons, List.not_mem_nil, or_false] at h
  rcases h with rfl | rfl | rfl | rfl <;> constructor <;> decide

/-- The spacing of the format's least values, as an exponent of two. -/
def Fp.least (f : Fp) : Int := 1 - f.bias - f.p

/-- The magnitude that an exponent field and a fraction field stand for. -/
def Fp.magnitude (f : Fp) (ex fr : Nat) : ℚ := if ex = 0 then fr * 2 ^ f.least else (2 ^ f.p + fr : Nat) * 2 ^ ((ex : Int) - f.bias - f.p)

/-- The magnitudes of the finite codes of a format. -/
def Fp.Holds (f : Fp) (q : ℚ) : Prop := ∃ ex fr, ex ≤ f.topExp ∧ fr < 2 ^ f.p ∧ q = f.magnitude ex fr

section
variable {f : Fp}

/-- Packed fields are read back. -/
theorem fields_pack (hf : f.Standard) (neg : Bool) {ex fr : Nat} (hex : ex < 2 ^ f.expBits) (hfr : fr < 2 ^ f.p) :
    f.pack neg ex fr % 2 ^ f.p = fr ∧ f.pack neg ex fr / 2 ^ f.p % 2 ^ f.expBits = ex ∧ (f.pack neg ex fr / 2 ^ (f.width - 1) % 2 == 1) = neg := by
  have hbits : f.pack neg ex fr = fr + 2 ^ f.p * (ex + 2 ^ f.expBits * neg.toNat) := by
    rw [Fp.pack, hf.width, pow_add]
    cases neg <;> simp <;> ring
  have hhigh : f.pack neg ex fr / 2 ^ f.p = ex + 2 ^ f.expBits * neg.toNat := by
    rw [hbits, Nat.add_mul_div_left _ _ (by positivity), Nat.div_eq_of_lt hfr, zero_add]
  refine ⟨by rw [hbits, Nat.add_mul_mod_self_left, Nat.mod_eq_of_lt hfr], by rw [hhigh, Nat.add_mul_mod_self_left, Nat.mod_eq_of_lt hex], ?_⟩
  rw [hf.width, pow_add, ← Nat.div_div_eq_div_mul, hhigh, Nat.add_mul_div_left _ _ (by positivity), Nat.div_eq_of_lt hex, zero_add]
  cases neg <;> rfl

/-- The value of a finite code is the magnitude of its fields. -/
theorem value_pack (hf : f.Standard) (neg : Bool) {ex fr : Nat} (hex : ex ≤ f.topExp) (hfr : fr < 2 ^ f.p) :
    ∃ num den, f.value (f.pack neg ex fr) = .fin neg num den ∧ (num : ℚ) / den = f.magnitude ex fr := by
  have hexp := hf.exp
  obtain ⟨h1, h2, h3⟩ := fields_pack hf neg (show ex < 2 ^ f.expBits by omega) hfr
  simp only [Fp.value, h1, h2, h3, Fp.magnitude, if_neg (show ex ≠ f.topExp + 1 by omega)]
  split
  · exact scaled_eq neg fr f.least
  · exact scaled_eq neg (2 ^ f.p + fr) _

theorem value_inf (hf : f.Standard) (neg : Bool) : f.value (f.inf neg) = .inf neg := by
  have hexp := hf.exp
  obtain ⟨h1, h2, h3⟩ := fields_pack hf neg (show f.topExp + 1 < 2 ^ f.expBits by omega) (fr := 0) (by positivity)
  simp only [Fp.inf, Fp.value, h1, h2, h3, if_true]

/-- A finite value of the format has the magnitude of some finite fields. -/
theorem holds_of_value (hf : f.Standard) {code num den : Nat} {neg : Bool} (h : f.value code = .fin neg num den) : f.Holds ((num : ℚ) / den) := by
  have hexp := hf.exp
  have hlt : code / 2 ^ f.p % 2 ^ f.expBits < 2 ^ f.expBits := Nat.mod_lt _ (by positivity)
  unfold Fp.value at h
  extract_lets fr ex neg at h
  split at h
  · split at h <;> cases h
  · next htop =>
    refine ⟨ex, fr, by omega, Nat.mod_lt _ (by positivity), ?_⟩
    rw [Fp.magnitude]
    split at h
    · next hex => rw [if_pos hex]; exact magnitude_of_scaled h
    · next hex => rw [if_neg hex]; exact magnitude_of_scaled h

/-- A finite magnitude is a multiple of a power of two, of at most one bit more than the fraction. -/
theorem holds_multiple {q : ℚ} (h : f.Holds q) : ∃ (m : Nat) (e : Int), q = m * 2 ^ e ∧ m < 2 ^ (f.p + 1) ∧ f.least ≤ e := by
  obtain ⟨ex, fr, hex, hfr, rfl⟩ := h
  rw [Fp.magnitude]
  split
  · exact ⟨fr, f.least, rfl, by rw [pow_succ]; omega, le_rfl⟩
  · exact ⟨2 ^ f.p + fr, _, rfl, by rw [pow_succ]; omega, by unfold Fp.least; omega⟩

end
end Sys2Proof.Machine

/-! ## The spacing at a magnitude, and the fields of its multiples -/

namespace Sys2Proof.Machine

/-! ### The spacing at a magnitude (R65) -/

/-- A quotient in units of `2 ^ e`. -/
theorem inUnits_eq {n d : Nat} (hd : 0 < d) (e : Int) : 0 < (inUnits n d e).2 ∧ ((inUnits n d e).1 : ℚ) / (inUnits n d e).2 = (n : ℚ) / d / 2 ^ e := by
  unfold inUnits
  split
  · next h =>
    lift e to ℕ using h
    refine ⟨by positivity, ?_⟩
    simp [div_div]
  · next h =>
    obtain ⟨k, rfl⟩ : ∃ k : ℕ, e = -k := ⟨(-e).toNat, by omega⟩
    refine ⟨hd, ?_⟩
    simp [zpow_neg, div_mul_eq_mul_div]

/-- The bound that `floorLog2` tests. -/
theorem two_zpow_le_div_iff {n d : Nat} (hd : 0 < d) (k : Int) :
    (if 0 ≤ k then d * 2 ^ k.toNat ≤ n else d ≤ n * 2 ^ (-k).toNat) ↔ (2 : ℚ) ^ k ≤ (n : ℚ) / d := by
  have hd' : (0 : ℚ) < d := by exact_mod_cast hd
  split
  · next h =>
    lift k to ℕ using h
    rw [le_div_iff₀ hd', ← Nat.cast_le (α := ℚ), mul_comm]
    simp
  · next h =>
    obtain ⟨k, rfl⟩ : ∃ j : ℕ, k = -j := ⟨(-k).toNat, by omega⟩
    rw [le_div_iff₀ hd', ← Nat.cast_le (α := ℚ), zpow_neg, inv_mul_le_iff₀ (by positivity), mul_comm ((2 : ℚ) ^ _)]
    simp

/-- `floorLog2` is the exponent of the binade of a quotient. -/
theorem floorLog2_spec {n d : Nat} (hn : 0 < n) (hd : 0 < d) :
    (2 : ℚ) ^ floorLog2 n d ≤ (n : ℚ) / d ∧ (n : ℚ) / d < 2 ^ (floorLog2 n d + 1) := by
  have hd' : (0 : ℚ) < d := by exact_mod_cast hd
  have bounds : ∀ a : Nat, 0 < a → (2 : ℚ) ^ (a.log2 : Int) ≤ a ∧ (a : ℚ) < 2 ^ ((a.log2 : Int) + 1) := fun a ha =>
    ⟨by exact_mod_cast Nat.log2_self_le ha.ne', by exact_mod_cast Nat.lt_log2_self⟩
  obtain ⟨hnl, hnu⟩ := bounds n hn
  obtain ⟨hdl, hdu⟩ := bounds d hd
  have hup : (n : ℚ) / d < 2 ^ ((n.log2 : Int) - d.log2 + 1) := by
    rw [div_lt_iff₀ hd']
    calc (n : ℚ) < 2 ^ ((n.log2 : Int) - d.log2 + 1) * 2 ^ (d.log2 : Int) := by rw [← zpow_add₀ two_ne_zero]; convert hnu using 2; ring
      _ ≤ _ := by gcongr
  have hlow : (2 : ℚ) ^ ((n.log2 : Int) - d.log2 - 1) ≤ (n : ℚ) / d := by
    rw [le_div_iff₀ hd']
    calc (2 : ℚ) ^ ((n.log2 : Int) - d.log2 - 1) * d ≤ 2 ^ ((n.log2 : Int) - d.log2 - 1) * 2 ^ ((d.log2 : Int) + 1) := by gcongr
      _ = 2 ^ (n.log2 : Int) := by rw [← zpow_add₀ two_ne_zero]; congr 1; ring
      _ ≤ n := hnl
  simp only [floorLog2, two_zpow_le_div_iff hd]
  split
  · next h => exact ⟨h, hup⟩
  · next h => exact ⟨hlow, by simpa using h⟩

section
variable {f : Fp} {n d : Nat}

theorem least_le_spacing (f : Fp) (n d : Nat) : f.least ≤ f.spacing n d := by
  have := le_max_right (floorLog2 n d) (1 - f.bias)
  unfold Fp.least Fp.spacing; omega

/-- In units of its spacing a magnitude is below `2 ^ (p + 1)`. -/
theorem div_spacing_lt (f : Fp) (hn : 0 < n) (hd : 0 < d) : (n : ℚ) / d / 2 ^ f.spacing n d < 2 ^ (f.p + 1) := by
  rw [div_lt_iff₀ (by positivity), ← zpow_natCast, ← zpow_add₀ two_ne_zero]
  refine (floorLog2_spec hn hd).2.trans_le (zpow_le_zpow_right₀ one_le_two ?_)
  have := le_max_left (floorLog2 n d) (1 - f.bias)
  unfold Fp.spacing; push_cast; omega

/-- Above the subnormal range a magnitude is at least `2 ^ p` units of its spacing. -/
theorem le_div_spacing (f : Fp) (hn : 0 < n) (hd : 0 < d) (h : f.spacing n d ≠ f.least) : 2 ^ f.p ≤ (n : ℚ) / d / 2 ^ f.spacing n d := by
  rw [le_div_iff₀ (by positivity), ← zpow_natCast, ← zpow_add₀ two_ne_zero]
  refine le_trans (zpow_le_zpow_right₀ one_le_two ?_) (floorLog2_spec hn hd).1
  rcases max_choice (floorLog2 n d) (1 - f.bias) with e | e <;> unfold Fp.spacing Fp.least at * <;> omega

/-- The whole number of units of its spacing in a magnitude. -/
def Fp.units (f : Fp) (n d : Nat) : Nat := ⌊(n : ℚ) / d / 2 ^ f.spacing n d⌋₊

theorem units_le (f : Fp) (n d : Nat) : (f.units n d : ℚ) ≤ (n : ℚ) / d / 2 ^ f.spacing n d := Nat.floor_le (by positivity)
theorem lt_units_succ (f : Fp) (n d : Nat) : (n : ℚ) / d / 2 ^ f.spacing n d < f.units n d + 1 := Nat.lt_floor_add_one _

theorem units_lt (f : Fp) (hn : 0 < n) (hd : 0 < d) : f.units n d < 2 ^ (f.p + 1) := by
  have h := (units_le f n d).trans_lt (div_spacing_lt f hn hd)
  exact_mod_cast h

theorem pow_le_units (f : Fp) (hn : 0 < n) (hd : 0 < d) (h : f.spacing n d ≠ f.least) : 2 ^ f.p ≤ f.units n d :=
  Nat.le_floor (by exact_mod_cast le_div_spacing f hn hd h)

/-- The spacing leaves no gap: no finite magnitude of the format lies strictly between the two multiples of it around a magnitude. -/
theorem holds_outside (hn : 0 < n) (hd : 0 < d) {q : ℚ} (hq : f.Holds q) :
    q ≤ f.units n d * 2 ^ f.spacing n d ∨ (f.units n d + 1) * 2 ^ f.spacing n d ≤ q := by
  obtain ⟨m, e, rfl, hm, he⟩ := holds_multiple hq
  by_cases hle : f.spacing n d ≤ e
  · obtain ⟨j, rfl⟩ : ∃ j : ℕ, e = f.spacing n d + j := ⟨(e - f.spacing n d).toNat, by omega⟩
    have hwhole : (m : ℚ) * 2 ^ (f.spacing n d + j) = (m * 2 ^ j : Nat) * 2 ^ f.spacing n d := by
      rw [zpow_add₀ two_ne_zero, zpow_natCast]; push_cast; ring
    rw [hwhole]
    rcases Nat.lt_or_ge (f.units n d) (m * 2 ^ j) with h | h
    · right; gcongr; exact_mod_cast h
    · left; gcongr
  · left
    have hunits := pow_le_units f hn hd (show f.spacing n d ≠ f.least by omega)
    calc (m : ℚ) * 2 ^ e ≤ 2 ^ (f.p + 1) * 2 ^ e := by gcongr; exact_mod_cast hm.le
      _ = 2 ^ f.p * 2 ^ (e + 1) := by rw [zpow_add_one₀ two_ne_zero]; ring
      _ ≤ f.units n d * 2 ^ f.spacing n d := by
        gcongr
        · exact_mod_cast hunits
        · exact one_le_two
        · omega

/-! ### The rounded multiple and its fields (R65) -/

/-- A multiple of the spacing that the fields can hold: the whole units of a magnitude, or one more. -/
theorem units_fit (hn : 0 < n) (hd : 0 < d) {m : Nat} (hm : m = f.units n d ∨ m = f.units n d + 1) :
    m ≤ 2 ^ (f.p + 1) ∧ (m < 2 ^ f.p → f.spacing n d = f.least) := by
  have hlt := units_lt f hn hd
  refine ⟨by omega, fun h => ?_⟩
  by_contra hne
  have := pow_le_units f hn hd hne
  omega

/-- The exponent and the fraction field of a normal multiple. -/
theorem normal_fields {m : Nat} {e : Int} (he : f.least ≤ e) (hlo : 2 ^ f.p ≤ m) (hhi : m ≤ 2 ^ (f.p + 1)) :
    ∃ ex fr, (if m = 2 ^ (f.p + 1) then ((e + f.bias + f.p).toNat + 1, 0) else ((e + f.bias + f.p).toNat, m - 2 ^ f.p)) = (ex, fr) ∧
      0 < ex ∧ fr < 2 ^ f.p ∧ (m : ℚ) * 2 ^ e = (2 ^ f.p + fr : Nat) * 2 ^ ((ex : Int) - f.bias - f.p) := by
  unfold Fp.least at he
  split
  · next h =>
    refine ⟨_, _, rfl, by omega, by positivity, ?_⟩
    rw [h, show (((e + f.bias + f.p).toNat + 1 : Nat) : Int) - f.bias - f.p = e + 1 by omega, zpow_add_one₀ two_ne_zero]
    push_cast; ring
  · next h =>
    rw [pow_succ] at h hhi
    refine ⟨_, _, rfl, by omega, by omega, ?_⟩
    rw [show (((e + f.bias + f.p).toNat : Nat) : Int) - f.bias - f.p = e by omega, Nat.add_sub_cancel' hlo]

/-- No finite magnitude is above that of the largest code. -/
theorem holds_le_largest (hf : f.Standard) {q : ℚ} (hq : f.Holds q) : q ≤ f.magnitude f.topExp f.topFrac := by
  have hfrac : f.topFrac = 2 ^ f.p - 1 := by have := hf.frac; omega
  obtain ⟨ex, fr, hex, hfr, rfl⟩ := hq
  rw [Fp.magnitude, Fp.magnitude, if_neg hf.normal.ne']
  split
  · have hle : (fr : ℚ) ≤ (2 ^ f.p + f.topFrac : Nat) := by exact_mod_cast (show fr ≤ 2 ^ f.p + f.topFrac by omega)
    gcongr
    · exact one_le_two
    · have := hf.normal
      unfold Fp.least; omega
  · have hle : ((2 ^ f.p + fr : Nat) : ℚ) ≤ (2 ^ f.p + f.topFrac : Nat) := by exact_mod_cast (show 2 ^ f.p + fr ≤ 2 ^ f.p + f.topFrac by omega)
    gcongr
    exact one_le_two

/-- The largest finite magnitude is not above a normal magnitude of a greater exponent. -/
theorem largest_le {ex fr : Nat} (hf : f.Standard) (hex : f.topExp < ex) :
    f.magnitude f.topExp f.topFrac ≤ (2 ^ f.p + fr : Nat) * 2 ^ ((ex : Int) - f.bias - f.p) := by
  have hfrac := hf.frac
  rw [Fp.magnitude, if_neg hf.normal.ne']
  calc ((2 ^ f.p + f.topFrac : Nat) : ℚ) * 2 ^ ((f.topExp : Int) - f.bias - f.p)
      ≤ (2 ^ f.p * 2 : Nat) * 2 ^ ((f.topExp : Int) - f.bias - f.p) := by gcongr; omega
    _ = (2 ^ f.p : Nat) * 2 ^ ((f.topExp : Int) - f.bias - f.p + 1) := by rw [zpow_add_one₀ two_ne_zero]; push_cast; ring
    _ ≤ _ := by
      gcongr
      · omega
      · exact one_le_two
      · omega

/-- The fields of a multiple stand for it, unless it is above every finite magnitude. -/
theorem fields_spec (hf : f.Standard) {m : Nat} {e : Int} (he : f.least ≤ e) (hm : m ≤ 2 ^ (f.p + 1)) (hsub : m < 2 ^ f.p → e = f.least) :
    (∃ ex fr, f.fields m e = .code ex fr ∧ ex ≤ f.topExp ∧ fr < 2 ^ f.p ∧ f.magnitude ex fr = m * 2 ^ e) ∨
      (f.fields m e = .over ∧ f.magnitude f.topExp f.topFrac ≤ m * 2 ^ e) := by
  unfold Fp.fields
  split
  · next h => exact .inl ⟨0, m, rfl, Nat.zero_le _, h, by rw [hsub h]; rfl⟩
  · next h =>
    have hfrac := hf.frac
    obtain ⟨ex, fr, hr, hpos, hfr, hval⟩ := normal_fields he (not_lt.mp h) hm
    simp only [hr]
    split
    · next hover => exact .inr ⟨rfl, hval ▸ largest_le hf (by omega)⟩
    · next hover => exact .inl ⟨ex, fr, rfl, by omega, hfr, by rw [Fp.magnitude, if_neg hpos.ne', hval]⟩

end
end Sys2Proof.Machine

/-! ## O29: the one rounding, toward zero and to the nearest -/

namespace Sys2Proof.Machine

section
variable {f : Fp} {n d : Nat}

/-- The quotient that a rounding starts from. -/
theorem inUnits_div (f : Fp) (hd : 0 < d) : (inUnits n d (f.spacing n d)).1 / (inUnits n d (f.spacing n d)).2 = f.units n d := by
  rw [Fp.units, ← (inUnits_eq hd _).2, Nat.floor_div_eq_div]

/-- A rounding takes the whole units or one more, as the mode, the sign and the rest say. -/
theorem round_eq (f : Fp) {mode : Nat} (neg : Bool) (hd : 0 < d) (tie : Nat → Bool) (h : ¬(f.p = 0 ∧ mode = 0)) :
    f.round mode neg n d tie = f.fields (if roundUp mode neg (f.units n d)
      ((inUnits n d (f.spacing n d)).1 % (inUnits n d (f.spacing n d)).2 == 0)
      (compare (2 * ((inUnits n d (f.spacing n d)).1 % (inUnits n d (f.spacing n d)).2)) (inUnits n d (f.spacing n d)).2)
      then f.units n d + 1 else f.units n d) (f.spacing n d) := by
  simp only [Fp.round, inUnits_div f hd, if_neg (fun hh : f.p = 0 ∧ mode = 0 ∧ _ => h ⟨hh.1, hh.2.1⟩)]

/-- R65: rounding toward zero keeps the whole units. -/
theorem round_toZero (f : Fp) (neg : Bool) (hd : 0 < d) (tie : Nat → Bool) :
    f.round 1 neg n d tie = f.fields (f.units n d) (f.spacing n d) := by
  simp [round_eq f neg hd tie (show ¬(f.p = 0 ∧ 1 = 0) by simp), roundUp]

/-- The rest of a quotient, in its units: what the exact value has above the whole units. -/
theorem inUnits_rest (f : Fp) (hd : 0 < d) :
    ((inUnits n d (f.spacing n d)).1 % (inUnits n d (f.spacing n d)).2 : Nat) / ((inUnits n d (f.spacing n d)).2 : ℚ) =
      (n : ℚ) / d / 2 ^ f.spacing n d - f.units n d := by
  obtain ⟨hpos, hval⟩ := inUnits_eq (n := n) hd (f.spacing n d)
  have hpos' : ((inUnits n d (f.spacing n d)).2 : ℚ) ≠ 0 := by positivity
  rw [← hval, ← inUnits_div f hd, div_eq_iff hpos', sub_mul, div_mul_cancel₀ _ hpos', eq_sub_iff_add_eq]
  exact_mod_cast Nat.mod_add_div' _ _

/-- In the mode to the nearest, the upper neighbour is taken for at least a half, and the lower one for at most a half. -/
theorem roundUp_nearest (neg : Bool) (low rest b : Nat) :
    (roundUp 0 neg low (rest == 0) (compare (2 * rest) b) = true → b ≤ 2 * rest) ∧
      (roundUp 0 neg low (rest == 0) (compare (2 * rest) b) = false → 2 * rest ≤ b) := by
  rcases Nat.lt_trichotomy (2 * rest) b with h | h | h
  · have hc : compare (2 * rest) b = .lt := compare_lt_iff_lt.mpr h
    refine ⟨fun hup => ?_, fun _ => h.le⟩
    simp [roundUp, hc] at hup
  · exact ⟨fun _ => h.ge, fun _ => h.le⟩
  · have hc : compare (2 * rest) b = .gt := compare_gt_iff_gt.mpr h
    refine ⟨fun _ => h.le, fun hup => ?_⟩
    simp [roundUp, hc] at hup
    omega

/-- R65: rounding to the nearest takes one of the two neighbouring multiples, the nearer one. -/
theorem round_nearest (hf : 0 < f.p) (neg : Bool) (hd : 0 < d) (tie : Nat → Bool) :
    ∃ m, f.round 0 neg n d tie = f.fields m (f.spacing n d) ∧
      ((m = f.units n d ∧ (n : ℚ) / d / 2 ^ f.spacing n d - f.units n d ≤ 1 / 2) ∨
        (m = f.units n d + 1 ∧ 1 / 2 ≤ (n : ℚ) / d / 2 ^ f.spacing n d - f.units n d)) := by
  refine ⟨_, round_eq f neg hd tie (by simp [hf.ne']), ?_⟩
  rw [← inUnits_rest f hd]
  have hpos := (inUnits_eq (n := n) hd (f.spacing n d)).1
  generalize (inUnits n d (f.spacing n d)).1 % (inUnits n d (f.spacing n d)).2 = rest
  generalize (inUnits n d (f.spacing n d)).2 = b at hpos
  have hb : (0 : ℚ) < b := by exact_mod_cast hpos
  obtain ⟨hup, hdown⟩ := roundUp_nearest neg (f.units n d) rest b
  split
  · next h =>
    refine .inr ⟨rfl, ?_⟩
    have : (b : ℚ) ≤ 2 * rest := by exact_mod_cast hup h
    rw [le_div_iff₀ hb]; linarith
  · next h =>
    refine .inl ⟨rfl, ?_⟩
    have : (2 * rest : ℚ) ≤ b := by exact_mod_cast hdown (by simpa using h)
    rw [div_le_iff₀ hb]; linarith

/-! ### Rounded values -/

/-- Of two neighbours of a value, the nearer one is no farther from it than anything outside them. -/
theorem abs_sub_le_of_outside {v lo hi b q : ℚ} (hlo : lo ≤ v) (hhi : v ≤ hi) (hq : q ≤ lo ∨ hi ≤ q)
    (hb : b = lo ∧ v - lo ≤ hi - v ∨ b = hi ∧ hi - v ≤ v - lo) : |b - v| ≤ |q - v| := by
  have hleast : |b - v| ≤ v - lo ∧ |b - v| ≤ hi - v := by
    rcases hb with ⟨rfl, h⟩ | ⟨rfl, h⟩
    · rw [abs_of_nonpos (by linarith)]; constructor <;> linarith
    · rw [abs_of_nonneg (by linarith)]; constructor <;> linarith
  rcases hq with h | h
  · exact hleast.1.trans (by rw [abs_of_nonpos (by linarith)]; linarith)
  · exact hleast.2.trans (by rw [abs_of_nonneg (by linarith)]; linarith)

/-- A zero is encoded as a zero. -/
theorem encode_zero (f : Fp) (mode : Nat) (neg : Bool) : f.encode mode (.fin neg 0 d) = f.pack neg 0 0 := rfl

theorem magnitude_zero (f : Fp) : f.magnitude 0 0 = 0 := by simp [Fp.magnitude]

theorem holds_nonneg {q : ℚ} (h : f.Holds q) : 0 ≤ q := by
  obtain ⟨m, e, rfl, -⟩ := holds_multiple h
  positivity

/-- R65, R66: a value rounded toward zero is finite and keeps its sign; its magnitude is the greatest of the format that is not above the exact one. -/
theorem encode_toZero (hf : f.Standard) (neg : Bool) (hd : 0 < d) :
    ∃ num den, f.value (f.encode 1 (.fin neg n d)) = .fin neg num den ∧ (num : ℚ) / den ≤ (n : ℚ) / d ∧
      ∀ q, f.Holds q → q ≤ (n : ℚ) / d → q ≤ (num : ℚ) / den := by
  rcases Nat.eq_zero_or_pos n with rfl | hn
  · obtain ⟨num, den, hv, hq⟩ := value_pack hf neg (Nat.zero_le _) (show 0 < 2 ^ f.p by positivity)
    rw [encode_zero]
    refine ⟨num, den, hv, ?_, fun q _ hle => ?_⟩ <;> rw [hq, magnitude_zero] <;> simp_all
  · have hscale : (0 : ℚ) < 2 ^ f.spacing n d := by positivity
    have hlow : f.units n d * 2 ^ f.spacing n d ≤ (n : ℚ) / d := (le_div_iff₀ hscale).mp (units_le f n d)
    have hhigh : (n : ℚ) / d < (f.units n d + 1) * 2 ^ f.spacing n d := (div_lt_iff₀ hscale).mp (lt_units_succ f n d)
    obtain ⟨hfit, hsub⟩ := units_fit (f := f) hn hd (.inl rfl)
    simp only [Fp.encode, if_neg hn.ne', round_toZero f neg hd]
    rcases fields_spec hf (least_le_spacing f n d) hfit hsub with ⟨ex, fr, hr, hex, hfr, hmag⟩ | ⟨hr, hmag⟩
    · obtain ⟨num, den, hv, hq⟩ := value_pack hf neg hex hfr
      simp only [hr]
      refine ⟨num, den, hv, hq ▸ hmag ▸ hlow, fun q hh hle => ?_⟩
      rw [hq, hmag]
      exact (holds_outside hn hd hh).resolve_right (fun h => absurd (h.trans hle) (not_le.mpr hhigh))
    · have hfrac := hf.frac
      obtain ⟨num, den, hv, hq⟩ := value_pack hf neg le_rfl (show f.topFrac < 2 ^ f.p by omega)
      simp only [hr]
      exact ⟨num, den, hv, hq ▸ hmag.trans hlow, fun q hh _ => hq ▸ holds_le_largest hf hh⟩

/-- R65: a finite value rounded to the nearest keeps its sign, and no finite magnitude of the format is nearer than its own. -/
theorem encode_nearest (hf : f.Standard) (neg : Bool) (hd : 0 < d) {bn : Bool} {bnum bden : Nat}
    (h : f.value (f.encode 0 (.fin neg n d)) = .fin bn bnum bden) :
    bn = neg ∧ ∀ q, f.Holds q → |(bnum : ℚ) / bden - (n : ℚ) / d| ≤ |q - (n : ℚ) / d| := by
  rcases Nat.eq_zero_or_pos n with rfl | hn
  · obtain ⟨num, den, hv, hq⟩ := value_pack hf neg (Nat.zero_le _) (show 0 < 2 ^ f.p by positivity)
    rw [encode_zero] at h
    cases hv.symm.trans h
    exact ⟨rfl, fun q _ => by rw [hq, magnitude_zero]; simp⟩
  · obtain ⟨m, hround, hm⟩ := round_nearest hf.fraction (n := n) neg hd (fun _ => false)
    obtain ⟨hfit, hsub⟩ := units_fit (f := f) hn hd (m := m) (hm.imp And.left And.left)
    simp only [Fp.encode, if_neg hn.ne', hround] at h
    rcases fields_spec hf (least_le_spacing f n d) hfit hsub with ⟨ex, fr, hr, hex, hfr, hmag⟩ | ⟨hr, -⟩
    · obtain ⟨num, den, hv, hq⟩ := value_pack hf neg hex hfr
      simp only [hr] at h
      cases hv.symm.trans h
      refine ⟨rfl, fun q hh => ?_⟩
      have hscale : (0 : ℚ) < 2 ^ f.spacing n d := by positivity
      have hlow := (le_div_iff₀ hscale).mp (units_le f n d)
      have hhigh := (div_lt_iff₀ hscale).mp (lt_units_succ f n d)
      rw [hq, hmag]
      refine abs_sub_le_of_outside hlow hhigh.le (holds_outside hn hd hh)
        (hm.imp (fun ⟨e, hx⟩ => ⟨by rw [e], ?_⟩) (fun ⟨e, hx⟩ => ⟨by rw [e]; push_cast; rfl, ?_⟩))
      · rw [sub_le_iff_le_add, div_le_iff₀ hscale] at hx
        linarith
      · rw [le_sub_iff_add_le, le_div_iff₀ hscale] at hx
        linarith
    · simp only [hr, overInf, beq_self_eq_true, Bool.true_or, if_true, value_inf hf] at h
      cases h
end

/-! ### The statement -/

/-- With signs: a value of the exact one's sign that is nearest in magnitude is nearest. -/
theorem rational_nearest {neg qn : Bool} {b v q : ℚ} (hv : 0 ≤ v) (hq : 0 ≤ q) (h : |b - v| ≤ |q - v|) :
    |signOf neg * b - signOf neg * v| ≤ |signOf qn * q - signOf neg * v| := by
  have habs : ∀ n : Bool, |signOf n| = 1 := fun n => by cases n <;> simp [signOf]
  rw [← mul_sub, abs_mul, habs, one_mul]
  by_cases hsame : qn = neg
  · rwa [hsame, ← mul_sub, abs_mul, habs, one_mul]
  · have hother : signOf qn = -signOf neg := by cases qn <;> cases neg <;> simp [signOf] at hsame ⊢
    rw [hother, show -signOf neg * q - signOf neg * v = -(signOf neg * (q + v)) by ring, abs_neg, abs_mul, habs, one_mul, abs_of_nonneg (add_nonneg hq hv)]
    exact h.trans (abs_le.mpr ⟨by linarith, by linarith⟩)

theorem mkRat_natCast (n d : Nat) : mkRat n d = (n : ℚ) / d := by rw [Rat.mkRat_eq_div]; rfl

/-- Settles O29: sums and products by the arithmetic of fractions; a rounding takes one of the two multiples of the spacing around the exact magnitude
(`round_toZero`, `round_nearest`), and no magnitude of the format lies between those (`holds_outside`). -/
theorem roundingRules : Obligations.RoundingRules := by
  refine ⟨fun a b n m d e mode hd he => ⟨rational_add a b n m d e mode hd he, rational_mul a b n m d e⟩,
    fun f hf neg n d hd bn bnum bden hb code qn qnum qden _ hq => ?_, fun f hf neg n d hd => ?_⟩
  · have hstd := standard_of_mem hf
    obtain ⟨rfl, hnear⟩ := encode_nearest hstd neg hd hb
    have hheld := holds_of_value hstd hq
    simp only [rational_fin]
    exact rational_nearest (by positivity) (holds_nonneg hheld) (hnear _ hheld)
  · have hstd := standard_of_mem hf
    obtain ⟨num, den, hv, hle, hmax⟩ := encode_toZero hstd neg hd (n := n)
    simp only [mkRat_natCast]
    exact ⟨num, den, hv, hle, fun code qn qnum qden _ hq => hmax _ (holds_of_value hstd hq)⟩

end Sys2Proof.Machine

/-! ## Groups through the notes of an access: only reservations change -/

namespace Sys2Proof.Machine

/-! ### Groups but for their reservations -/

/-- A group without its reservation (R203). -/
def Group.unreserved (g : Group) : Group := { g with reserved := none }

/-- Every group of `s` is in `t` what it was, but for reservations. -/
def KeepsGroups (s t : State) : Prop := ∀ g, (groupFind t g).map Group.unreserved = (groupFind s g).map Group.unreserved

theorem KeepsGroups.refl (s : State) : KeepsGroups s s := fun _ => rfl
theorem KeepsGroups.trans {s t u : State} (h : KeepsGroups s t) (k : KeepsGroups t u) : KeepsGroups s u := fun g => (k g).trans (h g)
theorem KeepsGroups.of_wgs {s t u : State} (h : KeepsGroups s t) (e : u.wgs = t.wgs) : KeepsGroups s u := fun g => by rw [groupFind_congr e]; exact h g

/-- Steps that each keep the groups keep them together. -/
theorem KeepsGroups.foldl {α : Type} {s t : State} (h : KeepsGroups s t) (l : List α) (f : State → α → State) (hf : ∀ u a, KeepsGroups u (f u a)) :
    KeepsGroups s (l.foldl f t) :=
  List.foldlRecOn (motive := fun u => KeepsGroups s u) l f h (fun u hu a _ => hu.trans (hf u a))

/-- A group that stands in `s` stands in `t`, but for its reservation. -/
theorem KeepsGroups.found {s t : State} (h : KeepsGroups s t) {i : GroupId} {g : Group} (hg : groupFind s i = some g) :
    ∃ k, groupFind t i = some k ∧ k.unreserved = g.unreserved := by
  have e := h i
  rw [hg] at e
  simpa using e

theorem putLine_wgs (s : State) (c : CacheLine) : (putLine s c).wgs = s.wgs := by
  unfold putLine; split
  · rfl
  · split <;> rfl

theorem homePut_wgs (s : State) (a : Nat) (bs : List Byte) : (homePut s a bs).wgs = s.wgs := by
  unfold homePut noteFormer; split <;> rfl

theorem setLinePoison_wgs (s : State) (l : Nat) (p m : BitVec 4) : (setLinePoison s l p m).wgs = s.wgs := by
  unfold setLinePoison; rfl

theorem placeMerge_wgs (s : State) (pl : Agent) (l : Nat) (m : BitVec 128) (data : List Byte) (p : BitVec 4) : (placeMerge s pl l m data p).wgs = s.wgs := by
  unfold placeMerge; split
  · rfl
  · split
    · exact putLine_wgs _ _
    · exact (setLinePoison_wgs _ _ _ _).trans (homePut_wgs _ _ _)

/-- Steps that each leave the workgroups leave them together. -/
theorem foldl_wgs {α : Type} (l : List α) (f : State → α → State) (hf : ∀ u a, (f u a).wgs = u.wgs) (s : State) : (l.foldl f s).wgs = s.wgs :=
  List.foldlRecOn (motive := fun u : State => u.wgs = s.wgs) l f rfl (fun u hu a _ => (hf u a).trans hu)

theorem flushLine_wgs (s : State) (l : Nat) : (flushLine s l).wgs = s.wgs := by
  have merge : ∀ (cs : List CacheLine) (u : State), (cs.foldl (fun s c => placeMerge s .home l c.dirty c.data c.poison) u).wgs = u.wgs :=
    fun cs u => foldl_wgs cs _ (fun _ _ => placeMerge_wgs _ _ _ _ _ _) u
  exact (merge _ _).trans ((foldl_wgs _ _ (fun _ _ => placeMerge_wgs _ _ _ _ _ _) _).trans (merge _ _))

theorem leaveWay_wgs (s : State) (tower l : Nat) : (leaveWay s tower l).wgs = s.wgs := by
  unfold leaveWay; split
  · exact placeMerge_wgs _ _ _ _ _ _
  · split
    · exact flushLine_wgs s l
    · rfl

theorem cleanWays_wgs (s : State) (keep : CacheLine → Bool) : (cleanWays s keep).wgs = s.wgs :=
  foldl_wgs _ _ (fun _ _ => (putLine_wgs _ _).trans (placeMerge_wgs _ _ _ _ _ _)) s

theorem evictHandle_wgs (s : State) (tower h : Nat) : (evictHandle s tower h).wgs = s.wgs := by
  unfold evictHandle; split
  · rfl
  · exact (cleanWays_wgs _ _).trans (foldl_wgs _ _ (fun _ _ => leaveWay_wgs _ _ _) s)

/-- An access of a tower's slices changes no workgroup. -/
theorem sliceTouch_wgs (s : State) (tower pa va space home : Nat) : (sliceTouch s tower pa va space home).wgs = s.wgs := by
  unfold sliceTouch
  extract_lets t l sl remote new mates place p held
  split
  · rfl
  split
  · rfl
  split
  · rfl
  split
  · rfl
  split
  · exact leaveWay_wgs _ _ _
  · split
    · exact evictHandle_wgs _ _ _
    · rfl

theorem keepsGroups_clearReservations (s : State) (l : Nat) : KeepsGroups s (clearReservations s l) := by
  intro i
  have hw : wgFind (clearReservations s l) i.wg =
      (wgFind s i.wg).map (fun w => { w with groups := w.groups.map (fun g => if g.reserved = some l then { g with reserved := none } else g) }) :=
    firstWith_map _ s.wgs _ (fun _ => rfl)
  simp only [groupFind, hw]
  cases wgFind s i.wg with
  | none => rfl
  | some w =>
    simp only [Option.map_some, Option.bind_some, List.getElem?_map, Option.map_map]
    congr 1
    funext g
    simp only [Function.comp_apply]
    split <;> rfl

/-- A record in the migration queue changes no group but for reservations on its lines. -/
theorem keepsGroups_postMigration (s : State) (chunk tower : Nat) (counts : List Nat) : KeepsGroups s (postMigration s chunk tower counts) := by
  unfold postMigration
  split
  · exact .refl s
  extract_lets u prod cons r put s1 s2 s3
  have hu : KeepsGroups s u := (KeepsGroups.refl s).of_wgs (flushLine_wgs _ _)
  have hput : ∀ v a bs, KeepsGroups v (put v a bs) := fun v a bs =>
    (((KeepsGroups.refl v).of_wgs (u := settleGlobal (flushLine v (lineOf a)) a bs.length) (flushLine_wgs _ _)).trans
      (keepsGroups_clearReservations _ _)).of_wgs (homePut_wgs _ _ _)
  have h2 : KeepsGroups s s2 := (hu.trans (hput _ _ _)).trans (hput _ _ _)
  have h3 : KeepsGroups s s3 := by
    unfold s3; split
    · exact h2
    · exact h2.trans (hput _ _ _)
  split
  · exact hu
  · split
    · exact h3.of_wgs rfl
    · exact h3

theorem keepsGroups_countAccess (s : State) (pa tower : Nat) : KeepsGroups s (countAccess s pa tower) := by
  unfold countAccess; split
  · unfold checkMigration
    extract_lets chunk c new q
    split
    · exact .of_wgs (.refl s) rfl
    · split
      · exact .of_wgs (.refl s) rfl
      · exact .trans (.of_wgs (.refl s) rfl) (keepsGroups_postMigration _ _ _ _)
  · exact .refl s

theorem logRun_wgs (s : State) (pa n : Nat) (reads writes : Bool) (key cls : Nat) : (logRun s pa n reads writes key cls).wgs = s.wgs := by
  unfold logRun
  extract_lets t bytes hits
  split <;> rfl

theorem logAccess_wgs (s : State) (pa n : Nat) (reads writes : Bool) (key cls : Nat) : (logAccess s pa n reads writes key cls).wgs = s.wgs := by
  unfold logAccess; split
  · exact logRun_wgs _ _ _ _ _ _ _
  · exact foldl_wgs _ _ (fun _ _ => logRun_wgs _ _ _ _ _ _ _) s

/-- The notes of a part of a row change no group but for reservations. -/
theorem keepsGroups_notePart (s : State) (w : Workgroup) (p : Part) (write : Bool) : KeepsGroups s (notePart s w p write) := by
  unfold notePart
  extract_lets space
  split
  · exact ((KeepsGroups.refl s).foldl _ _ (fun u l => ((KeepsGroups.refl u).of_wgs (sliceTouch_wgs _ _ _ _ _ _)).trans
      (keepsGroups_countAccess _ _ _))).of_wgs (logAccess_wgs _ _ _ _ _ _ _)
  · exact .refl s

end Sys2Proof.Machine

/-! ## The accumulator store: rows that are loaded, zeroed, multiplied into, poisoned -/

namespace Sys2Proof.Machine

/-! ### Rows of the accumulator store (R38, R235) -/

theorem accAt_congr {g h : Group} (e : h.acc = g.acc) (k i j : Nat) : accAt h k i j = accAt g k i j := by rw [accAt, accAt, e]
theorem accPoisoned_congr {g h : Group} (e : h.accPoison = g.accPoison) (k i : Nat) : accPoisoned h k i = accPoisoned g k i := by
  rw [accPoisoned, accPoisoned, e]

theorem accKey_inj {k k' i i' j j' : Nat} (hi : i < 96) (hi' : i' < 96) (hj : j < 64) (hj' : j' < 64) :
    accKey k i j = accKey k' i' j' ↔ k = k' ∧ i = i' ∧ j = j' := by
  unfold accKey; omega

/-- A run of values put in a row from a column on. -/
theorem get_putRun {tile row : Nat} (hrow : row < 96) {k i j : Nat} (hi : i < 96) (hj : j < 64) (vals : List Nat) (a : Nat) (ha : a + vals.length ≤ 64)
    (t : Table Word) :
    Table.get (((List.range' a vals.length).zip vals).foldl (fun t e => Table.put t (accKey tile row e.1) (BitVec.ofNat 32 e.2)) t) (accKey k i j) 0 =
      if k = tile ∧ i = row ∧ a ≤ j ∧ j < a + vals.length then BitVec.ofNat 32 (vals.getD (j - a) 0) else Table.get t (accKey k i j) 0 := by
  induction vals generalizing a t with
  | nil => rw [if_neg (by simp only [List.length_nil]; omega)]; rfl
  | cons v vs ih =>
    simp only [List.length_cons] at ha
    simp only [List.length_cons, List.range'_succ, List.zip_cons_cons, List.foldl_cons]
    have hkey := accKey_inj (k := k) (k' := tile) hi hrow hj (show a < 64 by omega)
    simp only [ih (a + 1) (by omega), Table.get_put, hkey]
    by_cases hrow' : k = tile ∧ i = row
    · obtain ⟨rfl, rfl⟩ := hrow'
      rcases Nat.lt_trichotomy j a with h | rfl | h
      · simp [show ¬ a + 1 ≤ j by omega, show ¬ j = a by omega, show ¬ a ≤ j by omega]
      · simp
      · obtain ⟨d, rfl⟩ : ∃ d, j = a + 1 + d := ⟨j - (a + 1), by omega⟩
        simp [show a + 1 + d - (a + 1) = d by omega, show a + 1 + d - a = d + 1 by omega, show ¬ a + 1 + d = a by omega, show a ≤ a + 1 + d by omega,
          show a + 1 + d < a + (vs.length + 1) ↔ a + 1 + d < a + 1 + vs.length by omega]
    · simp only [← and_assoc, hrow', false_and, if_false]

/-- A run written in a row is read in it, and every other element is as before. -/
theorem accAt_setAccRow (g : Group) (tile : Nat) {row : Nat} (hrow : row < 96) (vals : List Nat) (hlen : vals.length ≤ 64) {k i j : Nat}
    (hi : i < 96) (hj : j < 64) :
    accAt (setAccRow g tile row vals) k i j = if k = tile ∧ i = row ∧ j < vals.length then vals.getD j 0 % 2 ^ 32 else accAt g k i j := by
  have h := get_putRun (tile := tile) hrow (k := k) hi hj vals 0 (by omega) g.acc
  rw [← List.range_eq_range'] at h
  simp only [accAt, setAccRow, h, Nat.zero_le, true_and, zero_add, Nat.sub_zero]
  split
  · exact BitVec.toNat_ofNat _ _
  · rfl

theorem mem_sortIn {α : Type} (le : α → α → Bool) (a b : α) (l : List α) : b ∈ sortIn le a l ↔ b = a ∨ b ∈ l := by
  induction l with
  | nil => simp [sortIn]
  | cons c r ih =>
    unfold sortIn
    split
    · simp
    · simp [ih]; tauto

theorem mem_sortBy {α : Type} (le : α → α → Bool) (b : α) (l : List α) : b ∈ sortBy le l ↔ b ∈ l := by
  induction l with
  | nil => rfl
  | cons a r ih => rw [show sortBy le (a :: r) = sortIn le a (sortBy le r) from rfl, mem_sortIn, ih, List.mem_cons]

/-- Rows are marked or cleared, and every other row is as before. -/
theorem accPoisoned_setAccPoison (g : Group) (tile : Nat) {rows : List Nat} (hrows : ∀ r ∈ rows, r < 96) (on : Bool) (k : Nat) {i : Nat} (hi : i < 96) :
    accPoisoned (setAccPoison g tile rows on) k i = if k = tile ∧ i ∈ rows then on else accPoisoned g k i := by
  have hkey : k * 96 + i ∈ rows.map (tile * 96 + ·) ↔ k = tile ∧ i ∈ rows := by
    rw [List.mem_map]
    constructor
    · rintro ⟨r, hr, e⟩
      have := hrows r hr
      obtain ⟨rfl, rfl⟩ : k = tile ∧ i = r := by omega
      exact ⟨rfl, hr⟩
    · rintro ⟨rfl, h⟩; exact ⟨i, h, rfl⟩
  rw [Bool.eq_iff_iff]
  cases on
  · simp only [accPoisoned, setAccPoison, Bool.false_eq_true, if_false, List.mem_filter, Bool.not_eq_true',
      List.contains_eq_mem, decide_eq_false_iff_not, hkey]
    split <;> simp_all
  · simp only [accPoisoned, setAccPoison, if_true, mem_sortBy, List.mem_append, List.mem_filter, hkey, Bool.not_eq_true',
      List.contains_eq_mem, decide_eq_false_iff_not]
    split <;> simp_all

/-- One element of a state that the steps of a list, each for its own place, change or leave: it is changed once, by the step for its place. -/
theorem foldl_at {G ι V : Type} [DecidableEq ι] (get : G → V) (step : G → ι → G) (new : V → V) (place : ι) (l : List ι) (hnd : l.Nodup)
    (hstep : ∀ a ∈ l, ∀ g, get (step g a) = if a = place then new (get g) else get g) (g : G) :
    get (l.foldl step g) = if place ∈ l then new (get g) else get g := by
  induction l generalizing g with
  | nil => simp
  | cons a r ih =>
    obtain ⟨har, hr⟩ := List.nodup_cons.mp hnd
    rw [List.foldl_cons, ih hr (fun b hb => hstep b (List.mem_cons_of_mem _ hb)), hstep a List.mem_cons_self]
    by_cases h : a = place
    · subst h; simp [har]
    · simp [h, Ne.symm h]

theorem nodup_lanesOf (m : Mask) : (lanesOf m).Nodup := List.nodup_range.filter _

theorem lt_of_mem_lanesOf {m : Mask} {i : Nat} (h : i ∈ lanesOf m) : i < 96 := ((mem_lanesOf m i).mp h).1

theorem mem_lanesOf_of_lt {m : Mask} {i : Nat} (hi : i < 96) : i ∈ lanesOf m ↔ has m i = true := by rw [mem_lanesOf]; exact and_iff_right hi

/-! ### Rows loaded or zeroed (R233, R234) -/

/-- Rows of a tile take values, and marks of poison. -/
def loadRows (tile : Nat) (rows : Mask) (vals : Nat → List Nat) (bad : Nat → Bool) (g : Group) : Group :=
  (lanesOf rows).foldl (fun g i => setAccPoison (setAccRow g tile i (vals i)) tile [i] (bad i)) g

theorem accAt_loadRows (tile : Nat) (rows : Mask) (vals : Nat → List Nat) (hlen : ∀ i, (vals i).length = 64) (bad : Nat → Bool) (g : Group)
    {k i j : Nat} (hi : i < 96) (hj : j < 64) :
    accAt (loadRows tile rows vals bad g) k i j = if k = tile ∧ has rows i = true then (vals i).getD j 0 % 2 ^ 32 else accAt g k i j := by
  have h := foldl_at (fun g => accAt g k i j) (fun g i => setAccPoison (setAccRow g tile i (vals i)) tile [i] (bad i))
    (fun v => if k = tile then (vals i).getD j 0 % 2 ^ 32 else v) i (lanesOf rows) (nodup_lanesOf rows) (fun r hr u => ?_) g
  · simp only [loadRows, h, mem_lanesOf_of_lt hi]
    by_cases hk : k = tile <;> simp [hk]
  · have := accAt_setAccRow u tile (lt_of_mem_lanesOf hr) (vals r) (hlen r).le (k := k) hi hj
    rw [show accAt (setAccPoison (setAccRow u tile r (vals r)) tile [r] (bad r)) k i j = accAt (setAccRow u tile r (vals r)) k i j from rfl, this, hlen]
    by_cases hr : r = i
    · subst hr; simp [hj]
    · simp [hr, Ne.symm hr]

theorem accPoisoned_loadRows (tile : Nat) (rows : Mask) (vals : Nat → List Nat) (bad : Nat → Bool) (g : Group) (k : Nat) {i : Nat} (hi : i < 96) :
    accPoisoned (loadRows tile rows vals bad g) k i = if (k == tile && has rows i) = true then bad i else accPoisoned g k i := by
  have h := foldl_at (fun g => accPoisoned g k i) (fun g i => setAccPoison (setAccRow g tile i (vals i)) tile [i] (bad i))
    (fun v => if k = tile then bad i else v) i (lanesOf rows) (nodup_lanesOf rows) (fun r hr u => ?_) g
  · simp only [loadRows, h, mem_lanesOf_of_lt hi]
    by_cases hk : k = tile <;> simp [hk]
  · have := accPoisoned_setAccPoison (setAccRow u tile r (vals r)) tile (rows := [r]) (by simpa using lt_of_mem_lanesOf hr) (bad r) k hi
    rw [this, show accPoisoned (setAccRow u tile r (vals r)) k i = accPoisoned u k i from rfl]
    by_cases hr : r = i
    · subst hr; simp
    · simp [hr, Ne.symm hr]

/-- A group but for its accumulators. -/
def Group.unaccumulated (g : Group) : Group := { g with acc := [], accPoison := [] }

/-- Steps that each change nothing of a group but its accumulators change nothing else together. -/
theorem foldl_unaccumulated {ι : Type} (l : List ι) (step : Group → ι → Group) (h : ∀ g a, (step g a).unaccumulated = g.unaccumulated) (g : Group) :
    (l.foldl step g).unaccumulated = g.unaccumulated :=
  List.foldlRecOn (motive := fun u : Group => u.unaccumulated = g.unaccumulated) l step rfl (fun u hu a _ => (h u a).trans hu)

theorem loadRows_unaccumulated (tile : Nat) (rows : Mask) (vals : Nat → List Nat) (bad : Nat → Bool) (g : Group) :
    (loadRows tile rows vals bad g).unaccumulated = g.unaccumulated := by
  unfold loadRows
  exact foldl_unaccumulated _ _ (fun _ _ => by rfl) g

/-! ### Products (R235) -/

/-- Rows of a tile take new values, each of its own old one, in their first `n` columns. -/
def mapRows (tile : Nat) (rows : List Nat) (n : Nat) (new : Nat → Nat → Nat → Nat) (g : Group) : Group :=
  rows.foldl (fun g i => setAccRow g tile i ((List.range n).map (fun j => new i j (accAt g tile i j)))) g

theorem accAt_mapRows (tile : Nat) (rows : Mask) {n : Nat} (hn : n ≤ 64) (new : Nat → Nat → Nat → Nat) (g : Group)
    {k i j : Nat} (hi : i < 96) (hj : j < 64) :
    accAt (mapRows tile (lanesOf rows) n new g) k i j =
      if k = tile ∧ has rows i = true ∧ j < n then new i j (accAt g k i j) % 2 ^ 32 else accAt g k i j := by
  have h := foldl_at (fun g => accAt g k i j) (fun g i => setAccRow g tile i ((List.range n).map (fun j => new i j (accAt g tile i j))))
    (fun v => if k = tile ∧ j < n then new i j v % 2 ^ 32 else v) i (lanesOf rows) (nodup_lanesOf rows) (fun r hr u => ?_) g
  · simp only [mapRows, h, mem_lanesOf_of_lt hi]
    by_cases hk : k = tile <;> by_cases hr : has rows i = true <;> simp [hk, hr]
  · rw [accAt_setAccRow u tile (lt_of_mem_lanesOf hr) _ (by simpa using hn) hi hj, List.length_map, List.length_range]
    by_cases hplace : k = tile ∧ r = i ∧ j < n
    · obtain ⟨rfl, rfl, hjn⟩ := hplace
      simp [hjn]
    · rw [if_neg (fun h => hplace ⟨h.1, h.2.1.symm, h.2.2⟩)]
      by_cases hr : r = i
      · rw [if_pos hr, if_neg (fun h => hplace ⟨h.1, hr, h.2⟩)]
      · rw [if_neg hr]

theorem nodup_mxTiles (f : XF) : (mxTiles f).Nodup := by unfold mxTiles; split <;> simp

/-- A product spans a tile. -/
def spansTile (f : XF) (k : Nat) : Bool := k == f.acc.toNat || (f.nc == 3 && k == f.acc.toNat + 1)

theorem mem_mxTiles (f : XF) (k : Nat) : k ∈ mxTiles f ↔ spansTile f k = true := by
  unfold mxTiles spansTile
  split
  · next h => simp [h]
  · next h => simp only [List.mem_singleton, Bool.or_eq_true, Bool.and_eq_true, beq_iff_eq, h, false_and, or_false]

/-- The columns of a product in one of its tiles. -/
theorem column_lt_iff (f : XF) {k j : Nat} (hk : k ∈ mxTiles f) (hj : j < 64) : j < min (mxN f) 64 ↔ j + 64 * (k - f.acc.toNat) < mxN f := by
  unfold mxTiles at hk
  split at hk
  · next h =>
    have hn : mxN f = 128 := by simp [mxN, h]
    simp only [List.mem_cons, List.not_mem_nil, or_false] at hk
    omega
  · simp only [List.mem_singleton] at hk
    omega

/-- Rows of each tile of a product are marked or cleared. -/
def setTiles (f : XF) (rows : Mask) (on : Bool) (g : Group) : Group := (mxTiles f).foldl (fun g t => setAccPoison g t (lanesOf rows) on) g

theorem setTiles_acc (f : XF) (rows : Mask) (on : Bool) (g : Group) : (setTiles f rows on g).acc = g.acc :=
  List.foldlRecOn (motive := fun u : Group => u.acc = g.acc) _ _ rfl (fun _ hu _ _ => hu)

theorem setTiles_unaccumulated (f : XF) (rows : Mask) (on : Bool) (g : Group) : (setTiles f rows on g).unaccumulated = g.unaccumulated :=
  foldl_unaccumulated _ (fun g t => setAccPoison g t (lanesOf rows) on) (fun _ _ => by rfl) g

theorem accPoisoned_setTiles (f : XF) (rows : Mask) (on : Bool) (g : Group) (k : Nat) {i : Nat} (hi : i < 96) :
    accPoisoned (setTiles f rows on g) k i = if (spansTile f k && has rows i) = true then on else accPoisoned g k i := by
  have h := foldl_at (fun g => accPoisoned g k i) (fun g t => setAccPoison g t (lanesOf rows) on) (fun v => if has rows i = true then on else v)
    k (mxTiles f) (nodup_mxTiles f) (fun t _ u => ?_) g
  · rw [setTiles, h]
    cases hk : spansTile f k <;> simp [mem_mxTiles, hk]
  · simp only [accPoisoned_setAccPoison u t (fun _ => lt_of_mem_lanesOf) on k hi, mem_lanesOf_of_lt hi]
    by_cases ht : t = k
    · subst ht; simp
    · simp [ht, Ne.symm ht]

/-- The new elements of a product, in the rows of each of its tiles. -/
def productRows (f : XF) (fa fb : BitVec 16) (rows : Mask) (a : List Lanes) (fetched : List Nat) (g : Group) : Group :=
  (mxTiles f).foldl (fun g t => mapRows t (lanesOf rows) (min (mxN f) 64) (fun i j old =>
    mxElement f old (mxProduct f (Entry.ofBits fa) (Entry.ofBits fb) a fetched i (j + 64 * (t - f.acc.toNat)))) g) g

/-- The accumulators after a product: its new elements, and its rows clean where it overwrites whole rows. -/
def productInto (f : XF) (fa fb : BitVec 16) (rows : Mask) (a : List Lanes) (fetched : List Nat) (g : Group) : Group :=
  if f.z && 64 ≤ mxN f then setTiles f rows false (productRows f fa fb rows a fetched g) else productRows f fa fb rows a fetched g

section
variable (f : XF) (fa fb : BitVec 16) (rows : Mask) (a : List Lanes) (fetched : List Nat) (g : Group)

theorem accAt_productRows {k i j : Nat} (hi : i < 96) (hj : j < 64) :
    accAt (productRows f fa fb rows a fetched g) k i j =
      if spansTile f k = true ∧ has rows i = true ∧ j + 64 * (k - f.acc.toNat) < mxN f then
        mxElement f (accAt g k i j) (mxProduct f (Entry.ofBits fa) (Entry.ofBits fb) a fetched i (j + 64 * (k - f.acc.toNat))) % 2 ^ 32
      else accAt g k i j := by
  have h := foldl_at (fun g => accAt g k i j) (fun g t => mapRows t (lanesOf rows) (min (mxN f) 64) (fun i j old =>
      mxElement f old (mxProduct f (Entry.ofBits fa) (Entry.ofBits fb) a fetched i (j + 64 * (t - f.acc.toNat)))) g)
    (fun v => if has rows i = true ∧ j < min (mxN f) 64 then
      mxElement f v (mxProduct f (Entry.ofBits fa) (Entry.ofBits fb) a fetched i (j + 64 * (k - f.acc.toNat))) % 2 ^ 32 else v)
    k (mxTiles f) (nodup_mxTiles f) (fun t _ u => ?_) g
  · rw [productRows, h]
    by_cases hk : k ∈ mxTiles f
    · simp only [hk, if_true, (mem_mxTiles f k).mp hk, true_and, column_lt_iff f hk hj]
    · simp only [hk, if_false, (mem_mxTiles f k).not.mp hk, Bool.false_eq_true, false_and]
  · simp only [accAt_mapRows t rows (min_le_right _ _) _ u hi hj]
    by_cases ht : t = k
    · subst ht; simp
    · simp [ht, Ne.symm ht]

theorem productInto_acc : (productInto f fa fb rows a fetched g).acc = (productRows f fa fb rows a fetched g).acc := by
  unfold productInto
  split
  · exact setTiles_acc f rows false _
  · rfl

/-- The elements of a product change no mark of poison. -/
theorem productRows_accPoison : (productRows f fa fb rows a fetched g).accPoison = g.accPoison :=
  List.foldlRecOn (motive := fun u : Group => u.accPoison = g.accPoison) _ _ rfl (fun _ hu _ _ =>
    List.foldlRecOn (motive := fun v : Group => v.accPoison = g.accPoison) _ _ hu (fun _ hv _ _ => hv))

theorem accPoisoned_productInto (k : Nat) {i : Nat} (hi : i < 96) :
    accPoisoned (productInto f fa fb rows a fetched g) k i =
      if (f.z && decide (64 ≤ mxN f) && spansTile f k && has rows i) = true then false else accPoisoned g k i := by
  unfold productInto
  split
  · next hz => rw [accPoisoned_setTiles f rows false _ k hi, accPoisoned_congr (productRows_accPoison f fa fb rows a fetched g)]; simp [hz]
  · next hz => rw [accPoisoned_congr (productRows_accPoison f fa fb rows a fetched g)]; simp [Bool.not_eq_true _ ▸ hz]

theorem productInto_unaccumulated : (productInto f fa fb rows a fetched g).unaccumulated = g.unaccumulated := by
  have hrows : (productRows f fa fb rows a fetched g).unaccumulated = g.unaccumulated :=
    foldl_unaccumulated _ _ (fun u t => foldl_unaccumulated _ _ (fun _ _ => by rfl) u) g
  unfold productInto
  split
  · exact (setTiles_unaccumulated f rows false _).trans hrows
  · exact hrows

end

end Sys2Proof.Machine

/-! ## O43: matrix commands start and take effect -/

namespace Sys2Proof.Machine

/-! ### The start of a command (R230, R231) -/

theorem took_op (m : MxCmd) (got : Except Nat (List Nat)) : (m.took got).op = m.op := by cases got <;> rfl
theorem took_g (m : MxCmd) (got : Except Nat (List Nat)) : (m.took got).g = m.g := by cases got <;> rfl
theorem took_id (m : MxCmd) (got : Except Nat (List Nat)) : (m.took got).id = m.id := by cases got <;> rfl

/-- A command with what it fetches as it starts. -/
def MxCmd.fetching (s : State) (m : MxCmd) : MxCmd :=
  match fetchNow s m with
  | some got => m.took got
  | none => m

theorem fetching_kept (s : State) (m : MxCmd) : (m.fetching s).op = m.op ∧ (m.fetching s).id = m.id := by
  unfold MxCmd.fetching
  split
  · exact ⟨took_op _ _, took_id _ _⟩
  · exact ⟨rfl, rfl⟩

/-- The half cycle at which a command that starts now leaves the unit. -/
def startEnd (s : State) (m : MxCmd) : Nat := max (2 * coreCycle s m.core) (coreOf s m.core).mxFree + m.op.occupies

/-- A command that starts now. -/
def MxCmd.starting (s : State) (m : MxCmd) : MxCmd :=
  { m.fetching s with started := true, doneAt := (if m.op.occupies = 0 then coreCycle s m.core else (startEnd s m - 1) / 2) + 12 }

/-- A start takes up the unit of its core and replaces the command. -/
theorem startCmd_eq (s : State) (m : MxCmd) :
    startCmd s m = modCmd (modCore s m.core (fun k => { k with mxFree := startEnd s m })) m.id (fun _ => m.starting s) := rfl

/-- The command of a number, replaced by one of the same number. -/
theorem cmdFind_replace {s : State} {id : Nat} {m n : MxCmd} (h : cmdFind s id = some m) (hid : m.id = id) (hn : n.id = id) :
    cmdFind (modCmd s id (fun _ => n)) id = some n := by
  have hkey : ∀ q : MxCmd, ((if q.id = id then n else q).id == id) = (q.id == id) := fun q => by
    split
    · next hq => rw [hn, hq]
    · rfl
  have e : cmdFind (modCmd s id (fun _ => n)) id = _ := firstWith_map _ s.commands _ hkey
  rw [e, show firstWith _ s.commands = some m from h, Option.map_some, if_pos hid]

/-- A command may start: it is the next of its core, its read is over, and the unit is free in a half of the cycle. -/
structure MayStart (s : State) (m : MxCmd) : Prop where
  found : cmdFind s m.id = some m
  waits : m.started = false
  kept : m.cancel = false
  next : ((matrixQueue s m.core).head?.map (fun q => q.id)) = some m.id
  read : m.readyAt ≤ coreCycle s m.core
  free : (coreOf s m.core).mxFree ≤ 2 * coreCycle s m.core + 1

theorem exec_matrixCommandStart {s : State} {m : MxCmd} (h : MayStart s m) :
    exec (.matrixCommandStart m.id) s = .next { startCmd s m with draw := s.draw + 1 } := by
  change execMatrixCommandStart m.id s = _
  simp [execMatrixCommandStart, event, h.found, h.waits, h.kept, h.next, h.read, h.free]

/-- What an `mma` that starts has fetched. -/
theorem starting_fetched {s : State} {m : MxCmd} {f : XF} {shape : Nat} {fa fb : BitVec 16} {rows : Mask} {a : List Lanes} {v : Workgroup}
    (hop : m.op = .mma f shape fa fb rows a) (hv : wgFind s m.g.wg = some v) :
    match fetchB s (m.view.reader v.column 4) v shape (mxN f) (Entry.ofBits fa) (Entry.ofBits fb) with
      | .ok got => (m.starting s).cause = 0 ∧ (m.starting s).fetched = got
      | .error e => (m.starting s).cause = e := by
  have hnow : fetchNow s m = some (fetchB s (m.view.reader v.column 4) v shape (mxN f) (Entry.ofBits fa) (Entry.ofBits fb)) := by
    simp only [fetchNow, hop, hv]
  have hcause : (m.starting s).cause = (m.fetching s).cause := rfl
  have hfetched : (m.starting s).fetched = (m.fetching s).fetched := rfl
  rw [hcause, hfetched, MxCmd.fetching, hnow]
  cases fetchB s (m.view.reader v.column 4) v shape (mxN f) (Entry.ofBits fa) (Entry.ofBits fb) with
  | ok got => exact ⟨rfl, rfl⟩
  | error e => rfl

/-- R230, R231: the start of a command. -/
theorem matrixCommandStart_next {s : State} {m : MxCmd} (h : MayStart s m) :
    ∃ t n half, exec (.matrixCommandStart m.id) s = .next t ∧ cmdFind t m.id = some n ∧ n.started = true ∧ n.op = m.op ∧
      t.mem = s.mem ∧ t.wgs = s.wgs ∧ (coreOf t m.core).mxFree = max (2 * coreCycle s m.core) (coreOf s m.core).mxFree + half ∧
      n.doneAt = (if half = 0 then coreCycle s m.core else ((coreOf t m.core).mxFree - 1) / 2) + 12 ∧
      (∀ f shape fa fb rows a, m.op = .mma f shape fa fb rows a →
        let w := max (Entry.ofBits fa).width (Entry.ofBits fb).width
        half = (if w = 4 then 9 else if w = 16 then 72 else 18) * 2 ^ f.nc.toNat ∧
        ∀ v, wgFind s m.g.wg = some v → match fetchB s (m.view.reader v.column 4) v shape (mxN f) (Entry.ofBits fa) (Entry.ofBits fb) with
          | .ok got => n.cause = 0 ∧ n.fetched = got
          | .error e => n.cause = e) := by
  obtain ⟨hop, hid⟩ := fetching_kept s m
  have hfound : cmdFind (modCore s m.core (fun k => { k with mxFree := startEnd s m })) m.id = some m := h.found
  have hfree : (coreOf { startCmd s m with draw := s.draw + 1 } m.core).mxFree = startEnd s m := by
    change (coreOf (modCore s m.core (fun k => { k with mxFree := startEnd s m })) m.core).mxFree = _
    rw [coreOf_modCore, if_pos rfl]
  refine ⟨_, m.starting s, m.op.occupies, exec_matrixCommandStart h, ?_, rfl, hop, rfl, rfl, hfree, by rw [hfree]; rfl,
    fun f shape fa fb rows a hm => ⟨?_, fun v hv => ?_⟩⟩
  · change cmdFind (startCmd s m) m.id = _
    rw [startCmd_eq]
    exact cmdFind_replace hfound rfl hid
  · rw [hm]; rfl
  · have := starting_fetched hm hv
    revert this
    cases fetchB s (m.view.reader v.column 4) v shape (mxN f) (Entry.ofBits fa) (Entry.ofBits fb) <;> exact id

/-! ### The end of a command (R231) -/

/-- A command is over and may take effect: it is the first of its group, which has its tiles in its core. -/
structure MayEnd (s : State) (m : MxCmd) (g : Group) : Prop where
  found : cmdFind s m.id = some m
  started : m.started = true
  kept : m.cancel = false
  due : m.doneAt ≤ coreCycle s m.core
  first : firstOfGroup s m = true
  group : groupFind s m.g = some g
  inCore : g.residence = .core

theorem wgFind_of_groupFind {s : State} {i : GroupId} {g : Group} (h : groupFind s i = some g) : ∃ w, wgFind s i.wg = some w := by
  cases hw : wgFind s i.wg with
  | none => simp [groupFind, hw] at h
  | some w => exact ⟨w, rfl⟩

theorem exec_matrixCommandComplete {s u : State} {m : MxCmd} {g : Group} (h : MayEnd s m g) (hu : applyCmd s (lastFetch s m) = some u) :
    exec (.matrixCommandComplete m.id) s = .next { endCmd u m .done with draw := s.draw + 1 } := by
  have hin : tilesInCore s m = true := by simp [tilesInCore, h.group, h.inCore]
  change execMatrixCommandComplete m.id s = _
  simp [execMatrixCommandComplete, event, h.found, h.started, h.kept, h.due, h.first, hin, hu]

theorem groupFind_modGroup_own (s : State) (i : GroupId) (f : Group → Group) {g : Group} (hg : groupFind s i = some g) :
    groupFind (modGroup s i f) i = some (f g) := by
  rw [groupFind_modGroup, if_pos rfl, hg]; rfl

/-- A completion lowers a path of its group, whose registers and accumulators stay. -/
theorem groupFind_lowerPath {u : State} {i : GroupId} {k : Group} (n : Nat) (hk : groupFind u i = some k) :
    ∃ h, groupFind (lowerPath u i n) i = some h ∧ h.paths = modAt k.paths n (· - 1) ∧ h.vregs = k.vregs ∧ h.acc = k.acc ∧ h.accPoison = k.accPoison :=
  ⟨_, groupFind_modGroup_own u i _ hk, rfl, rfl, rfl, rfl⟩

/-- What the end of a command changes: its group's path falls, and its future settles; it is gone, and memory stays. -/
theorem endCmd_spec (u : State) (m : MxCmd) (st : FutState) {k : Group} (hk : groupFind u m.g = some k) :
    ∃ h, groupFind (endCmd u m st) m.g = some h ∧ h.paths = modAt k.paths 4 (· - 1) ∧ h.vregs = k.vregs ∧ h.acc = k.acc ∧ h.accPoison = k.accPoison ∧
      (endCmd u m st).mem = u.mem ∧ (endCmd u m st).commands = u.commands.filter (fun q => q.id != m.id) := by
  obtain ⟨h, hfind, hkept⟩ := groupFind_lowerPath (u := { completePast u m.id with commands := u.commands.filter (fun q => q.id != m.id) }) 4 hk
  obtain ⟨hpaths, hvregs, hacc, hpoison⟩ := hkept
  unfold endCmd
  cases m.handle with
  | none => exact ⟨h, hfind, hpaths, hvregs, hacc, hpoison, rfl, rfl⟩
  | some f => exact ⟨_, groupFind_modGroup_own _ m.g _ hfind, hpaths, hvregs, hacc, hpoison, rfl, rfl⟩

/-- A number that is filtered out is not found. -/
theorem cmdFind_filtered {t : State} {l : List MxCmd} {id : Nat} (h : t.commands = l.filter (fun q => q.id != id)) : cmdFind t id = none := by
  cases hf : cmdFind t id with
  | none => rfl
  | some q =>
    obtain ⟨hm, hq⟩ := firstWith_mem hf
    rw [h] at hm
    have := (List.mem_filter.mp hm).2
    simp_all

/-- R231: a command whose effect leaves its group as `k`, but for its path and its future, is over. -/
theorem matrixCommandComplete_next {s u : State} {m : MxCmd} {g k : Group} (h : MayEnd s m g) (hu : applyCmd s (lastFetch s m) = some u)
    (hk : groupFind u m.g = some k) :
    ∃ t h, exec (.matrixCommandComplete m.id) s = .next t ∧ groupFind t m.g = some h ∧ cmdFind t m.id = none ∧ h.paths = modAt k.paths 4 (· - 1) ∧
      h.vregs = k.vregs ∧ h.acc = k.acc ∧ h.accPoison = k.accPoison ∧ t.mem = u.mem := by
  obtain ⟨e, he, hpaths, hvregs, hacc, hpoison, hmem, hcmds⟩ := endCmd_spec u m .done hk
  exact ⟨_, e, exec_matrixCommandComplete h hu, he, cmdFind_filtered (t := { endCmd u m .done with draw := s.draw + 1 }) hcmds, hpaths, hvregs,
    hacc, hpoison, hmem⟩

/-- Groups that differ in their accumulators alone have the same counters and registers. -/
theorem kept_of_unaccumulated {g h : Group} (e : h.unaccumulated = g.unaccumulated) : h.paths = g.paths ∧ h.vregs = g.vregs :=
  ⟨(congrArg Group.paths e :), (congrArg Group.vregs e :)⟩

/-! ### What each command does -/

theorem ite_false_eq_and (p c : Bool) : (if c = true then false else p) = (p && !c) := by cases c <;> simp
theorem ite_true_eq_or (p c : Bool) : (if c = true then true else p) = (p || c) := by cases c <;> simp

/-- An `acczero` or an accumulator move has fetched nothing: it is applied as it is. -/
theorem lastFetch_of_not_mma {s : State} {m : MxCmd} (h : fetchNow s m = none) : lastFetch s m = m := by simp only [lastFetch, h]

theorem lastFetch_kept (s : State) (m : MxCmd) : (lastFetch s m).op = m.op ∧ (lastFetch s m).g = m.g := by
  unfold lastFetch
  split
  · exact ⟨rfl, rfl⟩
  · exact ⟨took_op _ _, took_g _ _⟩

section
variable {s : State} {m : MxCmd} {g : Group}

/-- R234: the effect of `acczero`. -/
theorem applyCmd_acczero {tile : Nat} {rows : Mask} (h : MayEnd s m g) (hop : m.op = .acczero tile rows) :
    applyCmd s (lastFetch s m) = some (modGroup s m.g (loadRows tile rows (fun _ => List.replicate 64 0) (fun _ => false))) := by
  obtain ⟨w, hw⟩ := wgFind_of_groupFind h.group
  rw [lastFetch_of_not_mma (by simp only [fetchNow, hop])]
  simp only [applyCmd, hw, h.group, hop]
  rfl

/-- R234: `acczero` makes its rows zero and clean. -/
theorem acczero_completes {tile : Nat} {rows : Mask} (h : MayEnd s m g) (hop : m.op = .acczero tile rows) :
    ∃ t h, exec (.matrixCommandComplete m.id) s = .next t ∧ groupFind t m.g = some h ∧ cmdFind t m.id = none ∧
      h.paths = modAt g.paths 4 (· - 1) ∧ h.vregs = g.vregs ∧
      (∀ k i j, i < 96 → j < 64 → accAt h k i j = if k = tile ∧ has rows i = true then 0 else accAt g k i j) ∧
      (∀ k i, i < 96 → accPoisoned h k i = (accPoisoned g k i && !(k == tile && has rows i))) ∧ t.mem = s.mem := by
  obtain ⟨hpaths, hvregs⟩ := kept_of_unaccumulated (loadRows_unaccumulated tile rows (fun _ => List.replicate 64 0) (fun _ => false) g)
  obtain ⟨t, e, hexec, hfind, hgone, hp, hv, hacc, hpoison, hmem⟩ :=
    matrixCommandComplete_next h (applyCmd_acczero h hop) (groupFind_modGroup_own s m.g _ h.group)
  refine ⟨t, e, hexec, hfind, hgone, hpaths ▸ hp, hv.trans hvregs, fun k i j hi hj => ?_, fun k i hi => ?_, hmem⟩
  · rw [accAt_congr hacc, accAt_loadRows _ _ _ (fun _ => List.length_replicate) _ _ hi hj,
      show (List.replicate 64 0).getD j 0 = 0 from List.getElem?_getD_replicate_default_eq 0 64 j, Nat.zero_mod]
  · rw [accPoisoned_congr hpoison, accPoisoned_loadRows _ _ _ _ _ _ hi, ite_false_eq_and]

/-- R233: the effect of `accld`, on the groups as its parts' notes leave them. -/
theorem applyCmd_accld {w : Workgroup} {tile fmt : Nat} {rows : Mask} {parts : List Part} (h : MayEnd s m g) (hw : wgFind s m.g.wg = some w)
    (hop : m.op = .accld tile fmt rows parts) :
    let got := parts.map (fun p => (p, accPart s (m.view.reader w.column 4) w p))
    applyCmd s (lastFetch s m) = some (modGroup (parts.foldl (fun s p => notePart s w p false) s) m.g (loadRows tile rows
      (fun i => (List.range 64).map (fun j =>
        accLoad fmt (numAt ((got.filter (fun e => e.1.lane == i)).flatMap (fun e => e.2.1)) (accSize fmt * j) (accSize fmt))))
      (fun i => (got.filter (fun e => e.1.lane == i)).any (fun e => e.2.2)))) := by
  intro got
  rw [lastFetch_of_not_mma (by simp only [fetchNow, hop])]
  simp only [applyCmd, hw, h.group, hop]
  rfl

/-- The bytes of a row: those of its parts. -/
theorem flatMap_filter_map {α β : Type} (l : List α) (p : α → Bool) (f : α → β) (h : β → List Byte) :
    ((l.map (fun a => (a, f a))).filter (fun e => p e.1)).flatMap (fun e => h e.2) = (l.filter p).flatMap (fun a => h (f a)) := by
  rw [List.filter_map, List.flatMap_map]
  rfl

/-- R233: `accld` gives its rows the elements loaded. -/
theorem accld_completes {w : Workgroup} {tile fmt : Nat} {rows : Mask} {parts : List Part} (h : MayEnd s m g) (hw : wgFind s m.g.wg = some w)
    (hop : m.op = .accld tile fmt rows parts) :
    let got (i : Nat) : List Byte := (parts.filter (fun p => p.lane == i)).flatMap (fun p => (accPart s (m.view.reader w.column 4) w p).1)
    ∃ t h, exec (.matrixCommandComplete m.id) s = .next t ∧ groupFind t m.g = some h ∧ cmdFind t m.id = none ∧
      h.paths = modAt g.paths 4 (· - 1) ∧ h.vregs = g.vregs ∧
      ∀ k i j, i < 96 → j < 64 → accAt h k i j =
        if k = tile ∧ has rows i = true then accLoad fmt (numAt (got i) (accSize fmt * j) (accSize fmt)) % 2 ^ 32 else accAt g k i j := by
  intro got
  have hnotes : KeepsGroups s (parts.foldl (fun s p => notePart s w p false) s) := (KeepsGroups.refl s).foldl _ _ (fun u p => keepsGroups_notePart u w p false)
  obtain ⟨g1, hg1, hun⟩ := hnotes.found h.group
  obtain ⟨t, e, hexec, hfind, hgone, hp, hv, hacc, -, -⟩ :=
    matrixCommandComplete_next h (applyCmd_accld h hw hop) (groupFind_modGroup_own _ m.g _ hg1)
  obtain ⟨hpaths, hvregs⟩ := kept_of_unaccumulated (loadRows_unaccumulated tile rows _ _ g1)
  have hpaths1 : g1.paths = g.paths := (congrArg Group.paths hun :)
  have hvregs1 : g1.vregs = g.vregs := (congrArg Group.vregs hun :)
  have hacc1 : g1.acc = g.acc := (congrArg Group.acc hun :)
  refine ⟨t, e, hexec, hfind, hgone, by rw [hp, hpaths, hpaths1], by rw [hv, hvregs, hvregs1], fun k i j hi hj => ?_⟩
  rw [accAt_congr hacc, accAt_loadRows _ _ _ (fun _ => by simp) _ _ hi hj, accAt_congr hacc1]
  simp only [flatMap_filter_map parts (fun p => p.lane == i)]
  simp [List.getD, hj, got]

/-- R232, R235: the effect of an `mma`. -/
theorem applyCmd_mma {w : Workgroup} {f : XF} {shape : Nat} {fa fb : BitVec 16} {rows : Mask} {a : List Lanes} (h : MayEnd s m g)
    (hw : wgFind s m.g.wg = some w) (hop : m.op = .mma f shape fa fb rows a) :
    applyCmd s (lastFetch s m) = some (applyMma s (lastFetch s m) w f fa fb rows a) := by
  obtain ⟨hlop, hlg⟩ := lastFetch_kept s m
  simp only [applyCmd, hlg, hw, h.group, hlop, hop]

/-- A product whose fetch went well changes the accumulators of its group. -/
theorem applyMma_fetched (s : State) {m : MxCmd} (w : Workgroup) (f : XF) (fa fb : BitVec 16) (rows : Mask) (a : List Lanes) (h : m.cause = 0) :
    applyMma s m w f fa fb rows a = modGroup s m.g (productInto f fa fb rows a m.fetched) := by
  simp only [applyMma, h, ne_eq, not_true_eq_false, if_false]
  rfl

/-- A product whose fetch has failed poisons its rows, and its record is queued. -/
theorem applyMma_failed (s : State) {m : MxCmd} (w : Workgroup) (f : XF) (fa fb : BitVec 16) (rows : Mask) (a : List Lanes) (h : m.cause ≠ 0) :
    ∃ record, applyMma s m w f fa fb rows a =
      queueRecord (modGroup s m.g (setTiles f rows true)) w.region record := by
  simp only [applyMma, h, ne_eq, not_false_eq_true, if_true]
  exact ⟨_, rfl⟩

/-- R81, R82, R232, R235: an `mma` gives each element of its rows the rounded sum of what it fetched; a failed fetch poisons its rows. -/
theorem mma_completes {f : XF} {shape : Nat} {fa fb : BitVec 16} {rows : Mask} {a : List Lanes} (h : MayEnd s m g) (hop : m.op = .mma f shape fa fb rows a) :
    let last := lastFetch s m
      ∃ t h, exec (.matrixCommandComplete m.id) s = .next t ∧ groupFind t m.g = some h ∧ cmdFind t m.id = none ∧
      h.paths = modAt g.paths 4 (· - 1) ∧ h.vregs = g.vregs ∧
      t.mem = s.mem ∧
      (last.cause = 0 → (∀ k i j, i < 96 → j < 64 → accAt h k i j =
        (let col := j + 64 * (k - f.acc.toNat)
         let p := mxProduct f (Entry.ofBits fa) (Entry.ofBits fb) a last.fetched i col
         if spansTile f k = true ∧ has rows i = true ∧ col < mxN f then
           (if f.z then fp32.encode 0 p else fp32.encode 0 ((fp32.value (accAt g k i j)).add p 0)) % 2 ^ 32
         else accAt g k i j)) ∧
        ∀ k i, i < 96 → accPoisoned h k i = (accPoisoned g k i && !(f.z && decide (64 ≤ mxN f) && spansTile f k && has rows i))) ∧
      (last.cause ≠ 0 → h.acc = g.acc ∧ ∀ k i, i < 96 → accPoisoned h k i = (accPoisoned g k i || (spansTile f k && has rows i))) := by
  intro last
  obtain ⟨w, hw⟩ := wgFind_of_groupFind h.group
  obtain ⟨-, hlg⟩ := lastFetch_kept s m
  have happly := applyCmd_mma h hw hop
  by_cases hcause : last.cause = 0
  · rw [applyMma_fetched s w f fa fb rows a hcause, hlg] at happly
    obtain ⟨t, e, hexec, hfind, hgone, hp, hv, hacc, hpoison, hmem⟩ :=
      matrixCommandComplete_next h happly (groupFind_modGroup_own s m.g _ h.group)
    obtain ⟨hpaths, hvregs⟩ := kept_of_unaccumulated (productInto_unaccumulated f fa fb rows a last.fetched g)
    refine ⟨t, e, hexec, hfind, hgone, hpaths ▸ hp, hv.trans hvregs, hmem, fun _ => ⟨fun k i j hi hj => ?_, fun k i hi => ?_⟩,
      fun hne => absurd hcause hne⟩
    · rw [accAt_congr (hacc.trans (productInto_acc f fa fb rows a _ g)), accAt_productRows f fa fb rows a _ g hi hj]
      rfl
    · rw [accPoisoned_congr hpoison, accPoisoned_productInto f fa fb rows a _ g k hi, ite_false_eq_and]
  · obtain ⟨record, hrecord⟩ := applyMma_failed s w f fa fb rows a hcause
    rw [hrecord, hlg] at happly
    obtain ⟨t, e, hexec, hfind, hgone, hp, hv, hacc, hpoison, hmem⟩ := matrixCommandComplete_next h happly
      ((groupFind_congr rfl m.g).trans (groupFind_modGroup_own s m.g _ h.group))
    obtain ⟨hpaths, hvregs⟩ := kept_of_unaccumulated (setTiles_unaccumulated f rows true g)
    refine ⟨t, e, hexec, hfind, hgone, hpaths ▸ hp, hv.trans hvregs, hmem, fun h0 => absurd h0 hcause,
      fun _ => ⟨hacc.trans (setTiles_acc f rows true g), fun k i hi => ?_⟩⟩
    rw [accPoisoned_congr hpoison, accPoisoned_setTiles f rows true g k hi, ite_true_eq_or]

end

/-- Settles O43, command by command. Which rows an `mma` leaves poisoned (log 52) and what it sees of its last fetch (log 140) are the model's own choices. -/
theorem matrixCommandsRun : Obligations.MatrixCommandsRun :=
  ⟨fun _ _ found waits kept next read free => matrixCommandStart_next ⟨found, waits, kept, next, read, free⟩,
    fun _ _ _ _ _ found started kept due first group inCore hop => acczero_completes ⟨found, started, kept, due, first, group, inCore⟩ hop,
    fun _ _ _ _ _ _ _ _ _ found started kept due first group inCore hop => mma_completes ⟨found, started, kept, due, first, group, inCore⟩ hop,
    fun _ _ _ _ _ _ _ _ found started kept due first hw group inCore hop => accld_completes ⟨found, started, kept, due, first, group, inCore⟩ hw hop⟩

end Sys2Proof.Machine

/-! ## A word is the encoding of the fields that are read from it -/

namespace Sys2Proof

/-! ### Fields of a word, joined -/

/-- Neighbouring fields of a word, joined, are one field of it. -/
theorem extract_append_extract {w m n j k : Nat} (x : BitVec w) (h : j = k + n) :
    x.extractLsb' j m ++ x.extractLsb' k n = x.extractLsb' k (m + n) := by
  apply BitVec.eq_of_getLsbD_eq
  intro i hi
  rw [BitVec.getLsbD_append]
  simp only [BitVec.getLsbD_extractLsb', hi, decide_true, Bool.true_and]
  split
  · next h1 => simp [h1]
  · next h1 => rw [show j + (i - n) = k + i by omega]; simp [show i - n < m by omega]

/-- A bit of a word is a field of one bit. -/
theorem ofBool_getElem {w k : Nat} (x : BitVec w) (h : k < w) : BitVec.ofBool x[k] = x.extractLsb' k 1 := by
  apply BitVec.eq_of_getLsbD_eq
  intro i hi
  obtain rfl : i = 0 := by omega
  simp [← BitVec.getLsbD_eq_getElem]

/-! ### Codes -/

theorem Route.toBits_of_ofBits {v : BitVec 8} {r : Route} (h : Route.ofBits v = some r) : r.toBits = v := by
  have all : ∀ v : BitVec 8, (Route.ofBits v).all (fun r => r.toBits == v) = true := by decide
  simpa [h] using all v

theorem Hold.toBits_ofBits : ∀ v : BitVec 2, (Hold.ofBits v).toBits = v := by decide

theorem Width.toBits_of_ofBits {v : BitVec 4} {a : Width} (h : Width.ofBits v = some a) : a.toBits = v := by
  have all : ∀ v : BitVec 4, (Width.ofBits v).all (fun a => a.toBits == v) = true := by decide
  simpa [h] using all v

theorem MemOrd.toBits_of_ofBits {v : BitVec 4} {m : MemOrd} (h : MemOrd.ofBits v = some m) : m.toBits = v := by
  have all : ∀ v : BitVec 4, (MemOrd.ofBits v).all (fun m => m.toBits == v) = true := by decide
  simpa [h] using all v

/-! ### Formats -/

theorem V3.toWord_of_ofWord {w : DWord} {f : V3} (h : V3.ofWord w = some f) : f.toWord (opcodeOf w) = w := by
  simp only [V3.ofWord, Option.bind_eq_bind, Option.bind_eq_some_iff, Option.pure_def, Option.some.injEq] at h
  obtain ⟨ra, ha, rb, hb, rc, hc, rfl⟩ := h
  simp (disch := rfl) only [V3.toWord, opcodeOf, ofBool_getElem, Hold.toBits_ofBits, Route.toBits_of_ofBits ha, Route.toBits_of_ofBits hb,
    Route.toBits_of_ofBits hc, extract_append_extract]
  exact BitVec.extractLsb'_eq_self

theorem V2I.toWord_of_ofWord {w : DWord} {f : V2I} (h : V2I.ofWord w = some f) : f.toWord (opcodeOf w) = w := by
  simp only [V2I.ofWord, Option.bind_eq_bind, Option.bind_eq_some_iff, Option.pure_def, Option.some.injEq] at h
  obtain ⟨ra, ha, rb, hb, rfl⟩ := h
  simp (disch := rfl) only [V2I.toWord, opcodeOf, ofBool_getElem, Hold.toBits_ofBits, Route.toBits_of_ofBits ha, Route.toBits_of_ofBits hb,
    extract_append_extract]
  exact BitVec.extractLsb'_eq_self

theorem VI.toWord_of_ofWord {w : DWord} {f : VI} (h : VI.ofWord w = some f) : f.toWord (opcodeOf w) = w := by
  simp only [VI.ofWord, Option.bind_eq_bind, Option.bind_eq_some_iff, Option.pure_def, Option.some.injEq] at h
  obtain ⟨ra, ha, rfl⟩ := h
  simp (disch := rfl) only [VI.toWord, opcodeOf, ofBool_getElem, Route.toBits_of_ofBits ha, extract_append_extract]
  exact BitVec.extractLsb'_eq_self

theorem SF.toWord_ofWord (w : DWord) : (SF.ofWord w).toWord (opcodeOf w) = w := by
  simp (disch := rfl) only [SF.toWord, SF.ofWord, opcodeOf, ofBool_getElem, extract_append_extract]
  exact BitVec.extractLsb'_eq_self

theorem BF.toWord_ofWord (w : DWord) : (BF.ofWord w).toWord (opcodeOf w) = w := by
  simp (disch := rfl) only [BF.toWord, BF.ofWord, opcodeOf, ofBool_getElem, extract_append_extract]
  exact BitVec.extractLsb'_eq_self

theorem MF.toWord_of_ofWord {w : DWord} {f : MF} (h : MF.ofWord w = some f) : f.toWord (opcodeOf w) = w := by
  simp only [MF.ofWord, Option.bind_eq_bind, Option.bind_eq_some_iff, Option.pure_def, Option.some.injEq] at h
  obtain ⟨rt, hr, width, hw, ord, ho, rfl⟩ := h
  simp (disch := rfl) only [MF.toWord, opcodeOf, ofBool_getElem, Hold.toBits_ofBits, Route.toBits_of_ofBits hr, Width.toBits_of_ofBits hw,
    MemOrd.toBits_of_ofBits ho, extract_append_extract]
  exact BitVec.extractLsb'_eq_self

theorem EF.toWord_ofWord (w : DWord) : (EF.ofWord w).toWord (opcodeOf w) = w := by
  simp (disch := rfl) only [EF.toWord, EF.ofWord, opcodeOf, ofBool_getElem, extract_append_extract]
  exact BitVec.extractLsb'_eq_self

theorem XF.toFields_ofFields (mark : Bool) (v : BitVec 30) : (XF.ofFields mark v).toFields = v := by
  simp (disch := rfl) only [XF.toFields, XF.ofFields, ofBool_getElem, extract_append_extract]
  exact BitVec.extractLsb'_eq_self

theorem XF.toWord_of_ofWord {w : DWord} {f : XF} (h : XF.ofWord w = some f) : f.toWord (opcodeOf w) = w := by
  simp only [XF.ofWord, Option.ite_none_right_eq_some, Option.some.injEq] at h
  obtain ⟨low, rfl⟩ := h
  have low : 0#24 = w.extractLsb' 0 24 := low.symm
  rw [XF.toWord, XF.toFields_ofFields, low]
  simp (disch := rfl) only [opcodeOf, XF.ofFields, ofBool_getElem, extract_append_extract]
  exact BitVec.extractLsb'_eq_self

end Sys2Proof

/-! ## The opcode map, row by row (R98 to R100) -/

namespace Sys2Proof

/-! ### The rows of the map -/

/-- What the opcode map answers for a word: an instruction that the word encodes, and the illegal word where R100 assigns no instruction. -/
structure Maps (w : DWord) (o : Option Instr) : Prop where
  encodes : ∀ i, o = some i → encode i = some w
  unassigned : illegalOpcode (opcodeOf w).toNat = true → o = some (.illegalOpcodeWord w)

section Rows
variable {F : Type} {toWord : BitVec 9 → F → DWord} {w : DWord} {n : Nat} (h : (opcodeOf w).toNat = n) (hn : illegalOpcode n = false)
include h hn

/-- A row whose fields may fit no word, and whose codes may name one of several instructions, or none. -/
theorem Maps.bind {read : DWord → Option F} {code : F → Option Instr} (hr : ∀ w f, read w = some f → toWord (opcodeOf w) f = w)
    (he : ∀ f i, code f = some i → encode i = some (toWord (BitVec.ofNat 9 n) f)) : Maps w ((read w).bind code) where
  encodes i hi := by
    obtain ⟨f, hf, hc⟩ := Option.bind_eq_some_iff.mp hi
    have hop : BitVec.ofNat 9 n = opcodeOf w := by rw [← h, BitVec.ofNat_toNat, BitVec.setWidth_eq]
    rw [he f i hc, hop, hr w f hf]
  unassigned hill := by rw [h, hn] at hill; cases hill

/-- A row of one instruction, in a format that not every word fits. -/
theorem Maps.map {read : DWord → Option F} {mk : F → Instr} (hr : ∀ w f, read w = some f → toWord (opcodeOf w) f = w)
    (he : ∀ f, encode (mk f) = some (toWord (BitVec.ofNat 9 n) f)) : Maps w ((read w).map mk) :=
  Option.map_eq_bind (x := read w) (f := mk) ▸ Maps.bind h hn hr fun f _ hi => Option.some.inj hi ▸ he f

/-- A row of several instructions, in a format that every word fits. -/
theorem Maps.code {read : DWord → F} {code : F → Option Instr} (hr : ∀ w, toWord (opcodeOf w) (read w) = w)
    (he : ∀ f i, code f = some i → encode i = some (toWord (BitVec.ofNat 9 n) f)) : Maps w (code (read w)) :=
  Maps.bind (read := fun w => some (read w)) h hn (fun w _ hf => Option.some.inj hf ▸ hr w) he

/-- A row of one instruction, in a format that every word fits. -/
theorem Maps.one {read : DWord → F} {mk : F → Instr} (hr : ∀ w, toWord (opcodeOf w) (read w) = w)
    (he : ∀ f, encode (mk f) = some (toWord (BitVec.ofNat 9 n) f)) : Maps w (some (mk (read w))) :=
  Maps.code (code := fun f => some (mk f)) h hn hr fun f _ hi => Option.some.inj hi ▸ he f

end Rows

/-! ### Rows of several instructions -/

theorem encode_decodeWrsys (f : SF) : encode (decodeWrsys f) = some (f.toWord 0x1E3) := by
  unfold decodeWrsys
  split_ifs <;> rfl

theorem encode_of_decodePbset (f : SF) (i : Instr) (h : decodePbset f = some i) : encode i = some (f.toWord 0x1E7) := by
  unfold decodePbset at h
  split at h <;> cases h <;> rfl

theorem encode_of_decodePbget (f : SF) (i : Instr) (h : decodePbget f = some i) : encode i = some (f.toWord 0x1E8) := by
  unfold decodePbget at h
  split at h <;> cases h <;> rfl

theorem encode_of_decodeTlbinv (f : SF) (i : Instr) (h : decodeTlbinv f = some i) : encode i = some (f.toWord 0x1EA) := by
  unfold decodeTlbinv at h
  split at h <;> cases h <;> rfl

/-- A word of no row stands for itself. -/
theorem Maps.illegal (w : DWord) : Maps w (some (.illegalOpcodeWord w)) :=
  ⟨fun _ hi => Option.some.inj hi ▸ rfl, fun _ => rfl⟩

set_option maxRecDepth 1000 in
/-- The map of R99, row by row in the order of the opcodes; rows of one format that stand together are closed together. The map has more rows than the
default recursion depth lets `split` open. -/
theorem maps_decodeFields (w : DWord) : Maps w (decodeFields w) := by
  unfold decodeFields
  split
  iterate 30 next h => exact .one h rfl SF.toWord_ofWord fun _ => rfl  -- scalar words
  iterate 11 next h => exact .one h rfl BF.toWord_ofWord fun _ => rfl  -- control words
  iterate 12 next h => exact .one h rfl SF.toWord_ofWord fun _ => rfl  -- masks, `mode`, `rmode`
  iterate 23 next h => exact .map h rfl (fun _ _ => V3.toWord_of_ofWord) fun _ => rfl  -- integer and bit words
  iterate 4 next h => exact .map h rfl (fun _ _ => V2I.toWord_of_ofWord) fun _ => rfl  -- bit fields, `vcmp`, `vsel`
  next h => exact .map h rfl (fun _ _ => V3.toWord_of_ofWord) fun _ => rfl  -- `vmov`
  iterate 2 next h => exact .map h rfl (fun _ _ => VI.toWord_of_ofWord) fun _ => rfl  -- `vmovi`, `vaddi`
  iterate 3 next h => exact .map h rfl (fun _ _ => V2I.toWord_of_ofWord) fun _ => rfl  -- `vcvt`, `vpack`, `vunpk`
  next h => exact .map h rfl (fun _ _ => V3.toWord_of_ofWord) fun _ => rfl  -- `vmulw`
  iterate 2 next h => exact .map h rfl (fun _ _ => V2I.toWord_of_ofWord) fun _ => rfl  -- `vbcs`, `vrdl`
  iterate 10 next h => exact .map h rfl (fun _ _ => V3.toWord_of_ofWord) fun _ => rfl  -- floating-point words
  iterate 6 next h => exact .map h rfl (fun _ _ => V2I.toWord_of_ofWord) fun _ => rfl  -- comparisons, classes, conversions
  next h => exact .map h rfl (fun _ _ => V3.toWord_of_ofWord) fun _ => rfl  -- `fdot2`
  iterate 8 next h => exact .map h rfl (fun _ _ => V2I.toWord_of_ofWord) fun _ => rfl  -- special functions
  iterate 8 next h => exact .one h rfl SF.toWord_ofWord fun _ => rfl  -- votes and predicates
  iterate 4 next h => exact .map h rfl (fun _ _ => V2I.toWord_of_ofWord) fun _ => rfl  -- index words
  next h => exact .one h rfl SF.toWord_ofWord fun _ => rfl  -- `xbnd`
  iterate 15 next h => exact .map h rfl (fun _ _ => MF.toWord_of_ofWord) fun _ => rfl  -- memory words, `atom`
  next h => exact .one h rfl SF.toWord_ofWord fun _ => rfl  -- `satom`
  iterate 3 next h => exact .map h rfl (fun _ _ => MF.toWord_of_ofWord) fun _ => rfl  -- atomics
  iterate 10 next h => exact .one h rfl SF.toWord_ofWord fun _ => rfl  -- counters, barrier, fences, waits
  iterate 4 next h => exact .one h rfl EF.toWord_ofWord fun _ => rfl  -- copies
  next h => exact .map h rfl (fun _ _ => XF.toWord_of_ofWord) fun _ => rfl  -- `mma`
  iterate 8 next h => exact .one h rfl EF.toWord_ofWord fun _ => rfl  -- accumulators, formats, pages
  iterate 3 next h => exact .one h rfl SF.toWord_ofWord fun _ => rfl  -- `trap`, `rett`, `rdsys`
  next h => exact .one h rfl SF.toWord_ofWord encode_decodeWrsys  -- `wrsys` and the registers of rows of their own
  iterate 3 next h => exact .one h rfl SF.toWord_ofWord fun _ => rfl  -- `tsr`, `launch`, `brkp`
  next h => exact .code h rfl SF.toWord_ofWord encode_of_decodePbset  -- `pbset`
  next h => exact .code h rfl SF.toWord_ofWord encode_of_decodePbget  -- `pbget`
  next h => exact .one h rfl SF.toWord_ofWord fun _ => rfl  -- `pswap`
  next h => exact .code h rfl SF.toWord_ofWord encode_of_decodeTlbinv  -- `tlbinv`
  iterate 2 next h => exact .one h rfl SF.toWord_ofWord fun _ => rfl  -- `nop`, `hpost`
  exact .illegal w

/-! ### The row of an instruction -/

/-- The opcode map answers the instruction for its own word. -/
def Reads (i : Instr) : Prop := ∀ w, i.wellFormed = true → encode i = some w → decodeFields w = some i

/-- An event has no word to read. -/
theorem Reads.event {i : Instr} (he : encode i = none) : Reads i := by
  intro w _ hw
  rw [he] at hw
  cases hw

section InstructionRows
variable {F : Type} {toWord : BitVec 9 → F → DWord} {op : BitVec 9} {f : F} (ho : ∀ op f, opcodeOf (toWord op f) = op)
include ho

/-- An instruction of a row that names several. -/
theorem Reads.code {i : Instr} {read : DWord → F} {code : F → Option Instr} (hr : ∀ op f, read (toWord op f) = f)
    (he : encode i = some (toWord op f)) (hc : i.wellFormed = true → code f = some i)
    (hd : ∀ w, opcodeOf w = op → decodeFields w = code (read w)) : Reads i := by
  intro w hi hw
  rw [he] at hw
  cases hw
  rw [hd _ (ho op f), hr, hc hi]

/-- An instruction with a row of its own, in a format that every word fits. -/
theorem Reads.one {mk : F → Instr} {read : DWord → F} (hr : ∀ op f, read (toWord op f) = f)
    (he : encode (mk f) = some (toWord op f)) (hd : ∀ w, opcodeOf w = op → decodeFields w = some (mk (read w))) : Reads (mk f) :=
  Reads.code (code := fun f => some (mk f)) ho hr he (fun _ => rfl) hd

/-- An instruction with a row of its own, in a format that not every word fits. -/
theorem Reads.map {mk : F → Instr} {read : DWord → Option F} (hr : ∀ op f, read (toWord op f) = some f)
    (he : encode (mk f) = some (toWord op f)) (hd : ∀ w, opcodeOf w = op → decodeFields w = (read w).map mk) : Reads (mk f) := by
  intro w hi hw
  rw [he] at hw
  cases hw
  rw [hd _ (ho op f), hr, Option.map_some]

end InstructionRows

/-! ### The register or the sub-function of a word names its instruction -/

theorem decodeWrsys_wrsys {f : SF} (h : (Instr.wrsys f).wellFormed = true) : decodeWrsys f = .wrsys f := by
  simp only [Instr.wellFormed, wfWrsys, Bool.and_eq_true, Bool.not_eq_true', Bool.or_eq_false_iff, beq_eq_false_iff_ne] at h
  obtain ⟨-, ⟨hth, ht⟩, hr⟩ := h
  simp [decodeWrsys, hth, ht, hr]

theorem decodeWrsys_thRegisterWrite {f : SF} (h : (Instr.thRegisterWrite f).wellFormed = true) : decodeWrsys f = .thRegisterWrite f := by
  simp only [Instr.wellFormed, Bool.and_eq_true] at h
  obtain ⟨-, hth⟩ := h
  simp [decodeWrsys, hth]

theorem decodeWrsys_timestatWrite {f : SF} (h : (Instr.timestatWrite f).wellFormed = true) : decodeWrsys f = .timestatWrite f := by
  simp only [Instr.wellFormed, Bool.and_eq_true, beq_iff_eq] at h
  obtain ⟨-, himm⟩ := h
  simp [decodeWrsys, himm, isThNumber]

theorem decodeWrsys_rwayfWrite {f : SF} (h : (Instr.rwayfWrite f).wellFormed = true) : decodeWrsys f = .rwayfWrite f := by
  simp only [Instr.wellFormed, Bool.and_eq_true, beq_iff_eq] at h
  obtain ⟨-, himm⟩ := h
  simp [decodeWrsys, himm, isThNumber]

theorem fn_of_wfPbset {f : SF} {n : Nat} (h : wfPbset f n = true) : f.fn.toNat = n := by
  simp only [wfPbset, Bool.and_eq_true, beq_iff_eq] at h
  obtain ⟨⟨⟨⟨-, hn⟩, -⟩, -⟩, -⟩ := h
  exact hn

theorem fn_of_wfPbget {f : SF} {n : Nat} (h : wfPbget f n = true) : f.fn.toNat = n := by
  simp only [wfPbget, Bool.and_eq_true, beq_iff_eq] at h
  obtain ⟨⟨⟨⟨⟨-, -⟩, hn⟩, -⟩, -⟩, -⟩ := h
  exact hn

theorem fn_of_wfTlbinv {f : SF} {n : Nat} (h : wfTlbinv f n = true) : f.fn.toNat = n := by
  simp only [wfTlbinv, Bool.and_eq_true, beq_iff_eq] at h
  obtain ⟨⟨⟨⟨⟨-, hn⟩, -⟩, -⟩, -⟩, -⟩ := h
  exact hn

/-- A `wrsys` word, by the row of its register. -/
theorem Reads.wrsysRow {i : Instr} {f : SF} (he : encode i = some (f.toWord 0x1E3)) (hc : i.wellFormed = true → decodeWrsys f = i) : Reads i :=
  .code (code := fun f => some (decodeWrsys f)) SF.opcodeOf_toWord SF.ofWord_toWord he (fun h => congrArg some (hc h))
    fun _ h => by unfold decodeFields; rewrite [h]; rfl

theorem Reads.pbsetRow {i : Instr} {f : SF} (he : encode i = some (f.toWord 0x1E7)) (hc : i.wellFormed = true → decodePbset f = some i) : Reads i :=
  .code SF.opcodeOf_toWord SF.ofWord_toWord he hc fun _ h => by unfold decodeFields; rewrite [h]; rfl

theorem Reads.pbgetRow {i : Instr} {f : SF} (he : encode i = some (f.toWord 0x1E8)) (hc : i.wellFormed = true → decodePbget f = some i) : Reads i :=
  .code SF.opcodeOf_toWord SF.ofWord_toWord he hc fun _ h => by unfold decodeFields; rewrite [h]; rfl

theorem Reads.tlbinvRow {i : Instr} {f : SF} (he : encode i = some (f.toWord 0x1EA)) (hc : i.wellFormed = true → decodeTlbinv f = some i) : Reads i :=
  .code SF.opcodeOf_toWord SF.ofWord_toWord he hc fun _ h => by unfold decodeFields; rewrite [h]; rfl

/-- Every instruction that has a word, by format, in the order of the map; an event has none. -/
theorem reads (i : Instr) : Reads i := by
  cases i
  case fullEmptyLanePerform | engineStopCancel | copyCompletion | followOnMmaIssue | matrixCommandStart | matrixCommandComplete | fmtsetCompletion
      | asyncTrapDelivery | homeTrapAnswer | pswapChunkExchange | tlbinvComplete => exact .event rfl
  case wrsys => exact .wrsysRow rfl decodeWrsys_wrsys
  case thRegisterWrite => exact .wrsysRow rfl decodeWrsys_thRegisterWrite
  case timestatWrite => exact .wrsysRow rfl decodeWrsys_timestatWrite
  case rwayfWrite => exact .wrsysRow rfl decodeWrsys_rwayfWrite
  case pbsetRng => exact .pbsetRow rfl (fun h => by rw [decodePbset, fn_of_wfPbset h]; rfl)
  case pbsetProt => exact .pbsetRow rfl (fun h => by rw [decodePbset, fn_of_wfPbset h]; rfl)
  case pbgetRng => exact .pbgetRow rfl (fun h => by rw [decodePbget, fn_of_wfPbget h]; rfl)
  case pbgetProt => exact .pbgetRow rfl (fun h => by rw [decodePbget, fn_of_wfPbget h]; rfl)
  case tlbinvPage => exact .tlbinvRow rfl (fun h => by rw [decodeTlbinv, fn_of_wfTlbinv h]; rfl)
  case tlbinvSpace => exact .tlbinvRow rfl (fun h => by rw [decodeTlbinv, fn_of_wfTlbinv h]; rfl)
  case tlbinvAll => exact .tlbinvRow rfl (fun h => by rw [decodeTlbinv, fn_of_wfTlbinv h]; rfl)
  case illegalOpcodeWord w => exact fun v h hv => Option.some.inj hv ▸ (maps_decodeFields w).unassigned (Laws.Opcode.illegalOpcodeWord w w rfl h)
  iterate 30 next => exact .one SF.opcodeOf_toWord SF.ofWord_toWord rfl fun _ h => by unfold decodeFields; rewrite [h]; rfl
  iterate 11 next => exact .one BF.opcodeOf_toWord BF.ofWord_toWord rfl fun _ h => by unfold decodeFields; rewrite [h]; rfl
  iterate 12 next => exact .one SF.opcodeOf_toWord SF.ofWord_toWord rfl fun _ h => by unfold decodeFields; rewrite [h]; rfl
  iterate 23 next => exact .map V3.opcodeOf_toWord V3.ofWord_toWord rfl fun _ h => by unfold decodeFields; rewrite [h]; rfl
  iterate 4 next => exact .map V2I.opcodeOf_toWord V2I.ofWord_toWord rfl fun _ h => by unfold decodeFields; rewrite [h]; rfl
  next => exact .map V3.opcodeOf_toWord V3.ofWord_toWord rfl fun _ h => by unfold decodeFields; rewrite [h]; rfl
  iterate 2 next => exact .map VI.opcodeOf_toWord VI.ofWord_toWord rfl fun _ h => by unfold decodeFields; rewrite [h]; rfl
  iterate 3 next => exact .map V2I.opcodeOf_toWord V2I.ofWord_toWord rfl fun _ h => by unfold decodeFields; rewrite [h]; rfl
  next => exact .map V3.opcodeOf_toWord V3.ofWord_toWord rfl fun _ h => by unfold decodeFields; rewrite [h]; rfl
  iterate 2 next => exact .map V2I.opcodeOf_toWord V2I.ofWord_toWord rfl fun _ h => by unfold decodeFields; rewrite [h]; rfl
  iterate 10 next => exact .map V3.opcodeOf_toWord V3.ofWord_toWord rfl fun _ h => by unfold decodeFields; rewrite [h]; rfl
  iterate 6 next => exact .map V2I.opcodeOf_toWord V2I.ofWord_toWord rfl fun _ h => by unfold decodeFields; rewrite [h]; rfl
  next => exact .map V3.opcodeOf_toWord V3.ofWord_toWord rfl fun _ h => by unfold decodeFields; rewrite [h]; rfl
  iterate 8 next => exact .map V2I.opcodeOf_toWord V2I.ofWord_toWord rfl fun _ h => by unfold decodeFields; rewrite [h]; rfl
  iterate 8 next => exact .one SF.opcodeOf_toWord SF.ofWord_toWord rfl fun _ h => by unfold decodeFields; rewrite [h]; rfl
  iterate 4 next => exact .map V2I.opcodeOf_toWord V2I.ofWord_toWord rfl fun _ h => by unfold decodeFields; rewrite [h]; rfl
  next => exact .one SF.opcodeOf_toWord SF.ofWord_toWord rfl fun _ h => by unfold decodeFields; rewrite [h]; rfl
  iterate 15 next => exact .map MF.opcodeOf_toWord MF.ofWord_toWord rfl fun _ h => by unfold decodeFields; rewrite [h]; rfl
  next => exact .one SF.opcodeOf_toWord SF.ofWord_toWord rfl fun _ h => by unfold decodeFields; rewrite [h]; rfl
  iterate 3 next => exact .map MF.opcodeOf_toWord MF.ofWord_toWord rfl fun _ h => by unfold decodeFields; rewrite [h]; rfl
  iterate 10 next => exact .one SF.opcodeOf_toWord SF.ofWord_toWord rfl fun _ h => by unfold decodeFields; rewrite [h]; rfl
  iterate 4 next => exact .one EF.opcodeOf_toWord EF.ofWord_toWord rfl fun _ h => by unfold decodeFields; rewrite [h]; rfl
  next => exact .map XF.opcodeOf_toWord XF.ofWord_toWord rfl fun _ h => by unfold decodeFields; rewrite [h]; rfl
  iterate 8 next => exact .one EF.opcodeOf_toWord EF.ofWord_toWord rfl fun _ h => by unfold decodeFields; rewrite [h]; rfl
  iterate 9 next => exact .one SF.opcodeOf_toWord SF.ofWord_toWord rfl fun _ h => by unfold decodeFields; rewrite [h]; rfl
  all_goals exact .event rfl

/-! ### The statements -/

/-- Settles O1: the opcode map reads every instruction's own word, row by row. -/
theorem encodeThenDecode : Obligations.EncodeThenDecode := by
  intro i w hi hw
  simp only [decode, reads i w hi hw, hi, if_true]

/-- Settles O2: each row of the opcode map puts every bit of the word in a field of its instruction. -/
theorem decodeReadsEveryBit : Obligations.DecodeReadsEveryBit := by
  intro w i h
  unfold decode at h
  split at h
  · cases h
  · next j hj =>
    split_ifs at h with hw
    cases h
    exact ⟨hw, (maps_decodeFields w).encodes _ hj⟩
/-- Settles O3: each word is the encoding of its well-formed instruction, so it decodes to it (O1). -/
theorem writtenWordsDecode : Obligations.WrittenWordsDecode :=
  ⟨encodeThenDecode _ _ rfl rfl, encodeThenDecode _ _ rfl rfl, encodeThenDecode _ _ rfl rfl, encodeThenDecode _ _ rfl rfl,
    encodeThenDecode _ _ rfl rfl, encodeThenDecode _ _ rfl rfl, encodeThenDecode _ _ rfl rfl, encodeThenDecode _ _ rfl rfl,
    encodeThenDecode _ _ rfl rfl, encodeThenDecode _ _ rfl rfl, encodeThenDecode _ _ rfl rfl, encodeThenDecode _ _ rfl rfl⟩

end Sys2Proof


/-! ## Words that trap at their own checks -/

namespace Sys2Proof.Machine

/-- A word that passes the checks before it and then traps at a check of its own. -/
theorem runWord_trap {s : State} {c : Ctx} {i : Instr} (h : Issues s c i) (f : Ctx → Form) (body : State → Ctx → Act) (hi : (f c).instr = i)
    (hp : privOk c (f c).priv = true) (hx : indexFault c (f c).checks = none) (hn : (f c).needs = {}) {code detail lane : Nat} {value : DWord}
    (hb : body s c = .trap code detail lane value) : runWord s f body = .next (preciseTrap s c code detail lane value) := by
  rw [runWord_next h f body hi hp hx (by rw [hn]; exact roomFor_none c) (by rw [hn]; exact fun h => nomatch h), hb]
  rfl

end Sys2Proof.Machine

/-! ## O11: registers that the launch does not declare, and element types that a word does not take -/

namespace Sys2Proof.Machine

/-- An element-by-element word runs as a V3 word; its integer rows take the element types up to 7. -/
theorem exec_of_elementShape {i : Instr} {f : V3} {n : Nat} {io : Bool} (h : elementShape i = some (f, n, io)) :
    ∃ base fn, ∀ s, exec i s = v3Word i f n base (if io then intEt else anyEt) fn s := by
  unfold elementShape at h
  split at h
  iterate 24 next => cases h; exact ⟨_, _, fun _ => rfl⟩
  cases h

theorem v3Checks_eq_map (f : V3) (n : Nat) : v3Checks f n = (v3Regs f n).map IndexCheck.vec := by
  rw [v3Checks, v3Regs, List.map_take]
  rfl

/-- The registers of a V3 word are numbers of seven bits. -/
theorem lt_of_mem_v3Regs {f : V3} {n m : Nat} (h : m ∈ v3Regs f n) : m < 128 := by
  have hm := List.mem_of_mem_take h
  simp only [List.mem_cons, List.not_mem_nil, or_false] at hm
  rcases hm with rfl | rfl | rfl | rfl <;> exact BitVec.isLt _

/-- A V3 word stops at its first register that the launch does not declare (R97, R105). -/
theorem v3Word_index {s : State} {c : Ctx} {i : Instr} (h : Issues s c i) (f : V3) (n base : Nat) (accept : Nat → Bool) (fn : Ctx → List Nat → Nat)
    {before after : List Nat} {m : Nat} (hm : v3Regs f n = before ++ m :: after) (hb : VectorsIn c before) (hn : ¬ VectorsIn c [m]) :
    v3Word i f n base accept fn s = .next (preciseTrap s c 3 0 127 (BitVec.ofNat 64 m)) := by
  have hx : indexFault c (v3Checks f n) = some m := by rw [v3Checks_eq_map, hm]; exact indexFault_first before after m hb hn
  have hlt : m < 128 := lt_of_mem_v3Regs (f := f) (n := n) (by simp [hm])
  rw [v3Word, runWord_index h (fun _ => v3Form i f n) _ rfl rfl hx, Nat.mod_eq_of_lt hlt]

/-- A V3 word of declared registers is illegal under an element type that it does not take, and where the element type makes an odd register a pair
(R103, R147). -/
theorem v3Word_illegal {s : State} {c : Ctx} {i : Instr} (h : Issues s c i) (f : V3) (n base : Nat) (accept : Nat → Bool) (fn : Ctx → List Nat → Nat)
    (hv : VectorsIn c (v3Regs f n)) (hbad : accept c.et = false ∨ ¬ EvenIfWide c (v3Regs f n)) :
    v3Word i f n base accept fn s = .next (preciseTrap s c 1 0 127 (wordOf i)) := by
  refine runWord_trap h (fun _ => v3Form i f n) _ rfl rfl (by rw [v3Form, v3Checks_eq_map]; exact indexFault_vecs _ hv) rfl ?_
  rcases hbad with hbad | hodd
  · simp [etGate, hbad, Act.illegal]
  · simp only [EvenIfWide, Classical.not_imp, not_forall] at hodd
    obtain ⟨hw, m, hm, hodd⟩ := hodd
    have hany : (v3Regs f n).any (fun n => n % 2 == 1) = true := List.any_eq_true.mpr ⟨m, hm, by simp; omega⟩
    simp [etGate, hw, hany, Act.illegal]

/-- Settles O11: each element-by-element word is a V3 word, which makes these checks. -/
theorem operandChecksTrap : Obligations.OperandChecksTrap := by
  refine ⟨fun s c i f n io hshape h before m after hm hb hn => ?_, fun s c i f n io hshape h hv hbad => ?_⟩
  · obtain ⟨base, fn, he⟩ := exec_of_elementShape hshape
    exact (he s).trans (v3Word_index h f n base _ fn hm hb hn)
  · obtain ⟨base, fn, he⟩ := exec_of_elementShape hshape
    refine (he s).trans (v3Word_illegal h f n base _ fn hv (hbad.imp_left fun het => ?_))
    cases io <;> simpa [intEt, anyEt] using het

end Sys2Proof.Machine


/-! ## Control words: their checks, their targets, and the loop levels that they leave -/

namespace Sys2Proof.Machine

/-! ### Addresses -/

theorem signed_toNat (b : BitVec 32) : signed 32 b.toNat = b.toInt := by
  rw [signed, BitVec.toInt_eq_toNat_cond, Nat.mod_eq_of_lt b.isLt]
  split <;> split <;> omega

theorem branchTarget_eq (c : Ctx) (f : BF) : branchTarget c f = targetOf c f := by rw [branchTarget, targetOf, signed_toNat]

/-- An address taken modulo 2^64 is as far from a multiple of 8 as before. -/
theorem toNat_mod_8_of_ofNat (n : Nat) : (BitVec.ofNat 64 n).toNat % 8 = n % 8 := by
  rw [BitVec.toNat_ofNat]
  omega

/-- The address of `jr`: whole words from the address in the pair. -/
theorem pair_add_words (n : Nat) (k : Int) : BitVec.ofNat 64 n + BitVec.ofInt 64 (8 * k) = BitVec.ofInt 64 (n + 8 * k) := by
  rw [BitVec.ofInt_add, BitVec.ofInt_natCast]

/-- Whole words further, an address is as far from a multiple of 8 as before. -/
theorem toNat_mod_8_of_words (n : Nat) (k : Int) : (BitVec.ofInt 64 (n + 8 * k)).toNat % 8 = n % 8 := by
  rw [BitVec.toNat_ofInt]
  omega

/-! ### The check of every control word (R136) -/

theorem atLoopEnd_eq_false {c : Ctx} : atLoopEnd c = false ↔ InBody c := by simp [atLoopEnd, InBody]

theorem atLoopEnd_eq_true {c : Ctx} : atLoopEnd c = true ↔ ¬ InBody c := by rw [← atLoopEnd_eq_false, Bool.not_eq_false]

/-- A control word at the end of a live level is illegal. -/
theorem controlWord_atEnd {s : State} {c : Ctx} {i : Instr} (h : Issues s c i) (hb : ¬ InBody c) (f : BF) (body : State → Ctx → Act) :
    controlWord i f body s = .next (preciseTrap s c 1 0 127 (wordOf i)) :=
  runWord_trap h _ _ rfl rfl rfl rfl (if_pos (atLoopEnd_eq_true.mpr hb))

/-- A control word elsewhere does what its body says. -/
theorem controlWord_inBody {s : State} {c : Ctx} {i : Instr} (h : Issues s c i) (hb : InBody c) (f : BF) (body : State → Ctx → Act) :
    controlWord i f body s = .next (finish s c f.mark (body s c)) := by
  refine (runWord_next h (fun _ => bForm i f) _ rfl rfl rfl (roomFor_none c) (fun h => nomatch h)).trans ?_
  rw [atLoopEnd_eq_false.mpr hb]
  rfl

/-- The control words, as what they do where no level ends. -/
theorem exec_control {i : Instr} {f : BF} (h : i = .br f ∨ i = .bc f ∨ i = .call f ∨ i = .ret f ∨ i = .jr f ∨ i = .loop f ∨ i = .split f ∨
    i = .join f ∨ i = .bzm f ∨ i = .bnzm f ∨ i = .exit f) : ∃ body, ∀ s, exec i s = controlWord i f body s := by
  rcases h with rfl | rfl | rfl | rfl | rfl | rfl | rfl | rfl | rfl | rfl | rfl <;> exact ⟨_, fun _ => rfl⟩

/-- A jump to an address that is not one of a word traps at itself (R88). -/
theorem jumpTo_misaligned {target : DWord} (h : target.toNat % 8 ≠ 0) (a : Act) : jumpTo target a = .trap 4 0 127 target := if_pos h

/-! ### A word that goes on elsewhere with other levels -/

@[simp] theorem endIssue_rest (s : State) : (endIssue s).rest = s.rest := rfl

/-- The device but for what a word may write does not see the word's issue. -/
@[simp] theorem settle_rest (s : State) (c : Ctx) (mark : Bool) (go : Go) : (settle s c mark go).rest = s.rest :=
  (endIssue_rest _).trans (modSplit_rest s c.x _ fun _ => rfl)

/-- A word that sets its split's loop levels and jumps: nothing but the split's place in the program changes. -/
theorem ranTo_jump {s : State} {c : Ctx} (hc : ctxOf s c.x = some c) (levels : List LoopLevel → List LoopLevel) (mark : Bool) (target : DWord)
    (taken : Bool) :
    RanTo s (settle (modSplit s c.x (fun p => { p with loops := levels p.loops })) c mark (.jump target taken)) c [] [] target (levels c.p.loops) := by
  set u := modSplit s c.x (fun p => { p with loops := levels p.loops }) with hu
  refine ⟨(settle_rest u c mark _).trans (modSplit_rest s c.x _ fun _ => rfl), fun _ => rfl, fun y hy => ?_, fun y r _ => ?_,
    fun _ => rfl, (List.append_nil _).symm, rfl, ?_⟩
  · exact ((splitFind_modSplit u c.x y _).trans (if_neg hy)).trans ((splitFind_modSplit s c.x y _).trans (if_neg hy))
  · rw [held_settle]
    refine held_modGroup_same s (groupOf c.x) _ y r fun _ gr k => ?_
    rw [getElem?_modAt]
    split <;> cases gr.splits[y.slot]? with
    | none => rfl
    | some p => cases r <;> rfl
  · rw [show splitFind (settle u c mark (.jump target taken)) c.x = _ from (splitFind_modSplit u c.x c.x _).trans (if_pos rfl), hu,
      splitFind_modSplit, if_pos rfl, ctxOf_splitFind hc]
    simp [advance]

end Sys2Proof.Machine

/-! ## O15: loop levels -/

namespace Sys2Proof.Machine

/-! ### The update at a word (R136) -/

theorem loopUpdate_elsewhere {pc : DWord} {l : LoopLevel} (h : l.last ≠ pc) (rest : List LoopLevel) : loopUpdate (l :: rest) pc = (l :: rest, pc + 8) :=
  if_pos h

theorem loopUpdate_again {pc : DWord} {l : LoopLevel} (h : l.last = pc) (hc : l.count ≥ 2) (rest : List LoopLevel) :
    loopUpdate (l :: rest) pc = ({ l with count := l.count - 1 } :: rest, l.start) := by
  have : l.count - 1 ≠ 0 := by omega
  simp [loopUpdate, h, this]

theorem loopUpdate_last {pc : DWord} {l : LoopLevel} (h : l.last = pc) (hc : l.count = 1) : loopUpdate [l] pc = ([], pc + 8) := by
  simp [loopUpdate, h, hc]

theorem loopUpdate_last_elsewhere {pc : DWord} {l o : LoopLevel} (h : l.last = pc) (hc : l.count = 1) (ho : o.last ≠ pc) (rest : List LoopLevel) :
    loopUpdate (l :: o :: rest) pc = (o :: rest, pc + 8) := by
  simp [loopUpdate, h, hc, ho]

theorem loopUpdate_last_again {pc : DWord} {l o : LoopLevel} (h : l.last = pc) (hc : l.count = 1) (ho : o.last = pc) (hn : o.count ≥ 2)
    (rest : List LoopLevel) : loopUpdate (l :: o :: rest) pc = ({ o with count := o.count - 1 } :: rest, o.start) := by
  have : o.count - 1 ≠ 0 := by omega
  simp [loopUpdate, h, hc, ho, this]

theorem loopUpdate_last_last {pc : DWord} {l o : LoopLevel} (h : l.last = pc) (hc : l.count = 1) (ho : o.last = pc) (hn : o.count = 1)
    (rest : List LoopLevel) : loopUpdate (l :: o :: rest) pc = (rest, pc + 8) := by
  simp [loopUpdate, h, hc, ho, hn]

/-! ### `loop` (R135) -/

/-- A level may be opened: none is open, or one is and holds the new one's end. -/
theorem loopBad_eq_false {c : Ctx} {last : DWord} :
    loopBad c last = false ↔ c.p.loops = [] ∨ ∃ l, c.p.loops = [l] ∧ l.start.toNat ≤ last.toNat ∧ last.toNat ≤ l.last.toNat := by
  unfold loopBad
  split
  case h_1 h => simp [h]
  case h_2 l h => simp [h]
  case h_3 hnil hone =>
    simp only [Bool.true_eq_false, false_iff, not_or, not_exists, not_and]
    exact ⟨hnil, fun l h => absurd h (hone l)⟩

theorem execLoop_illegal {s : State} {c : Ctx} {f : BF} (h : Issues s c (.loop f)) (hb : InBody c) (hbad : loopBad c (targetOf c f) = true) :
    execLoop f s = .next (preciseTrap s c 1 0 127 (wordOf (.loop f))) := by
  rw [execLoop, controlWord_inBody h hb]
  simp only [branchTarget_eq, hbad, if_true]
  rfl

theorem execLoop_skips {s : State} {c : Ctx} {f : BF} (h : Issues s c (.loop f)) (hb : InBody c) (hroom : loopBad c (targetOf c f) = false)
    (hcount : loopCount c f = 0) :
    ∃ t, execLoop f s = .next t ∧ RanTo s t c [] [] (loopUpdate c.p.loops (targetOf c f)).2 (loopUpdate c.p.loops (targetOf c f)).1 := by
  refine ⟨_, ?_, ranTo_jump (issuing_some h.1).2 (fun _ => (loopUpdate c.p.loops (targetOf c f)).1) f.mark _ false⟩
  rw [execLoop, controlWord_inBody h hb]
  simp only [branchTarget_eq, hroom, hcount, if_true, Bool.false_eq_true, if_false]
  rfl

theorem execLoop_opens {s : State} {c : Ctx} {f : BF} (h : Issues s c (.loop f)) (hb : InBody c) (hroom : loopBad c (targetOf c f) = false)
    (hcount : loopCount c f ≠ 0) :
    ∃ t, execLoop f s = .next t ∧
      RanTo s t c [] [] (c.p.pc + 8) ({ count := loopCount c f, start := c.p.pc + 8, last := targetOf c f } :: c.p.loops) := by
  refine ⟨_, ?_, ranTo_jump (issuing_some h.1).2 (fun ls => { count := loopCount c f, start := c.p.pc + 8, last := targetOf c f } :: ls) f.mark _ false⟩
  rw [execLoop, controlWord_inBody h hb]
  simp only [branchTarget_eq, hroom, hcount, if_false, Bool.false_eq_true]
  rfl

/-! ### Jumps through a pair -/

theorem execRet_misaligned {s : State} {c : Ctx} {f : BF} (h : Issues s c (.ret f)) (hb : InBody c) (ha : c.pair f.sa.toNat % 8 ≠ 0) :
    execRet f s = .next (preciseTrap s c 4 0 127 (BitVec.ofNat 64 (c.pair f.sa.toNat))) := by
  rw [execRet, controlWord_inBody h hb]
  simp only [jumpTo_misaligned ((toNat_mod_8_of_ofNat _).trans_ne ha)]
  rfl

theorem execJr_misaligned {s : State} {c : Ctx} {f : BF} (h : Issues s c (.jr f)) (hb : InBody c) (ha : c.pair f.sa.toNat % 8 ≠ 0) :
    execJr f s = .next (preciseTrap s c 4 0 127 (BitVec.ofInt 64 (c.pair f.sa.toNat + 8 * f.offset.toInt))) := by
  rw [execJr, controlWord_inBody h hb]
  simp only [signed_toNat, pair_add_words, jumpTo_misaligned ((toNat_mod_8_of_words _ _).trans_ne ha)]
  rfl

/-- Settles O15: the update case by case, `loop` by its room and its count, and the words that trap. That `loop` makes its checks before it looks at a
count of zero is the model's choice (log 23). -/
theorem loopLevels : Obligations.LoopLevels := by
  refine ⟨fun pc => ⟨rfl, fun _ rest h => loopUpdate_elsewhere h rest, fun _ rest h hc => loopUpdate_again h hc rest, fun _ => loopUpdate_last,
    fun _ _ rest h hc ho => loopUpdate_last_elsewhere h hc ho rest, fun _ _ rest h hc ho hn => loopUpdate_last_again h hc ho hn rest,
    fun _ _ rest h hc ho hn => loopUpdate_last_last h hc ho hn rest⟩, fun s c f h hb => ?_, fun s c i h => ⟨?_, ?_, ?_⟩⟩
  · refine ⟨fun hroom => execLoop_opens h hb (loopBad_eq_false.mpr hroom), fun hroom => execLoop_skips h hb (loopBad_eq_false.mpr hroom), fun hroom => ?_⟩
    exact execLoop_illegal h hb (by rwa [← Bool.not_eq_false, loopBad_eq_false])
  · rintro f rfl
    exact execRet_misaligned h
  · rintro f rfl
    exact execJr_misaligned h
  · rintro ⟨f, hi⟩ hb
    obtain ⟨body, he⟩ := exec_control hi
    exact (he s).trans (controlWord_atEnd h hb f body)

end Sys2Proof.Machine


/-! ## Elements of a lane's number, and what the vector integer words do with them -/

namespace Sys2Proof.Machine

/-! ### Numbers and bit vectors (R60, R61) -/

theorem ofNat_wrap (w : Nat) (v : Int) : BitVec.ofNat w (wrap w v) = BitVec.ofInt w v := by
  apply BitVec.eq_of_toNat_eq
  have hlt : (v % ((2 ^ w : Nat) : Int)).toNat < 2 ^ w := by
    have := Int.emod_lt_of_pos v (show (0 : Int) < ((2 ^ w : Nat) : Int) by positivity)
    omega
  rw [BitVec.toNat_ofNat, BitVec.toNat_ofInt, wrap, Nat.mod_eq_of_lt hlt]

theorem toInt_ofNat_eq_signed (w n : Nat) : (BitVec.ofNat w n).toInt = signed w n := by
  rw [BitVec.toInt_eq_toNat_cond, BitVec.toNat_ofNat, signed]
  cases w with
  | zero => simp [Nat.mod_one]
  | succ k =>
    have hp : 2 ^ (k + 1) = 2 * 2 ^ k := by rw [pow_succ, mul_comm]
    simp only [Nat.add_sub_cancel, hp]
    split <;> split <;> omega

theorem elementInt_ofNat (w : Nat) (sgn : Bool) (n : Nat) : elementInt sgn (BitVec.ofNat w n) = elemInt w sgn n := by
  cases sgn with
  | true => exact toInt_ofNat_eq_signed w n
  | false => rfl

theorem clampInt_eq {lo hi : Int} (h : lo ≤ hi) (v : Int) : clampInt lo hi v = max lo (min hi v) := by
  unfold clampInt
  split
  · omega
  · split <;> omega

theorem rangeLo_le_rangeHi (w : Nat) (sgn : Bool) : rangeLo w sgn ≤ rangeHi w sgn := by
  have h1 : (0 : Int) < 2 ^ (w - 1) := by positivity
  have h2 : (0 : Int) < 2 ^ w := by positivity
  cases sgn <;> simp only [rangeLo, rangeHi, if_true, Bool.false_eq_true, if_false] <;> omega

/-- R61: saturation takes the nearest value of the range. -/
theorem ofNat_narrow (w : Nat) (sgn sat : Bool) (v : Int) : BitVec.ofNat w (narrow w sgn sat v) = elementFit sgn sat v := by
  cases sat with
  | false => exact ofNat_wrap w v
  | true =>
    rw [narrow, if_pos rfl, ofNat_wrap, clampInt_eq (rangeLo_le_rangeHi w sgn)]
    simp [elementFit, rangeLo, rangeHi]

/-- R94: the conditions over numbers are those over bit vectors. -/
theorem condHolds_eq (w code a b : Nat) : condHolds w code a b = condTable code (BitVec.ofNat w a) (BitVec.ofNat w b) := by
  have hs : ∀ n, signed w (n % 2 ^ w) = (BitVec.ofNat w n).toInt := fun n => by rw [toInt_ofNat_eq_signed, signed, signed, Nat.mod_mod]
  have he : (BitVec.ofNat w a == BitVec.ofNat w b) = (a % 2 ^ w == b % 2 ^ w) := by
    rw [Bool.eq_iff_iff, beq_iff_eq, beq_iff_eq, ← BitVec.toNat_inj, BitVec.toNat_ofNat, BitVec.toNat_ofNat]
  unfold condHolds condTable
  split
  case h_1 => exact he.symm
  case h_2 => exact congrArg not he.symm
  all_goals simp only [hs, BitVec.slt, BitVec.sle, BitVec.ult, BitVec.ule, BitVec.toNat_ofNat]

/-! ### Elements -/

@[simp] theorem ofNat_elem (w v e : Nat) : BitVec.ofNat w (elem w v e) = element w v e :=
  BitVec.eq_of_toNat_eq (by simp [elem, element])

theorem toNat_element (w v e : Nat) : (element w v e).toNat = elem w v e := BitVec.toNat_ofNat ..

theorem elemInt_elem (w : Nat) (sgn : Bool) (v e : Nat) : elemInt w sgn (elem w v e) = elementInt sgn (element w v e) := by
  rw [← elementInt_ofNat, ofNat_elem]

theorem pack_succ (n w : Nat) (f : Nat → Nat) : pack (n + 1) w f = pack n w f + f n % 2 ^ w * 2 ^ (w * n) := by
  simp [pack, List.range_succ]

/-- A number that ends where an element begins, with the element, ends where the element does. -/
theorem add_element_lt {w n x : Nat} (h : x < 2 ^ (w * n)) (r : Nat) : x + r % 2 ^ w * 2 ^ (w * n) < 2 ^ (w * (n + 1)) := by
  have hr : r % 2 ^ w + 1 ≤ 2 ^ w := Nat.mod_lt _ (by positivity)
  calc x + r % 2 ^ w * 2 ^ (w * n) < (r % 2 ^ w + 1) * 2 ^ (w * n) := by rw [Nat.add_mul]; omega
    _ ≤ 2 ^ w * 2 ^ (w * n) := Nat.mul_le_mul_right _ hr
    _ = 2 ^ (w * (n + 1)) := by rw [← pow_add]; ring_nf

theorem pack_lt (n w : Nat) (f : Nat → Nat) : pack n w f < 2 ^ (w * n) := by
  induction n with
  | zero => simp [pack]
  | succ n ih => exact pack_succ n w f ▸ add_element_lt ih _

/-- An element does not see what is added above it. -/
theorem element_add_above {w e n : Nat} (h : e < n) (x y : Nat) : element w (x + y * 2 ^ (w * n)) e = element w x e := by
  have hs : 2 ^ (w * n) = 2 ^ (w * e) * (2 ^ w * 2 ^ (w * (n - e - 1))) := by
    rw [← pow_add, ← pow_add]; congr 1
    obtain ⟨k, rfl⟩ := Nat.exists_eq_add_of_lt h
    rw [show e + k + 1 - e - 1 = k by omega]; ring
  apply BitVec.eq_of_toNat_eq
  rw [toNat_element, toNat_element, elem, elem, hs, show x + y * (2 ^ (w * e) * (2 ^ w * 2 ^ (w * (n - e - 1)))) =
    x + 2 ^ (w * e) * (2 ^ w * (y * 2 ^ (w * (n - e - 1)))) by ring, Nat.add_mul_div_left _ _ (by positivity), Nat.add_mul_mod_self_left]

/-- The element at a place is what stands there above smaller numbers. -/
theorem element_add_at {w e x : Nat} (h : x < 2 ^ (w * e)) (y : Nat) : element w (x + y * 2 ^ (w * e)) e = BitVec.ofNat w y := by
  rw [element, Nat.add_mul_div_right _ _ (by positivity), Nat.div_eq_of_lt h, Nat.zero_add]

/-- A lane of `n` elements has each of them at its place. -/
theorem element_pack {n w e : Nat} (f : Nat → Nat) (h : e < n) : element w (pack n w f) e = BitVec.ofNat w (f e) := by
  induction n with
  | zero => exact absurd h (Nat.not_lt_zero e)
  | succ n ih =>
    rw [pack_succ]
    rcases Nat.lt_succ_iff_lt_or_eq.mp h with hlt | rfl
    · rw [element_add_above hlt, ih hlt]
    · rw [element_add_at (pack_lt e w f)]
      exact BitVec.eq_of_toNat_eq (by simp)

/-- A result element of R148 is the function of the operands' elements. -/
theorem element_perElem {et e : Nat} (f : List Nat → Nat) (vals : List Nat) (h : e < etCount et) :
    element (etWidth et) (perElem et f vals) e = BitVec.ofNat (etWidth et) (f (vals.map (fun v => elem (etWidth et) v e))) := element_pack _ h

/-- A number, as what stands below an element, the element, and what stands above it. -/
theorem eq_around_elem (w v i : Nat) : v = v % 2 ^ (w * i) + elem w v i * 2 ^ (w * i) + v / 2 ^ (w * (i + 1)) * 2 ^ (w * (i + 1)) := by
  have h1 := Nat.mod_add_div v (2 ^ (w * i))
  have h2 := Nat.mod_add_div (v / 2 ^ (w * i)) (2 ^ w)
  have hp : 2 ^ (w * (i + 1)) = 2 ^ (w * i) * 2 ^ w := by rw [← pow_add]; ring_nf
  rw [Nat.div_div_eq_div_mul, ← hp] at h2
  rw [elem, hp]
  rw [hp] at h2
  conv_lhs => rw [← h1, ← h2]
  ring

theorem setElem_eq (w v i r : Nat) : setElem w v i r = v % 2 ^ (w * i) + r % 2 ^ w * 2 ^ (w * i) + v / 2 ^ (w * (i + 1)) * 2 ^ (w * (i + 1)) := by
  have := eq_around_elem w v i
  unfold setElem
  omega

theorem element_below_eq {w e i : Nat} (h : e < i) (v : Nat) : element w (v % 2 ^ (w * i)) e = element w v e := by
  conv_rhs => rw [← Nat.mod_add_div v (2 ^ (w * i)), mul_comm (2 ^ (w * i)), element_add_above h]

/-- An element above a place is one of what stands above that place. -/
theorem element_above {w e i : Nat} (h : i < e) (v : Nat) : element w v e = element w (v / 2 ^ (w * (i + 1))) (e - (i + 1)) := by
  rw [element, element, Nat.div_div_eq_div_mul, ← pow_add, ← mul_add, Nat.add_sub_cancel' h]

/-- Where an element is replaced, it is the new one, and the others stay. -/
theorem element_setElem (w v i r e : Nat) : element w (setElem w v i r) e = if e = i then BitVec.ofNat w r else element w v e := by
  have hlo : v % 2 ^ (w * i) < 2 ^ (w * i) := Nat.mod_lt _ (by positivity)
  rw [setElem_eq]
  rcases lt_trichotomy e i with h | rfl | h
  · rw [if_neg h.ne, element_add_above (h.trans (Nat.lt_succ_self i)), element_add_above h, element_below_eq h]
  · rw [if_pos rfl, element_add_above (Nat.lt_succ_self e), element_add_at hlo]
    exact BitVec.eq_of_toNat_eq (by simp)
  · rw [if_neg h.ne', element_above h, Nat.add_mul_div_right _ _ (by positivity), Nat.div_eq_of_lt (add_element_lt hlo r), Nat.zero_add, ← element_above h]

end Sys2Proof.Machine

/-! ## Bit fields (R127, R154) -/

namespace Sys2Proof.Machine

theorem ofNat_bitExtract {w : Nat} (a : BitVec w) (pos wid : Nat) (sx : Bool) :
    BitVec.ofNat w (bitExtract w a.toNat pos wid sx) = extractField a pos wid sx := by
  have hf : BitVec.ofNat wid (a.toNat / 2 ^ pos % 2 ^ wid) = BitVec.ofNat wid (a.toNat / 2 ^ pos) := BitVec.eq_of_toNat_eq (by simp)
  rw [bitExtract, extractField, Nat.mod_eq_of_lt a.isLt]
  cases sx with
  | false =>
    simp only [Bool.false_eq_true, false_and, if_false]
    exact BitVec.eq_of_toNat_eq (by simp)
  | true =>
    rcases Nat.eq_zero_or_pos wid with rfl | hw
    · simp [Nat.mod_one, BitVec.signExtend, BitVec.toInt_zero_length]
    · rw [if_pos ⟨rfl, hw⟩, if_pos rfl, ofNat_wrap, ← toInt_ofNat_eq_signed, hf]
      rfl

/-- The bits of an inserted field come from its source, and the others stay. -/
theorem getLsbD_insertField {w : Nat} (d a : BitVec w) (pos wid : Nat) {k : Nat} (hk : k < w) :
    (insertField d a pos wid).getLsbD k = if pos ≤ k ∧ k < pos + wid then a.getLsbD (k - pos) else d.getLsbD k := by
  have hm : (BitVec.ofNat w ((2 ^ wid - 1) * 2 ^ pos)).getLsbD k = decide (pos ≤ k ∧ k < pos + wid) := by
    rw [BitVec.getLsbD_ofNat, Nat.testBit_mul_two_pow, Nat.testBit_two_pow_sub_one, decide_eq_true hk, Bool.true_and, ← Bool.decide_and]
    exact decide_eq_decide.mpr (by omega)
  have ha : (BitVec.ofNat w (a.toNat * 2 ^ pos)).getLsbD k = (decide (pos ≤ k) && a.getLsbD (k - pos)) := by
    rw [BitVec.getLsbD_ofNat, Nat.testBit_mul_two_pow, decide_eq_true hk, Bool.true_and]
    rfl
  rw [insertField, BitVec.getLsbD_or, BitVec.getLsbD_and, BitVec.getLsbD_and, BitVec.getLsbD_not, hm, ha]
  split
  · next h => simp [h, hk]
  · next h => simp [h, hk]

theorem testBit_bitInsert {w d a pos wid k : Nat} (hd : d < 2 ^ w) (hk : k < w) :
    (bitInsert w d a pos wid).testBit k = if pos ≤ k ∧ k < pos + wid then a.testBit (k - pos) else d.testBit k := by
  rw [bitInsert, Nat.mod_eq_of_lt hd]
  split
  · next h => rw [if_neg (by omega)]
  · next h =>
    set n := min wid (w - pos) with hn
    have hlo : d % 2 ^ pos < 2 ^ pos := Nat.mod_lt _ (by positivity)
    have hmid : a % 2 ^ n < 2 ^ n := Nat.mod_lt _ (by positivity)
    rw [min_eq_left (by omega : pos ≤ w), show d % 2 ^ pos + a % 2 ^ n * 2 ^ pos + d / 2 ^ (pos + n) * 2 ^ (pos + n) =
      2 ^ pos * (2 ^ n * (d / 2 ^ (pos + n)) + a % 2 ^ n) + d % 2 ^ pos by rw [pow_add]; ring,
      Nat.testBit_two_pow_mul_add _ hlo, Nat.testBit_two_pow_mul_add _ hmid]
    rcases lt_or_ge k pos with h1 | h1
    · rw [if_pos h1, if_neg (by omega), Nat.testBit_mod_two_pow, decide_eq_true h1, Bool.true_and]
    · rw [if_neg (by omega)]
      rcases lt_or_ge (k - pos) n with h2 | h2
      · rw [if_pos h2, if_pos (by omega), Nat.testBit_mod_two_pow, decide_eq_true h2, Bool.true_and]
      · rw [if_neg (by omega), if_neg (by omega), Nat.testBit_div_two_pow]
        congr 1
        omega

theorem ofNat_bitInsert {w : Nat} (d a : BitVec w) (pos wid : Nat) :
    BitVec.ofNat w (bitInsert w d.toNat a.toNat pos wid) = insertField d a pos wid := by
  refine BitVec.eq_of_getLsbD_eq fun k hk => ?_
  rw [getLsbD_insertField d a pos wid hk, BitVec.getLsbD_ofNat, testBit_bitInsert d.isLt hk, decide_eq_true hk, Bool.true_and]
  rfl

/-- A bit of a word's field, as the bit vector has it. -/
theorem field_bit {n : Nat} (v : BitVec n) (k : Nat) : (field v k 1 == 1) = v.getLsbD k := by
  rw [field, BitVec.getLsbD, Nat.testBit_eq_decide_div_mod_eq, pow_one]
  rfl

theorem not_field_bit {n : Nat} (v : BitVec n) (k : Nat) : (field v k 1 == 0) = !v.getLsbD k := by
  rw [← field_bit, field, pow_one]
  rcases Nat.mod_two_eq_zero_or_one (v.toNat / 2 ^ k) with h | h <;> rw [h] <;> rfl

end Sys2Proof.Machine

/-! ## Words that write the lanes of a vector register, or of a predicate, and complete -/

namespace Sys2Proof.Machine

theorem vectorGets_congr {t : State} {c : Ctx} {n : Nat} {m : Mask} {a b : Nat → Word} (h : VectorGets t c n m a) (e : ∀ l, l < 96 → a l = b l) :
    VectorGets t c n m b := by
  obtain ⟨v, hv, hl⟩ := h
  exact ⟨v, hv, fun l h => by rw [hl l h, e l h]⟩

theorem lanesGet_congr {t : State} {c : Ctx} {wide : Bool} {n : Nat} {m : Mask} {a b : Nat → Nat} (h : LanesGet t c wide n m a)
    (e : ∀ l, l < 96 → a l = b l) : LanesGet t c wide n m b :=
  ⟨vectorGets_congr h.1 fun l hl => by rw [e l hl], fun hw => vectorGets_congr (h.2 hw) fun l hl => by rw [e l hl]⟩

/-- A word without needs whose vector registers the launch declares does what its body says. -/
theorem runWord_vectors {s : State} {c : Ctx} {i : Instr} (h : Issues s c i) {ns : List Nat} (hv : VectorsIn c ns) (mark : Bool) (body : State → Ctx → Act) :
    runWord s (fun _ => { instr := i, mark := mark, checks := ns.map IndexCheck.vec }) body = .next (finish s c mark (body s c)) :=
  runWord_next h _ body rfl rfl (indexFault_vecs ns hv) (roomFor_none c) (fun h => nomatch h)

/-- Under an element type that the word takes, with even registers where it makes them pairs, the word goes on (R103, R147). -/
theorem etGate_passes {c : Ctx} {accept : Bool} {ns : List Nat} (ha : accept = true) (he : EvenIfWide c ns) (i : Instr) (a : Act) :
    etGate i c accept ns a = a := by
  have hodd : (etWide c.et && ns.any (fun n => n % 2 == 1)) = false := by
    cases hw : etWide c.et with
    | false => rfl
    | true => simpa using he hw
  simp [etGate, ha, hodd]

theorem evenIfWide_nil (c : Ctx) : EvenIfWide c [] := fun _ _ h => nomatch h

/-- The run of a word writes `r` to the register or the pair at `d`, in the lanes that may be written, and completes. -/
def WritesLanes (s : State) (c : Ctx) (run : Result) (wide : Bool) (d : Nat) (r : Nat → Nat) : Prop :=
  ∃ t, run = .next t ∧ LanesGet t c wide d c.writes r ∧ Ran s t c (vectorRegs c wide d) []

/-- A word whose lanes are written and have a property. -/
theorem WritesLanes.exists_lanes {s : State} {c : Ctx} {run : Result} {wide : Bool} {d : Nat} {r : Nat → Nat} (h : WritesLanes s c run wide d r)
    {P : (Nat → Nat) → Prop} (hP : P r) :
    ∃ t r, run = .next t ∧ LanesGet t c wide d c.writes r ∧ Ran s t c (vectorRegs c wide d) [] ∧ P r := by
  obtain ⟨t, he, hl, hr⟩ := h
  exact ⟨t, r, he, hl, hr, hP⟩

/-- The run of a word writes `b` to predicate `p`, in the lanes that may be written, and completes. -/
def WritesPredicate (s : State) (c : Ctx) (run : Result) (p : Nat) (b : Nat → Bool) : Prop :=
  ∃ t, run = .next t ∧ Ran s t c [.p p] [] ∧ PredicateGets t c p c.writes b

section
variable {s : State} {c : Ctx} {i : Instr} {run : Result} {mark : Bool} {body : State → Ctx → Act} {accept : Bool} {ops : List Nat} {srcs : List Src}

/-- A word that reads its sources and writes 96 values. -/
theorem writesLanes_of_writeVals (h : Issues s c i) (ns : List Nat)
    (he : run = runWord s (fun _ => { instr := i, mark := mark, checks := ns.map IndexCheck.vec }) body) (hv : VectorsIn c ns)
    {hold : List Nat} {windows d shadow : Nat} {wide : Bool} {vals : List Nat} {r : Nat → Nat}
    (hb : body s c = etGate i c accept ops (.done (writeVals (vectorIssue s c srcs hold windows) c d wide vals shadow) .next))
    (ha : accept = true) (ho : EvenIfWide c ops) (hl : vals.length = 96) (hr : ∀ l, l < 96 → vals.getD l 0 = r l) : WritesLanes s c run wide d r := by
  have hc := (issuing_some h.1).2
  obtain ⟨h1, h2⟩ := wrote_writeVals hc (wrote_vectorIssue hc srcs hold windows) d wide vals shadow hl
  refine ⟨_, ?_, lanesGet_congr (lanesGet_settle h2 mark .next) hr, ranTo_settle hc h1 mark .next⟩
  rw [he, runWord_vectors h hv, hb, etGate_passes ha ho]
  rfl

/-- A lane-by-lane word writes its function of the sources' lanes. -/
theorem writesLanes_of_vectorOp (h : Issues s c i) (ns : List Nat)
    (he : run = runWord s (fun _ => { instr := i, mark := mark, checks := ns.map IndexCheck.vec }) body) (hv : VectorsIn c ns)
    {hold : Hold} {windows base d : Nat} {wide : Bool} {f : List Nat → Nat} {r : Nat → Nat}
    (hb : body s c = etGate i c accept ops (vectorOp s c srcs hold windows base d wide f)) (ha : accept = true) (ho : EvenIfWide c ops)
    (hr : ∀ l, f (srcs.map (fun a => sourceAt c a l)) = r l) : WritesLanes s c run wide d r :=
  writesLanes_of_writeVals h ns he hv hb ha ho (length_lanewise c srcs f) (fun l hl => (lanewise_getD c srcs f l hl).trans (hr l))

/-- The combination of a test with the old bit (R155). -/
def combined (comb : Nat) (old new : Bool) : Bool := if comb = 0 then new else if comb = 1 then old && new else old || new

theorem has_combined (comb : Nat) (old : Mask) (t : Nat → Bool) {l : Nat} (hl : l < 96) :
    has (if comb = 0 then ofMask t else if comb = 1 then old &&& ofMask t else old ||| ofMask t) l = combined comb (has old l) (t l) := by
  have ht := has_ofMask t l hl
  unfold combined
  split
  · exact ht
  · split
    · rw [← ht]; exact BitVec.getLsbD_and
    · rw [← ht]; exact BitVec.getLsbD_or

/-- A predicate written in the lanes of a mask (R34). -/
theorem has_merged (mask new old : Mask) {l : Nat} (hl : l < 96) : has ((new &&& mask) ||| (old &&& ~~~ mask)) l = if has mask l then has new l else has old l := by
  have hbits : has ((new &&& mask) ||| (old &&& ~~~ mask)) l = (has new l && has mask l || has old l && !has mask l) := by simp [has, hl]
  rw [hbits]
  cases has mask l <;> simp

/-- A lane-by-lane test combines its results with a predicate. -/
theorem writesPredicate_of_predicateOp (h : Issues s c i) (ns : List Nat)
    (he : run = runWord s (fun _ => { instr := i, mark := mark, checks := ns.map IndexCheck.vec }) body) (hv : VectorsIn c ns)
    {hold : Hold} {base p comb : Nat} {f : List Nat → Bool} (hb : body s c = etGate i c accept ops (predicateOp s c srcs hold base p comb f))
    (ha : accept = true) (ho : EvenIfWide c ops) {r : Nat → Bool} (hr : ∀ l, f (srcs.map (fun a => sourceAt c a l)) = r l) :
    WritesPredicate s c run p (fun l => combined comb (has (c.pr p) l) (r l)) := by
  have hc := (issuing_some h.1).2
  have h0 := wrote_vectorIssue hc srcs (heldSource hold srcs) 1
  obtain ⟨d, hd, hcore, -, -, hreg⟩ := h0.ctx hc
  set t : Nat → Bool := fun l => f ((srcs.map c.take).map (fun v => v.getD l 0))
  have ht : ∀ l, t l = r l := fun l => (congrArg f (List.map_map ..)).trans (hr l)
  obtain ⟨h1, h2⟩ := wrote_writeP hd hcore p c.writes (if comb = 0 then ofMask t else if comb = 1 then c.pr p &&& ofMask t else c.pr p ||| ofMask t)
    (shadowFor c base srcs)
  refine ⟨_, ?_, ranTo_settle hc ((h0.trans h1).mono (by simp)) mark .next, fun hp => ⟨_, (held_settle _ c mark .next _ _).trans (h2 hp), fun l hl => ?_⟩⟩
  · rw [he, runWord_vectors h hv, hb, etGate_passes ha ho]
    rfl
  · have hpred : Table.get d.g.preds p 0 = Table.get c.g.preds p 0 := by simpa [regNow, hp] using hreg (.p p) (by simp)
    rw [has_merged _ _ _ hl, has_combined _ _ _ hl, hpred, ht]

end

end Sys2Proof.Machine

/-! ## O25: comparisons, classes and selection -/

namespace Sys2Proof.Machine

section
variable {s : State} {c : Ctx} {f : V2I}

theorem vcmp_writesPredicate (h : Issues s c (.vcmp f)) (hv : VectorsIn c [f.a.toNat, f.b.toNat]) (het : c.et ≤ 7)
    (hel : f.imm.toNat / 16 % 4 < etCount c.et) (ho : EvenIfWide c [f.a.toNat, f.b.toNat]) :
    WritesPredicate s c (execVcmp f s) (f.d.toNat % 8) (fun l =>
      combined (f.imm.toNat / 64 % 4) (has (c.pr (f.d.toNat % 8)) l) (condTable (f.imm.toNat % 16)
        (element (etWidth c.et) (sourceAt c { reg := f.a.toNat, route := f.ra, wide := etWide c.et } l) (f.imm.toNat / 16 % 4))
        (element (etWidth c.et) (sourceAt c { reg := f.b.toNat, route := f.rb, wide := etWide c.et } l) (f.imm.toNat / 16 % 4)))) := by
  have hw := writesPredicate_of_predicateOp (run := execVcmp f s) h [f.a.toNat, f.b.toNat] rfl hv rfl (by simp [intEt, het, field, hel]) ho fun _ => rfl
  simpa [v2Srcs, arg, field, condHolds_eq, Ctx.ew] using hw

theorem fcmp_writesPredicate (h : Issues s c (.fcmp f)) (hv : VectorsIn c [f.a.toNat, f.b.toNat]) (hlo : 8 ≤ c.et) (hhi : c.et ≤ 11)
    (hel : f.imm.toNat / 16 % 4 < etCount c.et) (ho : EvenIfWide c [f.a.toNat, f.b.toNat]) :
    WritesPredicate s c (execFcmp f s) (f.d.toNat % 8) (fun l =>
      combined (f.imm.toNat / 64 % 4) (has (c.pr (f.d.toNat % 8)) l) (fcondHolds (f.imm.toNat % 16)
        (c.fl (elem (etWidth c.et) (sourceAt c { reg := f.a.toNat, route := f.ra, wide := etWide c.et } l) (f.imm.toNat / 16 % 4)))
        (c.fl (elem (etWidth c.et) (sourceAt c { reg := f.b.toNat, route := f.rb, wide := etWide c.et } l) (f.imm.toNat / 16 % 4))))) := by
  have hw := writesPredicate_of_predicateOp (run := execFcmp f s) h [f.a.toNat, f.b.toNat] rfl hv rfl (by simp [floatEt, hlo, hhi, field, hel]) ho fun _ => rfl
  simpa [v2Srcs, arg, field, Ctx.ew] using hw

theorem classOf_lt (fp : Fp) (bits : Nat) : classOf fp bits < 10 := by
  unfold classOf
  extract_lets fr ex neg
  repeat' split
  all_goals decide

theorem bitAt_eq_testBit (v k : Nat) : bitAt v k = v.testBit k := by
  rw [Nat.testBit_eq_decide_div_mod_eq]
  rfl

/-- The CLASS mask is the low ten bits of the immediate. -/
theorem bitAt_class (v : BitVec 15) {k : Nat} (hk : k < 10) : bitAt (field v 0 10) k = v.getLsbD k := by
  rw [bitAt_eq_testBit, field, pow_zero, Nat.div_one, Nat.testBit_mod_two_pow, decide_eq_true hk, Bool.true_and]
  rfl

theorem fclass_writesPredicate (h : Issues s c (.fclass f)) (hv : VectorsIn c [f.a.toNat]) (hlo : 8 ≤ c.et) (hhi : c.et ≤ 11)
    (hel : f.imm.toNat / 4096 % 2 < etCount c.et) (ho : EvenIfWide c [f.a.toNat]) :
    WritesPredicate s c (execFclass f s) (f.d.toNat % 8) (fun l =>
      combined (f.imm.toNat / 8192 % 4) (has (c.pr (f.d.toNat % 8)) l)
        (f.imm.getLsbD (classOf (fpOf c.et) (elem (etWidth c.et) (sourceAt c { reg := f.a.toNat, route := f.ra, wide := etWide c.et } l)
          (f.imm.toNat / 4096 % 2))))) := by
  have hw := writesPredicate_of_predicateOp (run := execFclass f s) h [f.a.toNat] rfl hv rfl (by simp [floatEt, hlo, hhi, field, hel]) ho fun _ => rfl
  simp only [bitAt_class _ (classOf_lt _ _)] at hw
  simpa [v2Srcs, arg, field, Ctx.ew, Ctx.fp] using hw

theorem vsel_writesLanes (h : Issues s c (.vsel f)) (hv : VectorsIn c [f.d.toNat, f.a.toNat, f.b.toNat]) (het : c.et ≤ 11)
    (ho : EvenIfWide c [f.d.toNat, f.a.toNat, f.b.toNat]) :
    WritesLanes s c (execVsel f s) (etWide c.et) f.d.toNat (fun l =>
      if has (c.pr (f.imm.toNat % 8)) l then sourceAt c { reg := f.a.toNat, route := f.ra, wide := etWide c.et } l
      else sourceAt c { reg := f.b.toNat, route := f.rb, wide := etWide c.et } l) := by
  refine writesLanes_of_writeVals h [f.d.toNat, f.a.toNat, f.b.toNat] rfl hv rfl (decide_eq_true het) ho (by simp [allLanes]) fun l hl => ?_
  simp [allLanes, List.getD, hl, field, sourceAt]

end

/-- Settles O25, word by word. -/
theorem compareAndSelectResults : Obligations.CompareAndSelectResults := by
  intro s c
  refine ⟨fun f h hv het hel ho => vcmp_writesPredicate h hv het hel ho, fun f h hv hlo hhi hel ho => fcmp_writesPredicate h hv hlo hhi hel ho,
    fun f h hv hlo hhi hel ho => fclass_writesPredicate h hv hlo hhi hel ho, fun f h hv het ho => ?_⟩
  obtain ⟨t, he, hl, hr⟩ := vsel_writesLanes h hv het ho
  exact ⟨t, he, hr, hl⟩

end Sys2Proof.Machine

/-! ## O24: immediates, fields, wide products, conversions and packing -/

namespace Sys2Proof.Machine

/-- The lane value of an immediate (R151). -/
theorem immLane_eq (et : Nat) (imm : Word) :
    immLane et imm = if et = 2 then (imm.signExtend 64).toNat else if et = 9 then imm.toNat * 2 ^ 32 else imm.toNat := by
  have hx : wrap 64 (signed 32 imm.toNat) = (imm.signExtend 64).toNat := by
    rw [signed_toNat, BitVec.signExtend, BitVec.toNat_ofInt]
    rfl
  rw [immLane, hx]

section
variable {s : State} {c : Ctx}

theorem vaddi_writesLanes {f : VI} (h : Issues s c (.vaddi f)) (hv : VectorsIn c [f.d.toNat, f.a.toNat]) (het : c.et ≤ 7)
    (ho : EvenIfWide c [f.d.toNat, f.a.toNat]) :
    WritesLanes s c (execVaddi f s) (etWide c.et) f.d.toNat (fun l => perElem c.et (fun x => c.fit (c.int (arg x 0) + c.int (arg x 1)))
      [sourceAt c { reg := f.a.toNat, route := f.ra, wide := etWide c.et } l, immLane c.et f.imm]) :=
  writesLanes_of_vectorOp h [f.d.toNat, f.a.toNat] rfl hv rfl (decide_eq_true het) ho fun _ => rfl

theorem vmovi_writesLanes {f : VI} (h : Issues s c (.vmovi f)) (hv : VectorsIn c [f.d.toNat]) (het : c.et ≤ 11) (ho : EvenIfWide c [f.d.toNat]) :
    WritesLanes s c (execVmovi f s) (etWide c.et) f.d.toNat (fun _ => immLane c.et f.imm) :=
  writesLanes_of_vectorOp h [f.d.toNat] rfl hv rfl (decide_eq_true het) ho fun _ => rfl

/-! ### Bit fields -/

/-- The position and the width of the field that a bit-field word names for a lane (R154). -/
def bitFieldPos (f : V2I) (b : Nat) : Nat := if f.imm.getLsbD 14 then b % 64 else f.imm.toNat % 64
def bitFieldWid (f : V2I) (w b : Nat) : Nat := min (if f.imm.getLsbD 14 then b / 256 % 64 else f.imm.toNat / 64 % 128) w

theorem bitFieldWord_writesLanes {i : Instr} {f : V2I} (h : Issues s c i) (readD : Bool) (fn : Nat → Nat → Nat → Nat → Nat → Nat)
    (hv : VectorsIn c ([f.d.toNat, f.a.toNat] ++ (if f.imm.getLsbD 14 then [f.b.toNat] else []))) (het : c.et ≤ 11)
    (ho : EvenIfWide c [f.d.toNat, f.a.toNat]) :
    WritesLanes s c (bitFieldWord i f readD fn s) (etWide c.et) f.d.toNat (fun l =>
      let b := sourceAt c { reg := f.b.toNat, route := f.rb } l
      perElem c.et (fun x => fn c.ew (arg x 1) (arg x 0) (bitFieldPos f b) (bitFieldWid f c.ew b))
        [sourceAt c { reg := f.a.toNat, route := f.ra, wide := etWide c.et } l,
         if readD then sourceAt c { reg := f.d.toNat, wide := etWide c.et } l else 0]) := by
  unfold bitFieldWord
  simp only [field_bit, bitFieldPos, bitFieldWid]
  cases hb : f.imm.getLsbD 14 with
  | false =>
    rw [hb] at hv
    refine writesLanes_of_vectorOp h [f.d.toNat, f.a.toNat] rfl hv rfl (decide_eq_true het) ho fun l => ?_
    cases readD <;> simp [arg, field, dSrc]
  | true =>
    rw [hb] at hv
    refine writesLanes_of_vectorOp h [f.d.toNat, f.a.toNat, f.b.toNat] rfl hv rfl (decide_eq_true het) ho fun l => ?_
    cases readD <;> rfl

theorem vbfx_writesLanes {f : V2I} (h : Issues s c (.vbfx f)) (hv : VectorsIn c ([f.d.toNat, f.a.toNat] ++ (if f.imm.getLsbD 14 then [f.b.toNat] else [])))
    (het : c.et ≤ 11) (ho : EvenIfWide c [f.d.toNat, f.a.toNat]) :
    WritesLanes s c (execVbfx f s) (etWide c.et) f.d.toNat (fun l =>
      let b := sourceAt c { reg := f.b.toNat, route := f.rb } l
      perElem c.et (fun x => bitExtract c.ew (arg x 0) (bitFieldPos f b) (bitFieldWid f c.ew b) (f.imm.getLsbD 13))
        [sourceAt c { reg := f.a.toNat, route := f.ra, wide := etWide c.et } l, 0]) := by
  rw [← field_bit f.imm 13]
  exact bitFieldWord_writesLanes h false (fun w _ a pos wid => bitExtract w a pos wid (field f.imm 13 1 == 1)) hv het ho

theorem vbfi_writesLanes {f : V2I} (h : Issues s c (.vbfi f)) (hv : VectorsIn c ([f.d.toNat, f.a.toNat] ++ (if f.imm.getLsbD 14 then [f.b.toNat] else [])))
    (het : c.et ≤ 11) (ho : EvenIfWide c [f.d.toNat, f.a.toNat]) :
    WritesLanes s c (execVbfi f s) (etWide c.et) f.d.toNat (fun l =>
      let b := sourceAt c { reg := f.b.toNat, route := f.rb } l
      perElem c.et (fun x => bitInsert c.ew (arg x 1) (arg x 0) (bitFieldPos f b) (bitFieldWid f c.ew b))
        [sourceAt c { reg := f.a.toNat, route := f.ra, wide := etWide c.et } l, sourceAt c { reg := f.d.toNat, wide := etWide c.et } l]) :=
  bitFieldWord_writesLanes h true (fun w d a pos wid => bitInsert w d a pos wid) hv het ho

/-! ### Products, conversions and packing -/

theorem vmulw_writesLanes {f : V3} (h : Issues s c (.vmulw f)) (hv : VectorsIn c [f.d.toNat, f.a.toNat, f.b.toNat]) (het : c.et ≤ 7)
    (hw : etWide c.et = false) :
    WritesLanes s c (execVmulw f s) true f.d.toNat (fun l =>
      wideProducts c.et (sourceAt c { reg := f.a.toNat, route := f.ra } l) (sourceAt c { reg := f.b.toNat, route := f.rb } l)) :=
  writesLanes_of_vectorOp h [f.d.toNat, f.a.toNat, f.b.toNat] rfl hv rfl (by simp [intEt, het, hw]) (evenIfWide_nil c) fun _ => rfl

/-- The converted element among those that the destination holds (R158). -/
def convertedLane (c : Ctx) (f : V2I) (l : Nat) : Nat :=
  let src := f.imm.toNat % 16
  let r := c.fit (elemInt (etWidth src) (etSigned src) (elem (etWidth src) (sourceAt c { reg := f.a.toNat, route := f.ra, wide := etWide src } l)
    (f.imm.toNat / 16 % 4)))
  if 1 < etCount c.et then setElem c.ew (sourceAt c { reg := f.d.toNat } l) (f.imm.toNat / 64 % 4) r else r

theorem vcvt_writesLanes {f : V2I} (h : Issues s c (.vcvt f)) (hv : VectorsIn c [f.d.toNat, f.a.toNat]) (het : c.et ≤ 7)
    (hel : f.imm.toNat / 64 % 4 < etCount c.et) (ho : EvenIfWide c [f.d.toNat]) :
    WritesLanes s c (execVcvt f s) (etWide c.et) f.d.toNat (convertedLane c f) := by
  unfold execVcvt
  refine writesLanes_of_vectorOp h [f.d.toNat, f.a.toNat] rfl hv rfl (by simp [intEt, het, field, hel]) ho fun l => ?_
  by_cases hp : 1 < etCount c.et
  · simp [hp, convertedLane, arg, field, dSrc]
  · simp [hp, convertedLane, arg, field]

/-- The elements of twice the width of two lanes, narrowed into one lane (R159). -/
def packedLane (c : Ctx) (sgn : Bool) (a b : Nat) : Nat :=
  pack (etCount c.et) c.ew (fun i => c.fit (elemInt (2 * c.ew) sgn (elem (2 * c.ew) (arg [a, b] (i / (etCount c.et / 2))) (i % (etCount c.et / 2)))))

theorem vpack_writesLanes {f : V2I} (h : Issues s c (.vpack f)) (hv : VectorsIn c [f.d.toNat, f.a.toNat, f.b.toNat]) (hlo : 4 ≤ c.et)
    (hhi : c.et ≤ 7) :
    WritesLanes s c (execVpack f s) false f.d.toNat (fun l =>
      packedLane c (!f.imm.getLsbD 0) (sourceAt c { reg := f.a.toNat, route := f.ra } l) (sourceAt c { reg := f.b.toNat, route := f.rb } l)) := by
  rw [← not_field_bit]
  exact writesLanes_of_vectorOp h [f.d.toNat, f.a.toNat, f.b.toNat] rfl hv rfl (by simp [hlo, hhi]) (evenIfWide_nil c) fun _ => rfl

/-- Half of the elements of half the width of a lane, widened into a lane (R160). -/
def unpackedLane (c : Ctx) (half : Nat) (sgn : Bool) (a : Nat) : Nat :=
  pack (etCount c.et) c.ew (fun i => wrap c.ew (elemInt (c.ew / 2) sgn (elem (c.ew / 2) a (etCount c.et * half + i))))

theorem vunpk_writesLanes {f : V2I} (h : Issues s c (.vunpk f)) (hv : VectorsIn c [f.d.toNat, f.a.toNat]) (het : c.et ∈ [0, 1, 4, 5]) :
    WritesLanes s c (execVunpk f s) false f.d.toNat (fun l =>
      unpackedLane c (f.imm.toNat % 2) (!f.imm.getLsbD 1) (sourceAt c { reg := f.a.toNat, route := f.ra } l)) := by
  rw [← not_field_bit, show f.imm.toNat % 2 = field f.imm 0 1 by simp [field]]
  exact writesLanes_of_vectorOp h [f.d.toNat, f.a.toNat] rfl hv rfl (by simpa [or_assoc] using het) (evenIfWide_nil c) fun _ => rfl

end

/-! ### Result elements -/

theorem ofNat_fit (c : Ctx) (v : Int) : BitVec.ofNat (etWidth c.et) (c.fit v) = elementFit (etSigned c.et) c.sat v := ofNat_narrow _ _ _ v

theorem element_wideProducts {et e : Nat} (a b : Nat) (h : e < etCount et) : element (2 * etWidth et) (wideProducts et a b) e =
    BitVec.ofInt (2 * etWidth et) (elementInt (etSigned et) (element (etWidth et) a e) * elementInt (etSigned et) (element (etWidth et) b e)) := by
  rw [← elemInt_elem, ← elemInt_elem, ← ofNat_wrap]
  exact element_pack _ h

/-- A lane of one element is converted whole; of several, the others stay. -/
theorem element_convertedLane {c : Ctx} {f : V2I} {e : Nat} (l : Nat) (h : e < etCount c.et) (hel : f.imm.toNat / 64 % 4 < etCount c.et) :
    element (etWidth c.et) (convertedLane c f l) e =
      if e = f.imm.toNat / 64 % 4 then elementFit (etSigned c.et) c.sat (elementInt (etSigned (f.imm.toNat % 16))
        (element (etWidth (f.imm.toNat % 16)) (sourceAt c { reg := f.a.toNat, route := f.ra, wide := etWide (f.imm.toNat % 16) } l) (f.imm.toNat / 16 % 4)))
      else element (etWidth c.et) (sourceAt c { reg := f.d.toNat } l) e := by
  rw [convertedLane, ← elemInt_elem, ← ofNat_fit]
  split
  · exact element_setElem ..
  · next hone =>
    obtain rfl : e = 0 := by omega
    rw [if_pos (by omega)]
    simp [element]

/-- Element `i` of a packed lane is element `i % half` of source A, and then of source B. -/
theorem arg_of_half {half e : Nat} (h : e < 2 * half) (a b : Nat) : arg [a, b] (e / half) = if e < half then a else b := by
  split
  · next hlt => rw [Nat.div_eq_of_lt hlt]; rfl
  · next hge => rw [show e / half = 1 from Nat.div_eq_of_lt_le (by omega) (by omega)]; rfl

theorem two_mul_half_etCount {et : Nat} (hlo : 4 ≤ et) (hhi : et ≤ 7) : 2 * (etCount et / 2) = etCount et := by
  obtain rfl | rfl | rfl | rfl : et = 4 ∨ et = 5 ∨ et = 6 ∨ et = 7 := by omega
  all_goals rfl

theorem element_packedLane {c : Ctx} {e : Nat} (hlo : 4 ≤ c.et) (hhi : c.et ≤ 7) (h : e < etCount c.et) (sgn : Bool) (a b : Nat) :
    element (etWidth c.et) (packedLane c sgn a b) e = elementFit (etSigned c.et) c.sat
      (elementInt sgn (element (2 * etWidth c.et) (if e < etCount c.et / 2 then a else b) (e % (etCount c.et / 2)))) := by
  rw [← arg_of_half (by rwa [two_mul_half_etCount hlo hhi]), ← elemInt_elem, ← ofNat_fit]
  exact element_pack _ h

theorem element_unpackedLane {c : Ctx} {e : Nat} (h : e < etCount c.et) (half : Nat) (sgn : Bool) (a : Nat) :
    element (etWidth c.et) (unpackedLane c half sgn a) e =
      BitVec.ofInt (etWidth c.et) (elementInt sgn (element (etWidth c.et / 2) a (etCount c.et * half + e))) := by
  rw [← elemInt_elem, ← ofNat_wrap]
  exact element_pack _ h

/-- Settles O24, word by word. -/
theorem vectorFieldAndWidthResults : Obligations.VectorFieldAndWidthResults := by
  refine ⟨fun s c => ⟨fun f h hv het ho => ?_, fun f h hv het ho => ?_, fun i f hi h hv het ho => ?_⟩,
    fun s c => ⟨fun f h hv het hw => ?_, fun f h hv het hel ho => ?_, fun f h hv hlo hhi => ?_, fun f h hv het => ?_⟩⟩
  · refine (vaddi_writesLanes h hv het ho).exists_lanes fun l _ e he => ?_
    rw [element_perElem _ _ he, immLane_eq, ofNat_fit, ← elemInt_elem, ← elemInt_elem]
    rfl
  · obtain ⟨t, he, hl, hr⟩ := vmovi_writesLanes h hv het ho
    exact ⟨t, he, lanesGet_congr hl fun _ _ => immLane_eq c.et f.imm, hr⟩
  · rcases hi with rfl | rfl
    · refine (vbfx_writesLanes h hv het ho).exists_lanes fun l _ e he => ?_
      rw [element_perElem _ _ he]
      exact (ofNat_bitExtract (element _ _ e) _ _ _).trans (if_pos rfl).symm
    · refine (vbfi_writesLanes h hv het ho).exists_lanes fun l _ e he => ?_
      rw [element_perElem _ _ he]
      exact (ofNat_bitInsert (element _ _ e) (element _ _ e) _ _).trans (if_neg (by simp)).symm
  · exact (vmulw_writesLanes h hv het hw).exists_lanes fun l _ e he => element_wideProducts _ _ he
  · exact (vcvt_writesLanes h hv het hel ho).exists_lanes fun l _ e he => element_convertedLane l he hel
  · exact (vpack_writesLanes h hv hlo hhi).exists_lanes fun l _ e he => element_packedLane hlo hhi he _ _ _
  · exact (vunpk_writesLanes h hv het).exists_lanes fun l _ e he => element_unpackedLane he _ _ _

end Sys2Proof.Machine

/-! ## O27: floating-point arithmetic, element by element -/

namespace Sys2Proof.Machine

/-! ### Elements as numbers -/

theorem elem_lt (w v e : Nat) : elem w v e < 2 ^ w := Nat.mod_lt _ (by positivity)

/-- A result element of R148 is the function of the operands' elements, in the element's bits. -/
theorem elem_perElem {et e : Nat} (f : List Nat → Nat) (vals : List Nat) (h : e < etCount et) :
    elem (etWidth et) (perElem et f vals) e = f (vals.map (fun v => elem (etWidth et) v e)) % 2 ^ etWidth et := by
  rw [← toNat_element, element_perElem f vals h, BitVec.toNat_ofNat]

/-- Where an element is replaced, it is the new one, and the others stay. -/
theorem elem_setElem (w v i r e : Nat) : elem w (setElem w v i r) e = if e = i then r % 2 ^ w else elem w v e := by
  rw [← toNat_element, element_setElem, apply_ite BitVec.toNat, BitVec.toNat_ofNat, toNat_element]

/-! ### The sign bit (R170) -/

theorem fpOf_width {et : Nat} (hlo : 8 ≤ et) (hhi : et ≤ 11) : (fpOf et).width = etWidth et := by
  interval_cases et <;> decide

/-- The topmost bit of a number is inverted. -/
theorem xor_top_bit {a k : Nat} (h : a < 2 ^ (k + 1)) : a ^^^ 2 ^ k = if a / 2 ^ k % 2 = 1 then a % 2 ^ k else a % 2 ^ k + 2 ^ k := by
  have hlow : a % 2 ^ k < 2 ^ k := Nat.mod_lt _ (by positivity)
  have hbit : (a ^^^ 2 ^ k) / 2 ^ k = a / 2 ^ k ^^^ 1 := by rw [Nat.xor_div_two_pow, Nat.div_self (by positivity)]
  have hrest : (a ^^^ 2 ^ k) % 2 ^ k = a % 2 ^ k := by rw [Nat.xor_mod_two_pow, Nat.mod_self, Nat.xor_zero]
  have htop : a / 2 ^ k < 2 := Nat.div_lt_of_lt_mul (by rwa [← pow_succ])
  rw [← Nat.mod_add_div (a ^^^ 2 ^ k) (2 ^ k), hbit, hrest]
  interval_cases a / 2 ^ k <;> simp

/-! ### The words -/

/-- An element function of `n` operands gives the result element of the table. -/
def FollowsFloatTable (i : Instr) (n : Nat) (fn : Ctx → List Nat → Nat) : Prop :=
  ∀ c, 8 ≤ c.et → c.et ≤ 11 → ∀ x y z, x < 2 ^ etWidth c.et → fn c ([x, y, z].take n) = floatTable i (fpOf c.et) c.ftz c.rnd x y z

theorem fabs_followsFloatTable (f : V3) : FollowsFloatTable (.fabs f) 1 (fun c x => arg x 0 % 2 ^ (c.ew - 1)) := fun c hlo hhi x y z _ => by
  simp [floatTable, arg, Ctx.ew, fpOf_width hlo hhi]

theorem fneg_followsFloatTable (f : V3) : FollowsFloatTable (.fneg f) 1 (fun c x => arg x 0 ^^^ 2 ^ (c.ew - 1)) := fun c hlo hhi x y z hx => by
  have hw : etWidth c.et - 1 + 1 = etWidth c.et := by interval_cases c.et <;> decide
  simpa [floatTable, arg, Ctx.ew, fpOf_width hlo hhi] using xor_top_bit (k := etWidth c.et - 1) (hw.symm ▸ hx)

/-- Each word of R167, R169 and R170 runs as a floating-point word whose element function is the table's. -/
theorem exec_of_floatShape {i : Instr} {f : V3} {n : Nat} (h : floatShape i = some (f, n)) :
    ∃ windows fn, (∀ s, exec i s = floatWord i f n windows fn s) ∧ FollowsFloatTable i n fn := by
  unfold floatShape at h
  split at h
  iterate 6 next => cases h; exact ⟨floatWindows, _, fun _ => rfl, fun _ _ _ _ _ _ _ => rfl⟩
  iterate 2 next => cases h; exact ⟨fun _ => 1, _, fun _ => rfl, fun _ _ _ _ _ _ _ => rfl⟩
  · cases h; exact ⟨fun _ => 1, _, fun _ => rfl, fabs_followsFloatTable _⟩
  · cases h; exact ⟨fun _ => 1, _, fun _ => rfl, fneg_followsFloatTable _⟩
  · cases h

section
variable {s : State} {c : Ctx}

theorem floatWord_writesLanes {i : Instr} (h : Issues s c i) (f : V3) (n : Nat) (windows : Nat → Nat) (fn : Ctx → List Nat → Nat)
    (hv : VectorsIn c (v3Regs f n)) (hlo : 8 ≤ c.et) (hhi : c.et ≤ 11) (ho : EvenIfWide c (v3Regs f n)) :
    WritesLanes s c (floatWord i f n windows fn s) (etWide c.et) f.d.toNat
      (fun l => perElem c.et (fn c) ((v3Srcs f n (etWide c.et)).map (fun a => sourceAt c a l))) :=
  writesLanes_of_vectorOp h (v3Regs f n) (by rw [floatWord, v3Form, v3Checks_eq_map]) hv rfl (by simp [floatEt, hlo, hhi]) ho fun _ => rfl

/-- The result elements of a floating-point word are those of the table. -/
theorem elem_floatWord {i : Instr} {f : V3} {n e : Nat} {fn : Ctx → List Nat → Nat} (ht : FollowsFloatTable i n fn) (hlo : 8 ≤ c.et) (hhi : c.et ≤ 11)
    (he : e < etCount c.et) (l : Nat) :
    elem (etWidth c.et) (perElem c.et (fn c) ((v3Srcs f n (etWide c.et)).map (fun a => sourceAt c a l))) e =
      floatTable i (fpOf c.et) c.ftz c.rnd (elem (etWidth c.et) (sourceAt c { reg := f.a.toNat, route := f.ra, wide := etWide c.et } l) e)
        (elem (etWidth c.et) (sourceAt c { reg := f.b.toNat, route := f.rb, wide := etWide c.et } l) e)
        (elem (etWidth c.et) (sourceAt c { reg := f.c.toNat, route := f.rc, wide := etWide c.et } l) e) % 2 ^ etWidth c.et := by
  rw [elem_perElem _ _ he, v3Srcs, List.map_take, List.map_take]
  exact congrArg (· % _) (ht c hlo hhi _ _ _ (elem_lt _ _ _))

/-- R168: each lane holds the sum of the products of the fp16 elements and the fp32 lane. -/
theorem fdot2_writesLanes {f : V3} (h : Issues s c (.fdot2 f)) (hv : VectorsIn c [f.d.toNat, f.a.toNat, f.b.toNat, f.c.toNat]) (het : c.et = 10) :
    WritesLanes s c (execFdot2 f s) false f.d.toNat (fun l => dot2 c.ftz c.rnd (sourceAt c { reg := f.a.toNat, route := f.ra } l)
      (sourceAt c { reg := f.b.toNat, route := f.rb } l) (sourceAt c { reg := f.c.toNat, route := f.rc } l)) :=
  writesLanes_of_vectorOp h [f.d.toNat, f.a.toNat, f.b.toNat, f.c.toNat] rfl hv rfl (by simp [het]) (evenIfWide_nil c) fun _ => rfl

end

/-- Settles O27: the words of the table by their common form, and `fdot2` by its own. -/
theorem floatElementResults : Obligations.FloatElementResults := by
  intro s c i
  refine ⟨fun f n hi h hv hlo hhi ho => ?_, fun f hi h hv het => ?_⟩
  · obtain ⟨windows, fn, he, ht⟩ := exec_of_floatShape hi
    rw [he]
    exact (floatWord_writesLanes h f n windows fn hv hlo hhi ho).exists_lanes fun l _ e he => elem_floatWord ht hlo hhi he l
  · subst hi
    obtain ⟨t, he, hl, hr⟩ := fdot2_writesLanes h hv het
    exact ⟨t, he, hr, hl.1⟩

end Sys2Proof.Machine

/-! ## O28: rounding and conversion between types, element by element -/

namespace Sys2Proof.Machine

/-- The mode that a word of FIX and RM rounds under. -/
theorem fixedMode_bit {n : Nat} (c : Ctx) (v : BitVec n) (k rm : Nat) : fixedMode c (field v k 1) rm = if v.getLsbD k then rm else c.rnd := by
  rw [← field_bit]
  simp [fixedMode]

section
variable {s : State} {c : Ctx} {f : V2I}

theorem frnd_writesLanes (h : Issues s c (.frnd f)) (hv : VectorsIn c [f.d.toNat, f.a.toNat]) (hlo : 8 ≤ c.et) (hhi : c.et ≤ 11)
    (ho : EvenIfWide c [f.d.toNat, f.a.toNat]) :
    WritesLanes s c (execFrnd f s) (etWide c.et) f.d.toNat (fun l => perElem c.et
      (fun x => c.fp.flush c.ftz (toIntegral c.fp (if f.imm.getLsbD 2 then f.imm.toNat % 4 else c.rnd) (c.fl (arg x 0))))
      [sourceAt c { reg := f.a.toNat, route := f.ra, wide := etWide c.et } l]) := by
  rw [show f.imm.toNat % 4 = field f.imm 0 2 by simp [field], ← fixedMode_bit]
  exact writesLanes_of_vectorOp h [f.d.toNat, f.a.toNat] rfl hv rfl (by simp [floatEt, hlo, hhi]) ho fun _ => rfl

/-- The converted element of R174, in the bits of the ET in force. -/
def convertedBits (c : Ctx) (f : V2I) (l : Nat) : Nat :=
  typedBits c.et c.ftz (if f.imm.getLsbD 10 then f.imm.toNat / 256 % 4 else c.rnd)
    (typedVal (f.imm.toNat % 16) c.ftz (elem (etWidth (f.imm.toNat % 16))
      (sourceAt c { reg := f.a.toNat, route := f.ra, wide := etWide (f.imm.toNat % 16) } l) (f.imm.toNat / 16 % 4)))

/-- The lane of D whose element `i` becomes `r`: the whole of a lane of one element, one of several (R174, R178). -/
def replacedElem (c : Ctx) (d i r l : Nat) : Nat := if 1 < etCount c.et then setElem c.ew (sourceAt c { reg := d } l) i r else r

theorem elem_replacedElem {c : Ctx} {d i r e : Nat} (l : Nat) (he : e < etCount c.et) (hi : i < etCount c.et) :
    elem (etWidth c.et) (replacedElem c d i r l) e = if e = i then r % 2 ^ etWidth c.et else elem (etWidth c.et) (sourceAt c { reg := d } l) e := by
  unfold replacedElem
  split
  · exact elem_setElem ..
  · rw [if_pos (by omega), show e = 0 by omega]
    simp [elem]

theorem fcvt_writesLanes (h : Issues s c (.fcvt f)) (hv : VectorsIn c [f.d.toNat, f.a.toNat]) (het : c.et ≤ 11)
    (hfl : 8 ≤ c.et ∨ 8 ≤ f.imm.toNat % 16) (hel : f.imm.toNat / 64 % 4 < etCount c.et) (ho : EvenIfWide c [f.d.toNat]) :
    WritesLanes s c (execFcvt f s) (etWide c.et) f.d.toNat (fun l => replacedElem c f.d.toNat (f.imm.toNat / 64 % 4) (convertedBits c f l) l) := by
  unfold execFcvt
  refine writesLanes_of_vectorOp h [f.d.toNat, f.a.toNat] rfl hv rfl (by simp [anyEt, het, hfl, hel, field]) ho fun l => ?_
  rw [fixedMode_bit]
  by_cases hp : 1 < etCount c.et
  · simp [hp, replacedElem, convertedBits, arg, field, dSrc]
  · simp [hp, replacedElem, convertedBits, arg, field]

end

end Sys2Proof.Machine

/-! ## O28: strings of format-table elements -/

namespace Sys2Proof.Machine

/-! ### The registers of a string (R175) -/

theorem nodup_stringRegs (x w k : Nat) : (stringRegs x w k).Nodup := by
  unfold stringRegs
  extract_lets lo hi
  split
  · exact List.nodup_singleton _
  · next hne => simpa using hne

theorem vref_injective (c : Ctx) : Function.Injective (vref c) := by
  intro a b h
  unfold vref at h
  split at h <;> split at h
  · next ha hb =>
    have hk := RegRef.k.inj h
    simp only [Bool.and_eq_true, decide_eq_true_eq] at ha hb
    omega
  · cases h
  · cases h
  · exact RegRef.v.inj h

/-- Distinct numbers name distinct registers. -/
theorem vref_getD_ne (c : Ctx) {regs : List Nat} (hd : regs.Nodup) {j k : Nat} (hjk : j < k) (hk : k < regs.length) :
    vref c (regs.getD j 0) ≠ vref c (regs.getD k 0) := by
  rw [List.getD_eq_getElem _ _ (hjk.trans hk), List.getD_eq_getElem _ _ hk]
  exact (vref_injective c).ne fun h => hjk.ne (hd.getElem_inj_iff.mp h)

/-- A string over the registers `regs`, each of which holds `v`. -/
def stringAt (v : Nat → Nat) (regs : List Nat) : Nat := ((List.range regs.length).map (fun j => v (regs.getD j 0) * 2 ^ (32 * j))).sum

theorem getD_map_allLanes {α : Type} (f : Nat → α) {d : α} {l : Nat} (hl : l < 96) : (allLanes.map f).getD l d = f l := by
  simp [allLanes, List.getD, hl]

theorem foldl_string {α : Type} (regs : List Nat) (g : Nat → α) (d : α) (v : α → Nat) :
    (List.range regs.length).foldl (fun acc j => acc + v ((regs.map g).getD j d) * 2 ^ (32 * j)) 0 = stringAt (fun n => v (g n)) regs := by
  rw [stringAt, List.sum_eq_foldl, List.foldl_map]
  refine List.foldl_ext _ _ _ fun acc j hj => ?_
  have hlt := List.mem_range.mp hj
  simp [List.getD, hlt]

/-! ### The checks (R164, R175) -/

theorem firstWith_eq_none {α : Type} {p : α → Bool} {l : List α} (h : ∀ a ∈ l, p a = false) : firstWith p l = none := by
  cases hf : firstWith p l with
  | none => rfl
  | some a => exact absurd (firstWith_mem hf).2 (by simp [h a (firstWith_mem hf).1])

theorem field_low {n : Nat} (v : BitVec n) (len : Nat) : field v 0 len = v.toNat % 2 ^ len := by simp [field]

/-- The entry that a string word names, the number of its element, and the half of the other operand (R175). -/
def entryOf (s : State) (c : Ctx) (f : V2I) : Entry := Entry.ofBits (formatEntry s c (f.imm.toNat % 16))
def elementNumber (f : V2I) : Nat := f.imm.toNat / 16 % 16
def selector (f : V2I) : Nat := f.imm.toNat / 256 % 2

/-- The registers of the string at `x`, and where the element begins in it (R175). -/
def elementRegs (s : State) (c : Ctx) (f : V2I) (x : Nat) : List Nat := stringRegs x (entryOf s c f).width (elementNumber f)
def elementBit (s : State) (c : Ctx) (f : V2I) : Nat := elementNumber f * (entryOf s c f).width % 32

/-- A word passes the checks of R164 and R175: its string is at register `x`, and its other operand is register `o`. -/
structure StringChecks (s : State) (c : Ctx) (f : V2I) (x o : Nat) : Prop where
  lowest : 8 ≤ c.et
  highest : c.et ≤ 11
  half : selector f = 0 ∨ etCount c.et = 2
  even : EvenIfWide c [o]
  number : elementNumber f ≤ maxK (entryOf s c f).width
  exist : ∀ n ∈ elementRegs s c f x, n < 128
  declared : VectorsIn c (elementRegs s c f x)

theorem stringGate_passes {s : State} {c : Ctx} {f : V2I} {x o : Nat} (h : StringChecks s c f x o) (i : Instr) (a : Act) :
    stringGate i c (selector f) [o] x (entryOf s c f).width (elementNumber f) a = a := by
  have hregs : firstWith (fun n => 127 < n || (c.vcnt ≤ n && !(c.handler && 120 ≤ n))) (elementRegs s c f x) = none := firstWith_eq_none fun n hn => by
    have hlt := h.exist n hn
    rcases h.declared n hn with hd | ⟨hh, h120, -⟩
    · simp [hd]; omega
    · simp [hh, h120]; omega
  have het : (floatEt c.et && (selector f == 0 || etCount c.et == 2)) = true := by simpa [floatEt, h.lowest, h.highest] using h.half
  rw [elementRegs] at hregs
  rw [stringGate, etGate_passes het h.even, if_neg (Nat.not_lt.mpr h.number), hregs]

/-! ### A string is written -/

/-- Values are written to registers, one after another, each in the lanes of a mask. -/
def writeRegs (s : State) (c : Ctx) (regs : List Nat) (mask : Mask) (new : Nat → Lanes) (shadow k : Nat) : State :=
  (List.range k).foldl (fun s j => writeV s c (regs.getD j 0) mask (new j) shadow) s

theorem writeRegs_succ (s : State) (c : Ctx) (regs : List Nat) (mask : Mask) (new : Nat → Lanes) (shadow k : Nat) :
    writeRegs s c regs mask new shadow (k + 1) = writeV (writeRegs s c regs mask new shadow k) c (regs.getD k 0) mask (new k) shadow := by
  simp [writeRegs, List.range_succ]

/-- Distinct registers are written: each holds its value, and nothing else changes. -/
theorem wrote_writeRegs {s u : State} {c : Ctx} (hc : ctxOf s c.x = some c) (h : Wrote s u c.x []) {regs : List Nat} (hd : regs.Nodup) (mask : Mask)
    (new : Nat → Lanes) (shadow : Nat) {k : Nat} (hk : k ≤ regs.length) :
    Wrote s (writeRegs u c regs mask new shadow k) c.x ((regs.take k).map (vref c)) ∧
      ∀ j, j < k → VectorGets (writeRegs u c regs mask new shadow k) c (regs.getD j 0) mask (lane (new j)) := by
  induction k with
  | zero => exact ⟨by simpa [writeRegs] using h, by simp⟩
  | succ k ih =>
    obtain ⟨hw, hg⟩ := ih (by omega)
    obtain ⟨e, he, hcore, -, -, hreg⟩ := hw.ctx hc
    obtain ⟨h1, h2⟩ := wrote_writeV he hcore (regs.getD k 0) mask (new k) shadow
    have hfresh : vref c (regs.getD k 0) ∉ (regs.take k).map (vref c) := fun hm => by
      obtain ⟨n, hn, hnk⟩ := List.mem_map.mp hm
      obtain ⟨j, hj, rfl⟩ := List.mem_take_iff_getElem.mp hn
      exact vref_getD_ne c hd (show j < k by omega) hk (by rwa [List.getD_eq_getElem])
    rw [writeRegs_succ]
    refine ⟨(hw.trans h1).mono ?_, fun j hj => ?_⟩
    · rw [List.take_add_one, List.map_append]
      simp [List.getD, show k < regs.length from hk]
    · rcases Nat.lt_succ_iff_lt_or_eq.mp hj with hlt | rfl
      · obtain ⟨v, hv, hl⟩ := hg j hlt
        exact ⟨v, (h1.regs c.x _ fun hm => vref_getD_ne c hd hlt hk (List.mem_singleton.mp hm.1)).trans hv, hl⟩
      · refine ⟨_, h2, fun l hl => ?_⟩
        rw [lane_mergeLanes _ _ _ l hl, hreg _ hfresh]

theorem vectorGets_settle {u : State} {c : Ctx} {n : Nat} {m : Mask} {new : Nat → Word} (h : VectorGets u c n m new) (mark : Bool) (go : Go) :
    VectorGets (settle u c mark go) c n m new := by
  obtain ⟨v, hv, hl⟩ := h
  exact ⟨v, (held_settle u c mark go _ _).trans hv, hl⟩

/-- The run of a word writes `new j` to the `j`-th of the registers, in the lanes that may be written, and completes. -/
def WritesRegs (s : State) (c : Ctx) (run : Result) (regs : List Nat) (new : Nat → Nat → Word) : Prop :=
  ∃ t, run = .next t ∧ Ran s t c (regs.map (vref c)) [] ∧ ∀ j, j < regs.length → VectorGets t c (regs.getD j 0) c.writes (new j)

/-- A word that reads its sources and writes distinct registers. -/
theorem writesRegs_of_writeRegs {s : State} {c : Ctx} {i : Instr} {run : Result} {mark : Bool} {body : State → Ctx → Act} (h : Issues s c i) (ns : List Nat)
    (he : run = runWord s (fun _ => { instr := i, mark := mark, checks := ns.map IndexCheck.vec }) body) (hv : VectorsIn c ns)
    {srcs : List Src} {hold : List Nat} {windows shadow : Nat} {regs : List Nat} {vals new : Nat → Nat → Word} (hd : regs.Nodup)
    (hb : body s c = .done (writeRegs (vectorIssue s c srcs hold windows) c regs c.writes (fun j => allLanes.map (vals j)) shadow regs.length) .next)
    (hn : ∀ j l, l < 96 → vals j l = new j l) : WritesRegs s c run regs new := by
  have hc := (issuing_some h.1).2
  obtain ⟨h1, h2⟩ := wrote_writeRegs hc (wrote_vectorIssue hc srcs hold windows) hd c.writes (fun j => allLanes.map (vals j)) shadow le_rfl
  rw [List.take_length] at h1
  refine ⟨_, ?_, ranTo_settle hc h1 mark .next, fun j hj => vectorGets_congr (vectorGets_settle (h2 j hj) mark .next) fun l hl => ?_⟩
  · rw [he, runWord_vectors h hv, hb]
    rfl
  · exact (lane_ofLanes _ l hl).trans (hn j l hl)

/-! ### The words -/

section
variable {s : State} {c : Ctx} {f : V2I}

/-- The scale of a lane under the scale operand (R176). -/
def scaleAt (s : State) (c : Ctx) (f : V2I) (l : Nat) : Val := laneScale (entryOf s c f) (c.s (f.b.toNat % 64)).toNat l

/-- The code that a lane's element has in the entry (R177). -/
def encodedAt (s : State) (c : Ctx) (f : V2I) (l : Nat) : Nat :=
  (entryOf s c f).encode c.rnd c.ftz
    ((c.fl (elem c.ew (sourceAt c { reg := f.a.toNat, route := f.ra, wide := etWide c.et } l) (selector f))).div (scaleAt s c f l))

/-- A string with the `w` bits from `bit` on replaced. -/
def replacedBits (bit w old code : Nat) : Nat := old - old / 2 ^ bit % 2 ^ w * 2 ^ bit + code * 2 ^ bit

/-- The string at D of a lane, with its element replaced (R177). -/
def encodedString (s : State) (c : Ctx) (f : V2I) (l : Nat) : Nat :=
  replacedBits (elementBit s c f) (entryOf s c f).width
    (stringAt (fun n => (lane (imageLanes (regNow c (vref c n))) l).toNat) (elementRegs s c f f.d.toNat)) (encodedAt s c f l)

theorem fcvtt_writesRegs (h : Issues s c (.fcvtt f)) (hv : VectorsIn c [f.d.toNat, f.a.toNat]) (hs : StringChecks s c f f.d.toNat f.a.toNat) :
    WritesRegs s c (execFcvtt f s) (elementRegs s c f f.d.toNat) (fun j l => BitVec.ofNat 32 (encodedString s c f l / 2 ^ (32 * j))) := by
  unfold execFcvtt
  simp only [field_low]
  refine writesRegs_of_writeRegs h [f.d.toNat, f.a.toNat] rfl hv (nodup_stringRegs ..) (stringGate_passes hs _ _) fun j l hl => ?_
  exact congrArg (fun v => BitVec.ofNat 32 (v / 2 ^ (32 * j))) (congrArg₂ (replacedBits (elementBit s c f) (entryOf s c f).width)
    (foldl_string _ _ [] (fun v => (lane v l).toNat)) (getD_map_allLanes (encodedAt s c f) hl))

/-- The value that a lane's element of the string decodes to, scaled, in the bits of the ET in force (R178). -/
def decodedAt (s : State) (c : Ctx) (f : V2I) (l : Nat) : Nat :=
  c.round (((entryOf s c f).flushVal c.ftz ((entryOf s c f).dec
    (stringAt (fun n => sourceAt c { reg := n, route := f.ra } l) (elementRegs s c f f.a.toNat) / 2 ^ elementBit s c f % 2 ^ (entryOf s c f).width))).mul
      (scaleAt s c f l))

/-- Under a floating-point type a lane has two elements, or one. -/
theorem etCount_float {et : Nat} (hlo : 8 ≤ et) (hhi : et ≤ 11) : etCount et = 2 ∨ etCount et = 1 := by
  interval_cases et <;> decide

theorem fcvtf_writesLanes (h : Issues s c (.fcvtf f)) (hv : VectorsIn c [f.d.toNat, f.a.toNat]) (hs : StringChecks s c f f.a.toNat f.d.toNat) :
    WritesLanes s c (execFcvtf f s) (etWide c.et) f.d.toNat (fun l => replacedElem c f.d.toNat (selector f) (decodedAt s c f l) l) := by
  unfold execFcvtf
  simp only [field_low]
  refine writesLanes_of_writeVals (accept := true) (ops := []) h [f.d.toNat, f.a.toNat] rfl hv
    ((stringGate_passes hs _ _).trans (etGate_passes rfl (evenIfWide_nil c) _ _).symm) rfl (evenIfWide_nil c) (by simp [allLanes]) fun l hl => ?_
  have hcount : (etCount c.et == 2) = decide (1 < etCount c.et) := by
    rcases etCount_float hs.lowest hs.highest with h2 | h1
    · rw [h2]; rfl
    · rw [h1]; rfl
  rw [getD_map_allLanes _ hl]
  simp only [hcount, decide_eq_true_eq, List.map_map, Function.comp_def, foldl_string _ (fun n => c.take { reg := n, route := f.ra }) [] (fun v => v.getD l 0)]
  rfl

/-- The decoded element stands at SEL where a lane has two, and else fills the lane; of two, the other stays (R178). -/
theorem elem_decodedLane {d r : Nat} (hlo : 8 ≤ c.et) (hhi : c.et ≤ 11) (l : Nat) :
    elem (etWidth c.et) (replacedElem c d (selector f) r l) (if etCount c.et = 2 then selector f else 0) = r % 2 ^ etWidth c.et ∧
      (etCount c.et = 2 → elem (etWidth c.et) (replacedElem c d (selector f) r l) (1 - selector f) =
        elem (etWidth c.et) (sourceAt c { reg := d } l) (1 - selector f)) := by
  have hsel : selector f < 2 := Nat.mod_lt _ (by decide)
  rcases etCount_float hlo hhi with h2 | h1
  · refine ⟨?_, fun _ => ?_⟩
    · rw [if_pos h2, elem_replacedElem l (h2 ▸ hsel) (h2 ▸ hsel), if_pos rfl]
    · rw [elem_replacedElem l (by omega) (h2 ▸ hsel), if_neg (by omega)]
  · simp [replacedElem, h1, elem]

end

/-! ### The statement -/

/-- Settles O28, word by word: `frnd` and `fcvt` element by element, `fcvtt` and `fcvtf` by the string that their operands name. -/
theorem floatConversionResults : Obligations.FloatConversionResults := by
  refine ⟨fun s c => ⟨fun f h hv hlo hhi ho => ?_, fun f h hv het hfl hel ho => ?_⟩,
    fun s c f => ⟨fun h hv hlo hhi hsel ho hk hin hregs => ?_, fun h hv hlo hhi hsel ho hk hin hregs => ?_⟩⟩
  · exact (frnd_writesLanes h hv hlo hhi ho).exists_lanes fun l _ e he => elem_perElem _ _ he
  · exact (fcvt_writesLanes h hv het hfl hel ho).exists_lanes fun l _ e he => elem_replacedElem l he hel
  · exact fcvtt_writesRegs h hv ⟨hlo, hhi, hsel, ho, hk, hin, hregs⟩
  · obtain ⟨t, he, hl, hr⟩ := fcvtf_writesLanes h hv ⟨hlo, hhi, hsel, ho, hk, hin, hregs⟩
    exact ⟨t, _, he, hr, hl, fun l _ => elem_decodedLane hlo hhi l⟩

end Sys2Proof.Machine

/-! ## O36: the new values of atomics, and the sums of counters -/

namespace Sys2Proof.Machine

/-- Of two signed numbers the order is that of `atomicNew`. -/
theorem signed_le_iff_sle {w : Nat} (a b : BitVec w) : signed w a.toNat ≤ signed w b.toNat ↔ a.sle b = true := by
  have e : ∀ x : BitVec w, signed w x.toNat = x.toInt := fun x => by
    rw [← toInt_ofNat_eq_signed, BitVec.ofNat_toNat, BitVec.setWidth_eq]
  rw [e, e, BitVec.sle_iff_toInt_le]

/-- R198: the integer operations, at every width. -/
theorem atomicNew_integer (n : Nat) (old b b' : BitVec (8 * n)) :
    let new (op : Nat) : Nat := atomicNew op n old.toNat b.toNat b'.toNat
    new 0 = b.toNat ∧ new 1 = (if old = b then b' else old).toNat ∧ new 2 = (old + b).toNat ∧ new 3 = (old &&& b).toNat ∧ new 4 = (old ||| b).toNat ∧
    new 5 = (old ^^^ b).toNat ∧ new 6 = (if old.sle b then old else b).toNat ∧ new 7 = (if old.sle b then b else old).toNat ∧
    new 8 = (if old.ule b then old else b).toNat ∧ new 9 = (if old.ule b then b else old).toNat := by
  simp only [atomicNew, signed_le_iff_sle, BitVec.toNat_inj]
  refine ⟨trivial, ?_, (BitVec.toNat_add old b).symm, rfl, rfl, rfl, ?_, ?_, ?_, ?_⟩
  · split <;> rfl
  · split <;> rfl
  · split <;> rfl
  · simp only [Nat.min_def, BitVec.ule_eq_decide, decide_eq_true_eq]; split <;> rfl
  · simp only [Nat.max_def, BitVec.ule_eq_decide, decide_eq_true_eq]; split <;> rfl

/-- Settles O36: the operations hold at every width, and a sum saturates where it would exceed 2^64 − 1. -/
theorem atomicOperations : Obligations.AtomicOperations := by
  refine ⟨fun n old b b' _ => atomicNew_integer n old b b', fun old b => ⟨Nat.min_le_right _ _, fun h => ?_, fun h => ?_⟩⟩
  · simp only [counterSum, Nat.min_eq_left h, Prod.mk.injEq, decide_eq_false_iff_not, true_and]; omega
  · simp only [counterSum, Nat.min_eq_right h.le, Prod.mk.injEq, decide_eq_true_eq, true_and]; omega

end Sys2Proof.Machine

/-! ## What accesses and futures leave alone: registers, programs, memory -/

namespace Sys2Proof.Machine

/-! ### Workgroups but for their accesses, their futures and their scratchpad -/

/-- A split without the order of its accesses and what it waits for. -/
def Split.still (p : Split) : Split := { p with await := [], hist := [], floors := [], sfloors := [], relFence := 0, wait := .none }

/-- A group without its hold latch, its accesses and its futures. -/
def Group.still (g : Group) : Group :=
  { g with hold := [], paths := [], futures := [], joins := [], reserved := none, splits := g.splits.map Split.still }

/-- A workgroup without its scratchpad, and those parts of its groups. -/
def Workgroup.still (w : Workgroup) : Workgroup := { w with scratch := [], full := [], scratchPoison := [], groups := w.groups.map Group.still }

/-- No register, no word of a program and no byte of memory changes, nor the life of a split. -/
structure Undisturbed (s t : State) : Prop where
  wgs : t.wgs.map Workgroup.still = s.wgs.map Workgroup.still
  regions : t.regions = s.regions
  mem : t.mem = s.mem
  banks : ∀ n, (coreOf t n).kregs = (coreOf s n).kregs ∧ (coreOf t n).ksregs = (coreOf s n).ksregs

namespace Undisturbed

theorem refl (s : State) : Undisturbed s s := ⟨rfl, rfl, rfl, fun _ => ⟨rfl, rfl⟩⟩

theorem trans {s t u : State} (h : Undisturbed s t) (k : Undisturbed t u) : Undisturbed s u :=
  ⟨k.wgs.trans h.wgs, k.regions.trans h.regions, k.mem.trans h.mem, fun n => ⟨(k.banks n).1.trans (h.banks n).1, (k.banks n).2.trans (h.banks n).2⟩⟩

/-- A change of nothing but flights, copies, the memory order and the like. -/
theorem of_eq {s t : State} (hw : t.wgs = s.wgs := by rfl) (hr : t.regions = s.regions := by rfl) (hm : t.mem = s.mem := by rfl)
    (hk : t.cores = s.cores := by rfl) : Undisturbed s t :=
  ⟨by rw [hw], hr, hm, fun n => by rw [coreOf_congr hk]; exact ⟨rfl, rfl⟩⟩

theorem modWg (s : State) (id : Nat) (f : Workgroup → Workgroup) (h : ∀ w, (f w).still = w.still := by intro _; rfl) : Undisturbed s (modWg s id f) where
  wgs := by
    simp only [modWg_wgs, List.map_map]
    refine List.map_congr_left fun w _ => ?_
    simp only [Function.comp_apply]
    split
    · exact h w
    · rfl
  regions := rfl
  mem := rfl
  banks _ := ⟨rfl, rfl⟩

theorem modGroup (s : State) (g : GroupId) (f : Group → Group) (h : ∀ gr, (f gr).still = gr.still := by intro _; rfl) : Undisturbed s (modGroup s g f) :=
  .modWg s g.wg _ fun w => by simp only [Workgroup.still, map_modAt _ _ f Group.still h]

theorem modSplit (s : State) (x : SplitId) (f : Split → Split) (h : ∀ p, (f p).still = p.still := by intro _; rfl) : Undisturbed s (modSplit s x f) :=
  .modGroup s _ _ fun g => by simp only [Group.still, map_modAt _ _ f Split.still h]

theorem modCore (s : State) (n : Nat) (f : Core → Core) (h : ∀ k, (f k).kregs = k.kregs ∧ (f k).ksregs = k.ksregs := by intro _; exact ⟨rfl, rfl⟩) : Undisturbed s (modCore s n f) where
  wgs := rfl
  regions := rfl
  mem := rfl
  banks m := by rw [coreOf_modCore]; split <;> [(subst m; exact h _); exact ⟨rfl, rfl⟩]

/-- Steps that each disturb nothing disturb nothing together. -/
theorem foldl {α : Type} {s t : State} (h : Undisturbed s t) (l : List α) (f : State → α → State) (hf : ∀ u a, Undisturbed u (f u a)) :
    Undisturbed s (l.foldl f t) :=
  List.foldlRecOn (motive := fun u => Undisturbed s u) l f h fun u hu a _ => hu.trans (hf u a)

section
variable {s t : State} (h : Undisturbed s t)
include h

theorem wgFind (id : Nat) : (wgFind t id).map Workgroup.still = (wgFind s id).map Workgroup.still := by
  have e : ∀ u : State, (Machine.wgFind u id).map Workgroup.still = firstWith (fun w => w.id == id) (u.wgs.map Workgroup.still) :=
    fun u => (firstWith_map (fun w : Workgroup => w.id == id) u.wgs Workgroup.still fun _ => rfl).symm
  rw [e, e, h.wgs]

theorem groupFind (g : GroupId) : (groupFind t g).map Group.still = (groupFind s g).map Group.still := by
  have e : ∀ u : State, (Machine.groupFind u g).map Group.still = ((Machine.wgFind u g.wg).map Workgroup.still).bind (fun w => w.groups[g.grp]?) := by
    intro u
    cases hw : Machine.wgFind u g.wg <;> simp [Machine.groupFind, hw, Workgroup.still]
  rw [e, e, h.wgFind]

theorem splitFind (x : SplitId) : (splitFind t x).map Split.still = (splitFind s x).map Split.still := by
  have e : ∀ u : State, (Machine.splitFind u x).map Split.still = ((Machine.groupFind u (groupOf x)).map Group.still).bind (fun g => g.splits[x.slot]?) := by
    intro u
    cases hg : Machine.groupFind u (groupOf x) <;> simp [Machine.splitFind, hg, Group.still]
  rw [e, e, h.groupFind]

theorem found {x : SplitId} {p : Split} (hp : Machine.splitFind s x = some p) : ∃ q, Machine.splitFind t x = some q ∧ q.still = p.still := by
  have e := h.splitFind x
  rw [hp] at e
  simpa using e

theorem foundGroup {g : GroupId} {p : Group} (hp : Machine.groupFind s g = some p) : ∃ q, Machine.groupFind t g = some q ∧ q.still = p.still := by
  have e := h.groupFind g
  rw [hp] at e
  simpa using e

theorem foundWg {id : Nat} {p : Workgroup} (hp : Machine.wgFind s id = some p) : ∃ q, Machine.wgFind t id = some q ∧ q.still = p.still := by
  have e := h.wgFind id
  rw [hp] at e
  simpa using e

/-- Every register of every split keeps its value. -/
theorem held (y : SplitId) (r : RegRef) : held t y r = held s y r := by
  have reg : ∀ (g g' : Group) (p p' : Split) n, g'.still = g.still → p'.still = p.still → regIn g' p' (coreOf t n) r = regIn g p (coreOf s n) r := by
    intro g g' p p' n hg hp
    have hv : g'.vregs = g.vregs := congrArg (·.vregs) hg
    have hx : g'.xregs = g.xregs := congrArg (·.xregs) hg
    have hpr : g'.preds = g.preds := congrArg (·.preds) hg
    have hs : p'.scalars = p.scalars := congrArg (·.scalars) hp
    obtain ⟨hk, hks⟩ := h.banks n
    cases r <;> simp only [regIn, hv, hx, hpr, hs, hk, hks]
  rw [held_eq, held_eq]
  have ew := h.wgFind y.wg
  cases hw : Machine.wgFind s y.wg with
  | none => rw [hw] at ew; rw [show Machine.wgFind t y.wg = none by simpa using ew]; rfl
  | some w =>
    obtain ⟨w', hw', e⟩ := h.foundWg hw
    have hcore : w'.core = w.core := (congrArg Workgroup.core e : w'.still.core = w.still.core)
    have hreg : w'.region = w.region := (congrArg Workgroup.region e : w'.still.region = w.still.region)
    have hgs : (w'.groups[y.grp]?).map Group.still = (w.groups[y.grp]?).map Group.still := by
      rw [← List.getElem?_map, ← List.getElem?_map]; exact congrArg (fun v : Workgroup => v.groups[y.grp]?) e
    rw [hw']
    simp only [Option.bind_some, hcore, hreg, regionFind, h.regions]
    cases hg : w.groups[y.grp]? with
    | none => rw [hg] at hgs; rw [show w'.groups[y.grp]? = none by simpa using hgs]; rfl
    | some g =>
      rw [hg] at hgs
      obtain ⟨g', hg', eg⟩ : ∃ g', w'.groups[y.grp]? = some g' ∧ g'.still = g.still := by simpa using hgs
      have hps : (g'.splits[y.slot]?).map Split.still = (g.splits[y.slot]?).map Split.still := by
        rw [← List.getElem?_map, ← List.getElem?_map]; exact congrArg (fun v : Group => v.splits[y.slot]?) eg
      rw [hg']
      simp only [Option.bind_some]
      cases hp : g.splits[y.slot]? with
      | none => rw [hp] at hps; rw [show g'.splits[y.slot]? = none by simpa using hps]; rfl
      | some p =>
        rw [hp] at hps
        obtain ⟨p', hp', ep⟩ : ∃ p', g'.splits[y.slot]? = some p' ∧ p'.still = p.still := by simpa using hps
        rw [hp']
        simp only [Option.bind_some, reg g g' p p' w.core eg ep]

theorem keepsRegs (x : SplitId) : KeepsRegs s t x [] := fun y r _ => h.held y r

theorem read (a : Nat) : Memory.read t.mem a = Memory.read s.mem a := by rw [h.mem]

end

end Undisturbed

/-- What a group has besides its splits does not change with a split. -/
theorem groupFind_modSplit_map {β : Type} (F : Group → β) (hF : ∀ g l, F { g with splits := l } = F g) (s : State) (x : SplitId) (f : Split → Split)
    (g : GroupId) : (groupFind (modSplit s x f) g).map F = (groupFind s g).map F := by
  rw [modSplit, groupFind_modGroup]
  split
  · cases groupFind s g <;> simp [hF]
  · rfl

theorem undisturbed_addFlight (s : State) (f : Flight) : Undisturbed s (addFlight s f) := by
  unfold addFlight
  exact Undisturbed.trans Undisturbed.of_eq (Undisturbed.modSplit _ _ _)

theorem undisturbed_vectorIssue (s : State) (c : Ctx) (srcs : List Src) (hold : List Nat) (windows : Nat) :
    Undisturbed s (vectorIssue s c srcs hold windows) := by
  unfold vectorIssue
  exact Undisturbed.trans (Undisturbed.modGroup _ _ _) (Undisturbed.modCore _ _ _)

theorem groupFind_addFlight_map {β : Type} (F : Group → β) (hF : ∀ g l, F { g with splits := l } = F g) (s : State) (f : Flight) (g : GroupId) :
    (groupFind (addFlight s f) g).map F = (groupFind s g).map F := groupFind_modSplit_map F hF _ f.x _ g

theorem groupFind_settle_map {β : Type} (F : Group → β) (hF : ∀ g l, F { g with splits := l } = F g) (s : State) (c : Ctx) (mark : Bool) (go : Go)
    (g : GroupId) : (groupFind (settle s c mark go) g).map F = (groupFind s g).map F :=
  (congrArg (Option.map F) (groupFind_congr rfl g)).trans (groupFind_modSplit_map F hF s c.x _ g)

/-! ### A word that leaves them alone issues -/

/-- A word of format S with no needs runs its body. -/
theorem runWord_sForm {s : State} {c : Ctx} {i : Instr} (h : Issues s c i) (f : SF) (body : State → Ctx → Act) :
    runWord s (fun _ => sForm i f) body = .next (finish s c f.mark (body s c)) :=
  runWord_next h _ _ rfl rfl rfl (roomFor_none c) (by simp [sForm])

/-- A word that disturbs nothing goes on at the next word. -/
theorem Undisturbed.settled {s u : State} {c : Ctx} (hc : ctxOf s c.x = some c) (h : Undisturbed s u) (mark : Bool) :
    KeepsRegs s (settle u c mark .next) c.x [] ∧ (∀ a, Memory.read (settle u c mark .next).mem a = Memory.read s.mem a) ∧
      (Machine.splitFind (settle u c mark .next) c.x).map (fun p => p.pc) = some (loopUpdate c.p.loops c.p.pc).2 := by
  obtain ⟨p, hp, e⟩ := h.found (ctxOf_splitFind hc)
  have hl : p.loops = c.p.loops := congrArg (·.loops) e
  refine ⟨fun y r _ => (held_settle u c mark .next y r).trans (h.held y r), h.read, ?_⟩
  rw [splitFind_settle hp hl]

end Sys2Proof.Machine

/-! ## O40: the words of futures -/

namespace Sys2Proof.Machine

theorem exec_fwait (f : SF) (s : State) : exec (.fwait f) s = execFwait f s := rfl
theorem exec_ftest (f : SF) (s : State) : exec (.ftest f) s = execFtest f s := rfl
theorem exec_fcancel (f : SF) (s : State) : exec (.fcancel f) s = execFcancel f s := rfl

/-! ### Changes of futures -/

theorem undisturbed_modFuture (s : State) (g : GroupId) (h : Word) (f : Future → Future) : Undisturbed s (modFuture s g h f) :=
  .modGroup s g _ fun _ => rfl

theorem undisturbed_observe (s : State) (c : Ctx) (h : Word) (code : Nat) : Undisturbed s (observe s c h code) := by
  unfold observe; split
  · exact undisturbed_modFuture _ _ _ _
  · exact .refl s

theorem undisturbed_cancelFuture (s : State) (g : GroupId) (h : Word) (code : Nat) : Undisturbed s (cancelFuture s g h code) := by
  unfold cancelFuture; split
  · exact .of_eq
  split
  · exact (undisturbed_modFuture _ _ _ _).trans .of_eq
  · exact .refl s

theorem observe_flights (s : State) (c : Ctx) (h : Word) (code : Nat) : (observe s c h code).flights = s.flights := by
  unfold observe; split <;> rfl

theorem cancelFuture_flights (s : State) (g : GroupId) (h : Word) (code : Nat) : (cancelFuture s g h code).flights = s.flights := by
  unfold cancelFuture; split
  · rfl
  · split <;> rfl

/-- What every future of a handle has after a change of the handle's futures. -/
theorem modFuture_futures {s : State} {g : GroupId} {h : Word} {f : Future → Future} {gr : Group} (hg : groupFind (modFuture s g h f) g = some gr)
    {P : Future → Prop} (hf : ∀ u, P (f u)) : ∀ u ∈ gr.futures, u.handle = h → P u := by
  rw [modFuture, groupFind_modGroup, if_pos rfl] at hg
  obtain ⟨g0, -, rfl⟩ := Option.map_eq_some_iff.mp hg
  intro u hu hk
  obtain ⟨v, -, rfl⟩ := List.mem_map.mp hu
  by_cases hv : v.handle = h
  · rw [if_pos hv]; exact hf v
  · rw [if_neg hv] at hk; exact absurd hk hv

/-- R211: an observed code ends the outstanding status of the handle's futures. -/
theorem observe_outstanding {s : State} {c : Ctx} {h : Word} {code : Nat} (h1 : 1 ≤ code) (h4 : code ≤ 4) {gr : Group}
    (hg : groupFind (observe s c h code) (groupOf c.x) = some gr) : ∀ u ∈ gr.futures, u.handle = h → u.outstanding = false := by
  rw [observe, if_pos ⟨h1, h4⟩] at hg
  exact modFuture_futures hg (fun _ => rfl)

/-- R211: a partial or faulted future is cancelled at once. -/
theorem cancelFuture_cancelled {s : State} {g : GroupId} {h : Word} {code : Nat} (hc : code = 2 ∨ code = 3) {gr : Group}
    (hg : groupFind (cancelFuture s g h code) g = some gr) : ∀ u ∈ gr.futures, u.handle = h → u.state = .cancelled := by
  rw [cancelFuture, if_neg (by omega), if_pos hc] at hg
  exact modFuture_futures (s := s) hg (fun _ => rfl)

/-- R211: the copy of a pending future is asked to stop. -/
theorem cancelFuture_copies (s : State) (g : GroupId) (h : Word) :
    ∀ k ∈ (cancelFuture s g h 0).copies, k.g = g → k.handle = h → k.settled = true ∨ k.cancel = true := by
  intro k hk hg hh
  obtain ⟨j, -, rfl⟩ := List.mem_map.mp (show k ∈ s.copies.map _ from hk)
  by_cases hj : j.g = g ∧ j.handle = h ∧ !j.settled
  · rw [if_pos hj]; exact .inr rfl
  · rw [if_neg hj] at hg hh ⊢
    refine .inl (by_contra fun hs => hj ⟨hg, hh, by simpa using hs⟩)

/-! ### A result that comes later -/

/-- The groups of a word that puts a later result in the air are those before, but for their splits. -/
theorem groupFind_laterSettled {u : State} {c : Ctx} {dests : List Dest} {readyAt : Nat} {mark : Bool} {g : Group}
    (hg : groupFind (settle (laterResult u c dests readyAt) c mark .next) (groupOf c.x) = some g) :
    ∃ g0, groupFind u (groupOf c.x) = some g0 ∧ g.futures = g0.futures := by
  have e := (groupFind_settle_map (·.futures) (fun _ _ => rfl) (laterResult u c dests readyAt) c mark .next (groupOf c.x)).trans
    (groupFind_addFlight_map (·.futures) (fun _ _ => rfl) u _ (groupOf c.x))
  rw [hg] at e
  obtain ⟨g0, h0, h1⟩ := Option.map_eq_some_iff.mp e.symm
  exact ⟨g0, h0, h1.symm⟩

/-- The flight of a later result. -/
def laterFlight (u : State) (c : Ctx) (dests : List Dest) (readyAt : Nat) : Flight :=
  { Flight.new u c .value with dests := numberedDests c.x dests, readyAt := readyAt }

theorem laterSettled_flights (u : State) (c : Ctx) (dests : List Dest) (readyAt : Nat) (mark : Bool) :
    (settle (laterResult u c dests readyAt) c mark .next).flights = u.flights ++ [laterFlight u c dests readyAt] := rfl

/-- Settles O40, word by word: each leaves the registers alone, and changes the handle's futures and copies as its code says. -/
theorem futureWords : Obligations.FutureWords := by
  intro s c i f hi h
  have hc := (issuing_some h.1).2
  extract_lets hd code
  have later : ∀ u, Undisturbed s u → Undisturbed s (laterResult u c (destScalar c f.sd.toNat code) 0) :=
    fun u hu => hu.trans (undisturbed_addFlight _ _)
  have run : ∀ (P : State → Prop) u, Undisturbed s u → u.flights = s.flights →
      exec i s = .next (settle (laterResult u c (destScalar c f.sd.toNat code) 0) c f.mark .next) →
      P (settle (laterResult u c (destScalar c f.sd.toNat code) 0) c f.mark .next) →
      ∃ t fl, exec i s = .next t ∧ KeepsRegs s t c.x [] ∧ t.flights = s.flights ++ [fl] ∧ fl.dests = numberedDests c.x (destScalar c f.sd.toNat code) ∧
        fl.x = c.x ∧ fl.parts = [] ∧ (∀ a, Memory.read t.mem a = Memory.read s.mem a) ∧
        (splitFind t c.x).map (fun p => p.pc) = some (loopUpdate c.p.loops c.p.pc).2 ∧ P t := by
    intro P u hu hfl he hP
    obtain ⟨h1, h2, h3⟩ := (later u hu).settled hc f.mark
    exact ⟨_, laterFlight u c (destScalar c f.sd.toNat code) 0, he, h1, by rw [laterSettled_flights, hfl], rfl, rfl, rfl, h2, h3, hP⟩
  refine ⟨fun hw h0 => ?_, fun hw h23 => ?_, fun hcase => ?_⟩
  · subst hw
    rw [exec_fwait, execFwait, runWord_sForm h]
    simp only [show handleCode c.g (c.s f.sa.toNat) = 0 from h0, if_true]; rfl
  · subst hw
    have hne : code ≠ 0 := by omega
    rw [Traps, exec_fwait, execFwait, runWord_sForm h]
    simp only [show handleCode c.g (c.s f.sa.toNat) = code from rfl, if_neg hne, if_pos h23]; rfl
  · have hne0 : i = .fwait f → code ≠ 0 := by
      rintro rfl h0
      rcases hcase with ⟨-, h1⟩ | h1 | h1
      · rcases h1 with h1 | h1 | h1 <;> simp [h0] at h1
      · cases h1
      · cases h1
    have observed : i ≠ .fcancel f → exec i s = .next (settle (laterResult (observe s c hd code) c (destScalar c f.sd.toNat code) 0) c f.mark .next) := by
      intro hnf
      rcases hi with rfl | rfl | rfl
      · have h23 : ¬ (code = 2 ∨ code = 3) := by
          rcases hcase with ⟨-, h1⟩ | h1 | h1
          · omega
          · cases h1
          · cases h1
        rw [exec_fwait, execFwait, runWord_sForm h]
        simp only [show handleCode c.g (c.s f.sa.toNat) = code from rfl, if_neg (hne0 rfl), if_neg h23]; rfl
      · rw [exec_ftest, execFtest, runWord_sForm h]; rfl
      · exact absurd rfl hnf
    by_cases hf : i = .fcancel f
    · refine run _ (cancelFuture s (groupOf c.x) hd code) (undisturbed_cancelFuture _ _ _ _) (cancelFuture_flights _ _ _ _) ?_
        ⟨fun _ h0 => ?_, fun hn => absurd hf hn, fun _ h23 g hg => ?_⟩
      · subst hf
        rw [exec_fcancel, execFcancel, runWord_sForm h]; rfl
      · rw [h0]; exact cancelFuture_copies s (groupOf c.x) hd
      · obtain ⟨g0, h0, e⟩ := groupFind_laterSettled hg
        rw [e]; exact cancelFuture_cancelled h23 h0
    · refine run _ (observe s c hd code) (undisturbed_observe _ _ _ _) (observe_flights _ _ _ _) (observed hf)
        ⟨fun hn => absurd hn hf, fun _ h1 h4 g hg => ?_, fun hn => absurd hn hf⟩
      obtain ⟨g0, h0, e⟩ := groupFind_laterSettled hg
      rw [e]; exact observe_outstanding h1 h4 h0

end Sys2Proof.Machine

/-! ## O31: words of global memory -/

namespace Sys2Proof.Machine

/-! ### Words of format M run -/

theorem memChecks_eq (f : MF) (regs : Nat) (global : Bool) : memChecks f regs (global && f.sbase == 0) = (memVectors f regs global).map IndexCheck.vec := by
  unfold memChecks memVectors
  split <;> [skip; split] <;> simp

theorem roomFor_path {c : Ctx} {k : Nat} (h : PathRoom c k) : roomFor c { path := some k } = true := by
  simpa [roomFor, PathRoom] using h

/-- A memory word with declared registers and room on its path does what its body says. -/
theorem runWord_mem {s : State} {c : Ctx} {i : Instr} (h : Issues s c i) (f : MF) {regs : Nat} {global : Bool} {path : Option Nat}
    (hv : VectorsIn c (memVectors f regs global)) (hp : ∀ k, path = some k → PathRoom c k) (body : State → Ctx → Act) :
    runWord s (fun _ => memForm i f regs global path) body = .next (finish s c f.mark (body s c)) := by
  have hroom : roomFor c (memForm i f regs global path).needs = true := by
    cases path with
    | none => exact roomFor_none c
    | some k => exact roomFor_path (hp k rfl)
  exact runWord_next h _ body rfl rfl ((congrArg _ (memChecks_eq f regs global)).trans (indexFault_vecs _ hv)) hroom (fun hm => nomatch hm)

theorem runWord_scalarMem {s : State} {c : Ctx} {i : Instr} (h : Issues s c i) (f : MF) {path : Nat} (hp : PathRoom c path) (body : State → Ctx → Act) :
    runWord s (fun _ => scalarMemForm i f path) body = .next (finish s c f.mark (body s c)) :=
  runWord_next h _ body rfl rfl rfl (roomFor_path hp) (fun hm => nomatch hm)

theorem runWord_scalarPath {s : State} {c : Ctx} {i : Instr} (h : Issues s c i) (mark : Bool) {path : Nat} (hp : PathRoom c path) (body : State → Ctx → Act) :
    runWord s (fun _ => { instr := i, mark := mark, needs := { path := some path } }) body = .next (finish s c mark (body s c)) :=
  runWord_next h _ body rfl rfl rfl (roomFor_path hp) (fun hm => nomatch hm)

/-! ### The units that a check has seen -/

/-- What a unit of a lane is before it is translated. -/
def Seen.asked (q : Seen) : Nat × DWord × Nat × Nat := (q.lane, q.laneVa, q.base, q.size)

/-- Each unit is translated, in order. -/
theorem translateUnits_asked {s s1 : State} {c : Ctx} {write : Bool} {units : List (Nat × DWord × Nat × Nat)} {seen : List Seen}
    (h : translateUnits s c write units = some (s1, seen)) : seen.map Seen.asked = units := by
  unfold translateUnits at h
  suffices key : ∀ (us : List (Nat × DWord × Nat × Nat)) (acc : Option (State × List Seen)),
      us.foldl (fun acc u => acc.bind (fun (s, seen) =>
        let va := u.2.1 + BitVec.ofNat 64 u.2.2.1
        let second := va.toNat / 4096 != u.2.1.toNat / 4096
        (translate s c.w.column c.r.space va write (2 * u.1 + (if second then 1 else 0) + 1)).map (fun (s1, w) =>
          (s1, seen ++ [{ lane := u.1, base := u.2.2.1, size := u.2.2.2, laneVa := u.2.1, va := va, page := w }])))) acc = some (s1, seen) →
      ∃ s0 seen0, acc = some (s0, seen0) ∧ seen.map Seen.asked = seen0.map Seen.asked ++ us by
    obtain ⟨s0, seen0, e, h1⟩ := key units _ h
    cases e
    exact h1
  intro us
  induction us with
  | nil => rintro acc rfl; exact ⟨s1, seen, rfl, (List.append_nil _).symm⟩
  | cons u us ih =>
    intro acc hacc
    obtain ⟨s2, seen2, e, h1⟩ := ih _ hacc
    obtain ⟨⟨s0, seen0⟩, rfl, e⟩ := Option.bind_eq_some_iff.mp e
    obtain ⟨w, -, e⟩ := Option.map_eq_some_iff.mp e
    cases e
    exact ⟨s0, seen0, rfl, by simp [h1, Seen.asked]⟩

/-- Checks that pass have seen every unit of every lane. -/
theorem checkGlobal_asked {s s1 : State} {c : Ctx} {k : AccessKind} {align size unit : Nat} {addrs : List (Nat × DWord)} {seen : List Seen}
    (h : checkGlobal s c k align size unit addrs = .ok s1 seen) : seen.map Seen.asked = unitsOf addrs size unit := by
  unfold checkGlobal at h
  split at h
  · cases h
  extract_lets write at h
  split at h
  · cases h
  next s2 seen2 hu =>
    extract_lets rights at h
    split at h
    · cases h
    split at h
    · cases h
    cases h
    exact translateUnits_asked hu

theorem checkGlobal_size {s s1 : State} {c : Ctx} {k : AccessKind} {align size unit : Nat} {addrs : List (Nat × DWord)} {seen : List Seen}
    (h : checkGlobal s c k align size unit addrs = .ok s1 seen) {q : Seen} (hq : q ∈ seen) : q.size = unit := by
  have hm : q.asked ∈ unitsOf addrs size unit := checkGlobal_asked h ▸ List.mem_map_of_mem hq
  obtain ⟨e, -, hk⟩ := List.mem_flatMap.mp hm
  obtain ⟨n, -, hn⟩ := List.mem_map.mp hk
  exact (congrArg (fun u : Nat × DWord × Nat × Nat => u.2.2.2) hn).symm

/-- A counter has one unit. -/
theorem checkGlobal_single {s s1 : State} {c : Ctx} {k : AccessKind} {a : Nat × DWord} {seen : List Seen}
    (h : checkGlobal s c k 8 8 8 [a] = .ok s1 seen) : ∃ q, seen = [q] := by
  have e := congrArg List.length (checkGlobal_asked h)
  rw [List.length_map] at e
  exact List.length_eq_one_iff.mp e

/-- An access whose checks pass and whose pages take their A and D bits does what it says with the units that it may touch. -/
theorem globalAccess_ok {s s1 s2 : State} {c : Ctx} {k : AccessKind} {align size unit : Nat} {addrs : List (Nat × DWord)} {seen : List Seen}
    {may : Nat → Bool} (h : checkGlobal s c k align size unit addrs = .ok s1 seen)
    (ht : touchAll s1 c (accessWrites k) (seen.filter (fun q => may q.lane)) = some s2) (go : State → List Seen → Act) :
    globalAccess s c k align size unit addrs may go = go s2 (seen.filter (fun q => may q.lane)) := by
  unfold globalAccess
  rw [h]
  simp only [accessWrites] at ht
  simp only [ht]

/-! ### The rows -/

theorem loadOrder_eq (o : MemOrd) (t : Nat) : loadOrder o t = { strong := strongScope o, acquire := pairedScope o, since := t } := by
  cases o with
  | plain => rfl
  | strong sc a => cases a <;> rfl

theorem storeOrder_eq (o : MemOrd) : storeOrder o = { strong := strongScope o, release := pairedScope o } := by
  cases o with
  | plain => rfl
  | strong sc a => cases a <;> rfl

theorem atomicOrder_eq (o : MemOrd) (t : Nat) :
    atomicOrder o t = { strong := strongScope o, acquire := pairedScope o, release := pairedScope o, since := t } := by
  cases o with
  | plain => rfl
  | strong sc a => cases a <;> rfl

theorem atomOp_eq (f : MF) : atomOp f = f.offset.toNat % 32 := field_low f.offset 5
theorem atomRet_eq (f : MF) : atomRet f = f.offset.getLsbD 5 := field_bit f.offset 5

theorem double_if (p : Prop) [Decidable p] (n : Nat) : (if p then 2 * n else n) = n * if p then 2 else 1 := by split <;> omega

section
variable {s s1 s2 : State} {c : Ctx} {i : Instr} {row : GlobalRow} {seen : List Seen}

/-- What the table asks of a word: it issues with the row's flight. -/
def LaunchesRow (s s2 : State) (c : Ctx) (i : Instr) (row : GlobalRow) (mine : List Seen) : Prop :=
  ∃ u, (u = s2 ∨ ∃ srcs kept, u = vectorIssue s2 c srcs kept 1) ∧
    exec i s = .next (settle (launchFlight u c { Flight.new u c row.kind with
      path := some row.path, since := row.since s2, strong := row.strong, acquire := row.acquire, release := row.release,
      parts := mine.map (fun q => globalUnit s2 q row.op (row.data q.lane q.base)), dests := row.dests }) c row.mark .next)

/-- A word whose body is a global access with the row's fields launches the row's flight. -/
theorem launchesRow_of_access (hck : checkGlobal s c row.access row.align row.size row.unit row.lanes = .ok s1 seen)
    (ht : touchAll s1 c (accessWrites row.access) (seen.filter (fun q => row.may q.lane)) = some s2)
    {issue : State → State} {order : State → AccessOrder} {part : State → Seen → Part}
    (hrun : exec i s = .next (finish s c row.mark (globalAccess s c row.access row.align row.size row.unit row.lanes row.may
      (fun s seen => launchMem (issue s) c row.kind row.path (order s) (seen.map (part s)) row.dests))))
    (hissue : issue s2 = s2 ∨ ∃ srcs kept, issue s2 = vectorIssue s2 c srcs kept 1)
    (horder : order s2 = { strong := row.strong, acquire := row.acquire, release := row.release, since := row.since s2 })
    (hpart : ∀ q ∈ seen, part s2 q = globalUnit s2 q row.op (row.data q.lane q.base)) :
    LaunchesRow s s2 c i row (seen.filter (fun q => row.may q.lane)) := by
  refine ⟨issue s2, hissue, ?_⟩
  rw [hrun, globalAccess_ok hck ht, List.map_congr_left fun q hq => hpart q (List.mem_filter.mp hq).1, launchMem, horder]
  rfl

/-- A counter at a pair's address: its access goes on with its one unit. -/
theorem counterAccess_pair {f : SF} {k : AccessKind} {op : PartOp} {data : List Byte} {go : State → Part → Act} {q : Seen} (hp : f.pair = true)
    (hck : checkGlobal s c k 8 8 8 [(127, BitVec.ofNat 64 (c.pair f.sa.toNat))] = .ok s1 [q])
    (ht : touchAll s1 c (accessWrites k) ([q].filter (fun _ => true)) = some s2) :
    counterAccess s c f k op data go = go s2 (globalUnit s2 q op data) := by
  have hva : counterVa c f = BitVec.ofNat 64 (c.pair f.sa.toNat) := if_pos hp
  unfold counterAccess
  rw [if_pos hp, hva, globalAccess_ok hck ht, List.filter_true]

end

/-- Settles O31, row by row. -/
theorem globalMemoryWordsLaunch : Obligations.GlobalMemoryWordsLaunch := by
  intro s c i row s1 seen hrow h hv hp hck mine s2 ht
  show LaunchesRow s s2 c i row mine
  have room : ∀ k, some row.path = some k → PathRoom c k := fun k hk => Option.some.inj hk ▸ hp
  dsimp only [globalTable] at hrow
  split at hrow
  case h_1 f =>
    cases hrow
    have hrun : exec (.vld f) s = loadGlobal (.vld f) f s := rfl
    rw [loadGlobal, runWord_mem h f hv room] at hrun
    exact launchesRow_of_access hck ht hrun (.inr ⟨_, _, rfl⟩) (loadOrder_eq _ _) fun _ _ => rfl
  case h_2 f =>
    cases hrow
    have hrun : exec (.vst f) s = storeGlobal (.vst f) f s := rfl
    rw [storeGlobal, runWord_mem h f hv room] at hrun
    refine launchesRow_of_access hck ht hrun (.inr ⟨_, _, rfl⟩) (storeOrder_eq _) fun q hq => ?_
    rw [checkGlobal_size hck hq]
  case h_3 f =>
    cases hrow
    have hrun : exec (.atom f) s = execAtom f s := rfl
    simp only [execAtom, atomOp_eq, beq_iff_eq, double_if] at hrun
    rw [runWord_mem h f hv room] at hrun
    exact launchesRow_of_access hck ht (by rw [hrun, atomRet_eq]) (.inr ⟨_, _, rfl⟩) (atomicOrder_eq _ _) fun _ _ => rfl
  case h_4 f =>
    cases hrow
    have hrun : exec (.atomv f) s = execAtomv f s := rfl
    rw [execAtomv, runWord_mem h f hv room] at hrun
    simp only [atomOp_eq, atomRet_eq] at hrun
    exact launchesRow_of_access hck ht hrun (.inr ⟨_, _, rfl⟩) (atomicOrder_eq _ _) fun _ _ => rfl
  case h_5 f =>
    cases hrow
    have hrun : exec (.sld f) s = execSld f s := rfl
    rw [execSld, runWord_scalarMem h f hp] at hrun
    exact launchesRow_of_access hck ht hrun (issue := fun s => s) (.inl rfl) (loadOrder_eq _ _) fun _ _ => rfl
  case h_6 f =>
    cases hrow
    have hrun : exec (.sst f) s = execSst f s := rfl
    rw [execSst, runWord_scalarMem h f hp] at hrun
    exact launchesRow_of_access hck ht hrun (issue := fun s => s) (.inl rfl) (storeOrder_eq _) fun _ _ => rfl
  case h_7 f =>
    cases hrow
    have hrun : exec (.lres f) s = execLres f s := rfl
    rw [execLres, runWord_scalarMem h f hp] at hrun
    exact launchesRow_of_access hck ht hrun (issue := fun s => s) (.inl rfl) (loadOrder_eq _ _) fun _ _ => rfl
  case h_8 f =>
    cases hrow
    have hrun : exec (.scond f) s = execScond f s := rfl
    rw [execScond, runWord_scalarMem h f hp] at hrun
    exact launchesRow_of_access hck ht hrun (issue := fun s => s) (.inl rfl) (storeOrder_eq _) fun _ _ => rfl
  case h_9 f =>
    cases hrow
    have hrun : exec (.satom f) s = execSatom f s := rfl
    rw [execSatom, runWord_scalarPath h f.mark hp] at hrun
    refine launchesRow_of_access hck ht hrun (issue := fun s => s) (.inl rfl) ?_ fun _ _ => ?_
    · simp only [field_bit]; rfl
    · simp only [field_low]; rfl
  case h_10 f =>
    split at hrow
    · cases hrow
    next hpair =>
      cases hrow
      obtain ⟨q, rfl⟩ := checkGlobal_single hck
      have hrun : exec (.ctadd f) s = execCtadd f s := rfl
      rw [execCtadd, runWord_scalarPath h f.mark hp, counterAccess_pair (by simpa using hpair) hck ht] at hrun
      exact ⟨s2, .inl rfl, hrun⟩
  case h_11 f =>
    split at hrow
    · cases hrow
    next hpair =>
      cases hrow
      obtain ⟨q, rfl⟩ := checkGlobal_single hck
      have hrun : exec (.ctread f) s = execCtread f s := rfl
      rw [execCtread, runWord_scalarPath h f.mark hp, counterAccess_pair (by simpa using hpair) hck ht] at hrun
      exact ⟨s2, .inl rfl, hrun⟩
  case h_12 => cases hrow

end Sys2Proof.Machine

/-! ## Accesses of the scratchpad, as they are performed -/

namespace Sys2Proof.Machine

/-! ### Bytes put in a scratchpad -/

theorem find_puts {α : Type} (o : Nat) (d : α) (t : Table α) (bs : List α) (a : Nat) :
    Table.find (((List.range bs.length).zip bs).foldl (fun t e => Table.put t (o + e.1) e.2) t) a =
      if o ≤ a ∧ a < o + bs.length then some (bs.getD (a - o) d) else Table.find t a := by
  induction bs using List.reverseRecOn with
  | nil => rw [if_neg (by simp)]; rfl
  | append_singleton bs b ih =>
    rw [List.length_append, List.length_singleton, List.range_succ, List.zip_append (by simp), List.foldl_append]
    simp only [List.zip_cons_cons, List.zip_nil_left, List.foldl_cons, List.foldl_nil, Table.find_put, ih]
    by_cases h1 : a = o + bs.length
    · subst h1
      rw [if_pos rfl, if_pos (by omega), Nat.add_sub_cancel_left]
      simp
    · rw [if_neg h1]
      by_cases h2 : o ≤ a ∧ a < o + bs.length
      · rw [if_pos h2, if_pos (by omega), List.getD_append _ _ _ _ (by omega)]
      · rw [if_neg h2, if_neg (by omega)]

theorem scratchByte_scratchPut (w : Workgroup) (o : Nat) (bs : List Byte) (a : Nat) :
    scratchByte (scratchPut w o bs) a = if o ≤ a ∧ a < o + bs.length then bs.getD (a - o) 0 else scratchByte w a := by
  unfold scratchByte Table.get scratchPut
  rw [find_puts o 0]
  split <;> rfl

/-- Bytes outside those put keep their values. -/
theorem scratchByte_scratchPut_outside {w : Workgroup} {o : Nat} {bs : List Byte} {a : Nat} (h : a < o ∨ o + bs.length ≤ a) :
    scratchByte (scratchPut w o bs) a = scratchByte w a := by rw [scratchByte_scratchPut, if_neg (by omega)]

/-- The bytes put are the ones read back. -/
theorem scratchRead_scratchPut (w : Workgroup) (o : Nat) (bs : List Byte) : scratchRead (scratchPut w o bs) o bs.length = bs := by
  apply List.ext_getElem
  · simp [scratchRead]
  · intro i h1 h2
    simp [scratchRead, scratchByte_scratchPut, h2]

/-! ### The full/empty state of words -/

theorem contains_setFull (w : Workgroup) (o k : Nat) (full : Bool) :
    (setFull w o full).full.contains k = if k = o / 4 then full else w.full.contains k := by
  rw [Bool.eq_iff_iff, List.contains_iff_mem]
  unfold setFull
  cases full <;> by_cases hk : k = o / 4 <;> simp [hk, mem_sortBy]

@[simp] theorem scratchByte_setFull (w : Workgroup) (o : Nat) (full : Bool) (a : Nat) : scratchByte (setFull w o full) a = scratchByte w a := rfl
@[simp] theorem full_scratchPut (w : Workgroup) (o : Nat) (bs : List Byte) : (scratchPut w o bs).full = w.full := rfl

/-! ### What the accesses of a flight may change -/

/-- What a flight keeps while its accesses are performed: its number, its split, and what each access does where. -/
def Flight.gist (f : Flight) : Nat × SplitId × List (Place × PartOp × List Byte) := (f.id, f.x, f.parts.map (fun p => (p.place, p.op, p.data)))

/-- Nothing is disturbed, bytes of scratchpads change only where `P` allows it, full/empty states change only to what `Q` allows, and every flight was
there before. -/
structure Lands (P : Nat → Nat → Prop) (Q : Nat → Nat → Bool → Prop) (s t : State) : Prop where
  still : Undisturbed s t
  bytes : ∀ id v w, wgFind s id = some v → wgFind t id = some w → ∀ o, P id o ∨ scratchByte w o = scratchByte v o
  full : ∀ id v w, wgFind s id = some v → wgFind t id = some w → ∀ k, w.full.contains k = v.full.contains k ∨ Q id k (w.full.contains k)
  flights : ∀ g ∈ t.flights, ∃ f ∈ s.flights, f.gist = g.gist

namespace Lands
variable {P : Nat → Nat → Prop} {Q : Nat → Nat → Bool → Prop} {s t u : State}

theorem trans (h : Lands P Q s t) (k : Lands P Q t u) : Lands P Q s u where
  still := h.still.trans k.still
  bytes id v w hv hw o := by
    obtain ⟨m, hm, -⟩ := h.still.foundWg hv
    rcases k.bytes id m w hm hw o with h1 | h1
    · exact .inl h1
    · rw [h1]; exact h.bytes id v m hv hm o
  full id v w hv hw n := by
    obtain ⟨m, hm, -⟩ := h.still.foundWg hv
    rcases k.full id m w hm hw n with h1 | h1
    · rw [h1]; exact h.full id v m hv hm n
    · exact .inr h1
  flights g hg := by
    obtain ⟨f, hf, e⟩ := k.flights g hg
    obtain ⟨f', hf', e'⟩ := h.flights f hf
    exact ⟨f', hf', e'.trans e⟩

/-- A change of flights, the memory order and the like. -/
theorem of_wgs (hf : ∀ g ∈ t.flights, ∃ f ∈ s.flights, f.gist = g.gist) (hw : t.wgs = s.wgs := by rfl) (hr : t.regions = s.regions := by rfl)
    (hm : t.mem = s.mem := by rfl) (hk : t.cores = s.cores := by rfl) : Lands P Q s t where
  still := .of_eq hw hr hm hk
  bytes id v w hv hv' o := by rw [wgFind_congr hw, hv] at hv'; cases hv'; exact .inr rfl
  full id v w hv hv' n := by rw [wgFind_congr hw, hv] at hv'; cases hv'; exact .inl rfl
  flights := hf

theorem of_eq (hf : t.flights = s.flights := by rfl) (hw : t.wgs = s.wgs := by rfl) (hr : t.regions = s.regions := by rfl)
    (hm : t.mem = s.mem := by rfl) (hk : t.cores = s.cores := by rfl) : Lands P Q s t :=
  of_wgs (fun g hg => ⟨g, hf ▸ hg, rfl⟩) hw hr hm hk

theorem refl (s : State) : Lands P Q s s := of_eq

/-- A change of flights that keeps their gist. -/
theorem mapFlights (s : State) (f : Flight → Flight) (h : ∀ g, (f g).gist = g.gist := by intro _; rfl) :
    Lands P Q s { s with flights := s.flights.map f } :=
  of_wgs fun g hg => by
    obtain ⟨f', hf', rfl⟩ := List.mem_map.mp hg
    exact ⟨f', hf', (h f').symm⟩

theorem modFlight (s : State) (id : Nat) (f : Flight → Flight) (h : ∀ g, (f g).gist = g.gist := by intro _; rfl) : Lands P Q s (modFlight s id f) :=
  mapFlights s _ fun g => by split <;> [exact h g; rfl]

/-- A change of a workgroup's scratchpad, or of its accesses. -/
theorem modWg (s : State) (id : Nat) (f : Workgroup → Workgroup) (hb : ∀ w o, P id o ∨ scratchByte (f w) o = scratchByte w o)
    (hk : ∀ w k, (f w).full.contains k = w.full.contains k ∨ Q id k ((f w).full.contains k)) (h : ∀ w, (f w).still = w.still := by intro _; rfl) :
    Lands P Q s (modWg s id f) := by
  have hid : ∀ w, (f w).id = w.id := fun w => (congrArg Workgroup.id (h w) : (f w).still.id = w.still.id)
  refine ⟨.modWg s id f h, fun k v w hv hw o => ?_, fun k v w hv hw n => ?_, fun g hg => ⟨g, hg, rfl⟩⟩
  all_goals
    rw [wgFind_modWg s id k f hid, hv] at hw
    split at hw
  · next e => cases hw; rw [e]; exact hb v o
  · cases hw; exact .inr rfl
  · next e => cases hw; rw [e]; exact hk v n
  · cases hw; exact .inl rfl

theorem modGroup (s : State) (g : GroupId) (f : Group → Group) (h : ∀ gr, (f gr).still = gr.still := by intro _; rfl) : Lands P Q s (modGroup s g f) :=
  modWg s g.wg _ (fun _ _ => .inr rfl) (fun _ _ => .inl rfl) fun w => by simp only [Workgroup.still, map_modAt _ _ f Group.still h]

theorem modSplit (s : State) (x : SplitId) (f : Split → Split) (h : ∀ p, (f p).still = p.still := by intro _; rfl) : Lands P Q s (modSplit s x f) :=
  modGroup s _ _ fun gr => by simp only [Group.still, map_modAt _ _ f Split.still h]

/-- A change of a core's accounting. -/
theorem modCore (s : State) (n : Nat) (f : Core → Core) (h : ∀ k, (f k).kregs = k.kregs ∧ (f k).ksregs = k.ksregs := by intro _; exact ⟨rfl, rfl⟩) :
    Lands P Q s (modCore s n f) where
  still := .modCore s n f h
  bytes id v w hv hw o := by rw [wgFind_modCore, hv] at hw; cases hw; exact .inr rfl
  full id v w hv hw o := by rw [wgFind_modCore, hv] at hw; cases hw; exact .inl rfl
  flights g hg := ⟨g, hg, rfl⟩

/-- Steps that each land together. -/
theorem foldl {α : Type} (h : Lands P Q s t) (l : List α) (f : State → α → State) (hf : ∀ u a, Lands P Q u (f u a)) : Lands P Q s (l.foldl f t) :=
  List.foldlRecOn (motive := fun u => Lands P Q s u) l f h fun u hu a _ => hu.trans (hf u a)

end Lands

/-- An access of the scratchpad that `P` and `Q` allow. -/
def Part.LandsIn (P : Nat → Nat → Prop) (Q : Nat → Nat → Bool → Prop) (wg : Nat) (a : Place × PartOp × List Byte) : Prop :=
  ∃ o, a.1 = .scratch o ∧ (a.2.1 = .read ∨ (a.2.1 = .write ∧ ∀ i < a.2.2.length, P wg (o + i)) ∨ ∃ b, a.2.1 = .setFull b ∧ Q wg (o / 4) b)

/-- Every access of the flights of a number is one of the scratchpad that `P` and `Q` allow. -/
def FlightLands (P : Nat → Nat → Prop) (Q : Nat → Nat → Bool → Prop) (id : Nat) (s : State) : Prop :=
  ∀ f ∈ s.flights, f.id = id → ∀ a ∈ f.gist.2.2, Part.LandsIn P Q f.x.wg a

section
variable {P : Nat → Nat → Prop} {Q : Nat → Nat → Bool → Prop} {s t : State} {id : Nat}

theorem FlightLands.of_lands (h : FlightLands P Q id s) (k : Lands P Q s t) : FlightLands P Q id t := by
  intro g hg hid
  obtain ⟨f, hf, e⟩ := k.flights g hg
  have hx : f.x = g.x := congrArg (fun e => e.2.1) e
  rw [← congrArg (fun e => e.2.2) e, ← hx]
  exact h f hf ((congrArg Prod.fst e : f.id = g.id).trans hid)

theorem flightFind_some {f : Flight} (h : flightFind s id = some f) : f ∈ s.flights ∧ f.id = id := by
  obtain ⟨h1, h2⟩ := firstWith_mem h
  exact ⟨h1, by simpa using h2⟩

/-- A part of such a flight that is found. -/
theorem FlightLands.part (h : FlightLands P Q id s) {f : Flight} (hf : flightFind s id = some f) {k : Nat} {p : Part} (hp : f.parts[k]? = some p) :
    Part.LandsIn P Q f.x.wg (p.place, p.op, p.data) := by
  obtain ⟨h1, h2⟩ := flightFind_some hf
  exact h f h1 h2 _ (List.mem_map_of_mem (List.mem_of_getElem? hp))

end

/-! ### The steps of an access -/

section
variable {P : Nat → Nat → Prop} {Q : Nat → Nat → Bool → Prop}

theorem lands_setPart (s : State) (id k : Nat) (g : Part → Part) (h : ∀ p, ((g p).place, (g p).op, (g p).data) = (p.place, p.op, p.data) := by intro _; rfl) :
    Lands P Q s (setPart s id k g) :=
  .modFlight s id _ fun f => by simp only [Flight.gist, map_modAt _ _ g (fun p => (p.place, p.op, p.data)) h]

theorem lands_closeFlight (s : State) (id : Nat) : Lands P Q s (closeFlight s id) :=
  .modFlight s id _ fun f => by
    split
    · rfl
    · split
      · rfl
      · split <;> rfl

theorem lands_readSeen (s : State) (f : Flight) (k : Nat) (p : Part) (w : Workgroup) (got : List Byte) : Lands P Q s (readSeen s f k p w got).1 := by
  unfold readSeen
  dsimp only
  split
  · exact (Lands.refl s).foldl _ _ fun u e => .of_eq
  · exact .refl s

theorem lands_raiseLater (s : State) (f : Flight) (acquire strong t : Nat) : Lands P Q s (raiseLater s f acquire strong t) := by
  unfold raiseLater
  split
  · exact .refl s
  · refine (Lands.modGroup s (groupOf f.x) _ fun gr => ?_).trans (.mapFlights _ _ fun g => by split <;> rfl)
    simp only [Group.still, List.map_map]
    congr 1
    refine List.map_congr_left fun p _ => ?_
    simp only [Function.comp_apply]
    split <;> rfl

theorem lands_noteWrite (s : State) (f : Flight) (k : Nat) (p : Part) (w : Workgroup) (old : List Byte) (scope : Nat) :
    Lands P Q s (noteWrite s f k p w old scope) := by
  unfold noteWrite
  split
  · exact .refl s
  · exact .of_eq

theorem lands_clearCovered (s : State) (id k : Nat) : Lands P Q s (clearCovered s id k) := by
  unfold clearCovered
  split
  · exact .refl s
  split
  · exact .refl s
  split
  · refine (Lands.refl s).foldl _ _ fun u g => ?_
    split
    · exact .of_eq
    · exact .refl u
  · refine (Lands.refl s).foldl _ _ fun u g => ?_
    split
    · exact .modWg _ _ _ (fun _ _ => .inr rfl) (fun _ _ => .inl rfl)
    · exact .refl u
  · exact .refl s

theorem logPart_scratch (s : State) {p : Part} {o : Nat} (h : p.place = .scratch o) : logPart s p = s := by
  unfold logPart; rw [h]

theorem lands_partDone (s : State) (f : Flight) (k : Nat) {p : Part} {o : Nat} (h : p.place = .scratch o) (w : Workgroup) (got old : List Byte) (bad : Bool) :
    Lands P Q s (partDone s f k p w got old bad) := by
  unfold partDone
  rw [logPart_scratch s h]
  extract_lets s0 racy r s1 scope s2 state s3 s4
  split
  · exact lands_setPart _ _ _ _
  have hr : Lands P Q s r.1 := by
    unfold r; split
    · exact lands_readSeen _ _ _ _ _ _
    · exact .refl s
  have h1 : Lands P Q s s1 := by
    unfold s1; split
    · exact hr.trans (lands_raiseLater _ _ _ _ _)
    · exact hr
  have h2 : Lands P Q s s2 := by
    unfold s2; split
    · exact h1
    · exact h1.trans (lands_noteWrite _ _ _ _ _ _ _)
  have h3 : Lands P Q s s3 := h2.trans (lands_setPart _ _ _ _)
  have h4 : Lands P Q s s4 := by
    unfold s4; split
    · exact h3.trans (.modFlight _ _ _)
    · exact h3
  split
  · exact h4.trans (lands_clearCovered _ _ _)
  · exact h4

/-- An access of the scratchpad that is allowed is performed at once. -/
theorem scratchPart_lands (s : State) (f : Flight) (p : Part) (w : Workgroup) {o : Nat} (ho : p.place = .scratch o)
    (h : Part.LandsIn P Q f.x.wg (p.place, p.op, p.data)) :
    ∃ u got old bad, scratchPart s f p w o = .done u got old bad ∧ Lands P Q s u := by
  obtain ⟨o', e, h⟩ := h
  obtain rfl : o' = o := by rw [ho] at e; cases e; rfl
  unfold scratchPart
  rcases h with h | ⟨h, hP⟩ | ⟨b, h, hQ⟩
  · rw [show p.op = .read from h]; exact ⟨_, _, _, _, rfl, .refl s⟩
  · rw [show p.op = .write from h]
    refine ⟨_, _, _, _, rfl, .modWg _ _ _ (fun v a => ?_) (fun _ _ => .inl rfl)⟩
    by_cases ha : o' ≤ a ∧ a < o' + p.data.length
    · left
      have := hP (a - o') (show a - o' < p.data.length by omega)
      rwa [Nat.add_sub_cancel' ha.1] at this
    · exact .inr (scratchByte_scratchPut_outside (by omega))
  · rw [show p.op = .setFull b from h]
    refine ⟨_, _, _, _, rfl, .modWg _ _ _ (fun _ _ => .inr rfl) (fun v k => ?_)⟩
    rw [contains_setFull]
    split
    · next e => subst e; exact .inr hQ
    · exact .inl rfl

theorem lands_pushedPart (s : State) (f : Flight) (k : Nat) {p : Part} {o : Nat} (h : p.place = .scratch o) : Lands P Q s (pushedPart s f k p) := by
  unfold pushedPart
  rw [logPart_scratch s h]
  exact ((Lands.of_eq (t := modPast s f.id k _)).trans (lands_setPart _ _ _ _)).trans (lands_clearCovered _ _ _)

theorem lands_performPart {s : State} {id : Nat} (h : FlightLands P Q id s) (k : Nat) : Lands P Q s (performPart s id k) := by
  unfold performPart
  split
  · exact .refl s
  next f hf =>
    split
    · next p w hp hw =>
      obtain ⟨o, ho, -⟩ := h.part hf hp
      split
      · exact .refl s
      split
      · exact (lands_pushedPart s f k ho).trans (lands_closeFlight _ _)
      split
      · refine .modFlight s id _ fun g => ?_
        simp only [Flight.gist, List.map_map]
        refine congrArg (fun l => (g.id, g.x, l)) (List.map_congr_left fun q _ => ?_)
        simp only [Function.comp_apply]
        split <;> rfl
      · dsimp only
        rw [show p.place = .scratch o from ho]
        obtain ⟨u, got, old, bad, e, hu⟩ := scratchPart_lands s f p w ho (h.part hf hp)
        dsimp only
        rw [e]
        exact (hu.trans (lands_partDone u f k ho w got old bad)).trans (lands_closeFlight _ _)
    · exact .refl s

/-- The writes of one instruction that are presented together are of global memory, and there is none here. -/
theorem lands_presentPart {s : State} {id : Nat} (h : FlightLands P Q id s) (k : Nat) : Lands P Q s (presentPart s id k) := by
  unfold presentPart
  split
  · exact .refl s
  next f hf =>
    split
    · exact .refl s
    · next p hp =>
      extract_lets once
      split
      · split
        · refine List.foldlRecOn (motive := fun u => Lands P Q s u) once _ (.refl s) fun u hu j _ => ?_
          split
          · exact hu
          next g hg =>
            split
            · next q w hq hw =>
              obtain ⟨o, ho, -⟩ := (h.of_lands hu).part hg hq
              rw [show q.place = .scratch o from ho]
              exact hu
            · exact hu
        · split
          · exact lands_performPart h k
          · exact .refl s
      · split
        · exact lands_performPart h k
        · exact .refl s

theorem lands_lowerPath (s : State) (g : GroupId) (n : Nat) : Lands P Q s (lowerPath s g n) :=
  .modGroup s g _ fun gr => by
    simp only [Group.still, List.map_map]
    congr 1
    refine List.map_congr_left fun p _ => ?_
    simp only [Function.comp_apply]
    split <;> rfl

theorem lands_dropFlight (s : State) (id : Nat) : Lands P Q s (dropFlight s id) := .of_wgs fun g hg => ⟨g, (List.mem_filter.mp hg).1, rfl⟩

theorem lands_retirePath (fuel : Nat) (s : State) (g : GroupId) (path : Nat) : Lands P Q s (retirePath fuel s g path) := by
  induction fuel generalizing s with
  | zero => exact .refl s
  | succ n ih =>
    unfold retirePath
    split
    · exact .refl s
    · split
      · exact (((lands_lowerPath s g path).trans (.of_eq (t := completePast _ _))).trans (lands_dropFlight _ _)).trans (ih _)
      · exact .refl s

theorem lands_retireFlight (s : State) (id : Nat) : Lands P Q s (retireFlight s id) := by
  unfold retireFlight
  split
  · exact .refl s
  split
  · exact lands_retirePath _ _ _ _
  · split
    · exact (Lands.of_eq (t := completePast s id)).trans (lands_dropFlight _ _)
    · exact .refl s

/-- The numbered elements of a list are its elements. -/
theorem map_range_zip {α β : Type} (l : List α) (f : α → β) : ((List.range l.length).zip l).map (fun e => f e.2) = l.map f := by
  have h := congrArg (List.map f) (List.map_snd_zip (l₁ := List.range l.length) (l₂ := l) (by simp))
  rwa [List.map_map] at h

theorem lands_addFlight (s : State) {f g : Flight} (hg : g.gist = f.gist) :
    Lands P Q { s with flights := s.flights ++ [f] } (addFlight s g) := by
  unfold addFlight
  refine Lands.trans (.of_wgs fun k hk => ?_) (.modSplit _ _ _)
  rcases List.mem_append.mp hk with hk | hk
  · exact ⟨k, List.mem_append_left _ hk, rfl⟩
  · rw [List.mem_singleton.mp hk]
    exact ⟨f, List.mem_append_right _ (List.mem_singleton_self f), hg.symm⟩

/-- A flight is put in the air: what is ready at once may be performed, as `P` and `Q` allow. -/
theorem lands_launchFlight {s : State} {c : Ctx} {f : Flight} (hfresh : ∀ g ∈ s.flights, g.id ≠ f.id)
    (hparts : ∀ p ∈ f.parts, Part.LandsIn P Q f.x.wg (p.place, p.op, p.data)) :
    Lands P Q { s with flights := s.flights ++ [f] } (launchFlight s c f) := by
  unfold launchFlight
  extract_lets p hist f' g ordered s1 s2 s3 s4
  have hg : g.gist = f.gist := by
    refine congrArg (fun l => (f.id, f.x, l)) ?_
    rw [List.map_map]
    exact map_range_zip f.parts (fun p => (p.place, p.op, p.data))
  have h2 : Lands P Q { s with flights := s.flights ++ [f] } s2 := (lands_addFlight s hg).trans (.modSplit _ _ _)
  have h3 : Lands P Q { s with flights := s.flights ++ [f] } s3 := by
    unfold s3; split
    · exact h2.trans (.modGroup _ _ _)
    · exact h2
  have h0 : FlightLands P Q f.id { s with flights := s.flights ++ [f] } := by
    intro k hk hid
    rcases List.mem_append.mp hk with hk | hk
    · exact absurd hid (hfresh k hk)
    · rw [List.mem_singleton.mp hk]
      intro a ha
      obtain ⟨q, hq, rfl⟩ := List.mem_map.mp ha
      exact hparts q hq
  have h4 : Lands P Q { s with flights := s.flights ++ [f] } s4 := by
    refine List.foldlRecOn (motive := fun u => Lands P Q _ u) _ _ h3 fun u hu k _ => ?_
    split
    · exact hu.trans (lands_presentPart (h0.of_lands hu) k)
    · exact hu
  exact (h4.trans (lands_closeFlight _ _)).trans (lands_retireFlight _ _)

end

end Sys2Proof.Machine

/-! ## O33: words of the scratchpad, mirrored stores, and words of lines -/

namespace Sys2Proof.Machine

/-! ### The checks of a scratchpad word -/

/-- A scratchpad word whose lanes are aligned, inside the allocation, and for `vstm` inside the window, passes its checks. -/
theorem scratchAccess_ok {c : Ctx} {align size : Nat} {mirrored : Bool} {addrs : List (Nat × DWord)} {go : Act}
    (h : ∀ e ∈ addrs, e.2.toNat % align = 0 ∧ e.2.toNat + size ≤ c.w.fields.spad)
    (hm : mirrored = true → ∀ e ∈ addrs, c.w.fields.wbase ≤ e.2.toNat ∧ e.2.toNat + size ≤ c.w.fields.wbase + c.w.fields.wsize) :
    scratchAccess c align size mirrored addrs go = go := by
  have hcheck : checkScratch c align size mirrored addrs = none := by
    unfold checkScratch misaligned
    rw [firstWith_eq_none fun e he => by simp [(h e he).1]]
    refine List.findSome?_eq_none_iff.mpr fun e he => ?_
    dsimp only
    rw [if_neg (show ¬ c.w.spadBytes < _ from Nat.not_lt.mpr (h e he).2), if_neg]
    cases mirrored with
    | false => simp
    | true => simp [hm rfl e he]
  unfold scratchAccess
  rw [hcheck]

/-! ### A launch from the vector pipe -/

section
variable {P : Nat → Nat → Prop} {Q : Nat → Nat → Bool → Prop} {s u : State} {c : Ctx}

theorem lands_vectorIssue (s : State) (c : Ctx) (srcs : List Src) (hold : List Nat) (windows : Nat) : Lands P Q s (vectorIssue s c srcs hold windows) := by
  unfold vectorIssue
  exact Lands.trans (.modGroup _ _ _) (.modCore _ _ _)

/-- What lands with some flights lands with others. -/
theorem Lands.withFlights {t : State} (h : Lands P Q s t) (fs : List Flight) : Lands P Q { s with flights := fs } { t with flights := fs } :=
  ⟨⟨h.still.wgs, h.still.regions, h.still.mem, h.still.banks⟩, h.bytes, h.full, fun g hg => ⟨g, hg, rfl⟩⟩

/-- A vector word puts its flight of scratchpad accesses in the air. -/
theorem lands_launched {f : Flight} (hfresh : FlightsFresh s) (hid : f.id = s.nextId) (srcs : List Src) (hold : List Nat)
    (hparts : ∀ p ∈ f.parts, Part.LandsIn P Q f.x.wg (p.place, p.op, p.data)) :
    Lands P Q { s with flights := s.flights ++ [f] } (launchFlight (vectorIssue s c srcs hold 1) c f) :=
  ((lands_vectorIssue s c srcs hold 1).withFlights _).trans (lands_launchFlight (fun g hg => hid ▸ Nat.ne_of_lt (hfresh g hg)) hparts)

/-- What a workgroup has besides its groups does not change as a word issues. -/
theorem wgFind_settle_map {β : Type} (F : Workgroup → β) (hF : ∀ w l, F { w with groups := l } = F w) (s : State) (c : Ctx) (mark : Bool) (go : Go) (id : Nat) :
    (wgFind (settle s c mark go) id).map F = (wgFind s id).map F := by
  have e : wgFind (settle s c mark go) id = wgFind (modSplit s c.x (fun p => advance p c.p.pc mark go (columnOf s c.w.column).cycle)) id := wgFind_congr rfl id
  rw [e, modSplit, wgFind_modGroup]
  split
  · cases wgFind s id <;> simp [hF]
  · rfl

/-- A word whose accesses have landed issues: its registers come later. -/
theorem Lands.settled {fs : List Flight} (h : Lands P Q { s with flights := fs } u) (mark : Bool) :
    (∀ id v w, wgFind s id = some v → wgFind (settle u c mark .next) id = some w →
      (∀ o, P id o ∨ scratchByte w o = scratchByte v o) ∧ ∀ k, w.full.contains k = v.full.contains k ∨ Q id k (w.full.contains k)) := by
  intro id v w hv hw
  have e := wgFind_settle_map (fun w => (w.scratch, w.scratchSeed, w.full)) (fun _ _ => rfl) u c mark .next id
  rw [hw] at e
  obtain ⟨m, hm, e⟩ := Option.map_eq_some_iff.mp e.symm
  simp only [Prod.mk.injEq] at e
  obtain ⟨e1, e2, e3⟩ := e
  refine ⟨fun o => ?_, fun k => ?_⟩
  · rw [show scratchByte w o = scratchByte m o by simp only [scratchByte, e1, e2]]
    exact h.bytes id v m hv hm o
  · rw [← e3]; exact h.full id v m hv hm k

end

/-! ### Loads and stores of the scratchpad -/

/-- The bytes of the scratchpad that a row's lanes store to. -/
def StoresTo (c : Ctx) (stores : Bool) (lanes : List (Nat × DWord)) (n id o : Nat) : Prop :=
  id = c.x.wg ∧ stores = true ∧ ∃ e ∈ lanes, has c.writes e.1 = true ∧ e.2.toNat ≤ o ∧ o < e.2.toNat + n

/-- The units of the lanes that write lie where the lanes store. -/
theorem scratchUnits_landIn {c : Ctx} {stores : Bool} {lanes : List (Nat × DWord)} {n unit : Nat} {op : PartOp} {data : Nat → List Byte}
    {Q : Nat → Nat → Bool → Prop} (hop : op = .read ∨ op = .write ∧ stores = true) :
    ∀ p ∈ scratchUnits (lanes.filter (fun e => has c.writes e.1)) n unit op data,
      Part.LandsIn (StoresTo c stores lanes n) Q c.x.wg (p.place, p.op, p.data) := by
  intro p hp
  obtain ⟨a, ha, rfl⟩ := List.mem_map.mp hp
  obtain ⟨e, he, ha⟩ := List.mem_flatMap.mp ha
  obtain ⟨k, hk, rfl⟩ := List.mem_map.mp ha
  obtain ⟨he, hw⟩ := List.mem_filter.mp he
  refine ⟨_, rfl, ?_⟩
  rcases hop with rfl | ⟨rfl, hs⟩
  · exact .inl rfl
  · refine .inr (.inl ⟨rfl, fun i hi => ⟨rfl, hs, e, he, hw, ?_, ?_⟩⟩)
    · show e.2.toNat ≤ e.2.toNat + k * unit + i
      omega
    · have hi' : i < unit := by simpa [scratchUnit, slice] using hi
      have hk' : (k + 1) * unit ≤ n := (Nat.mul_le_mul_right unit (List.mem_range.mp hk)).trans (Nat.div_mul_le_self n unit)
      show e.2.toNat + k * unit + i < e.2.toNat + n
      rw [Nat.succ_mul] at hk'
      omega

/-- What a row of `scratchTable` asks of its word. -/
def ScratchRowRuns (s : State) (c : Ctx) (i : Instr) (stores : Bool) (lanes : List (Nat × DWord)) (n : Nat) : Prop :=
  ∃ t, exec i s = .next t ∧ KeepsRegs s t c.x [] ∧ (∀ a, Memory.read t.mem a = Memory.read s.mem a) ∧
    (splitFind t c.x).map (fun p => p.pc) = some (loopUpdate c.p.loops c.p.pc).2 ∧
    ∀ id v w, wgFind s id = some v → wgFind t id = some w → ∀ o, StoresTo c stores lanes n id o ∨ scratchByte w o = scratchByte v o

theorem scratchRow_runs {s : State} {c : Ctx} {i : Instr} {stores : Bool} {lanes : List (Nat × DWord)} {n unit path : Nat} {op : PartOp} {data : Nat → List Byte}
    {srcs : List Src} {hold : List Nat} {kind : FlightKind} {o : AccessOrder} {dests : List Dest} {mark : Bool} (hfresh : FlightsFresh s)
    (hc : ctxOf s c.x = some c) (hop : op = .read ∨ op = .write ∧ stores = true)
    (hrun : exec i s = .next (finish s c mark (launchMem (vectorIssue s c srcs hold 1) c kind path o
      (scratchUnits (lanes.filter (fun e => has c.writes e.1)) n unit op data) dests))) : ScratchRowRuns s c i stores lanes n := by
  have hl := lands_launched (P := StoresTo c stores lanes n) (Q := fun _ _ _ => False) (c := c) (f := { Flight.new (vectorIssue s c srcs hold 1) c kind with
    path := some path, since := o.since, strong := o.strong, acquire := o.acquire, release := o.release,
    parts := scratchUnits (lanes.filter (fun e => has c.writes e.1)) n unit op data, dests := dests }) hfresh rfl srcs hold (scratchUnits_landIn hop)
  obtain ⟨h1, h2, h3⟩ := ((Undisturbed.of_eq (s := s)).trans hl.still).settled hc mark
  exact ⟨_, hrun, h1, h2, h3, fun id v w hv hw => (hl.settled mark id v w hv hw).1⟩

/-! ### Lines -/

theorem lineOp_runs {s s1 s2 : State} {c : Ctx} {i : Instr} {f : MF} {op : PartOp} {seen : List Seen} (h : Issues s c i) (hv : VectorsIn c (memVectors f 0 true))
    (hp : PathRoom c 1) (hck : checkGlobal s c .load 1 1 1 (activeAddrs c (globalAddrs c f (off16 f) true)) = .ok s1 seen)
    (ht : touchAll s1 c false (seen.filter (fun q => has c.writes q.lane)) = some s2) :
    ∃ srcs kept fl, lineOp i op f s = .next (settle (launchFlight (vectorIssue s2 c srcs kept 1) c fl) c f.mark .next) ∧ fl.kind = .line ∧ fl.path = some 1 ∧
      fl.dests = [] ∧
      fl.parts.map (fun p => (p.lane, p.op, p.size)) = (seen.filter (fun q => has c.writes q.lane)).map (fun q => (q.lane, op, 128)) ∧
      ∀ (k : Nat) (p : Part) (q : Seen), fl.parts[k]? = some p → (seen.filter (fun q => has c.writes q.lane))[k]? = some q →
        ∃ pa, (globalUnit s2 q op []).place = .global pa ∧ p.place = .global (pa / 128 * 128) := by
  unfold lineOp
  rw [runWord_mem h f hv (fun k hk => Option.some.inj hk ▸ hp), globalAccess_ok hck ht, List.map_map]
  refine ⟨_, _, _, rfl, rfl, rfl, rfl, ?_, fun k p q hk hq => ?_⟩
  · simp only [List.map_map]; rfl
  · simp only [List.getElem?_map, hq, Option.map_some, Option.some.injEq] at hk
    subst hk
    exact ⟨_, rfl, rfl⟩

/-- Settles O33: loads and stores by what their accesses may change, the others by the flight that they launch. -/
theorem scratchpadAndLineWords : Obligations.ScratchpadAndLineWords := by
  refine ⟨?_, ?_, fun s c => ⟨?_, ?_⟩⟩
  · intro s c i row hfresh hrow h hv hp n lanes hl
    have hc := (issuing_some h.1).2
    have room : ∀ k, some row.path = some k → PathRoom c k := fun k hk => Option.some.inj hk ▸ hp
    show ScratchRowRuns s c i row.stores lanes n
    unfold scratchTable at hrow
    split at hrow
    · next f =>
      cases hrow
      have hrun : exec (.vlds f) s = execVlds f s := rfl
      rw [execVlds, runWord_mem h f hv room, scratchAccess_ok hl (by simp)] at hrun
      exact scratchRow_runs hfresh hc (.inl rfl) hrun
    · next f =>
      cases hrow
      have hrun : exec (.vsts f) s = execVsts f s := rfl
      rw [execVsts, runWord_mem h f hv room, scratchAccess_ok hl (by simp)] at hrun
      exact scratchRow_runs hfresh hc (.inr ⟨rfl, rfl⟩) hrun
    · cases hrow
  · intro s c f h hv hp n lanes hl
    have hc := (issuing_some h.1).2
    have hrun : exec (.vstm f) s = execVstm f s := rfl
    rw [execVstm, runWord_mem h f hv (fun k hk => Option.some.inj hk ▸ hp),
      scratchAccess_ok (fun e he => ⟨(hl e he).1, (hl e he).2.1⟩) (fun _ e he => (hl e he).2.2)] at hrun
    have hw := wrote_vectorIssue hc (dataSrcs f (widthRegs f.width) ++ addrSrc f false false) (memHeld f) 1
    refine ⟨_, _, hrun, hw.regs, hw.rest, rfl, rfl, rfl, ?_⟩
    simp only [List.map_flatMap, List.map_map]
    rfl
  · intro i f op hi h hv hp s1 seen s2 hck ht
    rcases hi with ⟨rfl, rfl⟩ | ⟨rfl, rfl⟩
    · exact lineOp_runs h hv hp hck ht
    · exact lineOp_runs h hv hp hck ht
  · intro f h hv
    have hc := (issuing_some h.1).2
    have hrun : exec (.vpf f) s = execVpf f s := rfl
    rw [execVpf, runWord_mem h f hv (by simp)] at hrun
    exact ⟨_, hrun, ranTo_settle hc (wrote_vectorIssue hc _ _ _) f.mark .next⟩

end Sys2Proof.Machine

/-! ## O34: full/empty words -/

namespace Sys2Proof.Machine

/-! ### A split parks at its word -/

theorem held_parkAt (u : State) (c : Ctx) (why : ParkReason) (y : SplitId) (r : RegRef) : held (parkAt u c why) y r = held u y r := by
  refine (held_endIssue _ y r).trans ((held_modCore_same _ _ _ y r fun _ _ _ g p => by cases r <;> rfl).trans
    (held_modGroup_same u (groupOf c.x) _ y r fun _ gr k => ?_))
  rw [getElem?_modAt]
  split <;> cases gr.splits[y.slot]? with
  | none => rfl
  | some p => cases r <;> rfl

theorem splitFind_parkAt (u : State) (c : Ctx) (why : ParkReason) :
    splitFind (parkAt u c why) c.x = (splitFind u c.x).map (fun p => { p with state := .parked why (cycleOf u c), readySince := none }) :=
  (splitFind_modSplit u c.x c.x _).trans (if_pos rfl)

theorem cycleOf_vectorIssue (s : State) (c : Ctx) (srcs : List Src) (hold : List Nat) (windows : Nat) :
    cycleOf (vectorIssue s c srcs hold windows) c = cycleOf s c := rfl

/-! ### The words of the lanes -/

theorem lt_of_mem_activeAddrs {c : Ctx} {addrs : List DWord} {e : Nat × DWord} (h : e ∈ activeAddrs c addrs) : e.1 < 96 := by
  obtain ⟨l, hl, rfl⟩ := List.mem_map.mp h
  exact lt_of_mem_lanesOf hl

/-- The word that a lane of `stfe` stores. -/
theorem ofNat_dataBytes (c : Ctx) (f : MF) {l : Nat} (hl : l < 96) :
    BitVec.ofNat 32 (numOf ((dataBytes c f 1 4).getD l [])) = BitVec.ofNat 32 (sourceAt c { reg := f.data.toNat, route := f.rt } l) := by
  have e : (dataBytes c f 1 4).getD l [] = bytesOf 4 (sourceAt c { reg := f.data.toNat, route := f.rt } l) := by
    rw [dataBytes, getD_map_allLanes _ hl]
    simp [dataSrcs, sourceAt, List.take_of_length_le]
  rw [e, numOf_bytesOf]
  apply BitVec.eq_of_toNat_eq
  simp

/-! ### A flight with nothing left to access -/

/-- A flight is not complete, nor is any other of its number. -/
def Unfinished (s : State) (id : Nat) : Prop := ∀ g ∈ s.flights, g.id = id → g.complete = false

/-- A flight that is not complete is not retired. -/
theorem mem_retirePath {s : State} {fl : Flight} (h : fl ∈ s.flights) (hn : Unfinished s fl.id) (fuel : Nat) (g : GroupId) (path : Nat) :
    fl ∈ (retirePath fuel s g path).flights := by
  induction fuel generalizing s with
  | zero => exact h
  | succ n ih =>
    unfold retirePath
    split
    · exact h
    next f hf =>
      split
      · next hc =>
        have hne : f.id ≠ fl.id := fun e => by rw [hn f (firstWith_mem hf).1 e] at hc; cases hc
        refine ih (List.mem_filter.mpr ⟨h, by simpa using hne.symm⟩) fun k hk => hn k (List.mem_filter.mp hk).1
      · exact h

theorem mem_retireFlight {s : State} {fl : Flight} (h : fl ∈ s.flights) (hn : Unfinished s fl.id) (id : Nat) {path : Nat}
    (hp : ∀ f, flightFind s id = some f → f.path = some path) : fl ∈ (retireFlight s id).flights := by
  unfold retireFlight
  split
  · exact h
  next f hf =>
    rw [hp f hf]
    exact mem_retirePath h hn _ _ _

/-- With nothing left to perform the homes have answered. -/
theorem closeFlight_noParts {s : State} {id : Nat} (h : ∀ g ∈ s.flights, g.id = id → g.parts = [] ∧ g.trap = none) :
    (closeFlight s id).flights = s.flights.map (fun g => if g.id = id then { g with answered := true } else g) := by
  unfold closeFlight
  rw [modFlight_flights]
  refine List.map_congr_left fun g hg => ?_
  by_cases hid : g.id = id
  · obtain ⟨hp, ht⟩ := h g hg hid
    rw [if_pos hid, if_pos hid]
    simp [hp, ht]
  · rw [if_neg hid, if_neg hid]

/-- A flight without accesses, whose result comes later, stays in the air. -/
theorem mem_launchFlight {s : State} {c : Ctx} {f : Flight} {path : Nat} (hfresh : ∀ g ∈ s.flights, g.id ≠ f.id) (hparts : f.parts = []) (hd : f.dests ≠ [])
    (hpath : f.path = some path) (ht : f.trap = none) :
    ∃ fl ∈ (launchFlight s c f).flights, fl.id = f.id ∧ fl.x = f.x ∧ fl.path = some path ∧ fl.parts = [] ∧ fl.written = false ∧
      fl.dests = numberedDests f.x f.dests := by
  unfold launchFlight
  extract_lets p hist f' g ordered s1 s2 s3 s4
  have h4 : s4 = s3 := by
    have e : f'.parts.length = 0 := congrArg List.length hparts
    unfold s4; rw [e]; rfl
  set new : Flight := { g with dests := numberedDests f.x f.dests } with hnew
  have hw : new.written = false := by simpa [new, g, f'] using hd
  have hnp : new.parts = [] := by simp [new, g, f', hparts]
  have h3 : s3.flights = s.flights ++ [new] := by
    unfold s3; rw [show f'.path = some path from hpath]; rfl
  have mem3 : ∀ k ∈ s3.flights, k.id = f.id → k = new := fun k hk hid => by
    rw [h3] at hk
    rcases List.mem_append.mp hk with hk | hk
    · exact absurd hid (hfresh k hk)
    · exact List.mem_singleton.mp hk
  have hc := closeFlight_noParts (s := s3) (id := f.id) fun k hk hid => by rw [mem3 k hk hid]; exact ⟨hnp, ht⟩
  have memc : ∀ k ∈ (closeFlight s3 f.id).flights, k.id = f.id → k = { new with answered := true } := fun k hk hid => by
    rw [hc] at hk
    obtain ⟨k0, hk0, rfl⟩ := List.mem_map.mp hk
    by_cases h0 : k0.id = f.id
    · rw [if_pos h0, mem3 k0 hk0 h0]
    · rw [if_neg h0] at hid; exact absurd hid h0
  have hin : { new with answered := true } ∈ (closeFlight s3 f.id).flights := by
    rw [hc, h3]
    exact List.mem_map.mpr ⟨new, by simp, if_pos rfl⟩
  refine ⟨{ new with answered := true }, ?_, rfl, rfl, hpath, hnp, hw, rfl⟩
  rw [h4]
  refine mem_retireFlight (path := path) hin (fun k hk hid => ?_) _ (fun k hk => ?_)
  · rw [memc k hk hid]
    simp [Flight.complete, hw]
  · obtain ⟨h1, h2⟩ := flightFind_some hk
    rw [memc k h1 h2]
    exact hpath

/-! ### The word issues -/

section
variable {s : State} {c : Ctx} {i : Instr} {op : FullOp} {f : MF}

/-- The state once the pipe has read the registers of a full/empty word. -/
def fullIssued (s : State) (c : Ctx) (op : FullOp) (f : MF) : State :=
  vectorIssue s c ((if op = .stfe then dataSrcs f 1 else []) ++ addrSrc f false (op != .stfe)) (memHeld f) 1

theorem exec_fullShape (h : fullShape i = some (op, f)) (s : State) : exec i s = fullEmpty i op f s := by
  unfold fullShape at h
  split at h <;> cases h <;> rfl

/-- With lanes still to perform the split parks, with each lane's word and datum as they stand. -/
theorem fullEmpty_parks (hi : fullShape i = some (op, f)) (h : Issues s c i) (hv : VectorsIn c (memVectors f 1 false)) (hp : PathRoom c op.path)
    (hl : ∀ e ∈ activeAddrs c (scratchAddrs c f (op != .stfe)), e.2.toNat % 4 = 0 ∧ e.2.toNat + 4 ≤ c.w.fields.spad) (htodo : fullTodo c op f ≠ []) :
    exec i s = .next (parkAt (fullIssued s c op f) c (.fullEmpty op ((fullTodo c op f).map (fun e =>
      { lane := e.1, off := e.2.toNat,
        data := BitVec.ofNat 32 (if op = .stfe then sourceAt c { reg := f.data.toNat, route := f.rt } e.1 else 0) })))) := by
  rw [exec_fullShape hi, fullEmpty, runWord_mem h f hv (fun k hk => Option.some.inj hk ▸ hp), scratchAccess_ok hl (by simp)]
  dsimp only
  split
  · next e => exact absurd e htodo
  · refine congrArg (fun l => Host.Outcome.next (parkAt _ c (.fullEmpty op l))) (List.map_congr_left fun e he => ?_)
    have h96 : e.1 < 96 := lt_of_mem_activeAddrs (List.mem_filter.mp he).1
    by_cases hop : op = .stfe
    · simp only [if_pos hop, ofNat_dataBytes c f h96]
    · simp only [if_neg hop]; rfl

/-- The flight of a full/empty word whose lanes have all performed. -/
def fullFlight (u : State) (c : Ctx) (op : FullOp) (f : MF) : Flight :=
  let mask := ofMask (fun l => (takenWords c).any (fun e => e.1 == l))
  let value := ofLanes (fun l => ((firstWith (fun e => e.1 == l) (takenWords c)).map (·.2)).getD 0)
  { Flight.new u c .value with
    path := some op.path, since := op.order.since, strong := op.order.strong, acquire := op.order.acquire, release := op.order.release, parts := [],
    dests := if op = .stfe ∨ mask = 0 then [] else [destOf (vref c f.data.toNat) mask (.lanes value)] }

/-- The group's notes of the lanes that have performed are dropped. -/
def forgetLanes (u : State) (c : Ctx) : State :=
  modGroup u (groupOf c.x) (fun g => { g with skip := Table.drop g.skip c.x.slot, taken := Table.drop g.taken c.x.slot })

theorem fullEmpty_ends (hi : fullShape i = some (op, f)) (h : Issues s c i) (hv : VectorsIn c (memVectors f 1 false)) (hp : PathRoom c op.path)
    (hl : ∀ e ∈ activeAddrs c (scratchAddrs c f (op != .stfe)), e.2.toNat % 4 = 0 ∧ e.2.toNat + 4 ≤ c.w.fields.spad) (htodo : fullTodo c op f = []) :
    exec i s = .next (settle (launchFlight (forgetLanes (fullIssued s c op f) c) c
      (fullFlight (forgetLanes (fullIssued s c op f) c) c op f)) c f.mark .next) := by
  rw [exec_fullShape hi, fullEmpty, runWord_mem h f hv (fun k hk => Option.some.inj hk ▸ hp), scratchAccess_ok hl (by simp)]
  dsimp only
  rw [htodo]
  rfl

end

/-! ### What the end of a full/empty word leaves -/

section
variable {P : Nat → Nat → Prop} {Q : Nat → Nat → Bool → Prop} {s : State} {c : Ctx} {op : FullOp} {f : MF}

theorem held_forgetLanes (u : State) (c : Ctx) (y : SplitId) (r : RegRef) : held (forgetLanes u c) y r = held u y r :=
  held_modGroup_same u _ _ y r fun _ gr k => by cases r <;> rfl

theorem splitFind_forgetLanes (u : State) (c : Ctx) (y : SplitId) : splitFind (forgetLanes u c) y = splitFind u y :=
  splitFind_modGroup u _ y _ fun _ => by rfl

theorem undisturbed_fullIssued (s : State) (c : Ctx) (op : FullOp) (f : MF) : Undisturbed s (fullIssued s c op f) := undisturbed_vectorIssue _ _ _ _ _

/-- A flight that accesses nothing disturbs nothing. -/
theorem undisturbed_launchFlight {u : State} {fl : Flight} (hfresh : ∀ g ∈ u.flights, g.id ≠ fl.id) (hparts : fl.parts = []) :
    Undisturbed u (launchFlight u c fl) :=
  (Undisturbed.of_eq (s := u) (t := { u with flights := u.flights ++ [fl] })).trans (lands_launchFlight (P := fun _ _ => False) (Q := fun _ _ _ => False) hfresh (by simp [hparts])).still

/-- The group's notes are gone, the split goes on, and no register or byte of memory changes. -/
theorem fullEnd_settled (hfresh : FlightsFresh s) (hc : ctxOf s c.x = some c) {t : State}
    (ht : t = settle (launchFlight (forgetLanes (fullIssued s c op f) c) c (fullFlight (forgetLanes (fullIssued s c op f) c) c op f)) c f.mark .next) :
    ∃ g, groupFind t (groupOf c.x) = some g ∧ Table.get g.skip c.x.slot 0 = 0 ∧ Table.get g.taken c.x.slot [] = [] ∧
      (splitFind t c.x).map (fun p => p.pc) = some (loopUpdate c.p.loops c.p.pc).2 ∧ KeepsRegs s t c.x [] ∧
      ∀ a, Memory.read t.mem a = Memory.read s.mem a := by
  subst ht
  set v := forgetLanes (fullIssued s c op f) c with hv
  have hi := undisturbed_fullIssued s c op f
  have hl : Undisturbed v (launchFlight v c (fullFlight v c op f)) :=
    undisturbed_launchFlight (fun g hg => Nat.ne_of_lt (hfresh g hg)) rfl
  obtain ⟨g1, hg1, e1⟩ := hi.foundGroup (ctxOf_groupFind hc)
  have hgv : groupFind v (groupOf c.x) = some { g1 with skip := Table.drop g1.skip c.x.slot, taken := Table.drop g1.taken c.x.slot } := by
    rw [hv, forgetLanes, groupFind_modGroup, if_pos rfl, hg1]; rfl
  obtain ⟨g2, hg2, e2⟩ := hl.foundGroup hgv
  have e3 := groupFind_settle_map (fun g => (g.skip, g.taken)) (fun _ _ => rfl) (launchFlight v c (fullFlight v c op f)) c f.mark .next (groupOf c.x)
  rw [hg2] at e3
  obtain ⟨g, hg, e⟩ := Option.map_eq_some_iff.mp e3
  simp only [Prod.mk.injEq] at e
  obtain ⟨p1, hp1, ep⟩ := hi.found (ctxOf_splitFind hc)
  have hpv : splitFind v c.x = some p1 := by rw [hv, splitFind_forgetLanes, hp1]
  obtain ⟨p2, hp2, ep2⟩ := hl.found hpv
  have hloops : p2.loops = c.p.loops := (congrArg (·.loops) ep2 : p2.still.loops = p1.still.loops).trans (congrArg (·.loops) ep : p1.still.loops = c.p.still.loops)
  have es : g2.skip = Table.drop g1.skip c.x.slot := congrArg (·.skip) e2
  have et : g2.taken = Table.drop g1.taken c.x.slot := congrArg (·.taken) e2
  refine ⟨g, hg, ?_, ?_, splitFind_settle hp2 hloops f.mark, fun y r _ => ?_, fun a => ?_⟩
  · rw [e.1, es, Table.get_drop, if_pos rfl]
  · rw [e.2, et, Table.get_drop, if_pos rfl]
  · rw [held_settle, hl.held, hv, held_forgetLanes, hi.held]
  · rw [settle_mem, hl.read]; exact hi.read a

/-- The words that the lanes took are the result that comes later. -/
theorem fullEnd_result (hfresh : FlightsFresh s) {t : State} (hop : op ≠ .stfe) (hex : ∃ e ∈ takenWords c, e.1 < 96)
    (ht : t = settle (launchFlight (forgetLanes (fullIssued s c op f) c) c (fullFlight (forgetLanes (fullIssued s c op f) c) c op f)) c f.mark .next) :
    ∃ fl m v, fl ∈ t.flights ∧ fl.id = s.nextId ∧ fl.x = c.x ∧ fl.path = some 0 ∧ fl.parts = [] ∧ fl.written = false ∧
      fl.dests = numberedDests c.x [destOf (vref c f.data.toNat) m (.lanes v)] ∧
      ∀ l, l < 96 → has m l = (takenWords c).any (fun e => e.1 == l) ∧ ∀ w, firstWith (fun e => e.1 == l) (takenWords c) = some (l, w) → lane v l = w := by
  subst ht
  set v := forgetLanes (fullIssued s c op f) c
  have hmask : ofMask (fun l => (takenWords c).any (fun e => e.1 == l)) ≠ 0 := by
    obtain ⟨e, he, h96⟩ := hex
    intro h0
    have hb := has_ofMask (fun l => (takenWords c).any (fun e => e.1 == l)) e.1 h96
    rw [h0] at hb
    have : (takenWords c).any (fun e' => e'.1 == e.1) = true := List.any_eq_true.mpr ⟨e, he, by simp⟩
    rw [this] at hb
    simp [has] at hb
  have hdests : (fullFlight v c op f).dests = [destOf (vref c f.data.toNat) (ofMask (fun l => (takenWords c).any (fun e => e.1 == l)))
      (.lanes (ofLanes (fun l => ((firstWith (fun e => e.1 == l) (takenWords c)).map (·.2)).getD 0)))] := if_neg (fun h => h.elim hop hmask)
  obtain ⟨fl, h1, h2, h3, h4, h5, h6, h7⟩ := mem_launchFlight (s := v) (c := c) (f := fullFlight v c op f) (path := 0)
    (fun g hg => Nat.ne_of_lt (hfresh g hg)) rfl (by simp [hdests]) (congrArg some (if_neg hop)) rfl
  refine ⟨fl, _, _, h1, h2, h3, h4, h5, h6, h7.trans (congrArg _ hdests), fun l hl => ⟨has_ofMask _ l hl, fun w hw => ?_⟩⟩
  rw [lane_ofLanes _ l hl, hw]; rfl

end

/-! ### A lane performs (R195, R428) -/

/-- The group notes that lanes have performed, and the words they took. -/
def noteLanes (v : State) (c : Ctx) (m : Mask) (words : List (Nat × Word)) : State :=
  modGroup v (groupOf c.x) (fun g => { g with skip := Table.put g.skip c.x.slot (skipMask c ||| m), taken := Table.put g.taken c.x.slot words })

theorem noteWrite_wgs (s : State) (f : Flight) (k : Nat) (p : Part) (w : Workgroup) (old : List Byte) (scope : Nat) : (noteWrite s f k p w old scope).wgs = s.wgs := by
  unfold noteWrite; split <;> rfl

section
variable {s : State} {c : Ctx} {op : FullOp} {l : FullLane}

theorem fullPerform_bad (hb : scratchBad c.w l.off 4 = true) : fullPerform s c op l = noteLanes (poisonedPark s c l.lane) c (BitVec.allOnes 96) [] := by
  rw [fullPerform, if_pos hb]; rfl

/-- `stfe` writes the word and fills it. -/
def storeFull (s : State) (c : Ctx) (op : FullOp) (l : FullLane) : State :=
  let a := fullAccess s c op l
  let s1 := noteWrite s a.1 l.lane { a.2 with kind := .rc } c.w (scratchRead c.w l.off 4) 2
  modWg (completePast { s1 with nextId := s.nextId + 1 } a.1.id) c.x.wg (fun w => setFull (scratchPut w l.off (bytesOf 4 l.data.toNat)) l.off true)

/-- A load takes the word; `ldfe` empties it. -/
def takeFull (s : State) (c : Ctx) (op : FullOp) (l : FullLane) : State :=
  let s1 := modSplit s c.x (fun p => { p with floors := raiseFloors p.floors 2 (stampOf s) })
  if op = .ldfe then modWg s1 c.x.wg (fun w => setFull w l.off false) else s1

theorem fullPerform_store (hb : scratchBad c.w l.off 4 = false) (hop : op = .stfe) :
    fullPerform s c op l = noteLanes (storeFull s c op l) c (BitVec.ofNat 96 (2 ^ l.lane)) (takenWords c) := by
  rw [fullPerform, if_neg (by simp [hb]), if_pos hop]; rfl

theorem fullPerform_take (hb : scratchBad c.w l.off 4 = false) (hop : op ≠ .stfe) :
    fullPerform s c op l = noteLanes (takeFull s c op l) c (BitVec.ofNat 96 (2 ^ l.lane))
      (takenWords c ++ [(l.lane, BitVec.ofNat 32 (numOf (scratchRead c.w l.off 4)))]) := by
  rw [fullPerform, if_neg (by simp [hb]), if_neg hop]; rfl


/-- The state once a lane has performed, before the group notes it. -/
theorem storeFull_wg (hw : wgFind s c.x.wg = some c.w) :
    wgFind (storeFull s c op l) c.x.wg = some (setFull (scratchPut c.w l.off (bytesOf 4 l.data.toNat)) l.off true) := by
  unfold storeFull
  extract_lets a q s1
  refine (wgFind_modWg _ _ _ _ fun _ => by rfl).trans ?_
  have h1 : s1.wgs = s.wgs := noteWrite_wgs s _ _ _ _ _ _
  rw [if_pos rfl]
  exact congrArg (Option.map _) ((wgFind_congr h1 c.x.wg).trans hw)

theorem undisturbed_storeFull (s : State) (c : Ctx) (op : FullOp) (l : FullLane) : Undisturbed s (storeFull s c op l) := by
  unfold storeFull
  extract_lets a q s1
  have h1 : Undisturbed s s1 := (lands_noteWrite (P := fun _ _ => False) (Q := fun _ _ _ => False) s _ _ _ _ _ _).still
  exact (h1.trans .of_eq).trans (.modWg _ _ _)

theorem takeFull_wg (hw : wgFind s c.x.wg = some c.w) :
    ∃ gs, wgFind (takeFull s c op l) c.x.wg = some (if op = .ldfe then setFull { c.w with groups := gs } l.off false else { c.w with groups := gs }) := by
  unfold takeFull
  extract_lets s1
  obtain ⟨gs, e⟩ : ∃ gs, wgFind s1 c.x.wg = some { c.w with groups := gs } := by
    refine ⟨modAt c.w.groups c.x.grp fun g => { g with splits := modAt g.splits c.x.slot fun p => { p with floors := raiseFloors p.floors 2 (stampOf s) } }, ?_⟩
    refine (wgFind_modGroup s (groupOf c.x) c.x.wg _).trans ?_
    rw [if_pos (by rfl), hw]; rfl
  refine ⟨gs, ?_⟩
  split
  · refine (wgFind_modWg _ _ _ _ fun _ => by rfl).trans ?_
    rw [if_pos rfl, e]; rfl
  · exact e

theorem undisturbed_takeFull (s : State) (c : Ctx) (op : FullOp) (l : FullLane) : Undisturbed s (takeFull s c op l) := by
  unfold takeFull
  extract_lets s1
  have h1 : Undisturbed s s1 := .modSplit _ _ _
  split
  · exact h1.trans (.modWg _ _ _)
  · exact h1

end

/-! ### What the group's note leaves -/

section
variable {v : State} {c : Ctx} {m : Mask} {words : List (Nat × Word)}

theorem wgFind_noteLanes {w : Workgroup} (hw : wgFind v c.x.wg = some w) : ∃ gs, wgFind (noteLanes v c m words) c.x.wg = some { w with groups := gs } :=
  ⟨modAt w.groups c.x.grp fun g => { g with skip := Table.put g.skip c.x.slot (skipMask c ||| m), taken := Table.put g.taken c.x.slot words },
    (wgFind_modGroup v (groupOf c.x) c.x.wg _).trans (by rw [if_pos (by rfl), hw]; rfl)⟩

theorem groupFind_noteLanes {g : Group} (hg : groupFind v (groupOf c.x) = some g) :
    groupFind (noteLanes v c m words) (groupOf c.x) =
      some { g with skip := Table.put g.skip c.x.slot (skipMask c ||| m), taken := Table.put g.taken c.x.slot words } :=
  groupFind_modGroup_own v _ _ hg

theorem splitFind_noteLanes (v : State) (c : Ctx) (m : Mask) (words : List (Nat × Word)) (y : SplitId) :
    splitFind (noteLanes v c m words) y = splitFind v y := splitFind_modGroup v _ y _ fun _ => by rfl

theorem held_noteLanes (v : State) (c : Ctx) (m : Mask) (words : List (Nat × Word)) (y : SplitId) (r : RegRef) :
    held (noteLanes v c m words) y r = held v y r := held_modGroup_same v _ _ y r fun _ gr k => by cases r <;> rfl

end

section
variable {s : State} {c : Ctx} {op : FullOp} {lanes : List FullLane} {l : FullLane} {since : Nat}

theorem fullEmptyLanePerform_eq (hc : ctxOf s c.x = some c) (hst : c.p.state = .parked (.fullEmpty op lanes) since)
    (hl : firstWith (fun e => e.lane == l.lane && !has (skipMask c) e.lane) lanes = some l) (hr : fullReady s c op lanes l = true) :
    exec (.fullEmptyLanePerform c.x l.lane) s = .next { fullPerform s c op l with draw := s.draw + 1 } := by
  have hrun : exec (.fullEmptyLanePerform c.x l.lane) s = execFullEmptyLanePerform c.x l.lane s := rfl
  rw [hrun, execFullEmptyLanePerform, hc]
  dsimp only
  rw [hst]
  dsimp only
  rw [hl, Option.bind_some, if_pos hr]
  rfl

/-- The word of a lane that performs is full, but for `stfe`. -/
theorem wordFull_of_fullReady (hr : fullReady s c op lanes l = true) : wordFull c.w l.off = (op != .stfe) := by
  unfold fullReady at hr
  simp only [Bool.and_eq_true, beq_iff_eq] at hr
  exact hr.1.1.1

/-- What a lane that performs leaves of its split, and the words of its scratchpad that stay. -/
def LanePerformed (s : State) (c : Ctx) (op : FullOp) (l : FullLane) : Prop :=
  ∃ w g p, wgFind (fullPerform s c op l) c.x.wg = some w ∧ groupFind (fullPerform s c op l) (groupOf c.x) = some g ∧
    splitFind (fullPerform s c op l) c.x = some p ∧ KeepsRegs s (fullPerform s c op l) c.x [] ∧
    (∀ a, Memory.read (fullPerform s c op l).mem a = Memory.read s.mem a) ∧ p.pc = c.p.pc ∧ p.state = c.p.state ∧
    (∀ o, (op ≠ .stfe ∨ scratchBad c.w l.off 4 = true ∨ o < l.off ∨ l.off + 4 ≤ o) → scratchByte w o = scratchByte c.w o) ∧
    (∀ k, k ≠ l.off / 4 → w.full.contains k = c.w.full.contains k) ∧
    (scratchBad c.w l.off 4 = false → Table.get g.skip c.x.slot 0 = skipMask c ||| BitVec.ofNat 96 (2 ^ l.lane) ∧ p.pending = c.p.pending ∧
      (op = .stfe → scratchRead w l.off 4 = bytesOf 4 l.data.toNat ∧ wordFull w l.off = true) ∧
      (op ≠ .stfe → wordFull w l.off = (op == .ldff) ∧
        Table.get g.taken c.x.slot [] = takenWords c ++ [(l.lane, BitVec.ofNat 32 (numOf (scratchRead c.w l.off 4)))])) ∧
    (scratchBad c.w l.off 4 = true → Table.get g.skip c.x.slot 0 = BitVec.allOnes 96 ∧ Table.get g.taken c.x.slot [] = [] ∧
      ∃ tr, p.pending = c.p.pending ++ [tr] ∧ tr.code = 6 ∧ tr.lane = l.lane ∧ tr.pc = c.p.pc ∧ tr.async = true)

theorem ctxOf_wgFind (hc : ctxOf s c.x = some c) : wgFind s c.x.wg = some c.w := ((ctxOf_iff s c.x c).mp hc).2.1

/-- A change of a split leaves its workgroup but for its groups, and its group but for its splits. -/
theorem modSplit_found (hc : ctxOf s c.x = some c) (f : Split → Split) :
    (∃ gs, wgFind (modSplit s c.x f) c.x.wg = some { c.w with groups := gs }) ∧ (∃ ps, groupFind (modSplit s c.x f) (groupOf c.x) = some { c.g with splits := ps }) ∧
      splitFind (modSplit s c.x f) c.x = some (f c.p) := by
  refine ⟨⟨modAt c.w.groups c.x.grp fun g => { g with splits := modAt g.splits c.x.slot f }, ?_⟩, ⟨modAt c.g.splits c.x.slot f, ?_⟩, ?_⟩
  · refine (wgFind_modGroup s (groupOf c.x) c.x.wg _).trans ?_
    rw [if_pos (by rfl), ctxOf_wgFind hc]; rfl
  · exact groupFind_modGroup_own s _ _ (ctxOf_groupFind hc)
  · rw [splitFind_modSplit, if_pos rfl, ctxOf_splitFind hc]; rfl

/-- Poison ends the instruction with its trap pending. -/
theorem lanePerformed_bad (hc : ctxOf s c.x = some c) (hb : scratchBad c.w l.off 4 = true) : LanePerformed s c op l := by
  obtain ⟨⟨gs, hw⟩, ⟨ps, hg⟩, hp⟩ := modSplit_found hc (fun p => { p with pending := p.pending ++
    [{ code := 6, detail := 0, lane := l.lane, value := 0, pc := c.p.pc, async := true, seq := s.nextId }] })
  have hk : ∀ y r, held (poisonedPark s c l.lane) y r = held s y r := fun y r =>
    held_modGroup_same s (groupOf c.x) _ y r fun _ gr k => by
      rw [getElem?_modAt]
      split <;> cases gr.splits[y.slot]? with
      | none => rfl
      | some p => cases r <;> rfl
  rw [LanePerformed, fullPerform_bad hb]
  obtain ⟨gs', hw'⟩ := wgFind_noteLanes (v := poisonedPark s c l.lane) (m := BitVec.allOnes 96) (words := []) hw
  refine ⟨_, _, _, hw', groupFind_noteLanes (v := poisonedPark s c l.lane) hg, (splitFind_noteLanes _ _ _ _ _).trans hp,
    fun y r _ => (held_noteLanes _ _ _ _ y r).trans (hk y r), fun _ => rfl, rfl, rfl, fun _ _ => rfl, fun _ _ => rfl, fun h => by simp [hb] at h, fun _ => ⟨?_, ?_, ?_⟩⟩
  · exact (Table.get_put_same _ _ _ _).trans BitVec.or_allOnes
  · exact Table.get_put_same _ _ _ _
  · exact ⟨_, rfl, rfl, rfl, rfl, rfl⟩

/-- A lane of `stfe` writes its word and fills it. -/
theorem lanePerformed_store (hc : ctxOf s c.x = some c) (hb : scratchBad c.w l.off 4 = false) (hop : op = .stfe) : LanePerformed s c op l := by
  have hu := undisturbed_storeFull s c op l
  obtain ⟨g, hg, eg⟩ := hu.foundGroup (ctxOf_groupFind hc)
  obtain ⟨p, hp, ep⟩ := hu.found (ctxOf_splitFind hc)
  obtain ⟨gs, hw⟩ := wgFind_noteLanes (m := BitVec.ofNat 96 (2 ^ l.lane)) (words := takenWords c) (storeFull_wg (op := op) (l := l) (ctxOf_wgFind hc))
  have hlen : (bytesOf 4 l.data.toNat).length = 4 := length_bytesOf _ _
  rw [LanePerformed, fullPerform_store hb hop]
  refine ⟨_, _, p, hw, groupFind_noteLanes hg, (splitFind_noteLanes _ _ _ _ _).trans hp, fun y r _ => (held_noteLanes _ _ _ _ y r).trans (hu.held y r),
    hu.read, congrArg (·.pc) ep, congrArg (·.state) ep, fun o ho => ?_, fun k hk => ?_, fun _ => ⟨by simp, congrArg (·.pending) ep, fun _ => ⟨?_, ?_⟩, fun h => absurd hop h⟩,
    fun h => by simp [hb] at h⟩
  · refine scratchByte_scratchPut_outside ?_
    rw [hlen]
    rcases ho with h | h | h
    · exact absurd hop h
    · simp [hb] at h
    · exact h
  · exact (contains_setFull (scratchPut c.w l.off (bytesOf 4 l.data.toNat)) l.off _ true).trans (if_neg hk)
  · have := scratchRead_scratchPut c.w l.off (bytesOf 4 l.data.toNat)
    rw [hlen] at this
    exact this
  · exact (contains_setFull (scratchPut c.w l.off (bytesOf 4 l.data.toNat)) l.off _ true).trans (if_pos rfl)

/-- A lane of a load takes its word; `ldfe` empties it. -/
theorem lanePerformed_take (hc : ctxOf s c.x = some c) (hb : scratchBad c.w l.off 4 = false) (hop : op ≠ .stfe) (hr : fullReady s c op lanes l = true) :
    LanePerformed s c op l := by
  have hu := undisturbed_takeFull s c op l
  obtain ⟨g, hg, eg⟩ := hu.foundGroup (ctxOf_groupFind hc)
  obtain ⟨p, hp, ep⟩ := hu.found (ctxOf_splitFind hc)
  obtain ⟨gs, hw⟩ := takeFull_wg (op := op) (l := l) (ctxOf_wgFind hc)
  obtain ⟨gs', hw⟩ := wgFind_noteLanes (m := BitVec.ofNat 96 (2 ^ l.lane))
    (words := takenWords c ++ [(l.lane, BitVec.ofNat 32 (numOf (scratchRead c.w l.off 4)))]) hw
  rw [LanePerformed, fullPerform_take hb hop]
  refine ⟨_, _, p, hw, groupFind_noteLanes hg, (splitFind_noteLanes _ _ _ _ _).trans hp, fun y r _ => (held_noteLanes _ _ _ _ y r).trans (hu.held y r),
    hu.read, congrArg (·.pc) ep, congrArg (·.state) ep, fun o _ => ?_, fun k hk => ?_, fun _ => ⟨by simp, congrArg (·.pending) ep, fun h => absurd h hop, fun _ => ⟨?_, by simp⟩⟩,
    fun h => by simp [hb] at h⟩
  · split <;> rfl
  · split
    · exact (contains_setFull { c.w with groups := gs } l.off _ false).trans (if_neg hk)
    · rfl
  · have hfull : wordFull c.w l.off = true := by rw [wordFull_of_fullReady hr]; simp [hop]
    by_cases he : op = .ldfe
    · rw [if_pos he, he]
      exact (contains_setFull { c.w with groups := gs } l.off _ false).trans (if_pos rfl)
    · rw [if_neg he]
      exact hfull.trans (by cases op <;> simp_all)

end

/-! ### `feset`, and its access -/

section
variable {s : State} {c : Ctx} {f : MF}

/-- The access of a lane of `feset`. -/
def fesetPart (f : MF) (e : Nat × DWord) : Part := scratchUnit e.1 0 4 e.2.toNat (.setFull (f.data == 1)) []

/-- The flight of `feset`. -/
def fesetFlight (u : State) (c : Ctx) (f : MF) : Flight :=
  { Flight.new u c .store with
    path := some 1, since := 0, parts := ((activeAddrs c (scratchAddrs c f true)).filter (fun e => has c.writes e.1)).map (fesetPart f) }

theorem exec_feset (h : Issues s c (.feset f)) (hv : VectorsIn c (memVectors f 0 false)) (hp : PathRoom c 1)
    (hl : ∀ e ∈ activeAddrs c (scratchAddrs c f true), e.2.toNat % 4 = 0 ∧ e.2.toNat + 4 ≤ c.w.fields.spad) :
    exec (.feset f) s = .next (settle (launchFlight (vectorIssue s c (addrSrc f false true) (memHeld f) 1) c
      (fesetFlight (vectorIssue s c (addrSrc f false true) (memHeld f) 1) c f)) c f.mark .next) := by
  have hrun : exec (.feset f) s = execFeset f s := rfl
  rw [hrun, execFeset, runWord_mem h f hv (fun k hk => Option.some.inj hk ▸ hp), scratchAccess_ok hl (by simp)]
  rfl

/-- The words whose state a lane of `feset` sets, and the state it sets. -/
def SetsFull (c : Ctx) (f : MF) (wg k : Nat) (b : Bool) : Prop :=
  wg = c.x.wg ∧ (∃ e ∈ activeAddrs c (scratchAddrs c f true), has c.writes e.1 = true ∧ e.2.toNat / 4 = k) ∧ b = (f.data == 1)

theorem fesetParts_landIn (u : State) : ∀ p ∈ (fesetFlight u c f).parts, Part.LandsIn (fun _ _ => False) (SetsFull c f) c.x.wg (p.place, p.op, p.data) := by
  intro p hp
  obtain ⟨e, he, rfl⟩ := List.mem_map.mp hp
  obtain ⟨he, hw⟩ := List.mem_filter.mp he
  exact ⟨_, rfl, .inr (.inr ⟨_, rfl, rfl, ⟨e, he, hw, rfl⟩, rfl⟩)⟩

end

/-- A flight whose accesses are all of the scratchpad breaks no rule of a protocol. -/
theorem violation_scratch (s : State) (col : Nat) {f : Flight} (h : ∀ q ∈ f.parts, ∃ b, q.place = .scratch b) : violation s col f = none := by
  unfold violation
  extract_lets bad
  have hb : f.parts.filterMap bad = [] := List.filterMap_eq_nil_iff.mpr fun q hq => by
    obtain ⟨b, e⟩ := h q hq
    simp only [bad, e]
  rw [hb]
  split <;> rfl

/-- The access of a lane of `feset` is performed: the word's state is set. -/
theorem performPart_setFull {s : State} {id k o : Nat} {f : Flight} {p : Part} {full : Bool} {w : Workgroup} (hf : flightFind s id = some f)
    (hall : ∀ q ∈ f.parts, ∃ b, q.place = .scratch b) (hp : f.parts[k]? = some p) (hst : p.state = .queued) (hop : p.op = .setFull full)
    (ho : p.place = .scratch o) (hw : wgFind s f.x.wg = some w) :
    performPart s id k = closeFlight (partDone (modWg s f.x.wg (fun w => setFull w o full)) f k p w [] [] false) id := by
  unfold performPart
  rw [hf]
  dsimp only
  rw [hp, hw]
  dsimp only
  rw [if_neg (by simp [Part.ordered, Part.finished, hst]), if_neg (by simp [hst]), violation_scratch s w.column hall, ho]
  simp only [ite_self]
  unfold scratchPart
  rw [hop]
  rfl

theorem fesetAccess_completes {s : State} {id k o : Nat} {f : Flight} {p : Part} (hf : flightFind s id = some f)
    (hp : f.parts[k]? = some p) (hst : p.state = .queued)
    (ho : p.place = .scratch o) (hr : partReady s f p = true) (honce : onceParts s f = []) :
    exec (.accessCompletion id [k]) s = .next { retireFlight (performPart s id k) id with draw := (performPart s id k).draw + 1 } := by
  have hrun : exec (.accessCompletion id [k]) s = execAccessCompletion id [k] s := rfl
  have hpresent : presentPart s id k = performPart s id k := by
    unfold presentPart
    rw [hf]
    dsimp only
    rw [hp]
    dsimp only
    rw [honce, if_neg (by simp), if_pos hr]
  have hcomplete : completePart s id k = some (performPart s id k) := by
    unfold completePart
    rw [hf, Option.map_some]
    dsimp only
    rw [hp]
    dsimp only
    rw [ho, hst]
    simp only [Bool.false_eq_true, if_false, if_pos hr, hpresent]
  rw [hrun, execAccessCompletion, if_neg (by simp), List.foldl_cons, List.foldl_nil, Option.bind_some, hcomplete]
  rfl

/-- What the access leaves: its word's state is set, and nothing else of the scratchpad or of memory changes. -/
theorem fesetAccess_sets {s : State} {id k o : Nat} {f : Flight} {p : Part} {full : Bool} {w : Workgroup} (hf : flightFind s id = some f)
    (hall : ∀ q ∈ f.parts, ∃ b, q.place = .scratch b) (hp : f.parts[k]? = some p) (hst : p.state = .queued) (hop : p.op = .setFull full)
    (ho : p.place = .scratch o) (hw : wgFind s f.x.wg = some w) :
    ∃ v, wgFind (retireFlight (performPart s id k) id) f.x.wg = some v ∧ wordFull v o = full ∧
      (∀ n, n ≠ o / 4 → v.full.contains n = w.full.contains n) ∧ (∀ b, scratchByte v b = scratchByte w b) ∧
      ∀ a, Memory.read (retireFlight (performPart s id k) id).mem a = Memory.read s.mem a := by
  rw [performPart_setFull hf hall hp hst hop ho hw]
  have hs : wgFind (modWg s f.x.wg (fun w => setFull w o full)) f.x.wg = some (setFull w o full) := by
    refine (wgFind_modWg s _ _ _ fun _ => by rfl).trans ?_
    rw [if_pos rfl, hw]; rfl
  set u := modWg s f.x.wg (fun w => setFull w o full)
  have hl : Lands (fun _ _ => False) (fun _ _ _ => False) u (retireFlight (closeFlight (partDone u f k p w [] [] false) id) id) :=
    ((lands_partDone u f k ho w [] [] false).trans (lands_closeFlight _ _)).trans (lands_retireFlight _ _)
  obtain ⟨v, hv, -⟩ := hl.still.foundWg hs
  have hfull : ∀ n, v.full.contains n = (setFull w o full).full.contains n := fun n => (hl.full _ _ _ hs hv n).resolve_right not_false
  refine ⟨v, hv, ?_, fun n hn => ?_, fun b => (hl.bytes _ _ _ hs hv b).resolve_left not_false, fun a => hl.still.read a⟩
  · exact (hfull _).trans ((contains_setFull w o _ full).trans (if_pos rfl))
  · exact (hfull n).trans ((contains_setFull w o n full).trans (if_neg hn))

/-! ### The four parts of O34 -/

/-- With lanes still to perform the split waits at the word, and nothing else changes. -/
theorem fullEmpty_waits {s : State} {c : Ctx} {i : Instr} {op : FullOp} {f : MF} (hi : fullShape i = some (op, f)) (h : Issues s c i)
    (hv : VectorsIn c (memVectors f 1 false)) (hp : PathRoom c op.path)
    (hl : ∀ e ∈ activeAddrs c (scratchAddrs c f (op != .stfe)), e.2.toNat % 4 = 0 ∧ e.2.toNat + 4 ≤ c.w.fields.spad) (htodo : fullTodo c op f ≠ []) :
    ∃ t p, exec i s = .next t ∧ splitFind t c.x = some p ∧ p.pc = c.p.pc ∧
      p.state = .parked (.fullEmpty op ((fullTodo c op f).map (fun e =>
        { lane := e.1, off := e.2.toNat,
          data := BitVec.ofNat 32 (if op = .stfe then sourceAt c { reg := f.data.toNat, route := f.rt } e.1 else 0) }))) (cycleOf s c) ∧
      KeepsRegs s t c.x [] ∧ t.issue = none ∧ t.flights = s.flights ∧ ∀ a, Memory.read t.mem a = Memory.read s.mem a := by
  have hu := undisturbed_fullIssued s c op f
  obtain ⟨p, hq, ep⟩ := hu.found (ctxOf_splitFind (issuing_some h.1).2)
  have hrun := fullEmpty_parks hi h hv hp hl htodo
  have hcycle : cycleOf (fullIssued s c op f) c = cycleOf s c := cycleOf_vectorIssue s c _ _ _
  have hflights : (fullIssued s c op f).flights = s.flights := rfl
  generalize fullIssued s c op f = u at hu hq hrun hcycle hflights
  exact ⟨_, _, hrun, (splitFind_parkAt _ _ _).trans (congrArg _ hq), congrArg (·.pc) ep, congrArg (RunState.parked _) hcycle,
    fun y r _ => (held_parkAt _ _ _ y r).trans (hu.held y r), rfl, hflights, hu.read⟩

theorem lanePerformed {s : State} {c : Ctx} {op : FullOp} {lanes : List FullLane} {l : FullLane} (hc : ctxOf s c.x = some c)
    (hr : fullReady s c op lanes l = true) : LanePerformed s c op l := by
  cases hb : scratchBad c.w l.off 4 with
  | true => exact lanePerformed_bad hc hb
  | false =>
    by_cases hop : op = .stfe
    · exact lanePerformed_store hc hb hop
    · exact lanePerformed_take hc hb hop hr

/-- `feset` completes, and its accesses change no more than the states of its lanes' words. -/
theorem feset_completes {s : State} {c : Ctx} {f : MF} (hfresh : FlightsFresh s) (hc : ctxOf s c.x = some c) {t : State}
    (ht : t = settle (launchFlight (vectorIssue s c (addrSrc f false true) (memHeld f) 1) c
      (fesetFlight (vectorIssue s c (addrSrc f false true) (memHeld f) 1) c f)) c f.mark .next) :
    ∃ w, (splitFind t c.x).map (fun p => p.pc) = some (loopUpdate c.p.loops c.p.pc).2 ∧ wgFind t c.x.wg = some w ∧ KeepsRegs s t c.x [] ∧
      (∀ a, Memory.read t.mem a = Memory.read s.mem a) ∧ (∀ o, scratchByte w o = scratchByte c.w o) ∧
      ∀ k, w.full.contains k = c.w.full.contains k ∨ SetsFull c f c.x.wg k (w.full.contains k) := by
  have hland := lands_launched (c := c) (f := fesetFlight (vectorIssue s c (addrSrc f false true) (memHeld f) 1) c f) hfresh rfl
    (addrSrc f false true) (memHeld f) (fesetParts_landIn _)
  generalize launchFlight (vectorIssue s c (addrSrc f false true) (memHeld f) 1) c
    (fesetFlight (vectorIssue s c (addrSrc f false true) (memHeld f) 1) c f) = u at hland ht
  subst ht
  have hu := (Undisturbed.of_eq (s := s)).trans hland.still
  obtain ⟨hk, hm, hpc⟩ := hu.settled hc f.mark
  obtain ⟨v, hv, -⟩ := hu.foundWg (ctxOf_wgFind hc)
  have e := wgFind_settle_map (fun w => w.id) (fun _ _ => rfl) u c f.mark .next c.x.wg
  rw [hv] at e
  obtain ⟨w, hw, -⟩ := Option.map_eq_some_iff.mp e
  obtain ⟨hbytes, hfull⟩ := hland.settled f.mark _ _ _ (ctxOf_wgFind hc) hw
  exact ⟨w, hpc, hw, hk, hm, fun o => (hbytes o).resolve_left not_false, hfull⟩

/-- Settles O34: the word's park or its end, the lanes by whether their word is poisoned, stored or taken, and `feset` by what its accesses may change. -/
theorem fullEmptyWords : Obligations.FullEmptyWords := by
  refine ⟨fun s c i op f hi hfresh h hv hp hl => ⟨fullEmpty_waits hi h hv hp hl, fun htodo => ?_⟩, ?_, ?_, ?_⟩
  · obtain ⟨g, hg, hs, ht, hpc, hk, hm⟩ := fullEnd_settled (op := op) (f := f) hfresh (issuing_some h.1).2 rfl
    exact ⟨_, g, fullEmpty_ends hi h hv hp hl htodo, hg, hs, ht, hpc, hk, rfl, hm, fun hop hex => fullEnd_result hfresh hop hex rfl⟩
  · intro s c op lanes l since hc hst hl hr
    obtain ⟨w, g, p, hw, hg, hp, hk, hm, h⟩ := lanePerformed hc hr
    exact ⟨_, w, g, p, fullEmptyLanePerform_eq hc hst hl hr, hw, hg, hp,
      fun y r n => ((Undisturbed.of_eq (s := fullPerform s c op l)).held y r).trans (hk y r n), hm, h⟩
  · intro s c f hfresh h hv hp lanes hl
    obtain ⟨w, hpc, hw, hk, hm, hbytes, hfull⟩ := feset_completes (f := f) hfresh (issuing_some h.1).2 rfl
    exact ⟨_, _, _, _, w, exec_feset h hv hp hl, rfl, rfl, rfl, List.map_map, hpc, hw, hk, hm, hbytes,
      fun k => (hfull k).imp_right fun ⟨_, hlane, hb⟩ => ⟨hlane, hb⟩⟩
  · intro s id f k p o full w hf hall hp hst hop ho hw hr honce
    obtain ⟨v, h⟩ := fesetAccess_sets hf hall hp hst hop ho hw
    exact ⟨_, v, fesetAccess_completes hf hp hst ho hr honce, h⟩

end Sys2Proof.Machine

/-! ## O39: barriers, fences and waits -/

namespace Sys2Proof.Machine

/-! ### A word that writes no register goes on -/

/-- A word that changes nothing of its own goes on at the next word. -/
theorem ran_next {s : State} {c : Ctx} (hc : ctxOf s c.x = some c) (mark : Bool) : Ran s (settle s c mark .next) c [] [] :=
  ranTo_settle hc (Wrote.refl s c.x []) mark .next

section
variable {s : State} {c : Ctx}

/-! ### `wait` and `tlbinv` -/

/-- The 32 bits of an immediate are the operand. -/
theorem immAt_32 (f : SF) : immAt f 32 = f.imm.toNat := by
  have h := f.imm.isLt
  unfold immAt wrap signed
  split <;> simp <;> omega

theorem waitMet_iff (c : Ctx) (f : SF) :
    waitMet c f = true ↔ pathOf c.g f.fn.toNat ≤ (if f.sb = 0 then f.imm.toNat else (c.s f.sb.toNat).toNat) := by
  simp [waitMet, immAt_32]

theorem exec_wait {f : SF} (h : Issues s c (.wait f)) :
    exec (.wait f) s = .next (if waitMet c f then settle s c f.mark .next else parkAt s c .path) := by
  have hrun : exec (.wait f) s = execWait f s := rfl
  rw [hrun, execWait, runWord_sForm h]
  split <;> rfl

theorem tlbinv_over {i : Instr} {f : SF} (h : Issues s c i) (hs : c.super = true) (hw : c.p.wait = .tlbinv true) :
    tlbinv i f s = .next (settle s c f.mark .next) := by
  have hrun := runWord_next h (fun _ => { sForm i f with priv := .super }) (fun s c =>
    match c.p.wait with
    | .tlbinv true => .done s .next
    | _ => .wait (modSplit s c.x (fun p => { p with wait := .tlbinv false }))) rfl hs rfl (roomFor_none c) (by simp [sForm])
  rw [hw] at hrun
  exact hrun

/-! ### `tsr` -/

/-- A split whose shadows are gone. -/
theorem ctxOf_dropShadows (hc : ctxOf s c.x = some c) :
    ∃ d, ctxOf (modSplit s c.x (fun p => { p with shadows := [] })) c.x = some d ∧ d.x = c.x ∧ ∀ n, sref d n = sref c n := by
  obtain ⟨⟨gs, hw⟩, ⟨ps, hg⟩, hp⟩ := modSplit_found hc (fun p => { p with shadows := [] })
  have hk : Wrote s (modSplit s c.x (fun p => { p with shadows := [] })) c.x [] :=
    Wrote.modSplit_same s c.x [] _ (fun _ => rfl) (fun _ => rfl) (fun r _ g p k => by cases r <;> rfl) (by simp)
  obtain ⟨d, hd, -, hx, -, -⟩ := hk.ctx hc
  have hdx : d.x = c.x := hx
  refine ⟨d, hd, hdx, fun n => ?_⟩
  have hdg := ctxOf_groupFind hd
  rw [hg] at hdg
  have hh : d.handler = c.handler := by
    unfold Ctx.handler
    rw [← Option.some.inj hdg, hdx]
  rw [sref, sref, hh]

theorem tsr_reads {f : SF} (h : Issues s c (.tsr f)) (hr : resultsWritten s c.p = true) :
    ∃ t, exec (.tsr f) s = .next t ∧ ScalarGets t c true f.sd.toNat (timeOf s) ∧ Ran s t c (scalarRegs c true f.sd.toNat) [] := by
  have hc := (issuing_some h.1).2
  have hrun : exec (.tsr f) s = execTsr f s := rfl
  have h0 : Wrote s (modSplit s c.x (fun p => { p with shadows := [] })) c.x [] :=
    Wrote.modSplit_same s c.x [] _ (fun _ => rfl) (fun _ => rfl) (fun r _ g p k => by cases r <;> rfl) (by simp)
  obtain ⟨d, hd, hx, href⟩ := ctxOf_dropShadows hc
  obtain ⟨h1, h2⟩ := wrote_writeScalar (hx ▸ hd : ctxOf (modSplit s c.x (fun p => { p with shadows := [] })) d.x = some d) true f.sd.toNat (timeOf s)
  have hregs : scalarRegs d true f.sd.toNat = scalarRegs c true f.sd.toNat := by simp [scalarRegs, href]
  rw [hx, hregs] at h1
  have h3 : ScalarGets (writeScalar (modSplit s c.x (fun p => { p with shadows := [] })) d true f.sd.toNat (timeOf s)) c true f.sd.toNat (timeOf s) := by
    simpa only [ScalarGets, hx, href] using h2
  rw [execTsr, runWord_sForm h, if_neg (by simp [hr])] at hrun
  dsimp only at hrun
  rw [hd] at hrun
  exact ⟨_, hrun, scalarGets_settle h3 _ _, ranTo_settle hc (h0.trans h1) f.mark .next⟩

theorem tsr_waits {f : SF} (h : Issues s c (.tsr f)) (hr : resultsWritten s c.p = false) :
    exec (.tsr f) s = .next (endIssue (modSplit s c.x (fun p => { p with wait := .results }))) := by
  have hrun : exec (.tsr f) s = execTsr f s := rfl
  rw [execTsr, runWord_sForm h, if_pos (by simp [hr])] at hrun
  exact hrun

/-! ### `xfence` -/

theorem mem_pathsOf {m k : Nat} : k ∈ pathsOf m ↔ k < 6 ∧ m.testBit k = true := by
  simp [pathsOf, Nat.testBit_eq_decide_div_mod_eq]

/-- A path of the BEFORE mask is a bit of the word. -/
theorem mem_beforePaths (f : SF) {k : Nat} : k ∈ pathsOf (f.imm.toNat % 64) ↔ k < 6 ∧ f.imm.getLsbD k = true := by
  rw [mem_pathsOf, show (64 : Nat) = 2 ^ 6 from rfl, Nat.testBit_mod_two_pow]
  simp only [Bool.and_eq_true, decide_eq_true_eq, BitVec.getLsbD]
  tauto

/-- No line is cleaned where none is named. -/
theorem cleanTower_nil (s : State) (tower : Nat) : cleanTower s tower [] = s := by
  unfold cleanTower cleanWays
  rw [List.filter_eq_nil_iff.mpr (by simp)]
  rfl

/-- What a write in the memory order was does not change as others come to read it. -/
def PastWrite.what (e : PastWrite) : Nat × Nat × Nat × List (Option Byte) := (e.id, e.part, e.addr, e.old)

theorem what_publish (e : PastWrite) (path scope t : Nat) (x : Option SplitId) : (e.publish path scope t x).what = e.what := by
  unfold PastWrite.publish
  split <;> rfl

theorem publishPaths_past (s : State) (x : SplitId) (before after scope : Nat) :
    (publishPaths s x before after scope).past.map PastWrite.what = s.past.map PastWrite.what := by
  unfold publishPaths
  simp only [List.map_map]
  refine List.map_congr_left fun e _ => ?_
  simp only [Function.comp_apply]
  split
  · exact List.foldlRecOn (motive := fun u => u.what = e.what) _ _ rfl fun u hu k _ => (what_publish u _ _ _ _).trans hu
  · rfl

theorem exec_xfence {f : SF} (h : Issues s c (.xfence f)) (hw : c.p.wait = .none) :
    exec (.xfence f) s = .next (finish s c f.mark (xfenceWait s c f ((pathsOf (f.imm.toNat % 64)).map (fun k => (k, pathOf c.g k)))
      (linesHome s c.w.column (f.imm.toNat % 64) (f.imm.toNat / 256 % 64)))) := by
  have hrun : exec (.xfence f) s = execXfence f s := rfl
  rw [execXfence, runWord_sForm h, hw] at hrun
  simpa [field] using hrun

theorem xfence_completes {f : SF} (h : Issues s c (.xfence f)) (hw : c.p.wait = .none)
    (hz : ∀ k, k < 6 → f.imm.getLsbD k = true → pathOf c.g k = 0)
    (hl : linesHome s c.w.column (f.imm.toNat % 64) (f.imm.toNat / 256 % 64) = []) :
    ∃ t, exec (.xfence f) s = .next t ∧ Ran { s with past := t.past } t c [] [] ∧
      t.past.map (fun e => (e.id, e.part, e.addr, e.old)) = s.past.map (fun e => (e.id, e.part, e.addr, e.old)) := by
  have hc := (issuing_some h.1).2
  have hx : xfenceWait s c f ((pathsOf (f.imm.toNat % 64)).map (fun k => (k, pathOf c.g k))) [] =
      .done (publishPaths s c.x (field f.imm 0 6) (field f.imm 8 6) f.fn.toNat) .next := by
    have hcounts : ((pathsOf (f.imm.toNat % 64)).map (fun k => (k, pathOf c.g k))).all (fun e => e.2 == 0) = true := by
      rw [List.all_map, List.all_eq_true]
      intro k hk
      obtain ⟨h6, hb⟩ := (mem_beforePaths f).mp hk
      simpa using hz k h6 hb
    unfold xfenceWait
    simp only [hcounts, Bool.not_true, Bool.false_eq_true, if_false, List.filter_nil, List.isEmpty_nil, cleanTower_nil]
    rw [if_neg (by simp [bytesUnderWay])]
  have hrun := exec_xfence h hw
  rw [hl, hx] at hrun
  refine ⟨_, hrun, ?_, publishPaths_past s c.x _ _ _⟩
  exact ran_next (s := publishPaths s c.x (field f.imm 0 6) (field f.imm 8 6) f.fn.toNat) hc f.mark

theorem xfence_waits {f : SF} (h : Issues s c (.xfence f)) (hw : c.p.wait = .none) (hn : ∃ k, k < 6 ∧ f.imm.getLsbD k = true ∧ pathOf c.g k ≠ 0) :
    exec (.xfence f) s = .next (endIssue (modSplit s c.x (fun p => { p with
      wait := .xfence ((pathsOf (f.imm.toNat % 64)).map (fun k => (k, pathOf c.g k)))
        (linesHome s c.w.column (f.imm.toNat % 64) (f.imm.toNat / 256 % 64)), boundary := false }))) := by
  obtain ⟨k, h6, hb, hk⟩ := hn
  have hcounts : ((pathsOf (f.imm.toNat % 64)).map (fun k => (k, pathOf c.g k))).all (fun e => e.2 == 0) = false := by
    rw [List.all_map, List.all_eq_false]
    exact ⟨k, (mem_beforePaths f).mpr ⟨h6, hb⟩, by simpa using hk⟩
  rw [exec_xfence h hw]
  unfold xfenceWait
  simp only [hcounts, Bool.not_false, if_true]
  rfl

end

/-! ### `fence` -/

/-- The loads before a fence of kind 0, 1 or 3 become acquires. -/
def fencedFlights (s : State) (c : Ctx) (kind scope : Nat) : State :=
  if kind = 2 then s
  else { s with flights := s.flights.map (fun g => if (pruneSplit s c.p).hist.any (fun h => h.flight == g.id) then fencedLoad g scope else g) }

/-- A fence stands in the split's program order. -/
def fencedSplit (s : State) (kind scope : Nat) (p : Split) : Split :=
  let q := pruneSplit s p
  let fl := if kind = 2 then q.floors else joinFloors q.floors q.sfloors scope
  { q with hist := q.hist.map (fun h => h.fence kind scope), floors := if kind = 3 then raiseFloors fl scope (stampOf s) else fl,
           relFence := if kind = 1 then q.relFence else max q.relFence scope }

/-- The state once a `fence` has stood. -/
def fenced (s : State) (c : Ctx) (kind scope : Nat) : State := modSplit (fencedFlights s c kind scope) c.x (fencedSplit s kind scope)

theorem floorOf_raiseFloors (fl : List Nat) (scope t : Nat) {k : Nat} (h1 : 1 ≤ k) (h2 : k ≤ 6) :
    floorOf (raiseFloors fl scope t) k = if k ≤ scope then max (floorOf fl k) t else floorOf fl k := by
  have hk : k - 1 < 6 := by omega
  have hs : k - 1 < scope ↔ k ≤ scope := by omega
  simp [floorOf, raiseFloors, hk, hs]

theorem floorOf_joinFloors (fl gl : List Nat) (scope : Nat) {k : Nat} (h1 : 1 ≤ k) (h2 : k ≤ 6) :
    floorOf (joinFloors fl gl scope) k = if k ≤ scope then max (floorOf fl k) (floorOf gl k) else floorOf fl k := by
  have hk : k - 1 < 6 := by omega
  have hs : k - 1 < scope ↔ k ≤ scope := by omega
  simp [floorOf, joinFloors, hk, hs]

/-- A fence is among those of an access it stands behind. -/
theorem mem_fences_fence (h : HistItem) (kind scope : Nat) : ∃ e ∈ (h.fence kind scope).fences, e.1 = kind ∧ scope ≤ e.2 := by
  unfold HistItem.fence
  by_cases ha : h.fences.any (fun e => e.1 == kind) = true
  · obtain ⟨e, he, hk⟩ := List.any_eq_true.mp ha
    rw [if_pos ha]
    exact ⟨_, List.mem_map_of_mem he, by rw [if_pos (by simpa using hk)], by rw [if_pos (by simpa using hk)]; exact Nat.le_max_right _ _⟩
  · rw [if_neg ha]
    exact ⟨(kind, scope), by simp, rfl, Nat.le_refl _⟩

section
variable {s : State} {c : Ctx} {kind scope : Nat}

theorem undisturbed_fencedFlights (s : State) (c : Ctx) (kind scope : Nat) : Undisturbed s (fencedFlights s c kind scope) := by
  unfold fencedFlights
  split
  · exact .refl s
  · exact .of_eq

theorem undisturbed_fenced (s : State) (c : Ctx) (kind scope : Nat) : Undisturbed s (fenced s c kind scope) :=
  (undisturbed_fencedFlights s c kind scope).trans (.modSplit _ _ _)

theorem exec_fence {f : SF} (h : Issues s c (.fence f)) :
    exec (.fence f) s = .next (settle (fenced s c (f.imm.toNat % 4) f.fn.toNat) c f.mark .next) := by
  have hrun : exec (.fence f) s = execFence f s := rfl
  have hk : field f.imm 0 2 = f.imm.toNat % 4 := by simp [field]
  rw [execFence, runWord_sForm h] at hrun
  simp only [hk] at hrun
  exact hrun

theorem splitFind_fencedFlights (y : SplitId) : splitFind (fencedFlights s c kind scope) y = splitFind s y := by
  unfold fencedFlights
  split <;> rfl

theorem splitFind_fenced (hc : ctxOf s c.x = some c) : splitFind (fenced s c kind scope) c.x = some (fencedSplit s kind scope c.p) := by
  rw [fenced, splitFind_modSplit, if_pos rfl, splitFind_fencedFlights, ctxOf_splitFind hc]
  rfl

theorem splitFind_fenced_other {y : SplitId} (hy : y ≠ c.x) : splitFind (fenced s c kind scope) y = splitFind s y := by
  rw [fenced, splitFind_modSplit, if_neg hy, splitFind_fencedFlights]

theorem fenced_bare (s : State) (c : Ctx) (kind scope : Nat) :
    { fenced s c kind scope with wgs := [], flights := [] } = { s with wgs := [], flights := [] } := by
  unfold fenced fencedFlights
  split <;> rfl

theorem fencedLoad_bare (g : Flight) (scope : Nat) : { fencedLoad g scope with acquire := 0 } = { g with acquire := 0 } := by
  unfold fencedLoad
  split <;> rfl

theorem fencedLoad_acquire {g : Flight} (h : g.parts.any (fun q => q.op.loads && strongOf g q != 0) = true) (scope : Nat) :
    min scope g.strong ≤ (fencedLoad g scope).acquire := by
  rw [fencedLoad, if_pos h]
  exact Nat.le_max_right _ _

theorem fencedFlights_bare (s : State) (c : Ctx) (kind scope : Nat) :
    (fencedFlights s c kind scope).flights.map (fun g => { g with acquire := 0 }) = s.flights.map (fun g => { g with acquire := 0 }) := by
  unfold fencedFlights
  split
  · rfl
  · rw [List.map_map]
    refine List.map_congr_left fun g _ => ?_
    simp only [Function.comp_apply]
    split
    · exact fencedLoad_bare g scope
    · rfl

/-- A strong load before the fence is an acquire. -/
theorem fencedFlights_acquire (hk : kind ≠ 2) {h : HistItem} (hh : h ∈ c.p.hist) (ho : h.open_ s = true) {g : Flight} (hg : g ∈ s.flights) (hid : g.id = h.flight)
    (hl : g.parts.any (fun q => q.op.loads && strongOf g q != 0) = true) :
    ∃ u ∈ (fencedFlights s c kind scope).flights, u.id = g.id ∧ min scope g.strong ≤ u.acquire := by
  have hb : (pruneSplit s c.p).hist.any (fun h => h.flight == g.id) = true :=
    List.any_eq_true.mpr ⟨h, List.mem_filter.mpr ⟨hh, ho⟩, by simp [hid]⟩
  have hu : fencedLoad g scope ∈ (fencedFlights s c kind scope).flights := by
    rw [fencedFlights, if_neg hk]
    exact List.mem_map.mpr ⟨g, hg, if_pos hb⟩
  exact ⟨_, hu, (congrArg Flight.id (fencedLoad_bare g scope) :), fencedLoad_acquire hl scope⟩

/-- The split's own program order and floors behind the fence. -/
theorem fencedSplit_orders (s : State) (kind scope : Nat) (p : Split) :
    (∀ h ∈ p.hist, h.open_ s = true → ∃ i ∈ (fencedSplit s kind scope p).hist, i.flight = h.flight ∧ ∃ e ∈ i.fences, e.1 = kind ∧ scope ≤ e.2) ∧
    (kind ≠ 2 → ∀ k, 1 ≤ k → k ≤ scope → k ≤ 6 → floorOf p.sfloors k ≤ floorOf (fencedSplit s kind scope p).floors k) ∧
    (kind ≠ 1 → scope ≤ (fencedSplit s kind scope p).relFence) ∧
    (kind = 3 → ∀ k, 1 ≤ k → k ≤ scope → k ≤ 6 → stampOf s ≤ floorOf (fencedSplit s kind scope p).floors k) := by
  refine ⟨fun h hh ho => ?_, fun hk k h1 h2 h6 => ?_, fun hk => ?_, fun hk k h1 h2 h6 => ?_⟩
  · exact ⟨h.fence kind scope, List.mem_map_of_mem (List.mem_filter.mpr ⟨hh, ho⟩), rfl, mem_fences_fence h kind scope⟩
  · have hj : floorOf p.sfloors k ≤ floorOf (joinFloors (pruneSplit s p).floors p.sfloors scope) k := by
      rw [floorOf_joinFloors _ _ _ h1 h6, if_pos h2]
      exact Nat.le_max_right _ _
    simp only [fencedSplit, if_neg hk]
    split
    · rw [floorOf_raiseFloors _ _ _ h1 h6, if_pos h2]
      exact hj.trans (Nat.le_max_left _ _)
    · exact hj
  · simp only [fencedSplit, if_neg hk]
    exact Nat.le_max_right _ _
  · simp only [fencedSplit, if_pos hk]
    rw [floorOf_raiseFloors _ _ _ h1 h6, if_pos h2]
    exact Nat.le_max_right _ _

end

/-! ### `bar` -/

/-- A change of every split of a workgroup. -/
def mapSplits (s : State) (wg : Nat) (f : Split → Split) : State :=
  modWg s wg (fun w => { w with groups := w.groups.map (fun g => { g with splits := g.splits.map f }) })

section
variable (s : State) (wg : Nat) (f : Split → Split)

theorem wgFind_mapSplits (id : Nat) : wgFind (mapSplits s wg f) id =
    if id = wg then (wgFind s id).map (fun w => { w with groups := w.groups.map (fun g => { g with splits := g.splits.map f }) }) else wgFind s id :=
  wgFind_modWg s wg id _ fun _ => by rfl

theorem splitFind_mapSplits (y : SplitId) : splitFind (mapSplits s wg f) y = if y.wg = wg then (splitFind s y).map f else splitFind s y := by
  simp only [splitFind, groupFind, wgFind_mapSplits, groupOf]
  split
  · cases wgFind s y.wg with
    | none => rfl
    | some w =>
      simp only [Option.map_some, Option.bind_some, List.getElem?_map]
      cases w.groups[y.grp]? with
      | none => rfl
      | some g => simp
  · rfl

/-- A change that leaves the scalars leaves every register. -/
theorem held_mapSplits (hf : ∀ p, (f p).scalars = p.scalars) (y : SplitId) (r : RegRef) : held (mapSplits s wg f) y r = held s y r := by
  have reg : ∀ (g : Group) (p : Split) (k : Core) l, regIn { g with splits := l } (f p) k r = regIn g p k r := by
    intro g p k l
    cases r <;> simp [regIn, hf]
  rw [held_eq, held_eq, wgFind_mapSplits]
  split
  · cases wgFind s y.wg with
    | none => rfl
    | some w =>
      simp only [Option.map_some, Option.bind_some, List.getElem?_map]
      cases w.groups[y.grp]? with
      | none => rfl
      | some g =>
        simp only [Option.map_some, Option.bind_some, List.getElem?_map]
        cases g.splits[y.slot]? with
        | none => rfl
        | some p => simp only [Option.map_some, Option.bind_some, reg]; rfl
  · rfl

end

/-- What becomes of a split when every group has arrived. -/
def letThrough (before : List HistItem) (now : Nat) (p : Split) : Split := if p.inBar then p.throughBar before now else p

theorem barrierCheck_eq {s : State} {wg : Nat} {w : Workgroup} (hw : wgFind s wg = some w) :
    barrierCheck s wg = if w.groups.all Group.atBarrier = true then mapSplits s wg (letThrough (openAccesses s wg) (stampOf s)) else s := by
  unfold barrierCheck
  rw [hw]
  dsimp only
  cases w.groups.all Group.atBarrier <;> rfl

section
variable (before : List HistItem) (now : Nat) (p : Split)

theorem letThrough_kept : (letThrough before now p).pc = p.pc ∧ (letThrough before now p).loops = p.loops ∧ (letThrough before now p).scalars = p.scalars := by
  unfold letThrough
  split <;> exact ⟨rfl, rfl, rfl⟩

theorem letThrough_outside (h : p.inBar = false) : letThrough before now p = p := if_neg (by simp [h])

theorem letThrough_parked {since : Nat} (h : p.state = .parked .bar since) :
    (letThrough before now p).state = .running ∧ ∀ k, k = 1 ∨ k = 2 → now ≤ floorOf (letThrough before now p).floors k := by
  have hin : p.inBar = true := by simp [Split.inBar, h]
  rw [letThrough, if_pos hin]
  refine ⟨by simp [Split.throughBar, h], fun k hk => ?_⟩
  show now ≤ floorOf (raiseFloors p.floors 2 now) k
  rw [floorOf_raiseFloors _ _ _ (by omega) (by omega), if_pos (by omega)]
  exact Nat.le_max_right _ _

theorem letThrough_out (h : p.inBar = true) : (letThrough before now p).inBar = false := by
  rw [letThrough, if_pos h]
  unfold Split.inBar Split.throughBar
  cases p.state with
  | parked why since => cases why <;> rfl
  | _ => rfl

end

section
variable {s : State} {c : Ctx}

/-- The split has arrived at the barrier. -/
def arriveBar (s : State) (c : Ctx) : State := modSplit s c.x (fun p => { p with state := .parked .bar (cycleOf s c) })

/-- Every group of the workgroup has arrived once this split has. -/
def AllArrived (c : Ctx) : Prop :=
  ∀ k g, c.w.groups[k]? = some g → g.ended = true ∨ ∀ m q, g.splits[m]? = some q → q.live = false ∨ (k = c.x.grp ∧ m = c.x.slot) ∨ q.inBar = true

theorem exec_bar {f : SF} (h : Issues s c (.bar f)) : exec (.bar f) s = .next (settle (barrierCheck (arriveBar s c) c.x.wg) c f.mark .next) := by
  have hrun : exec (.bar f) s = execBar f s := rfl
  rw [execBar, runWord_sForm h] at hrun
  exact hrun

theorem held_arriveBar (s : State) (c : Ctx) (y : SplitId) (r : RegRef) : held (arriveBar s c) y r = held s y r :=
  held_modGroup_same s (groupOf c.x) _ y r fun _ gr k => by
    rw [getElem?_modAt]
    split <;> cases gr.splits[y.slot]? with
    | none => rfl
    | some p => cases r <;> rfl

theorem wgFind_arriveBar (hc : ctxOf s c.x = some c) : wgFind (arriveBar s c) c.x.wg =
    some { c.w with groups := modAt c.w.groups c.x.grp (fun g => { g with splits := modAt g.splits c.x.slot (fun p => { p with state := .parked .bar (cycleOf s c) }) }) } := by
  refine (wgFind_modGroup s (groupOf c.x) c.x.wg _).trans ?_
  rw [if_pos (by rfl), ctxOf_wgFind hc]; rfl

theorem all_iff_getElem? {α : Type} (l : List α) (p : α → Bool) : l.all p = true ↔ ∀ (k : Nat) (a : α), l[k]? = some a → p a = true := by
  rw [List.all_eq_true]
  refine ⟨fun h k a ha => h a (List.mem_of_getElem? ha), fun h a ha => ?_⟩
  obtain ⟨k, hk⟩ := List.mem_iff_getElem?.mp ha
  exact h k a hk

/-- A group is at the barrier where its live splits are. -/
theorem atBarrier_iff (g : Group) :
    g.atBarrier = true ↔ g.ended = true ∨ ∀ (m : Nat) (q : Split), g.splits[m]? = some q → q.live = false ∨ q.inBar = true := by
  simp only [Group.atBarrier, Bool.or_eq_true, all_iff_getElem?, Bool.not_eq_true']

/-- A group whose split `slot` has arrived. -/
theorem atBarrier_arrived (g : Group) (slot t : Nat) :
    Group.atBarrier { g with splits := modAt g.splits slot (fun p => { p with state := .parked .bar t }) } = true ↔
      g.ended = true ∨ ∀ (m : Nat) (q : Split), g.splits[m]? = some q → q.live = false ∨ m = slot ∨ q.inBar = true := by
  rw [atBarrier_iff]
  refine or_congr_right (forall_congr' fun m => ?_)
  simp only [getElem?_modAt]
  by_cases hm : m = slot
  · simp only [hm, if_true, true_or, or_true, implies_true, iff_true]
    intro q hq
    obtain ⟨p, -, rfl⟩ := Option.map_eq_some_iff.mp hq
    exact .inr rfl
  · simp only [hm, if_false, false_or]

theorem arrived_iff (t : Nat) :
    (modAt c.w.groups c.x.grp (fun g => { g with splits := modAt g.splits c.x.slot (fun p => { p with state := .parked .bar t }) })).all Group.atBarrier = true ↔
      AllArrived c := by
  rw [all_iff_getElem?]
  refine forall_congr' fun k => ?_
  simp only [getElem?_modAt]
  by_cases hk : k = c.x.grp
  · simp only [hk, if_true, true_and]
    cases c.w.groups[c.x.grp]? with
    | none => simp
    | some g => simpa using atBarrier_arrived g c.x.slot t
  · simp only [hk, if_false, false_and, false_or, atBarrier_iff]

theorem splitFind_settle_same (u : State) (c : Ctx) (mark : Bool) (go : Go) :
    splitFind (settle u c mark go) c.x = (splitFind u c.x).map (fun p => advance p c.p.pc mark go (columnOf u c.w.column).cycle) :=
  (splitFind_modSplit u c.x c.x _).trans (if_pos rfl)

theorem splitFind_settle_other (u : State) (c : Ctx) (mark : Bool) (go : Go) {y : SplitId} (hy : y ≠ c.x) :
    splitFind (settle u c mark go) y = splitFind u y :=
  (splitFind_modSplit u c.x y _).trans (if_neg hy)

theorem wgFind_settle_other (u : State) (c : Ctx) (mark : Bool) (go : Go) {id : Nat} (h : id ≠ c.x.wg) : wgFind (settle u c mark go) id = wgFind u id :=
  (wgFind_modGroup u (groupOf c.x) id _).trans (if_neg h)

theorem wgFind_arriveBar_other {id : Nat} (h : id ≠ c.x.wg) : wgFind (arriveBar s c) id = wgFind s id :=
  (wgFind_modGroup s (groupOf c.x) id _).trans (if_neg h)

/-- A word whose effect lies in the workgroups leaves the rest of the device. -/
theorem settle_bare {s u : State} (h : { u with wgs := [] } = { s with wgs := [] }) (c : Ctx) (mark : Bool) (go : Go) :
    { settle u c mark go with wgs := [], draw := 0 } = { s with wgs := [], draw := 0, issue := none } :=
  congrArg (fun u : State => { u with draw := 0, issue := none }) h

theorem settle_fenced_bare {s u : State} (h : { u with wgs := [], flights := [] } = { s with wgs := [], flights := [] }) (c : Ctx) (mark : Bool) (go : Go) :
    { settle u c mark go with wgs := [], flights := [], draw := 0 } = { s with wgs := [], flights := [], draw := 0, issue := none } :=
  congrArg (fun u : State => { u with draw := 0, issue := none }) h

/-- The state once the barrier has been looked at. -/
theorem barrier_arriveBar (hc : ctxOf s c.x = some c) :
    (AllArrived c → barrierCheck (arriveBar s c) c.x.wg = mapSplits (arriveBar s c) c.x.wg (letThrough (openAccesses s c.x.wg) (stampOf s))) ∧
      (¬ AllArrived c → barrierCheck (arriveBar s c) c.x.wg = arriveBar s c) := by
  rw [barrierCheck_eq (wgFind_arriveBar hc)]
  exact ⟨fun ha => if_pos ((arrived_iff _).mpr ha), fun ha => if_neg fun h => ha ((arrived_iff _).mp h)⟩

theorem splitFind_arriveBar (hc : ctxOf s c.x = some c) : splitFind (arriveBar s c) c.x = some { c.p with state := .parked .bar (cycleOf s c) } := by
  rw [arriveBar, splitFind_modSplit, if_pos rfl, ctxOf_splitFind hc]
  rfl

theorem splitFind_arriveBar_other {y : SplitId} (hy : y ≠ c.x) : splitFind (arriveBar s c) y = splitFind s y := by
  rw [arriveBar, splitFind_modSplit, if_neg hy]

/-- A split that finds its workgroup still on the way waits. -/
theorem bar_waits {f : SF} (h : Issues s c (.bar f)) (ha : ¬ AllArrived c) :
    ∃ t p, exec (.bar f) s = .next t ∧ splitFind t c.x = some p ∧ p.pc = (loopUpdate c.p.loops c.p.pc).2 ∧ KeepsRegs s t c.x [] ∧ t.issue = none ∧
      { t with wgs := [], draw := 0 } = { s with wgs := [], draw := 0, issue := none } ∧ (∀ id, id ≠ c.x.wg → wgFind t id = wgFind s id) ∧
      p.state = .parked .bar (cycleOf s c) ∧ ∀ y, y ≠ c.x → splitFind t y = splitFind s y := by
  have hc := (issuing_some h.1).2
  have hrun := exec_bar h
  rw [(barrier_arriveBar hc).2 ha] at hrun
  refine ⟨_, _, hrun, (splitFind_settle_same _ _ _ _).trans (congrArg _ (splitFind_arriveBar hc)), rfl,
    fun y r _ => (held_settle _ _ _ _ y r).trans (held_arriveBar s c y r), rfl, settle_bare rfl c f.mark .next, fun id hid => ?_, rfl,
    fun y hy => (splitFind_settle_other _ _ _ _ hy).trans (splitFind_arriveBar_other hy)⟩
  exact (wgFind_settle_other _ _ _ _ hid).trans (wgFind_arriveBar_other hid)

/-- A change of the splits of the workgroup, once the split has arrived. -/
theorem bar_frame (hc : ctxOf s c.x = some c) {F : Split → Split} (hF : ∀ p, (F p).pc = p.pc ∧ (F p).loops = p.loops ∧ (F p).scalars = p.scalars) (mark : Bool) :
    let t := settle (mapSplits (arriveBar s c) c.x.wg F) c mark .next
    splitFind t c.x = some (advance (F { c.p with state := .parked .bar (cycleOf s c) }) c.p.pc mark .next (columnOf s c.w.column).cycle) ∧
      KeepsRegs s t c.x [] ∧ { t with wgs := [], draw := 0 } = { s with wgs := [], draw := 0, issue := none } ∧
      (∀ id, id ≠ c.x.wg → wgFind t id = wgFind s id) ∧
      ∀ y q, y.wg = c.x.wg → y ≠ c.x → splitFind s y = some q → splitFind t y = some (F q) := by
  intro t
  have hbare : { mapSplits (arriveBar s c) c.x.wg F with wgs := [] } = { s with wgs := [] } := rfl
  refine ⟨?_, fun y r _ => ?_, settle_bare hbare c mark .next, fun id hid => ?_, fun y q hy hne hq => ?_⟩
  · rw [splitFind_settle_same, splitFind_mapSplits, if_pos rfl, splitFind_arriveBar hc]
    rfl
  · exact (held_settle _ _ _ _ y r).trans ((held_mapSplits _ _ _ (fun p => (hF p).2.2) y r).trans (held_arriveBar s c y r))
  · rw [wgFind_settle_other _ _ _ _ hid, wgFind_mapSplits, if_neg hid, wgFind_arriveBar_other hid]
  · rw [splitFind_settle_other _ _ _ _ hne, splitFind_mapSplits, if_pos hy, splitFind_arriveBar_other hne, hq]
    rfl

/-- The last split to arrive lets every split through. -/
theorem bar_lets {f : SF} (h : Issues s c (.bar f)) (ha : AllArrived c) :
    ∃ t p, exec (.bar f) s = .next t ∧ splitFind t c.x = some p ∧ p.pc = (loopUpdate c.p.loops c.p.pc).2 ∧ KeepsRegs s t c.x [] ∧ t.issue = none ∧
      { t with wgs := [], draw := 0 } = { s with wgs := [], draw := 0, issue := none } ∧ (∀ id, id ≠ c.x.wg → wgFind t id = wgFind s id) ∧
      p.state = .running ∧ (∀ k, k = 1 ∨ k = 2 → stampOf s ≤ floorOf p.floors k) ∧
      ∀ y q, y.wg = c.x.wg → y ≠ c.x → splitFind s y = some q → ∃ r, splitFind t y = some r ∧ r.pc = q.pc ∧ r.scalars = q.scalars ∧
        (q.inBar = false → r = q) ∧ (∀ since, q.state = .parked .bar since → r.state = .running) ∧ (q.inBar = true → r.inBar = false) := by
  have hc := (issuing_some h.1).2
  have hrun := exec_bar h
  rw [(barrier_arriveBar hc).1 ha] at hrun
  have hkept := letThrough_kept (openAccesses s c.x.wg) (stampOf s)
  obtain ⟨hp, hregs, hbare, hwg, hothers⟩ := bar_frame hc hkept f.mark
  obtain ⟨hrunning, hfloors⟩ := letThrough_parked (openAccesses s c.x.wg) (stampOf s) { c.p with state := .parked .bar (cycleOf s c) } rfl
  refine ⟨_, _, hrun, hp, ?_, hregs, rfl, hbare, hwg, hrunning, hfloors, fun y q hy hne hq => ⟨_, hothers y q hy hne hq, ?_⟩⟩
  · exact congrArg (fun l => (loopUpdate l c.p.pc).2) (hkept _).2.1
  · exact ⟨(hkept q).1, (hkept q).2.2, letThrough_outside _ _ q, fun since hst => (letThrough_parked _ _ q hst).1, letThrough_out _ _ q⟩

end

/-- What a `fence` leaves of its split, of the flights before it, and of everything else. -/
theorem fence_stands {s : State} {c : Ctx} {f : SF} (h : Issues s c (.fence f)) :
    let kind := f.imm.toNat % 4
    let scope := f.fn.toNat
    ∃ t p, exec (.fence f) s = .next t ∧ splitFind t c.x = some p ∧ p.pc = (loopUpdate c.p.loops c.p.pc).2 ∧ KeepsRegs s t c.x [] ∧
      { t with wgs := [], flights := [], draw := 0 } = { s with wgs := [], flights := [], draw := 0, issue := none } ∧
      (∀ y, y ≠ c.x → splitFind t y = splitFind s y) ∧
      t.flights.map (fun g => { g with acquire := 0 }) = s.flights.map (fun g => { g with acquire := 0 }) ∧
      (∀ h ∈ c.p.hist, h.open_ s = true → ∃ i ∈ p.hist, i.flight = h.flight ∧ ∃ e ∈ i.fences, e.1 = kind ∧ scope ≤ e.2) ∧
      (kind ≠ 2 → (∀ k, 1 ≤ k → k ≤ scope → k ≤ 6 → floorOf c.p.sfloors k ≤ floorOf p.floors k) ∧
        ∀ h ∈ c.p.hist, h.open_ s = true → ∀ g ∈ s.flights, g.id = h.flight → g.parts.any (fun q => q.op.loads && strongOf g q != 0) = true →
          ∃ u ∈ t.flights, u.id = g.id ∧ min scope g.strong ≤ u.acquire) ∧
      (kind ≠ 1 → scope ≤ p.relFence) ∧ (kind = 3 → ∀ k, 1 ≤ k → k ≤ scope → k ≤ 6 → stampOf s ≤ floorOf p.floors k) := by
  intro kind scope
  have hc := (issuing_some h.1).2
  have hflights : (settle (fenced s c kind scope) c f.mark .next).flights = (fencedFlights s c kind scope).flights := rfl
  obtain ⟨hregs, -, -⟩ := (undisturbed_fenced s c kind scope).settled hc f.mark
  obtain ⟨hhist, hsf, hrel, hsc⟩ := fencedSplit_orders s kind scope c.p
  refine ⟨_, _, exec_fence h, (splitFind_settle_same _ _ _ _).trans (congrArg _ (splitFind_fenced hc)), ?_, hregs,
    settle_fenced_bare (fenced_bare s c kind scope) c f.mark .next,
    fun y hy => (splitFind_settle_other _ _ _ _ hy).trans (splitFind_fenced_other hy), ?_, hhist, fun hk => ⟨hsf hk, fun i hi ho g hg hid hl => ?_⟩, hrel, hsc⟩
  · rfl
  · rw [hflights]; exact fencedFlights_bare s c kind scope
  · rw [hflights]; exact fencedFlights_acquire hk hi ho hg hid hl

/-- Settles O39, word by word: each is an equation for the word's run and what the state of that equation holds. -/
theorem synchronisationWords : Obligations.SynchronisationWords := by
  intro s c
  refine ⟨fun f h _ => ?_, fun f h => ?_, fun f h hw => ⟨fun hz hl => xfence_completes h hw hz hl, xfence_waits h hw⟩, fun f h => ⟨fun hb => ?_, fun hb => ?_⟩,
    fun i f hi h hs hw => ?_, fun f h => ⟨tsr_reads h, tsr_waits h⟩⟩
  · by_cases ha : AllArrived c
    · obtain ⟨t, p, h1, h2, h3, h4, h5, h6, h7, h8⟩ := bar_lets h ha
      exact ⟨t, p, h1, h2, h3, h4, h5, h6, h7, fun hn => absurd ha hn, fun _ => h8⟩
    · obtain ⟨t, p, h1, h2, h3, h4, h5, h6, h7, h8⟩ := bar_waits h ha
      exact ⟨t, p, h1, h2, h3, h4, h5, h6, h7, fun _ => h8, fun hn => absurd hn ha⟩
  · exact fence_stands h
  · have hrun := exec_wait h
    rw [if_pos ((waitMet_iff c f).mpr hb)] at hrun
    exact ⟨_, hrun, ran_next (issuing_some h.1).2 f.mark⟩
  · have hrun := exec_wait h
    rwa [if_neg fun hm => absurd ((waitMet_iff c f).mp hm) (Nat.not_le.mpr hb)] at hrun
  · refine ⟨_, ?_, ran_next (issuing_some h.1).2 f.mark⟩
    rcases hi with rfl | rfl | rfl
    · exact tlbinv_over h hs hw
    · exact tlbinv_over h hs hw
    · exact tlbinv_over h hs hw

end Sys2Proof.Machine

/-! ## O51: a swap of frames that are not those of whole lines -/

namespace Sys2Proof.Machine

/-- No copy of a line is held, and no message is on its way. -/
def NothingHeld (s : State) : Prop := s.lines = [] ∧ s.msgs = []

theorem NothingHeld.clearReservations {s : State} (h : NothingHeld s) (l : Nat) : NothingHeld (clearReservations s l) := h

/-- With nothing held there is nothing to write back. -/
theorem flushLine_nothingHeld {s : State} (h : NothingHeld s) (l : Nat) : NothingHeld (flushLine s l) ∧ (flushLine s l).mem = s.mem := by
  obtain ⟨hl, hm⟩ := h
  simp [NothingHeld, flushLine, requeueLine, hl, hm]

/-- A write-back that is on its way to its line reaches the home. -/
theorem flushLine_sent {s : State} {m : Msg} (hl : s.lines = []) (hm : s.msgs = [m]) (he : m.event = 6) (hmask : m.mask ≠ 0) :
    (flushLine s m.line).mem = Memory.writeN s.mem (lineBase m.line) (blend m.mask m.data (memRead s (lineBase m.line) 128)) := by
  have hput : ∀ bs, (homePut s (lineBase m.line) bs).mem = Memory.writeN s.mem (lineBase m.line) bs := fun bs => by
    unfold homePut noteFormer
    split <;> rfl
  have hmerge : (placeMerge s .home m.line m.mask m.data m.poison).mem =
      Memory.writeN s.mem (lineBase m.line) (blend m.mask m.data (memRead s (lineBase m.line) 128)) := by
    rw [placeMerge, if_neg hmask]
    exact hput _
  simpa [flushLine, requeueLine, hl, hm, he] using hmerge

/-- The lines of a swap's chunks are written back, and none is left in reserve. -/
def flushLines (s : State) (ls : List Nat) : State := ls.foldl (fun s l => clearReservations (flushLine s l) l) s

theorem flushLines_cons (s : State) (l : Nat) (ls : List Nat) : flushLines s (l :: ls) = flushLines (clearReservations (flushLine s l) l) ls := rfl

theorem flushLines_nothingHeld {s : State} (h : NothingHeld s) (ls : List Nat) : (flushLines s ls).mem = s.mem := by
  induction ls generalizing s with
  | nil => rfl
  | cons l ls ih =>
    obtain ⟨h1, h2⟩ := flushLine_nothingHeld h l
    exact (ih (h1.clearReservations l)).trans h2

/-- The lines of two chunks. -/
def chunkLines (a b : Nat) : List Nat := (List.range 32).flatMap (fun k => [lineOf a + k, lineOf b + k])

/-- A byte outside both chunks is what the lines' write-back leaves there. -/
theorem read_exchangeChunks (s : State) {a b n : Nat} (ha : n < a) (hb : n < b) :
    Memory.read (exchangeChunks s a b).mem n = Memory.read (flushLines s (chunkLines a b)).mem n := by
  have e : (exchangeChunks s a b).mem = Memory.writeN (Memory.writeN (flushLines s (chunkLines a b)).mem a (memRead (flushLines s (chunkLines a b)) b 4096)) b
      (memRead (flushLines s (chunkLines a b)) a 4096) := by
    simp only [exchangeChunks, movePast, memWrite, flushLines, chunkLines]
  rw [e, Memory.read_writeN, if_neg (by omega), Memory.read_writeN, if_neg (by omega)]

/-- A swap of two frames, the first of which starts inside line 0. -/
def oddSwap : PageSwap := { id := 0, flight := 0, pteA := 0, pteB := 0, frameA := 1, frameB := 65536, chunks := 2, next := 0, space := 0 }

/-- A write-back of byte 0 of line 0 that is on its way home. -/
def oddMsg : Msg := { id := 0, event := 6, src := .home, dst := .home, line := 0, data := [1], mask := 1, poison := 0, part := none }

/-- The swap begins with the write-back on its way. -/
def oddState : State := { State.reset with swaps := [oddSwap], msgs := [oddMsg] }

theorem oddState_quiet : chunkQuiet oddState 1 65536 = true := rfl

theorem oddState_runs : exec (.pswapChunkExchange 0) oddState =
    .next { exchangeChunks oddState 1 65536 with swaps := [{ oddSwap with next := 1 }] } := by
  have hrun : exec (.pswapChunkExchange 0) oddState = execPswapChunkExchange 0 oddState := rfl
  have hfind : firstWith (fun w => w.id == 0) oddState.swaps = some oddSwap := rfl
  rw [hrun, execPswapChunkExchange, hfind]
  dsimp only
  rw [show oddSwap.frameA + 4096 * oddSwap.next = 1 from rfl, show oddSwap.frameB + 4096 * oddSwap.next = 65536 from rfl, oddState_quiet]
  rfl

/-- Line 0 is flushed for the first chunk, and takes the byte of the write-back. -/
theorem oddState_flushed : NothingHeld (flushLine oddState 0) ∧ Memory.read (flushLine oddState 0).mem 0 = 1 := by
  refine ⟨⟨rfl, rfl⟩, ?_⟩
  have e : (flushLine oddState 0).mem = _ := flushLine_sent (s := oddState) (m := oddMsg) rfl rfl rfl (by decide)
  rw [e, Memory.read_writeN, if_pos (by simp [blend, lineBase, oddMsg])]
  simp [blend, lineBase, oddMsg]

theorem oddState_exchanged : Memory.read (exchangeChunks oddState 1 65536).mem 0 = 1 := by
  obtain ⟨h0, h1⟩ := oddState_flushed
  rw [read_exchangeChunks oddState (by decide) (by decide)]
  obtain ⟨ls, hls⟩ : ∃ ls, chunkLines 1 65536 = 0 :: ls := ⟨_, by rw [chunkLines, List.range_succ_eq_map, List.flatMap_cons]; rfl⟩
  rw [hls, flushLines_cons, flushLines_nothingHeld (h0.clearReservations 0) ls, clearReservations_mem, h1]

/-- Refutes O51, by its clause of `pswap`: the exchange of a chunk first flushes the chunk's lines, so where the chunk starts inside a line, a write-back of
that line that is on its way reaches bytes below the chunk. The statement asks no alignment of `frameA` and `frameB`: with `frameA = 1` and such a message of
line 0, which `chunkQuiet` does not see, byte 0 changes. (The frames of a swap that `execPswap` begins are multiples of 4096; the clause wants that premise.) -/
theorem not_engineEvents : ¬ Obligations.EngineEvents := by
  unfold Obligations.EngineEvents
  intro h
  obtain ⟨-, -, -, -, -, -, -, -, hswap, -⟩ := h oddState
  obtain ⟨t, ht, -, hout⟩ := hswap 0 oddSwap rfl (by decide) (by decide) (by decide) rfl
  rw [oddState_runs] at ht
  have hmem : (exchangeChunks oddState 1 65536).mem = t.mem := by rw [← Host.Outcome.next.inj ht]
  have hbyte := hout 0 (by decide) (by decide)
  rw [← hmem] at hbyte
  have h0 : Memory.read oddState.mem 0 = 0 := rfl
  rw [h0] at hbyte
  exact absurd (oddState_exchanged.symm.trans hbyte) (by decide)

end Sys2Proof.Machine

/-! ## O42: a handle for a scalar whose earlier result is still to come -/

namespace Sys2Proof.Machine

theorem exec_accld (f : EF) (s : State) : exec (.accld f) s = execAccld f s := rfl

theorem putReg_flights (s : State) (x : SplitId) (core : Nat) (r : RegRef) (m : Mask) (v : Image) : (putReg s x core r m v).flights = s.flights := by
  cases r with
  | p n => simp only [putReg]; split <;> rfl
  | s n => simp only [putReg]; split <;> rfl
  | _ => rfl

/-- A write of a scalar marks the destinations of the results that are still to come there (R50). -/
theorem writeS_flights (s : State) (c : Ctx) {n : Nat} (hn : n ≠ 0) (v : Nat) : (writeS s c n v).flights = (clobber s c.x (sref c n) 1).flights := by
  rw [writeS, if_neg hn, writeReg]
  simp only [clobber, putReg_flights, if_true]
  rfl

/-- `accld` of tile 0 from the scratchpad, from byte 0 on in rows of 256 bytes, with a handle in s1. -/
def handleMove : EF := { mark := false, sd := 1, sa := 0, sb := 0, eop := 0, flags := 8 }

/-- s0 reads zero (R32). -/
theorem scalar_zero (c : Ctx) : c.s 0 = 0 := by simp [Ctx.s, sref, readWord]

/-- Row `l` of the move lies at byte 256 l, aligned, and all 96 lie in 24 KB. -/
theorem handleMove_rows (c : Ctx) (hspad : 24576 ≤ c.w.fields.spad) {l : Nat} (hl : l < 96) :
    (((c.s 0).toNat + l * 256) % 2 ^ 32) % 32 = 0 ∧ ((c.s 0).toNat + l * 256) % 2 ^ 32 + 256 ≤ c.w.fields.spad := by
  rw [scalar_zero, show (0 : Word).toNat = 0 from rfl]
  omega

/-- The move writes its handle in s1, and so marks the flights whose destination that is. -/
theorem handleMove_flights {s : State} {c : Ctx} (h : Issues s c (.accld handleMove)) (hpath : PathRoom c 4) (hroom : MatrixRoom s c) (htiles : 0 < c.tiles)
    (hfut : FutureRoom c) (hspad : 24576 ≤ c.w.fields.spad) :
    ∃ t, exec (.accld handleMove) s = .next t ∧ t.flights = (clobber s c.x (sref c 1) 1).flights := by
  have hrow : ∀ e ∈ (lanesOf c.active).map (fun l => (l, BitVec.ofNat 64 (((c.s 0).toNat + l * 256) % 2 ^ 32))),
      e.2.toNat % 32 = 0 ∧ e.2.toNat + 256 ≤ c.w.fields.spad := by
    intro e he
    obtain ⟨l, hl, rfl⟩ := List.mem_map.mp he
    have hrows := handleMove_rows c hspad ((mem_lanesOf _ _).mp hl).1
    rw [BitVec.toNat_ofNat, Nat.mod_eq_of_lt (lt_trans (Nat.mod_lt _ (by decide)) (by decide : 2 ^ 32 < 2 ^ 64))]
    exact hrows
  rw [exec_accld, execAccld, accMove]
  have htile : indexFault c [.tile (field handleMove.flags 0 3)] = none := by
    simp only [indexFault, show field handleMove.flags 0 3 = 0 from rfl]; exact if_neg (by omega)
  have hneeds : roomFor c { path := some 4, future := handleMove.sd != 0, matrix := true } = true := by
    have hfut' : (c.g.futures.filter (fun f => f.outstanding)).length < 64 := hfut
    have hpath' : pathOf c.g 4 < 255 := hpath
    simp [roomFor, hfut', hpath']
  refine ⟨_, runWord_next h _ _ rfl rfl htile hneeds fun _ => hroom, ?_⟩
  have hgo : ∀ go, scratchAccess c 32 256 false ((lanesOf c.active).map (fun l => (l, BitVec.ofNat 64 (((c.s 0).toNat + l * 256) % 2 ^ 32)))) go = go := fun go =>
    scratchAccess_ok hrow nofun
  refine (congrArg (fun a => (finish s c handleMove.mark a).flights) (hgo _)).trans ?_
  exact writeS_flights _ c (n := 1) one_ne_zero _

/-- A result of the split that has just issued is still to come to s1. -/
def awaitingScalar : State :=
  match issuing State.reset.loaded with
  | some c => laterResult State.reset.loaded c (destScalar c 1 7) 0
  | none => State.reset

/-- The split that waits for s1 may issue the move, and its flight is not marked yet. -/
theorem awaitingScalar_ready : ∃ c, issuing awaitingScalar = some c ∧ c.p.refused = none ∧ pathOf c.g 4 < 255 ∧
    (matrixQueue awaitingScalar c.w.core).length < 8 ∧ 0 < c.tiles ∧ (c.g.futures.filter (fun f => f.outstanding)).length < 64 ∧ 24576 ≤ c.w.fields.spad ∧
    (clobber awaitingScalar c.x (sref c 1) 1).flights.map (fun f => f.dests.map (fun d => d.clobbered)) = [[1]] ∧
    awaitingScalar.flights.map (fun f => f.dests.map (fun d => d.clobbered)) = [[0]] :=
  ⟨_, rfl, rfl, by decide, by decide, by decide, by decide, by decide, rfl, rfl⟩

/-- Refutes O42, by `t.flights = s.flights` in its clause of `accld` and `accst`: SD is written with the handle at once, and a result that is still to come to
that scalar is marked, since its lanes may end with either value (R50). Here a later result of the split's own is in the air to s1 when `accld` takes s1 for
its handle. The clause wants `t.flights` but for such marks (`Flight.rest`), which a write of a scalar keeps (`wrote_writeS`). -/
theorem not_matrixWordsQueue : ¬ Obligations.MatrixWordsQueue := by
  unfold Obligations.MatrixWordsQueue
  intro hall
  obtain ⟨c, hc, href, hpath, hroom, htiles, hfut, hspad, hmarked, hclean⟩ := awaitingScalar_ready
  have h : Issues awaitingScalar c (.accld handleMove) := ⟨hc, href, rfl⟩
  obtain ⟨-, -, hmove⟩ := hall awaitingScalar c _ h hpath hroom
  obtain ⟨hscratch, -⟩ := hmove handleMove false (.inl ⟨rfl, rfl⟩) htiles fun _ => hfut
  obtain ⟨t, -, ht, ⟨-, -, -, -, -, -, -, -, -, -, -, -, hsame, -⟩, -⟩ := hscratch rfl fun l hl _ => handleMove_rows c hspad hl
  obtain ⟨u, hu, hflights⟩ := handleMove_flights h hpath hroom htiles hfut hspad
  obtain rfl : u = t := Host.Outcome.next.inj (hu.symm.trans ht)
  rw [← hflights, hsame, hclean] at hmarked
  exact absurd hmarked (by decide)

end Sys2Proof.Machine

/-! ## O44: entries of the format table -/

namespace Sys2Proof.Machine

theorem exec_fmtset (f : EF) (s : State) : exec (.fmtset f) s = execFmtset f s := rfl
theorem exec_fmtget (f : EF) (s : State) : exec (.fmtget f) s = execFmtget f s := rfl
theorem exec_fmtsetCompletion (id : Nat) (s : State) : exec (.fmtsetCompletion id) s = execFmtsetCompletion id s := rfl
theorem exec_rhold (f : EF) (s : State) : exec (.rhold f) s = execRhold f s := rfl
theorem exec_rdemote (f : EF) (s : State) : exec (.rdemote f) s = execRdemote f s := rfl
theorem exec_rdrop (f : EF) (s : State) : exec (.rdrop f) s = execRdrop f s := rfl

/-- A word of format E that finds room, and that asks nothing of the matrix unit, runs its body. -/
theorem runWord_eForm {s : State} {c : Ctx} {i : Instr} (h : Issues s c i) (f : EF) {needs : Needs} (hr : roomFor c needs = true)
    (hm : needs.matrix = false) (body : State → Ctx → Act) : runWord s (fun _ => eForm i f needs) body = .next (finish s c f.mark (body s c)) :=
  runWord_next h _ body rfl rfl rfl hr fun hn => absurd (hm.symm.trans hn) Bool.false_ne_true

/-! ### The end of a path's flights -/

/-- Flights that leave their path change no region and no byte of memory. -/
theorem retirePath_keeps (n : Nat) (s : State) (g : GroupId) (path : Nat) :
    (retirePath n s g path).regions = s.regions ∧ (retirePath n s g path).mem = s.mem := by
  induction n generalizing s with
  | zero => exact ⟨rfl, rfl⟩
  | succ n ih =>
    unfold retirePath
    split
    · exact ⟨rfl, rfl⟩
    · split
      · exact ih _
      · exact ⟨rfl, rfl⟩

theorem retireFlight_keeps (s : State) (id : Nat) : (retireFlight s id).regions = s.regions ∧ (retireFlight s id).mem = s.mem := by
  unfold retireFlight
  split
  · exact ⟨rfl, rfl⟩
  · split
    · exact retirePath_keeps _ _ _ _
    · split <;> exact ⟨rfl, rfl⟩

/-! ### Entries of the format table (R236) -/

/-- A note of a write that its split has seen whole. -/
theorem seenBy_see_all {e : PastWrite} {x : SplitId} {mask : Nat} (h : e.seen = []) (hm : e.all &&& mask ≠ 0) : (e.see x e.all).seenBy x mask = true := by
  simp [PastWrite.see, PastWrite.seenBy, h, hm]

/-- The newest note of an entry's writes is one that the split has seen: the split reads the entry that its region holds. -/
theorem formatEntry_of_seen {s : State} {d : Ctx} {n : Nat} {past : List PastWrite} {e : PastWrite} (hp : s.past = past ++ [e]) (hh : e.home = none)
    (ha : e.addr = formatSpot d.r.id n) (hs : e.seenBy d.x 3 = true) : formatEntry s d n = d.r.formats.getD n (defaultEntry n) := by
  have hnewest : ((List.range s.past.length).zip s.past).reverse =
      (past.length, e) :: ((List.range past.length).zip past).reverse := by
    rw [hp, List.length_append, List.length_singleton, List.range_succ, List.zip_append (by simp)]
    simp
  unfold formatEntry
  rw [hnewest]
  extract_lets ws own sure
  have hws : ws = (past.length, e) :: (((List.range past.length).zip past).reverse.filter (fun e => e.2.home.isNone && e.2.addr == formatSpot d.r.id n)) := by
    simp only [ws]
    rw [List.filter_cons, if_pos (by simp [hh, ha])]
  have hsure : sure e = true := by simp [sure, hs]
  rw [hws, List.foldl_cons]
  simp only [hsure, Bool.true_or, if_true, Bool.false_eq_true, if_false]
  rw [List.foldl_fixed' (fun w => by simp)]

/-! ### A context after changes of its region, of its group, and at the end of its word -/

theorem regionFind_ctx {s : State} {x : SplitId} {c : Ctx} (h : ctxOf s x = some c) : regionFind s c.r.id = some c.r := by
  obtain ⟨-, -, -, hr, -⟩ := (ctxOf_iff s x c).mp h
  rwa [show c.r.id = c.w.region by simpa using (firstWith_mem hr).2]

theorem ctxOf_modRegion (s : State) (id : Nat) (f : Region → Region) (hf : ∀ r, (f r).id = r.id) (x : SplitId) :
    ctxOf (modRegion s id f) x = (ctxOf s x).map (fun c => { c with r := if c.r.id = id then f c.r else c.r }) := by
  have e : ∀ k, regionFind (modRegion s id f) k = (regionFind s k).map (fun r => if r.id = id then f r else r) := fun k =>
    firstWith_map _ s.regions _ fun r => by split <;> simp [hf]
  unfold ctxOf
  rw [show wgFind (modRegion s id f) x.wg = wgFind s x.wg from rfl]
  cases wgFind s x.wg with
  | none => rfl
  | some w =>
    simp only [e]
    cases w.groups[x.grp]? with
    | none => rfl
    | some g =>
      cases regionFind s w.region with
      | none => rfl
      | some r => cases hp : g.splits[x.slot]? <;> simp [hp, coreOf, modRegion]

/-- A change of a region changes no register. -/
theorem held_modRegion (s : State) (id : Nat) (f : Region → Region) (hf : ∀ r, (f r).id = r.id) (y : SplitId) (r : RegRef) :
    held (modRegion s id f) y r = held s y r := by
  rw [held, held, ctxOf_modRegion s id f hf, Option.map_map]
  rfl

theorem ctxOf_modGroup {s : State} {x : SplitId} {c : Ctx} (h : ctxOf s x = some c) (f : Group → Group) {p : Split} (hp : (f c.g).splits[x.slot]? = some p) :
    ctxOf (modGroup s (groupOf x) f) x = some { c with w := { c.w with groups := modAt c.w.groups x.grp f }, g := f c.g, p := p } := by
  obtain ⟨hx, hw, hg, hr, -, hk, hd⟩ := (ctxOf_iff s x c).mp h
  refine (ctxOf_iff _ _ _).mpr ⟨hx, ?_, ?_, hr, hp, hk, hd⟩
  · rw [wgFind_modGroup, if_pos (by rfl), hw]; rfl
  · simp [getElem?_modAt, hg]

/-- The context of a word's split once the word has issued. -/
theorem ctxOf_settle {u : State} {c d : Ctx} (h : ctxOf u c.x = some d) (hl : d.p.loops = c.p.loops) (mark : Bool) :
    ∃ e, ctxOf (settle u c mark .next) c.x = some e ∧ e.r = d.r ∧ e.g.paths = d.g.paths ∧ e.p.pc = (loopUpdate c.p.loops c.p.pc).2 := by
  obtain ⟨-, -, -, -, hp, -⟩ := (ctxOf_iff u c.x d).mp h
  have hm := ctxOf_modGroup h (fun g => { g with splits := modAt g.splits c.x.slot (fun p => advance p c.p.pc mark .next (columnOf u c.w.column).cycle) })
    (p := advance d.p c.p.pc mark .next (columnOf u c.w.column).cycle) (by simp [getElem?_modAt, hp])
  obtain ⟨hx, hw, hg, hr, hs, hk, -⟩ := (ctxOf_iff _ _ _).mp hm
  refine ⟨_, (ctxOf_iff _ _ { d with w := _, g := _, p := _, draw := u.draw + 1 }).mpr ⟨hx, hw, hg, hr, hs, hk, rfl⟩, rfl, rfl, ?_⟩
  simp [advance, hl]

/-! ### `fmtset` -/

/-- The entry that a word names. -/
def entryNo (f : EF) : Nat := field f.flags 0 4

/-- The value that `fmtset` gives its entry: the default one, or that of its scalar. -/
def newEntry (c : Ctx) (f : EF) : BitVec 16 := if field f.flags 4 1 == 1 then defaultEntry (entryNo f) else BitVec.ofNat 16 (c.s f.sa.toNat).toNat

/-- The value is no entry, so `fmtset` traps. -/
def badEntry (c : Ctx) (f : EF) : Bool := !(field f.flags 4 1 == 1) && (2 ^ 16 ≤ (c.s f.sa.toNat).toNat || !(Entry.ofBits (newEntry c f)).valid)

/-- The bytes that an entry of the region's table holds. -/
def entryBytes (c : Ctx) (n : Nat) : List Byte := bytesOf 2 (c.r.formats.getD n (defaultEntry n)).toNat

/-- The flight of an entry's write, on path st. -/
def entryFlight (s : State) (c : Ctx) (n : Nat) : Flight := { Flight.new s c (.format c.r.id n (numOf (entryBytes c n))) with path := some 1 }

/-- A region with a new entry in its table. -/
def Region.withEntry (r : Region) (n : Nat) (new : BitVec 16) : Region := { r with formats := modAt r.formats n (fun _ => new) }

/-- The device with a new entry in the table of a word's region. -/
def withEntry (s : State) (c : Ctx) (n : Nat) (new : BitVec 16) : State := modRegion s c.r.id (fun r => r.withEntry n new)

@[simp] theorem Region.withEntry_id (r : Region) (n : Nat) (new : BitVec 16) : (r.withEntry n new).id = r.id := rfl
@[simp] theorem Region.withEntry_formats (r : Region) (n : Nat) (new : BitVec 16) : (r.withEntry n new).formats = modAt r.formats n (fun _ => new) := rfl

/-- The table, and a note of what the entry held. -/
def notedEntry (s : State) (c : Ctx) (n : Nat) (new : BitVec 16) : State :=
  noteEngine (withEntry s c n new) s.nextId (groupOf c.x) formatPath c.w.column none [(formatSpot c.r.id n, (entryBytes c n).map some)]

/-- What `fmtset` does: the entry is written, its flight is in the air, and its split has seen the write. -/
def setEntry (s : State) (c : Ctx) (n : Nat) (new : BitVec 16) : State :=
  raisePath { notedEntry s c n new with
    nextId := s.nextId + 1, flights := s.flights ++ [entryFlight s c n],
    past := (notedEntry s c n new).past.map (fun e => if e.id = s.nextId then e.see c.x e.all else e) } (groupOf c.x) 1

section
variable {s : State} {c : Ctx} {f : EF}

theorem entryNo_eq : entryNo f = f.flags.toNat % 16 := field_low f.flags 4

theorem newEntry_eq : newEntry c f = if f.flags.getLsbD 4 = true then defaultEntry (f.flags.toNat % 16) else BitVec.ofNat 16 (c.s f.sa.toNat).toNat := by
  rw [newEntry, field_bit, entryNo_eq]

theorem badEntry_iff : badEntry c f = true ↔ f.flags.getLsbD 4 = false ∧
    (2 ^ 16 ≤ (c.s f.sa.toNat).toNat ∨ (Entry.ofBits (BitVec.ofNat 16 (c.s f.sa.toNat).toNat)).valid = false) := by
  rw [badEntry, newEntry_eq, field_bit]
  cases f.flags.getLsbD 4 <;> simp

theorem fmtset_eq (h : Issues s c (.fmtset f)) (hroom : PathRoom c 1) : exec (.fmtset f) s =
    .next (finish s c f.mark (if badEntry c f then .illegal (.fmtset f) else .done (setEntry s c (entryNo f) (newEntry c f)) .next)) := by
  rw [exec_fmtset, execFmtset, runWord_eForm h f (roomFor_path hroom) rfl]
  rfl

theorem fmtset_traps (h : Issues s c (.fmtset f)) (hroom : PathRoom c 1) (hv : badEntry c f = true) :
    Traps (.fmtset f) s c 1 0 127 (wordOf (.fmtset f)) := by
  rw [Traps, fmtset_eq h hroom, if_pos hv]; rfl

/-- The split of an `fmtset` has seen its write of the entry. -/
theorem setEntry_past (s : State) (c : Ctx) (n : Nat) (new : BitVec 16) : ∃ past e, (setEntry s c n new).past = past ++ [e] ∧ e.home = none ∧
    e.addr = formatSpot c.r.id n ∧ e.seenBy c.x 3 = true := by
  obtain ⟨e, he, hid, hhome, haddr, hseen, hall⟩ : ∃ e, (notedEntry s c n new).past = s.past ++ [e] ∧ e.id = s.nextId ∧ e.home = none ∧
      e.addr = formatSpot c.r.id n ∧ e.seen = [] ∧ e.all = 3 := ⟨_, rfl, rfl, rfl, rfl, rfl, rfl⟩
  refine ⟨s.past.map (fun e => if e.id = s.nextId then e.see c.x e.all else e), e.see c.x e.all, ?_, ?_, ?_, seenBy_see_all hseen (by rw [hall]; decide)⟩
  · have hpast : (setEntry s c n new).past = (notedEntry s c n new).past.map (fun e => if e.id = s.nextId then e.see c.x e.all else e) := rfl
    rw [hpast, he, List.map_append, List.map_singleton, if_pos hid]
  · simp [PastWrite.see, hseen, hhome]
  · simp [PastWrite.see, hseen, haddr]

/-- The context of the split once its `fmtset` has written the entry. -/
theorem ctxOf_setEntry (hc : ctxOf s c.x = some c) (n : Nat) (new : BitVec 16) : ∃ d, ctxOf (setEntry s c n new) c.x = some d ∧
    d.r = c.r.withEntry n new ∧ d.g.paths = modAt c.g.paths 1 (· + 1) ∧ d.p = c.p := by
  have h1 : ctxOf (withEntry s c n new) c.x = some { c with r := c.r.withEntry n new } := by
    rw [withEntry, ctxOf_modRegion _ _ _ (fun r => r.withEntry_id n new), hc, Option.map_some, if_pos rfl]
  obtain ⟨-, -, -, -, hp, -⟩ := (ctxOf_iff _ _ _).mp h1
  refine ⟨_, ctxOf_modGroup (c := { c with r := c.r.withEntry n new }) ?_ _ hp, rfl, rfl, rfl⟩
  exact (ctxOf_congr rfl rfl rfl rfl c.x).trans h1

theorem keepsRegs_setEntry (s : State) (c : Ctx) (n : Nat) (new : BitVec 16) (mark : Bool) :
    KeepsRegs s (settle (setEntry s c n new) c mark .next) c.x [] := by
  intro y r _
  have hraise : Undisturbed (withEntry s c n new) (setEntry s c n new) := Undisturbed.trans .of_eq (.modGroup _ _ _)
  rw [held_settle, hraise.held, withEntry, held_modRegion _ _ _ fun r => r.withEntry_id n new]

/-- `fmtset` with a valid entry. -/
theorem fmtset_writes (h : Issues s c (.fmtset f)) (hroom : PathRoom c 1) (hv : badEntry c f = false) :
    ∃ t r g fl d, exec (.fmtset f) s = .next t ∧ regionFind t c.r.id = some r ∧ r.formats = modAt c.r.formats (entryNo f) (fun _ => newEntry c f) ∧
      groupFind t (groupOf c.x) = some g ∧ g.paths = modAt c.g.paths 1 (· + 1) ∧ t.flights = s.flights ++ [fl] ∧ fl.path = some 1 ∧ fl.dests = [] ∧
      ctxOf t c.x = some d ∧ (entryNo f < c.r.formats.length → formatEntry t d (entryNo f) = newEntry c f) ∧ KeepsRegs s t c.x [] ∧ t.mem = s.mem ∧
      t.issue = none ∧ d.p.pc = (loopUpdate c.p.loops c.p.pc).2 := by
  have hc := (issuing_some h.1).2
  obtain ⟨d, hd, hdr, hdg, hdp⟩ := ctxOf_setEntry hc (entryNo f) (newEntry c f)
  obtain ⟨e, he, her, heg, hpc⟩ := ctxOf_settle hd (congrArg Split.loops hdp) f.mark
  have hr : e.r = c.r.withEntry (entryNo f) (newEntry c f) := her.trans hdr
  refine ⟨settle (setEntry s c (entryNo f) (newEntry c f)) c f.mark .next, e.r, e.g, entryFlight s c (entryNo f), e, ?_, ?_, congrArg Region.formats hr,
    ctxOf_groupFind he, heg.trans hdg, rfl, rfl, rfl, he, fun hn => ?_, keepsRegs_setEntry _ _ _ _ _, rfl, rfl, hpc⟩
  · rw [fmtset_eq h hroom, if_neg (by simp [hv])]; rfl
  · have hid : e.r.id = c.r.id := (congrArg Region.id hr : e.r.id = (c.r.withEntry _ _).id)
    rw [← hid]; exact regionFind_ctx he
  · obtain ⟨past, p, hp, hhome, haddr, hseen⟩ := setEntry_past s c (entryNo f) (newEntry c f)
    rw [formatEntry_of_seen ((settle_past _ _ _ _).trans hp) hhome (by rw [haddr, hr]; rfl) (by rwa [ctxOf_x he]), hr]
    simp only [Region.withEntry_formats, List.getD_eq_getElem?_getD, getElem?_modAt, if_true, List.getElem?_eq_getElem hn, Option.map_some, Option.getD_some]

/-- `fmtget` reads an entry. -/
theorem fmtget_reads (h : Issues s c (.fmtget f)) : ∃ t, exec (.fmtget f) s = .next t ∧
    ScalarGets t c false f.sd.toNat (formatEntry s c (f.flags.toNat % 16)).toNat ∧ Ran s t c (scalarRegs c false f.sd.toNat) [] := by
  have hc := (issuing_some h.1).2
  obtain ⟨hw, hgets⟩ := wrote_writeScalar hc false f.sd.toNat (formatEntry s c (entryNo f)).toNat
  rw [← entryNo_eq]
  refine ⟨_, ?_, scalarGets_settle hgets f.mark .next, ranTo_settle hc hw f.mark .next⟩
  rw [exec_fmtget, execFmtget, runWord_eForm h f (roomFor_none c) rfl]; rfl

end

/-- The end of an entry's write changes no table and no memory. -/
theorem fmtsetCompletion_keeps {s : State} {id : Nat} {f : Flight} {r k old : Nat} (hf : flightFind s id = some f) (hk : f.kind = .format r k old)
    (hw : f.written = false) : ∃ t, exec (.fmtsetCompletion id) s = .next t ∧ t.regions = s.regions ∧ t.mem = s.mem := by
  rw [exec_fmtsetCompletion, execFmtsetCompletion, hf]
  simp only [hk, hw, Bool.false_eq_true, if_false]
  exact ⟨_, rfl, retireFlight_keeps _ id⟩

end Sys2Proof.Machine

/-! ## O44: residency handles -/

namespace Sys2Proof.Machine

/-! ### Lines that leave a slice (R367, R369) -/

/-- The state but for memory, its copies and its accesses. -/
def State.offLine (s : State) : State := { s with mem := [], poison := [], former := [], lines := [], dirs := [], msgs := [], flights := [] }

/-- Steps that each keep what a function of the state shows keep it together. -/
theorem foldl_shows {α β : Type} (F : State → β) (l : List α) (f : State → α → State) (hf : ∀ u a, F (f u a) = F u) (s : State) : F (l.foldl f s) = F s :=
  List.foldlRecOn (motive := fun u : State => F u = F s) l f rfl fun u hu a _ => (hf u a).trans hu

theorem putLine_offLine (s : State) (c : CacheLine) : (putLine s c).offLine = s.offLine := by
  unfold putLine; split
  · rfl
  · split <;> rfl

theorem placeMerge_offLine (s : State) (pl : Agent) (l : Nat) (m : BitVec 128) (data : List Byte) (p : BitVec 4) :
    (placeMerge s pl l m data p).offLine = s.offLine := by
  have hput : ∀ a bs, (homePut s a bs).offLine = s.offLine := fun a bs => by
    unfold homePut noteFormer; split <;> rfl
  unfold placeMerge; split
  · rfl
  · split
    · exact putLine_offLine _ _
    · exact (rfl : _ = (homePut s _ _).offLine).trans (hput _ _)

theorem flushLine_offLine (s : State) (l : Nat) : (flushLine s l).offLine = s.offLine := by
  have merge : ∀ (cs : List CacheLine) (u : State), (cs.foldl (fun s c => placeMerge s .home l c.dirty c.data c.poison) u).offLine = u.offLine :=
    fun cs u => foldl_shows _ cs _ (fun _ _ => placeMerge_offLine _ _ _ _ _ _) u
  exact (merge _ _).trans ((foldl_shows _ _ _ (fun _ _ => placeMerge_offLine _ _ _ _ _ _) _).trans (merge _ _))

theorem leaveWay_offLine (s : State) (tower l : Nat) : (leaveWay s tower l).offLine = s.offLine := by
  unfold leaveWay; split
  · exact placeMerge_offLine _ _ _ _ _ _
  · split
    · exact flushLine_offLine s l
    · rfl

theorem cleanWays_offLine (s : State) (keep : CacheLine → Bool) : (cleanWays s keep).offLine = s.offLine :=
  foldl_shows _ _ _ (fun _ _ => (putLine_offLine _ _).trans (placeMerge_offLine _ _ _ _ _ _)) s

/-! ### Eviction -/

/-- A tag is one of a handle's tensor. -/
def Residency.covers (r : Residency) (e : SliceLine) : Bool := e.space == r.space && r.base.toNat ≤ e.va.toNat && e.va.toNat < r.base.toNat + r.size

/-- A tower whose handle `k` has lost its lines, but for pinned ones. -/
def Tower.evicted (t : Tower) (k : Nat) (r : Residency) : Tower :=
  { t with slices := t.slices.filter (fun e => !r.covers e || e.pinned), handles := Table.modify t.handles k r (fun r => { r with evicted := true }) }

/-- An eviction writes lines back, which leaves all but memory alone, and then changes its tower. -/
theorem evictHandle_found {s : State} {tower k : Nat} {r : Residency} (h : Table.find (towerOf s tower).handles k = some r) :
    ∃ u, u.offLine = s.offLine ∧ evictHandle s tower k = modTower u tower (fun t => t.evicted k r) := by
  unfold evictHandle
  rw [h]
  exact ⟨_, (cleanWays_offLine _ _).trans (foldl_shows _ _ _ (fun _ _ => leaveWay_offLine _ _ _) s), rfl⟩

/-! ### A later result of a change around the split -/

/-- No workgroup, region or core changes, nor the numbers of draws and flights. -/
structure Around (s u : State) : Prop where
  wgs : u.wgs = s.wgs
  regions : u.regions = s.regions
  cores : u.cores = s.cores
  draw : u.draw = s.draw
  nextId : u.nextId = s.nextId

theorem Around.of_offLine {s u : State} (h : u.offLine = s.offLine) : Around s u where
  wgs := (congrArg State.wgs h : u.offLine.wgs = s.offLine.wgs)
  regions := (congrArg State.regions h : u.offLine.regions = s.offLine.regions)
  cores := (congrArg State.cores h : u.offLine.cores = s.offLine.cores)
  draw := (congrArg State.draw h : u.offLine.draw = s.offLine.draw)
  nextId := (congrArg State.nextId h : u.offLine.nextId = s.offLine.nextId)

theorem Around.modTower {s u : State} (h : Around s u) (tower : Nat) (f : Tower → Tower) : Around s (modTower u tower f) :=
  ⟨h.wgs, h.regions, h.cores, h.draw, h.nextId⟩

theorem Around.trans {s t u : State} (h : Around s t) (k : Around t u) : Around s u :=
  ⟨k.wgs.trans h.wgs, k.regions.trans h.regions, k.cores.trans h.cores, k.draw.trans h.draw, k.nextId.trans h.nextId⟩

theorem Around.refl (s : State) : Around s s := ⟨rfl, rfl, rfl, rfl, rfl⟩

theorem Around.ctxOf {s u : State} (h : Around s u) (x : SplitId) : ctxOf u x = ctxOf s x := ctxOf_congr h.wgs h.regions h.cores h.draw x

/-- A word of format E answers in its scalar, later, having changed the device to `u`. -/
def Answers (i : Instr) (f : EF) (s u : State) (c : Ctx) (n : Nat) : Prop :=
  exec i s = .next (settle (laterResult u c (destScalar c f.sd.toNat n) 0) c f.mark .next)

section
variable {s u : State} {c : Ctx} {i : Instr} {f : EF} {n : Nat}

theorem destScalar_clobbered (c : Ctx) (n v : Nat) : ∀ d ∈ destScalar c n v, d.clobbered = 0 := destScalars_clobbered c false n v

/-- A word that only answers. -/
theorem Answers.ran (h : Answers i f s s c n) (hc : ctxOf s c.x = some c) :
    ∃ t, exec i s = .next t ∧ Ran s t c [] [later s c (destScalar c f.sd.toNat n) 0] :=
  ⟨_, h, ranTo_later hc (Wrote.refl s c.x []) f.mark .next _ 0 (destScalar_clobbered c _ _)⟩

/-- A word that answers after a change around its split: its flight alone is new in what the change left, no register changes, and the split goes on. -/
theorem Answers.frame (h : Answers i f s u c n) (hc : ctxOf s c.x = some c) (hu : Around s u) :
    ∃ t fl, exec i s = .next t ∧ t.flights = u.flights ++ [fl] ∧ fl.id = s.nextId ∧ fl.dests = numberedDests c.x (destScalar c f.sd.toNat n) ∧
      t.towers = u.towers ∧ t.mem = u.mem ∧ t.lines = u.lines ∧ KeepsRegs s t c.x [] ∧ t.issue = none ∧
      (splitFind t c.x).map (fun p => p.pc) = some (loopUpdate c.p.loops c.p.pc).2 := by
  obtain ⟨hregs, -, hpc⟩ := (undisturbed_addFlight u _).settled ((hu.ctxOf c.x).trans hc) f.mark
  have hheld : ∀ y r, held u y r = held s y r := fun y r => by rw [held, held, hu.ctxOf]
  exact ⟨_, laterFlight u c (destScalar c f.sd.toNat n) 0, h, rfl, hu.nextId, rfl, rfl, rfl, rfl, fun y r _ => (hregs y r nofun).trans (hheld y r), rfl, hpc⟩

end

/-! ### The words -/

/-- The device with a handle put in the table of a tower. -/
def putHandle (s : State) (tower k : Nat) (r : Residency) : State := modTower s tower (fun t => { t with handles := Table.put t.handles k r })

theorem find_putHandle (s : State) (tower k : Nat) (r : Residency) (j : Nat) :
    Table.find (towerOf (putHandle s tower k r) tower).handles j = if j = k then some r else Table.find (towerOf s tower).handles j := by
  rw [putHandle, towerOf_modTower, if_pos rfl]; exact Table.find_put _ _ _ _

theorem around_putHandle (s : State) (tower k : Nat) (r : Residency) : Around s (putHandle s tower k r) := (Around.refl s).modTower _ _

/-- R238: a range that `rhold` may take. -/
def rangeFits (s : State) (c : Ctx) (f : EF) : Bool :=
  c.pair f.sa.toNat % 128 == 0 && c.pair f.sb.toNat % 128 == 0 && 128 ≤ c.pair f.sb.toNat && c.pair f.sb.toNat ≤ 2 ^ 26 && handleBudget s c.r.id

/-- The generation after that of the handle that stood in its place, 1 to 255 in turn (R237). -/
def nextGen (old : Option Residency) : Nat :=
  match old.map (fun h => h.gen) with
  | none => 1
  | some g => if g = 255 then 1 else g + 1

/-- The handle that `rhold` registers. -/
def registered (s : State) (c : Ctx) (f : EF) (k : Nat) : Residency :=
  { gen := nextGen (Table.find (towerOf s (c.w.column / 48)).handles k), used := true, region := c.r.id, space := c.r.space,
    base := BitVec.ofNat 64 (c.pair f.sa.toNat), size := c.pair f.sb.toNat, prio := field f.flags 0 3, evicted := false }

theorem rangeFits_iff (s : State) (c : Ctx) (f : EF) : rangeFits s c f = true ↔ c.pair f.sa.toNat % 128 = 0 ∧ c.pair f.sb.toNat % 128 = 0 ∧
    128 ≤ c.pair f.sb.toNat ∧ c.pair f.sb.toNat ≤ 2 ^ 26 ∧ handleBudget s c.r.id = true := by
  simp only [rangeFits, Bool.and_eq_true, beq_iff_eq, decide_eq_true_eq, and_assoc]

theorem one_le_nextGen (old : Option Residency) : 1 ≤ nextGen old := by
  cases old with
  | none => exact le_rfl
  | some r => simp only [nextGen, Option.map_some]; split <;> omega

section
variable {s : State} {c : Ctx} {f : EF} {t k : Nat} {r : Residency}

/-- The handle that `rhold` takes, where it takes one. -/
def handleTaken (s : State) (c : Ctx) (f : EF) : Option Nat := if rangeFits s c f then freeHandle (towerOf s (c.w.column / 48)) else none

/-- What `rhold` answers, and what it registers. -/
def rholdAct (s : State) (c : Ctx) (f : EF) : Option Nat → Act
  | none => .done (laterResult s c (destScalar c f.sd.toNat 0) 0) .next
  | some k => .done (laterResult (putHandle s (c.w.column / 48) k (registered s c f k)) c
      (destScalar c f.sd.toNat ((registered s c f k).gen * 2 ^ 24 + c.w.column / 48 * 2 ^ 8 + k)) 0) .next

theorem rhold_eq (h : Issues s c (.rhold f)) : exec (.rhold f) s = .next (finish s c f.mark (rholdAct s c f (handleTaken s c f))) := by
  rw [exec_rhold, execRhold, runWord_eForm h f (roomFor_none c) rfl]; rfl

theorem rhold_refuses (h : Issues s c (.rhold f)) (hn : handleTaken s c f = none) : Answers (.rhold f) f s s c 0 := by
  rw [Answers, rhold_eq h, hn]; rfl

theorem rhold_registers (h : Issues s c (.rhold f)) (hk : handleTaken s c f = some k) :
    Answers (.rhold f) f s (putHandle s (c.w.column / 48) k (registered s c f k)) c
      ((registered s c f k).gen * 2 ^ 24 + c.w.column / 48 * 2 ^ 8 + k) := by
  rw [Answers, rhold_eq h, hk]; rfl

theorem rdemote_unknown (h : Issues s c (.rdemote f)) (hk : knownHandle s c.r.id (c.s f.sa.toNat) = none) : Answers (.rdemote f) f s s c 1 := by
  rw [Answers, exec_rdemote, execRdemote, runWord_eForm h f (roomFor_none c) rfl]
  simp only [hk]; rfl

theorem rdrop_unknown (h : Issues s c (.rdrop f)) (hk : knownHandle s c.r.id (c.s f.sa.toNat) = none) : Answers (.rdrop f) f s s c 1 := by
  rw [Answers, exec_rdrop, execRdrop, runWord_eForm h f (roomFor_none c) rfl]
  simp only [hk]; rfl

theorem rdrop_frees (h : Issues s c (.rdrop f)) (hk : knownHandle s c.r.id (c.s f.sa.toNat) = some (t, k, r)) :
    Answers (.rdrop f) f s (putHandle s t k { r with used := false }) c 0 := by
  rw [Answers, exec_rdrop, execRdrop, runWord_eForm h f (roomFor_none c) rfl]
  simp only [hk]; rfl

theorem rdemote_higher (h : Issues s c (.rdemote f)) (hk : knownHandle s c.r.id (c.s f.sa.toNat) = some (t, k, r)) (hp : r.prio < field f.flags 0 3) :
    Answers (.rdemote f) f s s c 2 := by
  rw [Answers, exec_rdemote, execRdemote, runWord_eForm h f (roomFor_none c) rfl]
  simp only [hk, if_pos hp]; rfl

theorem rdemote_lowers (h : Issues s c (.rdemote f)) (hk : knownHandle s c.r.id (c.s f.sa.toNat) = some (t, k, r)) (hp : ¬ r.prio < field f.flags 0 3) :
    Answers (.rdemote f) f s (if field f.flags 3 1 = 1 then evictHandle (putHandle s t k { r with prio := field f.flags 0 3 }) t k
      else putHandle s t k { r with prio := field f.flags 0 3 }) c 0 := by
  rw [Answers, exec_rdemote, execRdemote, runWord_eForm h f (roomFor_none c) rfl]
  simp only [hk, if_neg hp]; rfl

/-- A tag that is left in an evicted handle's tower is pinned or another tensor's (R369). -/
theorem mem_evicted {tw : Tower} {e : SliceLine} (he : e ∈ (tw.evicted k r).slices) :
    e.pinned = true ∨ ¬ (e.space = r.space ∧ r.base.toNat ≤ e.va.toNat ∧ e.va.toNat < r.base.toNat + r.size) := by
  obtain ⟨-, h⟩ := List.mem_filter.mp he
  by_cases hp : e.pinned = true
  · exact .inl hp
  · refine .inr fun ⟨h1, h2, h3⟩ => ?_
    simp [Residency.covers, hp, h1, h2, h3] at h

/-- What the eviction of a handle that has just been put leaves: its split's surroundings, the handle marked, and no tag of the tensor but pinned ones. -/
theorem evictHandle_put (s : State) (t k : Nat) (r : Residency) : ∃ u, evictHandle (putHandle s t k r) t k = u ∧ Around s u ∧
    Table.find (towerOf u t).handles k = some { r with evicted := true } ∧
    ∀ e ∈ (towerOf u t).slices, e.pinned = true ∨ ¬ (e.space = r.space ∧ r.base.toNat ≤ e.va.toNat ∧ e.va.toNat < r.base.toNat + r.size) := by
  have hput : Table.find (towerOf (putHandle s t k r) t).handles k = some r := (find_putHandle s t k r k).trans (if_pos rfl)
  obtain ⟨u, hu, hev⟩ := evictHandle_found hput
  have htower : towerOf u t = towerOf (putHandle s t k r) t := towerOf_congr (congrArg State.towers hu : u.offLine.towers = (putHandle s t k r).offLine.towers) t
  refine ⟨_, hev, ((around_putHandle s t k r).trans (.of_offLine hu)).modTower t _, ?_, fun e he => ?_⟩
  · rw [towerOf_modTower, if_pos rfl, Tower.evicted, htower, Table.find_modify, if_pos rfl, Table.get, hput]; rfl
  · rw [towerOf_modTower, if_pos rfl] at he
    exact mem_evicted he

/-! ### The statement -/

theorem rhold_residency (h : Issues s c (.rhold f)) (hfits : rangeFits s c f = true) (hk : freeHandle (towerOf s (c.w.column / 48)) = some k) :
    ∃ t fl h, exec (.rhold f) s = .next t ∧ t.flights = s.flights ++ [fl] ∧
      Table.find (towerOf t (c.w.column / 48)).handles k = some h ∧ h.used = true ∧ h.region = c.r.id ∧ h.space = c.r.space ∧
      h.base = BitVec.ofNat 64 (c.pair f.sa.toNat) ∧ h.size = c.pair f.sb.toNat ∧ h.prio = f.flags.toNat % 8 ∧ h.evicted = false ∧ 1 ≤ h.gen ∧
      (∀ j, j ≠ k → Table.find (towerOf t (c.w.column / 48)).handles j = Table.find (towerOf s (c.w.column / 48)).handles j) ∧
      fl.dests = numberedDests c.x (destScalar c f.sd.toNat (h.gen * 2 ^ 24 + c.w.column / 48 * 2 ^ 8 + k)) ∧ KeepsRegs s t c.x [] ∧ t.mem = s.mem ∧
      t.issue = none ∧ (splitFind t c.x).map (fun p => p.pc) = some (loopUpdate c.p.loops c.p.pc).2 := by
  have hans := rhold_registers h ((if_pos hfits).trans hk)
  obtain ⟨t, fl, he, hfl, -, hd, htw, hm, -, hregs, hi, hpc⟩ := hans.frame (issuing_some h.1).2 (around_putHandle _ _ _ _)
  have hfind : ∀ j, Table.find (towerOf t (c.w.column / 48)).handles j =
      if j = k then some (registered s c f k) else Table.find (towerOf s (c.w.column / 48)).handles j := fun j => by
    rw [towerOf_congr htw, find_putHandle]
  exact ⟨t, fl, registered s c f k, he, hfl, (hfind k).trans (if_pos rfl), rfl, rfl, rfl, rfl, rfl, field_low f.flags 3, rfl, one_le_nextGen _,
    fun j hj => (hfind j).trans (if_neg hj), hd, hregs, hm, hi, hpc⟩

theorem rdrop_residency (h : Issues s c (.rdrop f)) (hk : knownHandle s c.r.id (c.s f.sa.toNat) = some (t, k, r)) :
    ∃ u fl, exec (.rdrop f) s = .next u ∧ Table.find (towerOf u t).handles k = some { r with used := false } ∧ u.flights = s.flights ++ [fl] ∧
      fl.dests = numberedDests c.x (destScalar c f.sd.toNat 0) ∧ KeepsRegs s u c.x [] ∧ u.mem = s.mem ∧ u.issue = none ∧
      (splitFind u c.x).map (fun p => p.pc) = some (loopUpdate c.p.loops c.p.pc).2 := by
  obtain ⟨u, fl, he, hfl, -, hd, htw, hm, -, hregs, hi, hpc⟩ := (rdrop_frees h hk).frame (issuing_some h.1).2 (around_putHandle _ _ _ _)
  refine ⟨u, fl, he, ?_, hfl, hd, hregs, hm, hi, hpc⟩
  rw [towerOf_congr htw, find_putHandle, if_pos rfl]

theorem rdemote_residency (h : Issues s c (.rdemote f)) (hk : knownHandle s c.r.id (c.s f.sa.toNat) = some (t, k, r)) (hp : f.flags.toNat % 8 ≤ r.prio) :
    ∃ u fl, exec (.rdemote f) s = .next u ∧ fl ∈ u.flights ∧ fl.id = s.nextId ∧ fl.dests = numberedDests c.x (destScalar c f.sd.toNat 0) ∧
      KeepsRegs s u c.x [] ∧ u.issue = none ∧ (splitFind u c.x).map (fun p => p.pc) = some (loopUpdate c.p.loops c.p.pc).2 ∧
      (f.flags.getLsbD 3 = false → Table.find (towerOf u t).handles k = some { r with prio := f.flags.toNat % 8 } ∧ u.flights = s.flights ++ [fl] ∧
        u.mem = s.mem ∧ u.lines = s.lines) ∧
      (f.flags.getLsbD 3 = true → Table.find (towerOf u t).handles k = some { r with prio := f.flags.toNat % 8, evicted := true } ∧
        ∀ e ∈ (towerOf u t).slices, e.pinned = true ∨ ¬ (e.space = r.space ∧ r.base.toNat ≤ e.va.toNat ∧ e.va.toNat < r.base.toNat + r.size)) := by
  have hc := (issuing_some h.1).2
  have hprio : field f.flags 0 3 = f.flags.toNat % 8 := field_low f.flags 3
  have hans := rdemote_lowers h hk (by omega)
  rw [hprio] at hans
  cases hev : f.flags.getLsbD 3 with
  | false =>
    rw [if_neg (by rw [← beq_iff_eq, field_bit, hev]; exact Bool.false_ne_true)] at hans
    obtain ⟨u, fl, he, hfl, hid, hd, htw, hm, hl, hregs, hi, hpc⟩ := hans.frame hc (around_putHandle _ _ _ _)
    refine ⟨u, fl, he, by rw [hfl]; simp, hid, hd, hregs, hi, hpc, fun _ => ⟨?_, hfl, hm, hl⟩, fun hn => absurd hn Bool.false_ne_true⟩
    rw [towerOf_congr htw, find_putHandle, if_pos rfl]
  | true =>
    rw [if_pos (by rw [← beq_iff_eq, field_bit, hev])] at hans
    obtain ⟨v, hv, hround, hfind, hslices⟩ := evictHandle_put s t k { r with prio := f.flags.toNat % 8 }
    obtain ⟨u, fl, he, hfl, hid, hd, htw, -, -, hregs, hi, hpc⟩ := (hv ▸ hans).frame hc hround
    refine ⟨u, fl, he, by rw [hfl]; simp, hid, hd, hregs, hi, hpc, fun hn => absurd hn.symm Bool.false_ne_true, fun _ => ?_⟩
    rw [towerOf_congr htw]
    exact ⟨hfind, hslices⟩

end

/-- Settles O44, word by word: `fmtset` by the entry and the note that it leaves, the residency words by what each answers and which handle it changes. -/
theorem formatAndResidencyWords : Obligations.FormatAndResidencyWords := by
  intro s c
  refine ⟨fun f h hroom => ?_, fun s id f r k old => fmtsetCompletion_keeps, fun f => fmtget_reads, fun f h => ?_, fun i f hi h hk => ?_,
    fun f t0 k r => rdrop_residency, fun f t0 k r h hk => ⟨fun hp => ?_, rdemote_residency h hk⟩⟩
  · refine ⟨fun hd hv => fmtset_traps h hroom (badEntry_iff.mpr ⟨hd, hv⟩), fun hv => ?_⟩
    have hgood : badEntry c f = false := by
      rw [← Bool.not_eq_true, badEntry_iff]
      rintro ⟨hd, hb⟩
      rcases hv with hv | ⟨h1, h2⟩
      · exact absurd (hd.symm.trans hv) Bool.false_ne_true
      · rcases hb with hb | hb
        · omega
        · exact absurd (hb.symm.trans h2) Bool.false_ne_true
    have hw := fmtset_writes h hroom hgood
    rw [entryNo_eq, newEntry_eq] at hw
    exact hw
  · refine ⟨fun hn => (rhold_refuses h ?_).ran (issuing_some h.1).2, fun hfits k => rhold_residency h ((rangeFits_iff s c f).mpr hfits)⟩
    rcases hn with hn | hn
    · exact if_neg fun hfits => hn ((rangeFits_iff s c f).mp hfits)
    · unfold handleTaken; split
      · exact hn
      · rfl
  · rcases hi with rfl | rfl
    · exact (rdemote_unknown h hk).ran (issuing_some h.1).2
    · exact (rdrop_unknown h hk).ran (issuing_some h.1).2
  · exact (rdemote_higher h hk (by rw [field_low]; exact hp)).ran (issuing_some h.1).2

end Sys2Proof.Machine

/-! ## O12: a precise trap enters the handler -/

namespace Sys2Proof.Machine

/-! ### The context of a split after changes of itself, of its group and of its core -/

theorem ctxOf_modSplit {s : State} {x : SplitId} {c : Ctx} (h : ctxOf s x = some c) (f : Split → Split) :
    ctxOf (modSplit s x f) x = some { c with
      w := { c.w with groups := modAt c.w.groups x.grp (fun g => { g with splits := modAt g.splits x.slot f }) },
      g := { c.g with splits := modAt c.g.splits x.slot f }, p := f c.p } := by
  obtain ⟨-, -, -, -, hp, -⟩ := (ctxOf_iff s x c).mp h
  exact ctxOf_modGroup h (fun g => { g with splits := modAt g.splits x.slot f }) (by simp [getElem?_modAt, hp])

theorem ctxOf_modCore {s : State} {x : SplitId} {c : Ctx} (h : ctxOf s x = some c) (f : Core → Core) :
    ctxOf (modCore s c.w.core f) x = some { c with core := f c.core } := by
  obtain ⟨hx, hw, hg, hr, hp, hk, hd⟩ := (ctxOf_iff s x c).mp h
  exact (ctxOf_iff _ _ _).mpr ⟨hx, hw, hg, hr, hp, by simp [hk], hd⟩

/-! ### The entry into a handler (R241, R245) -/

/-- A split that has taken a trap, at the first word of its handler. -/
def Split.trapped (p : Split) (t : TrapInfo) (handler : Nat) (run : RunState) : Split :=
  { p with trapCause := causeWord t, trapPc := t.pc, trapVal := t.value, pc := BitVec.ofNat 64 handler, state := run, markWait := false,
           boundary := false, wait := .none, refused := none, readySince := none }

/-- A group whose split in a slot is in handler mode. -/
def Group.handled (g : Group) (slot : Nat) : Group := { g with handler := some slot, hold := [] }

/-- A core whose bank a split has, cleared. -/
def Core.lent (k : Core) (x : SplitId) : Core := { unfused k (fun y => groupOf y == groupOf x) with bank := some x, kregs := [], ksregs := [] }

section
variable {s : State} {x : SplitId} {c : Ctx}

theorem enterHandler_eq (h : ctxOf s x = some c) (t : TrapInfo) (run : RunState) : enterHandler s x t run =
    modCore (modGroup (modSplit s x (fun p => p.trapped t (handlerOf s c.r) run)) (groupOf x) (fun g => g.handled x.slot)) c.w.core (fun k => k.lent x) := by
  rw [enterHandler, h]; rfl

/-- The context of a split that enters its handler. -/
theorem ctxOf_enterHandler (h : ctxOf s x = some c) (t : TrapInfo) (run : RunState) : ∃ d, ctxOf (enterHandler s x t run) x = some d ∧
    d.p = c.p.trapped t (handlerOf s c.r) run ∧
    d.g = { c.g with splits := modAt c.g.splits x.slot (fun p => p.trapped t (handlerOf s c.r) run), handler := some x.slot, hold := [] } ∧
    d.core = c.core.lent x ∧ d.w.core = c.w.core := by
  have h1 := ctxOf_modSplit h (fun p => p.trapped t (handlerOf s c.r) run)
  obtain ⟨-, -, -, -, hp, -⟩ := (ctxOf_iff _ x _).mp h1
  have h2 := ctxOf_modGroup h1 (fun g => g.handled x.slot) hp
  rw [enterHandler_eq h]
  exact ⟨_, ctxOf_modCore h2 (fun k => k.lent x), rfl, rfl, rfl, rfl⟩

/-- The entry of one group into its handler leaves every other group alone. -/
theorem groupFind_enterHandler {g : GroupId} (hg : g ≠ groupOf x) (t : TrapInfo) (run : RunState) :
    groupFind (enterHandler s x t run) g = groupFind s g := by
  cases h : ctxOf s x with
  | none => rw [enterHandler, h]
  | some c => rw [enterHandler_eq h, groupFind_modCore, groupFind_modGroup, if_neg hg, modSplit, groupFind_modGroup, if_neg hg]

theorem splitFind_enterHandler {y : SplitId} (hy : y ≠ x) (t : TrapInfo) (run : RunState) : splitFind (enterHandler s x t run) y = splitFind s y := by
  cases h : ctxOf s x with
  | none => rw [enterHandler, h]
  | some c => rw [enterHandler_eq h, splitFind_modCore, splitFind_modGroup _ _ _ (fun g => g.handled x.slot) (fun _ => rfl), splitFind_modSplit, if_neg hy]

theorem enterHandler_mem (s : State) (x : SplitId) (t : TrapInfo) (run : RunState) : (enterHandler s x t run).mem = s.mem := by
  unfold enterHandler; split <;> rfl

end

/-! ### A precise trap that is taken -/

/-- What a precise trap at the issuing word is. -/
def preciseInfo (s : State) (c : Ctx) (code detail lane : Nat) (value : DWord) : TrapInfo :=
  { code := code, detail := detail, lane := lane, value := value, pc := c.p.pc, async := false, seq := s.nextId }

/-- Outside handler mode, with a handler and a free bank, a precise trap is taken at once. -/
theorem preciseTrap_taken {s : State} {c : Ctx} (hc : ctxOf s c.x = some c) (hh : c.g.handler = none) {code : Nat} (hdbg : s.debugger = false ∨ code ≠ 12)
    (ha : handlerOf s c.r ≠ 0) (hb : c.core.bank = none) (detail lane : Nat) (value : DWord) :
    preciseTrap s c code detail lane value = endIssue (enterHandler s c.x (preciseInfo s c code detail lane value) .running) := by
  have hrun : handlerRun s (preciseInfo s c code detail lane value) = .running := by
    rw [handlerRun, if_neg]
    rcases hdbg with hd | hd <;> simp [preciseInfo, hd]
  have htake : takeTrap s c.x (preciseInfo s c code detail lane value) =
      enterHandler s c.x (preciseInfo s c code detail lane value) (handlerRun s (preciseInfo s c code detail lane value)) := by
    rw [takeTrap, hc]
    simp [hh, ha, hb]
  rw [← hrun, ← htake]; rfl

theorem causeWord_precise (s : State) (c : Ctx) (code detail lane : Nat) (value : DWord) :
    causeWord (preciseInfo s c code detail lane value) = BitVec.ofNat 32 (code + 2 ^ 8 * detail + 2 ^ 24 * lane) := by
  unfold causeWord preciseInfo
  congr 1
  simp only [Bool.false_eq_true, if_false]
  omega

/-- Settles O12: the trap is the entry into the handler, whose context says what each register and each field holds. -/
theorem trapEntersHandler : Obligations.TrapEntersHandler := by
  intro s c code detail lane value hi hh hdbg ha hb
  have hc := (issuing_some hi).2
  rw [preciseTrap_taken hc hh hdbg ha hb]
  set t := preciseInfo s c code detail lane value
  obtain ⟨d, hd, hp, hg, hk, hcore⟩ := ctxOf_enterHandler hc t .running
  obtain ⟨-, -, -, -, -, hkd, -⟩ := (ctxOf_iff _ _ _).mp hd
  have hbank : ∀ r, held (endIssue (enterHandler s c.x t .running)) c.x r = some (regNow d r) := fun r => (held_endIssue _ _ r).trans (held_ctx hd r)
  have hsplit : splitFind (enterHandler s c.x t .running) c.x = some d.p := ctxOf_splitFind hd
  have hgroup : groupFind (enterHandler s c.x t .running) (groupOf c.x) = some d.g := ctxOf_groupFind hd
  refine ⟨d.p, d.g, hsplit, hgroup, ?_⟩
  rw [hp, hg]
  refine ⟨causeWord_precise s c code detail lane value, rfl, rfl, rfl, rfl, rfl, rfl, rfl, rfl, rfl, rfl, rfl, rfl, ?_, fun k => ?_, fun k => ?_,
    fun y hy => splitFind_enterHandler hy t .running, fun a => ?_⟩
  · show (coreOf (enterHandler s c.x t .running) c.w.core).bank = some c.x
    rw [← hcore, ← hkd, hk]; rfl
  · rw [hbank, regNow, hk]; rfl
  · rw [hbank, regNow, hk]; rfl
  · exact congrArg (fun m => Memory.read m a) (enterHandler_mem s c.x t .running)

end Sys2Proof.Machine

/-! ## O14: `trap`, `brkp` and `rett` -/

namespace Sys2Proof.Machine

theorem exec_trap (f : SF) (s : State) : exec (.trap f) s = execTrap f s := rfl
theorem exec_brkp (f : SF) (s : State) : exec (.brkp f) s = execBrkp f s := rfl
theorem exec_rett (f : SF) (s : State) : exec (.rett f) s = execRett f s := rfl

/-! ### The bank is free again (R40, R248) -/

theorem grantTo_mem (s : State) (core : Nat) (l : List SplitId) : (grantTo s core l).mem = s.mem := by
  induction l with
  | nil => rfl
  | cons y rest ih =>
    unfold grantTo
    split
    · exact enterHandler_mem _ _ _ _
    · exact ih

/-- The bank goes to one of the splits that wait for it: a group that has none among them is left alone. -/
theorem groupFind_grantTo (s : State) (core : Nat) {l : List SplitId} {g : GroupId} (hl : ∀ y ∈ l, groupOf y ≠ g) :
    groupFind (grantTo s core l) g = groupFind s g := by
  induction l with
  | nil => rfl
  | cons y rest ih =>
    unfold grantTo
    split
    · exact groupFind_enterHandler (hl y List.mem_cons_self).symm _ _
    · exact ih fun z hz => hl z (List.mem_cons_of_mem y hz)

/-- A bank that is given up goes to the splits that wait for it. -/
theorem releaseBank_eq (s : State) (core : Nat) :
    releaseBank s core = grantTo (modCore s core (fun k => { k with bank := none })) core (coreOf s core).waiters := by
  rw [releaseBank, grantBank, coreOf_modCore, if_pos rfl]

theorem releaseBank_mem (s : State) (core : Nat) : (releaseBank s core).mem = s.mem := by
  rw [releaseBank_eq]; exact grantTo_mem _ _ _

theorem groupFind_releaseBank (s : State) (core : Nat) {g : GroupId} (hl : ∀ y ∈ (coreOf s core).waiters, groupOf y ≠ g) :
    groupFind (releaseBank s core) g = groupFind s g := by
  rw [releaseBank_eq]; exact groupFind_grantTo _ _ hl

/-- Where no split waits for the bank, it is free. -/
theorem releaseBank_free {s : State} {core : Nat} (h : (coreOf s core).waiters = []) : (coreOf (releaseBank s core) core).bank = none := by
  rw [releaseBank_eq, h, grantTo, coreOf_modCore, if_pos rfl, coreOf_modCore, if_pos rfl]

/-! ### The return (R248) -/

/-- Where `rett` goes on: at TRAPVAL after an asynchronous trap, and else at TRAPPC. -/
def Split.back (p : Split) : DWord := if p.trapCause.getLsbD 31 then p.trapVal else p.trapPc

/-- A split whose park, if it is parked, starts afresh at a cycle. -/
def Split.afresh (cycle : Nat) (p : Split) : Split :=
  match p.state with
  | .parked why _ => { p with state := .parked why cycle }
  | _ => p

/-- A split that goes back to the park that a trap interrupted, if one did. -/
def Split.unrested (cycle : Nat) (p : Split) : Split :=
  { p with resting := none, state := match p.resting with | some why => .parked why cycle | none => p.state }

/-- The group has left handler mode. -/
def handlerLeft (s : State) (c : Ctx) : State :=
  modSplit (modGroup s (groupOf c.x) (fun g => { g with handler := none, splits := g.splits.map (Split.afresh (cycleOf s c)) })) c.x
    (Split.unrested (cycleOf s c))

theorem bit_31_iff (v : Word) : bitsAt (v.zeroExtend 64) 31 1 = 1 ↔ v.getLsbD 31 = true := by
  have e : bitsAt (v.zeroExtend 64) 31 1 = field v 31 1 := by simp [bitsAt, field]; omega
  rw [e, ← field_bit, beq_iff_eq]

theorem returnFromTrap_eq (i : Instr) (s : State) (c : Ctx) : returnFromTrap i s c =
    if !c.handler then .illegal i else if c.p.back.toNat % 8 ≠ 0 then .trap 4 0 127 c.p.back
    else .done (releaseBank (handlerLeft s c) c.w.core) (.jump c.p.back false) := by
  have e : c.p.back = if bitsAt (c.p.trapCause.zeroExtend 64) 31 1 = 1 then c.p.trapVal else c.p.trapPc := if_congr (bit_31_iff _).symm rfl rfl
  rw [e]; rfl

theorem afresh_kept (cycle : Nat) (p : Split) : (p.afresh cycle).loops = p.loops ∧ (p.afresh cycle).scalars = p.scalars ∧ (p.afresh cycle).mode = p.mode := by
  unfold Split.afresh; split <;> exact ⟨rfl, rfl, rfl⟩

section
variable {s : State} {c : Ctx}

/-- The context of a split whose group has left handler mode. -/
theorem ctxOf_handlerLeft (hc : ctxOf s c.x = some c) : ∃ d, ctxOf (handlerLeft s c) c.x = some d ∧ d.w.core = c.w.core ∧ d.g.handler = none ∧
    d.g.vregs = c.g.vregs ∧ d.g.preds = c.g.preds ∧ d.p.loops = c.p.loops ∧ d.p.scalars = c.p.scalars ∧ d.p.mode = c.p.mode := by
  obtain ⟨-, -, -, -, hp, -⟩ := (ctxOf_iff s c.x c).mp hc
  have h1 := ctxOf_modGroup hc (fun g => { g with handler := none, splits := g.splits.map (Split.afresh (cycleOf s c)) })
    (p := c.p.afresh (cycleOf s c)) (by simp [hp])
  obtain ⟨hl, hs, hm⟩ := afresh_kept (cycleOf s c) c.p
  exact ⟨_, ctxOf_modSplit h1 (Split.unrested (cycleOf s c)), rfl, rfl, rfl, rfl, hl, hs, hm⟩

/-- A word whose split's group is `g`, with the split `p`, jumps: the group keeps all but the split, and the split all but its place. -/
theorem found_settle_jump {u : State} {g : Group} {p : Split} (hg : groupFind u (groupOf c.x) = some g) (hp : g.splits[c.x.slot]? = some p) (mark : Bool)
    (target : DWord) (taken : Bool) :
    splitFind (settle u c mark (.jump target taken)) c.x = some (advance p c.p.pc mark (.jump target taken) (columnOf u c.w.column).cycle) ∧
    ∃ ps, groupFind (settle u c mark (.jump target taken)) (groupOf c.x) = some { g with splits := ps } := by
  have hs : splitFind u c.x = some p := by rw [splitFind, hg]; exact hp
  refine ⟨(splitFind_congr rfl c.x).trans ((splitFind_modSplit u c.x c.x _).trans ?_), _, (groupFind_congr rfl _).trans (groupFind_modGroup_own u _ _ hg)⟩
  rw [if_pos rfl, hs]; rfl

/-- `rett` in supervisor mode does what R248 says. -/
theorem exec_rett_super {f : SF} (h : Issues s c (.rett f)) (hs : c.super = true) :
    exec (.rett f) s = .next (finish s c (f.mark || (c.handler && c.p.resting.isSome)) (returnFromTrap (.rett f) s c)) := by
  rw [exec_rett, execRett]
  exact runWord_next h _ _ rfl hs rfl (roomFor_none c) nofun

theorem rett_illegal {f : SF} (h : Issues s c (.rett f)) (hs : c.super = true) (hh : c.handler = false) :
    Traps (.rett f) s c 1 0 127 (wordOf (.rett f)) := by
  rw [Traps, exec_rett_super h hs, returnFromTrap_eq, hh]; rfl

theorem rett_misaligned {f : SF} (h : Issues s c (.rett f)) (hs : c.super = true) (hh : c.handler = true) (hb : c.p.back.toNat % 8 ≠ 0) :
    Traps (.rett f) s c 4 0 127 c.p.back := by
  rw [Traps, exec_rett_super h hs, returnFromTrap_eq, hh, if_pos hb]; rfl

theorem rett_returns {f : SF} (h : Issues s c (.rett f)) (hs : c.super = true) (hh : c.handler = true) (hb : c.p.back.toNat % 8 = 0)
    (hw : ∀ y ∈ c.core.waiters, groupOf y ≠ groupOf c.x) : ∃ t p g, exec (.rett f) s = .next t ∧ splitFind t c.x = some p ∧
      groupFind t (groupOf c.x) = some g ∧ p.pc = c.p.back ∧ p.loops = c.p.loops ∧ p.scalars = c.p.scalars ∧ p.mode = c.p.mode ∧ g.handler = none ∧
      g.vregs = c.g.vregs ∧ g.preds = c.g.preds ∧ (c.core.waiters = [] → (coreOf t c.w.core).bank = none) ∧ t.issue = none ∧
      (∀ a, Memory.read t.mem a = Memory.read s.mem a) := by
  have hc := (issuing_some h.1).2
  obtain ⟨-, -, -, -, -, hk, -⟩ := (ctxOf_iff _ _ _).mp hc
  obtain ⟨d, hd, hcore, hgh, hgv, hgp, hpl, hps, hpm⟩ := ctxOf_handlerLeft hc
  obtain ⟨-, -, -, -, hdp, -⟩ := (ctxOf_iff _ _ _).mp hd
  have hwait : (coreOf (handlerLeft s c) c.w.core).waiters = c.core.waiters := by rw [hk]; rfl
  have hgroup : groupFind (releaseBank (handlerLeft s c) c.w.core) (groupOf c.x) = some d.g :=
    (groupFind_releaseBank _ _ (hwait ▸ hw)).trans (ctxOf_groupFind hd)
  obtain ⟨hsplit, ps, hgs⟩ := found_settle_jump hgroup hdp (f.mark || (c.handler && c.p.resting.isSome)) c.p.back false
  refine ⟨_, _, _, ?_, hsplit, hgs, rfl, hpl, hps, hpm, hgh, hgv, hgp, fun hn => releaseBank_free (hwait.trans hn), rfl, fun a => ?_⟩
  · rw [exec_rett_super h hs, returnFromTrap_eq, if_neg (by simp [hh]), if_neg (by simp [hb])]; rfl
  · exact congrArg (fun m => Memory.read m a) (releaseBank_mem _ _)

end

/-- Settles O14: the words that trap, and the three ends of `rett`. -/
theorem trapAndReturnWords : Obligations.TrapAndReturnWords := by
  refine ⟨fun s c i h => ⟨?_, ?_⟩, fun s c f h hs => ⟨rett_illegal h hs, rett_misaligned h hs, rett_returns h hs⟩⟩
  · rintro f rfl
    rw [Traps, exec_trap, execTrap]
    exact runWord_sForm h f _
  · rintro f rfl
    rw [Traps, exec_brkp, execBrkp]
    exact runWord_sForm h f _

end Sys2Proof.Machine

/-! ## O47: bytes of strings that are put together -/

namespace Sys2Proof.Machine

theorem slice_append_left {l : List Byte} {n : Nat} (h : l.length = n) (r : List Byte) : slice (l ++ r) 0 n = l := by
  subst h
  refine List.ext_getElem (by simp [slice]) fun k h1 h2 => ?_
  simp [slice, List.getElem?_append_left h2, List.getElem?_eq_getElem h2]

theorem slice_append_right {l : List Byte} {m : Nat} (h : l.length = m) (r : List Byte) (k n : Nat) : slice (l ++ r) (m + k) n = slice r k n := by
  subst h
  refine List.map_congr_left fun i _ => ?_
  rw [List.getD_eq_getElem?_getD, List.getD_eq_getElem?_getD, List.getElem?_append_right (by omega)]
  congr 2; omega

/-- A number at the head of a string. -/
theorem numAt_head (n v : Nat) (r : List Byte) : numAt (bytesOf n v ++ r) 0 n = v % 256 ^ n := by
  rw [numAt, slice_append_left (length_bytesOf n v), numOf_bytesOf]

/-- A number behind the head of a string. -/
theorem numAt_behind (m v : Nat) (r : List Byte) (k n : Nat) : numAt (bytesOf m v ++ r) (m + k) n = numAt r k n := by
  rw [numAt, numAt, slice_append_right (length_bytesOf m v)]

end Sys2Proof.Machine

/-! ## O47: the playbill, host events, launches, translations and page swaps -/

namespace Sys2Proof.Machine

theorem exec_pbgetRng (f : SF) (s : State) : exec (.pbgetRng f) s = execPbgetRng f s := rfl
theorem exec_pbgetProt (f : SF) (s : State) : exec (.pbgetProt f) s = execPbgetProt f s := rfl
theorem exec_hpost (f : SF) (s : State) : exec (.hpost f) s = execHpost f s := rfl
theorem exec_launch (f : SF) (s : State) : exec (.launch f) s = execLaunch f s := rfl
theorem exec_pswap (f : SF) (s : State) : exec (.pswap f) s = execPswap f s := rfl
theorem exec_pbsetRng (f : SF) (s : State) : exec (.pbsetRng f) s = playbillSet (.pbsetRng f) f false 32 s := rfl
theorem exec_pbsetProt (f : SF) (s : State) : exec (.pbsetProt f) s = playbillSet (.pbsetProt f) f true (2112 + 3376) s := rfl

section
variable {s : State} {c : Ctx} {i : Instr} {f : SF}

/-! ### Words of format S run and answer -/

/-- A word of supervisor mode, in supervisor mode, runs its body. -/
theorem runWord_super (h : Issues s c i) (hs : c.super = true) (body : State → Ctx → Act) :
    runWord s (fun _ => { sForm i f with priv := .super }) body = .next (finish s c f.mark (body s c)) :=
  runWord_next h _ body rfl hs rfl (roomFor_none c) nofun

/-- A word with room on the path of atomics runs its body. -/
theorem runWord_sPath (h : Issues s c i) (hp : PathRoom c 2) (body : State → Ctx → Act) :
    runWord s (fun _ => { sForm i f with needs := { path := some 2 } }) body = .next (finish s c f.mark (body s c)) :=
  runWord_next h _ body rfl rfl rfl (roomFor_path hp) nofun

/-- The word answers a number in its scalar, later, and does nothing else. -/
def AnswersLater (s : State) (c : Ctx) (i : Instr) (f : SF) (n : Nat) : Prop :=
  ∃ t, exec i s = .next t ∧ Ran s t c [] [later s c (destScalar c f.sd.toNat n) 0]

theorem answersLater_of_exec (h : Issues s c i) {n : Nat}
    (he : exec i s = .next (finish s c f.mark (.done (laterResult s c (destScalar c f.sd.toNat n) 0) .next))) : AnswersLater s c i f n :=
  ⟨_, he, ranTo_later (issuing_some h.1).2 (Wrote.refl s c.x []) f.mark .next _ 0 (destScalar_clobbered c _ _)⟩

/-- A word whose body writes a pair, and does nothing else. -/
theorem pairWord_result (h : Issues s c i) (v : Nat) (he : exec i s = .next (finish s c f.mark (.done (writePair s c f.sd.toNat v) .next))) :
    ∃ t, exec i s = .next t ∧ Ran s t c (scalarRegs c true f.sd.toNat) [] ∧ ScalarGets t c true f.sd.toNat v := by
  have hc := (issuing_some h.1).2
  obtain ⟨hw, hg⟩ := wrote_writeScalar hc true f.sd.toNat v
  exact ⟨_, he, ranTo_settle hc hw f.mark .next, scalarGets_settle hg f.mark .next⟩

/-! ### `pbget` (R253, R376) -/

theorem pbgetRng_reads (h : Issues s c (.pbgetRng f)) : ∃ t, exec (.pbgetRng f) s = .next t ∧ Ran s t c (scalarRegs c true f.sd.toNat) [] ∧
    (let e := Table.get s.playbill (f.imm.toNat % 64) .zero
     ScalarGets t c true f.sd.toNat ((match f.imm.toNat / 64 % 4 with | 0 => e.word0 | 1 => e.word1 | 2 => e.word2 | _ => e.word3) : DWord).toNat) := by
  refine pairWord_result h _ ?_
  rw [exec_pbgetRng, execPbgetRng, runWord_sForm h]
  simp only [field_low]; rfl

theorem pbgetProt_reads (h : Issues s c (.pbgetProt f)) : ∃ t, exec (.pbgetProt f) s = .next t ∧ Ran s t c (scalarRegs c true f.sd.toNat) [] ∧
    (f.imm.toNat % 64 < 16 → ScalarGets t c true f.sd.toNat (slotStatus s (f.imm.toNat % 64))) := by
  have hrun : exec (.pbgetProt f) s = _ := (exec_pbgetProt f s).trans (runWord_sForm h f _)
  obtain ⟨t, he, hr, hg⟩ := pairWord_result h _ hrun
  refine ⟨t, he, hr, fun hn => ?_⟩
  have hlow : field f.imm 0 6 = f.imm.toNat % 64 := field_low f.imm 6
  rwa [hlow, if_pos hn] at hg

/-! ### `hpost` (R252) -/

theorem exec_hpost_room (h : Issues s c (.hpost f)) (hp : PathRoom c 2) : exec (.hpost f) s = .next (finish s c f.mark
    (if c.r.hevq = 0 then .done (laterResult s c (destScalar c f.sd.toNat 2) 0) .next
     else launchMem s c (.post c.r.id) 2 { strong := 6, release := 6 } [postPart c (c.pair f.sa.toNat) f.imm.toNat] (scalarDests c f.sd.toNat false))) := by
  rw [exec_hpost, execHpost]
  exact runWord_sPath h hp _

theorem hpost_unqueued (h : Issues s c (.hpost f)) (hp : PathRoom c 2) (hq : c.r.hevq = 0) : AnswersLater s c (.hpost f) f 2 :=
  answersLater_of_exec h (by rw [exec_hpost_room h hp, if_pos hq])

/-- The bytes of an event: its body, its class, and the column. -/
theorem postPart_numbers (c : Ctx) (body cls : Nat) : numAt (postPart c body cls).data 0 8 = body % 2 ^ 64 ∧
    numAt (postPart c body cls).data 8 2 = cls % 2 ^ 16 ∧ numAt (postPart c body cls).data 10 2 = c.w.column % 2 ^ 16 := by
  have e : (postPart c body cls).data = bytesOf 8 body ++ (bytesOf 2 cls ++ (bytesOf 2 c.w.column ++ [])) := by
    simp [postPart, scratchUnit]
  rw [e]
  exact ⟨numAt_head 8 body _, (numAt_behind 8 body _ 0 2).trans (numAt_head 2 cls _),
    (numAt_behind 8 body _ 2 2).trans ((numAt_behind 2 cls _ 0 2).trans (numAt_head 2 c.w.column _))⟩

theorem hpost_posts (h : Issues s c (.hpost f)) (hp : PathRoom c 2) (hq : c.r.hevq ≠ 0) :
    ∃ fl p, exec (.hpost f) s = .next (settle (launchFlight s c fl) c f.mark .next) ∧ fl.kind = .post c.r.id ∧ fl.path = some 2 ∧ fl.strong = 6 ∧
      fl.release = 6 ∧ fl.dests = scalarDests c f.sd.toNat false ∧ fl.parts = [p] ∧ p.op = .hostEvent ∧ numAt p.data 0 8 = c.pair f.sa.toNat % 2 ^ 64 ∧
      numAt p.data 8 2 = f.imm.toNat % 2 ^ 16 ∧ numAt p.data 10 2 = c.w.column % 2 ^ 16 := by
  have hrun := exec_hpost_room h hp
  rw [if_neg hq] at hrun
  exact ⟨_, _, hrun, rfl, rfl, rfl, rfl, rfl, rfl, rfl, postPart_numbers c _ _⟩

/-! ### `launch` (R251) -/

/-- An access whose checks trap traps. -/
theorem globalAccess_traps {k : AccessKind} {align size unit code detail l : Nat} {va : DWord} {addrs : List (Nat × DWord)} {may : Nat → Bool}
    (hck : checkGlobal s c k align size unit addrs = .trap code detail l va) (go : State → List Seen → Act) :
    globalAccess s c k align size unit addrs may go = .trap code detail l va := by
  rw [globalAccess, hck]

/-- An access of one unit whose checks pass does what it says with the unit. -/
theorem globalAccess_one {s1 s2 : State} {k : AccessKind} {align size unit : Nat} {addrs : List (Nat × DWord)} {seen : List Seen}
    (hck : checkGlobal s c k align size unit addrs = .ok s1 seen) (ht : touchAll s1 c (accessWrites k) seen = some s2) (go : State → List Seen → Act) :
    globalAccess s c k align size unit addrs (fun _ => true) go = go s2 seen := by
  rw [globalAccess_ok hck (by rwa [List.filter_true]), List.filter_true]

/-- What `launch` does with the units that its checks have seen: that of the record, and that of the counter. -/
def appendUnits (s : State) (c : Ctx) (f : SF) (q : Region) : List Seen → List Seen → Act
  | u :: _, k :: _ => launchMem s c (.launch q.id) 2 { strong := 5, release := 5 } [launchPart s u k] (scalarDests c f.sd.toNat false)
  | _, _ => .wait s

/-- What `launch` does where the list has room: the checks of the record, of its place in the list, and of the counter, and then the append. -/
def appendAct (s : State) (c : Ctx) (f : SF) (q : Region) (n : Nat) : Act :=
  globalAccess s c .load 128 128 128 [(127, BitVec.ofNat 64 (c.pair f.sa.toNat))] (fun _ => true) (fun s recs =>
    globalAccess s c .store 128 128 128 [(127, BitVec.ofNat 64 (q.llist + 128 * (n % q.llsize)))] (fun _ => true) (fun s _ =>
      globalAccess s c .counterAdd 8 8 8 [(127, BitVec.ofNat 64 q.lctr)] (fun _ => true) (fun s ctrs => appendUnits s c f q recs ctrs)))

theorem launch_untargeted (h : Issues s c (.launch f)) (hp : PathRoom c 2) (hq : launchTarget s c (c.pair f.sb.toNat) = none) :
    AnswersLater s c (.launch f) f 0 := by
  refine answersLater_of_exec h ((exec_launch f s).trans ((runWord_sPath h hp _).trans ?_))
  simp only [hq]

section
variable {q : Region} {n : Nat} (hq : launchTarget s c (c.pair f.sb.toNat) = some q) (hn : appended s q = some n)
include hq hn

theorem launch_full (h : Issues s c (.launch f)) (hp : PathRoom c 2) (hfull : q.llsize ≤ n - q.ldone) : AnswersLater s c (.launch f) f 0 := by
  refine answersLater_of_exec h ((exec_launch f s).trans ((runWord_sPath h hp _).trans ?_))
  simp only [hq, hn, if_pos hfull]

theorem exec_launch_room (h : Issues s c (.launch f)) (hp : PathRoom c 2) (hroom : n - q.ldone < q.llsize) :
    exec (.launch f) s = .next (finish s c f.mark (appendAct s c f q n)) := by
  refine (exec_launch f s).trans ((runWord_sPath h hp _).trans ?_)
  simp only [hq, hn, if_neg (Nat.not_le.mpr hroom)]
  rfl

/-- A record that may not be read traps. -/
theorem launch_traps (h : Issues s c (.launch f)) (hp : PathRoom c 2) (hroom : n - q.ldone < q.llsize) {code detail l : Nat} {va : DWord}
    (hck : checkGlobal s c .load 128 128 128 [(127, BitVec.ofNat 64 (c.pair f.sa.toNat))] = .trap code detail l va) :
    Traps (.launch f) s c code detail l va := by
  rw [Traps, exec_launch_room hq hn h hp hroom, appendAct, globalAccess_traps hck]; rfl

theorem launch_appends (h : Issues s c (.launch f)) (hp : PathRoom c 2) (hroom : n - q.ldone < q.llsize) {s1 s2 s3 s4 s5 s6 : State} {u v k : Seen}
    (hu : checkGlobal s c .load 128 128 128 [(127, BitVec.ofNat 64 (c.pair f.sa.toNat))] = .ok s1 [u]) (tu : touchAll s1 c false [u] = some s2)
    (hv : checkGlobal s2 c .store 128 128 128 [(127, BitVec.ofNat 64 (q.llist + 128 * (n % q.llsize)))] = .ok s3 [v])
    (tv : touchAll s3 c true [v] = some s4)
    (hk : checkGlobal s4 c .counterAdd 8 8 8 [(127, BitVec.ofNat 64 q.lctr)] = .ok s5 [k]) (tk : touchAll s5 c true [k] = some s6) :
    ∃ fl p, exec (.launch f) s = .next (settle (launchFlight s6 c fl) c f.mark .next) ∧ fl.kind = .launch q.id ∧ fl.path = some 2 ∧ fl.strong = 5 ∧
      fl.release = 5 ∧ fl.parts = [p] ∧ p.op = .append ∧ p.place = (globalUnit s6 k .append []).place ∧ fl.dests = scalarDests c f.sd.toNat false := by
  have hrun := exec_launch_room hq hn h hp hroom
  rw [appendAct, globalAccess_one hu tu, globalAccess_one hv tv, globalAccess_one hk tk] at hrun
  exact ⟨_, _, hrun, rfl, rfl, rfl, rfl, rfl, rfl, rfl, rfl⟩

end

/-! ### `tlbinv` (R254) -/

theorem tlbinv_waits (h : Issues s c i) (hs : c.super = true) (hw : c.p.wait = .none) :
    tlbinv i f s = .next (endIssue (modSplit s c.x (fun p => { p with wait := .tlbinv false }))) := by
  rw [tlbinv, runWord_super h hs, hw]; rfl

/-! ### `pswap` (R255, R371) -/

/-- A swap that is under way has one of two frames. -/
def FrameBusy (s : State) (fa fb : Nat) : Prop := ∃ w ∈ s.swaps, w.frameA = fa ∨ w.frameA = fb ∨ w.frameB = fa ∨ w.frameB = fb

theorem frameBusy_iff (s : State) (fa fb : Nat) :
    s.swaps.any (fun w => w.frameA == fa || w.frameA == fb || w.frameB == fa || w.frameB == fb) = true ↔ FrameBusy s fa fb := by
  simp only [FrameBusy, List.any_eq_true, Bool.or_eq_true, beq_iff_eq, or_assoc]

/-- The swap that `pswap` starts of two pages. -/
def newSwap (s : State) (c : Ctx) (f : SF) (fa fb bits : Nat) : PageSwap :=
  { id := s.nextId, flight := s.nextId, pteA := c.pair f.sa.toNat, pteB := c.pair f.sb.toNat, frameA := fa, frameB := fb, chunks := 2 ^ (bits - 12),
    next := 0, space := c.r.space }

/-- The flight of a `pswap`, whose result the end of the swap settles. -/
def swapFlight (s : State) (c : Ctx) (f : SF) : Flight := { Flight.new s c .swap with dests := openScalar c f.sd.toNat }

/-- The device once `pswap` has started its swap. -/
def swapStarted (s : State) (c : Ctx) (f : SF) (fa fb bits : Nat) : State :=
  { addFlight s (swapFlight s c f) with swaps := s.swaps ++ [newSwap s c f fa fb bits] }

theorem pswap_noLeaf (h : Issues s c (.pswap f)) (hs : c.super = true)
    (hn : swapEntry s (c.pair f.sa.toNat) = none ∨ swapEntry s (c.pair f.sb.toNat) = none) : AnswersLater s c (.pswap f) f 2 := by
  refine answersLater_of_exec h ((exec_pswap f s).trans ((runWord_super h hs _).trans ?_))
  rcases hn with hn | hn
  · simp only [hn]
  · cases ha : swapEntry s (c.pair f.sa.toNat) <;> simp only [hn, ha]

section
variable {fa fb na nb : Nat} {ea eb : DWord} (ha : swapEntry s (c.pair f.sa.toNat) = some (fa, na, ea))
  (hb : swapEntry s (c.pair f.sb.toNat) = some (fb, nb, eb))
include ha hb

theorem pswap_sizes (h : Issues s c (.pswap f)) (hs : c.super = true) (hn : na ≠ nb) : AnswersLater s c (.pswap f) f 1 := by
  refine answersLater_of_exec h ((exec_pswap f s).trans ((runWord_super h hs _).trans ?_))
  simp only [ha, hb, if_pos hn]

theorem pswap_busy (h : Issues s c (.pswap f)) (hs : c.super = true) (hn : na = nb) (hbusy : FrameBusy s fa fb) : AnswersLater s c (.pswap f) f 3 := by
  refine answersLater_of_exec h ((exec_pswap f s).trans ((runWord_super h hs _).trans ?_))
  simp only [ha, hb, if_neg (not_not.mpr hn), if_pos ((frameBusy_iff s fa fb).mpr hbusy)]

theorem pswap_starts (h : Issues s c (.pswap f)) (hs : c.super = true) (hn : na = nb) (hfree : ¬ FrameBusy s fa fb) :
    exec (.pswap f) s = .next (settle (swapStarted s c f fa fb na) c f.mark .next) := by
  refine (exec_pswap f s).trans ((runWord_super h hs _).trans ?_)
  simp only [ha, hb, if_neg (not_not.mpr hn), if_neg (mt (frameBusy_iff s fa fb).mp hfree)]
  rfl

end

theorem undisturbed_swapStarted (s : State) (c : Ctx) (f : SF) (fa fb bits : Nat) : Undisturbed s (swapStarted s c f fa fb bits) :=
  (undisturbed_addFlight s _).trans .of_eq

/-! ### `pbset` (R253, R376) -/

/-- The flight of a `pbset` that reads its bytes by these parts. -/
def playbillFlight (s : State) (c : Ctx) (f : SF) (image : Bool) (parts : List Part) : Flight :=
  { Flight.new s c (.playbill f.imm.toNat image) with parts := parts, dests := openScalar c f.sd.toNat }

/-- A `pbset` reads no bytes: it empties a slot, or names one that takes no image. -/
def readsNothing (c : Ctx) (f : SF) (image : Bool) : Bool := image && (c.pair f.sa.toNat == 0 || f.imm.toNat < 7 || 16 ≤ f.imm.toNat)

/-- Where its bytes are read, a `pbset` launches with them. -/
theorem playbillSet_super {image : Bool} (bytes : Nat) (h : Issues s c i) (hs : c.super = true) : playbillSet i f image bytes s =
    .next (finish s c f.mark (if readsNothing c f image then .done (launchFlight s c (playbillFlight s c f image [])) .next
      else globalAccess s c .load 8 bytes 8 [(127, BitVec.ofNat 64 (c.pair f.sa.toNat))] (fun _ => true) (fun u seen =>
        .done (launchFlight u c (playbillFlight u c f image (seen.map (fun q => globalUnit u q .read [])))) .next))) :=
  runWord_super h hs _

theorem playbillSet_empty {image : Bool} (bytes : Nat) (h : Issues s c i) (hs : c.super = true) (hr : readsNothing c f image = true) :
    playbillSet i f image bytes s = .next (settle (launchFlight s c (playbillFlight s c f image [])) c f.mark .next) := by
  rw [playbillSet_super bytes h hs, if_pos hr]; rfl

theorem playbillSet_reads {image : Bool} {bytes : Nat} (h : Issues s c i) (hs : c.super = true) (hr : readsNothing c f image = false) {s1 s2 : State}
    {seen : List Seen} (hck : checkGlobal s c .load 8 bytes 8 [(127, BitVec.ofNat 64 (c.pair f.sa.toNat))] = .ok s1 seen)
    (ht : touchAll s1 c false seen = some s2) : playbillSet i f image bytes s =
      .next (settle (launchFlight s2 c (playbillFlight s2 c f image (seen.map (fun q => globalUnit s2 q .read [])))) c f.mark .next) := by
  rw [playbillSet_super bytes h hs, hr, if_neg Bool.false_ne_true, globalAccess_one hck ht]; rfl

end

/-- Settles O47, word by word. The order of `pswap`'s statuses 2, 1, 3 is the model's choice (log 77). -/
theorem deviceServiceWords : Obligations.DeviceServiceWords := by
  intro s c
  refine ⟨fun f => pbgetRng_reads, fun f => pbgetProt_reads, fun f h hp => ⟨hpost_unqueued h hp, hpost_posts h hp⟩,
    fun f h hp => ⟨launch_untargeted h hp, fun q n hq hn => ⟨launch_full hq hn h hp, fun hroom => ⟨fun _ _ _ _ => launch_traps hq hn h hp hroom,
      fun _ _ _ _ _ _ _ _ _ => launch_appends hq hn h hp hroom⟩⟩⟩,
    fun i f hi h hs hw => ?_, fun f h hs => ⟨pswap_noLeaf h hs, fun fa fb na nb ea eb ha hb => ⟨pswap_sizes ha hb h hs, pswap_busy ha hb h hs, fun hn hfree => ?_⟩⟩,
    fun f h hs hr => ?_, fun i f image hi h hs s1 seen s2 hck ht => ?_⟩
  · have he : exec i s = tlbinv i f s := by rcases hi with rfl | rfl | rfl <;> rfl
    exact he.trans (tlbinv_waits h hs hw)
  · obtain ⟨hregs, -, hpc⟩ := (undisturbed_swapStarted s c f fa fb na).settled (issuing_some h.1).2 f.mark
    exact ⟨_, newSwap s c f fa fb na, _, pswap_starts ha hb h hs hn hfree, rfl, rfl, rfl, rfl, rfl, rfl, rfl, rfl, rfl, rfl, hregs, rfl, rfl, hpc⟩
  · refine ⟨_, (exec_pbsetProt f s).trans (playbillSet_empty _ h hs ?_), rfl, rfl, rfl⟩
    simp only [readsNothing, Bool.true_and, Bool.or_eq_true, beq_iff_eq, decide_eq_true_eq]
    omega
  · rcases hi with ⟨rfl, rfl⟩ | ⟨rfl, rfl, ha, hlo, hhi⟩
    · exact ⟨_, (exec_pbsetRng f s).trans (playbillSet_reads h hs rfl hck ht), rfl, rfl, rfl⟩
    · refine ⟨_, (exec_pbsetProt f s).trans (playbillSet_reads h hs ?_ hck ht), rfl, rfl, rfl⟩
      simp [readsNothing, ha, hlo, hhi]

end Sys2Proof.Machine
